-- ==== Sys2Proof/Word.lean ====
section
/-! DEFINITION. Word types of the AH-7716-LC and their plainest arithmetic (R6, R7, R75). -/

namespace Sys2Proof

abbrev Byte := BitVec 8
abbrev Half := BitVec 16
abbrev Word := BitVec 32
abbrev DWord := BitVec 64

/-- The field [hi:lo] of a natural number, as an unsigned number: bits(x, hi, lo) of R75. -/
def bitsOf (x hi lo : Nat) : Nat := (x >>> lo) % 2 ^ (hi + 1 - lo)

/-- sext(x, n) of R75: the low n bits of x read as a two's complement integer. -/
def sextNat (x n : Nat) : Int :=
  let m := x % 2 ^ n
  if 2 * m < 2 ^ n then (m : Int) else (m : Int) - ((2 ^ n : Nat) : Int)

/-- The low n bits of an integer in two's complement, as an unsigned number. -/
def wrapInt (x : Int) (n : Nat) : Nat := (x % ((2 ^ n : Nat) : Int)).toNat

end Sys2Proof
end

