-- ==== Sys2Proof/Syntax.lean ====
section
/-! DEFINITION. The instruction set and the device events: one constructor of `Instr` per row of
spec/opcode_table.json. Instruction rows carry the fields of their encoding (R45, R49); event rows carry what the
event is about (which group, command, core, die, host value). -/

namespace Sys2Proof

/-- The engine codes of R32 (%TCAUSE): K V M X D B. -/
inductive Eng where
  | k | v | m | x | d | b
  deriving DecidableEq, Repr

def Eng.code : Eng → Nat
  | .k => 0 | .v => 1 | .m => 2 | .x => 3 | .d => 4 | .b => 5

/-- Guard of a K-form word: q[qg] XOR qn (R45, R47). -/
structure KG where
  q : BitVec 3
  n : Bool
  deriving DecidableEq, Repr

/-- First word of a V-form instruction without its opcode (R45): guard pg, pn and the fields d, a, b. -/
structure VF where
  pg : BitVec 4
  pn : Bool
  d : BitVec 7
  a : BitVec 7
  b : BitVec 7
  deriving DecidableEq, Repr

/-- Extension word of the V and B engines (R49). -/
structure VX where
  c : BitVec 7
  ty : BitVec 3
  bk : BitVec 2
  rm : BitVec 2
  sat : Bool
  imm : BitVec 16
  deriving DecidableEq, Repr

/-- Extension word of the M engine (R49); ATOM and CAS read imm as aop [15:12] and off12 [11:0]. -/
structure MX where
  c : BitVec 7
  sz : BitVec 3
  sp : BitVec 3
  sc : BitVec 3
  imm : BitVec 16
  deriving DecidableEq, Repr

/-- An illegal-line defect: lane, tag of that lane and subcode of cause 0x01 (R43, R58). -/
structure LineDefect where
  lane : Nat
  tag : BitVec 4
  sub : Nat
  deriving DecidableEq, Repr

/-- An illegal-instruction defect: lane, tag, opcode, subcode of cause 0x02 and EXT (R58). -/
structure WordDefect where
  lane : Nat
  tag : BitVec 4
  op : BitVec 6
  sub : Nat
  ext : Bool
  deriving DecidableEq, Repr

/-- A place of a group: the core key (die * 256 + %CORE) and the slot index on it (R15). -/
structure Place where
  core : Nat
  slot : Nat
  deriving DecidableEq, Repr

/-- What the sensors of a die read at a telemetry sample (R362, R363); an input of the machine. -/
structure Sensors where
  power : Word
  current : Word
  volt : Half
  temp : Half
  hbmTemp : Half
  inlet : Half
  rise : Word
  other : Nat
  deriving DecidableEq, Repr

/-- An access that another package makes to this one (R411). -/
inductive RemoteOp where
  | read (count : Nat)
  | write (bytes : List Byte)
  /-- ATOM with operation aop, and CAS, of 2^sz bytes at SYS scope (R177, R178, R411) -/
  | atomic (aop sz c : Nat)
  | cas (sz e n : Nat)
  deriving DecidableEq, Repr

/-- An error that the device detects (R398, R399): class, die and unit, whether the retry failed, whether a good
copy repairs the data, the memory cells that are lost, and the group whose register or row is lost, if one. -/
structure ErrorReport where
  cls : BitVec 4
  die : Nat
  unit : Nat
  lasting : Bool
  repaired : Bool
  cells : List Nat
  owner : Option Nat
  addr : DWord
  deriving DecidableEq, Repr

/-- One constructor per row of the opcode table. -/
inductive Instr where
  /-- NOP (R99): 32-bit K-engine no-operation. -/
  | nop (g : KG)
  /-- NOP_64 (R99): 64-bit K-engine no-operation; imm32 is ignored. -/
  | nop64 (g : KG) (imm : BitVec 32)
  /-- SMOV (R101): copies s[a] into s[d]. -/
  | smov (g : KG) (d a : BitVec 6)
  /-- SMOV_LC (R101): copies loop counter lc[N], zero-extended, into s[d]. -/
  | smovLc (g : KG) (d : BitVec 6) (lc : BitVec 2)
  /-- SLI (R102): loads sext(imm16) into s[d]. -/
  | sli (g : KG) (d : BitVec 6) (imm : BitVec 16)
  /-- SLI_64 (R102): loads a 48-bit sign-extended constant into s[d]. -/
  | sli64 (g : KG) (d : BitVec 6) (hi : BitVec 16) (imm : BitVec 32)
  /-- SADD (R103): s[d] := s[a] + s[b], modulo 2^64. -/
  | sadd (g : KG) (d a b : BitVec 6)
  /-- SADD_IMM (R103): s[d] := s[a] + sext(imm32). -/
  | saddImm (g : KG) (d a : BitVec 6) (imm : BitVec 32)
  /-- SSUB (R103): s[d] := s[a] - s[b], modulo 2^64. -/
  | ssub (g : KG) (d a b : BitVec 6)
  /-- SSUB_IMM (R103): s[d] := s[a] - sext(imm32). -/
  | ssubImm (g : KG) (d a : BitVec 6) (imm : BitVec 32)
  /-- SMUL (R103): s[d] := low 64 bits of s[a] x s[b]. -/
  | smul (g : KG) (d a b : BitVec 6)
  /-- SMUL_IMM (R103): s[d] := low 64 bits of s[a] x sext(imm32). -/
  | smulImm (g : KG) (d a : BitVec 6) (imm : BitVec 32)
  /-- SMUL_HI (R103): s[d] := high 64 bits of the signed 128-bit product. -/
  | smulHi (g : KG) (d a b : BitVec 6)
  /-- SMUL_HI_IMM (R103): signed high product with an immediate multiplier. -/
  | smulHiImm (g : KG) (d a : BitVec 6) (imm : BitVec 32)
  /-- SMUL_HIU (R103): s[d] := high 64 bits of the unsigned 128-bit product. -/
  | smulHiu (g : KG) (d a b : BitVec 6)
  /-- SMUL_HIU_IMM (R103): unsigned high product with an immediate multiplier. -/
  | smulHiuImm (g : KG) (d a : BitVec 6) (imm : BitVec 32)
  /-- SAND (R103): s[d] := s[a] AND s[b]. -/
  | sand (g : KG) (d a b : BitVec 6)
  /-- SAND_IMM (R103): s[d] := s[a] AND sext(imm32). -/
  | sandImm (g : KG) (d a : BitVec 6) (imm : BitVec 32)
  /-- SOR (R103): s[d] := s[a] OR s[b]. -/
  | sor (g : KG) (d a b : BitVec 6)
  /-- SOR_IMM (R103): s[d] := s[a] OR sext(imm32). -/
  | sorImm (g : KG) (d a : BitVec 6) (imm : BitVec 32)
  /-- SXOR (R103): s[d] := s[a] XOR s[b]. -/
  | sxor (g : KG) (d a b : BitVec 6)
  /-- SXOR_IMM (R103): s[d] := s[a] XOR sext(imm32). -/
  | sxorImm (g : KG) (d a : BitVec 6) (imm : BitVec 32)
  /-- SSHL (R104): s[d] := s[a] shifted left by bits [5:0] of s[b]. -/
  | sshl (g : KG) (d a b : BitVec 6)
  /-- SSHL_IMM (R104): left shift by an immediate count of 0 to 63. -/
  | sshlImm (g : KG) (d a n : BitVec 6)
  /-- SSHR (R104): logical right shift of s[a] by bits [5:0] of s[b]. -/
  | sshr (g : KG) (d a b : BitVec 6)
  /-- SSHR_IMM (R104): logical right shift by an immediate count. -/
  | sshrImm (g : KG) (d a n : BitVec 6)
  /-- SSHR_A (R104): arithmetic right shift of s[a] by bits [5:0] of s[b]. -/
  | sshrA (g : KG) (d a b : BitVec 6)
  /-- SSHR_A_IMM (R104): arithmetic right shift by an immediate count. -/
  | sshrAImm (g : KG) (d a n : BitVec 6)
  /-- SMIN (R103): signed minimum of s[a] and s[b]. -/
  | smin (g : KG) (d a b : BitVec 6)
  /-- SMIN_IMM (R103): signed minimum with an immediate. -/
  | sminImm (g : KG) (d a : BitVec 6) (imm : BitVec 32)
  /-- SMAX (R103): signed maximum of s[a] and s[b]. -/
  | smax (g : KG) (d a b : BitVec 6)
  /-- SMAX_IMM (R103): signed maximum with an immediate. -/
  | smaxImm (g : KG) (d a : BitVec 6) (imm : BitVec 32)
  /-- SMINU (R103): unsigned minimum of s[a] and s[b]. -/
  | sminu (g : KG) (d a b : BitVec 6)
  /-- SMINU_IMM (R103): unsigned minimum with an immediate. -/
  | sminuImm (g : KG) (d a : BitVec 6) (imm : BitVec 32)
  /-- SMAXU (R103): unsigned maximum of s[a] and s[b]. -/
  | smaxu (g : KG) (d a b : BitVec 6)
  /-- SMAXU_IMM (R103): unsigned maximum with an immediate. -/
  | smaxuImm (g : KG) (d a : BitVec 6) (imm : BitVec 32)
  /-- SCMP (R105): sets q[d] from a comparison of s[a] with s[b]. -/
  | scmp (g : KG) (d : BitVec 3) (a b : BitVec 6) (cc : BitVec 4)
  /-- SCMP_IMM (R105): sets q[d] from a comparison of s[a] with sext(imm32). -/
  | scmpImm (g : KG) (d : BitVec 3) (a : BitVec 6) (cc : BitVec 4) (imm : BitVec 32)
  /-- SSEL (R106): selects s[a] or s[b] into s[d] by a q-register. -/
  | ssel (g : KG) (d a b : BitVec 6) (q : BitVec 3)
  /-- QLOG (R107): applies a 4-bit truth table to two q-registers. -/
  | qlog (g : KG) (d a b : BitVec 3) (f : BitVec 4)
  /-- SCSR_READ (R108): reads a system register into s[d]. -/
  | scsrRead (g : KG) (d : BitVec 6) (num : BitVec 12)
  /-- SCSR_WRITE (R109): writes s[d] to a system register after the access checks of R32. -/
  | scsrWrite (g : KG) (d : BitVec 6) (num : BitVec 12)
  /-- SCSR_SWAP (R109): swaps s[d] with a system register. -/
  | scsrSwap (g : KG) (d : BitVec 6) (num : BitVec 12)
  /-- BR (R111): uniform branch to a line at an offset when its guard holds. -/
  | br (g : KG) (off : BitVec 22)
  /-- BRV (R115): divergent branch that splits active lanes by a predicate and pushes a divergence entry. -/
  | brv (p : BitVec 4) (pn : Bool) (off : BitVec 32)
  /-- JOIN (R116): ends a divergent region: dispatches pending lanes or pops the entry. -/
  | join
  /-- CALL (R117): pushes a return entry and transfers to a line. -/
  | call (g : KG) (off : BitVec 22)
  /-- CALLV_PAIR (R118): per-lane call to targets held in a v-register pair. -/
  | callvPair (g : KG) (a : BitVec 6)
  /-- CALLV_REG (R118): call to the line whose address is in s[a]. -/
  | callvReg (g : KG) (a : BitVec 6)
  /-- RET (R119): returns from a call or dispatches the next per-lane target. -/
  | ret (g : KG)
  /-- JMP (R112): transfers to the line whose address is in s[a]. -/
  | jmp (g : KG) (a : BitVec 6)
  /-- LOOP (R122): opens a counted hardware loop, or skips its body for a count of 0. -/
  | loopOpen (g : KG) (lc : BitVec 2) (byImm : Bool) (a : BitVec 6) (e count : BitVec 16)
  /-- LINE_END_ACTION (R123): on completing a loop's end line, decrements the loop counter and loops back or unbinds. -/
  | lineEndAction
  /-- LBRK (R125): leaves a bound loop and every loop bound after it. -/
  | lbrk (g : KG) (lc : BitVec 2)
  /-- BAR (R128): arrives at a team barrier, completing the phase when it is satisfied. -/
  | bar (g : KG) (id : BitVec 4) (a : BitVec 6)
  /-- MWATCH (R131): arms a watch slot on a memory location with an expected value. -/
  | mwatch (g : KG) (ws : BitVec 2) (a b : BitVec 6) (sp sc : BitVec 3) (wide : Bool)
  /-- MWAIT (R132): waits until a watched location differs from its expected value or a time-out passes. -/
  | mwait (g : KG) (d a : BitVec 6) (which : BitVec 4)
  /-- MWAIT_TIMEOUT (R132): the MWAIT time-out expires and s[d] := 0. -/
  | mwaitTimeout
  /-- TRAP (R134): raises software trap cause 0x19 with a code. -/
  | trap (g : KG) (imm : BitVec 16)
  /-- BKPT (R135): raises breakpoint cause 0x16 and stops the whole group. -/
  | bkpt (g : KG) (imm : BitVec 16)
  /-- RFT (R137): returns to user level, installing the entry capture and resuming each engine at its %EPC. -/
  | rft
  /-- PARK_WAIT (R138): writes the control record and frees the slot as a wait park. -/
  | parkWait
  /-- PARK_PREEMPT (R138): writes the control record and frees the slot as a pre-emption park. -/
  | parkPreempt
  /-- PARK_END (R138): frees the slot and ends the occupant, abnormally at trap level. -/
  | parkEnd
  /-- LEAVE (R139): acquires a power token from the pool while %POWCOMPAT is 1. -/
  | leave (g : KG)
  /-- LEAVR (R139): returns a held power token while %POWCOMPAT is 1. -/
  | leavr (g : KG)
  /-- FGMARK (R140): reports a finished denoising step to the frame governor after earlier commands complete. -/
  | fgmark (g : KG) (a : BitVec 6)
  /-- GOVERNOR_APPLY_MARK (R294): the governor stamps a ready mark, updates EWMA and may drop a step or set LATE. -/
  | governorApplyMark (die : Nat)
  /-- FGPLAN (R141): reads the current plan, the LATE flag and CHANGED into s[d]. -/
  | fgplan (g : KG) (d : BitVec 6)
  /-- SPAWN (R306): checks a task card and makes the task waiting or ready. -/
  | spawn (g : KG) (a : BitVec 6)
  /-- AWAIT (R307): waits for a future to become full or faulted, adopting its owner where possible. -/
  | await (g : KG) (d a : BitVec 6) (q : BitVec 3)
  /-- FSET (R311): sets an empty future full with a value and wakes its waiters. -/
  | fset (g : KG) (a b : BitVec 6)
  /-- LOCKA (R312): acquires a lock, waiting or adopting its holder. -/
  | locka (g : KG) (a : BitVec 6)
  /-- LOCKA_TRY (R312): tries once to acquire a lock and reports success in q[d]. -/
  | lockaTry (g : KG) (q : BitVec 3) (a : BitVec 6)
  /-- LOCKR (R313): releases a lock held by the issuer. -/
  | lockr (g : KG) (a : BitVec 6)
  /-- YIELD (R315): a depth-0 task traps to park when a waiting item of equal or higher priority cannot find a slot. -/
  | yield (g : KG)
  /-- EXIT (R317): waits for outstanding commands, releases resources and ends the occupant. -/
  | exit (g : KG)
  /-- LAUNCH (R320): checks a launch record, adds its team count to the counter and queues it. -/
  | launch (g : KG) (a : BitVec 6)
  /-- CJOIN (R322): waits until a completion counter reads 0. -/
  | cjoin (g : KG) (a : BitVec 6)
  /-- VGIVE (R324): gives the top n v-registers to the team's register credit. -/
  | vgive (g : KG) (imm : BitVec 16)
  /-- VCLAIM (R324): claims n v-registers from the team credit in claim order. -/
  | vclaim (g : KG) (imm : BitVec 16)
  /-- MOV (R148): moves the b operand into v[d] per enabled lane. -/
  | mov (f : VF)
  /-- MOV_64 (R148): typed move with s, stream or immediate operand. -/
  | mov64 (f : VF) (x : VX)
  /-- ADD (R148): per-lane integer addition. -/
  | vadd (f : VF)
  /-- ADD_64 (R148): typed integer addition with optional saturation. -/
  | vadd64 (f : VF) (x : VX)
  /-- SUB (R148): per-lane integer subtraction. -/
  | vsub (f : VF)
  /-- SUB_64 (R148): typed integer subtraction. -/
  | vsub64 (f : VF) (x : VX)
  /-- MUL (R148): per-lane integer multiplication, low bits. -/
  | vmul (f : VF)
  /-- MUL_64 (R148): typed integer multiplication. -/
  | vmul64 (f : VF) (x : VX)
  /-- MULH (R148): high half of the exact per-lane product. -/
  | mulh (f : VF)
  /-- MULH_64 (R148): typed high product. -/
  | mulh64 (f : VF) (x : VX)
  /-- MAD (R148): a x B + C with one wrap or saturation. -/
  | mad (f : VF) (x : VX)
  /-- AND (R148): per-lane bitwise AND. -/
  | vand (f : VF)
  /-- AND_64 (R148): typed bitwise AND. -/
  | vand64 (f : VF) (x : VX)
  /-- OR (R148): per-lane bitwise OR. -/
  | vor (f : VF)
  /-- OR_64 (R148): typed bitwise OR. -/
  | vor64 (f : VF) (x : VX)
  /-- XOR (R148): per-lane bitwise XOR. -/
  | vxor (f : VF)
  /-- XOR_64 (R148): typed bitwise XOR. -/
  | vxor64 (f : VF) (x : VX)
  /-- SHL (R148): per-lane left shift. -/
  | shl (f : VF)
  /-- SHL_64 (R148): typed left shift. -/
  | shl64 (f : VF) (x : VX)
  /-- SHR (R148): per-lane logical right shift. -/
  | shr (f : VF)
  /-- SHR_64 (R148): typed logical right shift. -/
  | shr64 (f : VF) (x : VX)
  /-- SRA (R148): per-lane arithmetic right shift. -/
  | sra (f : VF)
  /-- SRA_64 (R148): typed arithmetic right shift. -/
  | sra64 (f : VF) (x : VX)
  /-- MIN (R148): per-lane integer minimum. -/
  | vmin (f : VF)
  /-- MIN_64 (R148): typed integer minimum. -/
  | vmin64 (f : VF) (x : VX)
  /-- MAX (R148): per-lane integer maximum. -/
  | vmax (f : VF)
  /-- MAX_64 (R148): typed integer maximum. -/
  | vmax64 (f : VF) (x : VX)
  /-- ABS (R148): per-lane absolute value. -/
  | vabs (f : VF)
  /-- ABS_64 (R148): typed absolute value with optional saturation. -/
  | vabs64 (f : VF) (x : VX)
  /-- CLZ (R148): per-lane count of leading zeros. -/
  | clz (f : VF)
  /-- CLZ_64 (R148): typed count of leading zeros. -/
  | clz64 (f : VF) (x : VX)
  /-- POPC (R148): per-lane population count. -/
  | popc (f : VF)
  /-- POPC_64 (R148): typed population count. -/
  | popc64 (f : VF) (x : VX)
  /-- BFE (R149): extracts a bit field per lane. -/
  | bfe (f : VF)
  /-- BFE_64 (R149): typed bit-field extract. -/
  | bfe64 (f : VF) (x : VX)
  /-- BFI (R149): inserts a bit field per lane. -/
  | bfi (f : VF) (x : VX)
  /-- SEL (R152): selects A or B per lane by a predicate. -/
  | sel (f : VF) (x : VX)
  /-- CMP (R150): per-lane integer comparison into a predicate. -/
  | cmp (f : VF)
  /-- CMP_64 (R150): typed integer comparison into a predicate. -/
  | cmp64 (f : VF) (x : VX)
  /-- PLOG (R151): per-lane predicate truth-table logic. -/
  | plog (f : VF) (x : VX)
  /-- CVT (R155): converts between numeric formats per lane. -/
  | cvt (f : VF) (x : VX)
  /-- FADD (R156): per-lane floating-point addition. -/
  | fadd (f : VF)
  /-- FADD_64 (R156): typed floating-point addition with rounding and saturation. -/
  | fadd64 (f : VF) (x : VX)
  /-- FSUB (R156): per-lane floating-point subtraction. -/
  | fsub (f : VF)
  /-- FSUB_64 (R156): typed floating-point subtraction. -/
  | fsub64 (f : VF) (x : VX)
  /-- FMUL (R156): per-lane floating-point multiplication. -/
  | fmul (f : VF)
  /-- FMUL_64 (R156): typed floating-point multiplication. -/
  | fmul64 (f : VF) (x : VX)
  /-- FFMA (R156): fused multiply-add rounded once. -/
  | ffma (f : VF) (x : VX)
  /-- FMIN (R157): per-lane minimumNumber. -/
  | fmin (f : VF)
  /-- FMIN_64 (R157): typed minimumNumber. -/
  | fmin64 (f : VF) (x : VX)
  /-- FMAX (R157): per-lane maximumNumber. -/
  | fmax (f : VF)
  /-- FMAX_64 (R157): typed maximumNumber. -/
  | fmax64 (f : VF) (x : VX)
  /-- FCMP (R150): per-lane floating-point comparison into a predicate. -/
  | fcmp (f : VF)
  /-- FCMP_64 (R150): typed floating-point comparison. -/
  | fcmp64 (f : VF) (x : VX)
  /-- FRCP (R156): per-lane reciprocal, correctly rounded. -/
  | frcp (f : VF)
  /-- FRCP_64 (R156): typed reciprocal. -/
  | frcp64 (f : VF) (x : VX)
  /-- FRSQ (R156): per-lane reciprocal square root. -/
  | frsq (f : VF)
  /-- FRSQ_64 (R156): typed reciprocal square root. -/
  | frsq64 (f : VF) (x : VX)
  /-- FSQRT (R156): per-lane square root. -/
  | fsqrt (f : VF)
  /-- FSQRT_64 (R156): typed square root. -/
  | fsqrt64 (f : VF) (x : VX)
  /-- FEXP2 (R156): per-lane 2^A. -/
  | fexp2 (f : VF)
  /-- FEXP2_64 (R156): typed 2^A. -/
  | fexp264 (f : VF) (x : VX)
  /-- FLOG2 (R156): per-lane log2 A. -/
  | flog2 (f : VF)
  /-- FLOG2_64 (R156): typed log2 A. -/
  | flog264 (f : VF) (x : VX)
  /-- FSIN (R156): per-lane sine of an argument in turns. -/
  | fsin (f : VF)
  /-- FSIN_64 (R156): typed sine in turns. -/
  | fsin64 (f : VF) (x : VX)
  /-- FCOS (R156): per-lane cosine of an argument in turns. -/
  | fcos (f : VF)
  /-- FCOS_64 (R156): typed cosine in turns. -/
  | fcos64 (f : VF) (x : VX)
  /-- FDIV (R156): per-lane floating-point division. -/
  | fdiv (f : VF)
  /-- FDIV_64 (R156): typed floating-point division. -/
  | fdiv64 (f : VF) (x : VX)
  /-- FCLASS (R158): writes a one-hot class mask per element. -/
  | fclass (f : VF)
  /-- FCLASS_64 (R158): typed class mask. -/
  | fclass64 (f : VF) (x : VX)
  /-- SHUF (R159): indexed shuffle of v[a] across lanes. -/
  | shuf (f : VF)
  /-- SHUF_64 (R159): shuffle with mode IDX, UP, DOWN or XOR. -/
  | shuf64 (f : VF) (x : VX)
  /-- VOTE_ANY (R160): sets q[d] if any enabled lane's predicate contribution is 1. -/
  | voteAny (f : VF)
  /-- VOTE_64 (R160): vote in mode ANY, ALL, EQ or BALLOT into a uniform register. -/
  | vote64 (f : VF) (x : VX)
  /-- GRED (R161): tree reduction over enabled lanes, integer add form. -/
  | gred (f : VF)
  /-- GRED_64 (R161): typed group reduction by the tree of R95. -/
  | gred64 (f : VF) (x : VX)
  /-- SCAN (R162): inclusive prefix, integer add form. -/
  | scan (f : VF)
  /-- SCAN_64 (R162): typed prefix scan with exclusive and reverse flags. -/
  | scan64 (f : VF) (x : VX)
  /-- QMX (R166): quantises one granule into a block-format record. -/
  | qmx (f : VF) (x : VX)
  /-- DQMX (R167): decodes one block-format granule into FP32 elements. -/
  | dqmx (f : VF) (x : VX)
  /-- PACK (R169): converts registers into narrow codes with a scale. -/
  | pack (f : VF) (x : VX)
  /-- UNPK (R169): converts narrow codes into FP32 registers with a scale. -/
  | unpk (f : VF) (x : VX)
  /-- GETS (R164): writes a placement value such as lane index or mask per lane. -/
  | gets (f : VF)
  /-- MOVS (R163): copies one lane's value into an s-register. -/
  | movs (f : VF) (x : VX)
  /-- MOVP (R153): sets a predicate from v[a] being nonzero. -/
  | movp (f : VF)
  /-- MOVP_64 (R153): moves between a predicate and a v-register in either direction. -/
  | movp64 (f : VF) (x : VX)
  /-- LD (R174): per-lane plain load from GLOBAL. -/
  | ld (f : VF)
  /-- LD_64 (R174): per-lane plain load of any size and space. -/
  | ld64 (f : VF) (x : MX)
  /-- ST (R174): per-lane plain store to GLOBAL. -/
  | st (f : VF)
  /-- ST_64 (R174): per-lane plain store of any size and space. -/
  | st64 (f : VF) (x : MX)
  /-- LDS (R174): per-lane acquire load at a scope. -/
  | lds (f : VF) (x : MX)
  /-- STS (R174): per-lane release store at a scope. -/
  | sts (f : VF) (x : MX)
  /-- LDL (R174): per-lane load from the lane's own slice at a uniform offset. -/
  | ldl (f : VF) (x : MX)
  /-- STL (R174): per-lane store to the lane's own slice at a uniform offset. -/
  | stl (f : VF) (x : MX)
  /-- LDU (R174): uniform load into an s-register. -/
  | ldu (f : VF)
  /-- LDU_64 (R174): uniform load with space, size, offset and optional acquire. -/
  | ldu64 (f : VF) (x : MX)
  /-- STU (R174): uniform store from an s-register. -/
  | stu (f : VF)
  /-- STU_64 (R174): uniform store with space, size, offset and optional release. -/
  | stu64 (f : VF) (x : MX)
  /-- ATOM (R177): per-lane indivisible read-modify-write selected by aop. -/
  | atom (f : VF) (x : MX)
  /-- CAS (R178): per-lane compare-and-swap. -/
  | cas (f : VF) (x : MX)
  /-- FENCE (R180): acquire-release fence at GROUP scope. -/
  | fence (f : VF)
  /-- FENCE_64 (R180): fence of a chosen kind at a chosen scope. -/
  | fence64 (f : VF) (x : MX)
  /-- TMOV (R184): starts an asynchronous tile-move from a descriptor quad. -/
  | tmov (f : VF)
  /-- TMOV_64 (R189): starts a tile-move that signals a semaphore on completion. -/
  | tmov64 (f : VF) (x : MX)
  /-- MOVE_PROGRESS (R185): a running tile-move reads and writes its next element, paced by a tap in mode 3. -/
  | moveProgress (gid cmd : Nat)
  /-- MEMORY_COMMAND_COMPLETE (R190): a memory command's last write and signal take effect. -/
  | memoryCommandComplete (gid cmd : Nat)
  /-- TMCAST (R192): multicasts a tile along a route string to N-tiles of the die. -/
  | tmcast (f : VF) (x : MX)
  /-- TMCAST_DELIVERY (R192): one delivery of a multicast lands and signals its tile's semaphore. -/
  | tmcastDelivery (gid cmd : Nat)
  /-- TWAIT (R194): waits for selected memory commands to complete and reports errors. -/
  | twait (f : VF)
  /-- TSTAT (R195): reports the number of incomplete selected commands. -/
  | tstat (f : VF)
  /-- SBIND (R199): binds a stream register to a memory range. -/
  | sbind (f : VF)
  /-- SBIND_64 (R199): binds a stream register to memory or a DDA tap. -/
  | sbind64 (f : VF) (x : MX)
  /-- STREAM_FETCH (R200): an element of a memory stream is fetched and arrives in the stream register. -/
  | streamFetch (gid w : Nat)
  /-- SFREE (R202): unbinds a stream register and discards its elements. -/
  | sfree (f : VF)
  /-- SEMW (R196): waits on a semaphore count of 1 or a fault bit, then decrements. -/
  | semw (f : VF)
  /-- SEMW_64 (R196): semaphore wait with count, space, scope and offset. -/
  | semw64 (f : VF) (x : MX)
  /-- SEMS (R196): adds 1 to a semaphore as a release and wakes waiters. -/
  | sems (f : VF)
  /-- SEMS_64 (R196): semaphore signal with count, space, scope and offset. -/
  | sems64 (f : VF) (x : MX)
  /-- SLOT (R197): reserves a slot in a felt ring on a neighbouring die. -/
  | slot (f : VF)
  /-- CSEND (R198): sends a tile over the couch bridge into a reserved slot. -/
  | csend (f : VF)
  /-- CSEND_LANDED (R288): a CSEND payload lands; the ring publishes in reservation order and adds to FULL. -/
  | csendLanded (gid cmd : Nat)
  /-- WLAPP (R203): appends per-lane records to a worklist, taking an append right. -/
  | wlapp (f : VF) (x : MX)
  /-- WORKLIST_AGE_EXPIRY (R328): the oldest record of a list reaches AGE and a drain is launched. -/
  | worklistAgeExpiry (set list : Nat)
  /-- DRAIN_COMPLETE (R328): a drain launch's last team completes, clearing DRAINING. -/
  | drainComplete (launch : Nat)
  /-- WLTAKE (R204): takes worklist records into enabled lanes, adopting or waiting when empty. -/
  | wltake (f : VF) (x : MX)
  /-- WLDONE (R205): releases the group's append right on a set. -/
  | wldone (f : VF)
  /-- WLDONE_64 (R205): releases an append right with a space. -/
  | wldone64 (f : VF) (x : MX)
  /-- GATH (R206): gathers up to eight indexed elements per lane. -/
  | gath (f : VF) (x : MX)
  /-- SCAT (R206): scatters up to eight indexed elements per lane. -/
  | scat (f : VF) (x : MX)
  /-- MCFG (R221): writes an entry of the shadow loop-nest table. -/
  | mcfg (g : KG) (level : BitVec 3) (a b : BitVec 6)
  /-- MCFG_ACT (R221): at trap level, writes an entry of the active loop-nest table. -/
  | mcfgAct (g : KG) (level : BitVec 3) (a b : BitVec 6)
  /-- MNEST (R222): starts a matrix loop nest after checks and a leave request. -/
  | mnest (g : KG)
  /-- MMA (R222): performs one accumulating matrix step. -/
  | mma (g : KG) (a b : BitVec 6)
  /-- MMA_OVW (R222): performs one overwriting matrix step. -/
  | mmaOvw (g : KG) (a b : BitVec 6)
  /-- MATRIX_STEP (R215): the array executes one step of a nest or MMA and advances NEXT. -/
  | matrixStep (gid : Nat)
  /-- X_COMMAND_COMPLETE (R230): an X command's last step, row or signal takes effect. -/
  | xCommandComplete (gid : Nat)
  /-- MFMT (R212): writes a format-table entry after consistency checks. -/
  | mfmt (g : KG) (index : BitVec 4) (a : BitVec 6)
  /-- AWIN (R223): sets the group's accumulator window, clearing new rows. -/
  | awin (g : KG) (a : BitVec 6)
  /-- ACLR (R224): writes +0 to a range of accumulator rows. -/
  | aclr (g : KG) (a : BitVec 6)
  /-- AEPI (R226): converts accumulator rows into an output tile and signals a semaphore. -/
  | aepi (g : KG) (d a b : BitVec 6) (off : BitVec 16) (sp sc : BitVec 3)
  /-- ALD (R225): copies rows from memory into the accumulator. -/
  | ald (g : KG) (d a : BitVec 6)
  /-- AST (R225): copies accumulator rows out, converting to an output format. -/
  | ast (g : KG) (d a : BitVec 6)
  /-- MSTAT_STAT (R227): reports incomplete X commands, HALTED and error state. -/
  | mstatStat (g : KG) (d a : BitVec 6)
  /-- MSTAT_WAIT (R227): waits for earlier X commands, then reports and clears the error record. -/
  | mstatWait (g : KG) (d a : BitVec 6)
  /-- MSTAT_OVF (R227): reads the overflow counter after earlier X commands. -/
  | mstatOvf (g : KG) (d a : BitVec 6)
  /-- MSTAT_OVFC (R227): reads and clears the overflow counter. -/
  | mstatOvfc (g : KG) (d a : BitVec 6)
  /-- MSTAT_FERR (R227): reads the format-error counter. -/
  | mstatFerr (g : KG) (d a : BitVec 6)
  /-- MSTAT_FERRC (R227): reads and clears the format-error counter. -/
  | mstatFerrc (g : KG) (d a : BitVec 6)
  /-- MSTAT_NEST (R227): reads a word of the active loop-nest table. -/
  | mstatNest (g : KG) (d a : BitVec 6)
  /-- MSTAT_NESTS (R227): reads a word of the shadow loop-nest table. -/
  | mstatNests (g : KG) (d a : BitVec 6)
  /-- MSTAT_FMT (R227): reads a format-table entry or snapshot entry. -/
  | mstatFmt (g : KG) (d a : BitVec 6)
  /-- MSTOP (R228): stops earlier nests and MMAs of the group after their current step. -/
  | mstop (g : KG)
  /-- DCLAIM (R253): waits for and takes ownership of the DDA, initialising it. -/
  | dclaim (g : KG)
  /-- DCLAIM_TRY (R253): tries once to take the DDA and reports in q[d]. -/
  | dclaimTry (g : KG) (q : BitVec 3)
  /-- DFREE (R253): stops every domain and releases the DDA. -/
  | dfree (g : KG)
  /-- DPATCH (R254): writes a cell's patch entry. -/
  | dpatch (g : KG) (a b : BitVec 6)
  /-- DINIT (R255): sets Y and R of a range of cells and clears dz and latches. -/
  | dinit (g : KG) (d a b : BitVec 6)
  /-- DSAVE (R261): writes the DDA image of a cell range to UNIT. -/
  | dsave (g : KG) (d a : BitVec 6)
  /-- DSAVE_TQ (R261): writes the tap-queue block to UNIT. -/
  | dsaveTq (g : KG) (d : BitVec 6)
  /-- DREST (R261): checks and restores a DDA image. -/
  | drest (g : KG) (d : BitVec 6)
  /-- DREST_TQ (R261): checks and restores the tap-queue block. -/
  | drestTq (g : KG) (d : BitVec 6)
  /-- DCLK (R256): puts a Stopped domain into Event mode triggered by a tap. -/
  | dclk (g : KG) (dom : BitVec 2) (a : BitVec 6)
  /-- DSTEP (R256): adds a register count of steps to the named domains. -/
  | dstep (g : KG) (mask : BitVec 4) (a : BitVec 6)
  /-- DSTEP_64 (R256): adds an immediate count of steps to the named domains. -/
  | dstep64 (g : KG) (mask : BitVec 4) (imm : BitVec 32)
  /-- DRUN (R256): puts the named domains into Free mode with a register period. -/
  | drun (g : KG) (mask : BitVec 4) (a : BitVec 6)
  /-- DRUN_64 (R256): puts the named domains into Free mode with an immediate period. -/
  | drun64 (g : KG) (mask : BitVec 4) (imm : BitVec 32)
  /-- DHALT (R256): stops the named domains. -/
  | dhalt (g : KG) (mask : BitVec 4)
  /-- DTAP (R257): binds a tap to a cell and a sink. -/
  | dtap (g : KG) (tap : BitVec 4) (a : BitVec 6)
  /-- DRD_Y (R258): reads a cell's integrand. -/
  | drdY (g : KG) (d a : BitVec 6)
  /-- DRD_R (R258): reads a cell's residue. -/
  | drdR (g : KG) (d a : BitVec 6)
  /-- DRD_PATCH (R258): reads a cell's patch entry. -/
  | drdPatch (g : KG) (d a : BitVec 6)
  /-- DRD_DZ (R258): reads a cell's registered dz. -/
  | drdDz (g : KG) (d a : BitVec 6)
  /-- DRD_TAPC (R258): reads a tap counter. -/
  | drdTapc (g : KG) (d a : BitVec 6)
  /-- DRD_TAPN (R258): reads a tap FIFO entry count. -/
  | drdTapn (g : KG) (d a : BitVec 6)
  /-- DRD_PORT (R258): reads an input port's value. -/
  | drdPort (g : KG) (d a : BitVec 6)
  /-- DWR_Y (R259): writes a cell's integrand. -/
  | dwrY (g : KG) (a b : BitVec 6)
  /-- DWR_R (R259): writes a cell's residue. -/
  | dwrR (g : KG) (a b : BitVec 6)
  /-- DWR_PORT (R259): writes an unbound port's value latch. -/
  | dwrPort (g : KG) (a b : BitVec 6)
  /-- DWR_PCFG (R259): configures a port's domain and stream binding. -/
  | dwrPcfg (g : KG) (a b : BitVec 6)
  /-- DWR_TAPC (R259): writes a tap counter. -/
  | dwrTapc (g : KG) (a b : BitVec 6)
  /-- DSTAT_STAT (R260): reports domain modes, ownership and FIFO state. -/
  | dstatStat (g : KG) (d : BitVec 6)
  /-- DSTAT_WAIT (R260): waits until no domain is Counted, then reports status. -/
  | dstatWait (g : KG) (d : BitVec 6)
  /-- DSTAT_STEPS (R260): reads the STEPS count of a domain. -/
  | dstatSteps (g : KG) (d a : BitVec 6)
  /-- DDA_CYCLE (R238): in a cycle, stepping domains sample, compute R237 and capture latches and tap entries. -/
  | ddaCycle (core : Nat)
  /-- FREE_DOMAIN_TICK (R240): a Free domain's PHASE reaches PERIOD and the domain steps. -/
  | freeDomainTick (core : Nat) (dom : BitVec 2)
  /-- BVHSET (R272): reads a scene descriptor and sets the ray-stack depth. -/
  | bvhset (f : VF) (x : VX)
  /-- BEAM (R273): traverses the scene for a tile's frustum into a beam slot. -/
  | beam (f : VF) (x : VX)
  /-- RAY (R276): traces each lane's pixel ray and writes guide values. -/
  | ray (f : VF)
  /-- RAY_64 (R276): 64-bit form of the per-lane ray trace. -/
  | ray64 (f : VF) (x : VX)
  /-- BRES (R277): gives lanes the record addresses of a slot's candidates. -/
  | bres (f : VF) (x : VX)
  /-- BSPLIT (R275): hands the pixels of a valid slot to lanes. -/
  | bsplit (f : VF) (x : VX)
  /-- COVER (R274): writes a whole guide tile from a beam slot. -/
  | cover (f : VF) (x : VX)
  /-- ROBEG (R281): waits for an order word to equal n and takes the order token. -/
  | robeg (f : VF) (x : VX)
  /-- ROEND (R282): stores n+1 to the order word as a release and clears the token. -/
  | roend (f : VF)
  /-- GBST (R278): stores per-lane guide values into a guide tile. -/
  | gbst (f : VF) (x : VX)
  /-- BSTAT_SLOT (R279): reports a beam slot's candidates, VALID, SPLIT and tile. -/
  | bstatSlot (f : VF) (x : VX)
  /-- BSTAT_SCENE (R279): reports the scene descriptor address. -/
  | bstatScene (f : VF) (x : VX)
  /-- BSTAT_DEPTH (R279): reports the ray-stack depth D. -/
  | bstatDepth (f : VF) (x : VX)
  /-- BSTAT_ORD (R279): reports the held order token's sequence. -/
  | bstatOrd (f : VF) (x : VX)
  /-- BSTAT_ORDA (R279): reports the held order word's address. -/
  | bstatOrda (f : VF) (x : VX)
  /-- ILLEGAL_LINE_FAULT (R43): an engine entering a line with a header defect raises fault 0x01. -/
  | illegalLineFault (d : LineDefect)
  /-- ASYNC_TRAP (R370): a class A, E or X cause is taken at the group's next instruction boundary. -/
  | asyncTrap (gid : Nat)
  /-- PARKT_EXPIRY (R449): a spinning wait passes %PARKT and traps with cause 0x1F to park. -/
  | parktExpiry (gid : Nat)
  /-- WATCH_REQUEUE (R138): a change of a parked group's wait object re-queues it. -/
  | watchRequeue (gid : Nat)
  /-- STALL_TIMEOUT (R391): a wait on an unbound stream passes 65,536 cycles and raises 0x18. -/
  | stallTimeout (gid : Nat)
  /-- HANG_TIMER_EXPIRY (R366): a group without progress for %HANGT cycles causes a hang record. -/
  | hangTimerExpiry (gid : Nat)
  /-- GROUP_RESTORE (R380): a parked group is placed and enters trap level on the restore path. -/
  | groupRestore (gid : Nat) (place : Place)
  /-- TASK_START (R300): the launch controller starts the best-fitting ready task in a free slot. -/
  | taskStart (ctx task : Nat) (place : Place)
  /-- TEAM_PLACE (R354): the controller places the next fitting team of a launch on a core or core pair. -/
  | teamPlace (launch : Nat) (places : List Place)
  /-- TEAM_STAGGER_START (R356): the next team of a launch starts once STAGGER cycles have passed. -/
  | teamStaggerStart (launch : Nat) (places : List Place)
  /-- PASSOVER_LIMIT (R354): an item passed over for 1,048,576 cycles blocks equal and lower priority starts. -/
  | passoverLimit (die item : Nat)
  /-- PENDING_LAUNCH_DRAIN (R321): the controller takes the next launch from a core's pending-launch queue. -/
  | pendingLaunchDrain (core : Nat)
  /-- DIE_LIST_TAKE (R432): the controller takes a spilled launch entry from the die launch list. -/
  | dieListTake (ctx die : Nat)
  /-- HOST_LAUNCH_DOORBELL (R349): the host's write of WRPTR submits launch records. -/
  | hostLaunchDoorbell (ctx : Nat) (wrptr : BitVec 64)
  /-- HOST_RECORD_CONSUME (R350): the device copies and checks the next host launch record, rejecting it on failure. -/
  | hostRecordConsume (ctx : Nat)
  /-- TEAM_PARKED (R382): after every group of a pre-empted team has parked, the team record is written and resources freed. -/
  | teamParked (team : Nat)
  /-- CURRENT_GOVERNOR_CYCLE (R359): each cycle the die's leave budget is refilled and queued requests are granted in order. -/
  | currentGovernorCycle (die : Nat)
  /-- TELEMETRY_SAMPLE (R363): each millisecond a die writes a telemetry record to its ring. -/
  | telemetrySample (die : Nat) (r : Sensors)
  /-- CREATE (R405): checks a context descriptor, clears DIE windows and activates the context. -/
  | create (ctx : Nat)
  /-- PREEMPT (R405): requests pre-emption of a team or every team of a launch. -/
  | preempt (ctx : Nat)
  /-- RESUME (R405): returns parked teams to placement. -/
  | resume (ctx : Nat)
  /-- INVAL (R405): starts dropping translations of the context, all or by address. -/
  | inval (ctx : Nat)
  /-- INVAL_COMPLETE (R406): iNVAL ends once dropped translations, older walks and their accesses are done. -/
  | invalComplete (ctx : Nat)
  /-- LRESET (R405): resets the host launch list by setting RDPTR to WRPTR and clearing STATUS. -/
  | lreset (ctx : Nat)
  /-- DESTROY (R405): aborts every group of the context and frees its resources. -/
  | destroy (ctx : Nat)
  /-- CMD_WRITE_WHILE_BUSY (R405): a CMD write while BUSY is ignored and sets LOST. -/
  | cmdWriteWhileBusy (ctx : Nat) (code : BitVec 64)
  /-- UPDATE (R415): verifies a staged firmware image and switches the dies one at a time. -/
  | update
  /-- COMMIT (R414): raises the fused SVN minimum to the running firmware's SVN. -/
  | commit
  /-- RETIRE (R414): schedules a unit for retirement. -/
  | retire
  /-- RECAL (R418): retrains an HBM channel, bridge or link and returns it to service. -/
  | recal
  /-- POWCOMPAT_WRITE (R409): a host write of a die's POWCOMPAT returns or withholds that die's tokens. -/
  | powcompatWrite (die : Nat) (v : BitVec 64)
  /-- DIDT_WRITE (R359): a host write of DIDT changes the refill rate from the next cycle. -/
  | didtWrite (die : Nat) (v : BitVec 64)
  /-- REGISTER_WRITE (R408): a host write to a package, die or descriptor register with no behaviour of its own. -/
  | registerWrite (off : BitVec 25) (v : BitVec 64)
  /-- HOST_BAR2_WRITE (R403): a host write to HBM through BAR2, applied in arrival order as a SYS release. -/
  | hostBar2Write (pa : BitVec 39) (bytes : List (BitVec 8))
  /-- HOST_BAR2_READ (R403): a host read of HBM through BAR2 as a SYS acquire. -/
  | hostBar2Read (pa : BitVec 39) (count : Nat)
  /-- FABRIC_REMOTE_ACCESS (R411): an access from another package is checked against the EXPORT windows and served. -/
  | fabricRemoteAccess (pkg : Nat) (pa : BitVec 52) (op : RemoteOp)
  /-- PACKAGE_UNREACHABLE (R412): a package with no answer for 1 ms becomes unreachable and accesses complete with 0x1C. -/
  | packageUnreachable (pkg : Nat)
  /-- LINK_ERROR_RETRAIN (R410): a Tarzon link error retrains and replays flits, retiring lanes or taking the link down. -/
  | linkErrorRetrain (link : Nat) (laneLost : Bool)
  /-- BRIDGE_LINK_ERROR (R290): a couch bridge link error retrains and replays flits. -/
  | bridgeLinkError (bridge : Nat)
  /-- ERROR_DETECTED (R398): a detected error is retried once and logged as transient or lasting. -/
  | errorDetected (e : ErrorReport)
  /-- UNIT_RETIREMENT (R400): once an emptied unit holds no work, a spare is mapped in and routes regenerated. -/
  | unitRetirement (cls : BitVec 4) (die unit : Nat)
  /-- HBM_RETRAIN (R418): an HBM channel retrains every 64 ms or after a 10 degree temperature move. -/
  | hbmRetrain (die channel : Nat)
  /-- BOOT_VERIFY (R413): the mask ROM verifies the firmware image signature and SVN at start. -/
  | bootVerify (die : Nat)
  /-- GET_VERSION (R413): sPDM request answered over DOE. -/
  | getVersion
  /-- GET_CAPABILITIES (R413): sPDM request answered over DOE. -/
  | getCapabilities
  /-- NEGOTIATE_ALGORITHMS (R413): sPDM algorithm negotiation, SHA-384 and brainpoolP384r1. -/
  | negotiateAlgorithms
  /-- GET_DIGESTS (R413): sPDM request for certificate digests. -/
  | getDigests
  /-- GET_CERTIFICATE (R413): sPDM request for the certificate chain. -/
  | getCertificate (offset length : Nat)
  /-- CHALLENGE (R413): sPDM challenge signed with the alias key. -/
  | challenge (nonce : Nat)
  /-- GET_MEASUREMENTS (R413): sPDM request for measurements 1 to 7. -/
  | getMeasurements (index : Nat)
  /-- SPDM_SESSION_REQUEST (R413): a session request receives an ERROR with UnsupportedRequest. -/
  | spdmSessionRequest
  /-- ILLEGAL_INSTRUCTION_FAULT (R58): a lane word with a reserved opcode, an illegal length, or a nonzero reserved bit or reserved code is issued and takes fault 0x02 with the subcode of R58. -/
  | illegalInstructionFault (d : WordDefect)
  /-- ACCESS_TAKES_EFFECT (R342): a plain load or store of a group takes effect at its home at one instant, some time after issue, in an order that R336 may leave open. -/
  | accessTakesEffect (gid index : Nat)
  /-- DDA_EVENT_APPLIED (R239): the D queue applies an accepted DSTEP or DRUN event to its domains, which changes their mode, and the DRUN completes. -/
  | ddaEventApplied (core : Nat)
  /-- RETRAIN_COMPLETE (R290): a couch bridge or Tarzon link retrain ends: either flits are replayed in order, or the attempt fails and three failures make the failure lasting. -/
  | retrainComplete (bridge : Bool) (index : Nat) (ok : Bool)
  /-- FIRMWARE_SWITCH_END (R415): the live-update switch of one die ends after at most 200 ms: queued events are logged, telemetry resumes, and the next die switches or the update reverts. -/
  | firmwareSwitchEnd (die : Nat) (selfTest : Bool)
  deriving DecidableEq, Repr

end Sys2Proof
end

