-- ==== Sys2Proof/Decode.lean ====
section
/-! DEFINITION. Fetch lines, lane words, the decoder with its encoding faults, and the encoder (R36 to R59, R99,
R146, R170, R220, R252, R270, R304). -/

namespace Sys2Proof

/-- The 32-bit tag of an engine (R38); the 64-bit tag is 8 more. -/
def Eng.tag (e : Eng) : Nat := e.code + 1

def Eng.ofTag (t : Nat) : Option Eng :=
  match t % 8 with
  | 1 => some .k | 2 => some .v | 3 => some .m | 4 => some .x | 5 => some .d | 6 => some .b
  | _ => none

/-- A core holds every engine but X on a shade core and B on an N-tile (R4). -/
def Eng.present (tile : Bool) : Eng → Bool
  | .x => tile
  | .b => !tile
  | _ => true

/-! ## Lane words split into their fields -/

/-- A lane instruction split into the fields of its form (R45, R49): a K form with its 22 body bits, or a V form. -/
inductive Form where
  | kForm (e : Eng) (op : Nat) (g : KG) (body : BitVec 22) (imm : Option Word)
  | vForm (e : Eng) (op : Nat) (f : VF) (x : Option VX) (rsv : Bool)
  | mForm (op : Nat) (f : VF) (x : Option MX)
  deriving DecidableEq, Repr

def splitVF (w : Word) : VF :=
  { pg := w.extractLsb' 22 4, pn := w.getLsbD 21, d := w.extractLsb' 14 7, a := w.extractLsb' 7 7,
    b := w.extractLsb' 0 7 }

def splitVX (w : Word) : VX :=
  { c := w.extractLsb' 25 7, ty := w.extractLsb' 22 3, bk := w.extractLsb' 20 2, rm := w.extractLsb' 18 2,
    sat := w.getLsbD 17, imm := w.extractLsb' 0 16 }

def splitMX (w : Word) : MX :=
  { c := w.extractLsb' 25 7, sz := w.extractLsb' 22 3, sp := w.extractLsb' 19 3, sc := w.extractLsb' 16 3,
    imm := w.extractLsb' 0 16 }

def splitForm (e : Eng) (w : Word) (x : Option Word) : Form :=
  let op := (w.extractLsb' 26 6).toNat
  match e with
  | .k | .x | .d => .kForm e op { q := w.extractLsb' 23 3, n := w.getLsbD 22 } (w.extractLsb' 0 22) x
  | .v | .b => .vForm e op (splitVF w) (x.map splitVX) ((x.map fun y => y.getLsbD 16).getD false)
  | .m => .mForm op (splitVF w) (x.map splitMX)

def joinVF (op : Nat) (f : VF) : Word :=
  BitVec.ofNat 32 (op * 2 ^ 26 + f.pg.toNat * 2 ^ 22 + f.pn.toNat * 2 ^ 21 + f.d.toNat * 2 ^ 14
    + f.a.toNat * 2 ^ 7 + f.b.toNat)

def joinVX (x : VX) (rsv : Bool) : Word :=
  BitVec.ofNat 32 (x.c.toNat * 2 ^ 25 + x.ty.toNat * 2 ^ 22 + x.bk.toNat * 2 ^ 20 + x.rm.toNat * 2 ^ 18
    + x.sat.toNat * 2 ^ 17 + rsv.toNat * 2 ^ 16 + x.imm.toNat)

def joinMX (x : MX) : Word :=
  BitVec.ofNat 32 (x.c.toNat * 2 ^ 25 + x.sz.toNat * 2 ^ 22 + x.sp.toNat * 2 ^ 19 + x.sc.toNat * 2 ^ 16
    + x.imm.toNat)

def joinK (op : Nat) (g : KG) (body : BitVec 22) : Word :=
  BitVec.ofNat 32 (op * 2 ^ 26 + g.q.toNat * 2 ^ 23 + g.n.toNat * 2 ^ 22 + body.toNat)

def Form.eng : Form → Eng
  | .kForm e .. => e
  | .vForm e .. => e
  | .mForm .. => .m

def Form.op : Form → Nat
  | .kForm _ op .. => op
  | .vForm _ op .. => op
  | .mForm op .. => op

/-- The words of a form: the first word and, for a 64-bit one, the extension word. -/
def Form.words : Form → Word × Option Word
  | .kForm _ op g body imm => (joinK op g body, imm)
  | .vForm _ op f x rsv => (joinVF op f, x.map (joinVX · rsv))
  | .mForm op f x => (joinVF op f, x.map joinMX)

def Form.long : Form → Bool
  | .kForm _ _ _ _ imm => imm.isSome
  | .vForm _ _ _ x _ => x.isSome
  | .mForm _ _ x => x.isSome

/-- Body fields of the K form (R45). -/
def kD (y : BitVec 22) : BitVec 6 := y.extractLsb' 16 6
def kA (y : BitVec 22) : BitVec 6 := y.extractLsb' 10 6
def kB (y : BitVec 22) : BitVec 6 := y.extractLsb' 4 6
def kF (y : BitVec 22) : BitVec 4 := y.extractLsb' 0 4
def kI (y : BitVec 22) : BitVec 16 := y.extractLsb' 0 16

def kBody (d a b fn : Nat) : BitVec 22 := BitVec.ofNat 22 (d * 2 ^ 16 + a * 2 ^ 10 + b * 2 ^ 4 + fn)
def kiBody (d imm : Nat) : BitVec 22 := BitVec.ofNat 22 (d * 2 ^ 16 + imm)

/-! ## Encoding defects: subcode of R58 and the word that holds the field (EXT) -/

abbrev Defects := List (Nat × Bool)

/-- One defect of subcode `sub` in the first word (`ext` false) or the extension word, when `c` holds. -/
def viol (c : Bool) (sub : Nat) (ext : Bool := false) : Defects := if c then [(sub, ext)] else []

/-- The defect that is reported: the lowest subcode (R59), and of equal ones one of the first word before one of the
extension word (DESIGN CHOICE, log 6: R59 orders the subcodes only). -/
def lowest : Defects → Option (Nat × Bool)
  | [] => none
  | e :: es =>
    match lowest es with
    | none => some e
    | some e' => if e'.1 < e.1 || e'.1 == e.1 && e.2 && !e'.2 then some e' else some e

/-- The register numbers of R32's table. -/
def sysRegNumbers : List Nat :=
  [0x000, 0x001, 0x002, 0x003, 0x004, 0x005, 0x006, 0x007, 0x008, 0x009, 0x010, 0x011, 0x012, 0x018,
   0x020, 0x021, 0x022, 0x023, 0x024, 0x025, 0x028, 0x029, 0x02A, 0x02B, 0x02C, 0x030, 0x031, 0x032, 0x033,
   0x038, 0x039, 0x03A, 0x040, 0x048, 0x049, 0x04A, 0x050, 0x051]

/-- Length check: which of the 32-bit and the 64-bit forms the opcode has (subcode 2). -/
def lenBad (short long isLong : Bool) : Defects := viol (if isLong then !long else !short) 2

def hi (f : BitVec 6) (low : Nat) : Bool := 2 ^ low ≤ f.toNat
def hi7 (f : BitVec 7) (low : Nat) : Bool := 2 ^ low ≤ f.toNat

/-- Defects of a K-engine word (R99, R100, R104, R108, R121, R131, R304). -/
def kDefects (op : Nat) (g : KG) (y : BitVec 22) (x : Option Word) : Defects :=
  let d := kD y; let a := kA y; let b := kB y; let fn := (kF y).toNat
  let zd := viol (d != 0) 3; let za := viol (a != 0) 3; let zb := viol (b != 0) 3
  let zf := viol (fn != 0) 3; let f0 := viol (fn != 0) 4
  let always := viol (g.q != 0 || g.n) 3
  let im := (x.getD 0).toNat
  let lng := x.isSome
  let bin (nfn : Nat) := lenBad true true lng ++ viol (nfn ≤ fn) 4 ++ viol (lng && b != 0) 3
  match op with
  | 0x00 => lenBad true true lng ++ zd ++ za ++ zb ++ zf
  | 0x01 => lenBad true false lng ++ zb ++ viol (2 ≤ fn) 4 ++ viol (fn == 1 && hi a 2) 6
  | 0x02 => lenBad true true lng
  | 0x03 | 0x04 | 0x06 | 0x07 | 0x08 => bin 1
  | 0x05 => bin 3
  | 0x09 => bin 1 ++ viol (lng && 64 ≤ im) 3 true
  | 0x0A => bin 2 ++ viol (lng && 64 ≤ im) 3 true
  | 0x0B => bin 4
  | 0x0C => bin 10 ++ viol (hi d 3) 6
  | 0x0D => lenBad true false lng ++ viol (8 ≤ fn) 6
  | 0x0E => lenBad true false lng ++ viol (hi d 3 || hi a 3 || hi b 3) 6
  | 0x0F => lenBad true false lng ++ viol (3 ≤ (kI y).toNat / 4096) 4
      ++ viol (!(sysRegNumbers.contains ((kI y).toNat % 4096))) 4
  | 0x10 | 0x13 => lenBad true false lng
  | 0x11 => lenBad false true lng ++ viol (hi d 5) 3 ++ za ++ zb ++ zf ++ always
  | 0x12 | 0x28 => lenBad true false lng ++ zd ++ za ++ zb ++ zf ++ always
  | 0x14 => lenBad true false lng ++ zd ++ zb ++ viol (2 ≤ fn) 4 ++ viol (fn == 0 && a.toNat % 2 == 1) 6
  | 0x15 => lenBad true false lng ++ zd ++ za ++ zb ++ zf
  | 0x16 => lenBad true false lng ++ zd ++ zb ++ zf
  | 0x17 => lenBad false true lng ++ zb ++ viol (2 ≤ fn) 4 ++ viol (fn == 1 && a != 0) 3
      ++ viol (fn == 0 && im % 65536 != 0) 3 true ++ viol (hi d 2) 6
  | 0x18 => lenBad true false lng ++ za ++ zb ++ zf ++ viol (hi d 2) 6
  | 0x19 => lenBad true false lng ++ zd ++ zb
  | 0x1A => lenBad false true lng ++ viol (hi d 2) 3 ++ zf ++ viol (128 ≤ im) 3 true
      ++ viol (6 ≤ im % 8) 4 true ++ viol (6 ≤ im / 8 % 8) 4 true
      ++ viol (im % 8 == 4 || im % 8 == 5) 5 true ++ viol (im / 8 % 8 == 0) 5 true
  | 0x1B => lenBad true false lng ++ zb
  | 0x1C | 0x20 | 0x23 | 0x24 => lenBad true false lng ++ zd ++ zb ++ f0
  | 0x1D => lenBad true false lng ++ zb ++ viol (8 ≤ fn) 6
  | 0x1E => lenBad true false lng ++ zd ++ f0
  | 0x1F => lenBad true false lng ++ zb ++ viol (2 ≤ fn) 4 ++ viol (fn == 0 && d != 0) 3
      ++ viol (fn == 1 && hi d 3) 6
  | 0x21 | 0x22 => lenBad true false lng ++ zd ++ za ++ zb ++ f0
  | 0x25 | 0x26 | 0x27 | 0x2A => lenBad true false lng ++ zd
  | 0x29 => lenBad true false lng ++ zd ++ za ++ zb ++ viol (3 ≤ fn) 4 ++ always
  | 0x2B | 0x2C => lenBad true false lng ++ zd ++ za ++ zb ++ zf
  | 0x2D => lenBad true false lng ++ zd ++ zb ++ zf
  | 0x2E => lenBad true false lng ++ za ++ zb ++ zf
  | _ => viol true 1

/-- Defects of an X-engine word (R220, R226). DESIGN CHOICE (log 6): a bit of fn that the table draws as 0, here MMA fn[3:1], is a
reserved bit, subcode 3, and not an unlisted code of fn, subcode 4. -/
def xDefects (op : Nat) (y : BitVec 22) (x : Option Word) : Defects :=
  let d := kD y; let a := kA y; let b := kB y; let fn := (kF y).toNat
  let zd := viol (d != 0) 3; let za := viol (a != 0) 3; let zb := viol (b != 0) 3
  let f0 := viol (fn != 0) 4
  let im := (x.getD 0).toNat
  let lng := x.isSome
  match op with
  | 0x00 => lenBad true false lng ++ zd ++ viol (fn % 8 == 7) 4
  | 0x01 | 0x0A => lenBad true false lng ++ zd ++ za ++ zb ++ f0
  | 0x02 => lenBad true false lng ++ zd ++ viol (2 ≤ fn) 3
  | 0x03 => lenBad true false lng ++ zd ++ zb
  | 0x04 | 0x05 => lenBad true false lng ++ zd ++ zb ++ f0
  | 0x06 => lenBad false true lng ++ f0 ++ viol (2 ^ 22 ≤ im) 3 true
      ++ viol (6 ≤ im / 2 ^ 16 % 8) 4 true ++ viol (6 ≤ im / 2 ^ 19 % 8) 4 true
      ++ viol (im / 2 ^ 16 % 8 == 4) 5 true
  | 0x07 | 0x08 => lenBad true false lng ++ zb ++ f0
  | 0x09 => lenBad true false lng ++ zb ++ viol (9 ≤ fn) 4
  | _ => viol true 1

/-- Defects of a D-engine word (R252). DESIGN CHOICE (log 6): DCLK fn[3:2], drawn as 0, are reserved bits, subcode 3. -/
def dDefects (op : Nat) (y : BitVec 22) (x : Option Word) : Defects :=
  let d := kD y; let a := kA y; let b := kB y; let fn := (kF y).toNat
  let zd := viol (d != 0) 3; let za := viol (a != 0) 3; let zb := viol (b != 0) 3
  let f0 := viol (fn != 0) 4; let f1 := viol (2 ≤ fn) 4
  let lng := x.isSome
  match op with
  | 0x00 => lenBad true false lng ++ viol (fn == 0 && d != 0) 3 ++ za ++ zb ++ f1 ++ viol (fn == 1 && hi d 3) 6
  | 0x01 => lenBad true false lng ++ zd ++ za ++ zb ++ f0
  | 0x02 => lenBad true false lng ++ zd ++ f0
  | 0x03 => lenBad true false lng ++ f0
  | 0x04 => lenBad true false lng ++ viol (fn == 1 && a != 0) 3 ++ zb ++ f1
  | 0x05 => lenBad true false lng ++ za ++ zb ++ f1
  | 0x06 => lenBad true false lng ++ zd ++ zb ++ viol (4 ≤ fn) 3
  | 0x07 | 0x08 => lenBad true true lng ++ zd ++ viol (lng && a != 0) 3 ++ zb ++ viol (fn == 0) 5
  | 0x09 => lenBad true false lng ++ zd ++ za ++ zb ++ viol (fn == 0) 5
  | 0x0A => lenBad true false lng ++ zd ++ zb
  | 0x0B => lenBad true false lng ++ zb ++ viol (7 ≤ fn) 4
  | 0x0C => lenBad true false lng ++ zd ++ viol (5 ≤ fn) 4
  | 0x0D => lenBad true false lng ++ viol (fn < 2 && a != 0) 3 ++ zb ++ viol (3 ≤ fn) 4
  | _ => viol true 1

/-- The default extension word of a 32-bit V or B form (R51): ty is F32 for the floating-point opcodes. -/
def defaultVX (op : Nat) : VX :=
  { c := 0, ty := if 0x17 ≤ op && op ≤ 0x26 then 2 else 0, bk := 0, rm := 0, sat := false, imm := 0 }

/-- What the table of R146 accepts for an opcode: lengths, ty codes, bk codes, rm codes, sat. -/
structure VRow where
  short : Bool
  long : Bool
  tys : List Nat
  bks : List Nat
  rms : List Nat
  sat : Bool

def vRow (op : Nat) : Option VRow :=
  let int := [0, 1, 6, 7]; let all := [0, 1, 2, 3, 4, 5, 6, 7]; let fp := [2, 3, 4, 5]
  let b4 := [0, 1, 2, 3]; let r4 := [0, 1, 2, 3]
  match op with
  | 0x00 => some ⟨true, true, all, b4, [0], false⟩
  | 0x01 | 0x02 | 0x03 => some ⟨true, true, int, b4, [0], true⟩
  | 0x04 => some ⟨true, true, int, b4, [0], false⟩
  | 0x05 => some ⟨false, true, int, b4, [0], true⟩
  | 0x06 | 0x07 | 0x08 | 0x09 | 0x0A | 0x0B | 0x0C | 0x0D => some ⟨true, true, int, b4, [0], false⟩
  | 0x0E => some ⟨true, true, [0, 6], [0], [0], true⟩
  | 0x0F | 0x10 => some ⟨true, true, int, [0], [0], false⟩
  | 0x11 => some ⟨true, true, [0, 1], b4, [0], false⟩
  | 0x12 => some ⟨false, true, [0, 1], b4, [0], false⟩
  | 0x13 => some ⟨false, true, all, b4, [0], false⟩
  | 0x14 => some ⟨true, true, int, b4, [0], false⟩
  | 0x15 => some ⟨false, true, [0], [0], [0], false⟩
  | 0x16 => some ⟨false, true, [0], [0], r4, true⟩
  | 0x17 | 0x18 | 0x19 | 0x25 => some ⟨true, true, fp, b4, r4, true⟩
  | 0x1A => some ⟨false, true, fp, b4, r4, true⟩
  | 0x1B | 0x1C => some ⟨true, true, fp, b4, [0], false⟩
  | 0x1D => some ⟨true, true, [2, 5], b4, [0], false⟩
  | 0x1E | 0x1F | 0x20 => some ⟨true, true, fp, [0], r4, true⟩
  | 0x21 | 0x22 | 0x23 | 0x24 => some ⟨true, true, [2, 3, 4], [0], [0], true⟩
  | 0x26 => some ⟨true, true, fp, [0], [0], false⟩
  | 0x27 => some ⟨true, true, all, b4, [0], false⟩
  | 0x28 => some ⟨true, true, [0], [0], [0], false⟩
  | 0x29 | 0x2A => some ⟨true, true, all, [0], r4, false⟩
  | 0x2B | 0x2C => some ⟨false, true, [2], [0], if op = 0x2B then r4 else r4, false⟩
  | 0x2D | 0x2E => some ⟨false, true, [2], b4, r4, false⟩
  | 0x2F => some ⟨true, false, [0], [0], [0], false⟩
  | 0x30 => some ⟨false, true, all, [1, 3], [0], false⟩
  | 0x31 => some ⟨true, true, [0], [0], [0], false⟩
  | _ => none

/-- Defects of the b field under its bk code (R50): the unused bits of b. -/
def bkDefects (f : VF) (x : VX) (unary : Bool) : Defects :=
  if unary then viol (f.b != 0) 3 else
  match x.bk.toNat with
  | 0 => []
  | 1 => viol (hi7 f.b 6) 3
  | 2 => viol (hi7 f.b 4) 3
  | _ => viol (f.b != 0) 3

/-- The opcode-specific part of R146 and R147: the d, a, c and imm16 columns. -/
def vFieldDefects (op : Nat) (f : VF) (x : VX) (isLong : Bool) : Defects :=
  let c := x.c.toNat; let im := x.imm.toNat
  let c0 := viol (c != 0) 3 true
  let i3 := viol (x.bk != 3 && im != 0) 3 true
  let fpT := 2 ≤ x.ty.toNat && x.ty.toNat ≤ 5
  match op with
  | 0x00 => viol (f.a != 0) 3 ++ c0 ++ i3
  | 0x05 | 0x12 | 0x1A => i3
  | 0x0E | 0x0F | 0x10 | 0x1E | 0x1F | 0x20 | 0x21 | 0x22 | 0x23 | 0x24 | 0x26 =>
      c0 ++ viol (im != 0) 3 true
  | 0x13 => viol (16 ≤ c) 3 true ++ i3
  | 0x14 => viol (6 ≤ f.d.toNat / 16) 4 ++ c0 ++ i3
  | 0x15 => viol (hi7 f.d 4 || hi7 f.a 4 || hi7 f.b 4) 3 ++ c0 ++ viol (16 ≤ im) 3 true
  | 0x16 => c0 ++ viol (256 ≤ im) 3 true ++ viol (11 ≤ im % 16 || 11 ≤ im / 16 % 16) 4 true
  | 0x27 => viol (4 ≤ c) 3 true ++ i3
  | 0x28 => viol (4 ≤ c) 3 true ++ viol (im != 0) 3 true ++ viol (hi7 f.a 5) 3
      ++ (if c % 4 == 3 then viol (hi7 f.d 6) 3 else viol (hi7 f.d 3) 6)
  | 0x29 => viol (8 ≤ c) 3 true ++ viol (im != 0) 3 true ++ viol (6 ≤ c % 8) 4 true
      ++ viol (fpT && 3 ≤ c % 8 && c % 8 < 6) 5 true ++ viol (x.rm != 0 && !(fpT && c % 8 == 0)) 3 true
  | 0x2A => viol (32 ≤ c) 3 true ++ viol (im != 0) 3 true ++ viol (6 ≤ c % 8) 4 true
      ++ viol (fpT && 3 ≤ c % 8 && c % 8 < 6) 5 true ++ viol (x.rm != 0 && !(fpT && c % 8 == 0)) 3 true
  | 0x2B => c0 ++ viol (64 ≤ im || im / 8 % 2 == 1) 3 true ++ viol (im % 8 == 0) 5 true
  | 0x2C => c0 ++ viol (64 ≤ im || im % 16 != 0) 3 true
  | 0x2D | 0x2E => viol (8 ≤ c) 3 true ++ viol (6 ≤ c % 8) 4 true ++ i3
  | 0x2F => viol (6 ≤ f.a.toNat) 4 ++ c0 ++ viol (im != 0) 3 true
  | 0x30 => viol (hi7 f.d 6) 3 ++ c0 ++ i3
  | 0x31 => c0 ++ viol (isLong && 2 ≤ im) 3 true
      ++ (if im % 2 == 0 then viol (hi7 f.d 4) 3 else viol (hi7 f.a 4) 3)
  | _ => c0 ++ i3

/-- Whether the b field is unused (marked "0; b = 0" in R146); PLOG reads b as a predicate. -/
def vUnary (op : Nat) (bks : List Nat) : Bool := bks == [0] && op != 0x15

/-- Defects of a V-engine word (R146, R147). -/
def vDefects (op : Nat) (f : VF) (x : Option VX) (rsv : Bool) : Defects :=
  match vRow op with
  | none => viol true 1
  | some r =>
    let y := x.getD (defaultVX op)
    lenBad r.short r.long x.isSome
      ++ viol rsv 3 true
      ++ viol (!(r.tys.contains y.ty.toNat)) 5 true
      ++ viol (!(r.bks.contains y.bk.toNat)) 5 true
      ++ viol (!(r.rms.contains y.rm.toNat)) 5 true
      ++ viol (y.sat && !r.sat) 5 true
      ++ bkDefects f y (vUnary op r.bks)
      ++ vFieldDefects op f y x.isSome

/-- Defects of a B-engine word (R270). DESIGN CHOICE (log 6): where b names a scalar register, b[6] is a reserved bit whatever bk holds,
so that it is reported (subcode 3) before a wrong bk (subcode 5). -/
def bDefects (op : Nat) (f : VF) (x : Option VX) (rsv : Bool) : Defects :=
  let y := x.getD (defaultVX 0)
  let lng := x.isSome
  let zd := viol (f.d != 0) 3; let za := viol (f.a != 0) 3
  let c := y.c.toNat; let im := y.imm.toNat
  let com := viol rsv 3 true ++ viol (y.ty != 0 || y.rm != 0 || y.sat) 5 true
  let slot := viol (16 ≤ c) 3 true
  let c0 := viol (c != 0) 3 true
  let i0 := viol (im != 0) 3 true
  let base := viol (64 ≤ im) 3 true
  let bs := viol (y.bk != 1) 5 true ++ viol (hi7 f.b 6) 3
  let b0 := viol (y.bk != 0) 5 true ++ viol (f.b != 0) 3
  match op with
  | 0x00 => lenBad false true lng ++ com ++ zd ++ za ++ bs ++ c0 ++ viol (4096 ≤ im) 3 true
  | 0x01 => lenBad false true lng ++ com ++ zd ++ za ++ bs ++ slot ++ i0
  | 0x02 => lenBad true true lng ++ com ++ b0 ++ c0 ++ i0
  | 0x03 => lenBad false true lng ++ com ++ za ++ b0 ++ slot ++ base
  | 0x04 => lenBad false true lng ++ com ++ za ++ b0 ++ slot ++ base
  | 0x05 => lenBad false true lng ++ com ++ zd ++ za ++ bs ++ slot ++ i0
  | 0x06 => lenBad false true lng ++ com ++ zd ++ viol (hi7 f.a 6) 3 ++ bs ++ c0 ++ i0
  | 0x07 => lenBad true false lng ++ com ++ zd ++ za ++ b0
  | 0x08 => lenBad false true lng ++ com ++ zd ++ bs ++ slot ++ base
  | 0x09 => lenBad false true lng ++ com ++ viol (hi7 f.d 6) 3 ++ za ++ b0 ++ viol (5 ≤ c / 16) 4 true ++ i0
  | _ => viol true 1

/-- The default extension word of a 32-bit M form (R55). -/
def defaultMX : MX := { c := 0, sz := 2, sp := 0, sc := 0, imm := 0 }

/-- What the table of R170 accepts for an opcode: lengths, sz, sp and sc codes. -/
structure MRow where
  short : Bool
  long : Bool
  szs : List Nat
  sps : List Nat
  scs : List Nat

def mRow (op : Nat) : Option MRow :=
  let sp5 := [0, 1, 2, 3, 5]; let sc6 := [0, 1, 2, 3, 4, 5]
  match op with
  | 0x00 | 0x01 => some ⟨true, true, [0, 1, 2, 3, 4], [0, 1, 2, 3, 4, 5], [0]⟩
  | 0x02 | 0x03 => some ⟨false, true, [0, 1, 2, 3], sp5, sc6⟩
  | 0x04 | 0x05 => some ⟨false, true, [0, 1, 2, 3, 4], [4], [0]⟩
  | 0x06 | 0x07 => some ⟨true, true, [0, 1, 2, 3], sp5, sc6⟩
  | 0x08 | 0x09 => some ⟨false, true, [2, 3], sp5, sc6⟩
  | 0x0A => some ⟨true, true, [2], [0], sc6⟩
  | 0x0B => some ⟨true, true, [2], sp5, sc6⟩
  | 0x0C => some ⟨false, true, [2], [5], sc6⟩
  | 0x0D | 0x0E | 0x10 | 0x13 | 0x14 => some ⟨true, false, [2], [0], [0]⟩
  | 0x0F => some ⟨true, true, [0, 1, 2], [0, 1, 2, 3], [0]⟩
  | 0x11 | 0x12 => some ⟨true, true, [2], sp5, sc6⟩
  | 0x15 | 0x16 => some ⟨false, true, [4], [0, 2, 3], [2, 3, 4, 5]⟩
  | 0x17 => some ⟨true, true, [2], [0, 2, 3], [0]⟩
  | 0x18 | 0x19 => some ⟨false, true, [0, 1, 2, 3], [0, 1, 2, 3, 4], [0]⟩
  | _ => none

/-- Defects of the address operand of R56. -/
def addrDefects (f : VF) (sp : Nat) : Defects :=
  if f.b.getLsbD 6 then viol (1 ≤ sp && sp ≤ 4) 5 true
  else viol (f.b != 0) 3 ++ viol (sp == 5) 5 true ++ viol (sp == 0 && f.a.toNat % 2 == 1) 6

/-- The s-register fields of the M table: bit 6 must be 0. -/
def sBad (f : BitVec 7) : Defects := viol (hi7 f 6) 3

/-- A quad field of TMOV, TMCAST and CSEND: s[d] to s[d+3], d a multiple of 4 from 4 to 60 (R171). -/
def quadBad (f : BitVec 7) : Defects := sBad f ++ viol (f.toNat % 4 != 0 || f.toNat == 0) 6

def coreBad (f : VF) (sp : Nat) : Defects := if sp == 5 then sBad f.b else viol (f.b != 0) 3

/-- Defects of an M-engine word (R170, R171, R189). -/
def mDefects (op : Nat) (f : VF) (x : Option MX) : Defects :=
  match mRow op with
  | none => viol true 1
  | some r =>
    let y := x.getD defaultMX
    let sz := y.sz.toNat; let sp := y.sp.toNat; let sc := y.sc.toNat; let c := y.c.toNat; let im := y.imm.toNat
    let zd := viol (f.d != 0) 3; let za := viol (f.a != 0) 3; let zb := viol (f.b != 0) 3
    let c0 := viol (c != 0) 3 true; let i0 := viol (im != 0) 3 true
    let sx := viol (2 ≤ c) 3 true ++ viol (c % 2 == 1 && 2 ≤ sz) 5 true
    lenBad r.short r.long x.isSome
      ++ viol (5 ≤ sz || 6 ≤ sp || 6 ≤ sc) 4 true
      ++ viol (!(r.szs.contains sz) || !(r.sps.contains sp) || !(r.scs.contains sc)) 5 true
      ++ (match op with
        | 0x00 | 0x02 => addrDefects f sp ++ sx
        | 0x01 | 0x03 => addrDefects f sp ++ c0
        | 0x04 => sBad f.a ++ zb ++ sx
        | 0x05 => sBad f.a ++ zb ++ c0
        | 0x06 => sBad f.d ++ sBad f.a ++ coreBad f sp ++ viol (4 ≤ c) 3 true
        | 0x07 => sBad f.d ++ sBad f.a ++ coreBad f sp ++ viol (2 ≤ c) 3 true
        | 0x08 => addrDefects f sp ++ viol (14 ≤ im / 4096) 4 true
        | 0x09 => addrDefects f sp ++ viol (im / 4096 != 0) 3 true
        | 0x0A => zd ++ za ++ zb ++ viol (4 ≤ c) 3 true ++ viol (c % 4 == 3) 4 true ++ i0
        | 0x0B => quadBad f.d ++ sBad f.a ++ zb ++ c0
            ++ viol (f.a == 0 && (sp != 0 || sc != 0 || im != 0)) 3 true
        | 0x0C => quadBad f.d ++ sBad f.a ++ sBad f.b ++ c0 ++ i0
        | 0x0D | 0x0E => sBad f.d ++ sBad f.a ++ zb
        | 0x0F => viol (hi7 f.d 4) 3 ++ sBad f.a ++ viol (f.a.toNat % 2 == 1 || f.a.toNat < 2) 6 ++ zb ++ c0 ++ i0
        | 0x10 => viol (hi7 f.d 4) 3 ++ za ++ zb
        | 0x11 => viol (hi7 f.d 3) 6 ++ sBad f.a ++ coreBad f sp
        | 0x12 => zd ++ sBad f.a ++ coreBad f sp
        | 0x13 => sBad f.d ++ sBad f.a ++ zb
        | 0x14 => quadBad f.d ++ sBad f.a ++ zb
        | 0x15 => sBad f.b ++ c0 ++ i0
        | 0x16 => sBad f.a ++ sBad f.b ++ viol (16 ≤ c) 3 true ++ i0
        | 0x17 => zd ++ za ++ sBad f.b ++ c0 ++ i0
        | 0x18 | 0x19 => sBad f.b ++ viol (c == 0 || 8 < c) 5 true
        | _ => [])

/-! ## v-register ranges: alignment (always) and the current count (when the instruction is issued) -/

/-- A range of v-registers that an instruction names: its first register, how many, the alignment of the first, and
the word that holds the field. -/
structure VRange where
  base : Nat
  n : Nat
  align : Nat
  ext : Bool
  deriving DecidableEq, Repr

def one (f : BitVec 7) (ext : Bool := false) : VRange := ⟨f.toNat, 1, 1, ext⟩

/-- A data register of type ty: a pair for the types 5 to 7 (R53). -/
def dat (ty : Nat) (f : BitVec 7) (ext : Bool := false) : VRange :=
  if 5 ≤ ty then ⟨f.toNat, 2, 2, ext⟩ else one f ext

/-- Registers of the element layout and of the record layout at a group width (R165). -/
def elemRegs (w : Nat) : Nat := 64 / w
def recWords (fmt : Nat) : Nat := if fmt == 0 || fmt == 3 then 14 else 22
def recRegs (fmt w : Nat) : Nat := (recWords fmt + w - 1) / w

/-- Codes per register of PACK and UNPK (R168). -/
def packN (fmt : Nat) : Nat := if fmt ≤ 1 then 4 else if fmt ≤ 3 then 8 else 2

def vRanges (w op : Nat) (f : VF) (x : VX) : List VRange :=
  let ty := x.ty.toNat
  let bReg (r : VRange) := if x.bk == 0 then [r] else []
  let fmt := x.imm.toNat / 16 % 4
  match op with
  | 0x00 => [dat ty f.d] ++ bReg (dat ty f.b)
  | 0x05 | 0x1A => [dat ty f.d, dat ty f.a] ++ bReg (dat ty f.b) ++ [dat ty x.c true]
  | 0x12 => [one f.d, one f.a] ++ bReg (one f.b) ++ [one x.c true]
  | 0x09 | 0x0A | 0x0B | 0x11 => [dat ty f.d, dat ty f.a] ++ bReg (one f.b)
  | 0x0E | 0x0F | 0x10 | 0x1E | 0x1F | 0x20 | 0x21 | 0x22 | 0x23 | 0x24 | 0x29 | 0x2A =>
      [dat ty f.d, dat ty f.a]
  | 0x13 => [dat ty f.d, dat ty f.a] ++ bReg (dat ty f.b)
  | 0x14 | 0x1D => [dat ty f.a] ++ bReg (dat ty f.b)
  | 0x15 | 0x28 => []
  | 0x16 => [dat (if x.imm.toNat % 16 < 8 then x.imm.toNat % 16 else 0) f.d,
             dat (if x.imm.toNat / 16 % 16 < 8 then x.imm.toNat / 16 % 16 else 0) f.a]
  | 0x26 => [one f.d, dat ty f.a]
  | 0x27 => [dat ty f.d, dat ty f.a] ++ bReg (one f.b)
  | 0x2B => [⟨f.d.toNat, recRegs fmt w, 1, false⟩, ⟨f.a.toNat, elemRegs w, 1, false⟩]
  | 0x2C => [⟨f.d.toNat, elemRegs w, 1, false⟩, ⟨f.a.toNat, recRegs fmt w, 1, false⟩]
  | 0x2D => [one f.d, ⟨f.a.toNat, packN (x.c.toNat % 8), 1, false⟩] ++ bReg (one f.b)
  | 0x2E => [⟨f.d.toNat, packN (x.c.toNat % 8), 1, false⟩, one f.a] ++ bReg (one f.b)
  | 0x2F => [one f.d]
  | 0x30 => [dat ty f.a]
  | 0x31 => if x.imm.toNat % 2 == 0 then [one f.a] else [one f.d]
  | _ => [dat ty f.d, dat ty f.a] ++ bReg (dat ty f.b)

/-- A memory data field (R54): a pair for sz 3, a quad for sz 4. -/
def mdat (sz : Nat) (f : BitVec 7) (ext : Bool := false) : VRange :=
  if sz == 3 then ⟨f.toNat, 2, 2, ext⟩ else if sz == 4 then ⟨f.toNat, 4, 4, ext⟩ else one f ext

def addrRange (f : VF) (sp : Nat) : VRange :=
  if sp == 0 && !f.b.getLsbD 6 then ⟨f.a.toNat, 2, 2, false⟩ else one f.a

def mRanges (op : Nat) (f : VF) (x : MX) : List VRange :=
  let sz := x.sz.toNat; let sp := x.sp.toNat; let c := x.c.toNat
  match op with
  | 0x00 | 0x01 | 0x02 | 0x03 => [mdat sz f.d, addrRange f sp]
  | 0x04 | 0x05 => [mdat sz f.d]
  | 0x08 => [mdat sz f.d, addrRange f sp, mdat sz x.c true]
  | 0x09 => [mdat sz f.d, addrRange f sp,
             if sz == 3 then ⟨c, 4, 4, true⟩ else ⟨c, 2, 2, true⟩]
  | 0x15 => [⟨f.d.toNat, 4, 4, false⟩, one f.a]
  | 0x16 => [⟨f.d.toNat, 4, 4, false⟩]
  | 0x18 | 0x19 => [if sz == 3 then ⟨f.d.toNat, 2 * c, 2, false⟩ else ⟨f.d.toNat, c, 1, false⟩,
                    ⟨f.a.toNat, c, 1, false⟩]
  | _ => []

def bRanges (op : Nat) (f : VF) : List VRange :=
  match op with
  | 0x02 => [⟨f.d.toNat, 4, 4, false⟩, one f.a]
  | 0x03 => [⟨f.d.toNat, 2, 2, false⟩]
  | 0x04 => [one f.d]
  | 0x08 => [⟨f.a.toNat, 4, 4, false⟩]
  | _ => []

/-- The v-register ranges of a form at group width w. -/
def Form.ranges (w : Nat) : Form → List VRange
  | .vForm .v op f x _ => vRanges w op f (x.getD (defaultVX op))
  | .vForm _ op f _ _ => bRanges op f
  | .mForm op f x => mRanges op f (x.getD defaultMX)
  | .kForm .k 0x14 _ y _ => if kF y == 0 then [⟨(kA y).toNat, 2, 2, false⟩] else []
  | _ => []

/-- The defects of the form itself (R58, subcodes 1 to 6), the current count apart. -/
def Form.fieldDefects : Form → Defects
  | .kForm .x op _ y x => xDefects op y x
  | .kForm .d op _ y x => dDefects op y x
  | .kForm _ op g y x => kDefects op g y x
  | .vForm .b op f x rsv => bDefects op f x rsv
  | .vForm _ op f x rsv => vDefects op f x rsv
  | .mForm op f x => mDefects op f x

/-- Misaligned pairs, quads and ranges (subcode 6). The alignment does not depend on the group width. DESIGN CHOICE (log 6): these
are found before a register beyond the current count, so a misaligned range of the extension word is reported, with EXT 1, also
where a register of the first word lies beyond the count. -/
def Form.alignDefects (fm : Form) : Defects :=
  (fm.ranges 64).flatMap fun r => viol (r.base % r.align != 0) 6 r.ext

def Form.defects (fm : Form) : Defects := fm.fieldDefects ++ fm.alignDefects

/-- Registers at or above the current count (R20, R323), subcode 6. -/
def Form.countDefects (fm : Form) (w c : Nat) : Defects :=
  (fm.ranges w).flatMap fun r => viol (c < r.base + r.n) 6 r.ext

/-! ## From instructions to their forms (the encoding tables) and back -/

/-- The guard of an instruction whose guard must be "always" (R99). -/
def always : KG := { q := 0, n := false }

/-- The form of an instruction row, written from the encoding tables; events have none. -/
def Instr.form : Instr → Option Form
  | .nop g => some (.kForm .k 0 g (kBody 0 0 0 0) none)
  | .nop64 g imm => some (.kForm .k 0 g (kBody 0 0 0 0) (some imm))
  | .smov g d a => some (.kForm .k 1 g (kBody d.toNat a.toNat 0 0) none)
  | .smovLc g d lc => some (.kForm .k 1 g (kBody d.toNat lc.toNat 0 1) none)
  | .sli g d imm => some (.kForm .k 2 g (kiBody d.toNat imm.toNat) none)
  | .sli64 g d hi imm => some (.kForm .k 2 g (kiBody d.toNat hi.toNat) (some imm))
  | .sadd g d a b => some (.kForm .k 3 g (kBody d.toNat a.toNat b.toNat 0) none)
  | .saddImm g d a imm => some (.kForm .k 3 g (kBody d.toNat a.toNat 0 0) (some imm))
  | .ssub g d a b => some (.kForm .k 4 g (kBody d.toNat a.toNat b.toNat 0) none)
  | .ssubImm g d a imm => some (.kForm .k 4 g (kBody d.toNat a.toNat 0 0) (some imm))
  | .smul g d a b => some (.kForm .k 5 g (kBody d.toNat a.toNat b.toNat 0) none)
  | .smulImm g d a imm => some (.kForm .k 5 g (kBody d.toNat a.toNat 0 0) (some imm))
  | .smulHi g d a b => some (.kForm .k 5 g (kBody d.toNat a.toNat b.toNat 1) none)
  | .smulHiImm g d a imm => some (.kForm .k 5 g (kBody d.toNat a.toNat 0 1) (some imm))
  | .smulHiu g d a b => some (.kForm .k 5 g (kBody d.toNat a.toNat b.toNat 2) none)
  | .smulHiuImm g d a imm => some (.kForm .k 5 g (kBody d.toNat a.toNat 0 2) (some imm))
  | .sand g d a b => some (.kForm .k 6 g (kBody d.toNat a.toNat b.toNat 0) none)
  | .sandImm g d a imm => some (.kForm .k 6 g (kBody d.toNat a.toNat 0 0) (some imm))
  | .sor g d a b => some (.kForm .k 7 g (kBody d.toNat a.toNat b.toNat 0) none)
  | .sorImm g d a imm => some (.kForm .k 7 g (kBody d.toNat a.toNat 0 0) (some imm))
  | .sxor g d a b => some (.kForm .k 8 g (kBody d.toNat a.toNat b.toNat 0) none)
  | .sxorImm g d a imm => some (.kForm .k 8 g (kBody d.toNat a.toNat 0 0) (some imm))
  | .sshl g d a b => some (.kForm .k 9 g (kBody d.toNat a.toNat b.toNat 0) none)
  | .sshlImm g d a n => some (.kForm .k 9 g (kBody d.toNat a.toNat 0 0) (some (n.setWidth 32)))
  | .sshr g d a b => some (.kForm .k 10 g (kBody d.toNat a.toNat b.toNat 0) none)
  | .sshrImm g d a n => some (.kForm .k 10 g (kBody d.toNat a.toNat 0 0) (some (n.setWidth 32)))
  | .sshrA g d a b => some (.kForm .k 10 g (kBody d.toNat a.toNat b.toNat 1) none)
  | .sshrAImm g d a n => some (.kForm .k 10 g (kBody d.toNat a.toNat 0 1) (some (n.setWidth 32)))
  | .smin g d a b => some (.kForm .k 11 g (kBody d.toNat a.toNat b.toNat 0) none)
  | .sminImm g d a imm => some (.kForm .k 11 g (kBody d.toNat a.toNat 0 0) (some imm))
  | .smax g d a b => some (.kForm .k 11 g (kBody d.toNat a.toNat b.toNat 1) none)
  | .smaxImm g d a imm => some (.kForm .k 11 g (kBody d.toNat a.toNat 0 1) (some imm))
  | .sminu g d a b => some (.kForm .k 11 g (kBody d.toNat a.toNat b.toNat 2) none)
  | .sminuImm g d a imm => some (.kForm .k 11 g (kBody d.toNat a.toNat 0 2) (some imm))
  | .smaxu g d a b => some (.kForm .k 11 g (kBody d.toNat a.toNat b.toNat 3) none)
  | .smaxuImm g d a imm => some (.kForm .k 11 g (kBody d.toNat a.toNat 0 3) (some imm))
  | .scmp g d a b cc => some (.kForm .k 12 g (kBody d.toNat a.toNat b.toNat cc.toNat) none)
  | .scmpImm g d a cc imm => some (.kForm .k 12 g (kBody d.toNat a.toNat 0 cc.toNat) (some imm))
  | .ssel g d a b q => some (.kForm .k 13 g (kBody d.toNat a.toNat b.toNat q.toNat) none)
  | .qlog g d a b f => some (.kForm .k 14 g (kBody d.toNat a.toNat b.toNat f.toNat) none)
  | .scsrRead g d num => some (.kForm .k 15 g (kiBody d.toNat (0 * 4096 + num.toNat)) none)
  | .scsrWrite g d num => some (.kForm .k 15 g (kiBody d.toNat (1 * 4096 + num.toNat)) none)
  | .scsrSwap g d num => some (.kForm .k 15 g (kiBody d.toNat (2 * 4096 + num.toNat)) none)
  | .br g off => some (.kForm .k 16 g (off) none)
  | .brv p pn off => some (.kForm .k 17 always (kBody (p.toNat + 16 * pn.toNat) 0 0 0) (some off))
  | .join => some (.kForm .k 18 always (kBody 0 0 0 0) none)
  | .call g off => some (.kForm .k 19 g (off) none)
  | .callvPair g a => some (.kForm .k 20 g (kBody 0 a.toNat 0 0) none)
  | .callvReg g a => some (.kForm .k 20 g (kBody 0 a.toNat 0 1) none)
  | .ret g => some (.kForm .k 21 g (kBody 0 0 0 0) none)
  | .jmp g a => some (.kForm .k 22 g (kBody 0 a.toNat 0 0) none)
  | .loopOpen g lc byImm a e count => some (.kForm .k 23 g (kBody lc.toNat a.toNat 0 byImm.toNat) (some (e ++ count)))
  | .lbrk g lc => some (.kForm .k 24 g (kBody lc.toNat 0 0 0) none)
  | .bar g id a => some (.kForm .k 25 g (kBody 0 a.toNat 0 id.toNat) none)
  | .mwatch g ws a b sp sc wide => some (.kForm .k 26 g (kBody ws.toNat a.toNat b.toNat 0) (some (BitVec.ofNat 32 (sp.toNat + 8 * sc.toNat + 64 * wide.toNat))))
  | .mwait g d a which => some (.kForm .k 27 g (kBody d.toNat a.toNat 0 which.toNat) none)
  | .spawn g a => some (.kForm .k 28 g (kBody 0 a.toNat 0 0) none)
  | .await g d a q => some (.kForm .k 29 g (kBody d.toNat a.toNat 0 q.toNat) none)
  | .fset g a b => some (.kForm .k 30 g (kBody 0 a.toNat b.toNat 0) none)
  | .locka g a => some (.kForm .k 31 g (kBody 0 a.toNat 0 0) none)
  | .lockaTry g q a => some (.kForm .k 31 g (kBody q.toNat a.toNat 0 1) none)
  | .lockr g a => some (.kForm .k 32 g (kBody 0 a.toNat 0 0) none)
  | .yield g => some (.kForm .k 33 g (kBody 0 0 0 0) none)
  | .exit g => some (.kForm .k 34 g (kBody 0 0 0 0) none)
  | .launch g a => some (.kForm .k 35 g (kBody 0 a.toNat 0 0) none)
  | .cjoin g a => some (.kForm .k 36 g (kBody 0 a.toNat 0 0) none)
  | .vgive g imm => some (.kForm .k 37 g (kiBody 0 imm.toNat) none)
  | .vclaim g imm => some (.kForm .k 38 g (kiBody 0 imm.toNat) none)
  | .trap g imm => some (.kForm .k 39 g (kiBody 0 imm.toNat) none)
  | .bkpt g imm => some (.kForm .k 42 g (kiBody 0 imm.toNat) none)
  | .rft => some (.kForm .k 40 always (kBody 0 0 0 0) none)
  | .parkWait => some (.kForm .k 41 always (kBody 0 0 0 0) none)
  | .parkPreempt => some (.kForm .k 41 always (kBody 0 0 0 1) none)
  | .parkEnd => some (.kForm .k 41 always (kBody 0 0 0 2) none)
  | .leave g => some (.kForm .k 43 g (kBody 0 0 0 0) none)
  | .leavr g => some (.kForm .k 44 g (kBody 0 0 0 0) none)
  | .fgmark g a => some (.kForm .k 45 g (kBody 0 a.toNat 0 0) none)
  | .fgplan g d => some (.kForm .k 46 g (kBody d.toNat 0 0 0) none)
  | .mcfg g level a b => some (.kForm .x 0 g (kBody 0 a.toNat b.toNat level.toNat) none)
  | .mcfgAct g level a b => some (.kForm .x 0 g (kBody 0 a.toNat b.toNat (8 + level.toNat)) none)
  | .mnest g => some (.kForm .x 1 g (kBody 0 0 0 0) none)
  | .mma g a b => some (.kForm .x 2 g (kBody 0 a.toNat b.toNat 0) none)
  | .mmaOvw g a b => some (.kForm .x 2 g (kBody 0 a.toNat b.toNat 1) none)
  | .mfmt g index a => some (.kForm .x 3 g (kBody 0 a.toNat 0 index.toNat) none)
  | .awin g a => some (.kForm .x 4 g (kBody 0 a.toNat 0 0) none)
  | .aclr g a => some (.kForm .x 5 g (kBody 0 a.toNat 0 0) none)
  | .aepi g d a b off sp sc => some (.kForm .x 6 g (kBody d.toNat a.toNat b.toNat 0) (some (BitVec.ofNat 32 (off.toNat + 65536 * sp.toNat + 524288 * sc.toNat))))
  | .ald g d a => some (.kForm .x 7 g (kBody d.toNat a.toNat 0 0) none)
  | .ast g d a => some (.kForm .x 8 g (kBody d.toNat a.toNat 0 0) none)
  | .mstatStat g d a => some (.kForm .x 9 g (kBody d.toNat a.toNat 0 0) none)
  | .mstatWait g d a => some (.kForm .x 9 g (kBody d.toNat a.toNat 0 1) none)
  | .mstatOvf g d a => some (.kForm .x 9 g (kBody d.toNat a.toNat 0 2) none)
  | .mstatOvfc g d a => some (.kForm .x 9 g (kBody d.toNat a.toNat 0 3) none)
  | .mstatFerr g d a => some (.kForm .x 9 g (kBody d.toNat a.toNat 0 4) none)
  | .mstatFerrc g d a => some (.kForm .x 9 g (kBody d.toNat a.toNat 0 5) none)
  | .mstatNest g d a => some (.kForm .x 9 g (kBody d.toNat a.toNat 0 6) none)
  | .mstatNests g d a => some (.kForm .x 9 g (kBody d.toNat a.toNat 0 7) none)
  | .mstatFmt g d a => some (.kForm .x 9 g (kBody d.toNat a.toNat 0 8) none)
  | .mstop g => some (.kForm .x 10 g (kBody 0 0 0 0) none)
  | .dclaim g => some (.kForm .d 0 g (kBody 0 0 0 0) none)
  | .dclaimTry g q => some (.kForm .d 0 g (kBody q.toNat 0 0 1) none)
  | .dfree g => some (.kForm .d 1 g (kBody 0 0 0 0) none)
  | .dpatch g a b => some (.kForm .d 2 g (kBody 0 a.toNat b.toNat 0) none)
  | .dinit g d a b => some (.kForm .d 3 g (kBody d.toNat a.toNat b.toNat 0) none)
  | .dsave g d a => some (.kForm .d 4 g (kBody d.toNat a.toNat 0 0) none)
  | .dsaveTq g d => some (.kForm .d 4 g (kBody d.toNat 0 0 1) none)
  | .drest g d => some (.kForm .d 5 g (kBody d.toNat 0 0 0) none)
  | .drestTq g d => some (.kForm .d 5 g (kBody d.toNat 0 0 1) none)
  | .dclk g dom a => some (.kForm .d 6 g (kBody 0 a.toNat 0 dom.toNat) none)
  | .dstep g mask a => some (.kForm .d 7 g (kBody 0 a.toNat 0 mask.toNat) none)
  | .dstep64 g mask imm => some (.kForm .d 7 g (kBody 0 0 0 mask.toNat) (some imm))
  | .drun g mask a => some (.kForm .d 8 g (kBody 0 a.toNat 0 mask.toNat) none)
  | .drun64 g mask imm => some (.kForm .d 8 g (kBody 0 0 0 mask.toNat) (some imm))
  | .dhalt g mask => some (.kForm .d 9 g (kBody 0 0 0 mask.toNat) none)
  | .dtap g tap a => some (.kForm .d 10 g (kBody 0 a.toNat 0 tap.toNat) none)
  | .drdY g d a => some (.kForm .d 11 g (kBody d.toNat a.toNat 0 0) none)
  | .drdR g d a => some (.kForm .d 11 g (kBody d.toNat a.toNat 0 1) none)
  | .drdPatch g d a => some (.kForm .d 11 g (kBody d.toNat a.toNat 0 2) none)
  | .drdDz g d a => some (.kForm .d 11 g (kBody d.toNat a.toNat 0 3) none)
  | .drdTapc g d a => some (.kForm .d 11 g (kBody d.toNat a.toNat 0 4) none)
  | .drdTapn g d a => some (.kForm .d 11 g (kBody d.toNat a.toNat 0 5) none)
  | .drdPort g d a => some (.kForm .d 11 g (kBody d.toNat a.toNat 0 6) none)
  | .dwrY g a b => some (.kForm .d 12 g (kBody 0 a.toNat b.toNat 0) none)
  | .dwrR g a b => some (.kForm .d 12 g (kBody 0 a.toNat b.toNat 1) none)
  | .dwrPort g a b => some (.kForm .d 12 g (kBody 0 a.toNat b.toNat 2) none)
  | .dwrPcfg g a b => some (.kForm .d 12 g (kBody 0 a.toNat b.toNat 3) none)
  | .dwrTapc g a b => some (.kForm .d 12 g (kBody 0 a.toNat b.toNat 4) none)
  | .dstatStat g d => some (.kForm .d 13 g (kBody d.toNat 0 0 0) none)
  | .dstatWait g d => some (.kForm .d 13 g (kBody d.toNat 0 0 1) none)
  | .dstatSteps g d a => some (.kForm .d 13 g (kBody d.toNat a.toNat 0 2) none)
  | .mov f => some (.vForm .v 0 f none false)
  | .mov64 f x => some (.vForm .v 0 f (some x) false)
  | .vadd f => some (.vForm .v 1 f none false)
  | .vadd64 f x => some (.vForm .v 1 f (some x) false)
  | .vsub f => some (.vForm .v 2 f none false)
  | .vsub64 f x => some (.vForm .v 2 f (some x) false)
  | .vmul f => some (.vForm .v 3 f none false)
  | .vmul64 f x => some (.vForm .v 3 f (some x) false)
  | .mulh f => some (.vForm .v 4 f none false)
  | .mulh64 f x => some (.vForm .v 4 f (some x) false)
  | .mad f x => some (.vForm .v 5 f (some x) false)
  | .vand f => some (.vForm .v 6 f none false)
  | .vand64 f x => some (.vForm .v 6 f (some x) false)
  | .vor f => some (.vForm .v 7 f none false)
  | .vor64 f x => some (.vForm .v 7 f (some x) false)
  | .vxor f => some (.vForm .v 8 f none false)
  | .vxor64 f x => some (.vForm .v 8 f (some x) false)
  | .shl f => some (.vForm .v 9 f none false)
  | .shl64 f x => some (.vForm .v 9 f (some x) false)
  | .shr f => some (.vForm .v 10 f none false)
  | .shr64 f x => some (.vForm .v 10 f (some x) false)
  | .sra f => some (.vForm .v 11 f none false)
  | .sra64 f x => some (.vForm .v 11 f (some x) false)
  | .vmin f => some (.vForm .v 12 f none false)
  | .vmin64 f x => some (.vForm .v 12 f (some x) false)
  | .vmax f => some (.vForm .v 13 f none false)
  | .vmax64 f x => some (.vForm .v 13 f (some x) false)
  | .vabs f => some (.vForm .v 14 f none false)
  | .vabs64 f x => some (.vForm .v 14 f (some x) false)
  | .clz f => some (.vForm .v 15 f none false)
  | .clz64 f x => some (.vForm .v 15 f (some x) false)
  | .popc f => some (.vForm .v 16 f none false)
  | .popc64 f x => some (.vForm .v 16 f (some x) false)
  | .bfe f => some (.vForm .v 17 f none false)
  | .bfe64 f x => some (.vForm .v 17 f (some x) false)
  | .bfi f x => some (.vForm .v 18 f (some x) false)
  | .sel f x => some (.vForm .v 19 f (some x) false)
  | .cmp f => some (.vForm .v 20 f none false)
  | .cmp64 f x => some (.vForm .v 20 f (some x) false)
  | .plog f x => some (.vForm .v 21 f (some x) false)
  | .cvt f x => some (.vForm .v 22 f (some x) false)
  | .fadd f => some (.vForm .v 23 f none false)
  | .fadd64 f x => some (.vForm .v 23 f (some x) false)
  | .fsub f => some (.vForm .v 24 f none false)
  | .fsub64 f x => some (.vForm .v 24 f (some x) false)
  | .fmul f => some (.vForm .v 25 f none false)
  | .fmul64 f x => some (.vForm .v 25 f (some x) false)
  | .ffma f x => some (.vForm .v 26 f (some x) false)
  | .fmin f => some (.vForm .v 27 f none false)
  | .fmin64 f x => some (.vForm .v 27 f (some x) false)
  | .fmax f => some (.vForm .v 28 f none false)
  | .fmax64 f x => some (.vForm .v 28 f (some x) false)
  | .fcmp f => some (.vForm .v 29 f none false)
  | .fcmp64 f x => some (.vForm .v 29 f (some x) false)
  | .frcp f => some (.vForm .v 30 f none false)
  | .frcp64 f x => some (.vForm .v 30 f (some x) false)
  | .frsq f => some (.vForm .v 31 f none false)
  | .frsq64 f x => some (.vForm .v 31 f (some x) false)
  | .fsqrt f => some (.vForm .v 32 f none false)
  | .fsqrt64 f x => some (.vForm .v 32 f (some x) false)
  | .fexp2 f => some (.vForm .v 33 f none false)
  | .fexp264 f x => some (.vForm .v 33 f (some x) false)
  | .flog2 f => some (.vForm .v 34 f none false)
  | .flog264 f x => some (.vForm .v 34 f (some x) false)
  | .fsin f => some (.vForm .v 35 f none false)
  | .fsin64 f x => some (.vForm .v 35 f (some x) false)
  | .fcos f => some (.vForm .v 36 f none false)
  | .fcos64 f x => some (.vForm .v 36 f (some x) false)
  | .fdiv f => some (.vForm .v 37 f none false)
  | .fdiv64 f x => some (.vForm .v 37 f (some x) false)
  | .fclass f => some (.vForm .v 38 f none false)
  | .fclass64 f x => some (.vForm .v 38 f (some x) false)
  | .shuf f => some (.vForm .v 39 f none false)
  | .shuf64 f x => some (.vForm .v 39 f (some x) false)
  | .voteAny f => some (.vForm .v 40 f none false)
  | .vote64 f x => some (.vForm .v 40 f (some x) false)
  | .gred f => some (.vForm .v 41 f none false)
  | .gred64 f x => some (.vForm .v 41 f (some x) false)
  | .scan f => some (.vForm .v 42 f none false)
  | .scan64 f x => some (.vForm .v 42 f (some x) false)
  | .qmx f x => some (.vForm .v 43 f (some x) false)
  | .dqmx f x => some (.vForm .v 44 f (some x) false)
  | .pack f x => some (.vForm .v 45 f (some x) false)
  | .unpk f x => some (.vForm .v 46 f (some x) false)
  | .gets f => some (.vForm .v 47 f none false)
  | .movs f x => some (.vForm .v 48 f (some x) false)
  | .movp f => some (.vForm .v 49 f none false)
  | .movp64 f x => some (.vForm .v 49 f (some x) false)
  | .ld f => some (.mForm 0 f none)
  | .ld64 f x => some (.mForm 0 f (some x))
  | .st f => some (.mForm 1 f none)
  | .st64 f x => some (.mForm 1 f (some x))
  | .lds f x => some (.mForm 2 f (some x))
  | .sts f x => some (.mForm 3 f (some x))
  | .ldl f x => some (.mForm 4 f (some x))
  | .stl f x => some (.mForm 5 f (some x))
  | .ldu f => some (.mForm 6 f none)
  | .ldu64 f x => some (.mForm 6 f (some x))
  | .stu f => some (.mForm 7 f none)
  | .stu64 f x => some (.mForm 7 f (some x))
  | .atom f x => some (.mForm 8 f (some x))
  | .cas f x => some (.mForm 9 f (some x))
  | .fence f => some (.mForm 10 f none)
  | .fence64 f x => some (.mForm 10 f (some x))
  | .tmov f => some (.mForm 11 f none)
  | .tmov64 f x => some (.mForm 11 f (some x))
  | .tmcast f x => some (.mForm 12 f (some x))
  | .twait f => some (.mForm 13 f none)
  | .tstat f => some (.mForm 14 f none)
  | .sbind f => some (.mForm 15 f none)
  | .sbind64 f x => some (.mForm 15 f (some x))
  | .sfree f => some (.mForm 16 f none)
  | .semw f => some (.mForm 17 f none)
  | .semw64 f x => some (.mForm 17 f (some x))
  | .sems f => some (.mForm 18 f none)
  | .sems64 f x => some (.mForm 18 f (some x))
  | .slot f => some (.mForm 19 f none)
  | .csend f => some (.mForm 20 f none)
  | .wlapp f x => some (.mForm 21 f (some x))
  | .wltake f x => some (.mForm 22 f (some x))
  | .wldone f => some (.mForm 23 f none)
  | .wldone64 f x => some (.mForm 23 f (some x))
  | .gath f x => some (.mForm 24 f (some x))
  | .scat f x => some (.mForm 25 f (some x))
  | .bvhset f x => some (.vForm .b 0 f (some x) false)
  | .beam f x => some (.vForm .b 1 f (some x) false)
  | .ray f => some (.vForm .b 2 f none false)
  | .ray64 f x => some (.vForm .b 2 f (some x) false)
  | .bres f x => some (.vForm .b 3 f (some x) false)
  | .bsplit f x => some (.vForm .b 4 f (some x) false)
  | .cover f x => some (.vForm .b 5 f (some x) false)
  | .robeg f x => some (.vForm .b 6 f (some x) false)
  | .roend f => some (.vForm .b 7 f none false)
  | .gbst f x => some (.vForm .b 8 f (some x) false)
  | .bstatSlot f x => some (.vForm .b 9 f (some x) false)
  | .bstatScene f x => some (.vForm .b 9 f (some x) false)
  | .bstatDepth f x => some (.vForm .b 9 f (some x) false)
  | .bstatOrd f x => some (.vForm .b 9 f (some x) false)
  | .bstatOrda f x => some (.vForm .b 9 f (some x) false)
  | .lineEndAction => none
  | .mwaitTimeout => none
  | .governorApplyMark _ => none
  | .moveProgress _ _ => none
  | .memoryCommandComplete _ _ => none
  | .tmcastDelivery _ _ => none
  | .streamFetch _ _ => none
  | .csendLanded _ _ => none
  | .worklistAgeExpiry _ _ => none
  | .drainComplete _ => none
  | .matrixStep _ => none
  | .xCommandComplete _ => none
  | .ddaCycle _ => none
  | .freeDomainTick _ _ => none
  | .illegalLineFault _ => none
  | .asyncTrap _ => none
  | .parktExpiry _ => none
  | .watchRequeue _ => none
  | .stallTimeout _ => none
  | .hangTimerExpiry _ => none
  | .groupRestore _ _ => none
  | .taskStart _ _ _ => none
  | .teamPlace _ _ => none
  | .teamStaggerStart _ _ => none
  | .passoverLimit _ _ => none
  | .pendingLaunchDrain _ => none
  | .dieListTake _ _ => none
  | .hostLaunchDoorbell _ _ => none
  | .hostRecordConsume _ => none
  | .teamParked _ => none
  | .currentGovernorCycle _ => none
  | .telemetrySample _ _ => none
  | .create _ => none
  | .preempt _ => none
  | .resume _ => none
  | .inval _ => none
  | .invalComplete _ => none
  | .lreset _ => none
  | .destroy _ => none
  | .cmdWriteWhileBusy _ _ => none
  | .update => none
  | .commit => none
  | .retire => none
  | .recal => none
  | .powcompatWrite _ _ => none
  | .didtWrite _ _ => none
  | .registerWrite _ _ => none
  | .hostBar2Write _ _ => none
  | .hostBar2Read _ _ => none
  | .fabricRemoteAccess _ _ _ => none
  | .packageUnreachable _ => none
  | .linkErrorRetrain _ _ => none
  | .bridgeLinkError _ => none
  | .errorDetected _ => none
  | .unitRetirement _ _ _ => none
  | .hbmRetrain _ _ => none
  | .bootVerify _ => none
  | .getVersion => none
  | .getCapabilities => none
  | .negotiateAlgorithms => none
  | .getDigests => none
  | .getCertificate _ _ => none
  | .challenge _ => none
  | .getMeasurements _ => none
  | .spdmSessionRequest => none
  | .illegalInstructionFault _ => none
  | .accessTakesEffect _ _ => none
  | .ddaEventApplied _ => none
  | .retrainComplete _ _ _ => none
  | .firmwareSwitchEnd _ _ => none

/-- The K-engine instruction of an opcode, guard, body and extension word. -/
def kInstr (op : Nat) (g : KG) (y : BitVec 22) (x : Option Word) : Option Instr :=
  let fn := (kF y).toNat
  let o := (kI y).toNat / 4096
  match op, x with
  | 0, none => some (.nop g)
  | 0, some w => some (.nop64 g w)
  | 1, none => if fn == 0 then some (.smov g (kD y) (kA y)) else if fn == 1 then some (.smovLc g (kD y) ((kA y).setWidth 2)) else none
  | 2, none => some (.sli g (kD y) (kI y))
  | 2, some w => some (.sli64 g (kD y) (kI y) w)
  | 3, none => some (.sadd g (kD y) (kA y) (kB y))
  | 3, some w => some (.saddImm g (kD y) (kA y) w)
  | 4, none => some (.ssub g (kD y) (kA y) (kB y))
  | 4, some w => some (.ssubImm g (kD y) (kA y) w)
  | 5, none => if fn == 0 then some (.smul g (kD y) (kA y) (kB y)) else if fn == 1 then some (.smulHi g (kD y) (kA y) (kB y)) else if fn == 2 then some (.smulHiu g (kD y) (kA y) (kB y)) else none
  | 5, some w => if fn == 0 then some (.smulImm g (kD y) (kA y) w) else if fn == 1 then some (.smulHiImm g (kD y) (kA y) w) else if fn == 2 then some (.smulHiuImm g (kD y) (kA y) w) else none
  | 6, none => some (.sand g (kD y) (kA y) (kB y))
  | 6, some w => some (.sandImm g (kD y) (kA y) w)
  | 7, none => some (.sor g (kD y) (kA y) (kB y))
  | 7, some w => some (.sorImm g (kD y) (kA y) w)
  | 8, none => some (.sxor g (kD y) (kA y) (kB y))
  | 8, some w => some (.sxorImm g (kD y) (kA y) w)
  | 9, none => some (.sshl g (kD y) (kA y) (kB y))
  | 9, some w => some (.sshlImm g (kD y) (kA y) (w.setWidth 6))
  | 10, none => if fn == 0 then some (.sshr g (kD y) (kA y) (kB y)) else if fn == 1 then some (.sshrA g (kD y) (kA y) (kB y)) else none
  | 10, some w => if fn == 0 then some (.sshrImm g (kD y) (kA y) (w.setWidth 6)) else if fn == 1 then some (.sshrAImm g (kD y) (kA y) (w.setWidth 6)) else none
  | 11, none => if fn == 0 then some (.smin g (kD y) (kA y) (kB y)) else if fn == 1 then some (.smax g (kD y) (kA y) (kB y)) else if fn == 2 then some (.sminu g (kD y) (kA y) (kB y)) else if fn == 3 then some (.smaxu g (kD y) (kA y) (kB y)) else none
  | 11, some w => if fn == 0 then some (.sminImm g (kD y) (kA y) w) else if fn == 1 then some (.smaxImm g (kD y) (kA y) w) else if fn == 2 then some (.sminuImm g (kD y) (kA y) w) else if fn == 3 then some (.smaxuImm g (kD y) (kA y) w) else none
  | 12, none => some (.scmp g ((kD y).setWidth 3) (kA y) (kB y) (kF y))
  | 12, some w => some (.scmpImm g ((kD y).setWidth 3) (kA y) (kF y) w)
  | 13, none => some (.ssel g (kD y) (kA y) (kB y) ((kF y).setWidth 3))
  | 14, none => some (.qlog g ((kD y).setWidth 3) ((kA y).setWidth 3) ((kB y).setWidth 3) (kF y))
  | 15, none => if o == 0 then some (.scsrRead g (kD y) ((kI y).setWidth 12)) else if o == 1 then some (.scsrWrite g (kD y) ((kI y).setWidth 12)) else if o == 2 then some (.scsrSwap g (kD y) ((kI y).setWidth 12)) else none
  | 16, none => some (.br g y)
  | 17, some w => some (.brv ((kD y).setWidth 4) ((kD y).getLsbD 4) w)
  | 18, none => some (.join)
  | 19, none => some (.call g y)
  | 20, none => if fn == 0 then some (.callvPair g (kA y)) else if fn == 1 then some (.callvReg g (kA y)) else none
  | 21, none => some (.ret g)
  | 22, none => some (.jmp g (kA y))
  | 23, some w => some (.loopOpen g ((kD y).setWidth 2) ((kF y).getLsbD 0) (kA y) (w.extractLsb' 16 16) (w.setWidth 16))
  | 24, none => some (.lbrk g ((kD y).setWidth 2))
  | 25, none => some (.bar g (kF y) (kA y))
  | 26, some w => some (.mwatch g ((kD y).setWidth 2) (kA y) (kB y) (w.setWidth 3) (w.extractLsb' 3 3) (w.getLsbD 6))
  | 27, none => some (.mwait g (kD y) (kA y) (kF y))
  | 28, none => some (.spawn g (kA y))
  | 29, none => some (.await g (kD y) (kA y) ((kF y).setWidth 3))
  | 30, none => some (.fset g (kA y) (kB y))
  | 31, none => if fn == 0 then some (.locka g (kA y)) else if fn == 1 then some (.lockaTry g ((kD y).setWidth 3) (kA y)) else none
  | 32, none => some (.lockr g (kA y))
  | 33, none => some (.yield g)
  | 34, none => some (.exit g)
  | 35, none => some (.launch g (kA y))
  | 36, none => some (.cjoin g (kA y))
  | 37, none => some (.vgive g (kI y))
  | 38, none => some (.vclaim g (kI y))
  | 39, none => some (.trap g (kI y))
  | 40, none => some (.rft)
  | 41, none => if fn == 0 then some (.parkWait) else if fn == 1 then some (.parkPreempt) else if fn == 2 then some (.parkEnd) else none
  | 42, none => some (.bkpt g (kI y))
  | 43, none => some (.leave g)
  | 44, none => some (.leavr g)
  | 45, none => some (.fgmark g (kA y))
  | 46, none => some (.fgplan g (kD y))
  | _, _ => none

/-- The X-engine instruction of an opcode, guard, body and extension word. -/
def xInstr (op : Nat) (g : KG) (y : BitVec 22) (x : Option Word) : Option Instr :=
  let fn := (kF y).toNat
  match op, x with
  | 0, none => if fn < 8 then some (.mcfg g ((kF y).setWidth 3) (kA y) (kB y)) else if 8 ≤ fn then some (.mcfgAct g ((kF y).setWidth 3) (kA y) (kB y)) else none
  | 1, none => some (.mnest g)
  | 2, none => if fn == 0 then some (.mma g (kA y) (kB y)) else if fn == 1 then some (.mmaOvw g (kA y) (kB y)) else none
  | 3, none => some (.mfmt g (kF y) (kA y))
  | 4, none => some (.awin g (kA y))
  | 5, none => some (.aclr g (kA y))
  | 6, some w => some (.aepi g (kD y) (kA y) (kB y) (w.setWidth 16) (w.extractLsb' 16 3) (w.extractLsb' 19 3))
  | 7, none => some (.ald g (kD y) (kA y))
  | 8, none => some (.ast g (kD y) (kA y))
  | 9, none => if fn == 0 then some (.mstatStat g (kD y) (kA y)) else if fn == 1 then some (.mstatWait g (kD y) (kA y)) else if fn == 2 then some (.mstatOvf g (kD y) (kA y)) else if fn == 3 then some (.mstatOvfc g (kD y) (kA y)) else if fn == 4 then some (.mstatFerr g (kD y) (kA y)) else if fn == 5 then some (.mstatFerrc g (kD y) (kA y)) else if fn == 6 then some (.mstatNest g (kD y) (kA y)) else if fn == 7 then some (.mstatNests g (kD y) (kA y)) else if fn == 8 then some (.mstatFmt g (kD y) (kA y)) else none
  | 10, none => some (.mstop g)
  | _, _ => none

/-- The D-engine instruction of an opcode, guard, body and extension word. -/
noncomputable def dInstr (op : Nat) (g : KG) (y : BitVec 22) (x : Option Word) : Option Instr :=
  let fn := (kF y).toNat
  match op, x with
  | 0, none => if fn == 0 then some (.dclaim g) else if fn == 1 then some (.dclaimTry g ((kD y).setWidth 3)) else none
  | 1, none => some (.dfree g)
  | 2, none => some (.dpatch g (kA y) (kB y))
  | 3, none => some (.dinit g (kD y) (kA y) (kB y))
  | 4, none => if fn == 0 then some (.dsave g (kD y) (kA y)) else if fn == 1 then some (.dsaveTq g (kD y)) else none
  | 5, none => if fn == 0 then some (.drest g (kD y)) else if fn == 1 then some (.drestTq g (kD y)) else none
  | 6, none => some (.dclk g ((kF y).setWidth 2) (kA y))
  | 7, none => some (.dstep g (kF y) (kA y))
  | 7, some w => some (.dstep64 g (kF y) w)
  | 8, none => some (.drun g (kF y) (kA y))
  | 8, some w => some (.drun64 g (kF y) w)
  | 9, none => some (.dhalt g (kF y))
  | 10, none => some (.dtap g (kF y) (kA y))
  | 11, none => if fn == 0 then some (.drdY g (kD y) (kA y)) else if fn == 1 then some (.drdR g (kD y) (kA y)) else if fn == 2 then some (.drdPatch g (kD y) (kA y)) else if fn == 3 then some (.drdDz g (kD y) (kA y)) else if fn == 4 then some (.drdTapc g (kD y) (kA y)) else if fn == 5 then some (.drdTapn g (kD y) (kA y)) else if fn == 6 then some (.drdPort g (kD y) (kA y)) else none
  | 12, none => if fn == 0 then some (.dwrY g (kA y) (kB y)) else if fn == 1 then some (.dwrR g (kA y) (kB y)) else if fn == 2 then some (.dwrPort g (kA y) (kB y)) else if fn == 3 then some (.dwrPcfg g (kA y) (kB y)) else if fn == 4 then some (.dwrTapc g (kA y) (kB y)) else none
  | 13, none => if fn == 0 then some (.dstatStat g (kD y)) else if fn == 1 then some (.dstatWait g (kD y)) else if fn == 2 then some (.dstatSteps g (kD y) (kA y)) else none
  | _, _ => none

/-- The V-engine instruction of an opcode and its words. -/
def vInstr (op : Nat) (f : VF) (x : Option VX) : Option Instr :=
  match op, x with
  | 0, none => some (.mov f)
  | 0, some x => some (.mov64 f x)
  | 1, none => some (.vadd f)
  | 1, some x => some (.vadd64 f x)
  | 2, none => some (.vsub f)
  | 2, some x => some (.vsub64 f x)
  | 3, none => some (.vmul f)
  | 3, some x => some (.vmul64 f x)
  | 4, none => some (.mulh f)
  | 4, some x => some (.mulh64 f x)
  | 5, some x => some (.mad f x)
  | 6, none => some (.vand f)
  | 6, some x => some (.vand64 f x)
  | 7, none => some (.vor f)
  | 7, some x => some (.vor64 f x)
  | 8, none => some (.vxor f)
  | 8, some x => some (.vxor64 f x)
  | 9, none => some (.shl f)
  | 9, some x => some (.shl64 f x)
  | 10, none => some (.shr f)
  | 10, some x => some (.shr64 f x)
  | 11, none => some (.sra f)
  | 11, some x => some (.sra64 f x)
  | 12, none => some (.vmin f)
  | 12, some x => some (.vmin64 f x)
  | 13, none => some (.vmax f)
  | 13, some x => some (.vmax64 f x)
  | 14, none => some (.vabs f)
  | 14, some x => some (.vabs64 f x)
  | 15, none => some (.clz f)
  | 15, some x => some (.clz64 f x)
  | 16, none => some (.popc f)
  | 16, some x => some (.popc64 f x)
  | 17, none => some (.bfe f)
  | 17, some x => some (.bfe64 f x)
  | 18, some x => some (.bfi f x)
  | 19, some x => some (.sel f x)
  | 20, none => some (.cmp f)
  | 20, some x => some (.cmp64 f x)
  | 21, some x => some (.plog f x)
  | 22, some x => some (.cvt f x)
  | 23, none => some (.fadd f)
  | 23, some x => some (.fadd64 f x)
  | 24, none => some (.fsub f)
  | 24, some x => some (.fsub64 f x)
  | 25, none => some (.fmul f)
  | 25, some x => some (.fmul64 f x)
  | 26, some x => some (.ffma f x)
  | 27, none => some (.fmin f)
  | 27, some x => some (.fmin64 f x)
  | 28, none => some (.fmax f)
  | 28, some x => some (.fmax64 f x)
  | 29, none => some (.fcmp f)
  | 29, some x => some (.fcmp64 f x)
  | 30, none => some (.frcp f)
  | 30, some x => some (.frcp64 f x)
  | 31, none => some (.frsq f)
  | 31, some x => some (.frsq64 f x)
  | 32, none => some (.fsqrt f)
  | 32, some x => some (.fsqrt64 f x)
  | 33, none => some (.fexp2 f)
  | 33, some x => some (.fexp264 f x)
  | 34, none => some (.flog2 f)
  | 34, some x => some (.flog264 f x)
  | 35, none => some (.fsin f)
  | 35, some x => some (.fsin64 f x)
  | 36, none => some (.fcos f)
  | 36, some x => some (.fcos64 f x)
  | 37, none => some (.fdiv f)
  | 37, some x => some (.fdiv64 f x)
  | 38, none => some (.fclass f)
  | 38, some x => some (.fclass64 f x)
  | 39, none => some (.shuf f)
  | 39, some x => some (.shuf64 f x)
  | 40, none => some (.voteAny f)
  | 40, some x => some (.vote64 f x)
  | 41, none => some (.gred f)
  | 41, some x => some (.gred64 f x)
  | 42, none => some (.scan f)
  | 42, some x => some (.scan64 f x)
  | 43, some x => some (.qmx f x)
  | 44, some x => some (.dqmx f x)
  | 45, some x => some (.pack f x)
  | 46, some x => some (.unpk f x)
  | 47, none => some (.gets f)
  | 48, some x => some (.movs f x)
  | 49, none => some (.movp f)
  | 49, some x => some (.movp64 f x)
  | _, _ => none

/-- The M-engine instruction of an opcode and its words. -/
def mInstr (op : Nat) (f : VF) (x : Option MX) : Option Instr :=
  match op, x with
  | 0, none => some (.ld f)
  | 0, some x => some (.ld64 f x)
  | 1, none => some (.st f)
  | 1, some x => some (.st64 f x)
  | 2, some x => some (.lds f x)
  | 3, some x => some (.sts f x)
  | 4, some x => some (.ldl f x)
  | 5, some x => some (.stl f x)
  | 6, none => some (.ldu f)
  | 6, some x => some (.ldu64 f x)
  | 7, none => some (.stu f)
  | 7, some x => some (.stu64 f x)
  | 8, some x => some (.atom f x)
  | 9, some x => some (.cas f x)
  | 10, none => some (.fence f)
  | 10, some x => some (.fence64 f x)
  | 11, none => some (.tmov f)
  | 11, some x => some (.tmov64 f x)
  | 12, some x => some (.tmcast f x)
  | 13, none => some (.twait f)
  | 14, none => some (.tstat f)
  | 15, none => some (.sbind f)
  | 15, some x => some (.sbind64 f x)
  | 16, none => some (.sfree f)
  | 17, none => some (.semw f)
  | 17, some x => some (.semw64 f x)
  | 18, none => some (.sems f)
  | 18, some x => some (.sems64 f x)
  | 19, none => some (.slot f)
  | 20, none => some (.csend f)
  | 21, some x => some (.wlapp f x)
  | 22, some x => some (.wltake f x)
  | 23, none => some (.wldone f)
  | 23, some x => some (.wldone64 f x)
  | 24, some x => some (.gath f x)
  | 25, some x => some (.scat f x)
  | _, _ => none

/-- The B-engine instruction of an opcode and its words; BSTAT is told apart by its function in c[6:4]. -/
noncomputable def bInstr (op : Nat) (f : VF) (x : Option VX) : Option Instr :=
  match op, x with
  | 0, some x => some (.bvhset f x)
  | 1, some x => some (.beam f x)
  | 2, none => some (.ray f)
  | 2, some x => some (.ray64 f x)
  | 3, some x => some (.bres f x)
  | 4, some x => some (.bsplit f x)
  | 5, some x => some (.cover f x)
  | 6, some x => some (.robeg f x)
  | 7, none => some (.roend f)
  | 8, some x => some (.gbst f x)
  | 9, some x =>
    match x.c.toNat / 16 with
    | 0 => some (.bstatSlot f x)
    | 1 => some (.bstatScene f x)
    | 2 => some (.bstatDepth f x)
    | 3 => some (.bstatOrd f x)
    | 4 => some (.bstatOrda f x)
    | _ => none
  | _, _ => none

noncomputable def Form.instr : Form → Option Instr
  | .kForm .x op g y x => xInstr op g y x
  | .kForm .d op g y x => dInstr op g y x
  | .kForm _ op g y x => kInstr op g y x
  | .vForm .b op f x _ => bInstr op f x
  | .vForm _ op f x _ => vInstr op f x
  | .mForm op f x => mInstr op f x

/-! ## The decoder -/

/-- Why a lane instruction is rejected: the subcode and EXT of R58. -/
structure DecodeError where
  sub : Nat
  ext : Bool
  deriving DecidableEq, Repr

/-- Decode one lane instruction of engine e: the defect of lowest subcode, or the instruction. -/
noncomputable def decodeWords (e : Eng) (w : Word) (x : Option Word) : Except DecodeError Instr :=
  let fm := splitForm e w x
  match lowest fm.defects with
  | some (sub, ext) => .error ⟨sub, ext⟩
  | none =>
    match fm.instr with
    | some i => .ok i
    | none => .error ⟨1, false⟩

/-- The tag nibble of lane k, from the header (R36). -/
def laneTag (header : Word) (k : Nat) : Nat := header.toNat / 2 ^ (4 * k) % 16

/-- The defects of lane k of a line: subcodes 2 to 6 of cause 0x01 (R39, R58), lowest first. -/
def laneDefect (tile : Bool) (ws : List Word) (k : Nat) : Option LineDefect :=
  let h := ws.headD 0
  let t := laneTag h k
  let prev := if k ≤ 1 then 0 else laneTag h (k - 1)
  let next := if k = 7 then 0 else laneTag h (k + 1)
  let mk (sub : Nat) : Option LineDefect := some ⟨k, BitVec.ofNat 4 t, sub⟩
  if t = 7 || t = 8 then mk 2
  else if t = 15 && !(9 ≤ prev && prev ≤ 14) then mk 3
  else if (9 ≤ t && t ≤ 14) && next != 15 then mk 4
  else if (t = 4 || t = 12) && !tile || (t = 6 || t = 14) && tile then mk 5
  else if t = 0 && ws.getD k 0 != 0 then mk 6
  else none

/-- The defect of a line that is reported: nibble 0 first, then the lowest lane (R43). DESIGN CHOICE (log 6): lane 0 has no tag, and
TAG of a nibble-0 defect is 0. -/
def lineDefect (tile : Bool) (ws : List Word) : Option LineDefect :=
  if (ws.headD 0).toNat / 4 % 4 != 0 then some ⟨0, 0, 1⟩
  else [1, 2, 3, 4, 5, 6, 7].findSome? (laneDefect tile ws)

/-- T and H of the header (R37). -/
def lineT (ws : List Word) : Bool := (ws.headD 0).getLsbD 0
def lineH (ws : List Word) : Bool := (ws.headD 0).getLsbD 1

/-- What stands in a lane of a line. -/
inductive Lane where
  /-- nothing to issue: an empty lane, or the continuation word of a 64-bit instruction -/
  | pass
  /-- an instruction of engine e that takes n lanes -/
  | issue (e : Eng) (n : Nat) (i : Instr)
  deriving DecidableEq, Repr

/-- Decode lane k of a line (k from 1 to 7): the line's defects at or before the lane come first (R43); a lane word
with an encoding defect decodes to the row ILLEGAL_INSTRUCTION_FAULT that carries it (R58). -/
noncomputable def decodeLane (tile : Bool) (ws : List Word) (k : Nat) : Lane :=
  match lineDefect tile ws with
  | some dft => if dft.lane ≤ k then .issue .k 1 (.illegalLineFault dft) else decodeTagged k
  | none => decodeTagged k
where
  decodeTagged (k : Nat) : Lane :=
    let t := laneTag (ws.headD 0) k
    let w := ws.getD k 0
    let long := 9 ≤ t
    match Eng.ofTag t with
    | none => .pass
    | some e =>
      let x := if long then some (ws.getD (k + 1) 0) else none
      let n := if long then 2 else 1
      match decodeWords e w x with
      | .ok i => .issue e n i
      | .error err =>
        .issue e n (.illegalInstructionFault ⟨k, BitVec.ofNat 4 t, w.extractLsb' 26 6, err.sub, err.ext⟩)

/-- The eight lane words of 32 bytes, each little-endian (R36). -/
def lineWords : List Byte → List Word
  | b0 :: b1 :: b2 :: b3 :: rest => (b3 ++ b2 ++ b1 ++ b0) :: lineWords rest
  | _ => []

/-! ## The encoder -/

/-- The words of an instruction: its engine, its first word and its extension word. Events have none. -/
def encode (i : Instr) : Option (Eng × Word × Option Word) :=
  i.form.map fun fm => (fm.eng, fm.words.1, fm.words.2)

/-- The four bytes of a word, least significant first. -/
def wordBytes (w : Word) : List Byte :=
  [w.extractLsb' 0 8, w.extractLsb' 8 8, w.extractLsb' 16 8, w.extractLsb' 24 8]

/-- The 32 bytes of a line that carries T and one instruction from lane 1 on. -/
def lineOf (e : Eng) (w : Word) (x : Option Word) : List Byte :=
  let header : Nat := 1 + 16 * (e.tag + if x.isSome then 8 else 0) + (if x.isSome then 15 * 256 else 0)
  ([BitVec.ofNat 32 header, w, x.getD 0, 0, 0, 0, 0, 0] : List Word).flatMap wordBytes

/-- The engine that reads a word whose tag is not given: the first of K V M X D B that accepts it, in that order
(DESIGN CHOICE, log 6: spec/opcode_table.json gives the bits of the lane word without its tag). -/
noncomputable def tableEngine (w : Word) (x : Option Word) : Option Eng :=
  [Eng.k, .v, .m, .x, .d, .b].find? fun e => (decodeWords e w x).isOk

/-- The instruction the decoder reads from the bits of a table row: a 32-bit lane word, or for more than 32 bits a
first word and its extension word. -/
noncomputable def decodeTableWord (nbits w : Nat) : Option Instr :=
  let w0 : Word := BitVec.ofNat 32 w
  let x : Option Word := if 32 < nbits then some (BitVec.ofNat 32 (w / 2 ^ 32)) else none
  match tableEngine w0 x with
  | some e => (decodeWords e w0 x).toOption
  | none => none

end Sys2Proof
end

