-- ==== Sys2Proof/Config.lean ====
section
/-! DEFINITION. Constants of the AH-7716-LC (R3, R5, R14 to R18, R331) and the free values that the spec leaves open
(log 7). A free value has no body: nothing can compute or prove what it is. -/

namespace Sys2Proof.Config

/-- The number of cores that a die enables (R3): 64 shade cores or 144 N-tiles. Dies: 0 G0, 1 G1, 2 N0, 3 N1 (R32). -/
def coresOf (die : Nat) : Nat := if die < 2 then 64 else 144

/-- Whether the cores of a die are N-tiles (R3). -/
def isTileDie (die : Nat) : Bool := 2 ≤ die

/-- The model's key of a core: die * 256 + %CORE. -/
def coreKey (die core : Nat) : Nat := die * 256 + core
def coreDie (key : Nat) : Nat := key / 256
def coreIndex (key : Nat) : Nat := key % 256
def isTile (key : Nat) : Bool := isTileDie (coreDie key)

/-- The partner die of a die (R299): G0 with N0, G1 with N1. -/
def partnerDie (die : Nat) : Nat := (die + 2) % 4

/-- The cluster of a core within its die (R3). -/
def clusterOf (key : Nat) : Nat :=
  if isTile key then 3 * (coreIndex key / 12 / 4) + coreIndex key % 12 / 4 else coreIndex key / 8

def clustersOf (die : Nat) : Nat := if isTileDie die then 9 else 8

/-- Bytes of a unit scratchpad, a cluster scratchpad and a die scratchpad (R5, R331). -/
def unitBytes (key : Nat) : Nat := if isTile key then 2 ^ 20 else 2 ^ 18
def clusterBytes (die : Nat) : Nat := if isTileDie die then 2 ^ 23 else 2 ^ 21
def dieBytes (die : Nat) : Nat := if isTileDie die then 56 * 2 ^ 20 else 16 * 2 ^ 20

/-- Lane-private bytes of a physical lane (R18) and the lane-registers of the pool (R17). -/
def lanePrivBytes (tile : Bool) : Nat := if tile then 2048 else 4096
def poolRegs (tile : Bool) : Nat := if tile then 32768 else 65536

/-- Slots of a core: half-slots of a shade core, group slots of an N-tile (R15, R16). -/
def slotsOf (tile : Bool) : Nat := if tile then 8 else 96

/-- HBM of one die in bytes (R5). -/
def hbmBytes : Nat := 96 * 2 ^ 30

/-! ## Free values -/

/-- Of several lanes that write one byte in one instruction, which one's value stays (R176). -/
opaque freeLane : Nat → Nat

/-- The order of the lanes of one ATOM or CAS that meet at one location (R177), of the records of one WLAPP (R203), and of the
deliveries of one TMCAST (R192), as a permutation seed. -/
opaque freeOrder : Nat → Nat

/-- How many steps a Counted domain that DHALT stops has made (R256). -/
opaque freeSteps : Nat → Nat

/-- The bytes of the ray stack after RAY (R276). -/
opaque freeByte : Nat → BitVec 8

/-- The register window base of an adoption frame (R308, R378), the place of an allocation (R334), and the save area of a slot (R404). -/
opaque freeBase : Nat → Nat

/-- The MOTION of a hit whose w' is a NaN (R268), by the descriptor's bytes, the pixel and the record's address. -/
opaque freeMotion : List (BitVec 8) → Nat → Nat → BitVec 64 → BitVec 32

/-- Whether a firmware image is signed by the key of a digest (R413, R415): the image's bytes as a number, and the digest. -/
opaque signatureOk : Nat → Nat → Bool

/-- The security version of a firmware image (R413), and the first image of a die. -/
opaque imageSvn : Nat → Nat
opaque bootImage : Nat → Nat

/-- The pages of an HBM channel of a die: first page and count (R417). -/
opaque channelPages : Nat → Nat → Nat × Nat

/-- The index on its die of the HBM channel that holds a byte (R399, R417), by the byte's physical address. -/
opaque hbmUnit : Nat → Nat

/-- Whether another package lets this one reach an address at a moment (R411): the moment, the package, its PA. -/
opaque remoteOpen : Nat → Nat → Nat → Bool

/-- The stepping of the package (R408). -/
opaque stepping : BitVec 8

/-- The contents of an SPDM response that the spec does not give (R413). -/
opaque freeResponse : Nat → Nat

end Sys2Proof.Config
end

