-- ==== Sys2Proof/Machine/State.lean ====
section
/-! DEFINITION. The state of one package: groups and their occupants, cores, dies, context slots, launches, teams,
memory, links, and the reasons a step can stop. Plain data; the rule of spec/ that names each piece stands beside it. -/

namespace Sys2Proof.Machine

/-- A memory: the listed bytes by rising address; an unlisted byte reads 0 (R334, log 4). -/
abbrev Memory := List Host.Cell

/-- Why the machine stops with a fault: nothing does. Every fault of the spec is a trap, which is a next state (R369 to R373). -/
inductive Fault where
  deriving DecidableEq, Repr

/-- Why a step is refused. -/
inductive Refusal where
  /-- raised by the dispatch for an instruction that has no meaning yet. Safe: the machine stops. -/
  | notModelled (mnemonic : String)
  deriving DecidableEq, Repr

/-- One 64-bit value per engine: the program counters of R22 and the %EPC registers of R32. -/
structure Pcs where
  k : DWord
  v : DWord
  m : DWord
  x : DWord
  d : DWord
  b : DWord
  deriving DecidableEq, Repr

/-- A loop record of a bound lc register (R122). -/
structure LoopRec where
  lc : Nat
  start : DWord
  span : Nat
  ddepth : Nat
  rdepth : Nat
  deriving DecidableEq, Repr

/-- An entry of the divergence stack (R113). -/
structure DivEntry where
  vKind : Bool
  treg : Nat
  saved : DWord
  pending : DWord
  pendpc : DWord
  deriving DecidableEq, Repr

/-- An entry of the return stack (R113). -/
structure RetEntry where
  vKind : Bool
  ddepth : Nat
  retline : DWord
  deriving DecidableEq, Repr

/-- An entry of the branch-outcome queue (R23, R120, R378). -/
structure BoqEntry where
  addr : DWord
  taken : Bool
  transfer : Bool
  target : DWord
  mask : DWord
  deriving DecidableEq, Repr

/-- The control stacks and loops of an occupant: what the entry capture of R371 holds beside registers. -/
structure Flow where
  /-- the lane mask (R115), of the engines that have popped no queue entry -/
  mask : DWord
  /-- the branch-outcome queue, oldest first (R23), and how many entries each engine has popped (R378) -/
  boq : List BoqEntry
  pops : Pcs
  /-- the divergence stack entries on the core, newest first, and how many are spilled (R113, R114) -/
  div : List DivEntry
  dspill : Nat
  ret : List RetEntry
  rspill : Nat
  /-- where in the spill area their own spilled entries begin: at trap level behind those of user level (R371, log 32) -/
  dbase : Nat := 0
  rbase : Nat := 0
  /-- lc0 to lc3 (R20) and the records of bound loops, innermost first (R122) -/
  lc : List Word
  loops : List LoopRec
  /-- loop skips that wait for their line to complete (R122): line, return depth, target line -/
  skips : List (DWord × Nat × DWord)
  deriving DecidableEq, Repr

/-- The registers of an occupant (R20), each read through its accessor; what a list does not reach reads zero. -/
structure Regs where
  v : List (List Word)
  p : List DWord
  s : List DWord
  q : Byte
  deriving DecidableEq, Repr

/-- The entry capture (R371). -/
structure Capture where
  flow : Flow
  s : List DWord
  q : Byte
  v0 : List Word
  /-- system registers written in the line in which the trap stopped the K engine: number and old value, which the rest of
  the line still reads (R32, R30), and that line -/
  old : List (Nat × DWord) := []
  oldLine : DWord := 0
  /-- the MWAIT that the trap broke off, with its start: its time-out keeps running (R132, R133) -/
  mwait : Option (DWord × Nat × Nat × Nat × Nat) := none
  /-- the %EPC.K of a K engine that stands after a line it has not completed (R134, R444) -/
  atEnd : Option DWord := none
  deriving DecidableEq, Repr

/-- The registers that groups share, as a group sees them from its fetch of a line on (R33, R404). -/
structure Shared where
  felt : DWord
  fgbase : DWord
  fgdl : DWord
  fgguard : DWord
  tvec : DWord
  hangt : Nat
  didt : Nat
  powcompat : Nat
  flags : Nat
  deriving DecidableEq, Repr

/-- A fetched line: its address, its eight words (R44), and the shared registers then (R33). -/
structure Fetched where
  addr : DWord
  words : List Word
  seen : Shared
  deriving DecidableEq, Repr

/-- The stream register w (R199 to R202, R378). -/
structure Stream where
  bound : Bool
  tap : Bool
  addr : DWord
  space : Nat
  size : Nat
  left : Nat
  stride : DWord
  arrived : List Word
  /-- index of the next element to fetch, and whether a fault has halted the fetching (R191, R200) -/
  index : Nat
  halted : Bool
  /-- values at the SBIND of the elements still to arrive (R345) -/
  fixed : List (Option Word) := []
  /-- handle, by which its place in program order is known (R397) -/
  uid : Nat := 0
  deriving DecidableEq, Repr

/-- A byte range that a command declares (R181): space and core, [lo, hi), whether it writes. UNIT ranges are given as
PEER ranges of the core they address. -/
structure Range where
  space : Nat
  core : Nat
  lo : Nat
  hi : Nat
  wr : Bool
  deriving DecidableEq, Repr

/-- A memory command that is not complete: TMOV, TMCAST or CSEND (R183 to R193, R198, R378). -/
structure MemCmd where
  uid : Nat
  op : Nat
  quad : List DWord
  /-- the semaphore register's value (TMOV), the route word (TMCAST), or the handle (CSEND) -/
  route : DWord
  /-- address of the semaphore that it signals, if one -/
  sem : Option DWord
  off : BitVec 16
  space : Nat
  scope : Nat
  halted : Bool
  i : Nat
  j : Nat
  /-- deliveries made by a TMCAST (R192), and whether one of its signals overflowed (R446) -/
  deliveries : Nat
  error : Bool
  /-- the free value that orders the deliveries of a TMCAST (R192) -/
  seed : Nat := 0
  ranges : List Range
  /-- the instruction address (R367 QHEAD) -/
  addr : DWord
  deriving DecidableEq, Repr

/-- An X command that is not complete: MNEST, MMA, AEPI, ALD, AST or ACLR (R230). -/
structure XCmd where
  uid : Nat
  op : Nat
  args : List DWord
  /-- format table at issue (R213) and the shadow nest table at issue (R214) -/
  fmts : List Word
  table : List DWord
  /-- leave has been granted (R359); it has begun on the array -/
  granted : Bool
  started : Bool
  next : Nat
  /-- key of the semaphore that it signals at completion, if one (R226) -/
  sem : Option Nat
  ranges : List Range
  addr : DWord
  /-- a lost operand or row, or its signal, has halted it (R232, R397) -/
  halted : Bool := false
  deriving DecidableEq, Repr

/-- A watch slot (R131, R378). -/
structure Watch where
  armed : Bool
  addr : DWord
  expect : DWord
  attrs : Nat
  deriving DecidableEq, Repr

/-- A beam slot (R273): its candidates are the addresses and the 48 bytes of their records. -/
structure BeamSlot where
  valid : Bool
  split : Bool
  tx : Nat
  ty : Nat
  cands : List (DWord × List Byte)
  deriving DecidableEq, Repr

/-- A wait in progress (R303, R367, R449): the wait kind of R367, its object and detail, and the cycle it began. -/
structure Wait where
  kind : Nat
  obj : DWord
  owner : Nat
  detail : Nat
  since : Nat
  /-- of a parked wait on no memory: what its object read in the last cycle, and whether that has changed since the trap entry (R138) -/
  mark : Nat := 0
  moved : Bool := false
  deriving DecidableEq, Repr

/-- A cause of R369 with what its trap entry writes: engine, %TINFO, %TADDR. -/
structure Cause where
  code : Nat
  eng : Eng
  info : DWord
  addr : DWord
  /-- handle of the halted command that raises it (R397); 0 for none -/
  cmd : Nat := 0
  /-- address of the instruction that is charged with it, where that is not where its engine stands (R296) -/
  pc : Option DWord := none
  deriving DecidableEq, Repr

/-- A plain store of a lane that has been issued and has not taken effect (R336, R341): memory key, bytes, at most 8 (R176), and the
number of the instruction among those whose stores are pending (R182). -/
structure Store where
  key : Nat
  bytes : List Byte
  cmd : Nat := 0
  deriving DecidableEq, Repr

/-- Pending plain stores, oldest first. -/
abbrev Pending := List Store

/-- A worklist set as a right or a drain names it (R326): context, object address, space and offset, the home die, and
for CLUS and DIE the key of the space's first byte and its size. -/
structure SetRef where
  ctx : Nat
  obj : DWord
  space : Nat
  off : DWord
  home : Nat
  base : Nat
  size : Nat
  deriving DecidableEq, Repr

/-- Everything an occupant of a slot has for itself. -/
structure Occ where
  /-- %TASK; 0 for a group of a launch team (R13) -/
  task : Nat
  /-- handle of the team it runs in, or of a task's own credit (R13, R323) -/
  team : Nat
  /-- %LAUNCH, %TEAM, %GROUP, %NGROUP (R32) -/
  launch : Word
  teamIdx : DWord
  group : Nat
  ngroup : Nat
  /-- group width in lanes, the current count c (R323) and the lane-private slice (R18) -/
  width : Nat
  count : Nat
  lanePriv : Nat
  lanePrivBase : Nat
  pcs : Pcs
  regs : Regs
  flow : Flow
  /-- level (R31), the entry capture, and the single step that RFT asked for (R390) -/
  trapLevel : Bool
  capture : Option Capture
  stepping : Bool
  /-- %EPC, %TCAUSE, %TINFO, %TADDR, %SAVEPTR (R32) -/
  epc : Pcs
  tcause : DWord
  tinfo : DWord
  taddr : DWord
  saveptr : DWord
  /-- address of the instruction that the last trap is charged to (R296) -/
  faultAt : DWord
  /-- its save area of the context's pool, for a group of a launch team (R404) -/
  area : Option Nat
  /-- %WINDOW, %PARKT, %MPROG, %AWB, %AWL (R32) -/
  window : DWord
  parkt : DWord
  mprog : DWord
  awb : Nat
  awl : Nat
  fgseen : Nat
  /-- a WLAPP that waits for room: its address and the lanes whose records have entered (R328) -/
  appending : Option (DWord × List Nat)
  /-- system register writes that take effect from the next line (R32) -/
  sysPend : List (Nat × DWord)
  /-- registers that the rest of a resumed line still reads as they were before the trap (R30) -/
  sysOld : List (Nat × DWord)
  /-- the line that the group has fetched and not left (R44) -/
  line : Option Fetched
  streams : List Stream
  cmds : List MemCmd
  /-- tags of completed commands with error records not yet reported (R194, R198) -/
  cmdErrs : List Nat
  xcmds : List XCmd
  xerr : Bool
  /-- the instruction address of a nest that a trap halted -/
  nestAddr : DWord
  /-- the ranges that a nest halted at a trap still declares (R217) -/
  nestHeld : List Range
  shadow : List DWord
  active : List DWord
  fmts : List Word
  snapshot : Option (List Word)
  watches : List Watch
  /-- the scene: address and the 128 bytes of its descriptor (R271, R272), D, the beam slots (R280) -/
  scene : Option (DWord × List Byte)
  rayDepth : Nat
  beams : List BeamSlot
  /-- the order token (address, n) held (R281) -/
  token : Option (DWord × Nat)
  /-- the power token of R361 -/
  power : Bool
  /-- felt handles held (R197), sets on which an append right is held (R203) -/
  felts : List DWord
  rights : List SetRef
  wait : Option Wait
  /-- a barrier arrival (R128, R383): the barrier, the phase bit then, and whether that phase has completed -/
  barWait : Option (Nat × Bool × Bool)
  /-- the wait that a trap with cause 0x1F ended, watched from then on (R138) -/
  parked : Option Wait
  /-- a power token held at the save, to be taken again at RFT (R361) -/
  owed : Bool
  /-- of each DDA domain, where it stood between two steps at the last DSAVE (R262), which the image does not hold -/
  beats : List Bool
  /-- EXIT has ended the task and an underflow is being handled (R318) -/
  exited : Bool
  /-- the MWAIT in progress (R132): its address, start cycle, destination, time-out and fn -/
  mwait : Option (DWord × Nat × Nat × Nat × Nat)
  /-- causes of classes A, E and X that wait for a boundary (R370) -/
  causes : List Cause
  stores : Pending
  /-- a fault was raised while NESTED was set: the occupant ends next, as PARK fn 2 (R373) -/
  ending : Bool
  deriving DecidableEq, Repr

/-- Bytes [lo, hi) that the hardware watch of a parked wait of group gid covers, by key, and whether they have been written since the
trap entry with cause 0x1F (R138). -/
structure Watching where
  gid : Nat
  lo : Nat
  hi : Nat
  fired : Bool
  deriving DecidableEq, Repr

/-- A line of memory into which a store instruction or a tile-move has written in part: its key, the contents before, and who writes:
the instruction number of a group's pending stores, or the handle of a move (R44). -/
structure Torn where
  line : Nat
  old : List Byte
  gid : Nat
  cmd : Nat
  move : Bool
  deriving DecidableEq, Repr

/-- Run state of a slot's occupants (R138, R366, R380). -/
inductive Run where
  /-- no group -/
  | vacant
  | running
  /-- parked in a wait (PARK fn 0); `ready` once its watch has re-queued it -/
  | waitPark (ready : Bool)
  | preemptPark
  deriving DecidableEq, Repr

/-- A group: its slot, its running occupant and the occupants below it on the adoption stack (R308). -/
structure Group where
  gid : Nat
  ctx : Nat
  run : Run
  place : Place
  /-- %ALIM (R33), inherited priority of the bottom occupant is in its task -/
  alim : Nat
  occ : Occ
  under : List Occ
  /-- hang timer (R366): the cycle of the last progress, and whether this wait instance is recorded -/
  progress : Nat
  recorded : Bool
  deriving DecidableEq, Repr

/-- A DDA cell (R233). -/
structure Cell where
  y : Word
  r : Word
  dz : Int
  ldx : Int
  ldy0 : Int
  ldy1 : Int
  patch : DWord
  deriving DecidableEq, Repr

/-- A DDA domain (R239, R261): mode 0 Stopped, 1 Counted, 2 Free, 3 Event; `beat` marks the cycle between two steps of a
Counted domain (R240). -/
structure Dom where
  mode : Nat
  beat : Bool
  remain : Nat
  period : Nat
  phase : Nat
  trig : Nat
  steps : Nat
  deriving DecidableEq, Repr

structure Port where
  value : Int
  dom : Nat
  w : Nat
  bound : Bool
  /-- the cycle at which its domain was first held for want of an element (R391) -/
  held : Option Nat
  deriving DecidableEq, Repr

structure Tap where
  cell : Nat
  sink : Nat
  counter : Word
  fifo : List Int
  aside : Nat
  deriving DecidableEq, Repr

/-- An accepted DSTEP (run false) or DRUN (run true) that is not yet applied (R239). -/
structure DdaEvent where
  run : Bool
  mask : BitVec 4
  count : Nat
  addr : DWord
  deriving DecidableEq, Repr

/-- The DDA of a core (R233 to R251). -/
structure Dda where
  /-- the owner: group handle and adoption depth of the occupant that claimed it -/
  owner : Option (Nat × Nat)
  frozen : Bool
  cells : List Cell
  doms : List Dom
  ports : List Port
  taps : List Tap
  queue : List DdaEvent
  /-- applied DSTEPs that are not complete (R25): instruction address, and the domains that have not returned to Stopped -/
  running : List (DWord × List Nat) := []
  deriving DecidableEq, Repr

/-- A reservation of a slot in a felt ring that is not yet published (R197, R287, R288): the ring's core, the slot t,
the bridge, the handle, and the CSEND that has consumed it. -/
structure FeltRes where
  ring : Nat
  slot : Nat
  bridge : Nat
  handle : DWord
  cmd : Option Nat
  deriving DecidableEq, Repr

/-- A launch record (R319). -/
structure LaunchRec where
  entry : DWord
  tx : Nat
  ty : Nat
  tz : Nat
  groups : Nat
  width : Nat
  regs : Nat
  lanePriv : Nat
  teamScr : Nat
  clusScr : Nat
  stagger : Nat
  counter : DWord
  arg : DWord
  cosched : Bool
  tile : Bool
  prio : Nat
  deriving DecidableEq, Repr

/-- Where a launch stands (R321, R352): in its core's pending-launch queue, spilled to an entry of a die launch list,
or held by a controller. -/
inductive Stage where
  | pending
  | spilled (die pos : Nat)
  | held
  deriving DecidableEq, Repr

/-- An accepted launch (R351 to R356), until its last team completes. -/
structure Launch where
  uid : Nat
  ctx : Nat
  id : Word
  record : LaunchRec
  stage : Stage
  /-- the dies that serve it -/
  dies : List Nat
  /-- key of the issuing core, and arrival stamp (R353) -/
  core : Nat
  stamp : Nat
  /-- next team index to place, teams completed -/
  next : Nat
  done : Nat
  /-- the die and cluster that a CLUSSCR or co-scheduling binds it to, with the base of its allocation (R351, R354) -/
  bound : Option (Nat × Nat × Nat)
  /-- the cycle of the last team start on each die (R356) -/
  lastStart : List (Nat × Nat)
  /-- the worklist set and list that launched it as a drain (R328) -/
  drain : Option (SetRef × Nat)
  /-- the dies on which the pass-over limit of R354 has been reached -/
  passed : List Nat
  deriving DecidableEq, Repr

/-- A barrier of a team (R128, R378). -/
structure Barrier where
  arrived : Word
  expected : Nat
  opened : Bool
  phase : Bool
  deriving DecidableEq, Repr

/-- A team or cluster abort (R384, R385): the cause that started it, the %GROUP and %TEAM of the group that did, the
faulting address, and the cause 0x13 or 0x14 that it raises. -/
structure Abort where
  cause : Nat
  group : Nat
  team : DWord
  pc : Nat
  code : Nat
  /-- the core and the task of that group, for the abort event (R387) -/
  core : Nat := 0
  task : Nat := 0
  deriving DecidableEq, Repr

/-- A team (R11, R19, R323). A task is a team of one with its own credit (R323). -/
structure Team where
  uid : Nat
  ctx : Nat
  launch : Nat
  /-- linear team index -/
  index : Nat
  /-- core keys: one core, or the even and odd core of a pair; UNIT base and size T (R19) -/
  cores : List Nat
  unitBase : Nat
  unitSize : Nat
  /-- groups that have not ended; and whether the team has completed, its allocations still held for the rest of its fault domain
  (R386) -/
  live : Nat
  ended : Bool := false
  barriers : List Barrier
  credit : Nat
  claims : List Nat
  abort : Option Abort
  preempting : Bool
  parked : Bool
  resuming : Bool
  /-- a unit that it stands on is to be retired: it is resumed elsewhere once it has parked (R400) -/
  relocate : Bool
  deriving DecidableEq, Repr

/-- What the device carries for a task (R300, R309): context, id, team (for %LAUNCH and %TEAM), inherited priority. -/
structure TaskInfo where
  ctx : Nat
  task : Nat
  launch : Word
  teamIdx : DWord
  teamUid : Nat
  inherited : Nat
  /-- the cluster (die, index) in which it parked (R299) -/
  home : Nat × Nat
  /-- group handle of its parked slot -/
  parkedIn : Option Nat
  deriving DecidableEq, Repr

/-- An entry of a cluster's ready queue (R299): a task, or the bottom task of a parked slot. -/
structure Ready where
  die : Nat
  cluster : Nat
  ctx : Nat
  task : Nat
  /-- arrival stamp and key of the issuing core (R353) -/
  stamp : Nat
  core : Nat
  passed : Bool
  /-- a parked slot of a team with an adoption stack (R423): its group; the task is then 0 -/
  slot : Option Nat
  deriving DecidableEq, Repr

/-- A context slot (R404): 32 descriptor words, STATE, and the command registers. -/
structure Ctx where
  desc : List DWord
  state : Nat
  cmd : DWord
  carg : DWord
  busy : Bool
  lost : Bool
  result : Nat
  /-- the command waits for the end of a firmware switch (R415) -/
  held : Bool
  /-- the next %LAUNCH (R448) -/
  nextLaunch : Word
  /-- save areas in use (R404) -/
  areas : List Nat
  /-- next position of each die's launch list (R352, R432) -/
  dieLists : List Nat
  deriving DecidableEq, Repr

/-- A waiting request for leave (R359, R360). -/
structure LeaveReq where
  gid : Nat
  cmd : Nat
  charge : Nat
  deriving DecidableEq, Repr

/-- The state of one die. -/
structure Die where
  cyc : Nat
  didt : Nat
  powcompat : Nat
  budget : Nat
  leave : List LeaveReq
  /-- throttle level L (R365) -/
  throttle : Nat
  telem : DWord
  /-- mean power of the last sample, leave grants and cycles waited for leave since (R363, R365) -/
  power : Nat
  grants : Nat
  lwait : Nat
  /-- telemetry samples written (R363) -/
  samples : Nat
  /-- %FGBASE, %FGDL, %FGGUARD and the governor's plan-change count (R141) -/
  fgbase : DWord
  fgdl : DWord
  fgguard : DWord
  changes : Nat
  /-- ready marks not yet applied (R293): group, step value, context, and the offset of the plan table in its DIE window -/
  marks : List (Nat × Nat × Nat × Nat)
  capMib : Nat
  retired : List (Nat × Nat)
  hbmrd : Nat
  hbmwr : Nat
  /-- route tables are being regenerated (R400) -/
  routesAwaited : Bool
  /-- units scheduled for retirement (R400), class and index, and spare cores used (R416) -/
  retiring : List (Nat × Nat)
  spares : Nat
  /-- firmware: version number (SVN) running, and whether its switch is going on (R415) -/
  svn : Nat
  switching : Bool
  verified : Bool
  /-- event records that wait for the end of a firmware switch, with their context (R415) -/
  queued : List (Nat × List Byte)
  deriving DecidableEq, Repr

/-- What a core holds beside its groups. -/
structure Core where
  key : Nat
  felt : DWord
  overflow : Word
  formatErr : Word
  /-- the cycle at which its matrix array last executed a step (R360) -/
  lastStep : Option Nat
  dda : Dda
  disabled : Bool
  /-- bridges over which its felt ring carries no traffic since their failure, until its header and %FELT have been rewritten, and
  whether %FELT has been since (R291, R418) -/
  stale : List Nat
  renewed : Bool
  deriving DecidableEq, Repr

/-- A couch bridge or a Tarzon link (R290, R410): lanes in use, retraining, lastingly failed, failed retrains. -/
structure Channel where
  lanes : Nat
  retraining : Bool
  failed : Bool
  attempts : Nat
  deriving DecidableEq, Repr

/-- The service controller (R408, R413 to R415). -/
structure Service where
  svccmd : DWord
  svcarg : DWord
  busy : Bool
  lost : Bool
  result : Nat
  minSvn : Nat
  /-- the four fused key digests, and of each slot whether it is fused as revoked (R413) -/
  keys : List (Nat × Bool)
  /-- SVN of the image being installed (R415) -/
  staged : Option Nat
  /-- the SVN of each die before the update (R415) -/
  before : List Nat
  /-- dies still to switch -/
  toSwitch : List Nat
  deriving DecidableEq, Repr

/-- A valid translation that a translation unit keeps (R395): context, page shift, page number, leaf entry. -/
structure Kept where
  ctx : Nat
  shift : Nat
  page : Nat
  entry : DWord
  deriving DecidableEq, Repr

/-- What happens next (the model's own, log 2). -/
inductive Turn where
  /-- group gid issues its next instruction -/
  | issue (gid : Nat)
  /-- a device event happens -/
  | happen (ev : Instr)
  /-- a translation unit keeps the valid translation of a page (R395) -/
  | keep (ctx : Nat) (va : Nat)
  /-- the host reads eight bytes of BAR0 (R402, R404, R408) -/
  | hostRead (off : Nat)
  deriving DecidableEq, Repr

/-- The whole package. -/
structure State where
  /-- every byte of every memory, by the model's key (log 27), in canonical form -/
  mem : Memory
  /-- poisoned bytes (R399), by key, ascending -/
  poison : List Nat
  /-- the group whose turn it is, and all the others -/
  me : Group
  others : List Group
  cores : List Core
  dies : List Die
  ctxs : List Ctx
  launches : List Launch
  teams : List Team
  tasks : List TaskInfo
  ready : List Ready
  felts : List FeltRes
  /-- the memory that hardware watches cover (R138) -/
  watching : List Watching
  /-- lines that writes under way have changed in part (R44) -/
  torn : List Torn := []
  /-- tokens left in the pool of R361 -/
  tokens : Nat
  /-- the translation store (R395): valid translations that it keeps -/
  tlb : List Kept
  bridges : List Channel
  links : List Channel
  unreachable : List Nat
  /-- %TOD (R32) -/
  tod : Nat
  pkgid : Nat
  powcap : Nat
  /-- EXPORT windows: base, size, mask -/
  exports : List (DWord × DWord × DWord)
  service : Service
  /-- MSI-X vectors signalled and data returned to the host or to another package, newest first (R401, R403, R405) -/
  signals : List Nat
  replies : List (List Byte)
  /-- SPDM responses (R413): code and contents, newest first -/
  spdm : List (Nat × List Nat)
  /-- fresh handle counter -/
  uid : Nat
  agenda : List Turn
  /-- whose turn it is while the group in focus waits (log 2) -/
  idle : Nat
  /-- the counter of free values (log 7) -/
  freeSeq : Nat
  deriving DecidableEq, Repr

def Pcs.all (a : DWord) : Pcs := { k := a, v := a, m := a, x := a, d := a, b := a }

def Flow.empty : Flow :=
  { mask := 0, boq := [], pops := Pcs.all 0, div := [], dspill := 0, ret := [], rspill := 0, lc := [], loops := [],
    skips := [] }

def Regs.empty : Regs := { v := [], p := [], s := [], q := 0 }

/-- An occupant with every register at zero and every other register at the reset value of R32. -/
def Occ.empty : Occ :=
  { task := 0, team := 0, launch := 0, teamIdx := 0, group := 0, ngroup := 0, width := 16, count := 0, lanePriv := 0,
    lanePrivBase := 0, pcs := Pcs.all 0, regs := Regs.empty, flow := Flow.empty, trapLevel := false, capture := none,
    stepping := false, epc := Pcs.all 0, tcause := 0, tinfo := 0, taddr := 0, saveptr := 0, faultAt := 0, area := none, window := 16,
    parkt := 20000, mprog := 0, awb := 0, awl := 0, fgseen := 0, appending := none, sysPend := [], sysOld := [], line := none, streams := [], cmds := [],
    cmdErrs := [], xcmds := [], xerr := false, nestAddr := 0, nestHeld := [], shadow := [], active := [], fmts := [], snapshot := none, watches := [],
    scene := none, rayDepth := 0, beams := [], token := none, power := false, felts := [], rights := [], wait := none,
    barWait := none, parked := none, owed := false, beats := [], exited := false, mwait := none, causes := [], stores := [], ending := false }

/-- No group: what the focus holds before any group is placed. -/
def Group.vacant : Group :=
  { gid := 0, ctx := 0, run := .vacant, place := ⟨0, 0⟩, alim := 4, occ := Occ.empty, under := [], progress := 0,
    recorded := false }

def Dom.reset : Dom := { mode := 0, beat := false, remain := 0, period := 0, phase := 0, trig := 0, steps := 0 }
def Port.reset : Port := { value := 0, dom := 0, w := 0, bound := false, held := none }
def Tap.reset : Tap := { cell := 0, sink := 0, counter := 0, fifo := [], aside := 0 }

/-- A cell as DCLAIM leaves it (R234, R253). -/
def Cell.reset : Cell :=
  { y := 0, r := 0, dz := 0, ldx := 0, ldy0 := 0, ldy1 := 0, patch := 0x00000100FFDFFBFF }

def Dda.reset : Dda :=
  { owner := none, frozen := false, cells := [], doms := [], ports := [], taps := [], queue := [] }

def Core.reset (key : Nat) : Core :=
  { key, felt := 0, overflow := 0, formatErr := 0, lastStep := none,
    dda := Dda.reset, disabled := false, stale := [], renewed := false }

def Ctx.reset : Ctx :=
  { desc := [0, 0x0100000000000000], state := 0, cmd := 0, carg := 0, busy := false, lost := false, result := 0,
    held := false, nextLaunch := 1, areas := [], dieLists := [] }

def Die.reset : Die :=
  { cyc := 0, didt := 100, powcompat := 0, budget := 136000, leave := [], throttle := 0, telem := 0, power := 0,
    grants := 0, lwait := 0, samples := 0,
    fgbase := 0, fgdl := 0, fgguard := 0, changes := 0, marks := [], capMib := 98304, retired := [], hbmrd := 0,
    hbmwr := 0, routesAwaited := false, retiring := [], spares := 0, svn := 0, switching := false, verified := false, queued := [] }

def Channel.up (lanes : Nat) : Channel := { lanes, retraining := false, failed := false, attempts := 0 }

/-- The service controller after reset. DESIGN CHOICE (log 19): the spec gives no value for the fuses; slot n holds digest n, no slot is
revoked, and the fused minimum is 0. -/
def Service.reset : Service :=
  { svccmd := 0, svcarg := 0, busy := false, lost := false, result := 0, minSvn := 0,
    keys := (List.range 4).map fun n => (n, false), staged := none, before := [],
    toSwitch := [] }

/-- The package right after reset: registers at the values of R32, R404 and R408, no context active, no group placed,
memory with nothing listed. What the spec gives no reset value for is named in log 10. -/
def State.reset : State :=
  { mem := [], poison := [], me := Group.vacant, others := [], cores := [], dies := List.replicate 4 Die.reset,
    ctxs := [], launches := [], teams := [], tasks := [], ready := [], felts := [], watching := [], tokens := 64, tlb := [],
    bridges := List.replicate 4 (Channel.up 8), links := List.replicate 12 (Channel.up 8), unreachable := [],
    tod := 0, pkgid := 0, powcap := 2600, exports := [], service := Service.reset, signals := [], replies := [],
    spdm := [], uid := 1, agenda := [], idle := 0, freeSeq := 0 }

end Sys2Proof.Machine
end

