-- ==== Sys2Proof/Machine/Ops.lean ====
section
/-! DEFINITION. Named operations over memory, registers and control flow; address translation and line fetch; taking a
trap, returning from one, waiting (R20 to R30, R41, R111 to R124, R369 to R373, R392 to R396, R444). -/

namespace Sys2Proof.Machine

/-! ## Lists that read a default beyond their end -/

def setAt {α : Type} (dflt : α) : List α → Nat → α → List α
  | [], 0, x => [x]
  | [], n + 1, x => dflt :: setAt dflt [] n x
  | _ :: l, 0, x => x :: l
  | a :: l, n + 1, x => a :: setAt dflt l n x

/-- Replace the first element that satisfies p. -/
def modifyFirst {α : Type} (p : α → Bool) (f : α → α) : List α → List α
  | [] => []
  | a :: l => if p a then f a :: l else a :: modifyFirst p f l

/-! ## Memory -/

def Memory.get : Memory → Nat → Byte
  | [], _ => 0
  | (a, b) :: m, k => if k = a then b else if k < a then 0 else Memory.get m k

/-- Write one byte; a zero byte is not listed. -/
def Memory.set : Memory → Nat → Byte → Memory
  | [], k, x => if x = 0 then [] else [(k, x)]
  | (a, b) :: m, k, x =>
    if k < a then (if x = 0 then (a, b) :: m else (k, x) :: (a, b) :: m)
    else if k = a then (if x = 0 then m else (k, x) :: m)
    else (a, b) :: Memory.set m k x

/-- The canonical form above a bound: addresses strictly rising, no listed byte equal to 0. -/
def Memory.wfFrom : Nat → Memory → Bool
  | _, [] => true
  | lo, (a, b) :: m => decide (lo ≤ a) && decide (b ≠ 0) && Memory.wfFrom (a + 1) m

def Memory.wf (m : Memory) : Bool := Memory.wfFrom 0 m

/-- Set every byte of [lo, hi) to zero. -/
def Memory.clear (m : Memory) (lo hi : Nat) : Memory := m.filter fun c => !(decide (lo ≤ c.1) && decide (c.1 < hi))

def Memory.setBytes : Memory → Nat → List Byte → Memory
  | m, _, [] => m
  | m, k, b :: bs => Memory.setBytes (Memory.set m k b) (k + 1) bs

/-- n bytes of a number, least significant first (R7). -/
def toBytes : Nat → Nat → List Byte
  | 0, _ => []
  | n + 1, x => BitVec.ofNat 8 x :: toBytes n (x / 256)

/-- The number that bytes hold, least significant first (R7). -/
def ofBytes : List Byte → Nat
  | [] => 0
  | b :: bs => b.toNat + 256 * ofBytes bs

def Memory.getBytes (m : Memory) (k : Nat) : Nat → List Byte
  | 0 => []
  | n + 1 => Memory.get m k :: Memory.getBytes m (k + 1) n

def Memory.getN (m : Memory) (k n : Nat) : Nat := ofBytes (m.getBytes k n)
def Memory.setN (m : Memory) (k n x : Nat) : Memory := m.setBytes k (toBytes n x)

/-! ## The model's memory keys (log 27) -/

def hbmKey (pa : Nat) : Nat := pa
def hostKey (bus : Nat) : Nat := 2 ^ 60 + bus
def remoteKey (pkg pa : Nat) : Nat := 2 ^ 61 + pkg * 2 ^ 52 + pa
def unitKey (core off : Nat) : Nat := 2 ^ 62 + core * 2 ^ 20 + off
def clusKey (die cluster off : Nat) : Nat := 2 ^ 63 + (die * 16 + cluster) * 2 ^ 23 + off
def dieKey (die off : Nat) : Nat := 2 ^ 64 + die * 2 ^ 26 + off
/-- A lane's slice, by the handle of the slices of an occupant and the lane's index in its group. -/
def laneKey (slices lane off : Nat) : Nat := 2 ^ 65 + (slices * 64 + lane) * 2 ^ 12 + off
def accKey (core row col : Nat) : Nat := 2 ^ 100 + (core * 3072 + row) * 256 + col * 4

/-- The die whose HBM a key lies in. -/
def hbmDie (key : Nat) : Option Nat := if key < 2 ^ 39 then some (key / 2 ^ 37) else none

/-! ## Engines of six values -/

def Pcs.get (p : Pcs) : Eng → DWord
  | .k => p.k | .v => p.v | .m => p.m | .x => p.x | .d => p.d | .b => p.b

def Pcs.set (p : Pcs) (e : Eng) (a : DWord) : Pcs :=
  match e with
  | .k => { p with k := a } | .v => { p with v := a } | .m => { p with m := a }
  | .x => { p with x := a } | .d => { p with d := a } | .b => { p with b := a }

def Pcs.map (f : Eng → DWord → DWord) (p : Pcs) : Pcs :=
  { k := f .k p.k, v := f .v p.v, m := f .m p.m, x := f .x p.x, d := f .d p.d, b := f .b p.b }

def allEngines : List Eng := [.k, .v, .m, .x, .d, .b]

/-! ## Focus: the group whose turn it is -/

/-- Make group gid the focus, if it is one of the others; the group in focus goes behind them. -/
def State.focus (s : State) (gid : Nat) : State :=
  if s.me.gid = gid then s
  else match s.others.find? (·.gid == gid) with
    | some g =>
      let rest := s.others.filter fun h => h.gid != gid
      { s with me := g, others := if s.me.run = .vacant then rest else rest ++ [s.me] }
    | none => s

/-- Every group of the package. -/
def State.groups (s : State) : List Group := (s.me :: s.others).filter fun g => decide (g.run ≠ .vacant)

/-- Rows [lo, hi) meet the window of another occupant on the core. -/
def State.overlapsWindow (s : State) (lo hi : Nat) : Bool :=
  let other (o : Occ) : Bool := decide (o.awb < o.awl) && decide (lo < o.awl) && decide (o.awb < hi)
  decide (lo < hi) && (s.me.under.any other
    || s.others.any fun g => g.run == .running && g.place.core == s.me.place.core && (g.occ :: g.under).any other)

/-- The package with group g in focus, and what is in focus behind it. -/
def State.seenBy (s : State) (g : Group) : State :=
  if s.me.gid = g.gid then s else { s with me := g, others := s.me :: s.others.filter fun h => h.gid != g.gid }

def State.group? (s : State) (gid : Nat) : Option Group := s.groups.find? (·.gid == gid)

/-- Change group gid, wherever it stands. -/
def State.modGroup (s : State) (gid : Nat) (f : Group → Group) : State :=
  if s.me.gid = gid then { s with me := f s.me } else { s with others := modifyFirst (·.gid == gid) f s.others }

def State.occ (s : State) : Occ := s.me.occ

def State.mapOcc (s : State) (f : Occ → Occ) : State := { s with me := { s.me with occ := f s.me.occ } }

def State.die (s : State) : Nat := Config.coreDie s.me.place.core
def State.tile (s : State) : Bool := Config.isTile s.me.place.core

def State.dieAt (s : State) (d : Nat) : Die := s.dies.getD d Die.reset
def State.modDie (s : State) (d : Nat) (f : Die → Die) : State :=
  { s with dies := setAt Die.reset s.dies d (f (s.dieAt d)) }

def State.coreAt (s : State) (key : Nat) : Core := (s.cores.find? (·.key == key)).getD (Core.reset key)
def State.modCore (s : State) (key : Nat) (f : Core → Core) : State :=
  if s.cores.any (·.key == key) then { s with cores := modifyFirst (·.key == key) f s.cores }
  else { s with cores := f (Core.reset key) :: s.cores }
def State.core (s : State) : Core := s.coreAt s.me.place.core

def State.ctxAt (s : State) (c : Nat) : Ctx := s.ctxs.getD c Ctx.reset
def State.modCtx (s : State) (c : Nat) (f : Ctx → Ctx) : State :=
  { s with ctxs := setAt Ctx.reset s.ctxs c (f (s.ctxAt c)) }
def State.ctx (s : State) : Ctx := s.ctxAt s.me.ctx

def State.team? (s : State) (uid : Nat) : Option Team := s.teams.find? (·.uid == uid)
def State.modTeam (s : State) (uid : Nat) (f : Team → Team) : State :=
  { s with teams := modifyFirst (·.uid == uid) f s.teams }
def State.launch? (s : State) (uid : Nat) : Option Launch := s.launches.find? (·.uid == uid)
def State.modLaunch (s : State) (uid : Nat) (f : Launch → Launch) : State :=
  { s with launches := modifyFirst (·.uid == uid) f s.launches }

/-- A field [hi:lo] of a descriptor word of a context slot (R404). -/
def Ctx.field (c : Ctx) (word hi lo : Nat) : Nat := bitsOf (c.desc.getD word 0).toNat hi lo
def Ctx.ptroot (c : Ctx) : Nat := c.field 0 63 0
def Ctx.asid (c : Ctx) : Nat := c.field 1 15 0
def Ctx.flags (c : Ctx) : Nat := c.field 1 31 24
def Ctx.hangt (c : Ctx) : Nat := c.field 1 63 32
def Ctx.tvec (c : Ctx) : DWord := c.desc.getD 2 0
def Ctx.arena (c : Ctx) : Nat := c.field 3 63 0
def Ctx.ncard (c : Ctx) : Nat := c.field 4 31 0
def Ctx.vec (c : Ctx) : Nat := c.field 4 39 32
def Ctx.hlist (c : Ctx) : Nat := c.field 5 63 0
def Ctx.spool (c : Ctx) : Nat := c.field 6 63 0
def Ctx.narea (c : Ctx) : Nat := c.field 7 31 0
def Ctx.areaKib (c : Ctx) : Nat := c.field 7 63 32
def Ctx.hanglog (c : Ctx) : Nat := c.field 8 63 0
def Ctx.evlog (c : Ctx) : Nat := c.field 9 63 0
def Ctx.dieWin (c : Ctx) (d : Nat) : Nat × Nat := (c.field (10 + d) 31 0, c.field (10 + d) 63 32)
def Ctx.dieList (c : Ctx) (d : Nat) : Nat := c.field (14 + d) 63 0

def State.cyc (s : State) : Nat := (s.dieAt s.die).cyc

/-! ## Registers (R20, R21) -/

def Occ.getV (o : Occ) (r lane : Nat) : Word := (o.regs.v.getD r []).getD lane 0
def Occ.setV (o : Occ) (r lane : Nat) (x : Word) : Occ :=
  { o with regs := { o.regs with v := setAt [] o.regs.v r (setAt 0 (o.regs.v.getD r []) lane x) } }

/-- A whole register at once: lane i takes f i where the mask has bit i. -/
def Occ.putV (o : Occ) (r : Nat) (lanes : List Nat) (f : Nat → Word) : Occ :=
  lanes.foldl (fun o i => o.setV r i (f i)) o

/-- The pair v[r]:v[r+1] of a lane, the even register in the low half (R53). -/
def Occ.getPair (o : Occ) (r lane : Nat) : DWord := o.getV (r + 1) lane ++ o.getV r lane
def Occ.setPair (o : Occ) (r lane : Nat) (x : DWord) : Occ :=
  (o.setV r lane (x.extractLsb' 0 32)).setV (r + 1) lane (x.extractLsb' 32 32)

/-- The lane mask p[r]; p0 reads true (R20). -/
def Occ.getP (o : Occ) (r : Nat) : DWord := if r = 0 then BitVec.allOnes 64 else o.regs.p.getD r 0
def Occ.setP (o : Occ) (r : Nat) (x : DWord) : Occ :=
  if r = 0 then o else { o with regs := { o.regs with p := setAt 0 o.regs.p r x } }

/-- s0 reads zero and discards writes (R20). -/
def Occ.getS (o : Occ) (r : Nat) : DWord := if r = 0 then 0 else o.regs.s.getD r 0
def Occ.setS (o : Occ) (r : Nat) (x : DWord) : Occ :=
  if r = 0 then o else { o with regs := { o.regs with s := setAt 0 o.regs.s r x } }

/-- q0 reads true and discards writes (R20). -/
def Occ.getQ (o : Occ) (r : Nat) : Bool := r == 0 || o.regs.q.getLsbD r
def Occ.setQ (o : Occ) (r : Nat) (x : Bool) : Occ :=
  if r = 0 then o
  else
    let bit : Byte := 1 <<< r
    { o with regs := { o.regs with q := if x then o.regs.q ||| bit else o.regs.q &&& ~~~bit } }

/-- lc registers read 0 whenever they are unbound (R122). -/
def Occ.getLc (o : Occ) (n : Nat) : Word :=
  if o.flow.loops.any (·.lc == n) then o.flow.lc.getD n 0 else 0

def State.getS (s : State) (r : BitVec 6) : DWord := s.occ.getS r.toNat
def State.setS (s : State) (r : BitVec 6) (x : DWord) : State := s.mapOcc (·.setS r.toNat x)
def State.setQ (s : State) (r : BitVec 3) (x : Bool) : State := s.mapOcc (·.setQ r.toNat x)

/-- All lanes of a group of width w. -/
def allLanes (w : Nat) : DWord := BitVec.ofNat 64 (2 ^ w - 1)

/-- The mask that engine e runs under: that of the queue entry it popped last (R120). -/
def Flow.maskOf (f : Flow) (e : Eng) : DWord :=
  match (f.pops.get e).toNat with
  | 0 => f.mask
  | n + 1 => match f.boq[n]? with | some en => en.mask | none => f.mask

def maskLanes (m : DWord) (w : Nat) : List Nat := (List.range w).filter fun i => m.getLsbD i

/-! ## What an instruction can come to beside its effect -/

/-- Why an instruction does not complete: it raises a cause (class F: nothing has happened; class E: `after` lanes have
been issued), or it waits. -/
inductive Stop where
  | trap (code : Nat) (info : DWord) (addr : DWord)
  | event (code : Nat) (info : DWord) (addr : DWord)
  | wait (kind : Nat) (obj : DWord) (owner : Nat) (detail : Nat)
  deriving DecidableEq, Repr

abbrev Act (α : Type) := Except Stop α

def State.pcOf (s : State) (e : Eng) : DWord := s.occ.pcs.get e

/-- A fault of class F whose %TADDR is the instruction address (R369). -/
def State.faultAt (s : State) (e : Eng) (code : Nat) (info : DWord := 0) : Stop := .trap code info (s.pcOf e)

/-- `require c stop`: go on when c holds. -/
def require (c : Bool) (stop : Stop) : Act Unit := if c then .ok () else .error stop

/-! ## Translation (R392 to R396) -/

/-- What an access does to the page it names (R394). -/
inductive Access where
  | read | write | both | fetch
  deriving DecidableEq, Repr

def Access.writes : Access → Bool
  | .write | .both => true
  | _ => false

/-- Why a translation fails: cause 0x05, 0x06 or 0x1C with the level and BAD. -/
structure Walk where
  code : Nat
  level : Nat
  bad : Bool
  /-- for cause 0x1C, what is lost -/
  key : Nat := 0
  deriving DecidableEq, Repr

/-- A package is unreachable that has not answered, or that no link is up for (R412). -/
def State.packageLost (s : State) (pkg : Nat) : Bool :=
  pkg != s.pkgid && (s.unreachable.contains pkg || s.links.all (·.failed))

/-- The home of a physical address under LOC and PKG (R393): its key. Another package may refuse the address (R411). -/
def State.home (s : State) (loc pkg pa : Nat) : Option Nat :=
  if loc = 0 then (if pa < 2 ^ 39 && decide (pa % 2 ^ 37 < Config.hbmBytes) then some (hbmKey pa) else none)
  else if loc = 1 then some (hostKey pa)
  else if pkg = s.pkgid then
    (if s.exports.any fun (b, n, m) =>
        decide (b.toNat ≤ pa) && decide (pa < b.toNat + n.toNat * 2 ^ 30) && m.getLsbD s.pkgid
     then some (hbmKey pa) else none)
  else if Config.remoteOpen s.tod pkg pa then some (remoteKey pkg pa) else none

/-- A page of HBM that is retired (R408, R417). -/
def State.pageRetired (s : State) (k : Nat) : Bool :=
  match hbmDie k with
  | some d => (s.dieAt d).retired.any fun r => decide (r.1 ≤ k / 4096) && decide (k / 4096 < r.1 + r.2)
  | none => false

/-- The key of a physical address, reached behind a page-table entry of a level: 0x1C where it is lost with its package (R412) or its
page (R417), 0x06 where no memory is there or its package refuses it (R393, R411). -/
def State.physical (s : State) (level loc pkg pa : Nat) : Except Walk Nat :=
  if loc = 2 && s.packageLost pkg then .error ⟨0x1C, level, false, 2 ^ 61⟩
  else match s.home loc pkg pa with
    | none => .error ⟨6, level, false, 0⟩
    | some k => if s.pageRetired k then .error ⟨0x1C, level, false, k⟩ else .ok k

/-- A bad entry of a level (R393): a reserved bit, LOC 3, T wrong for its level, a misaligned block. -/
def badEntry (level e : Nat) : Bool :=
  let loc := bitsOf e 7 6
  let t := bitsOf e 1 1
  bitsOf e 11 8 != 0 || bitsOf e 63 58 != 0 || loc == 3 || (loc != 2 && bitsOf e 57 52 != 0)
    || (level != 3 && bitsOf e 5 5 != 0)
    || (level == 0 && t == 0) || (level == 3 && t == 0)
    || (level == 1 && t == 0 && bitsOf e 29 12 != 0) || (level == 2 && t == 0 && bitsOf e 20 12 != 0)

def pageShift (level : Nat) : Nat := 39 - 9 * level

/-- Walk from a table down: the leaf entry and its page shift. `fuel` is the number of levels left. -/
def State.walkFrom (s : State) (va : Nat) : Nat → Nat → Nat → Nat → Nat → Except Walk (Nat × Nat)
  | 0, level, _, _, _ => .error ⟨5, level, true, 0⟩
  | fuel + 1, level, loc, pkg, table =>
    match s.physical level loc pkg (table + 8 * (va / 2 ^ pageShift level % 512)) with
    | .error w => .error w
    | .ok k =>
      let e := s.mem.getN k 8
      if e % 2 = 0 then .error ⟨5, level, false, 0⟩
      else if badEntry level e then .error ⟨5, level, true, 0⟩
      else if level < 3 && bitsOf e 1 1 == 1 then
        s.walkFrom va fuel (level + 1) (bitsOf e 7 6) (bitsOf e 57 52) (bitsOf e 51 12 * 4096)
      else .ok (e, pageShift level)

/-- The leaf entry for a virtual address: a translation the store keeps, else the walk (R395). -/
def State.leaf (s : State) (ctx va : Nat) : Except Walk (Nat × Nat) :=
  match s.tlb.find? fun k => k.ctx == ctx && k.page == va / 2 ^ k.shift with
  | some k => .ok (k.entry.toNat, k.shift)
  | none => s.walkFrom va 4 0 0 0 (s.ctxAt ctx).ptroot

def rightsOk (e : Nat) : Access → Bool
  | .read => bitsOf e 2 2 == 1
  | .write => bitsOf e 3 3 == 1
  | .both => bitsOf e 2 2 == 1 && bitsOf e 3 3 == 1
  | .fetch => bitsOf e 4 4 == 1

/-- Translate a GLOBAL address (R392 to R394): the key of its byte. -/
def State.translate (s : State) (ctx : Nat) (va : DWord) (acc : Access) : Except Walk Nat := do
  let a := va.toNat
  if bitsOf a 63 48 != (if va.getLsbD 47 then 0xFFFF else 0) then .error ⟨5, 0, false, 0⟩
  let v := a % 2 ^ 48
  let (e, shift) ← s.leaf ctx v
  let level := (39 - shift) / 9
  if !rightsOk e acc then .error ⟨6, level, false, 0⟩
  s.physical level (bitsOf e 7 6) (bitsOf e 57 52) (bitsOf e 51 12 * 4096 / 2 ^ shift * 2 ^ shift + v % 2 ^ shift)

/-- %TINFO of causes 0x04 to 0x07 (R396). -/
structure MemInfo where
  lane : Nat := 0
  k : Nat := 0
  write : Bool := false
  fetch : Bool := false
  atomic : Bool := false
  level : Nat := 0
  async : Bool := false
  bad : Bool := false
  tag : Nat := 0
  index : Nat := 0

def MemInfo.bits (i : MemInfo) : DWord :=
  BitVec.ofNat 64 (i.lane + i.k * 2 ^ 6 + i.write.toNat * 2 ^ 9 + i.fetch.toNat * 2 ^ 10 + i.atomic.toNat * 2 ^ 11
    + i.level * 2 ^ 12 + i.async.toNat * 2 ^ 14 + i.bad.toNat * 2 ^ 15 + i.tag * 2 ^ 16 + i.index * 2 ^ 32)

/-- %TINFO of cause 0x1C for lost memory (R399): class of the key, and index of the unit within its class on the die; a lane-private
slice is one of the core of the group in focus. -/
def State.lostInfo (s : State) (key : Nat) (async : Bool) : DWord :=
  let cls := if key < 2 ^ 60 then 7 else if key < 2 ^ 62 then 9 else if key < 2 ^ 63 then 2 else if key < 2 ^ 64 then 3
    else if key < 2 ^ 65 then 4 else if key < 2 ^ 100 then 1 else 5
  let unit := if key < 2 ^ 60 then Config.hbmUnit key else if key < 2 ^ 62 then 0
    else if key < 2 ^ 63 then (key - 2 ^ 62) / 2 ^ 20 % 256 else if key < 2 ^ 64 then (key - 2 ^ 63) / 2 ^ 23 % 16
    else if key < 2 ^ 65 then 0 else if key < 2 ^ 100 then Config.coreIndex s.me.place.core else (key - 2 ^ 100) / 256 / 3072 % 256
  BitVec.ofNat 64 (cls + async.toNat * 16 + unit * 2 ^ 32)

/-- A GLOBAL access as a fault of an instruction. -/
def State.globalKey (s : State) (va : DWord) (acc : Access) (i : MemInfo) : Act Nat :=
  match s.translate s.me.ctx va acc with
  | .ok k => .ok k
  | .error w =>
    if w.code = 0x1C then .error (.trap 0x1C (s.lostInfo w.key i.async) va)
    else .error (.trap w.code ({ i with level := w.level, bad := w.bad }).bits va)

/-! ## Fetch (R36, R41, R44, R397) -/

/-- The lowest lost byte of [k, k + n) (R399). -/
def State.lost (s : State) (k n : Nat) : Option Nat := s.poison.find? fun p => decide (k ≤ p) && decide (p < k + n)

/-- Lost data raises 0x1C at the reading instruction. -/
def State.checkLost (s : State) (addr : DWord) (k n : Nat) : Act Unit :=
  match s.lost k n with
  | some p => .error (.trap 0x1C (s.lostInfo k false) (addr + BitVec.ofNat 64 (p - k)))
  | none => .ok ()

/-- Whether the writes of a part-written line still go on. -/
def State.tearing (s : State) (t : Torn) : Bool :=
  s.groups.any fun g => (g.occ :: g.under).any fun o =>
    if t.move then o.cmds.any (·.uid == t.cmd)
    else g.gid == t.gid && o.stores.any fun c => c.cmd == t.cmd && c.key / 32 * 32 == t.line

/-- The 32 bytes of a line as a fetch has them: the old contents while a store or a tile-move has written it in part, so that a fetch
never mixes old and new words (R44). -/
def State.lineBytes (s : State) (k : Nat) : List Byte :=
  match s.torn.find? fun t => t.line == k && s.tearing t with
  | some t => t.old
  | none => s.mem.getBytes k 32

/-- A write by `gid` and `cmd` is about to change a byte of the line at a key, and is not the last of them there. -/
def State.tear (s : State) (gid cmd : Nat) (move : Bool) (key : Nat) : State :=
  let line := key / 32 * 32
  let live := s.torn.filter s.tearing
  if live.any fun t => t.line == line && t.gid == gid && t.cmd == cmd && t.move == move then { s with torn := live }
  else { s with torn := live ++ [{ line, old := s.lineBytes line, gid, cmd, move }] }

/-- The eight words of a line, or the fault of its fetch; a lost byte of the line is one (R399). -/
def State.fetch (s : State) (line : DWord) : Act (List Word) := do
  let k ← s.globalKey line .fetch { fetch := true }
  s.checkLost line k 32
  .ok (lineWords (s.lineBytes k))

/-- The words of a line as the group has them: of the line that it has fetched and not left, else of a new fetch (R44). -/
def State.fetched (s : State) (line : DWord) : Act (List Word) :=
  match s.occ.line with
  | some l => if l.addr = line then .ok l.words else s.fetch line
  | none => s.fetch line

def lineOf64 (a : DWord) : DWord := a &&& ~~~(31 : DWord)
def laneOf (a : DWord) : Nat := (a.extractLsb' 2 3).toNat

/-- Lane 1 of the line that follows in memory, where an engine that stands after a line is stopped (R444). -/
def afterLine (a : DWord) : DWord := lineOf64 a + 36

/-- The T check of R41 for a transfer of the K engine to a line; a line whose fetch faults is entered, and faults then. -/
def State.checkT (s : State) (target : DWord) : Act Unit :=
  match s.fetch target with
  | .error _ => .ok ()
  | .ok ws =>
    if lineT ws then .ok ()
    else
      let pc := s.pcOf .k
      let lane := laneOf pc
      let tag := match s.fetched (lineOf64 pc) with | .ok h => laneTag (h.headD 0) lane | .error _ => 1
      .error (.trap 1 (BitVec.ofNat 64 (lane + tag * 16 + 7 * 256)) target)

/-! ## Encoding faults (R58, R59) -/

/-- %TINFO of cause 0x02 (R58). -/
def illegalInfo (d : WordDefect) : DWord :=
  BitVec.ofNat 64 (d.lane + d.ext.toNat * 2 ^ 3 + d.tag.toNat * 2 ^ 4 + d.sub * 2 ^ 8 + d.op.toNat * 2 ^ 12)

/-- %TINFO of cause 0x01 (R58). -/
def lineInfo (d : LineDefect) : DWord := BitVec.ofNat 64 (d.lane + d.tag.toNat * 2 ^ 4 + d.sub * 2 ^ 8)

/-- Registers of a form that lie at or above the current count of the occupant: fault 0x02 (R20, R323). -/
def State.checkCount (s : State) (fm : Form) : Act Unit :=
  match lowest (fm.countDefects s.occ.width s.occ.count) with
  | none => .ok ()
  | some (sub, ext) =>
    let pc := s.pcOf fm.eng
    .error (.trap 2 (illegalInfo
      { lane := laneOf pc, tag := BitVec.ofNat 4 (fm.eng.tag + 8 * fm.long.toNat), op := BitVec.ofNat 6 fm.op, sub, ext }) pc)

/-! ## Sequencing -/

/-- Engine f stands with engine e: at its address, with as many queue entries popped (R23). -/
def Occ.standsWith (o : Occ) (e f : Eng) : Bool := o.pcs.get f == o.pcs.get e && o.flow.pops.get f == o.flow.pops.get e

/-- Engine e has issued an instruction of n lanes: it and every engine that stands with it go on behind it (log 1). -/
def Occ.advance (o : Occ) (e : Eng) (n : Nat) : Occ :=
  { o with pcs := o.pcs.map (fun f p => if o.standsWith e f then p + BitVec.ofNat 64 (4 * n) else p), wait := none }

/-- Of a parked wait it stays known that it is recorded (R366). -/
def Group.noted (g : Group) : Bool := g.recorded && g.occ.parked.isSome

def State.advance (s : State) (e : Eng) (n : Nat) : State :=
  { s with me := { s.me with occ := s.occ.advance e n, progress := s.cyc, recorded := s.me.noted } }

/-- The bottom occupant of the slot (R32, %ADOPTER). -/
def Group.bottom (g : Group) : Occ := g.under.getLast?.getD g.occ

/-- A register that the core kind lacks (R32): X and N-tile registers on a shade core, %EPC.B on an N-tile. -/
def sysAbsent (tile : Bool) (n : Nat) : Bool :=
  if tile then n == 0x025
  else [0x023, 0x038, 0x039, 0x03A, 0x040, 0x048, 0x049, 0x04A].contains n

/-- The shared registers of the group in focus as they stand now. -/
def State.sharedNow (s : State) : Shared :=
  let d := s.dieAt s.die
  { felt := s.core.felt, fgbase := d.fgbase, fgdl := d.fgdl, fgguard := d.fgguard, tvec := s.ctx.tvec,
    hangt := s.ctx.hangt, didt := d.didt, powcompat := d.powcompat, flags := s.ctx.flags }

/-- The shared registers in force for the group in focus at its line (R33, R109). -/
def State.shared (s : State) : Shared := match s.occ.line with | some l => l.seen | none => s.sharedNow

/-- The value of a system register for the group in focus (R32), in force at its line. -/
def State.sysNow (s : State) (n : Nat) : DWord :=
  let o := s.occ
  if sysAbsent s.tile n then 0
  else match n with
  | 0x000 => BitVec.ofNat 64 (Config.coreIndex s.me.place.core)
  | 0x001 => BitVec.ofNat 64 s.die
  | 0x002 => BitVec.ofNat 64 (Config.clusterOf s.me.place.core)
  | 0x003 => o.teamIdx
  | 0x004 => BitVec.ofNat 64 o.group
  | 0x005 => BitVec.ofNat 64 o.ngroup
  | 0x006 => BitVec.ofNat 64 (o.width / 32)
  | 0x007 => o.launch.setWidth 64
  | 0x008 => BitVec.ofNat 64 o.task
  | 0x009 => BitVec.ofNat 64 s.ctx.asid
  | 0x010 => BitVec.ofNat 64 (s.me.bottom.task + s.me.bottom.group * 2 ^ 32 + (if s.me.under = [] then 0 else 2 ^ 63))
  | 0x011 => BitVec.ofNat 64 s.me.under.length
  | 0x012 => BitVec.ofNat 64 s.me.alim
  | 0x018 => o.window
  | 0x020 => o.epc.k
  | 0x021 => o.epc.v
  | 0x022 => o.epc.m
  | 0x023 => o.epc.x
  | 0x024 => o.epc.d
  | 0x025 => o.epc.b
  | 0x028 => o.tcause
  | 0x029 => o.tinfo
  | 0x02A => o.taddr
  | 0x02B => s.shared.tvec
  | 0x02C => o.saveptr
  | 0x030 => o.parkt
  | 0x031 => BitVec.ofNat 64 s.shared.hangt
  | 0x032 => BitVec.ofNat 64 s.cyc
  | 0x033 => BitVec.ofNat 64 s.tod
  | 0x038 => BitVec.ofNat 64 o.awb
  | 0x039 => BitVec.ofNat 64 o.awl
  | 0x03A => o.mprog
  | 0x040 => s.shared.felt
  | 0x048 => s.shared.fgbase
  | 0x049 => s.shared.fgdl
  | 0x04A => s.shared.fgguard
  | 0x050 => BitVec.ofNat 64 s.shared.didt
  | 0x051 => BitVec.ofNat 64 s.shared.powcompat
  | _ => 0

/-- What SCSR reads (R109): in the rest of a line that a trap broke, a register written in it reads as before. -/
def State.sysRead (s : State) (n : Nat) : DWord :=
  match s.occ.sysOld.find? fun w => w.1 == n with
  | some w => w.2
  | none => s.sysNow n

/-- System register writes take effect from the next line (R32). The targets are applied by `applySys`. -/
def Occ.sysReg (o : Occ) (n : Nat) (x : DWord) : Occ :=
  match n with
  | 0x018 => { o with window := x }
  | 0x020 => { o with epc := o.epc.set .k x }
  | 0x021 => { o with epc := o.epc.set .v x }
  | 0x022 => { o with epc := o.epc.set .m x }
  | 0x023 => { o with epc := o.epc.set .x x }
  | 0x024 => { o with epc := o.epc.set .d x }
  | 0x025 => { o with epc := o.epc.set .b x }
  | 0x028 => { o with tcause := x }
  | 0x029 => { o with tinfo := x }
  | 0x02A => { o with taddr := x }
  | 0x02C => { o with saveptr := x }
  | 0x030 => { o with parkt := x }
  | 0x03A => { o with mprog := x }
  | _ => o

def State.applySys (s : State) (w : Nat × DWord) : State :=
  match w.1 with
  | 0x012 => { s with me := { s.me with alim := w.2.toNat } }
  | 0x040 => s.modCore s.me.place.core fun c => { c with felt := w.2, renewed := true }
  | 0x048 => s.modDie s.die fun d => { d with fgbase := w.2 }
  | 0x049 => s.modDie s.die fun d => { d with fgdl := w.2 }
  | 0x04A => s.modDie s.die fun d => { d with fgguard := w.2 }
  | n => s.mapOcc (·.sysReg n w.2)

/-- The line is left: the writes of its SCSR instructions take effect. -/
def State.leaveLine (s : State) : State :=
  (s.occ.sysPend.foldl State.applySys s).mapOcc fun o => { o with sysPend := [], sysOld := [], line := none }

/-- The line is broken off by a trap or an adoption and is to go on later: the writes of its SCSR instructions take effect for what
runs in between, and the old values are kept for the rest of the line (R30, R32). -/
def State.suspendLine (s : State) : State :=
  let old := s.occ.sysPend.map fun w => (w.1, s.sysRead w.1)
  (s.occ.sysPend.foldl State.applySys s).mapOcc fun o =>
    { o with sysPend := [], sysOld := old ++ o.sysOld, line := none }

/-- Continue every engine at an instruction address (R40). -/
def State.goTo (s : State) (a : DWord) : State :=
  let s := s.leaveLine
  { s with me := { s.me with occ := { s.occ with pcs := Pcs.all a, wait := none }, progress := s.cyc, recorded := s.me.noted } }

/-- A transfer to a line lands on its lane 1 (R41). -/
def State.jump (s : State) (line : DWord) : State := s.goTo (lineOf64 line + 4)

def State.setFlow (s : State) (f : Flow) : State := s.mapOcc fun o => { o with flow := f }

/-! ## The branch-outcome queue (R23, R120, R444) -/

/-- Whether engine e is behind engine f: fewer queue entries popped, then the lower address. -/
def Occ.behind (o : Occ) (e f : Eng) : Bool :=
  let pe := (o.flow.pops.get e).toNat
  let pf := (o.flow.pops.get f).toNat
  decide (pe < pf) || (pe == pf && decide ((o.pcs.get e).toNat < (o.pcs.get f).toNat))

/-- The engine that is furthest behind; the K engine before others at the same place. -/
def Occ.leader (o : Occ) (tile : Bool) : Eng :=
  (allEngines.filter (Eng.present tile)).foldl (fun e f => if o.behind f e then f else e) .k

/-- Where the group issues next. -/
def State.position (s : State) : DWord := s.occ.pcs.get (s.occ.leader s.tile)

/-- The queue entry that the engine furthest behind is to follow where it stands: at the branch, behind the line that
holds it, or at the end of a line whose completion transfers. -/
def State.queued (s : State) : Option BoqEntry :=
  let o := s.occ
  let e := o.leader s.tile
  let p := o.pcs.get e
  match o.flow.boq[(o.flow.pops.get e).toNat]? with
  | some en =>
    if laneOf en.addr = 0 then (if p = en.addr + 32 || p = en.addr + 36 then some en else none)
    else if p = en.addr || p = afterLine en.addr then some en else none
  | none => none

/-- Entries that every engine present has popped are freed. -/
def Flow.settle (f : Flow) (tile : Bool) : Flow :=
  let least := ((allEngines.filter (Eng.present tile)).map fun e => (f.pops.get e).toNat).foldl min (f.pops.k).toNat
  match f.boq[least - 1]? with
  | some en =>
    if least = 0 then f
    else { f with mask := en.mask, boq := f.boq.drop least, pops := f.pops.map fun _ n => n - BitVec.ofNat 64 least }
  | none => f

/-- The engines that stand with the one furthest behind pop an entry, and follow its transfer. -/
def State.follow (s : State) (en : BoqEntry) : State :=
  s.mapOcc fun o =>
    let e := o.leader s.tile
    let p := o.pcs.get e
    let dest := if en.transfer then (if laneOf en.target = 0 then lineOf64 en.target + 4 else en.target) else p
    let mine (e' : Eng) : Bool := o.standsWith e e'
    { o with
      line := none
      pcs := o.pcs.map fun e' a => if mine e' then dest else a
      flow := ({ o.flow with pops := o.flow.pops.map fun e' k => if mine e' then k + 1 else k }).settle s.tile }

/-- Whether engine e reaches the branch at which the K engine stands: it has popped as many entries, and stands at the branch or behind
it in its line, up to the place after the line (R444). An absent engine goes with the K engine. -/
def Occ.reaches (o : Occ) (tile : Bool) (e : Eng) : Bool :=
  let p := o.pcs.k
  let a := o.pcs.get e
  !Eng.present tile e || (o.flow.pops.get e == o.flow.pops.k
    && (List.range 10).any fun j => decide (laneOf p + j ≤ 9) && a == p + BitVec.ofNat 64 (4 * j))

/-- The K engine resolves a branch: it pushes one entry, with the mask that the following instructions run under, and goes on at `next`;
the engines that have reached the branch pop the entry and follow it, and an entry that the last engine has popped is freed. While the
queue holds 32 entries the K engine stalls (R23, R120). -/
def State.resolve (s : State) (transfer : Bool) (target mask next : DWord) : Act State := do
  require (decide ((s.occ.flow.settle s.tile).boq.length < 32)) (.wait 0 0 0 0)
  let f := s.occ.flow.settle s.tile
  let o := { s.occ with flow := f }
  let n : DWord := BitVec.ofNat 64 (f.boq.length + 1)
  let goes (e : Eng) : Bool := e == .k || o.reaches s.tile e
  let q : Flow := { f with
    boq := f.boq ++ [{ addr := o.pcs.k, taken := transfer, transfer, target, mask }]
    pops := f.pops.map fun e k => if goes e then n else k }
  let pcs := o.pcs.map fun e a => if goes e && (transfer || a == o.pcs.k) then next else a
  let t := s.setFlow (q.settle s.tile)
  let t := if transfer then t.leaveLine else t
  .ok { t with me := { t.me with occ := { t.occ with pcs, wait := none }, progress := t.cyc, recorded := t.me.noted } }

/-! ## Line completion (R122, R123) -/

/-- What a line's end action leads to: the flow after it and the line it transfers to, or the lc register whose
divergence depth differs. -/
def endAction (line : DWord) (f : Flow) : List LoopRec → List Word → Except Nat (List LoopRec × List Word × Option DWord)
  | [], lc => .ok ([], lc, none)
  | l :: ls, lc =>
    if l.start + BitVec.ofNat 64 (32 * (l.span - 1)) ≠ line || l.rdepth ≠ f.ret.length + f.rspill then .ok (l :: ls, lc, none)
    else if l.ddepth ≠ f.div.length + f.dspill then .error l.lc
    else
      let n := lc.getD l.lc 0 - 1
      let lc' := setAt 0 lc l.lc n
      if n ≠ 0 then .ok (l :: ls, lc', some l.start) else endAction line f ls lc'

def Flow.ddepth (f : Flow) : Nat := f.div.length + f.dspill
def Flow.rdepth (f : Flow) : Nat := f.ret.length + f.rspill

/-- Completing a line in sequence: a loop skip that waits for it, else the end action. -/
def Flow.complete (f : Flow) (line : DWord) : Except Nat (Flow × Option DWord) :=
  match f.skips.find? fun k => k.1 == line && k.2.1 == f.rdepth with
  | some k => .ok ({ f with skips := f.skips.erase k }, some k.2.2)
  | none =>
    match endAction line f f.loops f.lc with
    | .error n => .error n
    | .ok (ls, lc, t) => .ok ({ f with loops := ls, lc := lc }, t)

/-! ## Trap entry (R371 to R373) -/

/-- The first lane at or after k that is tagged for engine e. -/
def firstLane (ws : List Word) (e : Eng) (k : Nat) : Option Nat :=
  [1, 2, 3, 4, 5, 6, 7].find? fun j => decide (k ≤ j) && (Eng.ofTag (laneTag (ws.headD 0) j) == some e)
    && laneTag (ws.headD 0) j != 15

/-- Where a group stops (R28, R444): the address of each engine, the flow, whether the K engine is still to issue in its line, and
whether it stands after a line that it has not completed. -/
structure Stopped where
  pcs : Pcs
  flow : Flow
  inLine : Bool
  unfinished : Bool
  deriving DecidableEq, Repr

/-- The stop addresses of the engines when the group stops before address p (R28, R444). Engines that stand elsewhere, or that have
popped other entries, keep their address. An engine with no lane left in the line stands after it; the K engine then completes the
line, and a transfer it takes stands in the branch-outcome queue for the others; where the end action faults, it stands after the line
with the line not completed. With `here`, the K engine stands at the next lane, whatever it holds, behind lane 7 at lane 1 of the next
line with its line not completed (R115, R134). An absent engine reads zero. -/
def State.stopPoint (s : State) (p : DWord) (here : Bool) : Stopped :=
  let o := s.occ
  let n := o.flow.pops.get (o.leader s.tile)
  let stands (e : Eng) : Bool := o.pcs.get e == p && o.flow.pops.get e == n
  let line := if laneOf p = 0 then p - 32 else lineOf64 p
  let k := if laneOf p = 0 then 8 else laneOf p
  let present (e : Eng) (a : DWord) : DWord := if Eng.present s.tile e then a else 0
  match s.fetched line with
  | .error _ => { pcs := o.pcs.map present, flow := o.flow, inLine := true, unfinished := false }
  | .ok ws =>
    let stop (e : Eng) : DWord :=
      if !stands e then o.pcs.get e
      else match firstLane ws e k with | some j => line + BitVec.ofNat 64 (4 * j) | none => line + 36
    let at' (kpc : DWord) (flow : Flow) (inLine unfinished : Bool) : Stopped :=
      { pcs := o.pcs.map fun e _ => present e (if e = .k then kpc else stop e), flow, inLine, unfinished }
    if here then (if k = 8 then at' (line + 36) o.flow false true else at' p o.flow true false)
    else if !stands .k || (firstLane ws .k k).isSome then at' (stop .k) o.flow true false
    else match o.flow.complete line with
      | .error _ => at' (line + 36) o.flow false true
      | .ok (f, none) => at' (line + 36) f false false
      | .ok (f, some t) =>
        at' (t + 4) { f with
          boq := f.boq ++ [{ addr := line, taken := true, transfer := true, target := t, mask := f.maskOf .k }]
          pops := f.pops.set .k (BitVec.ofNat 64 (f.boq.length + 1)) } false false

/-- %TCAUSE (R372). -/
def causeBits (code : Nat) (e : Eng) (nested fatal : Bool) : DWord :=
  BitVec.ofNat 64 (code + e.code * 64 + nested.toNat * 512 + fatal.toNat * 1024)

/-- Causes of class X (R369). -/
def isFatal (code : Nat) : Bool := [0x0C, 0x0E, 0x13, 0x14, 0x1C].contains code

/-- A domain that is stopped. -/
def Dom.halt (m : Dom) : Dom := { m with mode := 0, beat := false, remain := 0, phase := 0, period := 0, trig := 0 }

/-- A DDA that is given up: every domain is stopped; its contents stay until the next DCLAIM (R251, R253). -/
def Dda.release (d : Dda) : Dda := { d with owner := none, frozen := false, doms := d.doms.map Dom.halt, queue := [], running := [] }

/-- A mode-3 move that has entries still to take (R188). -/
def MemCmd.paced (c : MemCmd) : Bool :=
  let w := (c.quad.getD 2 0).toNat
  c.op == 0x0B && bitsOf w 39 36 == 3 && decide (c.i < bitsOf w 15 0)

/-- At trap entry of the owner's slot its mode-3 moves halt; at its RFT those that no fault has halted resume (R251, R442). -/
def Occ.haltPaced (o : Occ) (on : Bool) : Occ :=
  { o with cmds := o.cmds.map fun c =>
      if c.paced then { c with halted := on || (c.halted && o.causes.any fun d => d.cmd == c.uid) } else c }

/-- A port's cycle of being held, as cycles held so far, and those as a cycle again: cycles at trap level are not counted (R391). -/
def Port.pause (p : Port) (now : Nat) : Port := { p with held := p.held.map fun c => now - c }

/-- The DDA of the group's core is frozen while its owner's slot is at trap level, and the owner's mode-3 moves halt (R251, R442); a port
that waits does not count meanwhile (R391). -/
def State.freezeDda (s : State) (on : Bool) : State :=
  let key := s.me.place.core
  match (s.coreAt key).dda.owner with
  | some (g, _) =>
    if g = s.me.gid then
      let now := s.cyc
      let s := s.modCore key fun c => { c with dda := { c.dda with frozen := on, ports := c.dda.ports.map fun p => p.pause now } }
      { s with me := { s.me with occ := s.me.occ.haltPaced on, under := s.me.under.map fun o => o.haltPaced on } }
    else s
  | none => s

/-- Commands of the X queue at a trap (R230): a started nest halts and leaves the queue, other started commands go on,
and those not started are discarded; the address of the first discarded one is where the X engine stops. -/
def Occ.haltX (o : Occ) : Occ × Option DWord :=
  let keep := o.xcmds.filter fun c => c.started && c.op != 1
  match o.xcmds.find? fun c => c.started && c.op == 1 with
  | some c => ({ o with xcmds := keep, mprog := o.mprog ||| (1 <<< 32), nestAddr := c.addr, nestHeld := c.ranges },
      (o.xcmds.find? fun c => !c.started).map (·.addr))
  | none => ({ o with xcmds := keep }, (o.xcmds.find? fun c => !c.started).map (·.addr))

/-- n bytes from a key on are written: hardware watches that cover one of them fire (R138, R133). -/
def State.noteWrite (s : State) (k n : Nat) : State :=
  { s with watching := s.watching.map fun w => if w.lo < k + n && k < w.hi then { w with fired := true } else w }

/-- The bytes of an ECC word (log 29). -/
def eccBytes : Nat := 8

/-- A write of whole ECC words clears their poison (R399). -/
def clearPoison (p : List Nat) (k n : Nat) : List Nat :=
  p.filter fun x => !(decide (k ≤ x / eccBytes * eccBytes) && decide (x / eccBytes * eccBytes + eccBytes ≤ k + n))

/-- A write that takes effect at once. -/
def State.poke (s : State) (k : Nat) (bs : List Byte) : State :=
  { s with mem := s.mem.setBytes k bs, poison := clearPoison s.poison k bs.length }.noteWrite k bs.length

/-- Plain stores of the group take effect, oldest first (R336, R341). -/
def State.drain (s : State) : State :=
  (s.occ.stores.foldl (fun (t : State) c => t.poke c.key c.bytes) s).mapOcc fun o => { o with stores := [] }

/-- TRAP and BKPT of the group itself, whose K engine stands at p: %EPC.K is the address of the next instruction as R115 defines
it (R134, R135). -/
def Cause.software (c : Cause) : Bool := c.code == 0x19 || (c.code == 0x16 && !c.info.getLsbD 63)

/-- Enter trap level from user level with the group stopped before address p (R371). A stall time-out that is not taken yet is dropped:
its read is issued afresh after RFT (R391). -/
def State.enterTrap (s : State) (c : Cause) (p : DWord) : State :=
  let tv := s.shared.tvec
  let here := c.software && s.occ.pcs.k == p
  let at' := s.drain.stopPoint p here
  let s := s.drain.suspendLine
  let (o, dropped) := s.occ.haltX
  let pcs := match dropped with | some a => at'.pcs.set .x a | none => at'.pcs
  let flow := at'.flow
  let cap : Capture :=
    { flow := flow, s := o.regs.s, q := o.regs.q, v0 := o.regs.v.getD 0 [],
      old := if at'.inLine then o.sysOld else [], oldLine := lineOf64 pcs.k, mwait := o.mwait,
      atEnd := if at'.unfinished then some pcs.k else none }
  let w := o.width
  let o' := { o with
    causes := o.causes.filter fun d => !(d.code == 0x18 && d.eng == .v)
    faultAt := c.pc.getD (s.pcOf c.eng)
    epc := pcs, tcause := causeBits c.code c.eng false (isFatal c.code), tinfo := c.info, taddr := c.addr,
    capture := some cap, trapLevel := true, stepping := false, wait := none, mwait := none,
    flow := { Flow.empty with mask := allLanes w, dbase := flow.dspill, rbase := flow.rspill },
    regs := { o.regs with v := setAt [] o.regs.v 0 ((List.range w).map fun i => BitVec.ofNat 32 (4 * i)) } }
  ((s.mapOcc fun _ => o').freezeDda true).jump tv

/-- A fault raised at trap level (R373): no new entry capture, no %EPC. DESIGN CHOICE (log 66): a write of %TCAUSE, %TINFO or %TADDR
by an SCSR of the faulting line takes effect before the device writes them, so the fault's values stand. -/
def State.nestTrap (s : State) (c : Cause) : State :=
  let tv := s.shared.tvec
  (s.drain.leaveLine.mapOcc fun o =>
    { o with faultAt := c.pc.getD (s.pcOf c.eng), tcause := causeBits c.code c.eng true true, tinfo := c.info, taddr := c.addr }).jump (tv + 32)

/-- Whether the group is at trap level with NESTED set. -/
def Occ.nested (o : Occ) : Bool := o.trapLevel && o.tcause.getLsbD 9

/-! ## Waiting (R303, R449) -/

/-- The wait in progress of an occupant, when it is for an object. -/
def Occ.sameWait (o : Occ) (kind : Nat) (obj : DWord) : Option Wait := o.wait.filter fun w => w.kind == kind && w.obj == obj

/-- The group in focus waits: the wait begins now unless the same wait is already going on; a wait that begins is one not yet recorded
(R366). Its plain stores take effect, so that what it waits for can come about. -/
def State.beginWait (s : State) (kind : Nat) (obj : DWord) (owner detail : Nat) : State :=
  let same := s.occ.sameWait kind obj
  let since := (same.map (·.since)).getD s.cyc
  let t := s.drain.mapOcc fun o => { o with wait := some { kind, obj, owner, detail, since } }
  { t with me := { t.me with recorded := s.me.recorded && same.isSome } }

/-! ## The outcome of an instruction -/

/-- A trap that engine e's instruction raises before its effect (class F) or behind it (class E), at either level. -/
def State.trap (s : State) (c : Cause) (p : DWord) : State :=
  if s.occ.nested then s.mapOcc fun o => { o with ending := true }
  else if s.occ.trapLevel then s.nestTrap c
  else s.enterTrap c p

/-- What becomes of an instruction of engine e, n lanes long, that does not complete. An event at trap level waits for
user level (R373). -/
def State.stop (s : State) (e : Eng) (n : Nat) : Stop → Host.Outcome State Fault Refusal
  | .trap code info addr => .next (s.trap { code, eng := e, info, addr } (s.pcOf e))
  | .event code info addr =>
      let c : Cause := { code, eng := e, info, addr, pc := some (s.pcOf e) }
      if s.occ.trapLevel then .next ((s.advance e n).mapOcc fun o => { o with causes := o.causes ++ [c] })
      else .next ((s.advance e n).trap c (s.pcOf e + BitVec.ofNat 64 (4 * n)))
  | .wait kind obj owner detail => .next (s.beginWait kind obj owner detail)

/-- The outcome of a meaning. -/
def run (e : Eng) (n : Nat) (s : State) : Act State → Host.Outcome State Fault Refusal
  | .ok t => .next t
  | .error st => s.stop e n st

/-- The outcome of a meaning that goes on in sequence. -/
def finish (e : Eng) (n : Nat) (s : State) (r : Act State) : Host.Outcome State Fault Refusal :=
  match r with
  | .ok t => .next (t.advance e n)
  | .error st => s.stop e n st

end Sys2Proof.Machine
end

