-- ==== Sys2Proof/Machine/Address.lean ====
section
/-! DEFINITION. Memory accesses of a group: spaces, extents and their checks (R172, R173), the bytes a group reads and
writes, footprints (R181), streams (R200), lost data (R399), the HBM counters (R434), and the device's own accesses. -/

namespace Sys2Proof.Machine

/-- The physical lane of lane i of a placement (R14 to R16). -/
def physLane (pl : Place) (i : Nat) : Nat :=
  if Config.isTile pl.core then i else pl.slot / 2 % 4 * 32 + pl.slot % 2 * 16 + i

/-- The team of the running occupant; a task has no team allocation (R300). -/
def State.myTeam (s : State) : Option Team := s.team? s.occ.team

/-- UNIT allocation of the running occupant: core keys, base, T (R19, R300). -/
def State.unitAlloc (s : State) : List Nat × Nat × Nat :=
  if s.occ.task ≠ 0 then ([], 0, 0)
  else match s.myTeam with | some t => (t.cores, t.unitBase, t.unitSize) | none => ([], 0, 0)

/-- The UNIT offset as core key and physical offset, when its n bytes lie in the allocation (R19, R173). -/
def State.unitPlace (s : State) (off n : Nat) : Option (Nat × Nat) :=
  let (cores, base, t) := s.unitAlloc
  if off + n ≤ t then cores[0]?.map fun c => (c, base + off)
  else if t ≤ off && off + n ≤ 2 * t then cores[1]?.map fun c => (c, base + off - t)
  else none

/-- CLUS allocation of the running occupant: die, cluster, base, C (R173). -/
def State.clusAlloc (s : State) : Option (Nat × Nat × Nat × Nat) :=
  if s.occ.task ≠ 0 then none
  else do
    let t ← s.myTeam
    let l ← s.launch? t.launch
    let (d, c, b) ← l.bound
    some (d, c, b, l.record.clusScr)

/-- Whether [lo, hi) is covered by intervals; `fuel` bounds how many of them it runs through. -/
def covered (as : List (Nat × Nat)) : Nat → Nat → Nat → Bool
  | 0, lo, hi => decide (hi ≤ lo)
  | fuel + 1, lo, hi =>
    decide (hi ≤ lo) || match as.find? fun a => decide (a.1 ≤ lo) && decide (lo < a.2) with
      | some a => covered as fuel a.2 hi
      | none => false

/-- Whether [lo, lo + n) of a core's unit scratchpad lies in allocations of a context (R172, check 3). -/
def State.allocated (s : State) (ctx core lo n : Nat) : Bool :=
  let ts := s.teams.filter fun t => t.ctx == ctx && t.cores.contains core && !t.parked
  covered (ts.map fun t => (t.unitBase, t.unitBase + t.unitSize)) (ts.length + 1) lo (lo + n)

/-- Bytes of a scratchpad space as the running occupant reaches it (R173). -/
def State.extentOf (s : State) (space : Nat) : Nat :=
  match space with
  | 1 => let (cores, _, t) := s.unitAlloc; t * cores.length
  | 2 => match s.clusAlloc with | some (_, _, _, size) => size | none => 0
  | 3 => (s.ctx.dieWin s.die).2
  | 4 => s.occ.lanePriv
  | _ => Config.unitBytes s.me.place.core

/-- The memory key of an access of n bytes at an address of a space, after the checks of R172. -/
def State.keyOf (s : State) (space core lane : Nat) (addr : DWord) (n : Nat) (acc : Access) (i : MemInfo) : Act Nat := do
  let i := { i with lane, write := acc.writes }
  let a := addr.toNat
  require (a % n == 0) (.trap 4 i.bits addr)
  let out : Stop := .trap 7 i.bits addr
  match space with
  | 0 => s.globalKey addr acc i
  | 1 =>
    match s.unitPlace a n with
    | some (c, off) => .ok (unitKey c off)
    | none => .error out
  | 2 =>
    match s.clusAlloc with
    | some (d, c, b, size) => if a + n ≤ size then .ok (clusKey d c (b + a)) else .error out
    | none => .error out
  | 3 =>
    let (b, size) := s.ctx.dieWin s.die
    if a + n ≤ size then .ok (dieKey s.die (b + a)) else .error out
  | 4 =>
    if a + n ≤ s.occ.lanePriv then .ok (laneKey s.occ.lanePrivBase lane a)
    else .error out
  | _ =>
    if Config.unitBytes s.me.place.core < a + n then .error out
    else if Config.coresOf s.die ≤ core || !s.allocated s.me.ctx (Config.coreKey s.die core) a n then
      .error (.trap 6 i.bits addr)
    else .ok (unitKey (Config.coreKey s.die core) a)

/-! ## The bytes a group sees and writes -/

/-- A byte as the group in focus sees it: its own latest store, else memory (R181, R336). -/
def State.peek (s : State) (k : Nat) : Byte :=
  match s.occ.stores.reverse.find? fun c => decide (c.1 ≤ k) && decide (k < c.1 + c.2.length) with
  | some c => c.2.getD (k - c.1) 0
  | none => s.mem.get k

def State.peekBytes (s : State) (k : Nat) : Nat → List Byte
  | 0 => []
  | n + 1 => s.peek k :: s.peekBytes (k + 1) n

/-- The HBM counters of the home die (R434). -/
def State.countRead (s : State) (k n : Nat) : State :=
  match hbmDie k with
  | some d => s.modDie d fun x => { x with hbmrd := (x.hbmrd + n) % 2 ^ 64 }
  | none => s

def State.countWrite (s : State) (k n : Nat) : State :=
  match hbmDie k with
  | some d => s.modDie d fun x => { x with hbmwr := (x.hbmwr + n) % 2 ^ 64 }
  | none => s

/-- An access of an instruction to a 16-byte object is counted, once, with the instruction's effect (R434). DESIGN CHOICE (log 79): the
object's 16 bytes count as read, and as written where the instruction changes it. -/
def State.countObject (s : State) (k : Nat) (write : Bool) : State :=
  if write then (s.countRead k 16).countWrite k 16 else s.countRead k 16

/-- Loads of bytes, given as key and count, that a pending store of the group writes: the stores take effect before the loads do
(R336, R342). -/
def State.settleLoads (s : State) (as : List (Nat × Nat)) : State :=
  if s.occ.stores.any fun c => as.any fun a => decide (a.1 < c.1 + c.2.length) && decide (c.1 < a.1 + a.2) then s.drain else s

/-- The number that the stores of the next store instruction take. -/
def Occ.nextStore (o : Occ) : Nat := match o.stores.getLast? with | some c => c.cmd + 1 | none => 0

/-- A plain store of instruction number `cmd`: it is issued now and takes effect later (R336, R341), each aligned half of 16 bytes by
itself (R176). -/
def State.issueStore (s : State) (cmd k : Nat) (bs : List Byte) : State :=
  let parts : Pending := if bs.length ≤ 8 then [⟨k, bs, cmd⟩] else [⟨k, bs.take 8, cmd⟩, ⟨k + 8, bs.drop 8, cmd⟩]
  (s.mapOcc fun o => { o with stores := o.stores ++ parts }).countWrite k bs.length

/-! ## Footprints (R181, R182, R200) -/

def Range.overlaps (a b : Range) : Bool :=
  a.space == b.space && a.core == b.core && decide (a.lo < b.hi) && decide (b.lo < a.hi) && (a.wr || b.wr)

/-- The range of n bytes at an address; UNIT offsets become physical offsets of their core (R181). -/
def State.range (s : State) (space core : Nat) (addr n : Nat) (wr : Bool) : Range :=
  match space with
  | 1 =>
    match s.unitPlace addr (min n 1) with
    | some (c, off) => { space := 5, core := Config.coreIndex c, lo := off, hi := off + n, wr }
    | none => { space := 1, core := 0, lo := addr, hi := addr + n, wr }
  | 5 => { space, core, lo := addr, hi := addr + n, wr }
  | _ => { space, core := 0, lo := addr, hi := addr + n, wr }

/-- The ranges of [lo, hi): an extent of UNIT is split where the odd core's half begins (R19). -/
def State.spanRanges (s : State) (space core lo hi : Nat) (wr : Bool) : List Range :=
  let t := s.unitAlloc.2.2
  if hi ≤ lo then []
  else if space = 1 && decide (lo < t) && decide (t < hi) then
    [s.range 1 0 lo (t - lo) wr, s.range 1 0 t (hi - t) wr]
  else [s.range space core lo (hi - lo) wr]

/-- Ranges of the commands of the occupant that are not complete, a halted nest among them (R217). A memory command that is halted,
which goes on at RFT only, orders nothing at trap level: the routines of R381 save and restore its bytes (R443). -/
def Occ.ranges (o : Occ) : List Range :=
  (o.cmds.filter fun c => !c.halted).flatMap (·.ranges) ++ o.xcmds.flatMap (·.ranges) ++ o.nestHeld

/-- The entries of the core's footprint range checker that are held (R182): one for each command of its groups that is not
complete, one for each memory stream with elements not yet consumed, and one for each instruction with plain stores that have not
taken effect. -/
def State.checkerUsed (s : State) : Nat :=
  let held := fun (o : Occ) => o.cmds.length + o.xcmds.length + (o.stores.map (·.cmd)).eraseDups.length
    + o.streams.countP fun w => w.bound && !w.tap && decide (0 < w.arrived.length + w.left)
  ((s.groups.filter fun g => g.run == .running && g.place.core == s.me.place.core).map fun g =>
    held g.occ + (g.under.map held).sum).sum

/-- An access whose footprint overlaps an incomplete command's waits (R181), and so does one that finds the checker full
(R182). -/
def State.checkRanges (s : State) (rs : List Range) : Act Unit := do
  require (!(rs.any fun r => s.occ.ranges.any r.overlaps)) (.wait 21 0 0 0)
  require (rs.isEmpty || decide (s.checkerUsed < 64)) (.wait 21 0 0 0)

def sizeBytes (sz : Nat) : Nat := 2 ^ sz

/-- The address of element k of a memory stream counted from the next one to fetch; arrived elements lie before it. -/
def Stream.elemAddr (w : Stream) (back : Nat) : Nat :=
  (w.addr - BitVec.ofNat 64 back * w.stride).toNat

/-- The ranges of the stream elements not yet consumed (R200). -/
def State.streamRanges (s : State) (w : Stream) : List Range :=
  if !w.bound || w.tap then []
  else
    let n := w.arrived.length
    (List.range (n + w.left)).map fun k =>
      s.range w.space 0 (w.addr + (BitVec.ofNat 64 k - BitVec.ofNat 64 n) * w.stride).toNat (sizeBytes w.size) false

/-- A write to bytes of a stream element not yet consumed takes fault 0x0B (R200). -/
def State.checkStreams (s : State) (e : Eng) (rs : List Range) : Act Unit :=
  require (!((rs.filter (·.wr)).any fun r => s.occ.streams.any fun w => (s.streamRanges w).any r.overlaps))
    (s.faultAt e 0x0B)

/-! ## Uniform accesses -/

/-- The key of an access of n bytes that the group makes once, with the checks of R172, R181 and R200. -/
def State.accessAt (s : State) (e : Eng) (space core : Nat) (addr : DWord) (n : Nat) (acc : Access) (atomic : Bool := false) :
    Act Nat := do
  let k ← s.keyOf space core 0 addr n acc { atomic }
  s.checkRanges [s.range space core addr.toNat n acc.writes]
  if acc.writes then s.checkStreams e [s.range space core addr.toNat n true]
  .ok k

/-- Read n bytes once for the group: the state from which they are read, their key and their value. -/
def State.readAt (s : State) (e : Eng) (space core : Nat) (addr : DWord) (n : Nat) (acc : Access := .read)
    (atomic : Bool := false) : Act (State × Nat × Nat) := do
  let k ← s.accessAt e space core addr n acc atomic
  let t := s.settleLoads [(k, n)]
  t.checkLost addr k n
  .ok (t, k, t.mem.getN k n)

/-- An object of n bytes at a packed object address (R220, R301, R281): [63:61] space, [47:0] offset. -/
def packedSpace (a : DWord) : Nat := (a.extractLsb' 61 3).toNat
def packedOff (a : DWord) : DWord :=
  if packedSpace a = 0 then (a.extractLsb' 0 48).signExtend 64 else (a.extractLsb' 0 48).setWidth 64

/-! ## The device's own accesses -/

/-- Keys of n bytes at a virtual address of a context, page by page as far as the 4 KiB pages go. -/
def State.devKey (s : State) (ctx : Nat) (va : Nat) (acc : Access) : Option Nat :=
  match s.translate ctx (BitVec.ofNat 64 va) acc with
  | .ok k => some k
  | .error _ => none

/-- n bytes at a virtual address; none where one cannot be reached, or is lost (R399). -/
def State.devBytes (s : State) (ctx va : Nat) : Nat → Option (List Byte)
  | 0 => some []
  | n + 1 => do
    let k ← s.devKey ctx va .read
    let r ← s.devBytes ctx (va + 1) n
    if s.poison.contains k then none else some (s.mem.get k :: r)

def State.devRead (s : State) (ctx va n : Nat) : Option Nat := (s.devBytes ctx va n).map ofBytes

/-- Whole ECC words that the keys ks cover are poisoned no more (R399). -/
def State.clearWords (s : State) (ks : List Nat) : State :=
  { s with poison := s.poison.filter fun x => !((List.range eccBytes).all fun j => ks.contains (x / eccBytes * eccBytes + j)) }

/-- Bytes at virtual addresses, as one write. -/
def State.devPutAt (s : State) (ctx : Nat) (ws : List (Nat × Byte)) : Option State := do
  let ks ← ws.mapM fun w => s.devKey ctx w.1 .write
  some (((ks.zip ws).foldl (fun (t : State) w => t.poke w.1 [w.2.2]) s).clearWords ks)

def State.devPut (s : State) (ctx va : Nat) (bs : List Byte) : Option State :=
  s.devPutAt ctx (bs.zipIdx.map fun b => (va + b.2, b.1))

def State.devWrite (s : State) (ctx va n x : Nat) : Option State := s.devPut ctx va (toBytes n x)

/-- The longest structure that the device reads for an instruction: a worklist set of 64 lists (R326). -/
def structBytes : Nat := 64 + 64 * 64

/-- What the device does for an instruction to a structure in memory (a card, a list, a worklist set); where it cannot reach it, the
instruction takes the fault of an access to the structure's address (R172, log 17), and 0x1C where bytes of it are lost (R399). -/
def State.reach {α : Type} (s : State) (space : Nat) (addr : DWord) (x : Option α) : Act α :=
  match x with
  | some a => .ok a
  | none =>
    let i : MemInfo := { write := true }
    match s.keyOf space 0 0 addr 1 .both i with
    | .error st => .error st
    | .ok k => do
      s.checkLost addr k structBytes
      .error (.trap 5 i.bits addr)

/-- What the device does of itself; where it cannot reach a structure in memory, it does nothing for now (log 17). -/
def device (s : State) (r : Option State) : Host.Outcome State Fault Refusal := .next (r.getD s)

/-! ## Hang log and event log (R367, R387) -/

/-- Put bytes into the ring of a log from stream position pos on. -/
def State.putRing (s : State) (ctx log size pos : Nat) (bs : List Byte) : Option State :=
  s.devPutAt ctx (bs.zipIdx.map fun b => (log + 64 + (pos + b.2) % size, b.1))

/-- Append one record: dropped whole and counted when it does not fit (R367). -/
def State.appendLog (s : State) (ctx log : Nat) (bytes : List Byte) : Option State := do
  let w ← s.devRead ctx log 8
  let r ← s.devRead ctx (log + 8) 8
  let size ← s.devRead ctx (log + 16) 4
  let dropped ← s.devRead ctx (log + 20) 4
  if size < bytes.length + (w - r) then s.devWrite ctx (log + 20) 4 (dropped + 1)
  else do
    let t ← s.putRing ctx log size w bytes
    t.devWrite ctx log 8 (w + bytes.length)

/-- An event record (R387). -/
structure Event where
  kind : Nat
  flags : Nat := 0
  cause : Nat := 0
  die : Nat := 0
  core : Nat := 0
  group : Nat := 0
  cls : Nat := 0
  launch : Nat := 0
  task : Nat := 0
  team : Nat := 0
  addr : Nat := 0
  detail : Nat := 0

def Event.bytes (e : Event) (tod : Nat) : List Byte :=
  toBytes 1 e.kind ++ toBytes 1 e.flags ++ toBytes 1 e.cause ++ toBytes 1 e.die ++ toBytes 2 e.core ++ toBytes 1 e.group
    ++ toBytes 1 e.cls ++ toBytes 4 e.launch ++ toBytes 4 e.task ++ toBytes 8 e.team ++ toBytes 8 e.addr
    ++ toBytes 4 e.detail ++ toBytes 4 0 ++ toBytes 8 tod ++ toBytes 16 0

/-- Log an event of a context; a log that cannot be reached loses the record (log 17). -/
def State.logEvent (s : State) (ctx : Nat) (e : Event) : State :=
  (s.appendLog ctx (s.ctxAt ctx).evlog (e.bytes s.tod)).getD s

/-- The event of the group in focus. -/
def State.eventOf (s : State) (kind : Nat) : Event :=
  { kind, die := s.die, core := Config.coreIndex s.me.place.core, group := s.occ.group, launch := s.occ.launch.toNat,
    task := s.occ.task, team := s.occ.teamIdx.toNat }

end Sys2Proof.Machine
end

