-- ==== Sys2Proof/Machine/Flags.lean ====
section
/-! DEFINITION. Guards and conditions (R47, R105, R107, R150) and the predicate registers they write. The machine keeps
no arithmetic flags (R71, R103). -/

namespace Sys2Proof.Machine

/-- The guard of a K form: q[qg] XOR qn (R47). -/
def State.guard (s : State) (g : KG) : Bool := s.occ.getQ g.q.toNat != g.n

/-- The lanes that a V form enables: active and p[pg] XOR pn (R47, R142). -/
def State.enabled (s : State) (e : Eng) (f : VF) : DWord :=
  let m := s.occ.flow.maskOf e &&& allLanes s.occ.width
  let p := s.occ.getP f.pg.toNat
  m &&& (if f.pn then ~~~p else p)

def State.lanes (s : State) (e : Eng) (f : VF) : List Nat := maskLanes (s.enabled e f) s.occ.width

/-- The comparison of SCMP (R105). -/
def scalarCond (cc : Nat) (a y : DWord) : Bool :=
  match cc with
  | 0 => a == y
  | 1 => a != y
  | 2 => a.slt y
  | 3 => y.sle a
  | 4 => a.ult y
  | 5 => y.ule a
  | 6 => a.sle y
  | 7 => y.slt a
  | 8 => a.ule y
  | _ => y.ult a

/-- A two-input truth table (R107, R151). -/
def truth (f : BitVec 4) (a b : Bool) : Bool := f.getLsbD (2 * a.toNat + b.toNat)

/-- The conditions of CMP and FCMP (R150) from the order of the operands; none is unordered. -/
def condHolds (cc : Nat) (o : Option Ordering) : Bool :=
  match cc with
  | 0 => o == some .eq
  | 1 => o != some .eq
  | 2 => o == some .lt
  | 3 => o == some .lt || o == some .eq
  | 4 => o == some .gt
  | 5 => o == some .gt || o == some .eq
  | 6 => o == none
  | _ => o != none

/-- A predicate register with the lanes of `en` set from `x` (R142). -/
def Occ.putP (o : Occ) (r : Nat) (en x : DWord) : Occ := o.setP r ((o.getP r &&& ~~~en) ||| (x &&& en))

/-- The mask of the lanes that satisfy f. -/
def laneMask (lanes : List Nat) (f : Nat → Bool) : DWord :=
  BitVec.ofNat 64 ((lanes.filter f).foldl (fun a i => a + 2 ^ i) 0)

end Sys2Proof.Machine
end

