-- ==== Sys2Proof/Machine/Num.lean ====
section
/-! DEFINITION. Number formats, exact values, rounding and saturation (R69 to R79), and the correctly rounded functions
of R156 and R157. Values are exact: a sign, a natural significand and a power of two, with a sticky mark for a value
that lies strictly between two neighbouring significands. -/

namespace Sys2Proof.Machine

/-- A scalar format (R69): exponent and fraction bits, bias, and what its top exponent means. -/
structure Fmt where
  ebits : Nat
  mbits : Nat
  bias : Nat
  /-- infinities and NaNs as in IEEE 754 -/
  ieee : Bool
  /-- the one NaN code of E4M3 -/
  fnan : Bool
  /-- narrow formats saturate always (R76) -/
  narrow : Bool
  deriving DecidableEq, Repr

def f64 : Fmt := ⟨11, 52, 1023, true, false, false⟩
def f32 : Fmt := ⟨8, 23, 127, true, false, false⟩
def f16 : Fmt := ⟨5, 10, 15, true, false, false⟩
def bf16 : Fmt := ⟨8, 7, 127, true, false, false⟩
def e4m3 : Fmt := ⟨4, 3, 7, false, true, true⟩
def e5m2 : Fmt := ⟨5, 2, 15, true, false, true⟩
def e2m1 : Fmt := ⟨2, 1, 1, false, false, true⟩

def Fmt.width (F : Fmt) : Nat := 1 + F.ebits + F.mbits

/-- An extended real: (-1)^neg * m * 2^e, a little more than that in magnitude when sticky. -/
inductive Num where
  | nan
  | inf (neg : Bool)
  | fin (neg : Bool) (m : Nat) (e : Int) (sticky : Bool)
  deriving DecidableEq, Repr

def Num.zero (neg : Bool) : Num := .fin neg 0 0 false
def Num.ofInt (x : Int) : Num := .fin (decide (x < 0)) x.natAbs 0 false
def Num.pow2 (e : Int) : Num := .fin false 1 e false

def Num.isZero : Num → Bool
  | .fin _ m _ st => m == 0 && !st
  | _ => false

def Num.neg : Num → Num
  | .nan => .nan
  | .inf n => .inf (!n)
  | .fin n m e st => .fin (!n) m e st

def Num.sign : Num → Bool
  | .nan => false
  | .inf n => n
  | .fin n _ _ _ => n

/-- The value of a code (R69). -/
def Fmt.decode (F : Fmt) (code : Nat) : Num :=
  let neg := code / 2 ^ (F.ebits + F.mbits) % 2 == 1
  let ex := code / 2 ^ F.mbits % 2 ^ F.ebits
  let fr := code % 2 ^ F.mbits
  let q : Int := 1 - (F.bias : Int) - (F.mbits : Int)
  if F.ieee && ex == 2 ^ F.ebits - 1 then (if fr == 0 then .inf neg else .nan)
  else if F.fnan && ex == 2 ^ F.ebits - 1 && fr == 2 ^ F.mbits - 1 then .nan
  else if ex == 0 then .fin neg fr q false
  else .fin neg (2 ^ F.mbits + fr) (q + (ex : Int) - 1) false

/-- The code of the largest finite magnitude, without sign. -/
def Fmt.maxCode (F : Fmt) : Nat :=
  if F.ieee then (2 ^ F.ebits - 1) * 2 ^ F.mbits - 1
  else if F.fnan then 2 ^ (F.ebits + F.mbits) - 2
  else 2 ^ (F.ebits + F.mbits) - 1

/-- The canonical NaN (R72); a format without NaN gives 0 (R155). -/
def Fmt.nanCode (F : Fmt) : Nat :=
  if F.ieee then (2 ^ F.ebits - 1) * 2 ^ F.mbits + 2 ^ (F.mbits - 1)
  else if F.fnan then 2 ^ (F.ebits + F.mbits) - 1 else 0

def Fmt.signBit (F : Fmt) (neg : Bool) : Nat := if neg then 2 ^ (F.ebits + F.mbits) else 0

/-- Bits of a natural number. -/
def bitLen (n : Nat) : Nat := if n = 0 then 0 else n.log2 + 1

/-- Whether a magnitude with an odd or even last unit, a remainder against a half and a sticky mark rounds up (R74). -/
def roundUp (rm : Nat) (neg odd : Bool) (rem half : Nat) (st : Bool) : Bool :=
  let inexact := rem != 0 || st
  match rm with
  | 0 => decide (half < rem) || (rem == half && (st || odd))
  | 1 => false
  | 2 => neg && inexact
  | _ => !neg && inexact

/-- A magnitude rounded to a multiple of 2^q: the multiple. -/
def roundAt (rm : Nat) (neg : Bool) (m : Nat) (e q : Int) (st : Bool) : Nat :=
  if q ≤ e then
    let a := m * 2 ^ (e - q).toNat
    a + (if roundUp rm neg (a % 2 == 1) 0 1 st then 1 else 0)
  else
    let sh := (q - e).toNat
    let a := m / 2 ^ sh
    a + (if roundUp rm neg (a % 2 == 1) (m % 2 ^ sh) (2 ^ (sh - 1)) st then 1 else 0)

/-- Result of a rounding: the code, and whether the value lies beyond the largest finite magnitude (R79). -/
structure Rounded where
  code : Nat
  clamped : Bool
  deriving DecidableEq, Repr

/-- rne(x, F, rm) of R75, with the overflow of R74; narrow formats saturate (R76). -/
def Fmt.round (F : Fmt) (rm : Nat) (x : Num) : Rounded :=
  let sgn := F.signBit x.sign
  match x with
  | .nan => ⟨F.nanCode, false⟩
  | .inf _ => ⟨sgn + (if F.ieee && !F.narrow then (2 ^ F.ebits - 1) * 2 ^ F.mbits else F.maxCode), true⟩
  | .fin neg m e st =>
    let qmin : Int := 1 - (F.bias : Int) - (F.mbits : Int)
    let q0 : Int := max qmin (e + (bitLen m : Int) - ((F.mbits : Int) + 1))
    let a0 := roundAt rm neg m e q0 st
    let (a, q) := if a0 = 2 ^ (F.mbits + 1) then (2 ^ F.mbits, q0 + 1) else (a0, q0)
    let code := if a < 2 ^ F.mbits then a else ((q - qmin).toNat + 1) * 2 ^ F.mbits + (a - 2 ^ F.mbits)
    if code ≤ F.maxCode then ⟨sgn + code, false⟩
    else
      let toInf := F.ieee && !F.narrow && (rm == 0 || (rm == 2 && neg) || (rm == 3 && !neg))
      ⟨sgn + (if toInf then (2 ^ F.ebits - 1) * 2 ^ F.mbits else F.maxCode), true⟩

/-- sat(rne(x, F, rm), F): a clamped value counts one saturation (R75, R78, R79). -/
def Fmt.roundSat (F : Fmt) (rm : Nat) (x : Num) : Rounded :=
  let r := F.round rm x
  if r.clamped then ⟨F.signBit x.sign + F.maxCode, true⟩ else r

/-- Rounding with the instruction's sat bit: the code and the saturations counted (R76, R78, R79). -/
def Fmt.conv (F : Fmt) (rm : Nat) (sat : Bool) (x : Num) : Nat × Nat :=
  if sat || F.narrow then let r := F.roundSat rm x; (r.code, r.clamped.toNat) else ((F.round rm x).code, 0)

/-- x rounded to an integer by rm; infinities and NaN apart. -/
def roundInt (rm : Nat) (neg : Bool) (m : Nat) (e : Int) (st : Bool) : Int :=
  let a := roundAt rm neg m e 0 st
  if neg then -(a : Int) else (a : Int)

def intMin (signed : Bool) (n : Nat) : Int := if signed then -((2 ^ (n - 1) : Nat) : Int) else 0
def intMax (signed : Bool) (n : Nat) : Int := if signed then ((2 ^ (n - 1) : Nat) : Int) - 1 else ((2 ^ n : Nat) : Int) - 1

/-- sat(x, F) for an integer type, and whether it changed the value (R75, R79). -/
def satInt (signed : Bool) (n : Nat) (x : Int) : Int × Nat :=
  if x < intMin signed n then (intMin signed n, 1)
  else if intMax signed n < x then (intMax signed n, 1) else (x, 0)

/-- A floating-point value into an integer type (R78, R155). -/
def numToInt (signed : Bool) (n rm : Nat) : Num → Int × Nat
  | .nan => (0, 0)
  | .inf neg => (if neg then intMin signed n else intMax signed n, 1)
  | .fin neg m e st => satInt signed n (roundInt rm neg m e st)

/-! ## Exact arithmetic -/

/-- The significand of a finite number as a signed multiple of 2^q, q at most its exponent. -/
def scaleTo (q : Int) (neg : Bool) (m : Nat) (e : Int) : Int :=
  let a : Int := (m * 2 ^ (e - q).toNat : Nat)
  if neg then -a else a

/-- The exact sum of several terms (R73, R92, R94): the sign of a zero sum follows R73. -/
def sumNum (rm : Nat) (ts : List Num) : Num :=
  if ts.any fun t => t == .nan then .nan
  else
    let pos := ts.any fun t => t == .inf false
    let neg := ts.any fun t => t == .inf true
    if pos && neg then .nan
    else if pos then .inf false
    else if neg then .inf true
    else
      let q : Int := ts.foldl (fun q t => match t with | .fin _ m e _ => if m = 0 then q else min q e | _ => q) 0
      let total : Int := ts.foldl (fun a t => match t with
        | .fin n m e _ => if m = 0 then a else a + scaleTo q n m e | _ => a) 0
      if total = 0 then
        let allZero := ts.all (·.isZero)
        if allZero && ts.all (·.sign) && !ts.isEmpty then .zero true
        else if allZero && ts.all (fun t => !t.sign) then .zero false
        else .zero (rm == 2)
      else .fin (decide (total < 0)) total.natAbs q false

def addNum (rm : Nat) (a b : Num) : Num := sumNum rm [a, b]
def subNum (rm : Nat) (a b : Num) : Num := sumNum rm [a, b.neg]

def mulNum : Num → Num → Num
  | .nan, _ => .nan
  | _, .nan => .nan
  | .inf n, b => if b.isZero then .nan else .inf (n != b.sign)
  | a, .inf n => if a.isZero then .nan else .inf (a.sign != n)
  | .fin n m e _, .fin n' m' e' _ => .fin (n != n') (m * m') (e + e') false

def fmaNum (rm : Nat) (a b c : Num) : Num := sumNum rm [mulNum a b, c]

/-- A quotient of naturals times 2^e to 140 significant bits, sticky when inexact. -/
def quotient (neg : Bool) (a b : Nat) (e : Int) : Num :=
  let k := 140 + bitLen b - bitLen a
  let n := a * 2 ^ k
  .fin neg (n / b) (e - (k : Int)) (n % b != 0)

def divNum : Num → Num → Num
  | .nan, _ => .nan
  | _, .nan => .nan
  | .inf _, .inf _ => .nan
  | .inf n, .fin n' _ _ _ => .inf (n != n')
  | .fin n _ _ _, .inf n' => .zero (n != n')
  | .fin n m e _, .fin n' m' e' _ =>
    if m' = 0 then (if m = 0 then .nan else .inf (n != n'))
    else if m = 0 then .zero (n != n')
    else quotient (n != n') m m' (e - e')

/-- Integer square root, one bit per unit of fuel, from bit `fuel - 1` of the root down. -/
def isqrtFrom (n : Nat) : Nat → Nat → Nat
  | 0, r => r
  | k + 1, r => let c := r + 2 ^ k; isqrtFrom n k (if c * c ≤ n then c else r)

def isqrt (n : Nat) : Nat := isqrtFrom n (bitLen n / 2 + 1) 0

/-- A root of m * 2^e to more than 130 significant bits. -/
def rootNum (m : Nat) (e : Int) : Num :=
  let (m, e) := if e % 2 = 0 then (m, e) else (2 * m, e - 1)
  let k : Nat := 140
  let n := m * 2 ^ (2 * k)
  let r := isqrt n
  .fin false r (e / 2 - (k : Int)) (r * r != n)

def sqrtNum : Num → Num
  | .nan => .nan
  | .inf n => if n then .nan else .inf false
  | .fin n m e _ => if m = 0 then .zero n else if n then .nan else rootNum m e

def rcpNum : Num → Num
  | .nan => .nan
  | .inf n => .zero n
  | .fin n m e _ => if m = 0 then .inf n else quotient n 1 m (-e)

def rsqNum : Num → Num
  | .nan => .nan
  | .inf n => if n then .nan else .zero false
  | .fin n m e _ =>
    if m = 0 then .inf n
    else if n then .nan
    else
      let (m, e) := if e % 2 = 0 then (m, e) else (2 * m, e - 1)
      let k := 140 + bitLen m
      let n := 2 ^ (2 * k)
      let r := isqrt (n / m)
      .fin false r (-(e / 2) - (k : Int)) (r * r * m != n)

/-! ## Correctly rounded elementary functions, from fixed-point series of 400 fraction bits (log 16) -/

def fxBits : Nat := 400
def fxOne : Nat := 2 ^ fxBits

/-- Sum of z^(2k+1) / (2k+1), with alternating signs when alt, over fuel terms; z and the result in fixed point. -/
def oddSeries (alt : Bool) (z2 : Nat) : Nat → Nat → Nat → Int
  | 0, _, _ => 0
  | f + 1, p, k =>
    (p / (2 * k + 1) : Nat) + (if alt then -1 else 1) * oddSeries alt z2 f (p * z2 / fxOne) (k + 1)

/-- atanh(z) or atan(z) for 0 ≤ z ≤ 1/3 in fixed point. -/
def fxAtanh (z : Nat) : Nat := (oddSeries false (z * z / fxOne) 140 z 0).toNat
def fxAtan (z : Nat) : Nat := (oddSeries true (z * z / fxOne) 140 z 0).toNat

def fxLn2 : Nat := 2 * fxAtanh (fxOne / 3)
def fxTwoPi : Nat := 2 * (16 * fxAtan (fxOne / 5) - 4 * fxAtan (fxOne / 239))

/-- Sum of y^k / k! from term number k on. -/
def expSeries (y : Nat) : Nat → Nat → Nat → Nat
  | 0, _, _ => 0
  | f + 1, t, k => t + expSeries y f (t * y / fxOne / (k + 1)) (k + 1)

/-- Sum of the alternating series t - t*y²/((k+1)(k+2)) + ... -/
def trigSeries (y2 : Nat) : Nat → Nat → Nat → Int
  | 0, _, _ => 0
  | f + 1, t, k => (t : Int) - trigSeries y2 f (t * y2 / fxOne / ((k + 1) * (k + 2))) (k + 2)

/-- A positive fixed-point approximation as an irrational number: its leading 320 fraction bits and a sticky mark. -/
def irrational (neg : Bool) (x : Nat) (e : Int) : Num := .fin neg (x / 2 ^ 80) (e - 320) true

/-- 2^x (R156, R157). A value beyond every format's range is replaced by one that rounds as it does. -/
def exp2Num : Num → Num
  | .nan => .nan
  | .inf n => if n then .zero false else .inf false
  | .fin n m e _ =>
    if m = 0 then .pow2 0
    else if 20 ≤ e + (bitLen m : Int) then .fin false 1 (if n then -5000 else 5000) true
    else
      let f : Int := if n then -1 else 1
      let x : Int := f * (if 0 ≤ e then (m * 2 ^ e.toNat * fxOne : Nat) else (m * fxOne / 2 ^ (-e).toNat : Nat))
      let i := x.fdiv (fxOne : Int)
      let r := (x - i * (fxOne : Int)).toNat
      if r = 0 then .pow2 i
      else irrational false (expSeries (r * fxLn2 / fxOne) 100 fxOne 0) i

/-- log2 x (R156, R157). -/
def log2Num : Num → Num
  | .nan => .nan
  | .inf n => if n then .nan else .inf false
  | .fin n m e _ =>
    if m = 0 then .inf true
    else if n then .nan
    else
      let l := bitLen m - 1
      let i : Int := e + (l : Int)
      if m = 2 ^ l then (if i = 0 then .zero false else Num.ofInt i)
      else
        let t := m * fxOne / 2 ^ l
        let v : Int := i * (fxOne : Int) + ((2 * fxAtanh ((t - fxOne) * fxOne / (t + fxOne)) * fxOne / fxLn2 : Nat) : Int)
        if v < 0 then irrational true (v.natAbs - 1) 0 else irrational false v.toNat 0

/-- sin(2π r) for a fixed-point r with 0 < r ≤ 1/8, and cos. -/
def fxSin (r : Nat) : Nat := let y := r * fxTwoPi / fxOne; (trigSeries (y * y / fxOne) 60 y 1).toNat
def fxCos (r : Nat) : Nat := let y := r * fxTwoPi / fxOne; (trigSeries (y * y / fxOne) 60 fxOne 0).toNat

/-- sin(2π r / den) for 0 ≤ r < den, den a power of two at least 8: quadrant and octant reduction. -/
def sinTurn (r den : Nat) : Num :=
  let quad := r * 4 / den
  let u := r % (den / 4)
  let neg := 2 ≤ quad
  if u = 0 then (if quad % 2 = 0 then .zero false else .fin neg 1 0 false)
  else
    let w := if quad % 2 = 0 then u else den / 4 - u
    if w ≤ den / 8 then irrational neg (fxSin (w * fxOne / den)) 0
    else irrational neg (fxCos ((den / 4 - w) * fxOne / den)) 0

/-- The fraction of a finite number of turns: numerator and denominator, the denominator at least 8. -/
def turnOf (n : Bool) (m : Nat) (e : Int) : Nat × Nat :=
  let den := 2 ^ (max 3 (-e).toNat)
  let r := if 0 ≤ e then 0 else m * (den / 2 ^ (-e).toNat) % den
  (if n && r ≠ 0 then den - r else r, den)

def sinNum : Num → Num
  | .nan => .nan
  | .inf _ => .nan
  | .fin n m e _ => if m = 0 then .zero n else let (r, den) := turnOf n m e; sinTurn r den

def cosNum : Num → Num
  | .nan => .nan
  | .inf _ => .nan
  | .fin n m e _ => let (r, den) := turnOf n m e; sinTurn ((r + den / 4) % den) den

/-! ## Comparison (R150, R157) -/

/-- The order of two numbers; none when unordered. -/
def cmpNum : Num → Num → Option Ordering
  | .nan, _ => none
  | _, .nan => none
  | .inf a, .inf b => some (if a = b then .eq else if a then .lt else .gt)
  | .inf a, _ => some (if a then .lt else .gt)
  | _, .inf b => some (if b then .gt else .lt)
  | .fin n m e _, .fin n' m' e' _ =>
    let q := min e e'
    some (compare (scaleTo q n m e) (scaleTo q n' m' e'))

/-- minimumNumber or maximumNumber on codes (R157): the chosen operand's code, canonical when both are NaN. -/
def Fmt.pick (F : Fmt) (wantMax : Bool) (a b : Nat) : Nat :=
  match F.decode a, F.decode b with
  | .nan, .nan => F.nanCode
  | .nan, _ => b
  | _, .nan => a
  | x, y =>
    match cmpNum x y with
    | some .lt => if wantMax then b else a
    | some .gt => if wantMax then a else b
    | _ => if x.sign == wantMax then b else a

/-- The class mask of FCLASS (R158). -/
def Fmt.classMask (F : Fmt) (code : Nat) : Nat :=
  let fr := code % 2 ^ F.mbits
  let ex := code / 2 ^ F.mbits % 2 ^ F.ebits
  match F.decode code with
  | .nan => if fr / 2 ^ (F.mbits - 1) % 2 = 1 then 2 ^ 9 else 2 ^ 8
  | .inf n => if n then 2 ^ 0 else 2 ^ 7
  | .fin n m _ _ =>
    if m = 0 then (if n then 2 ^ 3 else 2 ^ 4)
    else if ex = 0 then (if n then 2 ^ 2 else 2 ^ 5)
    else (if n then 2 ^ 1 else 2 ^ 6)

end Sys2Proof.Machine
end

