-- ==== Sys2Proof/Machine/Operands.lean ====
section
/-! DEFINITION. Operand forms of the V engine (R50 to R53, R142 to R147), the writing of results in the enabled lanes,
and the counters of an N-tile (R80). -/

namespace Sys2Proof.Machine

/-! ## Counters of an N-tile (R80) -/

/-- n saturations counted on an N-tile; the counter stops at its top. -/
def State.countSat (s : State) (n : Nat) : State :=
  if s.tile && n != 0 then
    s.modCore s.me.place.core fun c => { c with overflow := BitVec.ofNat 32 (min 0xFFFFFFFF (c.overflow.toNat + n)) }
  else s

/-- n format errors counted on an N-tile. -/
def State.countFmt (s : State) (n : Nat) : State :=
  if s.tile && n != 0 then
    s.modCore s.me.place.core fun c => { c with formatErr := BitVec.ofNat 32 (min 0xFFFFFFFF (c.formatErr.toNat + n)) }
  else s

/-! ## Types -/

end Sys2Proof.Machine

namespace Sys2Proof
open Sys2Proof.Machine

/-- A pair type (R53). -/
def VX.pair (x : VX) : Bool := 5 ≤ x.ty.toNat
def VX.signed (x : VX) : Bool := x.ty == 0 || x.ty == 6
/-- Operand width of an integer type (R148). -/
def VX.bits (x : VX) : Nat := if x.pair then 64 else 32

/-- The scalar format of an element of a floating-point type. -/
def VX.fmt (x : VX) : Fmt :=
  match x.ty.toNat with
  | 3 => f16 | 4 => bf16 | 5 => f64 | _ => f32

/-- Whether a type packs two elements into 32 bits. -/
def VX.packed (x : VX) : Bool := x.ty == 3 || x.ty == 4

end Sys2Proof

namespace Sys2Proof.Machine

/-- The raw bits of a register or pair in a lane. -/
def Occ.raw (o : Occ) (pair : Bool) (r lane : Nat) : Nat := if pair then (o.getPair r lane).toNat else (o.getV r lane).toNat

/-- An imm16 operand (R52). -/
def immOperand (x : VX) : Nat :=
  match x.ty.toNat with
  | 2 => (f32.round 0 (f16.decode x.imm.toNat)).code
  | 5 => (f64.round 0 (f16.decode x.imm.toNat)).code
  | 3 | 4 => x.imm.toNat + x.imm.toNat * 2 ^ 16
  | _ => (if x.pair then (x.imm.signExtend 64).toNat else (x.imm.signExtend 32).toNat)

/-! ## Stream operands (R144) -/

def Stream.unbound : Stream :=
  { bound := false, tap := false, addr := 0, space := 0, size := 2, left := 0, stride := 0, arrived := [],
    index := 0, halted := false }

def Occ.stream (o : Occ) (k : Nat) : Stream := o.streams.getD k Stream.unbound
def Occ.setStream (o : Occ) (k : Nat) (w : Stream) : Occ := { o with streams := setAt Stream.unbound o.streams k w }

/-- The position of lane i among the enabled lanes. -/
def rankOf (lanes : List Nat) (i : Nat) : Nat := (lanes.filter fun j => decide (j < i)).length

/-- Whether the group in focus owns the DDA of its core (R250). -/
def State.ownsDda (s : State) : Bool := s.core.dda.owner == some (s.me.gid, s.me.under.length)

def signWord (x : Int) : Word := BitVec.ofInt 32 x

/-- The elements of a stream register that have arrived; those of a tap stream stand in the tap's FIFO (R201, R246). -/
def State.arrived (s : State) (k : Nat) : List Word :=
  let w := s.occ.stream k
  if !w.bound then []
  else if w.tap then
    let t := s.core.dda.taps.getD (w.addr.toNat % 16) Tap.reset
    if s.ownsDda && t.sink == 2 then t.fifo.map signWord else []
  else w.arrived

/-- Consume n elements of a stream register. -/
def State.consume (s : State) (k n : Nat) : State :=
  let w := s.occ.stream k
  if w.tap then
    s.modCore s.me.place.core fun c =>
      let t := c.dda.taps.getD (w.addr.toNat % 16) Tap.reset
      { c with dda := { c.dda with taps := setAt Tap.reset c.dda.taps (w.addr.toNat % 16) { t with fifo := t.fifo.drop n } } }
  else s.mapOcc fun o => o.setStream k { w with arrived := w.arrived.drop n }

/-- Whether a port of a DDA that the group owns is bound to stream register k (R244). -/
def State.portBound (s : State) (k : Nat) : Bool := s.ownsDda && s.core.dda.ports.any fun p => p.bound && p.w == k

/-- Elements of a stream register for the enabled lanes, `per` to each, all of them or none: the wait of kind 14 names
the stream register in its detail, plus one. -/
def State.takeStream (s : State) (k : Nat) (lanes : List Nat) (per : Nat) : Act (State × (Nat → Nat)) :=
  let n := lanes.length * per
  if n = 0 then .ok (s, fun _ => 0)
  else if s.portBound k then .error (s.faultAt .v 0x0B)
  else
    let es := s.arrived k
    if es.length < n then .error (.wait 14 0 0 (k + 1))
    else
      let at' (j : Nat) : Nat := (es.getD j 0).toNat
      .ok (s.consume k n, fun i =>
        let j := rankOf lanes i * per
        if per = 2 then at' j + at' (j + 1) * 2 ^ 32 else at' j)

/-- The b operand of each lane as raw bits (R50 to R52, R147); `word` marks one that is a 32-bit integer under every
ty. -/
def State.operandB (s : State) (f : VF) (x : VX) (word : Bool) (lanes : List Nat) : Act (State × (Nat → Nat)) :=
  let pair := x.pair && !word
  match x.bk.toNat with
  | 0 => .ok (s, fun i => s.occ.raw pair f.b.toNat i)
  | 1 => .ok (s, fun _ => if pair then (s.occ.getS f.b.toNat).toNat else (s.occ.getS f.b.toNat).toNat % 2 ^ 32)
  | 2 => s.takeStream f.b.toNat lanes (if pair then 2 else 1)
  | _ => .ok (s, fun _ => if word then (x.imm.signExtend 32).toNat else immOperand x)

/-! ## Results -/

/-- Write a register or a pair of the lanes listed. -/
def Occ.putRaw (o : Occ) (pair : Bool) (d : Nat) (rs : List (Nat × Nat)) : Occ :=
  rs.foldl (fun o r => if pair then o.setPair d r.1 (BitVec.ofNat 64 r.2) else o.setV d r.1 (BitVec.ofNat 32 r.2)) o

/-- Write results of the lanes listed, each a value and its saturations (R142, R79). -/
def State.putLanes (s : State) (pair : Bool) (d : Nat) (rs : List (Nat × Nat × Nat)) : State :=
  (s.mapOcc (·.putRaw pair d (rs.map fun r => (r.1, r.2.1)))).countSat (rs.foldl (fun a r => a + r.2.2) 0)

/-! ## Shapes of V-engine instructions -/

/-- A V-engine instruction in its 32-bit (x none) or 64-bit form. -/
def vDo (op : Nat) (f : VF) (x : Option VX) (s : State) (body : VX → State → Act State) :
    Host.Outcome State Fault Refusal :=
  finish .v (if x.isSome then 2 else 1) s (do
    s.checkCount (.vForm .v op f x false)
    body (x.getD (defaultVX op)) s)

/-- One that gives each enabled lane a value from the lane's A and B: g takes the occupant before any write, the lane,
A and B (R143), and answers a value with its saturations. -/
def vLanes (op : Nat) (f : VF) (x : Option VX) (word : Bool) (s : State)
    (g : VX → Occ → Nat → Nat → Nat → Nat × Nat) : Host.Outcome State Fault Refusal :=
  vDo op f x s fun x s => do
    let ls := s.lanes .v f
    let (t, b) ← s.operandB f x word ls
    .ok (t.putLanes x.pair f.d.toNat (ls.map fun i => (i, g x s.occ i (s.occ.raw x.pair f.a.toNat i) (b i))))

/-- One without a b operand. -/
def vUnaryLanes (op : Nat) (f : VF) (x : Option VX) (s : State) (g : VX → Nat → Nat × Nat) :
    Host.Outcome State Fault Refusal :=
  vDo op f x s fun x s =>
    .ok (s.putLanes x.pair f.d.toNat ((s.lanes .v f).map fun i => (i, g x (s.occ.raw x.pair f.a.toNat i))))

/-- One that sets p[d[3:0]] in each enabled lane from A and B (R150). -/
def vCompare (op : Nat) (f : VF) (x : Option VX) (s : State) (g : VX → Nat → Nat → Bool) :
    Host.Outcome State Fault Refusal :=
  vDo op f x s fun x s => do
    let ls := s.lanes .v f
    let (t, b) ← s.operandB f x false ls
    .ok (t.mapOcc (·.putP (f.d.toNat % 16) (s.enabled .v f)
      (laneMask ls fun i => g x (s.occ.raw x.pair f.a.toNat i) (b i))))

/-- A function of one element applied to each element of a packed or plain type (R156). -/
def perElem (x : VX) (g : Fmt → Nat → Nat × Nat) : Nat × Nat :=
  if x.packed then
    let (lo, n) := g x.fmt 0
    let (hi, m) := g x.fmt 16
    (lo + hi * 2 ^ 16, n + m)
  else g x.fmt 0

/-- The element of a raw value at a bit position. -/
def elemAt (F : Fmt) (a pos : Nat) : Nat := a / 2 ^ pos % 2 ^ F.width

end Sys2Proof.Machine
end

