-- ==== Sys2Proof/Machine/Scalar.lean ====
section
/-! DEFINITION. Scalar instructions of the K engine (R101 to R107): every one acts once for the group when its guard
holds (R47, R98), and goes on in sequence. -/

namespace Sys2Proof.Machine

/-- A guarded K-engine instruction of n lanes whose effect is f. -/
def kDo (g : KG) (n : Nat) (s : State) (f : State → Act State) : Host.Outcome State Fault Refusal :=
  finish .k n s (if s.guard g then f s else .ok s)

/-- A guarded write of s[d]. -/
def kSet (g : KG) (n : Nat) (s : State) (d : BitVec 6) (x : DWord) : Host.Outcome State Fault Refusal :=
  kDo g n s fun s => .ok (s.setS d x)

def imm64 (i : BitVec 32) : DWord := i.signExtend 64

def smulHigh (a b : DWord) : DWord := BitVec.ofInt 64 ((a.toInt * b.toInt) / 2 ^ 64)
def umulHigh (a b : DWord) : DWord := BitVec.ofNat 64 (a.toNat * b.toNat / 2 ^ 64)
def smin64 (a b : DWord) : DWord := if a.sle b then a else b
def smax64 (a b : DWord) : DWord := if a.sle b then b else a
def umin64 (a b : DWord) : DWord := if a.ule b then a else b
def umax64 (a b : DWord) : DWord := if a.ule b then b else a
/-- The shift count bits(y, 5, 0) (R104). -/
def shiftCount (y : DWord) : Nat := y.toNat % 64

abbrev Out := Host.Outcome State Fault Refusal

def execNop (g : KG) (s : State) : Out := kDo g 1 s .ok
def execNop64 (g : KG) (_imm : BitVec 32) (s : State) : Out := kDo g 2 s .ok
def execSmov (g : KG) (d a : BitVec 6) (s : State) : Out := kSet g 1 s d (s.getS a)
def execSmovLc (g : KG) (d : BitVec 6) (lc : BitVec 2) (s : State) : Out :=
  kSet g 1 s d ((s.occ.getLc lc.toNat).setWidth 64)
def execSli (g : KG) (d : BitVec 6) (imm : BitVec 16) (s : State) : Out := kSet g 1 s d (imm.signExtend 64)
def execSli64 (g : KG) (d : BitVec 6) (hi : BitVec 16) (imm : BitVec 32) (s : State) : Out :=
  kSet g 2 s d ((hi ++ imm).signExtend 64)
def execSadd (g : KG) (d a b : BitVec 6) (s : State) : Out := kSet g 1 s d (s.getS a + s.getS b)
def execSaddImm (g : KG) (d a : BitVec 6) (i : BitVec 32) (s : State) : Out := kSet g 2 s d (s.getS a + imm64 i)
def execSsub (g : KG) (d a b : BitVec 6) (s : State) : Out := kSet g 1 s d (s.getS a - s.getS b)
def execSsubImm (g : KG) (d a : BitVec 6) (i : BitVec 32) (s : State) : Out := kSet g 2 s d (s.getS a - imm64 i)
def execSmul (g : KG) (d a b : BitVec 6) (s : State) : Out := kSet g 1 s d (s.getS a * s.getS b)
def execSmulImm (g : KG) (d a : BitVec 6) (i : BitVec 32) (s : State) : Out := kSet g 2 s d (s.getS a * imm64 i)
def execSmulHi (g : KG) (d a b : BitVec 6) (s : State) : Out := kSet g 1 s d (smulHigh (s.getS a) (s.getS b))
def execSmulHiImm (g : KG) (d a : BitVec 6) (i : BitVec 32) (s : State) : Out :=
  kSet g 2 s d (smulHigh (s.getS a) (imm64 i))
def execSmulHiu (g : KG) (d a b : BitVec 6) (s : State) : Out := kSet g 1 s d (umulHigh (s.getS a) (s.getS b))
def execSmulHiuImm (g : KG) (d a : BitVec 6) (i : BitVec 32) (s : State) : Out :=
  kSet g 2 s d (umulHigh (s.getS a) (imm64 i))
def execSand (g : KG) (d a b : BitVec 6) (s : State) : Out := kSet g 1 s d (s.getS a &&& s.getS b)
def execSandImm (g : KG) (d a : BitVec 6) (i : BitVec 32) (s : State) : Out := kSet g 2 s d (s.getS a &&& imm64 i)
def execSor (g : KG) (d a b : BitVec 6) (s : State) : Out := kSet g 1 s d (s.getS a ||| s.getS b)
def execSorImm (g : KG) (d a : BitVec 6) (i : BitVec 32) (s : State) : Out := kSet g 2 s d (s.getS a ||| imm64 i)
def execSxor (g : KG) (d a b : BitVec 6) (s : State) : Out := kSet g 1 s d (s.getS a ^^^ s.getS b)
def execSxorImm (g : KG) (d a : BitVec 6) (i : BitVec 32) (s : State) : Out := kSet g 2 s d (s.getS a ^^^ imm64 i)
def execSshl (g : KG) (d a b : BitVec 6) (s : State) : Out := kSet g 1 s d (s.getS a <<< shiftCount (s.getS b))
def execSshlImm (g : KG) (d a n : BitVec 6) (s : State) : Out := kSet g 2 s d (s.getS a <<< n.toNat)
def execSshr (g : KG) (d a b : BitVec 6) (s : State) : Out := kSet g 1 s d (s.getS a >>> shiftCount (s.getS b))
def execSshrImm (g : KG) (d a n : BitVec 6) (s : State) : Out := kSet g 2 s d (s.getS a >>> n.toNat)
def execSshrA (g : KG) (d a b : BitVec 6) (s : State) : Out :=
  kSet g 1 s d ((s.getS a).sshiftRight (shiftCount (s.getS b)))
def execSshrAImm (g : KG) (d a n : BitVec 6) (s : State) : Out := kSet g 2 s d ((s.getS a).sshiftRight n.toNat)
def execSmin (g : KG) (d a b : BitVec 6) (s : State) : Out := kSet g 1 s d (smin64 (s.getS a) (s.getS b))
def execSminImm (g : KG) (d a : BitVec 6) (i : BitVec 32) (s : State) : Out := kSet g 2 s d (smin64 (s.getS a) (imm64 i))
def execSmax (g : KG) (d a b : BitVec 6) (s : State) : Out := kSet g 1 s d (smax64 (s.getS a) (s.getS b))
def execSmaxImm (g : KG) (d a : BitVec 6) (i : BitVec 32) (s : State) : Out := kSet g 2 s d (smax64 (s.getS a) (imm64 i))
def execSminu (g : KG) (d a b : BitVec 6) (s : State) : Out := kSet g 1 s d (umin64 (s.getS a) (s.getS b))
def execSminuImm (g : KG) (d a : BitVec 6) (i : BitVec 32) (s : State) : Out :=
  kSet g 2 s d (umin64 (s.getS a) (imm64 i))
def execSmaxu (g : KG) (d a b : BitVec 6) (s : State) : Out := kSet g 1 s d (umax64 (s.getS a) (s.getS b))
def execSmaxuImm (g : KG) (d a : BitVec 6) (i : BitVec 32) (s : State) : Out :=
  kSet g 2 s d (umax64 (s.getS a) (imm64 i))
def execScmp (g : KG) (d : BitVec 3) (a b : BitVec 6) (cc : BitVec 4) (s : State) : Out :=
  kDo g 1 s fun s => .ok (s.setQ d (scalarCond cc.toNat (s.getS a) (s.getS b)))
def execScmpImm (g : KG) (d : BitVec 3) (a : BitVec 6) (cc : BitVec 4) (i : BitVec 32) (s : State) : Out :=
  kDo g 2 s fun s => .ok (s.setQ d (scalarCond cc.toNat (s.getS a) (imm64 i)))
def execSsel (g : KG) (d a b : BitVec 6) (q : BitVec 3) (s : State) : Out :=
  kSet g 1 s d (if s.occ.getQ q.toNat then s.getS a else s.getS b)
def execQlog (g : KG) (d a b : BitVec 3) (f : BitVec 4) (s : State) : Out :=
  kDo g 1 s fun s => .ok (s.setQ d (truth f (s.occ.getQ a.toNat) (s.occ.getQ b.toNat)))

end Sys2Proof.Machine
end

