-- ==== Sys2Proof/Machine/Mem.lean ====
section
/-! DEFINITION. Loads and stores, atomics, fences, gather and scatter of the M engine (R170 to R180, R206), and the
instant at which a plain store takes effect (R342). -/

namespace Sys2Proof.Machine

/-- An M-engine instruction in its 32-bit (x none) or 64-bit form. -/
def mDo (op : Nat) (f : VF) (x : Option MX) (s : State) (body : MX → State → Act State) : Out :=
  finish .m (if x.isSome then 2 else 1) s (do
    s.checkCount (.mForm op f x)
    body (x.getD defaultMX) s)

/-- One that acts once for the group, when its guard enables a lane (R47, R170). -/
def mOnce (op : Nat) (f : VF) (x : Option MX) (s : State) (body : MX → State → Act State) : Out :=
  mDo op f x s fun x s => if s.lanes .m f = [] then .ok s else body x s

/-! ## Lane addresses (R56, R172) -/

/-- An access of a lane: its index in the instruction, the PEER core, the address and the memory key. -/
structure LaneAcc where
  lane : Nat
  k : Nat
  core : Nat
  addr : DWord
  key : Nat
  deriving DecidableEq, Repr

/-- PEER core and address of lane i by the operand of R56. -/
def State.laneAddr (s : State) (f : VF) (sp : Nat) (off : DWord) (i : Nat) : Nat × DWord :=
  let v : DWord := (s.occ.getV f.a.toNat i).setWidth 64
  if f.b.getLsbD 6 then
    let base := s.occ.getS (f.b.toNat % 64)
    if sp = 5 then (base.toNat % 2 ^ 16, v + off) else (0, base + v + off)
  else if sp = 0 then (0, s.occ.getPair f.a.toNat i + off)
  else (0, v + off)

/-- The checks of R172 on every access in order; the first that fails decides. -/
def State.laneAccs (s : State) (space n : Nat) (acc : Access) (atomic : Bool) (reqs : List (Nat × Nat × Nat × DWord)) :
    Act (List LaneAcc) :=
  reqs.mapM fun (lane, k, core, addr) => do
    let key ← s.keyOf space core lane addr n acc { k, atomic }
    .ok { lane, k, core, addr, key }

/-- Conservative ranges: one per space and core (R181). -/
def hull (rs : List Range) : List Range :=
  rs.foldl (fun out r =>
    if out.any fun q => q.space == r.space && q.core == r.core then
      out.map fun q => if q.space == r.space && q.core == r.core
        then { q with lo := min q.lo r.lo, hi := max q.hi r.hi, wr := q.wr || r.wr } else q
    else out ++ [r]) []

/-- Footprint and stream checks of the accesses of one instruction (R181, R200). -/
def State.checkAccs (s : State) (e : Eng) (space n : Nat) (acc : Access) (as : List LaneAcc) : Act Unit := do
  let rs := as.map fun a => s.range space a.core a.addr.toNat n acc.writes
  s.checkRanges (hull rs)
  if acc.writes then s.checkStreams e rs

/-- The bytes of a lane access, which must not be lost (R399). -/
def State.loadAcc (s : State) (n : Nat) (a : LaneAcc) : Act (Nat × Nat) := do
  s.checkLost a.addr a.key n
  .ok (a.lane, s.mem.getN a.key n)

/-- The state from which the accesses of a load read. -/
def State.forLoads (s : State) (n : Nat) (as : List LaneAcc) : State := s.settleLoads (as.map fun a => (a.key, n))

/-! ## Data registers (R54, R175) -/

/-- Sign extension of a loaded value to 32 bits (R175). -/
def extend (sz : Nat) (sx : Bool) (v : Nat) : Nat := if sx && sz < 2 then wrapInt (sextNat v (8 * 2 ^ sz)) 32 else v

/-- Write a register, a pair or a quad. -/
def Occ.putData (o : Occ) (sz d lane v : Nat) : Occ :=
  match sz with
  | 3 => o.setPair d lane (BitVec.ofNat 64 v)
  | 4 => (o.setPair d lane (BitVec.ofNat 64 v)).setPair (d + 2) lane (BitVec.ofNat 64 (v / 2 ^ 64))
  | _ => o.setV d lane (BitVec.ofNat 32 v)

def Occ.getData (o : Occ) (sz d lane : Nat) : Nat :=
  match sz with
  | 3 => (o.getPair d lane).toNat
  | 4 => (o.getPair d lane).toNat + (o.getPair (d + 2) lane).toNat * 2 ^ 64
  | _ => (o.getV d lane).toNat

def State.putLoads (s : State) (sz : Nat) (sx : Bool) (rs : List (Nat × Nat × Nat)) : State :=
  s.mapOcc fun o => rs.foldl (fun o (d, lane, v) => o.putData sz d lane (extend sz sx v)) o

def State.countReads (s : State) (n : Nat) (as : List LaneAcc) : State := as.foldl (fun s a => s.countRead a.key n) s

/-! ## Stores of several lanes to one place (R176) -/

/-- Of the writes to one place, one stays: which one is a free value. Answers the writes that stay, one for each place,
and the counter of free values. -/
def pickStores : Nat → Nat → List (Nat × List Byte) → List (Nat × List Byte) × Nat
  | 0, seq, _ => ([], seq)
  | _ + 1, seq, [] => ([], seq)
  | fuel + 1, seq, (k, b) :: l =>
    let same := l.filter (·.1 == k)
    if same = [] then
      let (r, q) := pickStores fuel seq l
      ((k, b) :: r, q)
    else
      let (r, q) := pickStores fuel (seq + 1) (l.filter (·.1 != k))
      (((k, b) :: same).getD (Config.freeLane seq % (same.length + 1)) (k, b) :: r, q)

/-- Lane stores: plain ones are issued, releases take effect at once behind everything earlier. -/
def State.putStores (s : State) (plain : Bool) (ws : List (Nat × List Byte)) : State :=
  let (w, q) := pickStores ws.length s.freeSeq ws
  let s := { s with freeSeq := q }
  if plain || ws.isEmpty then w.foldl (fun t c => t.issueStore s.occ.nextStore c.1 c.2) s
  else w.foldl (fun s c => (s.poke c.1 c.2).countWrite c.1 c.2.length) s.drain

/-- Loads of every enabled lane. -/
def laneLoad (op : Nat) (f : VF) (x : Option MX) (s : State) (space : MX → Nat)
    (addr : MX → State → Nat → Nat × DWord) : Out :=
  mDo op f x s fun x s => do
    let n := sizeBytes x.sz.toNat
    let as ← s.laneAccs (space x) n .read false ((s.lanes .m f).map fun i => (i, 0, addr x s i))
    s.checkAccs .m (space x) n .read as
    let s := s.forLoads n as
    let vs ← as.mapM (s.loadAcc n)
    .ok ((s.countReads n as).putLoads x.sz.toNat (x.c.getLsbD 0) (vs.map fun v => (f.d.toNat, v)))

/-- Stores of every enabled lane. -/
def laneStore (op : Nat) (f : VF) (x : Option MX) (s : State) (plain : Bool) (space : MX → Nat)
    (addr : MX → State → Nat → Nat × DWord) : Out :=
  mDo op f x s fun x s => do
    let n := sizeBytes x.sz.toNat
    let as ← s.laneAccs (space x) n .write false ((s.lanes .m f).map fun i => (i, 0, addr x s i))
    s.checkAccs .m (space x) n .write as
    .ok (s.putStores plain (as.map fun a => (a.key, toBytes n (s.occ.getData x.sz.toNat f.d.toNat a.lane))))

def spOf (x : MX) : Nat := x.sp.toNat
def off16 (x : MX) : DWord := x.imm.signExtend 64
def r56 (f : VF) (x : MX) (s : State) (i : Nat) : Nat × DWord := s.laneAddr f x.sp.toNat (off16 x) i

def execLd (f : VF) (s : State) : Out := laneLoad 0x00 f none s spOf (r56 f)
def execLd64 (f : VF) (x : MX) (s : State) : Out := laneLoad 0x00 f (some x) s spOf (r56 f)
def execSt (f : VF) (s : State) : Out := laneStore 0x01 f none s true spOf (r56 f)
def execSt64 (f : VF) (x : MX) (s : State) : Out := laneStore 0x01 f (some x) s true spOf (r56 f)
/-- LDS: an acquire (R174). -/
def execLds (f : VF) (x : MX) (s : State) : Out := laneLoad 0x02 f (some x) s spOf (r56 f)
/-- STS: a release (R174). -/
def execSts (f : VF) (x : MX) (s : State) : Out := laneStore 0x03 f (some x) s false spOf (r56 f)

/-- The offset of LDL and STL, one for every lane (R174). -/
def sliceAddr (f : VF) (x : MX) (s : State) (_i : Nat) : Nat × DWord :=
  (0, ((s.occ.getS f.a.toNat).setWidth 32).setWidth 64 + off16 x)

def execLdl (f : VF) (x : MX) (s : State) : Out := laneLoad 0x04 f (some x) s (fun _ => 4) (sliceAddr f)
def execStl (f : VF) (x : MX) (s : State) : Out := laneStore 0x05 f (some x) s true (fun _ => 4) (sliceAddr f)

/-! ## Uniform accesses (R174) -/

/-- The address of LDU, STU, SEMW and SEMS. -/
def State.uniformAddr (s : State) (f : VF) (x : MX) : DWord :=
  let base := s.occ.getS f.a.toNat
  (if x.sp = 0 then base else (base.setWidth 32).setWidth 64) + off16 x

/-- The PEER core s[b]. -/
def State.uniformCore (s : State) (f : VF) (x : MX) : Nat := if x.sp = 5 then (s.occ.getS f.b.toNat).toNat % 2 ^ 16 else 0

def vLdu (f : VF) (x : Option MX) (s : State) : Out :=
  mOnce 0x06 f x s fun x s => do
    let n := sizeBytes x.sz.toNat
    let (s, k, v) ← s.readAt .m x.sp.toNat (s.uniformCore f x) (s.uniformAddr f x) n
    .ok ((s.countRead k n).mapOcc (·.setS f.d.toNat
      (if x.c.getLsbD 1 then BitVec.ofInt 64 (sextNat v (8 * n)) else BitVec.ofNat 64 v)))
def execLdu (f : VF) (s : State) : Out := vLdu f none s
def execLdu64 (f : VF) (x : MX) (s : State) : Out := vLdu f (some x) s

def vStu (f : VF) (x : Option MX) (s : State) : Out :=
  mOnce 0x07 f x s fun x s => do
    let n := sizeBytes x.sz.toNat
    let as ← s.laneAccs x.sp.toNat n .write false [(0, 0, s.uniformCore f x, s.uniformAddr f x)]
    s.checkAccs .m x.sp.toNat n .write as
    .ok (s.putStores (!x.c.getLsbD 0) (as.map fun a => (a.key, toBytes n (s.occ.getS f.d.toNat).toNat)))
def execStu (f : VF) (s : State) : Out := vStu f none s
def execStu64 (f : VF) (x : MX) (s : State) : Out := vStu f (some x) s

/-! ## Atomics (R177 to R179) -/

/-- f(old, C) of R177. -/
def atomOp (aop sz old c : Nat) : Nat :=
  let n := 8 * 2 ^ sz
  let F := if sz = 3 then f64 else f32
  match aop with
  | 0 => c
  | 1 => (old + c) % 2 ^ n
  | 2 => old &&& c
  | 3 => old ||| c
  | 4 => old ^^^ c
  | 5 => if sextNat old n ≤ sextNat c n then old else c
  | 6 => if sextNat old n ≤ sextNat c n then c else old
  | 7 => min old c
  | 8 => max old c
  | 9 => if c ≤ old then 0 else old + 1
  | 10 => if old = 0 || c < old then c else old - 1
  | 11 => (F.round 0 (addNum 0 (F.decode old) (F.decode c))).code
  | 12 => F.pick false old c
  | _ => F.pick true old c

/-- The order in which the lanes of one atomic take effect: free when two of them meet at one location (R177). -/
def shuffleFrom {α : Type} : Nat → List α → List α
  | _, [] => []
  | seq, x :: l =>
    let r := shuffleFrom (seq + 1) l
    r.insertIdx (Config.freeOrder seq % (r.length + 1)) x

def State.atomOrder (s : State) (as : List LaneAcc) : State × List LaneAcc :=
  if (as.map (·.key)).Nodup then (s, as)
  else ({ s with freeSeq := s.freeSeq + as.length }, shuffleFrom s.freeSeq as)

/-- An atomic of every enabled lane: g gives what it writes, from the lane and the old value; none writes nothing. -/
def laneAtomic (op : Nat) (f : VF) (x : MX) (s : State) (g : State → Nat → Nat → Option Nat) : Out :=
  mDo op f (some x) s fun x s => do
    let n := sizeBytes x.sz.toNat
    let off : DWord := (x.imm.extractLsb' 0 12).signExtend 64
    let as ← s.laneAccs x.sp.toNat n .both true
      ((s.lanes .m f).map fun i => (i, 0, s.laneAddr f x.sp.toNat off i))
    s.checkAccs .m x.sp.toNat n .both as
    let u := if as.isEmpty then s else s.drain
    as.forM fun a => u.checkLost a.addr a.key n
    let (t, order) := u.atomOrder as
    .ok (order.foldl (fun t a =>
      let old := t.mem.getN a.key n
      let t := match g s a.lane old with
        | some new => (t.poke a.key (toBytes n new)).countWrite a.key n
        | none => t
      (t.countRead a.key n).mapOcc (·.putData x.sz.toNat f.d.toNat a.lane old)) t)

def execAtom (f : VF) (x : MX) (s : State) : Out :=
  laneAtomic 0x08 f x s fun s i old =>
    some (atomOp (x.imm.toNat / 4096) x.sz.toNat old (s.occ.getData x.sz.toNat x.c.toNat i))

/-- CAS: a failed comparison writes no memory. -/
def execCas (f : VF) (x : MX) (s : State) : Out :=
  laneAtomic 0x09 f x s fun s i old =>
    let c := x.c.toNat
    if old = s.occ.getData x.sz.toNat c i then some (s.occ.getData x.sz.toNat (if x.sz = 3 then c + 2 else c + 1) i)
    else none

/-- The groups that a scope of the group in focus contains (R35). -/
def State.inScope (s : State) (sc : Nat) (g : Group) : Bool :=
  match sc with
  | 0 => g.gid == s.me.gid
  | 1 => g.gid == s.me.gid || g.occ.team == s.occ.team
  | 2 => Config.coreDie g.place.core == s.die && Config.clusterOf g.place.core == Config.clusterOf s.me.place.core
  | 3 => Config.coreDie g.place.core == s.die
  | _ => true

/-- FENCE (R180). A load of this model takes effect at its issue, so that .ACQ (c[1:0] = 1) finds its order kept; .REL and .AR let every
earlier store take effect before anything later. At GROUP scope no order is asked for. -/
def vFence (f : VF) (x : Option MX) (s : State) : Out :=
  mOnce 0x0A f x s fun x s => .ok (if x.sc != 0 && x.c.toNat % 4 != 1 then s.drain else s)
def execFence (f : VF) (s : State) : Out := vFence f none s
def execFence64 (f : VF) (x : MX) (s : State) : Out := vFence f (some x) s

/-! ## Gather and scatter (R206) -/

/-- The accesses of every enabled lane, count to each, lane by lane. -/
def State.gathReqs (s : State) (f : VF) (x : MX) : List (Nat × Nat × Nat × DWord) :=
  let base := s.occ.getS (f.b.toNat % 64)
  let b : DWord := if x.sp = 0 then base else (base.setWidth 32).setWidth 64
  (s.lanes .m f).flatMap fun i => (List.range x.c.toNat).map fun k =>
    (i, k, 0, b + ((s.occ.getV (f.a.toNat + k) i).setWidth 64 <<< x.sz.toNat) + off16 x)

/-- The first register of element k. -/
def gathReg (f : VF) (x : MX) (k : Nat) : Nat := f.d.toNat + (if x.sz = 3 then 2 * k else k)

def execGath (f : VF) (x : MX) (s : State) : Out :=
  mDo 0x18 f (some x) s fun x s => do
    let n := sizeBytes x.sz.toNat
    let as ← s.laneAccs x.sp.toNat n .read false (s.gathReqs f x)
    s.checkAccs .m x.sp.toNat n .read as
    let s := s.forLoads n as
    let vs ← as.mapM fun a => do
      let (_, v) ← s.loadAcc n a
      .ok (gathReg f x a.k, a.lane, v)
    .ok ((s.countReads n as).putLoads x.sz.toNat false vs)

def execScat (f : VF) (x : MX) (s : State) : Out :=
  mDo 0x19 f (some x) s fun x s => do
    let n := sizeBytes x.sz.toNat
    let as ← s.laneAccs x.sp.toNat n .write false (s.gathReqs f x)
    s.checkAccs .m x.sp.toNat n .write as
    .ok (s.putStores true
      (as.map fun a => (a.key, toBytes n (s.occ.getData x.sz.toNat (gathReg f x a.k) a.lane))))

/-! ## A plain store takes effect (R342) -/

/-- Take store number index out of the pending ones, unless an earlier one writes one of its bytes (R336). -/
def takePending (p : Pending) (index : Nat) : Option (Store × Pending) :=
  match p[index]? with
  | none => none
  | some c =>
    if (p.take index).any fun d => decide (c.1 < d.1 + d.2.length) && decide (d.1 < c.1 + c.2.length) then none
    else some (c, p.eraseIdx index)

/-- ACCESS_TAKES_EFFECT (R342): one pending store of a group takes effect at its home. A load of this model takes
effect at its issue (log 24). -/
def execAccessTakesEffect (gid index : Nat) (s : State) : Out :=
  match s.group? gid with
  | none => .next s
  | some g =>
    match takePending g.occ.stores index with
    | none => .next s
    | some (c, rest) =>
      let more := rest.any fun d => d.cmd == c.cmd && d.key / 32 == c.key / 32
      let s := if more then s.tear gid c.cmd false c.key else s
      .next ((s.poke c.key c.bytes).modGroup gid fun g => { g with occ := { g.occ with stores := rest } })

end Sys2Proof.Machine
end

