-- ==== Sys2Proof/Machine/Beam.lean ====
section
/-! DEFINITION. The B engine: scenes, traversal, guide values and guide tiles (R263 to R280), and ordered sections
(R281 to R284). Geometry is exact, in rationals. -/

namespace Sys2Proof.Machine

/-! ## Exact vectors -/

structure V3 where
  x : Rat
  y : Rat
  z : Rat
  deriving DecidableEq, Repr

def V3.add (a b : V3) : V3 := ⟨a.x + b.x, a.y + b.y, a.z + b.z⟩
def V3.sub (a b : V3) : V3 := ⟨a.x - b.x, a.y - b.y, a.z - b.z⟩
def V3.scale (k : Rat) (a : V3) : V3 := ⟨k * a.x, k * a.y, k * a.z⟩
def V3.dot (a b : V3) : Rat := a.x * b.x + a.y * b.y + a.z * b.z
def V3.cross (a b : V3) : V3 := ⟨a.y * b.z - a.z * b.y, a.z * b.x - a.x * b.z, a.x * b.y - a.y * b.x⟩
def V3.list (a : V3) : List Rat := [a.x, a.y, a.z]

/-- The value of a finite number. -/
def Num.rat? : Num → Option Rat
  | .fin neg m e _ =>
    let a : Rat := if 0 ≤ e then mkRat (m * 2 ^ e.toNat : Nat) 1 else mkRat (m : Int) (2 ^ (-e).toNat)
    some (if neg then -a else a)
  | _ => none

/-- A rational number as a value to be rounded. -/
def Num.ofRat (q : Rat) : Num := quotient (decide (q < 0)) q.num.natAbs q.den 0

/-- A rational number, an infinity or a NaN: what the pseudocode computes with (R75). -/
inductive Ext where
  | fin (q : Rat)
  | inf (neg : Bool)
  | nan
  deriving DecidableEq, Repr

def Num.ext (x : Num) : Ext :=
  match x with
  | .nan => .nan
  | .inf neg => .inf neg
  | x => match x.rat? with | some q => .fin q | none => .nan

def Ext.num : Ext → Num
  | .fin q => Num.ofRat q
  | .inf neg => .inf neg
  | .nan => .nan

def Ext.add : Ext → Ext → Ext
  | .fin a, .fin b => .fin (a + b)
  | .fin _, x => x
  | x, .fin _ => x
  | .inf a, .inf b => if a = b then .inf a else .nan
  | _, _ => .nan

def Ext.scale (k : Rat) : Ext → Ext
  | .fin q => .fin (k * q)
  | .inf neg => if k = 0 then .nan else .inf (neg != decide (k < 0))
  | .nan => .nan

/-- The quotient by a value above 0. -/
def Ext.over : Ext → Ext → Ext
  | .fin a, .fin b => .fin (a / b)
  | .fin _, .inf _ => .fin 0
  | .inf neg, .fin _ => .inf neg
  | _, _ => .nan

/-- Bytes [off, off + n) of a structure as a number. -/
def bytesAt (bs : List Byte) (off n : Nat) : Nat := ofBytes ((bs.drop off).take n)

def floatAt (bs : List Byte) (off : Nat) : Num := f32.decode (bytesAt bs off 4)
def pointAt (bs : List Byte) (off : Nat) : List Num := [floatAt bs off, floatAt bs (off + 4), floatAt bs (off + 8)]

/-- A vector whose three values are finite. -/
def V3.of? : List Num → Option V3
  | [a, b, c] => do some ⟨← a.rat?, ← b.rat?, ← c.rat?⟩
  | _ => none

def vecAt (bs : List Byte) (off : Nat) : Option V3 := V3.of? (pointAt bs off)

/-! ## The scene descriptor (R263) -/

abbrev Desc := List Byte

def Desc.tx (d : Desc) : Nat := bytesAt d 112 2
def Desc.ty (d : Desc) : Nat := bytesAt d 114 2
def Desc.root (d : Desc) : Nat := bytesAt d 0 8
def Desc.tmin (d : Desc) : Num := floatAt d 56
def Desc.tmax (d : Desc) : Num := floatAt d 60

/-- TX and TY in range, the reserved fields 0: that of the descriptor, and that of its ROOT reference (R264, R266). -/
def Desc.ok (d : Desc) : Bool :=
  decide (1 ≤ d.tx) && decide (d.tx ≤ 8192) && decide (1 ≤ d.ty) && decide (d.ty ≤ 8192) && bytesAt d 116 12 == 0
    && bitsOf d.root 61 54 == 0

/-- The camera: origin, U, V and W, when all are finite. -/
structure Camera where
  o : V3
  u : V3
  v : V3
  w : V3
  deriving DecidableEq, Repr

def Desc.camera (d : Desc) : Option Camera := do
  some { o := ← vecAt d 8, u := ← vecAt d 20, v := ← vecAt d 32, w := ← vecAt d 44 }

/-- The ray direction at image coordinates (x, y) (R267, R273). -/
def Camera.dir (c : Camera) (x y : Rat) : V3 := (c.w.add (c.u.scale x)).add (c.v.scale y)

/-! ## Nodes and records (R264 to R266) -/

inductive Ref where
  | empty
  | node (a : DWord)
  | leaf (a : DWord) (count : Nat)
  deriving DecidableEq, Repr

/-- A child reference; none when it is one that R266 refuses. -/
def Ref.of? (x : Nat) : Option Ref :=
  let a : DWord := (BitVec.ofNat 48 x).signExtend 64
  if bitsOf x 61 54 ≠ 0 then none
  else match bitsOf x 63 62 with
    | 0 => some .empty
    | 1 => if a.toNat % 64 = 0 then some (.node a) else none
    | 2 => if a.toNat % 16 = 0 then some (.leaf a (bitsOf x 53 48 + 1)) else none
    | _ => none

structure Child where
  lo : List Num
  hi : List Num
  ref : Ref
  deriving DecidableEq, Repr

/-- A box that is never entered: a minimum above its maximum, or a NaN. -/
def Child.void (c : Child) : Bool :=
  (c.lo.zip c.hi).any fun p => match cmpNum p.1 p.2 with | none => true | some o => o == .gt

/-- Bytes of GLOBAL memory that a B instruction reads, in pieces of 16 bytes. -/
def State.readScene (s : State) (lane : Nat) (a : DWord) : Nat → Act (List Byte)
  | 0 => .ok []
  | n + 1 => do
    let k ← s.keyOf 0 0 lane a 16 .read {}
    s.checkLost a k 16
    let r ← s.readScene lane (a + 16) n
    .ok (s.peekBytes k 16 ++ r)

/-- What a traversal has read: GLOBAL addresses, and how many pieces of 16 bytes at each. -/
abbrev Reads := List (DWord × Nat)

/-- The reads of a B instruction that has an effect are counted (R434). -/
def State.countScene (s : State) (rs : Reads) : State :=
  rs.foldl (fun (t : State) r => (List.range r.2).foldl (fun (t : State) j =>
    match s.keyOf 0 0 0 (r.1 + BitVec.ofNat 64 (16 * j)) 16 .read {} with
    | .ok k => t.countRead k 16
    | .error _ => t) t) s

/-- A defect of a node or record: fault 0x0B at its address (R266). -/
def badScene (a : DWord) : Stop := .trap 0x0B 0 a

def allSome {α : Type} : List (Option α) → Option (List α)
  | [] => some []
  | none :: _ => none
  | some a :: l => (allSome l).map (a :: ·)

/-- The children of a node, the void ones as empty. -/
def State.readNode (s : State) (lane : Nat) (a : DWord) : Act (List Child) := do
  let bs ← s.readScene lane a 8
  match allSome ((List.range 4).map fun j => Ref.of? (bytesAt bs (96 + 8 * j) 8)) with
  | none => .error (badScene a)
  | some rs =>
    .ok (((List.range 4).zip rs).map fun (j, r) =>
      let c : Child := { lo := pointAt bs (24 * j), hi := pointAt bs (24 * j + 12), ref := r }
      if c.void then { c with ref := .empty } else c)

/-- A triangle record: its address and its 48 bytes. -/
abbrev Record := DWord × List Byte

def State.readRecord (s : State) (lane : Nat) (a : DWord) : Act Record := do
  let bs ← s.readScene lane a 3
  require (bytesAt bs 44 4 == 0) (badScene a)
  .ok (a, bs)

def State.readLeaf (s : State) (lane : Nat) (a : DWord) (n : Nat) : Act (List Record) :=
  (List.range n).mapM fun j => s.readRecord lane (a + BitVec.ofNat 64 (48 * j))

/-! ## Rays and hits (R267) -/

/-- Exact limits of the ray parameter; none where a side is unbounded. -/
structure Ray where
  o : V3
  d : V3
  least : Option Rat
  greatest : Option Rat
  deriving DecidableEq, Repr

/-- The ray of a pixel; none where no finite parameter can be accepted. -/
def Desc.ray (d : Desc) (px py : Nat) : Option Ray := do
  let c ← d.camera
  let lo ← match d.tmin with | .inf true => some none | x => x.rat?.map some
  let hi ← match d.tmax with | .inf false => some none | x => x.rat?.map some
  some { o := c.o, d := c.dir (px + 1 / 2) (py + 1 / 2), least := lo, greatest := hi }

/-- lo ≤ x, x ≤ hi, where none is no limit. -/
def above (lo : Option Rat) (x : Rat) : Bool := match lo with | some l => decide (l ≤ x) | none => true
def below (x : Rat) (hi : Option Rat) : Bool := match hi with | some h => decide (x ≤ h) | none => true

structure Hit where
  t : Rat
  rcd : Record
  deriving DecidableEq, Repr

/-- PID. DESIGN CHOICE (log 15): a PID of 0xFFFF_FFFF, which R265 does not allow and for which no rule names a fault or an effect, is taken
as any other. -/
def Record.pid (r : Record) : Nat := bytesAt r.2 36 4

/-- The edges and first vertex of a triangle whose coordinates are finite. -/
def Record.triangle (r : Record) : Option (V3 × V3 × V3) := do
  let a ← vecAt r.2 0
  let b ← vecAt r.2 12
  let c ← vecAt r.2 24
  some (a, b.sub a, c.sub a)

/-- The parameter at which a ray hits a triangle. -/
def Ray.hits (ray : Ray) (r : Record) : Option Rat := do
  let (v, e1, e2) ← Record.triangle r
  let p := ray.d.cross e2
  let det := e1.dot p
  if det = 0 then none
  else
    let w := ray.o.sub v
    let q := w.cross e1
    let b1 := w.dot p / det
    let b2 := ray.d.dot q / det
    let t := e2.dot q / det
    if 0 ≤ b1 ∧ 0 ≤ b2 ∧ b1 + b2 ≤ 1 ∧ above ray.least t ∧ below t ray.greatest then some t else none

/-- The lesser t, then the lower PID, then the lower address. -/
def Hit.before (a b : Hit) : Bool :=
  decide (a.t < b.t) || (a.t == b.t && (decide (Record.pid a.rcd < Record.pid b.rcd)
    || (Record.pid a.rcd == Record.pid b.rcd && decide (a.rcd.1.toNat < b.rcd.1.toNat))))

def Ray.best (ray : Ray) (best : Option Hit) (r : Record) : Option Hit :=
  match ray.hits r, best with
  | some t, none => some ⟨t, r⟩
  | some t, some h => if Hit.before ⟨t, r⟩ h then some ⟨t, r⟩ else some h
  | none, b => b

/-! ## Guide values (R268, R269) -/

structure Guide where
  id : Nat
  depth : Nat
  normal : Nat
  motion : Nat
  deriving DecidableEq, Repr

def Guide.miss : Guide := { id := 0xFFFFFFFF, depth := 0x7C00, normal := 0, motion := 0 }

def signRat (x : Rat) : Rat := if x < 0 then -1 else 1
def absRat (x : Rat) : Rat := if x < 0 then -x else x

def snorm (x : Rat) : Nat := wrapInt (numToInt true 32 0 (Num.ofRat (x * 32767))).1 16

def guideNormal (ray : Ray) (e1 e2 : V3) : Nat :=
  let n := e1.cross e2
  let n := if 0 < n.dot ray.d then n.scale (-1) else n
  let l := absRat n.x + absRat n.y + absRat n.z
  let ax := n.x / l
  let ay := n.y / l
  let (ex, ey) := if 0 ≤ n.z then (ax, ay) else ((1 - absRat ay) * signRat ax, (1 - absRat ax) * signRat ay)
  snorm ex + snorm ey * 2 ^ 16

/-- A motion component: the projected coordinate less the pixel centre, plus the bias; a NaN is the canonical one (R72). -/
def motionPart (x w : Ext) (centre : Rat) (bias : Nat) : Nat :=
  (f16.round 0 (((x.over w).add (.fin (-centre))).add (f16.decode bias).ext).num).code

/-- MOTION (R268). Where w' is a NaN, which is neither above 0 nor not, the rule gives no value: it is free (log 15). -/
def guideMotion (d : Desc) (ray : Ray) (h : Hit) (px py : Nat) : Nat :=
  let p := ray.o.add (ray.d.scale h.t)
  let m (k : Nat) : Ext := (floatAt d (64 + 4 * k)).ext
  let row (k : Nat) : Ext := (((m k).scale p.x).add ((m (k + 1)).scale p.y)).add (((m (k + 2)).scale p.z).add (m (k + 3)))
  let bias := bytesAt h.rcd.2 40 4
  let parts (w : Ext) : Nat :=
    motionPart (row 0) w (px + 1 / 2) (bias % 2 ^ 16) + motionPart (row 4) w (py + 1 / 2) (bias / 2 ^ 16) * 2 ^ 16
  match row 8 with
  | .nan => (Config.freeMotion d px py h.rcd.1).toNat
  | .inf true => 0
  | .inf false => parts (.inf false)
  | .fin w => if w ≤ 0 then 0 else parts (.fin w)

def Desc.guide (d : Desc) (px py : Nat) (ray : Ray) : Option Hit → Guide
  | none => .miss
  | some h =>
    match Record.triangle h.rcd with
    | none => .miss
    | some (_, e1, e2) =>
      { id := Record.pid h.rcd, depth := (f16.round 0 (Num.ofRat h.t)).code, normal := guideNormal ray e1 e2,
        motion := guideMotion d ray h px py }

/-- The guide values of a pixel over a list of candidates (R274). -/
def Desc.pixel (d : Desc) (px py : Nat) (rs : List Record) : Guide :=
  match d.ray px py with
  | none => .miss
  | some ray => d.guide px py ray (rs.foldl ray.best none)

/-! ## RAY's traversal (R276) -/

/-- The parameters at which a ray is between two bounds of an axis; none when it never is. -/
def slab (o d : Rat) (lo hi : Num) : Option (Option Rat × Option Rat) :=
  let bound (b : Num) : Option Rat := b.rat?.map fun x => (x - o) / d
  if lo = .inf false || hi = .inf true then none
  else if d = 0 then
    (if (match lo.rat? with | some l => decide (l ≤ o) | none => true)
        && (match hi.rat? with | some h => decide (o ≤ h) | none => true) then some (none, none) else none)
  else if d < 0 then some (bound hi, bound lo)
  else some (bound lo, bound hi)

def maxLow (a b : Option Rat) : Option Rat :=
  match a, b with
  | some x, some y => some (max x y)
  | some x, none => some x
  | none, y => y

def minHigh (a b : Option Rat) : Option Rat :=
  match a, b with
  | some x, some y => some (min x y)
  | some x, none => some x
  | none, y => y

/-- Where a ray enters a box within [TMIN, best t]: none when it does not. -/
def Ray.entry (ray : Ray) (best : Option Rat) (c : Child) : Option (Option Rat) := do
  let axes := (ray.o.list.zip ray.d.list).zip (c.lo.zip c.hi)
  let (lo, hi) ← axes.foldlM (fun (r : Option Rat × Option Rat) a => do
    let (l, h) ← slab a.1.1 a.1.2 a.2.1 a.2.2
    some (maxLow r.1 l, minHigh r.2 h)) (ray.least, best)
  match lo, hi with
  | some l, some h => if l ≤ h then some (some l) else none
  | l, _ => some l

/-- Nearer entry first; an entry without bound is the nearest. -/
def nearer (a b : Option Rat) : Bool :=
  match a, b with
  | _, none => false
  | none, some _ => true
  | some x, some y => decide (x < y)

def insertEntry (x : Option Rat × Ref) : List (Option Rat × Ref) → List (Option Rat × Ref)
  | [] => [x]
  | y :: l => if nearer y.1 x.1 then y :: insertEntry x l else x :: y :: l

/-- The least greatest parameter so far. -/
def Ray.limit (ray : Ray) (best : Option Hit) : Option Rat := match best with | some h => some h.t | none => ray.greatest

/-- RAY in one lane: the reference to enter and those on the ray stack; answers the hit, whether the stack was used, and what was read.
A stack beyond D entries is fault 0x07. A traversal that does not end within the fuel does not end (log 15). -/
def State.trace (s : State) (lane depth : Nat) (ray : Ray) :
    Nat → List (Option Rat × Ref) → Option Hit → Bool → Reads → Act ((Option Hit × Bool) × Reads)
  | 0, _, _, _, _ => .error (.wait 0 0 0 0)
  | _ + 1, [], best, used, reads => .ok ((best, used), reads)
  | fuel + 1, (entry, ref) :: rest, best, used, reads =>
    if !(match entry with | some e => below e (ray.limit best) | none => true) then
      s.trace lane depth ray fuel rest best used reads
    else match ref with
      | .empty => s.trace lane depth ray fuel rest best used reads
      | .leaf a n => do
        let rs ← s.readLeaf lane a n
        s.trace lane depth ray fuel rest (rs.foldl ray.best best) used ((a, 3 * n) :: reads)
      | .node a => do
        let cs ← s.readNode lane a
        let es := (cs.filter (·.ref != .empty)).filterMap fun c => (ray.entry (ray.limit best) c).map fun e => (e, c.ref)
        let next := es.foldr insertEntry [] ++ rest
        let size := s.occ.lanePriv
        require (decide (next.length ≤ depth + 1))
          (.trap 7 ({ lane, write := true } : MemInfo).bits
            (BitVec.ofNat 64 ((size + 2 ^ 32 - 8 * depth % 2 ^ 32 - 8) % 2 ^ 32)))
        s.trace lane depth ray fuel next best (used || decide (2 ≤ next.length)) ((a, 8) :: reads)

def traceFuel : Nat := 2 ^ 64

/-! ## BEAM's traversal (R273) -/

/-- Inward normals of the four planes of a tile's frustum; a plane that has no inner side culls nothing. DESIGN CHOICE (log 15): with
TMIN below 0 a ray may hit behind O, outside these planes, where R274 says that a hit always lies inside the frustum; the planes of R273
decide. -/
def Camera.planes (c : Camera) (tx ty : Nat) : List V3 :=
  let x0 : Rat := 8 * tx
  let y0 : Rat := 8 * ty
  let d00 := c.dir x0 y0
  let d10 := c.dir (x0 + 8) y0
  let d01 := c.dir x0 (y0 + 8)
  let d11 := c.dir (x0 + 8) (y0 + 8)
  let plane (a b inner : V3) : V3 :=
    let n := a.cross b
    let side := n.dot inner
    if side = 0 then ⟨0, 0, 0⟩ else if side < 0 then n.scale (-1) else n
  [plane d00 d01 d10, plane d10 d11 d00, plane d00 d10 d01, plane d01 d11 d00]

/-- A point lies strictly on the outer side of a plane through o. DESIGN CHOICE (log 15): a point with infinite coordinates is outside
where its infinite terms all lie outward, and one with a NaN never is, so that BEAM may make such a triangle, which no ray hits (R267), a
candidate. -/
def outside (n o : V3) (p : List Num) : Bool :=
  let ts := ((n.list.zip o.list).zip p).filter fun t => t.1.1 != 0
  let wild := ts.filter fun t => t.2.rat?.isNone
  if wild.isEmpty then decide (ts.foldl (fun a t => a + t.1.1 * (t.2.rat?.getD 0 - t.1.2)) 0 < 0)
  else wild.all fun t => match t.2 with | .inf neg => neg != decide (t.1.1 < 0) | _ => false

/-- The corner of a box that lies furthest inward of a plane. -/
def Child.corner (c : Child) (n : V3) : List Num := (n.list.zip (c.lo.zip c.hi)).map fun t => if 0 < t.1 then t.2.2 else t.2.1

def cullBox (ps : List V3) (o : V3) (c : Child) : Bool := ps.any fun n => outside n o (c.corner n)

def cullRecord (ps : List V3) (o : V3) (r : Record) : Bool :=
  ps.any fun n => [0, 12, 24].all fun off => outside n o (pointAt r.2 off)

/-- The records of a leaf, one after the other: candidates gain those that are not culled, up to 64. Answers whether one more would
pass 64, and what was read; the records behind it are not read. -/
def State.castLeaf (s : State) (ps : List V3) (o : V3) (a : DWord) :
    Nat → List Record → Reads → Act ((List Record × Bool) × Reads)
  | 0, cs, reads => .ok ((cs, false), reads)
  | n + 1, cs, reads => do
    let r ← s.readRecord 0 a
    let reads := (a, 3) :: reads
    if cullRecord ps o r then s.castLeaf ps o (a + 48) n cs reads
    else if 64 ≤ cs.length then .ok ((cs, true), reads)
    else s.castLeaf ps o (a + 48) n (cs ++ [r]) reads

/-- BEAM from references still to be entered: candidates, SPLIT, and what was read. -/
def State.cast (s : State) (ps : List V3) (o : V3) :
    Nat → List Ref → List Record → Reads → Act ((List Record × Bool) × Reads)
  | 0, _, _, _ => .error (.wait 0 0 0 0)
  | _ + 1, [], cs, reads => .ok ((cs, false), reads)
  | fuel + 1, ref :: rest, cs, reads =>
    match ref with
    | .empty => s.cast ps o fuel rest cs reads
    | .leaf a n => do
      let ((cs, split), reads) ← s.castLeaf ps o a n cs reads
      if split then .ok ((cs, true), reads) else s.cast ps o fuel rest cs reads
    | .node a => do
      let children ← s.readNode 0 a
      let reads := (a, 8) :: reads
      let next := ((children.filter fun c => c.ref != .empty && !cullBox ps o c).map (·.ref)) ++ rest
      if 65 < next.length then .ok ((cs, true), reads) else s.cast ps o fuel next cs reads

/-! ## Shapes -/

/-- A B-engine instruction in its 32-bit (x none) or 64-bit form, when its guard enables a lane (R47). -/
def bDo (op : Nat) (f : VF) (x : Option VX) (s : State) (body : VX → State → Act State) : Out :=
  finish .b (if x.isSome then 2 else 1) s (do
    s.checkCount (.vForm .b op f x false)
    if s.lanes .b f = [] then .ok s else body (x.getD (defaultVX op)) s)

def State.bAt (s : State) (code : Nat) (info : DWord := 0) : Stop := s.faultAt .b code info

def State.bReg (s : State) (f : VF) : DWord := s.occ.getS (f.b.toNat % 64)

/-- Reads over the whole GLOBAL space wait for commands that write it (R271). -/
def State.sceneRange (s : State) : Act Unit := s.checkRanges [s.range 0 0 0 (2 ^ 64) false]

def BeamSlot.none : BeamSlot := { valid := false, split := false, tx := 0, ty := 0, cands := [] }
def Occ.beam (o : Occ) (x : VX) : BeamSlot := o.beams.getD (x.c.toNat % 16) BeamSlot.none

/-- Eight-byte parts of bytes, with their offsets. -/
def eights (bs : List Byte) : List (Nat × List Byte) :=
  (List.range ((bs.length + 7) / 8)).map fun i => (8 * i, (bs.drop (8 * i)).take 8)

/-- The tile base and the keys of the sixteen 64-byte pieces of its tile (R271). -/
def State.tileKeys (s : State) (f : VF) : Act (List Nat) := do
  let base : DWord := ((s.bReg f).setWidth 32).setWidth 64
  let i : MemInfo := { write := true }
  require (base.toNat % 64 == 0) (.trap 4 i.bits base)
  let ks ← (List.range 16).mapM fun j =>
    match s.keyOf 1 0 0 (base + BitVec.ofNat 64 (64 * j)) 64 .write {} with
    | .ok k => (.ok k : Act Nat)
    | .error _ => .error (.trap 7 i.bits base)
  let rs := s.spanRanges 1 0 base.toNat (base.toNat + 1024) true
  s.checkRanges rs
  s.checkStreams .b rs
  .ok ks

/-- Plain stores into a tile: offset and bytes, none of which crosses a 64-byte piece. -/
def State.putTile (s : State) (ks : List Nat) (ws : List (Nat × List Byte)) : State :=
  ws.foldl (fun t w => t.issueStore s.occ.nextStore (ks.getD (w.1 / 64) 0 + w.1 % 64) w.2) s

/-- The values of pixel q of a tile, with their offsets (R269). -/
def Guide.parts (g : Guide) (q : Nat) : List (Nat × List Byte) :=
  [(4 * q, toBytes 4 g.id), (256 + 2 * q, toBytes 2 g.depth), (384 + 4 * q, toBytes 4 g.normal),
   (640 + 4 * q, toBytes 4 g.motion)]

/-- TILE and the reserved bytes. -/
def tileTail (tx ty : Nat) : List (Nat × List Byte) :=
  (896, toBytes 2 tx ++ toBytes 2 ty) :: (900, toBytes 4 0) :: (List.range 15).map fun i => (904 + 8 * i, toBytes 8 0)

/-! ## Scenes and beams -/

def execBvhset (f : VF) (x : VX) (s : State) : Out :=
  bDo 0x00 f (some x) s fun x s => do
    let a := s.bReg f
    require (a.toNat % 64 == 0) (.trap 4 ({} : MemInfo).bits a)
    let d := x.imm.toNat
    require (decide (8 * d ≤ s.occ.lanePriv))
      (.trap 7 ({} : MemInfo).bits (BitVec.ofNat 64 ((s.occ.lanePriv + 2 ^ 32 - 8 * d) % 2 ^ 32)))
    s.sceneRange
    let s := s.drain
    let bs ← s.readScene 0 a 8
    require (Desc.ok bs) (badScene a)
    .ok ((s.countScene [(a, 8)]).mapOcc fun o => { o with scene := some (a, bs), rayDepth := d, beams := [] })

/-- The scene of the occupant in focus. -/
def State.scene (s : State) (info : DWord := 0) : Act (DWord × Desc) :=
  match s.occ.scene with
  | some d => .ok d
  | none => .error (s.bAt 0x0B info)

/-- The root of a scene as a reference; a defect is one of the descriptor (R266). -/
def rootRef (sc : DWord × Desc) : Act Ref :=
  match Ref.of? (Desc.root sc.2) with
  | some r => .ok r
  | none => .error (badScene sc.1)

def execBeam (f : VF) (x : VX) (s : State) : Out :=
  bDo 0x01 f (some x) s fun x s => do
    let t := (s.bReg f).toNat
    let tx := bitsOf t 15 0
    let ty := bitsOf t 31 16
    let sc ← s.scene
    require (t / 2 ^ 32 == 0 && decide (tx < Desc.tx sc.2) && decide (ty < Desc.ty sc.2)) (s.bAt 0x0B)
    s.sceneRange
    let s := s.drain
    let root ← rootRef sc
    let (ps, o) := match Desc.camera sc.2 with
      | some c => (c.planes tx ty, c.o)
      | none => ([], ⟨0, 0, 0⟩)
    let ((cands, split), reads) ← s.cast ps o traceFuel [root] [] []
    .ok ((s.countScene reads).mapOcc fun o => { o with
      beams := setAt BeamSlot.none o.beams (x.c.toNat % 16) { valid := true, split, tx, ty, cands } })

/-! ## RAY -/

/-- RAY in one lane: the guide values and whether the ray stack was used, and what was read. -/
def State.rayLane (s : State) (sc : DWord × Desc) (px py lane : Nat) : Act ((Guide × Bool) × Reads) :=
  match Desc.ray sc.2 px py with
  | none => .ok ((.miss, false), [])
  | some ray => do
    let root ← rootRef sc
    let ((h, used), reads) ← s.trace lane s.occ.rayDepth ray traceFuel [(ray.least, root)] none false []
    .ok ((Desc.guide sc.2 px py ray h, used), reads)

/-- After a traversal that used it, each byte of a lane's ray stack is open (R276, log 14). -/
def State.scribble (s : State) (lane : Nat) : State :=
  let n := 8 * s.occ.rayDepth
  let k := laneKey s.occ.lanePrivBase lane (s.occ.lanePriv - n)
  let t := s.poke k ((List.range n).map fun j => Config.freeByte (s.freeSeq + j))
  { t with freeSeq := s.freeSeq + n }

def vRay (f : VF) (x : Option VX) (s : State) : Out :=
  bDo 0x02 f x s fun _ s => do
    let ls := s.lanes .b f
    let first := BitVec.ofNat 64 (ls.headD 0)
    let sc ← s.scene first
    require (s.occ.rayDepth != 0) (s.bAt 0x0B first)
    let px (i : Nat) : Nat := (s.occ.getV f.a.toNat i).toNat % 2 ^ 16
    let py (i : Nat) : Nat := (s.occ.getV f.a.toNat i).toNat / 2 ^ 16
    ls.forM fun i =>
      require (decide (px i < 8 * Desc.tx sc.2) && decide (py i < 8 * Desc.ty sc.2)) (s.bAt 0x0B (BitVec.ofNat 64 i))
    s.sceneRange
    let stack := [s.range 4 0 (s.occ.lanePriv - 8 * s.occ.rayDepth) (8 * s.occ.rayDepth) true]
    s.checkRanges stack
    s.checkStreams .b stack
    let s := s.drain
    let rays ← ls.mapM fun i => (s.rayLane sc (px i) (py i) i).map fun g => (i, g)
    let s := s.countScene (rays.flatMap fun r => r.2.2)
    let gs := rays.map fun r => (r.1, r.2.1)
    let s := gs.foldl (fun (s : State) g => if g.2.2 then s.scribble g.1 else s) s
    let d := f.d.toNat
    .ok (s.mapOcc fun o => gs.foldl (fun o g =>
      let w (x : Nat) : Word := BitVec.ofNat 32 x
      (((o.setV d g.1 (w g.2.1.id)).setV (d + 1) g.1 (w g.2.1.depth)).setV (d + 2) g.1 (w g.2.1.normal)).setV (d + 3) g.1
        (w g.2.1.motion)) o)

def execRay (f : VF) (s : State) : Out := vRay f none s
def execRay64 (f : VF) (x : VX) (s : State) : Out := vRay f (some x) s

/-! ## Slots to lanes and tiles -/

/-- base + W stays within 64. -/
def State.baseOk (s : State) (x : VX) : Bool := decide (x.imm.toNat % 64 + s.occ.width ≤ 64)

def execBres (f : VF) (x : VX) (s : State) : Out :=
  bDo 0x03 f (some x) s fun x s => do
    let b := s.occ.beam x
    require (b.valid && s.baseOk x) (s.bAt 0x0B)
    .ok (s.mapOcc fun o => (s.lanes .b f).foldl (fun o i =>
      o.setPair f.d.toNat i (match b.cands[x.imm.toNat % 64 + i]? with | some r => r.1 | none => 0)) o)

def execBsplit (f : VF) (x : VX) (s : State) : Out :=
  bDo 0x04 f (some x) s fun x s => do
    let b := s.occ.beam x
    require (b.valid && s.baseOk x) (s.bAt 0x0B)
    .ok (s.mapOcc (·.putV f.d.toNat (s.lanes .b f) fun i =>
      let q := x.imm.toNat % 64 + i
      BitVec.ofNat 32 ((8 * b.tx + q % 8) + (8 * b.ty + q / 8) * 2 ^ 16)))

/-- COVER. DESIGN CHOICE (log 67): the faults of the tile base (0x04, 0x07, R271) come before that of the slot (0x0B, R274). -/
def execCover (f : VF) (x : VX) (s : State) : Out :=
  bDo 0x05 f (some x) s fun x s => do
    let ks ← s.tileKeys f
    let b := s.occ.beam x
    require (b.valid && !b.split) (s.bAt 0x0B)
    let sc ← s.scene
    let parts := (List.range 64).flatMap fun q =>
      (Desc.pixel sc.2 (8 * b.tx + q % 8) (8 * b.ty + q / 8) b.cands).parts q
    .ok (s.putTile ks (parts ++ tileTail b.tx b.ty))

/-- GBST; its faults in the order of COVER's (log 67). -/
def execGbst (f : VF) (x : VX) (s : State) : Out :=
  bDo 0x08 f (some x) s fun x s => do
    let ks ← s.tileKeys f
    let b := s.occ.beam x
    let base := x.imm.toNat % 64
    require (s.baseOk x && (base != 0 || b.valid)) (s.bAt 0x0B)
    let v (r i : Nat) : Nat := (s.occ.getV (f.a.toNat + r) i).toNat
    let parts := (s.lanes .b f).flatMap fun i =>
      ({ id := v 0 i, depth := v 1 i % 2 ^ 16, normal := v 2 i, motion := v 3 i } : Guide).parts (base + i)
    .ok (s.putTile ks (parts ++ if base = 0 then tileTail b.tx b.ty else []))

/-! ## BSTAT (R279) -/

def bStat (f : VF) (x : VX) (s : State) (g : Occ → DWord) : Out :=
  bDo 0x09 f (some x) s fun _ s => .ok (s.mapOcc fun o => o.setS (f.d.toNat % 64) (g o))

def execBstatSlot (f : VF) (x : VX) (s : State) : Out :=
  bStat f x s fun o =>
    let b := o.beam x
    BitVec.ofNat 64 (b.cands.length + b.valid.toNat * 2 ^ 8 + b.split.toNat * 2 ^ 9 + b.tx * 2 ^ 16 + b.ty * 2 ^ 32)
def execBstatScene (f : VF) (x : VX) (s : State) : Out :=
  bStat f x s fun o => match o.scene with | some (a, _) => a | none => 0
def execBstatDepth (f : VF) (x : VX) (s : State) : Out := bStat f x s fun o => BitVec.ofNat 64 o.rayDepth
def execBstatOrd (f : VF) (x : VX) (s : State) : Out :=
  bStat f x s fun o => match o.token with | some (_, n) => BitVec.ofNat 64 (n + 2 ^ 63) | none => 0
def execBstatOrda (f : VF) (x : VX) (s : State) : Out :=
  bStat f x s fun o => match o.token with | some (a, _) => a | none => 0

/-! ## Ordered sections (R281 to R284) -/

/-- The restore path (R380): the ROBEG of a token that came with the record is executed again (R284). DESIGN CHOICE (log 81): as often as
the handler executes it, where R281 gives 0x0B to a ROBEG of an occupant that already holds a token. -/
def Occ.restoring (o : Occ) : Bool := o.trapLevel && o.tcause.toNat % 64 == 0x1F && o.tinfo.getLsbD 63

def execRobeg (f : VF) (x : VX) (s : State) : Out :=
  bDo 0x06 f (some x) s fun _ s => do
    let a := s.occ.getS (f.a.toNat % 64)
    let b := s.bReg f
    let sp := packedSpace a
    let bad := s.bAt 0x0B
    require ((sp == 0 || sp == 2 || sp == 3) && a.extractLsb' 48 13 == 0) bad
    require (a.toNat % 4 == 0) (.trap 4 ({} : MemInfo).bits (packedOff a))
    require (b.toNat / 2 ^ 32 == 0) bad
    let (s, k, v) ← s.readAt .b sp 0 (packedOff a) 4
    let n := b.toNat
    require (s.occ.token == none || (s.occ.restoring && s.occ.token == some (a, n))) bad
    require (decide (v ≤ n)) bad
    require (v == n) (.wait 8 a n n)
    .ok ((s.drain.countRead k 4).mapOcc fun o => { o with token := some (a, n) })

def execRoend (f : VF) (s : State) : Out :=
  bDo 0x07 f none s fun _ s => do
    match s.occ.token with
    | none => .error (s.bAt 0x0B)
    | some (a, n) =>
      let k ← s.accessAt .b (packedSpace a) 0 (packedOff a) 4 .write
      .ok (((s.drain.poke k (toBytes 4 (n + 1))).countWrite k 4).mapOcc fun o => { o with token := none })

end Sys2Proof.Machine
end

