-- ==== Sys2Proof/Machine/Lane.lean ====
section
/-! DEFINITION. Integer, bit, comparison, predicate, selection and conversion instructions of the V engine
(R148 to R155). -/

namespace Sys2Proof.Machine

end Sys2Proof.Machine

namespace Sys2Proof
open Sys2Proof.Machine

/-- An operand of an integer type as an integer (R148). -/
def VX.int (x : VX) (a : Nat) : Int := if x.signed then sextNat a x.bits else (a % 2 ^ x.bits : Nat)

/-- An exact integer result: wrapped, or saturated and counted (R148, R78). -/
def VX.store (x : VX) (r : Int) : Nat × Nat :=
  if x.sat then let (v, n) := satInt x.signed x.bits r; (wrapInt v x.bits, n) else (wrapInt r x.bits, 0)

/-- The shift count of SHL, SHR and SRA (R148). -/
def VX.count (x : VX) (b : Nat) : Nat := b % x.bits

end Sys2Proof

namespace Sys2Proof.Machine

def vArith (op : Nat) (f : VF) (x : Option VX) (s : State) (g : Int → Int → Int) : Out :=
  vLanes op f x false s fun x _ _ a b => x.store (g (x.int a) (x.int b))

def vBits (op : Nat) (f : VF) (x : Option VX) (s : State) (g : Nat → Nat → Nat) : Out :=
  vLanes op f x false s fun _ _ _ a b => (g a b, 0)

def vMov (f : VF) (x : Option VX) (s : State) : Out := vLanes 0x00 f x false s fun _ _ _ _ b => (b, 0)
def execMov (f : VF) (s : State) : Out := vMov f none s
def execMov64 (f : VF) (x : VX) (s : State) : Out := vMov f (some x) s
def execVadd (f : VF) (s : State) : Out := vArith 0x01 f none s (· + ·)
def execVadd64 (f : VF) (x : VX) (s : State) : Out := vArith 0x01 f (some x) s (· + ·)
def execVsub (f : VF) (s : State) : Out := vArith 0x02 f none s (· - ·)
def execVsub64 (f : VF) (x : VX) (s : State) : Out := vArith 0x02 f (some x) s (· - ·)
def execVmul (f : VF) (s : State) : Out := vArith 0x03 f none s (· * ·)
def execVmul64 (f : VF) (x : VX) (s : State) : Out := vArith 0x03 f (some x) s (· * ·)

/-- Bits [2n-1:n] of the exact product. -/
def vMulh (f : VF) (x : Option VX) (s : State) : Out :=
  vLanes 0x04 f x false s fun x _ _ a b => (wrapInt ((x.int a * x.int b) / ((2 ^ x.bits : Nat) : Int)) x.bits, 0)
def execMulh (f : VF) (s : State) : Out := vMulh f none s
def execMulh64 (f : VF) (x : VX) (s : State) : Out := vMulh f (some x) s

def execMad (f : VF) (x : VX) (s : State) : Out :=
  vLanes 0x05 f (some x) false s fun x o i a b =>
    x.store (x.int a * x.int b + x.int (o.raw x.pair x.c.toNat i))

def execVand (f : VF) (s : State) : Out := vBits 0x06 f none s (· &&& ·)
def execVand64 (f : VF) (x : VX) (s : State) : Out := vBits 0x06 f (some x) s (· &&& ·)
def execVor (f : VF) (s : State) : Out := vBits 0x07 f none s (· ||| ·)
def execVor64 (f : VF) (x : VX) (s : State) : Out := vBits 0x07 f (some x) s (· ||| ·)
def execVxor (f : VF) (s : State) : Out := vBits 0x08 f none s (· ^^^ ·)
def execVxor64 (f : VF) (x : VX) (s : State) : Out := vBits 0x08 f (some x) s (· ^^^ ·)

def vShl (f : VF) (x : Option VX) (s : State) : Out :=
  vLanes 0x09 f x true s fun x _ _ a b => (a * 2 ^ x.count b % 2 ^ x.bits, 0)
def vShr (f : VF) (x : Option VX) (s : State) : Out := vLanes 0x0A f x true s fun x _ _ a b => (a / 2 ^ x.count b, 0)
def vSra (f : VF) (x : Option VX) (s : State) : Out :=
  vLanes 0x0B f x true s fun x _ _ a b =>
    (wrapInt (sextNat a x.bits / ((2 ^ x.count b : Nat) : Int)) x.bits, 0)
def execShl (f : VF) (s : State) : Out := vShl f none s
def execShl64 (f : VF) (x : VX) (s : State) : Out := vShl f (some x) s
def execShr (f : VF) (s : State) : Out := vShr f none s
def execShr64 (f : VF) (x : VX) (s : State) : Out := vShr f (some x) s
def execSra (f : VF) (s : State) : Out := vSra f none s
def execSra64 (f : VF) (x : VX) (s : State) : Out := vSra f (some x) s

def vPick (op : Nat) (f : VF) (x : Option VX) (s : State) (g : Int → Int → Int) : Out :=
  vLanes op f x false s fun x _ _ a b => (wrapInt (g (x.int a) (x.int b)) x.bits, 0)
def execVmin (f : VF) (s : State) : Out := vPick 0x0C f none s min
def execVmin64 (f : VF) (x : VX) (s : State) : Out := vPick 0x0C f (some x) s min
def execVmax (f : VF) (s : State) : Out := vPick 0x0D f none s max
def execVmax64 (f : VF) (x : VX) (s : State) : Out := vPick 0x0D f (some x) s max

def vAbs (f : VF) (x : Option VX) (s : State) : Out := vUnaryLanes 0x0E f x s fun x a => x.store ((x.int a).natAbs : Int)
def execVabs (f : VF) (s : State) : Out := vAbs f none s
def execVabs64 (f : VF) (x : VX) (s : State) : Out := vAbs f (some x) s

def vClz (f : VF) (x : Option VX) (s : State) : Out := vUnaryLanes 0x0F f x s fun x a => (x.bits - bitLen a, 0)
def execClz (f : VF) (s : State) : Out := vClz f none s
def execClz64 (f : VF) (x : VX) (s : State) : Out := vClz f (some x) s

/-- The count of one bits among the low n bits. -/
def popCount (a n : Nat) : Nat := ((List.range n).filter a.testBit).length

def vPopc (f : VF) (x : Option VX) (s : State) : Out := vUnaryLanes 0x10 f x s fun x a => (popCount a x.bits, 0)
def execPopc (f : VF) (s : State) : Out := vPopc f none s
def execPopc64 (f : VF) (x : VX) (s : State) : Out := vPopc f (some x) s

/-- pos and len of BFE and BFI (R149). -/
def fieldPos (b : Nat) : Nat := b % 256
def fieldLen (b : Nat) : Nat := min (b / 256 % 256) 32

def vBfe (f : VF) (x : Option VX) (s : State) : Out :=
  vLanes 0x11 f x true s fun x _ _ a b =>
    let v := a / 2 ^ fieldPos b % 2 ^ fieldLen b
    (if x.ty = 0 && fieldLen b != 0 then wrapInt (sextNat v (fieldLen b)) 32 else v, 0)
def execBfe (f : VF) (s : State) : Out := vBfe f none s
def execBfe64 (f : VF) (x : VX) (s : State) : Out := vBfe f (some x) s

def execBfi (f : VF) (x : VX) (s : State) : Out :=
  vLanes 0x12 f (some x) true s fun x o i a b =>
    let mask := (2 ^ fieldLen b - 1) * 2 ^ fieldPos b % 2 ^ 32
    let c := (o.getV x.c.toNat i).toNat * 2 ^ fieldPos b
    ((a &&& (0xFFFFFFFF ^^^ mask)) ||| (c &&& mask), 0)

def execSel (f : VF) (x : VX) (s : State) : Out :=
  vLanes 0x13 f (some x) false s fun x o i a b => (if (o.getP (x.c.toNat % 16)).getLsbD i then a else b, 0)

def vCmp (f : VF) (x : Option VX) (s : State) : Out :=
  vCompare 0x14 f x s fun x a b => condHolds (f.d.toNat / 16) (some (compare (x.int a) (x.int b)))
def execCmp (f : VF) (s : State) : Out := vCmp f none s
def execCmp64 (f : VF) (x : VX) (s : State) : Out := vCmp f (some x) s

def execPlog (f : VF) (x : VX) (s : State) : Out :=
  vDo 0x15 f (some x) s fun x s =>
    let ls := s.lanes .v f
    .ok (s.mapOcc (·.putP (f.d.toNat % 16) (s.enabled .v f) (laneMask ls fun i =>
      truth (x.imm.extractLsb' 0 4) ((s.occ.getP (f.a.toNat % 16)).getLsbD i) ((s.occ.getP (f.b.toNat % 16)).getLsbD i))))

/-! ## Conversions (R154, R155) -/

/-- The floating-point format of a CVT code. -/
def cvtFmt (code : Nat) : Fmt :=
  match code with
  | 2 => f32 | 3 => f16 | 4 => bf16 | 5 => f64 | 8 => e4m3 | 9 => e5m2 | _ => e2m1

/-- Integer codes: signedness and width. -/
def cvtInt (code : Nat) : Option (Bool × Nat) :=
  match code with
  | 0 => some (true, 32) | 1 => some (false, 32) | 6 => some (true, 64) | 7 => some (false, 64) | _ => none

def cvtPair (code : Nat) : Bool := 5 ≤ code && code ≤ 7

/-- One CVT: the destination's bits and its saturations. -/
def cvt (dst src rm : Nat) (sat : Bool) (a : Nat) : Nat × Nat :=
  match cvtInt src, cvtInt dst with
  | some (sg, n), some (sg', n') =>
    let v : Int := if sg then sextNat a n else (a % 2 ^ n : Nat)
    if sat then let (y, c) := satInt sg' n' v; (wrapInt y n', c) else (wrapInt v n', 0)
  | some (sg, n), none => (cvtFmt dst).conv rm sat (Num.ofInt (if sg then sextNat a n else (a % 2 ^ n : Nat)))
  | none, some (sg', n') =>
    let (y, c) := numToInt sg' n' rm ((cvtFmt src).decode (a % 2 ^ (cvtFmt src).width)); (wrapInt y n', c)
  | none, none => (cvtFmt dst).conv rm sat ((cvtFmt src).decode (a % 2 ^ (cvtFmt src).width))

def execCvt (f : VF) (x : VX) (s : State) : Out :=
  vDo 0x16 f (some x) s fun x s =>
    let dst := x.imm.toNat % 16
    let src := x.imm.toNat / 16 % 16
    .ok (s.putLanes (cvtPair dst) f.d.toNat
      ((s.lanes .v f).map fun i => (i, cvt dst src x.rm.toNat x.sat (s.occ.raw (cvtPair src) f.a.toNat i))))

/-! ## Predicates and vector registers (R153) -/

def vMovp (f : VF) (x : Option VX) (s : State) : Out :=
  vDo 0x31 f x s fun x s =>
    let ls := s.lanes .v f
    if x.imm.toNat % 2 = 0 then
      .ok (s.mapOcc (·.putP (f.d.toNat % 16) (s.enabled .v f) (laneMask ls fun i => s.occ.getV f.a.toNat i != 0)))
    else
      .ok (s.putLanes false f.d.toNat
        (ls.map fun i => (i, (((s.occ.getP (f.a.toNat % 16)).getLsbD i).toNat, 0))))
def execMovp (f : VF) (s : State) : Out := vMovp f none s
def execMovp64 (f : VF) (x : VX) (s : State) : Out := vMovp f (some x) s

end Sys2Proof.Machine
end

