-- ==== Sys2Proof/Machine/LaneFloat.lean ====
section
/-! DEFINITION. Floating-point instructions of the V engine (R150, R156 to R158). Every function is exact and rounded
once. -/

namespace Sys2Proof.Machine

/-- A function of A and B rounded per element. -/
def fBin (op : Nat) (f : VF) (x : Option VX) (s : State) (g : Nat → Num → Num → Num) : Out :=
  vLanes op f x false s fun x _ _ a b => perElem x fun F p =>
    F.conv x.rm.toNat x.sat (g x.rm.toNat (F.decode (elemAt F a p)) (F.decode (elemAt F b p)))

/-- A function of A rounded per element. -/
def fUn (op : Nat) (f : VF) (x : Option VX) (s : State) (g : Num → Num) : Out :=
  vUnaryLanes op f x s fun x a => perElem x fun F p => F.conv x.rm.toNat x.sat (g (F.decode (elemAt F a p)))

def execFadd (f : VF) (s : State) : Out := fBin 0x17 f none s addNum
def execFadd64 (f : VF) (x : VX) (s : State) : Out := fBin 0x17 f (some x) s addNum
def execFsub (f : VF) (s : State) : Out := fBin 0x18 f none s subNum
def execFsub64 (f : VF) (x : VX) (s : State) : Out := fBin 0x18 f (some x) s subNum
def execFmul (f : VF) (s : State) : Out := fBin 0x19 f none s fun _ => mulNum
def execFmul64 (f : VF) (x : VX) (s : State) : Out := fBin 0x19 f (some x) s fun _ => mulNum

def execFfma (f : VF) (x : VX) (s : State) : Out :=
  vLanes 0x1A f (some x) false s fun x o i a b => perElem x fun F p =>
    F.conv x.rm.toNat x.sat (fmaNum x.rm.toNat (F.decode (elemAt F a p)) (F.decode (elemAt F b p))
      (F.decode (elemAt F (o.raw x.pair x.c.toNat i) p)))

def fPick (op : Nat) (f : VF) (x : Option VX) (s : State) (wantMax : Bool) : Out :=
  vLanes op f x false s fun x _ _ a b => perElem x fun F p => (F.pick wantMax (elemAt F a p) (elemAt F b p), 0)
def execFmin (f : VF) (s : State) : Out := fPick 0x1B f none s false
def execFmin64 (f : VF) (x : VX) (s : State) : Out := fPick 0x1B f (some x) s false
def execFmax (f : VF) (s : State) : Out := fPick 0x1C f none s true
def execFmax64 (f : VF) (x : VX) (s : State) : Out := fPick 0x1C f (some x) s true

def vFcmp (f : VF) (x : Option VX) (s : State) : Out :=
  vCompare 0x1D f x s fun x a b => condHolds (f.d.toNat / 16) (cmpNum (x.fmt.decode a) (x.fmt.decode b))
def execFcmp (f : VF) (s : State) : Out := vFcmp f none s
def execFcmp64 (f : VF) (x : VX) (s : State) : Out := vFcmp f (some x) s

def execFrcp (f : VF) (s : State) : Out := fUn 0x1E f none s rcpNum
def execFrcp64 (f : VF) (x : VX) (s : State) : Out := fUn 0x1E f (some x) s rcpNum
def execFrsq (f : VF) (s : State) : Out := fUn 0x1F f none s rsqNum
def execFrsq64 (f : VF) (x : VX) (s : State) : Out := fUn 0x1F f (some x) s rsqNum
def execFsqrt (f : VF) (s : State) : Out := fUn 0x20 f none s sqrtNum
def execFsqrt64 (f : VF) (x : VX) (s : State) : Out := fUn 0x20 f (some x) s sqrtNum
def execFexp2 (f : VF) (s : State) : Out := fUn 0x21 f none s exp2Num
def execFexp264 (f : VF) (x : VX) (s : State) : Out := fUn 0x21 f (some x) s exp2Num
def execFlog2 (f : VF) (s : State) : Out := fUn 0x22 f none s log2Num
def execFlog264 (f : VF) (x : VX) (s : State) : Out := fUn 0x22 f (some x) s log2Num
def execFsin (f : VF) (s : State) : Out := fUn 0x23 f none s sinNum
def execFsin64 (f : VF) (x : VX) (s : State) : Out := fUn 0x23 f (some x) s sinNum
def execFcos (f : VF) (s : State) : Out := fUn 0x24 f none s cosNum
def execFcos64 (f : VF) (x : VX) (s : State) : Out := fUn 0x24 f (some x) s cosNum
def execFdiv (f : VF) (s : State) : Out := fBin 0x25 f none s fun _ => divNum
def execFdiv64 (f : VF) (x : VX) (s : State) : Out := fBin 0x25 f (some x) s fun _ => divNum

/-- FCLASS: v[d] is a single register under every ty (R158). -/
def vFclass (f : VF) (x : Option VX) (s : State) : Out :=
  vDo 0x26 f x s fun x s =>
    .ok (s.putLanes false f.d.toNat ((s.lanes .v f).map fun i =>
      (i, perElem x fun F p => (F.classMask (elemAt F (s.occ.raw x.pair f.a.toNat i) p), 0))))
def execFclass (f : VF) (s : State) : Out := vFclass f none s
def execFclass64 (f : VF) (x : VX) (s : State) : Out := vFclass f (some x) s

end Sys2Proof.Machine
end

