-- ==== Sys2Proof/Machine/Cross.lean ====
section
/-! DEFINITION. Instructions across the lanes of a group (R159 to R164) and the reduction tree (R95, R96). -/

namespace Sys2Proof.Machine

/-- The lane that SHUF names for lane i (R159). -/
def shufLane (mode w i b : Nat) : Nat :=
  match mode with
  | 0 => b % w
  | 1 => if b ≤ i then i - b else i
  | 2 => if i + b < w then i + b else i
  | _ => (i ^^^ (b % w)) % 64

def vShuf (f : VF) (x : Option VX) (s : State) : Out :=
  vLanes 0x27 f x true s fun x o i _ b =>
    (o.raw x.pair f.a.toNat (shufLane (x.c.toNat % 4) o.width i b), 0)
def execShuf (f : VF) (s : State) : Out := vShuf f none s
def execShuf64 (f : VF) (x : VX) (s : State) : Out := vShuf f (some x) s

/-- VOTE (R160): it acts even with no enabled lane. -/
def vVote (f : VF) (x : Option VX) (s : State) : Out :=
  vDo 0x28 f x s fun x s =>
    let en := s.enabled .v f
    let p := s.occ.getP (f.a.toNat % 16)
    let c := (if f.a.getLsbD 4 then ~~~p else p) &&& en
    match x.c.toNat % 4 with
    | 0 => .ok (s.mapOcc (·.setQ (f.d.toNat % 8) (c != 0)))
    | 1 => .ok (s.mapOcc (·.setQ (f.d.toNat % 8) (c == en)))
    | 2 => .ok (s.mapOcc (·.setQ (f.d.toNat % 8) (c == en || c == 0)))
    | _ => .ok (s.mapOcc (·.setS (f.d.toNat % 64) c))
def execVoteAny (f : VF) (s : State) : Out := vVote f none s
def execVote64 (f : VF) (x : VX) (s : State) : Out := vVote f (some x) s

/-! ## Trees -/

/-- One level of the tree of R95: neighbours combined, an absent node passed over. -/
def treeLevel (g : Nat → Nat → Nat) : List (Option Nat) → List (Option Nat)
  | a :: b :: l =>
    (match a, b with
     | some x, some y => some (g x y)
     | some x, none => some x
     | none, y => y) :: treeLevel g l
  | l => l

/-- The root after six levels at most; lanes beyond the group are absent. -/
def treeRoot (g : Nat → Nat → Nat) (l : List (Option Nat)) : Option Nat :=
  ((List.range 6).foldl (fun l _ => treeLevel g l) l).headD none

/-- The operation of GRED and SCAN on one element (R161). -/
def redOp (x : VX) (op : Nat) (a b : Nat) : Nat :=
  if 2 ≤ x.ty.toNat && x.ty.toNat ≤ 5 then
    match op with
    | 0 => (x.fmt.conv x.rm.toNat false (addNum x.rm.toNat (x.fmt.decode a) (x.fmt.decode b))).1
    | 1 => x.fmt.pick false a b
    | _ => x.fmt.pick true a b
  else
    match op with
    | 0 => (a + b) % 2 ^ x.bits
    | 1 => if x.int a ≤ x.int b then a else b
    | 2 => if x.int a ≤ x.int b then b else a
    | 3 => a &&& b
    | 4 => a ||| b
    | _ => a ^^^ b

/-- The exclusive identity (R161). -/
def redIdentity (x : VX) (op : Nat) : Nat :=
  if 2 ≤ x.ty.toNat && x.ty.toNat ≤ 5 then
    match op with
    | 0 => 0
    | 1 => (x.fmt.round 0 (.inf false)).code
    | _ => (x.fmt.round 0 (.inf true)).code
  else
    match op with
    | 1 => wrapInt (intMax x.signed x.bits) x.bits
    | 2 => wrapInt (intMin x.signed x.bits) x.bits
    | 3 => 2 ^ x.bits - 1
    | _ => 0

/-- The tree over the lanes that `pick` admits, per half of a packed type; none when no lane enters. -/
def reduceLanes (x : VX) (op w : Nat) (val : Nat → Nat) (pick : Nat → Bool) : Option Nat :=
  let tree (pos wd : Nat) := treeRoot (redOp x op)
    ((List.range w).map fun i => if pick i then some (val i / 2 ^ pos % 2 ^ wd) else none)
  if x.packed then
    match tree 0 16, tree 16 16 with
    | some lo, some hi => some (lo + hi * 2 ^ 16)
    | _, _ => none
  else tree 0 64

def vGred (f : VF) (x : Option VX) (s : State) : Out :=
  vDo 0x29 f x s fun x s =>
    let ls := s.lanes .v f
    match reduceLanes x (x.c.toNat % 8) s.occ.width (s.occ.raw x.pair f.a.toNat ·) ls.contains with
    | none => .ok s
    | some r => .ok (s.putLanes x.pair f.d.toNat (ls.map fun i => (i, (r, 0))))
def execGred (f : VF) (s : State) : Out := vGred f none s
def execGred64 (f : VF) (x : VX) (s : State) : Out := vGred f (some x) s

/-- Whether lane j enters the tree of lane i (R162). -/
def scanEnters (excl rev : Bool) (i j : Nat) : Bool :=
  (if rev then decide (i ≤ j) else decide (j ≤ i)) && !(excl && j == i)

def vScan (f : VF) (x : Option VX) (s : State) : Out :=
  vDo 0x2A f x s fun x s =>
    let ls := s.lanes .v f
    let op := x.c.toNat % 8
    let ident := let e := redIdentity x op; if x.packed then e + e * 2 ^ 16 else e
    .ok (s.putLanes x.pair f.d.toNat (ls.map fun i =>
      (i, ((reduceLanes x op s.occ.width (s.occ.raw x.pair f.a.toNat ·) fun j =>
        ls.contains j && scanEnters (x.c.getLsbD 3) (x.c.getLsbD 4) i j).getD ident, 0))))
def execScan (f : VF) (s : State) : Out := vScan f none s
def execScan64 (f : VF) (x : VX) (s : State) : Out := vScan f (some x) s

/-- MOVS (R163). -/
def execMovs (f : VF) (x : VX) (s : State) : Out :=
  vDo 0x30 f (some x) s fun x s =>
    match s.lanes .v f with
    | [] => .ok s
    | l :: _ => do
      let (_, bv) ← s.operandB f x true []
      let b := bv 0
      let i ← if b < s.occ.width then .ok b
        else if b = 0xFFFFFFFF then .ok l
        else .error (s.faultAt .v 0x0B (BitVec.ofNat 64 b))
      let v := s.occ.raw x.pair f.a.toNat i
      .ok (s.mapOcc (·.setS (f.d.toNat % 64) (if x.ty = 0 then BitVec.ofInt 64 (sextNat v 32) else BitVec.ofNat 64 v)))

/-- GETS (R164). -/
def execGets (f : VF) (s : State) : Out :=
  vDo 0x2F f none s fun _ s =>
    let m := (s.occ.flow.maskOf .v &&& allLanes s.occ.width).toNat
    .ok (s.putLanes false f.d.toNat ((s.lanes .v f).map fun i =>
      (i, (match f.a.toNat with
        | 0 => i
        | 1 => physLane s.me.place i
        | 2 => m % 2 ^ 32
        | 3 => m / 2 ^ 32
        | 4 => Config.coreIndex s.me.place.core
        | _ => s.occ.group, 0))))

end Sys2Proof.Machine
end

