-- ==== Sys2Proof/Machine/Block.lean ====
section
/-! DEFINITION. Variable-length blocks: granules, the quantiser, OX4 (R81 to R91), and QMX, DQMX, PACK and UNPK
(R165 to R169). -/

namespace Sys2Proof.Machine

/-- x * 2^k. -/
def Num.shift (x : Num) (k : Int) : Num :=
  match x with
  | .fin n m e st => .fin n m (e + k) st
  | y => y

/-- floor(log2 |x|) of a nonzero finite x (R86). -/
def Num.expo : Num → Option Int
  | .fin _ m e _ => if m = 0 then none else some (e + (bitLen m : Int) - 1)
  | _ => none

/-- The element format of a block format: 0 .MX4, 1 .MX8, 2 .MX8.E5M2 (R165). -/
def blockFmt (fmt : Nat) : Fmt := match fmt with | 0 => e2m1 | 1 => e4m3 | _ => e5m2
def blockEmax (fmt : Nat) : Int := match fmt with | 0 => 2 | 1 => 8 | 2 => 15 | _ => 2
def blockBits (fmt : Nat) : Nat := if fmt = 0 || fmt = 3 then 4 else 8

/-! ## The quantiser (R86 to R88, R91) -/

def maxOpt (a b : Option Int) : Option Int :=
  match a, b with
  | some x, some y => some (max x y)
  | none, y => y
  | x, none => x

/-- Partition into blocks with threshold t: the current block, newest element first, and its running maximum. -/
def splitBlocks (t : Nat) : List Num → List Num → Option Int → List (List Num)
  | [], cur, _ => [cur.reverse]
  | x :: xs, cur, em =>
    let fresh := cur.length == 32 || (decide (4 ≤ cur.length) && match x.expo, em with
      | some e, some m => decide (t < (e - m).natAbs)
      | _, _ => false)
    if fresh then cur.reverse :: splitBlocks t xs [x] x.expo
    else splitBlocks t xs (x :: cur) (maxOpt em x.expo)

/-- Scale byte, codes and saturations of one encoded block. -/
structure Encoded where
  scale : Nat
  codes : List Nat
  sats : Nat
  deriving DecidableEq, Repr

def scaleByte (e emax : Int) : Nat := (min (max (e - emax + 127) 0) 254).toNat
def scaleShift (s : Nat) : Int := (s : Int) - 127

/-- An MXFP block (R87). -/
def encodeMx (fmt rm : Nat) (xs : List Num) : Encoded :=
  let F := blockFmt fmt
  if xs.any (· == .nan) then ⟨0xFF, xs.map fun _ => 0, 0⟩
  else
    let s := match xs.foldl (fun a x => maxOpt a x.expo) none with
      | none => 0
      | some e => scaleByte e (blockEmax fmt)
    let rs := xs.map fun x => F.conv rm true (x.shift (-(scaleShift s)))
    ⟨s, rs.map (·.1), rs.foldl (fun a r => a + r.2) 0⟩

/-- The slots of an OX4 block whose scale is 2^sh (R91). -/
def ox4Slots (rm : Nat) (sh : Int) : List Num → List Nat × Nat
  | [] => ([], 0)
  | x :: y :: z :: l =>
    let v := x.shift (-sh)
    let (q, big) := ox4Round rm v
    if big then
      let (c, n) := e4m3.conv rm true v
      let (r, m) := ox4Slots rm sh l
      (8 :: c / 16 :: c % 16 :: r, n + m)
    else
      let (r, m) := ox4Slots rm sh (y :: z :: l)
      (wrapInt q 4 :: r, m)
  | x :: l =>
    let v := x.shift (-sh)
    let (q, big) := ox4Round rm v
    let (r, m) := ox4Slots rm sh l
    if big then (wrapInt (if v.sign then -7 else 7) 4 :: r, m + 1) else (wrapInt q 4 :: r, m)
where
  /-- q := rne(v, I32, rm), and whether |q| is 8 or more. -/
  ox4Round (rm : Nat) (v : Num) : Int × Bool :=
    match v with
    | .fin n m e st => let q := roundInt rm n m e st; (q, decide (8 ≤ q.natAbs))
    | _ => (0, true)

/-- The exponent of the element of second largest magnitude, or of the only one (R91). -/
def secondExpo (xs : List Num) : Option Int :=
  match (xs.filterMap Num.expo).mergeSort (fun a b => decide (b ≤ a)) with
  | [] => none
  | [e] => some e
  | _ :: e :: _ => some e

def encodeOx4 (rm : Nat) (xs : List Num) : Encoded :=
  if xs.any (· == .nan) then ⟨0xFF, xs.map fun _ => 0, 0⟩
  else
    let s := match secondExpo xs with | none => 0 | some e => scaleByte e 2
    let (c, n) := ox4Slots rm (scaleShift s) xs
    ⟨s, c, n⟩

/-- Numbers of n bits each packed into one, the first lowest. -/
def packBits (n : Nat) : List Nat → Nat
  | [] => 0
  | x :: l => x % 2 ^ n + 2 ^ n * packBits n l

/-- The granule record of R82 of some blocks as one number, and the saturations. -/
def quantiseBlocks (fmt rm : Nat) (bs : List (List Num)) : Nat × Nat :=
  let es := bs.map fun b => if fmt = 3 then encodeOx4 rm b else encodeMx fmt rm b
  let starts := bs.foldl (fun (p : Nat × Nat) b => (p.1 + 2 ^ p.2, p.2 + b.length)) (0, 0)
  let n := blockBits fmt
  (packBits n (es.flatMap (·.codes)) + starts.1 * 2 ^ (64 * n) + packBits 8 (es.map (·.scale)) * 2 ^ (64 * n + 64),
   es.foldl (fun a e => a + e.sats) 0)

def quantise (fmt rm t : Nat) (xs : List Num) : Nat × Nat := quantiseBlocks fmt rm (splitBlocks t xs [] none)

/-! ## Decoding (R83 to R85, R90) -/

/-- The walk of R90 over the slots of a block, without scale: values and format errors. -/
def ox4Walk : List Nat → List Num × Nat
  | [] => ([], 0)
  | c :: d :: e :: l =>
    if c = 8 then
      let (r, n) := ox4Walk l
      if d = 8 then (.zero false :: .zero false :: .zero false :: r, n + 1)
      else (e4m3.decode (d * 16 + e) :: .zero false :: .zero false :: r, n)
    else
      let (r, n) := ox4Walk (d :: e :: l)
      (Num.ofInt (sextNat c 4) :: r, n)
  | c :: l =>
    let (r, n) := ox4Walk l
    if c = 8 then (.zero false :: r, n + 1) else (Num.ofInt (sextNat c 4) :: r, n)

/-- Codes split at the block starts: lists in order. -/
def blocksOf (bitmap : Nat) : Nat → List Nat → List Nat → List (List Nat)
  | _, [], cur => [cur.reverse]
  | i, c :: l, cur =>
    if bitmap.testBit i && i != 0 then cur.reverse :: blocksOf bitmap (i + 1) l [c]
    else blocksOf bitmap (i + 1) l (c :: cur)

/-- One block with its scale byte. -/
def decodeBlock (fmt scale : Nat) (cs : List Nat) : List Num × Nat :=
  if scale = 0xFF then (cs.map fun _ => .nan, 0)
  else
    let (vs, n) := if fmt = 3 then ox4Walk cs else (cs.map (blockFmt fmt).decode, 0)
    (vs.map (·.shift (scaleShift scale)), n)

/-- The 64 exact values of a granule record and its format errors (R83 to R85). -/
def decodeGranule (fmt gran : Nat) : List Num × Nat :=
  let n := blockBits fmt
  let codes := (List.range 64).map fun i => gran / 2 ^ (n * i) % 2 ^ n
  let bitmap := gran / 2 ^ (64 * n) % 2 ^ 64
  let blocks := blocksOf bitmap 0 codes []
  let noZero := if bitmap % 2 = 0 then 1 else 0
  let many := if 16 < blocks.length then 1 else 0
  let long := if blocks.any fun b => decide (32 < b.length) then 1 else 0
  if many + long ≠ 0 then (codes.map fun _ => .zero false, noZero + many + long)
  else
    let rs := (List.range blocks.length).map fun j =>
      decodeBlock fmt (gran / 2 ^ (64 * n + 64 + 8 * j) % 256) (blocks.getD j [])
    (rs.flatMap (·.1), noZero + rs.foldl (fun a r => a + r.2) 0)

/-! ## QMX and DQMX (R165 to R167) -/

def execQmx (f : VF) (x : VX) (s : State) : Out :=
  vDo 0x2B f (some x) s fun x s =>
    let ls := s.lanes .v f
    if ls = [] then .ok s
    else
      let w := s.occ.width
      let fmt := x.imm.toNat / 16 % 4
      let xs := (List.range 64).map fun e =>
        if ls.contains (e % w) then f32.decode (s.occ.getV (f.a.toNat + e / w) (e % w)).toNat else .zero false
      let (gran, n) := quantise fmt x.rm.toNat (x.imm.toNat % 8) xs
      .ok (((List.range (recRegs fmt w)).foldl (fun t r =>
        t.putLanes false (f.d.toNat + r) (ls.map fun i => (i, (gran / 2 ^ (32 * (r * w + i)) % 2 ^ 32, 0)))) s).countSat n)

def execDqmx (f : VF) (x : VX) (s : State) : Out :=
  vDo 0x2C f (some x) s fun x s =>
    let ls := s.lanes .v f
    if ls = [] then .ok s
    else
      let w := s.occ.width
      let fmt := x.imm.toNat / 16 % 4
      let gran := packBits 32 ((List.range (recWords fmt)).map fun k => (s.occ.getV (f.a.toNat + k / w) (k % w)).toNat)
      let (vs, n) := decodeGranule fmt gran
      .ok (((List.range (elemRegs w)).foldl (fun t r =>
        t.putLanes false (f.d.toNat + r) (ls.map fun i =>
          (i, ((f32.round x.rm.toNat (vs.getD (r * w + i) .nan)).code, 0)))) s).countFmt n)

/-! ## PACK and UNPK (R168, R169) -/

def packFmt (fmt : Nat) : Fmt :=
  match fmt with | 0 => e4m3 | 1 => e5m2 | 2 => e2m1 | 4 => f16 | _ => bf16
def packBitsOf (fmt : Nat) : Nat := if fmt ≤ 1 then 8 else if fmt ≤ 3 then 4 else 16

/-- The code of x / X, X = 2^(s - 127), or NaN for s = 0xFF; with its saturations. -/
def packCode (fmt rm s : Nat) (x : Num) : Nat × Nat :=
  let v := if s = 0xFF then .nan else x.shift (-(scaleShift s))
  if fmt = 3 then
    match v with
    | .nan => (0, 0)
    | .inf n => (wrapInt (if n then -7 else 7) 4, 1)
    | .fin n m e st =>
      let q := roundInt rm n m e st
      if 7 < q then (7, 1) else if q < -7 then (9, 1) else (wrapInt q 4, 0)
  else (packFmt fmt).conv rm false v

def execPack (f : VF) (x : VX) (s : State) : Out :=
  vDo 0x2D f (some x) s fun x s => do
    let ls := s.lanes .v f
    let (t, b) ← s.operandB f x true ls
    let fmt := x.c.toNat % 8
    .ok (t.putLanes false f.d.toNat (ls.map fun i =>
      let rs := (List.range (packN fmt)).map fun k =>
        packCode fmt x.rm.toNat (b i % 256) (f32.decode (s.occ.getV (f.a.toNat + k) i).toNat)
      (i, (packBits (packBitsOf fmt) (rs.map (·.1)), rs.foldl (fun a r => a + r.2) 0))))

/-- The value of a code times X, and its format errors. -/
def unpackCode (fmt s c : Nat) : Num × Nat :=
  if s = 0xFF then (.nan, 0)
  else if fmt = 3 then (if c = 8 then (.zero false, 1) else ((Num.ofInt (sextNat c 4)).shift (scaleShift s), 0))
  else (((packFmt fmt).decode c).shift (scaleShift s), 0)

def execUnpk (f : VF) (x : VX) (s : State) : Out :=
  vDo 0x2E f (some x) s fun x s => do
    let ls := s.lanes .v f
    let (t, b) ← s.operandB f x true ls
    let fmt := x.c.toNat % 8
    let code (i k : Nat) := (s.occ.getV f.a.toNat i).toNat / 2 ^ (packBitsOf fmt * k) % 2 ^ packBitsOf fmt
    let t := (List.range (packN fmt)).foldl (fun (t : State) k =>
      t.putLanes false (f.d.toNat + k) (ls.map fun i =>
        (i, ((f32.round x.rm.toNat (unpackCode fmt (b i % 256) (code i k)).1).code, 0)))) t
    .ok (t.countFmt (ls.foldl (fun a i =>
      a + (List.range (packN fmt)).foldl (fun a k => a + (unpackCode fmt (b i % 256) (code i k)).2) 0) 0))

end Sys2Proof.Machine
end

