-- ==== Sys2Proof/Machine/System.lean ====
section
/-! DEFINITION. System registers and SCSR (R31 to R33, R108 to R110). -/

namespace Sys2Proof.Machine

def sysReadOnly (n : Nat) : Bool :=
  [0x000, 0x001, 0x002, 0x003, 0x004, 0x005, 0x006, 0x007, 0x008, 0x009, 0x010, 0x011, 0x032, 0x033, 0x038,
   0x039].contains n
def sysPriv (n : Nat) : Bool :=
  [0x020, 0x021, 0x022, 0x023, 0x024, 0x025, 0x028, 0x029, 0x02A, 0x02C, 0x03A, 0x048].contains n
def sysHost (n : Nat) : Bool := [0x02B, 0x031, 0x050, 0x051].contains n

/-- The legal values of %FELT (R286), with no unpublished reservation on the ring of the core. -/
def State.feltLegal (s : State) (x : DWord) : Bool :=
  let v := x.toNat
  let hdr := bitsOf v 19 0; let base := bitsOf v 39 20; let count := bitsOf v 44 40; let size := bitsOf v 63 48
  bitsOf v 47 45 == 0 && hdr % 32 == 0 && base % 64 == 0 && size % 64 == 0 && !(size == 0 && count != 0)
    && count ≤ 16 && hdr + 32 ≤ 2 ^ 20 && base + count * size ≤ 2 ^ 20
    && (count * size == 0 || hdr + 32 ≤ base || base + count * size ≤ hdr)
    && !(s.felts.any fun r => r.ring == s.me.place.core)

/-- Whether a value lies within a register's fields and legal range (R32, R109). -/
def State.sysLegal (s : State) (n : Nat) (x : DWord) : Bool :=
  match n with
  | 0x012 => x.toNat ≤ 8
  | 0x018 => 4 ≤ x.toNat && x.toNat ≤ 64
  | 0x028 => x.toNat / 2048 % 16 == 0 && x.toNat / 65536 == 0 && x.toNat % 2048 == s.occ.tcause.toNat % 2048
  | 0x030 => x.toNat < 2 ^ 32
  | 0x03A => x.toNat < 2 ^ 34
  | 0x040 => s.feltLegal x
  | _ => true

/-- The checks of a write, in the order of R32. -/
def State.sysCheck (s : State) (n : Nat) (x : DWord) : Act Unit := do
  require (!sysAbsent s.tile n) (s.faultAt .k 0x0B)
  require (!sysReadOnly n) (s.faultAt .k 0x0B)
  require (!(sysHost n || (sysPriv n && !s.occ.trapLevel))) (s.faultAt .k 0x03)
  require (s.sysLegal n x) (s.faultAt .k 0x0B)

/-- A checked write, in force from the next line (R32). A write at trap level is later than the line that the trap broke off, and is
seen by the rest of that line. -/
def State.sysWrite (s : State) (n : Nat) (x : DWord) : Act State := do
  s.sysCheck n x
  .ok (s.mapOcc fun o => { o with
    sysPend := o.sysPend ++ [(n, x)]
    capture := o.capture.map fun c => { c with old := c.old.filter fun w => w.1 != n } })

def execScsrRead (g : KG) (d : BitVec 6) (num : BitVec 12) (s : State) : Out := kSet g 1 s d (s.sysRead num.toNat)
def execScsrWrite (g : KG) (d : BitVec 6) (num : BitVec 12) (s : State) : Out :=
  kDo g 1 s fun s => s.sysWrite num.toNat (s.getS d)
def execScsrSwap (g : KG) (d : BitVec 6) (num : BitVec 12) (s : State) : Out :=
  kDo g 1 s fun s => do
    let t ← s.sysWrite num.toNat (s.getS d)
    .ok (t.setS d (s.sysRead num.toNat))

end Sys2Proof.Machine
end

