-- ==== Sys2Proof/Machine/Branch.lean ====
section
/-! DEFINITION. Control transfers, the control stacks and hardware loops (R40 to R42, R111 to R125). -/

namespace Sys2Proof.Machine

/-- Branch target: the line that holds the instruction plus an offset in lines (R41). -/
def State.lineAt (s : State) (off : DWord) : DWord := lineOf64 (s.pcOf .k) + (off <<< 5)

/-- The frame base (R113), with the top return entry on the core. -/
def Flow.frameBase (f : Flow) : Nat := match f.ret with | e :: _ => e.ddepth | [] => 0

def DivEntry.bytes (e : DivEntry) : List Byte :=
  toBytes 1 (if e.vKind then 2 else 1) ++ toBytes 1 e.treg ++ toBytes 6 0 ++ toBytes 8 e.saved.toNat
    ++ toBytes 8 e.pending.toNat ++ toBytes 8 e.pendpc.toNat

def DivEntry.ofNat (x : Nat) : DivEntry :=
  { vKind := x % 256 == 2, treg := x / 2 ^ 8 % 256, saved := BitVec.ofNat 64 (x / 2 ^ 64),
    pending := BitVec.ofNat 64 (x / 2 ^ 128), pendpc := BitVec.ofNat 64 (x / 2 ^ 192) }

def RetEntry.bytes (e : RetEntry) : List Byte :=
  toBytes 1 (if e.vKind then 2 else 1) ++ toBytes 1 0 ++ toBytes 2 e.ddepth ++ toBytes 4 0 ++ toBytes 8 e.retline.toNat

def RetEntry.ofNat (x : Nat) : RetEntry :=
  { vKind := x % 256 == 2, ddepth := x / 2 ^ 16 % 2 ^ 16, retline := BitVec.ofNat 64 (x / 2 ^ 64) }

/-- Fault 0x09 (R114): stack 0 divergence or 1 return, depth limit or failed spill, the spill entry's address. -/
def stackFault (ret limit : Bool) (addr : DWord) : Stop :=
  .trap 9 (BitVec.ofNat 64 (ret.toNat + 2 * limit.toNat)) addr

/-- Whether an entry of a spill area can be accessed, and its key. -/
def State.spillKey (s : State) (ret : Bool) (addr : DWord) (acc : Access) : Act Nat :=
  match s.translate s.me.ctx addr acc with
  | .ok k => .ok k
  | .error _ => .error (stackFault ret false addr)

def divSpillAt (save : DWord) (i : Nat) : DWord := save + BitVec.ofNat 64 (0x1000 + 32 * i)
def retSpillAt (save : DWord) (i : Nat) : DWord := save + BitVec.ofNat 64 (0x2E00 + 16 * i)

/-- Entries of each stack that the spill area holds (R114). DESIGN CHOICE (log 32): what trap-level code spills goes behind what the
user level has spilled, and a push that finds no entry left counts as a depth limit. -/
def spillEntries : Nat := 240

/-- Push a divergence entry, spilling the oldest one beyond 16 (R114). -/
def State.pushDiv (s : State) (e : DivEntry) : Act State := do
  let f := s.occ.flow
  require (f.ddepth < 256) (stackFault false true 0)
  if f.div.length < 16 then .ok (s.setFlow { f with div := e :: f.div })
  else
    require (s.occ.saveptr != 0) (stackFault false true 0)
    require (f.dbase + f.dspill < spillEntries) (stackFault false true 0)
    let a := divSpillAt s.occ.saveptr (f.dbase + f.dspill)
    let k ← s.spillKey false a .write
    let oldest := f.div.getLast?.getD e
    .ok ((s.poke k oldest.bytes).setFlow { f with div := e :: f.div.dropLast, dspill := f.dspill + 1 })

def State.pushRet (s : State) (e : RetEntry) : Act State := do
  let f := s.occ.flow
  require (f.rdepth < 256) (stackFault true true 0)
  if f.ret.length < 16 then .ok (s.setFlow { f with ret := e :: f.ret })
  else
    require (s.occ.saveptr != 0) (stackFault true true 0)
    require (f.rbase + f.rspill < spillEntries) (stackFault true true 0)
    let a := retSpillAt s.occ.saveptr (f.rbase + f.rspill)
    let k ← s.spillKey true a .write
    let oldest := f.ret.getLast?.getD e
    .ok ((s.poke k oldest.bytes).setFlow { f with ret := e :: f.ret.dropLast, rspill := f.rspill + 1 })

/-- Bring the top divergence entry onto the core: fill it from the spill area when needed (R114); a lost byte of it takes 0x1C (R399). -/
def State.fillDiv (s : State) : Act State := do
  let f := s.occ.flow
  match f.div, f.dspill with
  | [], n + 1 =>
    let a := divSpillAt s.occ.saveptr (f.dbase + n)
    let k ← s.spillKey false a .read
    s.checkLost a k 32
    .ok (s.setFlow { f with div := [DivEntry.ofNat (s.mem.getN k 32)], dspill := n })
  | _, _ => .ok s

def State.fillRet (s : State) : Act State := do
  let f := s.occ.flow
  match f.ret, f.rspill with
  | [], n + 1 =>
    let a := retSpillAt s.occ.saveptr (f.rbase + n)
    let k ← s.spillKey true a .read
    s.checkLost a k 16
    .ok (s.setFlow { f with ret := [RetEntry.ofNat (s.mem.getN k 16)], rspill := n })
  | _, _ => .ok s

/-- A transfer to a line with the T check of R41, under a mask. -/
def State.transfer (s : State) (target : DWord) (mask : DWord) : Act State := do
  s.checkT target
  s.resolve true target mask (lineOf64 target + 4)

def State.kmask (s : State) : DWord := s.occ.flow.maskOf .k

/-- A line address from a register (R40): bits [4:0] must be zero. -/
def lineTarget (x : DWord) (lane : Nat) : Act Unit :=
  require (x.toNat % 32 == 0) (.trap 4 ({ lane } : MemInfo).bits x)

def kBranch (g : KG) (s : State) (f : State → Act State) : Out :=
  run .k 1 s (if s.guard g then f s else .ok (s.advance .k 1))

/-- The line of the instruction is left without being completed: a loop skip that waits for its completion is void (R122). -/
def State.dropSkip (s : State) : State :=
  let f := s.occ.flow
  let line := lineOf64 (s.pcOf .k)
  s.setFlow { f with skips := f.skips.filter fun k => !(k.1 == line && k.2.1 == f.rdepth) }

/-- BR (R111). -/
def execBr (g : KG) (off : BitVec 22) (s : State) : Out :=
  kBranch g s fun s => s.dropSkip.transfer (s.lineAt (off.signExtend 64)) s.kmask

/-- JMP (R112). -/
def execJmp (g : KG) (a : BitVec 6) (s : State) : Out :=
  kBranch g s fun s => do
    lineTarget (s.getS a) 0
    s.dropSkip.transfer (s.getS a) s.kmask

/-- The address of the next instruction as R115 defines it. -/
def nextAddr (pc : DWord) (n : Nat) : DWord :=
  if laneOf pc + n ≤ 7 then pc + BitVec.ofNat 64 (4 * n) else afterLine pc

/-- BRV (R115). With no lane left to fall through, or behind the last lanes of its line, its line is not completed. -/
def execBrv (p : BitVec 4) (pn : Bool) (off : BitVec 32) (s : State) : Out :=
  run .k 2 s do
    let m := s.kmask
    let pv := s.occ.getP p.toNat
    let t := m &&& (if pn then ~~~pv else pv)
    let rest := m &&& ~~~t
    if t = 0 then
      let s1 ← s.pushDiv { vKind := false, treg := 0, saved := m, pending := 0, pendpc := nextAddr (s.pcOf .k) 2 }
      s1.resolve false (s1.pcOf .k) rest (s1.pcOf .k + 8)
    else
      let s1 ← s.pushDiv { vKind := false, treg := 0, saved := m, pending := rest, pendpc := nextAddr (s.pcOf .k) 2 }
      (if rest = 0 || laneOf (s.pcOf .k) + 2 > 7 then s1.dropSkip else s1).transfer (s.lineAt (off.signExtend 64)) t

/-- JOIN (R116). -/
def execJoin (s : State) : Out :=
  run .k 1 s do
    let s0 ← s.fillRet
    require (s0.occ.flow.frameBase < s.occ.flow.ddepth) (s.faultAt .k 0x0B)
    let s1 ← s0.fillDiv
    let f := s1.occ.flow
    match f.div with
    | [] => .error (s.faultAt .k 0x0B)
    | e :: rest =>
      require (!e.vKind) (s.faultAt .k 0x0B)
      if e.pending = 0 then (s1.setFlow { f with div := rest }).resolve false (s1.pcOf .k) e.saved (s1.pcOf .k + 4)
      else (s1.setFlow { f with div := { e with pending := 0 } :: rest }).dropSkip.resolve true e.pendpc e.pending e.pendpc

/-- The line after the line of the instruction. -/
def State.nextLine (s : State) : DWord := lineOf64 (s.pcOf .k) + 32

/-- CALL and CALLV with an s-register (R117, R118). DESIGN CHOICE (log 67): a push that fails takes 0x09 before the target line's T
bit is looked at. -/
def State.call (s : State) (target : DWord) : Act State := do
  let s1 ← s.pushRet { vKind := false, ddepth := s.occ.flow.ddepth, retline := s.nextLine }
  s1.transfer target s.kmask

def execCall (g : KG) (off : BitVec 22) (s : State) : Out :=
  kBranch g s fun s => s.call (s.lineAt (off.signExtend 64))

def execCallvReg (g : KG) (a : BitVec 6) (s : State) : Out :=
  kBranch g s fun s => do
    lineTarget (s.getS a) 0
    s.call (s.getS a)

/-- The active lanes that share the target of the lowest one, and that target (R118). -/
def Occ.dispatch (o : Occ) (treg : Nat) (m : DWord) : Option (DWord × DWord) :=
  match maskLanes m o.width with
  | [] => none
  | l :: ls => some (o.getPair treg l, laneMask (l :: ls) fun i => o.getPair treg i == o.getPair treg l)

/-- CALLV with a pair (R118); with no active lane it has no effect. -/
def execCallvPair (g : KG) (a : BitVec 6) (s : State) : Out :=
  run .k 1 s (do
    s.checkCount (.kForm .k 0x14 g (kBody 0 a.toNat 0 0) none)
    if !s.guard g then .ok (s.advance .k 1)
    else
      let m := s.kmask
      match (maskLanes m s.occ.width).find? fun i => (s.occ.getPair a.toNat i).toNat % 32 != 0 with
      | some i => .error (.trap 4 ({ lane := i } : MemInfo).bits (s.occ.getPair a.toNat i))
      | none =>
        match s.occ.dispatch a.toNat m with
        | none => .ok (s.advance .k 1)
        | some (target, sub) =>
          let s1 ← s.pushDiv { vKind := true, treg := a.toNat, saved := m, pending := m &&& ~~~sub, pendpc := 0 }
          let s2 ← s1.pushRet { vKind := true, ddepth := s1.occ.flow.ddepth, retline := s.nextLine }
          s2.transfer target sub)

/-- A return to a line: it completes the line of the CALL, whose loop-back or skip comes first (R119, R123). -/
def State.returnTo (s : State) (retline mask : DWord) : Act State :=
  match s.occ.flow.complete (retline - 32) with
  | .error _ => s.resolve true retline mask retline
  | .ok (f, some t) => (s.setFlow f).resolve true t mask (lineOf64 t + 4)
  | .ok (f, none) => do
    s.checkT retline
    (s.setFlow f).resolve true retline mask (lineOf64 retline + 4)

/-- RET (R119, R124). The target of a later dispatch is checked as that of the CALLV (R40), since the registers may
have been written since. -/
def execRet (g : KG) (s : State) : Out :=
  kBranch g s fun s => do
    require (s.occ.flow.rdepth != 0) (s.faultAt .k 0x0A)
    let s1 ← s.fillRet
    let f := s1.occ.flow
    match f.ret with
    | [] => .error (s.faultAt .k 0x0A)
    | e :: rest =>
      require (f.ddepth == e.ddepth) (s.faultAt .k 0x0B)
      let depth := f.rdepth - 1
      let s2 := s1.setFlow { f with ret := rest, loops := f.loops.filter fun l => l.rdepth ≤ depth,
                                       skips := f.skips.filter fun k => k.2.1 ≤ depth }
      if !e.vKind then s2.returnTo e.retline s.kmask
      else
        let s3 ← s2.fillDiv
        let f3 := s3.occ.flow
        match f3.div with
        | [] => .error (s.faultAt .k 0x0B)
        | v :: below =>
          match s.occ.dispatch v.treg v.pending with
          | some (target, sub) =>
            lineTarget target ((maskLanes v.pending s.occ.width).headD 0)
            let s4 ← (s3.setFlow { f3 with div := { v with pending := v.pending &&& ~~~sub } :: below }).pushRet
              { vKind := true, ddepth := f3.ddepth, retline := e.retline }
            s4.transfer target sub
          | none => (s3.setFlow { f3 with div := below }).returnTo e.retline v.saved

/-- LOOP (R121, R122). DESIGN CHOICE (log 42): of two loop skips that wait for one line, the later LOOP's is taken. -/
def execLoopOpen (g : KG) (lc : BitVec 2) (byImm : Bool) (a : BitVec 6) (e count : BitVec 16) (s : State) : Out :=
  kDo g 2 s fun s => do
    let f := s.occ.flow
    require (!(f.loops.any (·.lc == lc.toNat)) && e != 0) (.trap 0x1B 0 (s.pcOf .k))
    let n : Word := if byImm then count.setWidth 32 else (s.getS a).setWidth 32
    let line := lineOf64 (s.pcOf .k)
    if n = 0 then
      let f := s.dropSkip.occ.flow
      .ok (s.setFlow { f with skips := (line, f.rdepth, line + BitVec.ofNat 64 (32 * (e.toNat + 1))) :: f.skips })
    else .ok (s.setFlow { f with
      lc := setAt 0 f.lc lc.toNat n
      loops := { lc := lc.toNat, start := line + 32, span := e.toNat, ddepth := f.ddepth, rdepth := f.rdepth } :: f.loops })

/-- LBRK (R125): the loop and every loop bound after it are unbound; the transfer is exempt from the T check. -/
def execLbrk (g : KG) (lc : BitVec 2) (s : State) : Out :=
  kBranch g s fun s => do
    let f := s.occ.flow
    match f.loops.find? (·.lc == lc.toNat) with
    | none => .error (.trap 0x1B 0 (s.pcOf .k))
    | some l =>
      require (l.ddepth == f.ddepth) (.trap 0x1B 0 (s.pcOf .k))
      let outer := (f.loops.dropWhile fun x => x.lc != lc.toNat).drop 1
      let target := l.start + BitVec.ofNat 64 (32 * l.span)
      (s.setFlow { s.dropSkip.occ.flow with loops := outer }).resolve true target s.kmask (lineOf64 target + 4)

/-- The engines that stand with engine e go on to an address. -/
def Occ.moveWith (o : Occ) (e : Eng) (q : DWord) : Occ := { o with pcs := o.pcs.map fun f a => if o.standsWith e f then q else a }

/-- LINE_END_ACTION (R122, R123): the engines stand behind lane 7 of a line, at lane field 0 of the next address. The
K engine, when it is among them, completes the line, and the others follow; engines without it go on to the next line. -/
def execLineEndAction (s : State) : Out :=
  let p := s.occ.pcs.k
  if laneOf p ≠ 0 then
    .next (s.leaveLine.mapOcc fun o => { o with pcs := o.pcs.map fun _ a => if laneOf a = 0 then a + 4 else a })
  else
    match s.occ.flow.complete (p - 32) with
    | .error n => .next (s.leaveLine.trap { code := 0x1B, eng := .k, info := BitVec.ofNat 64 (1 + 2 * n), addr := p - 32 } p)
    | .ok (f, some t) => run .k 0 s ((s.setFlow f).resolve true t (f.maskOf .k) (lineOf64 t + 4))
    | .ok (f, none) => .next ((s.setFlow f).leaveLine.mapOcc (·.moveWith .k (p + 4)))

end Sys2Proof.Machine
end

