-- ==== Sys2Proof/Machine/Async.lean ====
section
/-! DEFINITION. Asynchronous commands: acting for the occupant that a command belongs to, halting on a fault (R191,
R397), semaphores as the device signals them (R196, R446), and causes of classes A, E and X (R370). -/

namespace Sys2Proof.Machine

/-! ## Acting for another group or occupant -/

/-- Do something with group gid in focus, and put the focus back. -/
def State.onGroup (s : State) (gid : Nat) (f : State → State) : State :=
  if s.me.gid = gid then f s
  else
    match s.others.find? fun (g : Group) => g.gid == gid with
    | none => s
    | some g =>
      let t := f { s with me := g, others := modifyFirst (fun h => h.gid == gid) (fun _ => s.me) s.others }
      let back := (t.others.find? fun (h : Group) => h.gid == s.me.gid).getD s.me
      if t.me.run = .vacant then { t with me := back, others := t.others.filter fun h => h.gid != s.me.gid }
      else { t with me := back, others := modifyFirst (fun h => h.gid == s.me.gid) (fun _ => t.me) t.others }

/-- Do something for the occupant of the group in focus that `sel` chooses, the running one first. -/
def State.onOcc (s : State) (sel : Occ → Bool) (f : State → State) : State :=
  if sel s.me.occ then f s
  else
    match s.me.under.findIdx? sel with
    | none => s
    | some j =>
      let top := s.me.occ
      let o := s.me.under.getD j top
      let t := f { s with me := { s.me with occ := o, under := s.me.under.set j top } }
      { t with me := { t.me with occ := t.me.under.getD j top, under := t.me.under.set j t.me.occ } }

/-- Every occupant of a group, the running one first. -/
def Group.occs (g : Group) : List Occ := g.occ :: g.under

/-- Do something for the occupant that holds memory command uid of group gid. -/
def State.forCmd (s : State) (gid uid : Nat) (f : MemCmd → State → State) : State :=
  s.onGroup gid fun s => s.onOcc (fun o => o.cmds.any (·.uid == uid)) fun s =>
    match s.occ.cmds.find? (·.uid == uid) with
    | some c => f c s
    | none => s

/-! ## Causes (R370) -/

/-- Add a cause that waits for a boundary. -/
def State.addCause (s : State) (c : Cause) : State := s.mapOcc fun o => { o with causes := o.causes ++ [c] }

/-- The group has made progress (R366). -/
def State.progressed (s : State) : State := { s with me := { s.me with progress := s.cyc, recorded := s.me.recorded && (s.occ.wait.isSome || s.occ.parked.isSome) } }

/-! ## Memory commands -/

def State.setCmd (s : State) (c : MemCmd) : State :=
  s.mapOcc fun o => { o with cmds := modifyFirst (·.uid == c.uid) (fun _ => c) o.cmds }

def MemCmd.tag (c : MemCmd) : Nat := ((c.quad.getD 2 0).extractLsb' 48 16).toNat

/-- A command is complete (R190), with an error record or without (R194). -/
def State.completeCmd (s : State) (c : MemCmd) (error : Bool) : State :=
  s.mapOcc fun o => { o with cmds := o.cmds.filter (·.uid != c.uid),
                             cmdErrs := if error then o.cmdErrs ++ [c.tag] else o.cmdErrs }

/-- A command meets a fault: it halts with its progress, and at user level the group is to trap (R191, R373, R397). -/
def State.haltCmd (s : State) (c : MemCmd) (stop : Stop) : State :=
  let s := s.setCmd { c with halted := true }
  match stop with
  | .trap code info addr =>
    if s.occ.trapLevel then s else s.addCause { code, eng := .m, info, addr, cmd := c.uid, pc := some c.addr }
  | _ => s

/-- What MemInfo an element's access reports. -/
def MemCmd.info (c : MemCmd) (atomic : Bool) : MemInfo := { async := true, tag := c.tag, index := c.i, atomic }

/-- The key of n bytes that a command accesses; lost data is a fault of the command (R399). -/
def State.cmdKey (s : State) (space core : Nat) (addr : DWord) (n : Nat) (acc : Access) (i : MemInfo) : Act Nat := do
  let k ← s.keyOf space core 0 addr n acc i
  match acc, s.lost k n with
  | .write, _ => .ok k
  | _, some p => .error (.trap 0x1C (s.lostInfo k true) (addr + BitVec.ofNat 64 (p - k)))
  | _, none => .ok k

/-! ## Semaphores as the device adds to them (R196, R446) -/

/-- Add n to the COUNT at a key, unless it would pass 0xFFFF_FFFF. -/
def State.signal (s : State) (k n : Nat) : Option State :=
  let c := s.mem.getN k 4
  if 0xFFFFFFFF < c + n then none else some (s.poke k (toBytes 4 (c + n)))

/-- The signal of a command (R189, R192, R226): an overflow is an error record and cause 0x12 of class A. `pc` is the
command's instruction address. Answers whether it was applied; none where it overflows at trap level, where the command raises nothing
and is to halt (R373). -/
def State.cmdSignal (s : State) (k : Nat) (eng : Eng) (addr pc : DWord) : Option (State × Bool) :=
  match s.signal k 1 with
  | some t => some ((t.countRead k 8).countWrite k 8, true)
  | none =>
    if s.occ.trapLevel then none else some (s.addCause { code := 0x12, eng, info := 0, addr, pc := some pc }, false)

/-- A command that can no longer succeed completes with an error record, and its group takes 0x12 of class A (R198, R291, R369); at trap
level it halts, and meets its failure again after RFT (R373). -/
def State.failCmd (s : State) (c : MemCmd) : State :=
  if s.occ.trapLevel then s.setCmd { c with halted := true }
  else (s.completeCmd c true).addCause { code := 0x12, eng := .m, info := 0, addr := c.addr, pc := some c.addr }

end Sys2Proof.Machine
end

