-- ==== Sys2Proof/Machine/Move.lean ====
section
/-! DEFINITION. Tile-moves: TMOV and TMCAST, their progress, deliveries and completion, TWAIT and TSTAT (R183 to R195,
R397, R442, R446). -/

namespace Sys2Proof.Machine

/-! ## The descriptor (R183) -/

structure Move where
  ssp : Nat
  sa : DWord
  speer : Nat
  dsp : Nat
  da : DWord
  dpeer : Nat
  cols : Nat
  rows : Nat
  esz : Nat
  mode : Nat
  tap : Nat
  conv : Nat
  tag : Nat
  sstride : DWord
  dstride : DWord
  fill : Nat
  deriving DecidableEq, Repr

/-- The core field of an address word. -/
def packedPeer (a : DWord) : Nat := (a.extractLsb' 48 13).toNat

def Move.ofQuad (q : List DWord) : Move :=
  let w0 := q.getD 0 0; let w1 := q.getD 1 0; let w2 := (q.getD 2 0).toNat; let w3 := q.getD 3 0
  { ssp := packedSpace w0, sa := packedOff w0, speer := packedPeer w0,
    dsp := packedSpace w1, da := packedOff w1, dpeer := packedPeer w1,
    cols := bitsOf w2 15 0, rows := bitsOf w2 31 16, esz := bitsOf w2 35 32, mode := bitsOf w2 39 36,
    tap := bitsOf w2 43 40, conv := bitsOf w2 47 44, tag := bitsOf w2 63 48,
    sstride := (w3.extractLsb' 0 32).signExtend 64, dstride := (w3.extractLsb' 32 32).signExtend 64,
    fill := bitsOf w0.toNat 47 0 }

def MemCmd.move (c : MemCmd) : Move := Move.ofQuad c.quad

/-- Bits of a source element. -/
def Move.srcBits (d : Move) : Nat := if d.esz = 4 then 4 else 8 * 2 ^ d.esz

/-- A conversion (R186): source element size, source format, destination format. -/
def convRow (code : Nat) : Option (Nat × Fmt × Fmt) :=
  match code with
  | 0 => some (2, f32, bf16)
  | 1 => some (2, f32, f16)
  | 2 => some (1, bf16, f32)
  | 3 => some (1, f16, f32)
  | 4 => some (2, f32, e4m3)
  | 5 => some (2, f32, e5m2)
  | 6 => some (0, e4m3, f32)
  | 7 => some (0, e5m2, f32)
  | 8 => some (2, f32, e2m1)
  | 9 => some (4, e2m1, f32)
  | _ => none

/-- Bits of a destination element. -/
def Move.dstBits (d : Move) : Nat :=
  if d.mode = 4 then match convRow d.conv with | some (_, _, t) => t.width | none => d.srcBits else d.srcBits

/-- Elements that a move counts through: entries of its tap in mode 3. -/
def Move.count (d : Move) : Nat := if d.mode = 3 then d.cols else d.rows * d.cols

/-- The first byte and one past the last of rows of n bytes each, from both ends (R184), n = 0 among them. DEDUCED (log 73): without a
row there are no ends, and the extent is empty. -/
def spanOf (base : DWord) (rows : Nat) (stride : DWord) (bytes : Nat) : Int × Int :=
  if rows = 0 then (base.toNat, base.toNat)
  else
    let far : Int := (base.toNat : Int) + ((rows : Int) - 1) * stride.toInt
    (min (base.toNat : Int) far, max (base.toNat : Int) far + (bytes : Int))

def rowBytes (n bits : Nat) : Nat := (n * bits + 7) / 8

def Move.srcSpan (d : Move) : Int × Int :=
  if d.mode = 5 then (0, 0) else spanOf d.sa d.rows d.sstride (rowBytes d.cols d.srcBits)

def Move.dstSpan (d : Move) : Int × Int :=
  match d.mode with
    | 1 => spanOf d.da d.cols d.dstride (rowBytes d.rows d.dstBits)
    | 3 => spanOf d.da 1 0 (2 * rowBytes d.cols d.dstBits)
    | _ => spanOf d.da d.rows d.dstride (rowBytes d.cols d.dstBits)

/-- The address of element (r, k) of a side: its row base, and its index in the row. -/
def elemAddr (base stride : DWord) (r k bits : Nat) : DWord :=
  base + BitVec.ofNat 64 r * stride + BitVec.ofNat 64 (k * bits / 8)

/-! ## The checks of R184 -/

def State.tapSink (s : State) (tap : Nat) : Nat := (s.core.dda.taps.getD tap Tap.reset).sink

/-- A scratchpad extent against R173 (fault 0x07), PEER up to the scratchpad's size. -/
def State.extentOk (s : State) (space : Nat) (sp : Int × Int) : Bool :=
  space == 0 || decide (sp.2 ≤ sp.1) || (decide (0 ≤ sp.1) && decide (sp.2 ≤ (s.extentOf space : Int)))

/-- A PEER extent against the context's allocations (fault 0x06). -/
def State.peerOk (s : State) (space core : Nat) (sp : Int × Int) : Bool :=
  space != 5 || (decide (core < Config.coresOf s.die)
    && (decide (sp.2 ≤ sp.1) || s.allocated s.me.ctx (Config.coreKey s.die core) sp.1.toNat (sp.2 - sp.1).toNat))

/-- The rows of R184's table that concern the descriptor alone. -/
def State.checkMove (s : State) (d : Move) : Act Unit := do
  let ill := s.faultAt .m 0x0B
  let noSp (n : Nat) : Bool := n == 4 || n == 6 || n == 7
  require (!(noSp d.ssp || noSp d.dsp || (d.speer != 0 && d.ssp != 5) || (d.dpeer != 0 && d.dsp != 5)
    || (d.tap != 0 && d.mode != 3) || (d.conv != 0 && d.mode != 4) || (d.mode == 5 && (d.ssp != 0 || d.speer != 0)))) ill
  require (!(6 ≤ d.mode || 5 ≤ d.esz
    || (d.mode == 4 && (match convRow d.conv with | some (e, _, _) => e != d.esz | none => true))
    || (d.esz == 4 && d.mode != 0 && d.mode != 4 && d.mode != 5) || (d.mode == 2 && d.esz != 3))) ill
  require (!(d.esz == 4 && d.cols % 2 == 1)) ill
  let se := max 1 (d.srcBits / 8)
  let de := max 1 (d.dstBits / 8)
  require ((d.mode == 5 || d.sa.toNat % se == 0) && d.sstride.toNat % se == 0) (.trap 4 ({} : MemInfo).bits d.sa)
  require (d.da.toNat % de == 0 && d.dstride.toNat % de == 0)
    (.trap 4 ({ write := true, atomic := d.mode == 2 } : MemInfo).bits d.da)

/-- Its rows that concern the extents and the DDA. -/
def State.checkExtents (s : State) (d : Move) (dstPeer : Bool) : Act Unit := do
  let wr : MemInfo := { write := true, atomic := d.mode == 2 }
  let src := d.srcSpan
  let dst := d.dstSpan
  require (s.extentOk d.ssp src) (.trap 7 ({} : MemInfo).bits (BitVec.ofInt 64 src.1))
  require (s.extentOk d.dsp dst) (.trap 7 wr.bits (BitVec.ofInt 64 dst.1))
  require (s.peerOk d.ssp d.speer src) (.trap 6 ({} : MemInfo).bits (BitVec.ofInt 64 src.1))
  require (!dstPeer || s.peerOk d.dsp d.dpeer dst) (.trap 6 wr.bits (BitVec.ofInt 64 dst.1))
  require (d.mode != 3 || s.ownsDda) (s.faultAt .m 0x11)
  require (d.mode != 3 || (d.rows == 1 && s.tapSink d.tap == 3)) (s.faultAt .m 0x0B)

def State.spanOfSide (s : State) (space core : Nat) (sp : Int × Int) (wr : Bool) : List Range :=
  s.spanRanges space core sp.1.toNat sp.2.toNat wr

/-- The byte ranges that a move writes row by row, for the check of streams (R200). -/
def State.moveWrites (s : State) (d : Move) : List Range :=
  if d.rows = 0 || d.cols = 0 then []
  else
    let (rows, cols) := if d.mode = 1 then (d.cols, d.rows) else if d.mode = 3 then (1, 2 * d.cols) else (d.rows, d.cols)
    (List.range rows).flatMap fun r =>
      let a := (elemAddr d.da d.dstride r 0 8).toNat
      s.spanRanges d.dsp d.dpeer a (a + rowBytes cols d.dstBits) true

/-- A memory command finds room among the group's eight, those of its helpers included (R190, R308). -/
def State.cmdRoom (s : State) : Act Unit := require (decide ((s.me.occs.flatMap (·.cmds)).length < 8)) (.wait 22 0 0 0)

/-- Accept a memory command: it is given a handle, and everything stored before it has taken effect (R181). -/
def State.acceptCmd (s : State) (c : MemCmd) : State :=
  { s.drain with uid := s.uid + 1 }.mapOcc fun o => { o with cmds := o.cmds ++ [{ c with uid := s.uid }] }

/-- The ranges that a memory command declares (R181): its source extent, and for a TMOV its destination extent and its semaphore. -/
def State.moveRanges (s : State) (op : Nat) (d : Move) (sem : List Range) : List Range :=
  s.spanOfSide d.ssp d.speer d.srcSpan false ++ if op = 0x0B then s.spanOfSide d.dsp d.dpeer d.dstSpan true ++ sem else []

/-- The range of the semaphore that a TMOV signals. -/
def State.semRange (s : State) (space : Nat) (sem : Option DWord) : List Range :=
  match sem with | some a => [s.range space 0 a.toNat 8 true] | none => []

def State.quad (s : State) (r : Nat) : List DWord := (List.range 4).map fun k => s.occ.getS (r + k)

/-- The signal of a TMOV, if any, at its completion (R189, R446). -/
def State.finishMove (s : State) (c : MemCmd) : State :=
  match c.sem with
  | none => s.completeCmd c false
  | some a =>
    match s.cmdKey c.space 0 a 8 .both { c.info true with write := true } with
    | .error stop => s.haltCmd c stop
    | .ok k =>
      match s.cmdSignal k .m a c.addr with
      | some (t, ok) => t.completeCmd c (!ok)
      | none => s.setCmd { c with halted := true }

/-- TMOV (R184, R189). -/
def vTmov (f : VF) (x : Option MX) (s : State) : Out :=
  mOnce 0x0B f x s fun x s => do
    let q := s.quad f.d.toNat
    let d := Move.ofQuad q
    s.checkMove d
    s.checkExtents d true
    let semAddr := s.uniformAddr f x
    let sem := f.a != 0
    if sem then
      let _ ← s.keyOf x.sp.toNat 0 0 semAddr 8 .both { atomic := true }
    let semR := s.semRange x.sp.toNat (if sem then some semAddr else none)
    let rs := s.moveRanges 0x0B d semR
    s.cmdRoom
    s.checkRanges rs
    if s.occ.streams.any (·.bound) then s.checkStreams .m (s.moveWrites d ++ semR)
    let c : MemCmd := { uid := s.uid, op := 0x0B, quad := q, route := s.occ.getS f.a.toNat,
                        sem := if sem then some semAddr else none, off := x.imm, space := x.sp.toNat,
                        scope := x.sc.toNat, halted := false, i := 0, j := 0, deliveries := 0,
                        error := false, ranges := rs, addr := s.pcOf .m }
    let t := s.acceptCmd c
    .ok (if d.rows = 0 || d.cols = 0 then t.finishMove c else t)
def execTmov (f : VF) (s : State) : Out := vTmov f none s
def execTmov64 (f : VF) (x : MX) (s : State) : Out := vTmov f (some x) s

/-! ## Routes (R192, R193) -/

/-- What a walk of a route finds: the tiles delivered to, in order, or the position of the first offence. -/
inductive Route where
  | tiles (ts : List Nat)
  | bad (pos : Nat)
  | noDelivery (pos : Nat)
  deriving DecidableEq, Repr

/-- The walk from symbol n on; x and y are the tile reached, `out` the deliveries so far, newest first; a delivery into a
cluster that is disabled offends (R416). -/
def routeFrom (off : Nat → Bool) (w : Nat) : Nat → Nat → Int → Int → List Nat → Route
  | 0, _, _, _, out => if out = [] then .noDelivery 21 else .tiles out.reverse
  | fuel + 1, n, x, y, out =>
    let step (dx dy : Int) : Route :=
      let x' := x + dx; let y' := y + dy
      if 0 ≤ x' ∧ x' < 12 ∧ 0 ≤ y' ∧ y' < 12 then routeFrom off w fuel (n + 1) x' y' out else .bad n
    let here := (y * 12 + x).toNat
    match bitsOf w (3 * n + 2) (3 * n) with
    | 0 => if out = [] then .noDelivery n else .tiles out.reverse
    | 1 => step 0 (-1)
    | 2 => step 1 0
    | 3 => step 0 1
    | 4 => step (-1) 0
    | 5 => if off here then .bad n else routeFrom off w fuel (n + 1) x y (here :: out)
    | 6 => if off here then .bad n else .tiles (here :: out).reverse
    | _ => .bad n

/-- The route of a word from a tile; bit 63 is looked at first (R369). -/
def routeOf (off : Nat → Bool) (tile : Nat) (w : DWord) : Route :=
  if w.getLsbD 63 then .bad 21 else routeFrom off w.toNat 21 0 ((tile % 12 : Nat) : Int) ((tile / 12 : Nat) : Int) []

/-- The tiles to which a TMCAST delivers, in the order in which its deliveries land: a free one (R192). Two deliveries to one tile
are alike, so that any order of them is route order. -/
def MemCmd.tiles (c : MemCmd) (tile : Nat) : List Nat :=
  match routeOf (fun _ => false) tile c.route with
  | .tiles [t] => [t]
  | .tiles ts => shuffleFrom c.seed ts
  | _ => []

/-- While the route tables of a die are regenerated, its TMCAST and CSEND issues wait (R400). -/
def State.routesThere (s : State) (die : Nat) : Act Unit := require (!(s.dieAt die).routesAwaited) (.wait 22 0 0 0)

/-- TMCAST (R192, R193): the rows of R193's table, those of R184 among them, then the demands of R192's prose (R445). -/
def execTmcast (f : VF) (x : MX) (s : State) : Out :=
  mOnce 0x0C f (some x) s fun x s => do
    require s.tile (s.faultAt .m 0x0B)
    let q := s.quad f.d.toNat
    let d := Move.ofQuad q
    s.checkMove d
    s.checkExtents d false
    let route := s.occ.getS f.b.toNat
    let ts ← match routeOf (fun t => (s.coreAt (Config.coreKey s.die t)).disabled) (Config.coreIndex s.me.place.core) route with
      | .tiles ts => .ok ts
      | .bad n => .error (s.faultAt .m 0x1A (BitVec.ofNat 64 n))
      | .noDelivery n => .error (s.faultAt .m 0x1A (BitVec.ofNat 64 (n + 32)))
    let wr : MemInfo := { write := true }
    require (ts.all fun t => s.peerOk 5 t d.dstSpan) (.trap 6 wr.bits (BitVec.ofInt 64 d.dstSpan.1))
    let sem := ((s.occ.getS f.a.toNat).setWidth 32).setWidth 64
    let semInfo : MemInfo := { write := true, atomic := true }
    require (f.a == 0 || ts.all fun t => s.peerOk 5 t (sem.toNat, sem.toNat + 8)) (.trap 6 semInfo.bits sem)
    require (d.mode == 0 && d.dsp == 5 && d.dpeer == 0) (s.faultAt .m 0x0B)
    if f.a ≠ 0 then
      require (sem.toNat % 8 == 0) (.trap 4 semInfo.bits sem)
    let rs := s.spanOfSide d.ssp d.speer d.srcSpan false
    s.routesThere s.die
    s.cmdRoom
    s.checkRanges rs
    let own := Config.coreIndex s.me.place.core
    if ts.contains own && s.occ.streams.any (·.bound) then
      s.checkStreams .m (s.moveWrites { d with dpeer := own } ++ if f.a = 0 then [] else [s.range 5 own sem.toNat 8 true])
    let seed := s.freeSeq
    let c : MemCmd :=
      { uid := 0, op := 0x0C, quad := q, route, sem := if f.a ≠ 0 then some sem else none, off := 0, space := 5,
        scope := x.sc.toNat, halted := false, i := 0, j := 0, deliveries := 0, error := false, seed, ranges := rs,
        addr := s.pcOf .m }
    .ok ({ s with freeSeq := seed + ts.length }.acceptCmd c)

/-! ## One element (R185 to R188) -/

/-- The element at index k of a row that begins at `row`. -/
def State.readElem (s : State) (space core : Nat) (row : DWord) (k bits : Nat) (i : MemInfo) : Act (State × Nat) := do
  let n := max 1 (bits / 8)
  let key ← s.cmdKey space core (row + BitVec.ofNat 64 (k * bits / 8)) n .read i
  let v := s.mem.getN key n
  if bits = 4 then .ok (if k % 2 = 0 then s.countRead key 1 else s, if k % 2 = 0 then v % 16 else v / 16)
  else .ok (s.countRead key n, v)

/-- Write an element at a key, a 4-bit one into its half of the byte. -/
def State.putElem (s : State) (key k bits v : Nat) : State :=
  if bits = 4 then
    let old := s.mem.getN key 1
    let new := if k % 2 = 0 then old / 16 * 16 + v % 16 else old % 16 + v % 16 * 16
    let t := s.poke key (toBytes 1 new)
    if k % 2 = 0 then t.countWrite key 1 else t
  else (s.poke key (toBytes (bits / 8) v)).countWrite key (bits / 8)

/-- Write element k of a row of the destination; in GLOBAL the lines written stay whole for fetches while the move runs (R44). -/
def State.writeElem (s : State) (c : MemCmd) (space core : Nat) (row : DWord) (k bits v : Nat) : Act State := do
  let n := max 1 (bits / 8)
  let key ← s.cmdKey space core (row + BitVec.ofNat 64 (k * bits / 8)) n .write { c.info false with write := true }
  .ok ((if space = 0 then s.tear 0 c.uid true key else s).putElem key k bits v)

/-- The depth-merge of R187. -/
def State.mergeElem (s : State) (c : MemCmd) (space core : Nat) (addr : DWord) (v : Nat) : Act State := do
  let key ← s.cmdKey space core addr 8 .both { c.info true with write := true }
  let old := s.mem.getN key 8
  let s := s.countRead key 8
  if cmpNum (f32.decode (v / 2 ^ 32)) (f32.decode (old / 2 ^ 32)) = some .lt then
    .ok (((if space = 0 then s.tear 0 c.uid true key else s).poke key (toBytes 8 v)).countWrite key 8)
  else .ok s

def rowAt (base stride : DWord) (r : Nat) : DWord := base + BitVec.ofNat 64 r * stride

/-- Element number c.i of a move in modes 0, 1, 2, 4 and 5. -/
def State.moveElem (s : State) (c : MemCmd) (d : Move) : Act State := do
  let r := c.i / d.cols
  let k := c.i % d.cols
  let (s, v) ← if d.mode = 5 then .ok (s, d.fill % 2 ^ d.srcBits)
    else s.readElem d.ssp d.speer (rowAt d.sa d.sstride r) k d.srcBits (c.info false)
  match d.mode with
  | 1 => s.writeElem c d.dsp d.dpeer (rowAt d.da d.dstride k) r d.dstBits v
  | 2 => s.mergeElem c d.dsp d.dpeer (rowAt d.da d.dstride r + BitVec.ofNat 64 (8 * k)) v
  | 4 =>
    match convRow d.conv with
    | some (_, sf, tf) =>
      let (w, n) := tf.conv 0 false (sf.decode v)
      let t ← s.writeElem c d.dsp d.dpeer (rowAt d.da d.dstride r) k d.dstBits w
      .ok (t.countSat n)
    | none => .ok s
  | _ => s.writeElem c d.dsp d.dpeer (rowAt d.da d.dstride r) k d.dstBits v

/-- Whether the group in focus holds the DDA of its core, at whatever adoption depth (R250). -/
def State.holdsDda (s : State) : Bool :=
  match s.core.dda.owner with | some (g, _) => g == s.me.gid | none => false

/-- The next entry of a move's tap, when the move may take it: its group owns the DDA, which is not frozen, the tap is bound to sink 3,
and no earlier mode-3 move waits on the same tap (R188, R442). -/
def State.nextEntry (s : State) (c : MemCmd) (d : Move) : Option Int :=
  let dda := s.core.dda
  let first := s.occ.cmds.find? fun e => e.op == 0x0B && e.move.mode == 3 && e.move.tap == d.tap
  if !s.holdsDda || dda.frozen || s.tapSink d.tap != 3 || first.map (·.uid) != some c.uid then none
  else (dda.taps.getD d.tap Tap.reset).fifo.head?

/-- Take the head entry of a tap of the core. -/
def State.dropEntry (s : State) (tap : Nat) : State :=
  s.modCore s.me.place.core fun k =>
    let t := k.dda.taps.getD tap Tap.reset
    { k with dda := { k.dda with taps := setAt Tap.reset k.dda.taps tap { t with fifo := t.fifo.drop 1 } } }

/-- Element i of the source goes to element j of the destination. -/
def State.copyElem (s : State) (c : MemCmd) (d : Move) (j : Nat) : Act State := do
  let (s, v) ← s.readElem d.ssp d.speer d.sa c.i d.srcBits (c.info false)
  s.writeElem c d.dsp d.dpeer d.da j d.dstBits v

/-- One entry of mode 3 (R188): its 0 to 2 writes, and the next source element; answers the command as it then stands. Where the second
write of an entry faults, the first has not been made either, so that no element is written twice (R191). -/
def State.stepMode3 (s : State) (c : MemCmd) (d : Move) (dz : Int) : Act (State × MemCmd) := do
  let done (t : State) (n : Nat) : State × MemCmd := (t.dropEntry d.tap, { c with i := c.i + 1, j := c.j + n })
  if dz < 0 then .ok (done s 0)
  else
    let t ← s.copyElem c d c.j
    if dz = 0 then .ok (done t 1)
    else
      let u ← t.copyElem c d (c.j + 1)
      .ok (done u 2)

/-- One element of a delivery of a TMCAST to a tile. -/
def State.castElem (s : State) (c : MemCmd) (d : Move) (tile : Nat) : Act State := do
  let r := c.i / d.cols
  let k := c.i % d.cols
  let (s, v) ← s.readElem d.ssp d.speer (rowAt d.sa d.sstride r) k d.srcBits (c.info false)
  s.writeElem c 5 tile (rowAt d.da d.dstride r) k d.dstBits v

/-- Run a step of a command, halting it at a fault. -/
def State.cmdStep (s : State) (c : MemCmd) (r : Act (State × MemCmd)) : State :=
  match r with
  | .ok (t, c') => (t.setCmd c').progressed
  | .error stop => s.haltCmd c stop

def nextTile (s : State) (c : MemCmd) : Option Nat := (c.tiles (Config.coreIndex s.me.place.core))[c.deliveries]?

/-- One element of a command that runs. -/
def State.moveStep (c : MemCmd) (s : State) : State :=
  let d := c.move
  if c.halted then s
  else if c.op = 0x0C then
    match nextTile s c with
    | some t => if c.i < d.rows * d.cols then s.cmdStep c ((s.castElem c d t).map fun s => (s, { c with i := c.i + 1 })) else s
    | none => s
  else if c.op ≠ 0x0B || d.count ≤ c.i then s
  else if d.mode = 3 then
    match s.nextEntry c d with
    | some dz => s.cmdStep c (s.stepMode3 c d dz)
    | none => s
  else s.cmdStep c ((s.moveElem c d).map fun s => (s, { c with i := c.i + 1 }))

/-- MOVE_PROGRESS (R185, R188): a running move reads and writes its next element. -/
def execMoveProgress (gid cmd : Nat) (s : State) : Out := .next (s.forCmd gid cmd fun c s => s.moveStep c)

/-- MEMORY_COMMAND_COMPLETE (R190): the last write and the signal of a command have taken effect. A CSEND completes when
its slot is published (R288). -/
def execMemoryCommandComplete (gid cmd : Nat) (s : State) : Out :=
  .next (s.forCmd gid cmd fun c s =>
    if c.halted then s
    else if c.op = 0x0B && c.move.count ≤ c.i then (s.finishMove c).progressed
    else if c.op = 0x0C && nextTile s c = none then (s.completeCmd c c.error).progressed
    else s)

/-- The elements of a delivery that have not landed; `fuel` bounds them. -/
def State.castRest (s : State) (c : MemCmd) (d : Move) (tile : Nat) : Nat → State × MemCmd × Bool
  | 0 => (s, c, true)
  | fuel + 1 =>
    match s.castElem c d tile with
    | .ok t => t.castRest { c with i := c.i + 1 } d tile fuel
    | .error stop => (s.haltCmd c stop, { c with halted := true }, false)

/-- The signal of a delivery, after its own bytes (R192); lost bytes of the semaphore halt the command (R399). -/
def State.castSignal (s : State) (c : MemCmd) (tile : Nat) : State :=
  let next (s : State) (ok : Bool) : State :=
    (s.setCmd { c with i := 0, deliveries := c.deliveries + 1, error := c.error || !ok }).progressed
  match c.sem with
  | none => next s true
  | some a =>
    match s.cmdKey 5 tile a 8 .both { c.info true with write := true } with
    | .error stop => s.haltCmd c stop
    | .ok k =>
      match s.cmdSignal k .m a c.addr with
      | some (t, ok) => next t ok
      | none => s.setCmd { c with halted := true }

/-- TMCAST_DELIVERY (R192): the rest of one delivery lands and signals. -/
def execTmcastDelivery (gid cmd : Nat) (s : State) : Out :=
  .next (s.forCmd gid cmd fun c s =>
    if c.halted || c.op ≠ 0x0C then s
    else match nextTile s c with
      | none => s
      | some t =>
        let d := c.move
        match s.castRest c d t (d.rows * d.cols - c.i) with
        | (s, _, false) => s
        | (s, c, true) => s.castSignal c t)

/-! ## Completion observed (R194, R195) -/

def selected (sel : DWord) (tag : Nat) : Bool := sel.getLsbD 16 || tag == sel.toNat % 2 ^ 16

def execTwait (f : VF) (s : State) : Out :=
  mOnce 0x0D f none s fun _ s => do
    let sel := s.occ.getS f.a.toNat
    require (sel.toNat / 2 ^ 17 == 0) (s.faultAt .m 0x0B)
    require (!(s.occ.cmds.any fun c => selected sel c.tag)) (.wait 13 0 0 0)
    let err := s.occ.cmdErrs.any (selected sel)
    .ok (s.mapOcc fun o =>
      { o with cmdErrs := o.cmdErrs.filter fun t => !selected sel t }.setS f.d.toNat (if err then 1 else 0))

def execTstat (f : VF) (s : State) : Out :=
  mOnce 0x0E f none s fun _ s => do
    let sel := s.occ.getS f.a.toNat
    require (sel.toNat / 2 ^ 17 == 0) (s.faultAt .m 0x0B)
    let n := (s.occ.cmds.filter fun c => selected sel c.tag).length
    let err := s.occ.cmdErrs.any (selected sel)
    .ok (s.mapOcc (·.setS f.d.toNat (BitVec.ofNat 64 (n + err.toNat * 2 ^ 63))))

end Sys2Proof.Machine
end

