-- ==== Sys2Proof/Machine/Stream.lean ====
section
/-! DEFINITION. Stream registers (R199 to R202), semaphores (R196), and the sending side of the couch bridge
(R197, R198, R286 to R288). -/

namespace Sys2Proof.Machine

/-! ## SBIND, STREAM_FETCH and SFREE -/

/-- The first element of a stream that leaves a scratchpad extent of `size` bytes (R200): its index. -/
def firstOutside (size : Nat) (addr : DWord) (stride : Int) (n count : Nat) : Option Nat :=
  let a : Int := addr.toNat
  let ok (k : Nat) : Bool := decide (0 ≤ a + stride * k) && decide (a + stride * k + n ≤ size)
  if !ok 0 then some 0
  else if 0 < stride then
    let k := (((size : Int) - n - a) / stride).toNat + 1
    if k < count then some k else none
  else if stride < 0 then
    let k := (a / (-stride)).toNat + 1
    if k < count then some k else none
  else none

/-- The values of the elements of a memory stream as they stand at its SBIND, its place in group order (R200, R345); none for an element
that cannot be read then. Another group's later write races with the stream, and the model takes the value at the SBIND (log 23). -/
def State.atBind (s : State) (w : Stream) : List (Option Word) :=
  (List.range w.left).map fun k =>
    match s.cmdKey w.space 0 (w.addr + BitVec.ofNat 64 k * w.stride) (sizeBytes w.size) .read {} with
    | .ok key => some (BitVec.ofNat 32 (s.mem.getN key (sizeBytes w.size)))
    | .error _ => none

/-- SBIND (R199, R200). DEDUCED (log 23): sp other than 0 or sz other than 2 with kind 1, for which R199 names no fault, takes 0x0B
as a value of the operands, not 0x02 as a field of the encoding. -/
def vSbind (f : VF) (x : Option MX) (s : State) : Out :=
  mOnce 0x0F f x s fun x s => do
    let ill := s.faultAt .m 0x0B
    let k := f.d.toNat % 16
    require (!(s.occ.stream k).bound) ill
    let w0 := s.occ.getS f.a.toNat
    let w1 := s.occ.getS (f.a.toNat + 1)
    let tap := w0.getLsbD 63
    let count := w1.toNat % 2 ^ 32
    let stride : DWord := (w1.extractLsb' 32 32).signExtend 64
    require (w0.extractLsb' 48 15 == 0) ill
    if tap then
      require (x.sp == 0 && x.sz == 2 && w0.toNat % 2 ^ 48 < 16 && w1 == 0) ill
      require s.ownsDda (s.faultAt .m 0x11)
      .ok (s.mapOcc fun o => o.setStream k { Stream.unbound with bound := true, tap := true, addr := w0 &&& 15 })
    else
      require (count != 0) ill
      let sp := x.sp.toNat
      let n := sizeBytes x.sz.toNat
      let addr : DWord := if sp = 0 then (w0.extractLsb' 0 48).signExtend 64 else (w0.extractLsb' 0 48).setWidth 64
      require (addr.toNat % n == 0) (.trap 4 ({} : MemInfo).bits addr)
      require (count == 1 || stride.toNat % n == 0) (.trap 4 ({} : MemInfo).bits (addr + stride))
      match (if sp = 0 then none else firstOutside (s.extentOf sp) addr stride.toInt n count) with
      | some j => .error (.trap 7 ({} : MemInfo).bits (addr + BitVec.ofNat 64 j * stride))
      | none =>
        let w : Stream := { Stream.unbound with bound := true, addr, space := sp, size := x.sz.toNat, left := count, stride }
        s.checkRanges (hull (s.streamRanges w))
        let s := s.drain
        .ok ({ s with uid := s.uid + 1 }.mapOcc fun o => o.setStream k { w with fixed := s.atBind w, uid := s.uid })
def execSbind (f : VF) (s : State) : Out := vSbind f none s
def execSbind64 (f : VF) (x : MX) (s : State) : Out := vSbind f (some x) s

/-- How many elements may have arrived before they are consumed: 64 (R200), or what a read that waits needs. -/
def Occ.fetchAhead (o : Occ) (k : Nat) : Nat :=
  match o.wait with
  | some w => if w.kind = 14 && w.detail = k + 1 then 128 else 64
  | none => 64

/-- One element of a memory stream arrives. -/
def State.fetchElem (s : State) (k : Nat) : State :=
  let w := s.occ.stream k
  if !w.bound || w.tap || w.halted || w.left = 0 || s.occ.fetchAhead k ≤ w.arrived.length then s
  else
    let n := sizeBytes w.size
    match s.cmdKey w.space 0 w.addr n .read { async := true, index := w.index } with
    | .ok key =>
      ((s.countRead key n).mapOcc fun o => o.setStream k
        { w with addr := w.addr + w.stride, left := w.left - 1, index := w.index + 1, fixed := w.fixed.drop 1,
                 arrived := w.arrived ++ [((w.fixed.headD none).getD (BitVec.ofNat 32 (s.mem.getN key n)))] }).progressed
    | .error (.trap code info addr) =>
      let s := s.mapOcc fun o => o.setStream k { w with halted := true }
      if s.occ.trapLevel then s else s.addCause { code, eng := .m, info, addr, cmd := w.uid }
    | .error _ => s

/-- STREAM_FETCH (R200): an element of a memory stream is fetched. -/
def execStreamFetch (gid w : Nat) (s : State) : Out := .next (s.onGroup gid fun s => s.fetchElem w)

/-- The elements that have arrived for a tap stream, which stand in the FIFO of its tap (R246), are discarded (R202). With a sink of
another kind the FIFO holds no elements of the stream. -/
def State.emptyTap (s : State) (k : Nat) : State :=
  let w := s.occ.stream k
  if w.bound && w.tap && s.ownsDda then
    s.modCore s.me.place.core fun c =>
      let t := c.dda.taps.getD w.addr.toNat Tap.reset
      if t.sink = 2 then { c with dda := { c.dda with taps := setAt Tap.reset c.dda.taps w.addr.toNat { t with fifo := [] } } } else c
  else s

def execSfree (f : VF) (s : State) : Out :=
  mOnce 0x10 f none s fun _ s => do
    let k := f.d.toNat % 16
    require (!s.portBound k) (s.faultAt .m 0x0B)
    .ok ((s.emptyTap k).mapOcc fun o => o.setStream k Stream.unbound)

/-! ## SEMW and SEMS (R196) -/

/-- An object's address packed as in R183. -/
def packObject (space core : Nat) (addr : DWord) : DWord :=
  (addr &&& 0x0000FFFFFFFFFFFF) ||| BitVec.ofNat 64 (core * 2 ^ 48 + space * 2 ^ 61)

/-- The count of SEMW and SEMS (R171). -/
def semCount (x : MX) : Nat := if x.c = 0 then 1 else x.c.toNat

def vSemw (f : VF) (x : Option MX) (s : State) : Out :=
  mOnce 0x11 f x s fun x s => do
    let core := s.uniformCore f x
    let addr := s.uniformAddr f x
    let k ← s.accessAt .m x.sp.toNat core addr 8 .both true
    let s := s.drain
    s.checkLost addr k 8
    let c := s.mem.getN k 4
    if s.mem.getN (k + 4) 4 / 2 ^ 31 = 1 then .ok ((s.countRead k 8).mapOcc (·.setQ (f.d.toNat % 8) false))
    else if c < semCount x then .error (.wait 2 (packObject x.sp.toNat core addr) 0 (semCount x))
    else .ok ((((s.poke k (toBytes 4 (c - semCount x))).countRead k 8).countWrite k 8).mapOcc (·.setQ (f.d.toNat % 8) true))
def execSemw (f : VF) (s : State) : Out := vSemw f none s
def execSemw64 (f : VF) (x : MX) (s : State) : Out := vSemw f (some x) s

def vSems (f : VF) (x : Option MX) (s : State) : Out :=
  mOnce 0x12 f x s fun x s => do
    let k ← s.accessAt .m x.sp.toNat (s.uniformCore f x) (s.uniformAddr f x) 8 .both true
    let s := s.drain
    s.checkLost (s.uniformAddr f x) k 8
    match s.signal k (semCount x) with
    | some t => .ok ((t.countRead k 8).countWrite k 8)
    | none => .error (s.faultAt .m 0x12)
def execSems (f : VF) (s : State) : Out := vSems f none s
def execSems64 (f : VF) (x : MX) (s : State) : Out := vSems f (some x) s

/-! ## SLOT, CSEND and CSEND_LANDED (R197, R198, R286 to R288) -/

/-- The bridge between two dies (R2): 0 G0-N0, 1 N0-N1, 2 N1-G1, 3 G1-G0. -/
def bridgeOf (a b : Nat) : Option Nat :=
  match min a b, max a b with
  | 0, 2 => some 0
  | 2, 3 => some 1
  | 1, 3 => some 2
  | 0, 1 => some 3
  | _, _ => none

/-- Fields of %FELT (R286). -/
def feltHdr (x : DWord) : Nat := bitsOf x.toNat 19 0
def feltBase (x : DWord) : Nat := bitsOf x.toNat 39 20
def feltCount (x : DWord) : Nat := bitsOf x.toNat 44 40
def feltSize (x : DWord) : Nat := bitsOf x.toNat 63 48

/-- The key of the felt ring that a SLOT waits on: `detail` names the tile and its die (R197). -/
def State.ringKey (s : State) (w : Wait) : Nat :=
  let key := Config.coreKey (w.detail / 2 ^ 16) (w.detail % 2 ^ 16)
  unitKey key (feltHdr (s.coreAt key).felt)

/-- A felt ring whose %FELT has been rewritten since a bridge failed, and whose header stands as R287 has software write it, carries
traffic again (R291, R418). -/
def State.renewRing (s : State) (key : Nat) : State :=
  let c := s.coreAt key
  if c.renewed && c.stale != [] && s.mem.getN (unitKey key (feltHdr c.felt)) 32 == feltCount c.felt then
    s.modCore key fun c => { c with stale := [] }
  else s

/-- Whether a felt ring carries no traffic over a bridge (R291, R418). -/
def State.ringStale (s : State) (key bridge : Nat) : Bool := (s.coreAt key).stale.contains bridge

/-- SLOT. DESIGN CHOICE (log 78): on a ring not rewritten since its bridge failed it takes the fault of the failed bridge. Lost bytes of
the header that it reads take 0x1C (R399). -/
def execSlot (f : VF) (s : State) : Out :=
  mOnce 0x13 f none s fun _ s => do
    let h := s.occ.getS f.a.toNat
    require (h.toNat / 2 ^ 18 == 0) (s.faultAt .m 0x0B)
    let core := h.toNat % 2 ^ 16
    let die := h.toNat / 2 ^ 16 % 4
    let bad := s.faultAt .m 0x12
    require (decide (2 ≤ die) && decide (core < 144) && die != s.die) bad
    match bridgeOf s.die die with
    | none => .error bad
    | some br =>
      let key := Config.coreKey die core
      let felt := (s.coreAt key).felt
      require (feltCount felt != 0 && decide (s.occ.felts.length < 16) && !(s.bridges.getD br (Channel.up 8)).failed) bad
      let s := s.drain.renewRing key
      require (!s.ringStale key br) bad
      let hdr := unitKey key (feltHdr felt)
      let at' := BitVec.ofNat 64 (feltHdr felt)
      s.checkLost at' hdr 8
      s.checkLost (at' + 17) (hdr + 17) 1
      let free := s.mem.getN hdr 4
      require (free != 0) (.wait 3 (packObject 5 core at') 0 (core + die * 2 ^ 16))
      let t := s.mem.getN (hdr + 17) 1 % feltCount felt
      let handle := h ||| BitVec.ofNat 64 (t * 2 ^ 32)
      let s := (s.poke hdr (toBytes 4 (free - 1))).poke (hdr + 17) (toBytes 1 ((t + 1) % feltCount felt))
      let res : FeltRes := { ring := key, slot := t, bridge := br, handle, cmd := none }
      .ok (({ s with felts := s.felts ++ [res] }.mapOcc fun o => { o with felts := o.felts ++ [handle] }).mapOcc
        (·.setS f.d.toNat handle))

def execCsend (f : VF) (s : State) : Out :=
  mOnce 0x14 f none s fun _ s => do
    let bad := s.faultAt .m 0x12
    let q := s.quad f.d.toNat
    let d := Move.ofQuad q
    let h := s.occ.getS f.a.toNat
    s.checkMove d
    s.checkExtents d false
    require (d.mode == 0 && (d.ssp == 1 || d.ssp == 2 || d.ssp == 3) && q.getD 1 0 == 0) bad
    require (s.occ.felts.contains h) bad
    match s.felts.find? fun r => r.handle == h && r.cmd == none with
    | none => .error bad
    | some r =>
      let sp := d.dstSpan
      require (decide (0 ≤ sp.1) && decide (sp.2 ≤ (feltSize (s.coreAt r.ring).felt : Int))) bad
      let rs := s.spanOfSide d.ssp d.speer d.srcSpan false
      s.routesThere (Config.coreDie r.ring)
      s.cmdRoom
      s.checkRanges rs
      let t := s.acceptCmd { uid := s.uid, op := 0x14, quad := q, route := h, sem := none, off := 0, space := 0, scope := 0,
                             halted := false, i := 0, j := 0, deliveries := 0, error := false, ranges := rs,
                             addr := s.pcOf .m }
      .ok ({ t with felts := modifyFirst (fun r => r.handle == h && r.cmd == none) (fun r => { r with cmd := some s.uid }) t.felts }.mapOcc
        fun o => { o with felts := o.felts.erase h })

/-- The elements of a CSEND's payload that have not landed; `fuel` bounds them. -/
def State.sendRest (s : State) (c : MemCmd) (d : Move) (slotAt : Nat) : Nat → Except (State × MemCmd × Stop) State
  | 0 => .ok s
  | fuel + 1 =>
    let r := c.i / d.cols
    let k := c.i % d.cols
    match s.readElem d.ssp d.speer (rowAt d.sa d.sstride r) k d.srcBits (c.info false) with
    | .error stop => .error (s, c, stop)
    | .ok (t, v) =>
      (t.putElem (slotAt + ((BitVec.ofNat 64 r * d.dstride).toInt).toNat + k * d.srcBits / 8) k d.dstBits v).sendRest
        { c with i := c.i + 1 } d slotAt fuel

/-- The CSEND of a published slot completes (R288), whatever group it is of. -/
def State.completeSend (s : State) (uid : Nat) (error : Bool) : State :=
  match s.groups.find? fun (g : Group) => g.occs.any fun o => o.cmds.any (·.uid == uid) with
  | some g => s.forCmd g.gid uid fun c s => s.completeCmd c error
  | none => s

/-- Slots publish in reservation order (R288): what stands at PUB, while it has landed. Answers how many. -/
def State.publish (s : State) (ring hdr count : Nat) : Nat → State × Nat
  | 0 => (s, 0)
  | fuel + 1 =>
    let pub := s.mem.getN (hdr + 18) 1 % count
    let landed := s.mem.getN (hdr + 20) 2
    if landed.testBit pub then
      let s := (s.poke (hdr + 20) (toBytes 2 (landed - 2 ^ pub))).poke (hdr + 18) (toBytes 1 ((pub + 1) % count))
      let s := match s.felts.find? fun r => r.ring == ring && r.slot == pub with
        | some r =>
          let t := { s with felts := s.felts.erase r }
          match r.cmd with | some u => t.completeSend u false | none => t
        | none => s
      let (t, n) := s.publish ring hdr count fuel
      (t, n + 1)
    else (s, 0)

/-- The payload of a CSEND has landed in slot t of a ring. DESIGN CHOICE (log 74): no rule says what a publication does that would take
FULL.COUNT beyond 0xFFFF_FFFF; the count stays there. -/
def State.landed (s : State) (ring t : Nat) : State :=
  let felt := (s.coreAt ring).felt
  let hdr := unitKey ring (feltHdr felt)
  let s := s.poke (hdr + 20) (toBytes 2 (s.mem.getN (hdr + 20) 2 ||| 2 ^ t))
  let (s, n) := s.publish ring hdr (feltCount felt) (feltCount felt)
  if n = 0 then s
  else s.poke (hdr + 8) (toBytes 4 (min 0xFFFFFFFF (s.mem.getN (hdr + 8) 4 + n)))

/-- CSEND_LANDED (R288): the whole payload of a CSEND lands, and the ring publishes. One whose slot has gone with its bridge while it was
halted fails (R291, R373). DESIGN CHOICE (log 78): so does one that lands in a ring not rewritten since a bridge failed, and its slot is
never published (R418). -/
def execCsendLanded (gid cmd : Nat) (s : State) : Out :=
  .next (s.forCmd gid cmd fun c s =>
    match s.felts.find? fun r => r.cmd == some cmd with
    | none => if c.op = 0x14 && !c.halted then s.failCmd c else s
    | some r =>
      let d := c.move
      if !c.halted && c.op == 0x14 && s.ringStale r.ring r.bridge then
        ({ s with felts := s.felts.filter fun q => q.cmd != some cmd } : State).failCmd c
      else if c.halted || c.op ≠ 0x14 || (s.bridges.getD r.bridge (Channel.up 8)).failed
        || (s.bridges.getD r.bridge (Channel.up 8)).retraining || d.count < c.i then s
      else
        let felt := (s.coreAt r.ring).felt
        match s.sendRest c d (unitKey r.ring (feltBase felt + r.slot * feltSize felt)) (d.count - c.i) with
        | .error (t, c, stop) => t.haltCmd c stop
        | .ok t => ((t.setCmd { c with i := d.count + 1 }).landed r.ring r.slot).progressed)

end Sys2Proof.Machine
end

