-- ==== Sys2Proof/Machine/Dda.lean ====
section
/-! DEFINITION. The digital differential analyser: cells, domains, latches, ports and taps (R233 to R249), its ownership
(R250, R251), the D-engine instructions (R252 to R262, R447) and stall time-outs (R391). -/

namespace Sys2Proof.Machine

/-! ## Reading a patch entry (R234, R235) -/

def patchCode (p : DWord) : Nat → Nat
  | 0 => bitsOf p.toNat 9 0
  | 1 => bitsOf p.toNat 20 11
  | _ => bitsOf p.toNat 31 22

def patchNeg (p : DWord) : Nat → Bool
  | 0 => p.getLsbD 10
  | 1 => p.getLsbD 21
  | _ => p.getLsbD 32

def patchDom (p : DWord) : Nat := bitsOf p.toNat 39 38

def codeOk (c : Nat) : Bool := decide (c ≤ 0x203) || (decide (0x210 ≤ c) && decide (c ≤ 0x21F)) || c == 0x3FF

/-- An entry that DPATCH accepts (R254). -/
def patchOk (p : DWord) : Bool :=
  [0, 1, 2].all (fun k => codeOk (patchCode p k)) && decide (bitsOf p.toNat 41 40 ≤ 1) && bitsOf p.toNat 63 43 == 0

def Cell.dom (c : Cell) : Nat := patchDom c.patch
def Cell.shift (c : Cell) : Nat := bitsOf c.patch.toNat 37 33
/-- MODE 0 and EN 1 (R236). -/
def Cell.active (c : Cell) : Bool := bitsOf c.patch.toNat 42 40 == 4
def Cell.latch (c : Cell) : Nat → Int
  | 0 => c.ldx
  | 1 => c.ldy0
  | _ => c.ldy1
def Cell.setLatch (c : Cell) (k : Nat) (x : Int) : Cell :=
  match k with
  | 0 => { c with ldx := x }
  | 1 => { c with ldy0 := x }
  | _ => { c with ldy1 := x }
def Cell.clearLatches (c : Cell) : Cell := { c with ldx := 0, ldy0 := 0, ldy1 := 0 }

def Dda.cell (d : Dda) (i : Nat) : Cell := d.cells.getD i Cell.reset
def Dda.dom (d : Dda) (j : Nat) : Dom := d.doms.getD j Dom.reset
def Dda.port (d : Dda) (p : Nat) : Port := d.ports.getD p Port.reset
def Dda.tap (d : Dda) (k : Nat) : Tap := d.taps.getD k Tap.reset
def Dda.setCell (d : Dda) (i : Nat) (c : Cell) : Dda := { d with cells := setAt Cell.reset d.cells i c }
def Dda.setDom (d : Dda) (j : Nat) (m : Dom) : Dda := { d with doms := setAt Dom.reset d.doms j m }
def Dda.setPort (d : Dda) (p : Nat) (x : Port) : Dda := { d with ports := setAt Port.reset d.ports p x }
def Dda.setTap (d : Dda) (k : Nat) (x : Tap) : Dda := { d with taps := setAt Tap.reset d.taps k x }

/-- The domain in which a source is produced. -/
def Dda.srcDom (d : Dda) (c : Nat) : Option Nat :=
  if c < 0x200 then some (d.cell c).dom
  else if c ≤ 0x203 then some (c - 0x200)
  else if c = 0x3FF then none
  else some (d.port (c - 0x210)).dom

/-! ## One cycle (R237, R238, R243 to R249) -/

/-- %TINFO of the faults of stepping (R248). -/
def ddaInfo (cell : Nat) (tap : Bool) (dom sel : Nat) (port evt : Bool) (steps : Nat) : DWord :=
  BitVec.ofNat 64 (cell + tap.toNat * 2 ^ 9 + dom * 2 ^ 10 + sel * 2 ^ 12 + port.toNat * 2 ^ 14 + evt.toNat * 2 ^ 15
    + steps % 2 ^ 32 * 2 ^ 16)

/-- What a source supplies to a reader of its own domain. -/
def Dda.direct (d : Dda) (pv : List Int) (c : Nat) : Int :=
  if c < 0x200 then (if (d.cell c).active then (d.cell c).dz else 0)
  else if c ≤ 0x203 then 1
  else pv.getD (c - 0x210) 0

/-- The value of input k of a cell, with its sign. -/
def Dda.input (d : Dda) (pv : List Int) (c : Cell) (k : Nat) : Int :=
  let code := patchCode c.patch k
  let v := match d.srcDom code with
    | none => 0
    | some j => if j = c.dom then d.direct pv code else c.latch k
  if patchNeg c.patch k then -v else v

/-- Whether input k of a cell reads through its latch. -/
def Dda.crosses (d : Dda) (c : Cell) (k : Nat) : Bool :=
  match d.srcDom (patchCode c.patch k) with
  | some j => j != c.dom
  | none => false

/-- R237 for a cell, its latches read and cleared; none is an integrand overrun. -/
def Dda.stepCell (d : Dda) (pv : List Int) (c : Cell) : Option Cell :=
  let dy := d.input pv c 1 + d.input pv c 2
  let y := c.y.toInt + dy * 2 ^ c.shift
  if y < -2 ^ 31 ∨ 2 ^ 31 - 1 < y then none
  else
    let t := c.r.toInt + d.input pv c 0 * y
    let dz : Int := if 2 ^ 31 ≤ t then 1 else if t < -2 ^ 31 then -1 else 0
    let c' := [0, 1, 2].foldl (fun (c' : Cell) k => if d.crosses c k then c'.setLatch k 0 else c') c
    some { c' with y := BitVec.ofInt 32 y, r := BitVec.ofInt 32 (t - dz * 2 ^ 32), dz }

/-- A fault of stepping: its rank by R249, its place there, its cause and %TINFO. -/
structure StepFault where
  rank : Nat
  at' : Nat
  code : Nat
  info : DWord
  deriving DecidableEq, Repr

def StepFault.before (a b : StepFault) : Bool := decide (a.rank < b.rank) || (a.rank == b.rank && decide (a.at' < b.at'))

def firstFault : List StepFault → Option StepFault
  | [] => none
  | f :: fs => match firstFault fs with
    | none => some f
    | some g => if g.before f then some g else some f

/-- DSTEPs of which some domain has not returned to Stopped since (R25). -/
def Dda.prune (d : Dda) : Dda :=
  { d with running := (d.running.map fun r => (r.1, r.2.filter fun j => (d.dom j).mode == 1)).filter fun r => r.2 != [] }

def phaseCap : Nat := 0xFFFFFF

/-- The domains of S step with the port values pv: the DDA after the cycle, or its fault. -/
def Dda.cycle (d : Dda) (S : List Nat) (pv : List Int) : Except StepFault Dda :=
  let stepping (c : Cell) : Bool := c.active && S.contains c.dom
  let steps (j : Nat) : Nat := (d.dom j).steps
  let outs : List (Option Cell) := d.cells.map fun c => if stepping c then d.stepCell pv c else some c
  let new (i : Nat) : Cell := (outs.getD i none).getD (d.cell i)
  let produced (code : Nat) : Int :=
    match d.srcDom code with
    | none => 0
    | some j =>
      if !S.contains j then 0
      else if code < 0x200 then (if (d.cell code).active then (new code).dz else 0)
      else d.direct pv code
  let dzOf (k : Nat) : Int := if S.contains (d.cell (d.tap k).cell).dom then produced (d.tap k).cell else 0
  let live (k : Nat) : Bool := (d.tap k).sink != 0 && S.contains (d.cell (d.tap k).cell).dom
  let idx := List.range d.cells.length
  let f1 := idx.filterMap fun i =>
    match outs.getD i (some Cell.reset) with
    | none => some (StepFault.mk 1 i 0x0F (ddaInfo i false (d.cell i).dom 3 false false (steps (d.cell i).dom)))
    | some _ => none
  let captures := idx.flatMap fun i => [0, 1, 2].filterMap fun k =>
    let c := d.cell i
    if c.active && d.crosses c k && produced (patchCode c.patch k) != 0 then some (i, k) else none
  let f2 := captures.filterMap fun (i, k) =>
    if (new i).latch k != 0 then
      some (StepFault.mk 2 (3 * i + k) 0x10 (ddaInfo i false (d.cell i).dom k false false (steps (d.cell i).dom)))
    else none
  let f3 := (List.range 16).filterMap fun k =>
    let t := d.tap k
    if live k && (t.sink == 3 || (t.sink == 2 && dzOf k != 0)) && decide (64 ≤ t.fifo.length) then
      let j := (d.cell t.cell).dom
      some (StepFault.mk 3 k 0x10 (ddaInfo k true j 3 false false (steps j)))
    else none
  let event (j : Nat) : Bool := (d.dom j).mode == 3 && live (d.dom j).trig && dzOf (d.dom j).trig != 0
  let f4 := (List.range 4).filterMap fun j =>
    let m := d.dom j
    if event j && decide (phaseCap ≤ m.phase - (S.contains j).toNat) then
      some (StepFault.mk 4 j 0x10 (ddaInfo (d.tap m.trig).cell false j 3 false true m.steps))
    else none
  match firstFault (f1 ++ f2 ++ f3 ++ f4) with
  | some f => .error f
  | none =>
    let cells := captures.foldl (fun (cs : List Cell) (i, k) =>
      setAt Cell.reset cs i ((cs.getD i Cell.reset).setLatch k (produced (patchCode (d.cell i).patch k))))
      (idx.map new)
    let taps := (List.range 16).map fun k =>
      let t := d.tap k
      if !live k then t
      else match t.sink with
        | 1 => { t with counter := t.counter + BitVec.ofInt 32 (dzOf k) }
        | 2 => if dzOf k = 0 then t else { t with fifo := t.fifo ++ [dzOf k] }
        | _ => { t with fifo := t.fifo ++ [dzOf k] }
    let doms := (List.range 4).map fun j =>
      let m := d.dom j
      let m : Dom :=
        if S.contains j then
          let m : Dom := { m with steps := (m.steps + 1) % 2 ^ 32 }
          match m.mode with
          | 1 => if m.remain ≤ 1 then { m with remain := 0, mode := 0, beat := false }
                 else { m with remain := m.remain - 1, beat := true }
          | 2 => { m with phase := 0 }
          | _ => { m with phase := m.phase - 1 }
        else m
      if event j then { m with phase := m.phase + 1 } else m
    let ports := (List.range 16).map fun p =>
      let x := d.port p
      if S.contains x.dom then { x with value := 0 } else x
    .ok ({ d with cells, taps, doms, ports } : Dda).prune

/-! ## The owner (R244, R250) -/

/-- The occupant of a group at an adoption depth. -/
def Group.atDepth (g : Group) (depth : Nat) : Option Occ :=
  if depth = g.under.length then some g.occ
  else if depth < g.under.length then g.under[g.under.length - 1 - depth]? else none

/-- Do something for the owner of a core's DDA. -/
def State.onOwner (s : State) (core : Nat) (f : State → State) : State :=
  match (s.coreAt core).dda.owner with
  | none => s
  | some (gid, depth) =>
    match (s.group? gid).bind fun g => g.atDepth depth with
    | none => s
    | some o => s.onGroup gid fun s => s.onOcc (fun p => p.task == o.task && p.team == o.team) f

def State.ownerOcc (s : State) (core : Nat) : Option Occ :=
  (s.coreAt core).dda.owner.bind fun (gid, depth) => (s.group? gid).bind fun g => g.atDepth depth

def isDdaCause (c : Cause) : Bool := c.eng == .d && (c.code == 0x0F || c.code == 0x10 || c.code == 0x18)

/-- Elements of stream register w that a port can take. -/
def Dda.elements (d : Dda) (o : Occ) (w : Nat) : List Int :=
  let st := o.stream w
  if !st.bound then []
  else if st.tap then (d.tap (st.addr.toNat % 16)).fifo
  else st.arrived.map fun x => if x = 0 then 0 else if x.msb then -1 else 1

/-- The element for port p when the ports of the domains listed take theirs in order. DESIGN CHOICE (log 75): of several ports that are
bound to one stream register and due in one cycle, the one with the lower index takes the earlier element; R244 is silent. -/
def Dda.portElem (d : Dda) (o : Occ) (doms : List Nat) (p : Nat) : Option Int :=
  let x := d.port p
  let rank := ((List.range p).filter fun q =>
    (d.port q).bound && (d.port q).w == x.w && doms.contains (d.port q).dom).length
  (d.elements o x.w)[rank]?

/-- The bound ports of a domain. -/
def Dda.boundPorts (d : Dda) (j : Nat) : List Nat := (List.range 16).filter fun p => (d.port p).bound && (d.port p).dom == j

/-- Whether a domain is to step in this cycle, ports apart (R240). -/
def Dom.due (m : Dom) : Bool :=
  match m.mode with
  | 1 => !m.beat && m.remain != 0
  | 2 => decide (m.period ≤ m.phase + 1)
  | 3 => m.phase != 0
  | _ => false

/-- A domain that is not to step goes on with its cycle. -/
def Dom.idleCycle (m : Dom) : Dom :=
  match m.mode with
  | 1 => { m with beat := false }
  | 2 => { m with phase := m.phase + 1 }
  | _ => m

/-- Before its domain's step a port takes its element (R244): from tap FIFOs, for the stream registers listed. -/
def Dda.takeTaps (d : Dda) (o : Occ) (ws : List Nat) : Dda :=
  ws.foldl (fun (d : Dda) w =>
    let st := o.stream w
    let k := st.addr.toNat % 16
    if st.tap then d.setTap k { d.tap k with fifo := (d.tap k).fifo.drop 1 } else d) d

/-- The same for memory streams. -/
def State.takeElems (s : State) (core : Nat) (ws : List Nat) : State :=
  ws.foldl (fun (s : State) w => s.onOwner core fun s =>
    let st := s.occ.stream w
    if st.tap then s else s.mapOcc fun o => o.setStream w { st with arrived := st.arrived.drop 1 }) s

/-- One cycle of a core's DDA (R238 to R249). -/
def State.ddaCycle (s : State) (core : Nat) : State :=
  let d := (s.coreAt core).dda
  match s.ownerOcc core with
  | none => s
  | some o =>
    if d.frozen || o.causes.any isDdaCause then s
    else
      let now := (s.dieAt (Config.coreDie core)).cyc
      let due := (List.range 4).filter fun j => (d.dom j).due
      let want := due.filter fun j => (d.boundPorts j).all fun p => (d.portElem o due p).isSome
      let ports := (List.range 16).map fun p =>
        let x := d.port p
        if x.bound && due.contains x.dom then
          { x with held := if (d.portElem o due p).isSome then none else x.held.orElse fun _ => some now }
        else x
      let doms := (List.range 4).map fun j => if due.contains j then d.dom j else (d.dom j).idleCycle
      let pv := (List.range 16).map fun p =>
        if (d.port p).bound then (d.portElem o want p).getD 0 else (d.port p).value
      let taken := (List.range 16).filterMap fun p =>
        if (d.port p).bound && want.contains (d.port p).dom then some (d.port p).w else none
      match (({ d with ports, doms } : Dda).takeTaps o taken).cycle want pv with
      | .error f =>
        (s.modCore core fun c => { c with dda := { c.dda with frozen := true } }).onOwner core fun s =>
          s.addCause { code := f.code, eng := .d, info := f.info, addr := 0 }
      | .ok d' =>
        let t := (s.modCore core fun c => { c with dda := d' }).takeElems core taken
        if want.isEmpty then t else t.onOwner core State.progressed

def execDdaCycle (core : Nat) (s : State) : Out := .next (s.ddaCycle core)

/-- FREE_DOMAIN_TICK (R240): the cycle in which a Free domain's PHASE reaches PERIOD. -/
def execFreeDomainTick (core : Nat) (dom : BitVec 2) (s : State) : Out :=
  let m := (s.coreAt core).dda.dom dom.toNat
  .next (if m.mode = 2 ∧ m.period ≤ m.phase + 1 then s.ddaCycle core else s)

/-! ## The D queue (R239, R256) -/

/-- DSTEP and DRUN as the domains take them. -/
def Dom.take (m : Dom) (run : Bool) (n : Nat) : Dom :=
  if run then (if m.mode = 0 ∨ m.mode = 2 then { m with mode := 2, period := n, phase := 0, remain := 0, trig := 0 } else m)
  else if n = 0 then m
  else match m.mode with
    | 0 => { m with mode := 1, beat := false, remain := n, period := 0, phase := 0, trig := 0 }
    | 1 => { m with remain := m.remain + n }
    | _ => m

def Dda.apply (d : Dda) (e : DdaEvent) : Dda :=
  ({ d with
    doms := (List.range 4).map fun j => if e.mask.getLsbD j then (d.dom j).take e.run e.count else d.dom j
    running := if e.run || e.count = 0 then d.running else d.running ++ [(e.addr, (List.range 4).filter fun j => e.mask.getLsbD j)] } : Dda).prune

/-- The oldest accepted event is applied. -/
def Dda.applyNext (d : Dda) : Dda :=
  match d.queue with
  | [] => d
  | e :: es => { d.apply e with queue := es }

def execDdaEventApplied (core : Nat) (s : State) : Out :=
  .next (s.modCore core fun c => { c with dda := c.dda.applyNext })

/-- Every accepted event is applied: what a later D instruction finds. -/
def Dda.settle (d : Dda) : Dda := { d.queue.foldl Dda.apply d with queue := [] }

/-! ## Shapes -/

/-- A D-engine instruction behind the accepted events. -/
def dDo (g : KG) (n : Nat) (s : State) (f : State → Dda → Act State) : Out :=
  finish .d n s (if s.guard g then
      let t := s.modCore s.me.place.core fun c => { c with dda := c.dda.settle }
      f t t.core.dda
    else .ok s)

def State.dAt (s : State) (code : Nat) : Stop := s.faultAt .d code

/-- One that only the owner may issue (R250). -/
def dOwn (g : KG) (n : Nat) (s : State) (f : State → Dda → Act State) : Out :=
  dDo g n s fun s d => do
    require s.ownsDda (s.dAt 0x11)
    f s d

def State.setDda (s : State) (d : Dda) : State := s.modCore s.me.place.core fun c => { c with dda := d }

/-- Wait for Counted domains (R242). -/
def State.dWait (d : Dda) (doms : List Nat) : Act Unit :=
  require (d.frozen || doms.all fun j => (d.dom j).mode != 1) (.wait 24 0 0 0)

/-- Domains that must not run free. -/
def State.dStill (s : State) (d : Dda) (doms : List Nat) : Act Unit := do
  require (d.frozen || doms.all fun j => decide ((d.dom j).mode < 2)) (s.dAt 0x0B)
  State.dWait d doms

/-- An index operand below a bound (R252). -/
def State.dIndex (s : State) (a : BitVec 6) (bound : Nat) : Act Nat := do
  let i := (s.getS a).toNat
  require (decide (i < bound)) (s.dAt 0x0B)
  .ok i

/-- A range operand: first cell and count (R252). -/
def State.dRange (s : State) (x : DWord) : Act (Nat × Nat) := do
  let first := bitsOf x.toNat 8 0
  let count := bitsOf x.toNat 24 16 + 1
  require (bitsOf x.toNat 15 9 == 0 && bitsOf x.toNat 63 25 == 0 && decide (first + count ≤ 512)) (s.dAt 0x0B)
  .ok (first, count)

def Stream.onTap (w : Stream) : Option Nat := if w.bound && w.tap then some (w.addr.toNat % 16) else none

/-- Taps that stream registers of the group or its incomplete mode-3 moves use. -/
def Occ.tapsUsed (o : Occ) : List Nat :=
  o.streams.filterMap Stream.onTap
    ++ o.cmds.filterMap fun c => if c.op = 0x0B && c.move.mode = 3 then some c.move.tap else none

/-! ## Ownership (R253) -/

def State.claimDda (s : State) : State :=
  s.setDda { Dda.reset with owner := some (s.me.gid, s.me.under.length), frozen := s.occ.trapLevel }

/-- Whether another occupant of the slot owns the DDA. -/
def State.slotOwnsDda (s : State) : Bool :=
  match s.core.dda.owner with
  | some (g, _) => g == s.me.gid && !s.ownsDda
  | none => false

def execDclaim (g : KG) (s : State) : Out :=
  dDo g 1 s fun s d => do
    require (!s.slotOwnsDda) (s.dAt 0x11)
    if s.ownsDda then .ok s
    else
      require d.owner.isNone (.wait 16 0 0 0)
      .ok s.claimDda

def execDclaimTry (g : KG) (q : BitVec 3) (s : State) : Out :=
  dDo g 1 s fun s d => do
    require (!s.slotOwnsDda) (s.dAt 0x11)
    if s.ownsDda then .ok (s.setQ q true)
    else if d.owner.isNone then .ok (s.claimDda.setQ q true)
    else .ok (s.setQ q false)

def execDfree (g : KG) (s : State) : Out :=
  dOwn g 1 s fun s d => do
    require (s.occ.tapsUsed == []) (s.dAt 0x0B)
    .ok (s.setDda d.release)

/-! ## Cells (R254, R255) -/

def execDpatch (g : KG) (a b : BitVec 6) (s : State) : Out :=
  dOwn g 1 s fun s d => do
    let i := (s.getS a).toNat % 512
    let p := s.getS b
    require (patchOk p) (s.dAt 0x0B)
    s.dStill d [(d.cell i).dom, patchDom p]
    .ok (s.setDda (d.setCell i { (d.cell i).clearLatches with patch := p, dz := 0 }))

def execDinit (g : KG) (d a b : BitVec 6) (s : State) : Out :=
  dOwn g 1 s fun s dda => do
    let (first, n) ← s.dRange (s.getS d)
    let idx := (List.range n).map (first + ·)
    s.dStill dda (idx.map fun i => (dda.cell i).dom)
    .ok (s.setDda (idx.foldl (fun (e : Dda) i =>
      e.setCell i { (e.cell i).clearLatches with y := (s.getS a).setWidth 32, r := (s.getS b).setWidth 32, dz := 0 }) dda))

/-! ## Domains (R256) -/

def execDclk (g : KG) (dom : BitVec 2) (a : BitVec 6) (s : State) : Out :=
  dOwn g 1 s fun s d => do
    let k ← s.dIndex a 16
    let m := d.dom dom.toNat
    require (m.mode == 0 && (d.tap k).sink != 0) (s.dAt 0x0B)
    .ok (s.setDda (d.setDom dom.toNat { m with mode := 3, trig := k, phase := 0, period := 0, remain := 0 }))

def maskDoms (mask : BitVec 4) : List Nat := (List.range 4).filter fun j => mask.getLsbD j

/-- The D queue accepts an event. -/
def State.acceptDda (s : State) (d : Dda) (e : DdaEvent) : State := s.setDda { d with queue := d.queue ++ [e] }

def dStep (g : KG) (n : Nat) (mask : BitVec 4) (s : State) (count : State → Act Nat) : Out :=
  dOwn g n s fun s d => do
    let c ← count s
    let js := maskDoms mask
    require (c == 0 || js.all fun j => decide ((d.dom j).mode < 2) && decide ((d.dom j).remain + c < 2 ^ 32)) (s.dAt 0x0B)
    .ok (s.acceptDda d { run := false, mask, count := c, addr := s.pcOf .d })

def execDstep (g : KG) (mask : BitVec 4) (a : BitVec 6) (s : State) : Out :=
  dStep g 1 mask s fun s => do
    let x := (s.getS a).toNat
    require (decide (x < 2 ^ 32)) (s.dAt 0x0B)
    .ok x
def execDstep64 (g : KG) (mask : BitVec 4) (imm : BitVec 32) (s : State) : Out := dStep g 2 mask s fun _ => .ok imm.toNat

def dRun (g : KG) (n : Nat) (mask : BitVec 4) (s : State) (period : State → Nat) : Out :=
  dOwn g n s fun s d => do
    let p := period s
    require (decide (1 ≤ p) && decide (p ≤ 0xFFFFFF)
      && (maskDoms mask).all fun j => (d.dom j).mode == 0 || (d.dom j).mode == 2) (s.dAt 0x0B)
    .ok (s.acceptDda d { run := true, mask, count := p, addr := s.pcOf .d })

def execDrun (g : KG) (mask : BitVec 4) (a : BitVec 6) (s : State) : Out := dRun g 1 mask s fun s => (s.getS a).toNat
def execDrun64 (g : KG) (mask : BitVec 4) (imm : BitVec 32) (s : State) : Out := dRun g 2 mask s fun _ => imm.toNat

/-- Cycles that the DDA goes through before DHALT takes effect. -/
def State.ddaCycles (s : State) (core : Nat) : Nat → State
  | 0 => s
  | n + 1 => (s.ddaCycle core).ddaCycles core n

/-- A domain named by DHALT: it is stopped, and its ports hold it no longer. -/
def Dda.haltDom (d : Dda) (j : Nat) : Dda :=
  ({ d.setDom j (d.dom j).halt with ports := d.ports.map fun x => if x.dom = j then { x with held := none } else x } : Dda).prune

/-- DHALT: how many of their remaining steps Counted domains still make is free (R256). -/
def execDhalt (g : KG) (mask : BitVec 4) (s : State) : Out :=
  dOwn g 1 s fun s d =>
    let js := maskDoms mask
    let left := js.foldl (fun a j => if (d.dom j).mode = 1 then max a (d.dom j).remain else a) 0
    let t := if left = 0 then s
      else ({ s with freeSeq := s.freeSeq + 1 }).ddaCycles s.me.place.core (Config.freeSteps s.freeSeq % (2 * left + 1))
    .ok (t.setDda (js.foldl Dda.haltDom t.core.dda))

/-! ## Taps (R257) -/

def execDtap (g : KG) (tap : BitVec 4) (a : BitVec 6) (s : State) : Out :=
  dOwn g 1 s fun s d => do
    let x := (s.getS a).toNat
    let k := tap.toNat
    let old := d.tap k
    let cell := x % 512
    let sink := x / 512 % 4
    require (decide (x < 2 ^ 11)) (s.dAt 0x0B)
    require (!s.occ.tapsUsed.contains k) (s.dAt 0x0B)
    require ((List.range 4).all fun j => !((d.dom j).mode == 3 && (d.dom j).trig == k)) (s.dAt 0x0B)
    s.dStill d ((if old.sink = 0 then [] else [(d.cell old.cell).dom]) ++ if sink = 0 then [] else [(d.cell cell).dom])
    .ok (s.setDda (d.setTap k { Tap.reset with cell := if sink = 0 then 0 else cell, sink }))

/-! ## DRD and DWR (R258, R259) -/

/-- The domain of a tap's cell, if it is bound. -/
def Dda.tapDoms (d : Dda) (k : Nat) : List Nat := if (d.tap k).sink = 0 then [] else [(d.cell (d.tap k).cell).dom]

def dRead (g : KG) (d a : BitVec 6) (s : State) (bound : Nat) (doms : Dda → Nat → List Nat) (val : Dda → Nat → DWord) : Out :=
  dOwn g 1 s fun s e => do
    let i ← s.dIndex a bound
    State.dWait e (doms e i)
    .ok (s.setS d (val e i))

def Dda.cellDoms (d : Dda) (i : Nat) : List Nat := [(d.cell i).dom]

def execDrdY (g : KG) (d a : BitVec 6) (s : State) : Out := dRead g d a s 512 Dda.cellDoms fun e i => (e.cell i).y.signExtend 64
def execDrdR (g : KG) (d a : BitVec 6) (s : State) : Out := dRead g d a s 512 Dda.cellDoms fun e i => (e.cell i).r.signExtend 64
def execDrdPatch (g : KG) (d a : BitVec 6) (s : State) : Out := dRead g d a s 512 Dda.cellDoms fun e i => (e.cell i).patch
def execDrdDz (g : KG) (d a : BitVec 6) (s : State) : Out :=
  dRead g d a s 512 Dda.cellDoms fun e i => BitVec.ofInt 64 (e.cell i).dz
def execDrdTapc (g : KG) (d a : BitVec 6) (s : State) : Out :=
  dRead g d a s 16 Dda.tapDoms fun e k => (e.tap k).counter.signExtend 64
def execDrdTapn (g : KG) (d a : BitVec 6) (s : State) : Out :=
  dRead g d a s 16 Dda.tapDoms fun e k => BitVec.ofNat 64 (e.tap k).fifo.length
def execDrdPort (g : KG) (d a : BitVec 6) (s : State) : Out :=
  dRead g d a s 16 (fun e p => [(e.port p).dom]) fun e p => BitVec.ofInt 64 (e.port p).value

def dWrite (g : KG) (a b : BitVec 6) (s : State) (bound : Nat) (doms : Dda → Nat → List Nat)
    (f : State → Dda → Nat → DWord → Act Dda) : Out :=
  dOwn g 1 s fun s e => do
    let i ← s.dIndex a bound
    s.dStill e (doms e i)
    let e' ← f s e i (s.getS b)
    .ok (s.setDda e')

def execDwrY (g : KG) (a b : BitVec 6) (s : State) : Out :=
  dWrite g a b s 512 Dda.cellDoms fun _ e i x => .ok (e.setCell i { e.cell i with y := x.setWidth 32 })
def execDwrR (g : KG) (a b : BitVec 6) (s : State) : Out :=
  dWrite g a b s 512 Dda.cellDoms fun _ e i x => .ok (e.setCell i { e.cell i with r := x.setWidth 32 })
def execDwrTapc (g : KG) (a b : BitVec 6) (s : State) : Out :=
  dWrite g a b s 16 Dda.tapDoms fun _ e k x => .ok (e.setTap k { e.tap k with counter := x.setWidth 32 })

def execDwrPcfg (g : KG) (a b : BitVec 6) (s : State) : Out :=
  dWrite g a b s 16 (fun e p => [(e.port p).dom]) fun s e p x => do
    let v := x.toNat
    require (bitsOf v 3 2 == 0 && bitsOf v 63 9 == 0) (s.dAt 0x0B)
    .ok (e.setPort p { value := 0, dom := v % 4, w := bitsOf v 7 4, bound := x.getLsbD 8, held := none })

/-- DWR.PORT is legal in any mode; a second nonzero value is an increment overrun (R244). -/
def execDwrPort (g : KG) (a b : BitVec 6) (s : State) : Out :=
  dOwn g 1 s fun s e => do
    let p ← s.dIndex a 16
    let x := s.getS b
    let port := e.port p
    require (!port.bound && (x == 0 || x == 1 || x == BitVec.allOnes 64)) (s.dAt 0x0B)
    State.dWait e [port.dom]
    require (x == 0 || port.value == 0)
      (.trap 0x10 (ddaInfo p false port.dom 3 true false (e.dom port.dom).steps) 0)
    .ok (s.setDda (e.setPort p { port with value := x.toInt }))

/-! ## DSTAT (R260) -/

def Dda.stat (d : Dda) (mine : Bool) : DWord :=
  let owned := 2 ^ 9 * mine.toNat + 2 ^ 10 * d.owner.isSome.toNat
  if !mine then BitVec.ofNat 64 owned
  else
    let modes := (List.range 4).foldl (fun a j => a + (d.dom j).mode * 4 ^ j) 0
    let bits (f : Tap → Bool) : Nat := (List.range 16).foldl (fun a k => a + (f (d.tap k)).toNat * 2 ^ k) 0
    BitVec.ofNat 64 (modes + 2 ^ 8 * d.frozen.toNat + owned + bits (fun t => t.fifo != []) * 2 ^ 16
      + bits (fun t => decide (64 ≤ t.fifo.length)) * 2 ^ 32)

def execDstatStat (g : KG) (d : BitVec 6) (s : State) : Out :=
  dDo g 1 s fun s e => .ok (s.setS d (e.stat s.ownsDda))

def execDstatWait (g : KG) (d : BitVec 6) (s : State) : Out :=
  dOwn g 1 s fun s e => do
    require (e.frozen || (List.range 4).all fun j => (e.dom j).mode != 1) (.wait 17 0 0 0)
    .ok (s.setS d (e.stat true))

def execDstatSteps (g : KG) (d a : BitVec 6) (s : State) : Out :=
  dDo g 1 s fun s e => do
    let j ← s.dIndex a 4
    .ok (s.setS d (if s.ownsDda then BitVec.ofNat 64 (e.dom j).steps else 0))

/-! ## Save and restore (R261, R447) -/

def twoBit (x : Int) : Nat := if x < 0 then 3 else if x = 0 then 0 else 1
def ofTwoBit (x : Nat) : Int := if x = 3 then -1 else if x = 1 then 1 else 0

def Dom.bytes (m : Dom) : List Byte :=
  toBytes 4 (m.mode + m.trig * 4 + m.phase * 256) ++ toBytes 4 m.period ++ toBytes 4 m.remain ++ toBytes 4 m.steps
def Port.bytes (p : Port) : List Byte := toBytes 2 (twoBit p.value + p.dom * 4 + p.w * 16 + p.bound.toNat * 256)
def Tap.bytes (t : Tap) : List Byte :=
  toBytes 8 (t.cell + t.sink * 2 ^ 9 + t.fifo.length * 2 ^ 12 + t.counter.toNat * 2 ^ 32)
def Cell.bytes (c : Cell) : List Byte :=
  toBytes 4 c.y.toNat ++ toBytes 4 c.r.toNat
    ++ toBytes 8 (c.patch.toNat % 2 ^ 43 + twoBit c.dz * 2 ^ 43 + twoBit c.ldx * 2 ^ 45 + twoBit c.ldy0 * 2 ^ 47
      + twoBit c.ldy1 * 2 ^ 49)

/-- The image of a range of cells. -/
def Dda.image (d : Dda) (first n : Nat) : List Byte :=
  toBytes 2 0xDDA1 ++ toBytes 2 first ++ toBytes 2 n ++ toBytes 10 0
    ++ (List.range 4).flatMap (fun j => (d.dom j).bytes) ++ (List.range 16).flatMap (fun p => (d.port p).bytes)
    ++ (List.range 16).flatMap (fun k => (d.tap k).bytes) ++ toBytes 16 0
    ++ (List.range n).flatMap fun i => (d.cell (first + i)).bytes

/-- FIFO entries, the oldest lowest. -/
def fifoWord (es : List Int) : Nat := es.foldr (fun x a => twoBit x + 4 * a) 0

def Dda.queues (d : Dda) : List Byte := (List.range 16).flatMap fun k => toBytes 16 (fifoWord (d.tap k).fifo)

/-- The keys of the 16-byte pieces of an area in UNIT. -/
def State.dArea (s : State) (a : DWord) (n : Nat) (acc : Access) : Act (List Nat) := do
  require (packedSpace a == 1 && a.extractLsb' 48 13 == 0) (s.dAt 0x0B)
  let off := packedOff a
  require (off.toNat % 16 == 0) (.trap 4 ({ write := acc.writes } : MemInfo).bits off)
  let ks ← (List.range n).mapM fun j => s.keyOf 1 0 0 (off + BitVec.ofNat 64 (16 * j)) 16 acc {}
  let rs := s.spanRanges 1 0 off.toNat (off.toNat + 16 * n) acc.writes
  s.checkRanges rs
  if acc.writes then s.checkStreams .d rs
  .ok ks

def State.putArea (s : State) (ks : List Nat) (bs : List Byte) : State :=
  ks.zipIdx.foldl (fun (s : State) k => s.poke k.1 ((bs.drop (16 * k.2)).take 16)) s.drain

def allDoms : List Nat := [0, 1, 2, 3]

def execDsave (g : KG) (d a : BitVec 6) (s : State) : Out :=
  dOwn g 1 s fun s e => do
    let (first, n) ← s.dRange (s.getS a)
    s.dStill e allDoms
    let ks ← s.dArea (s.getS d) (16 + n) .write
    .ok ((s.putArea ks (e.image first n)).mapOcc fun o => { o with beats := e.doms.map Dom.beat })

def execDsaveTq (g : KG) (d : BitVec 6) (s : State) : Out :=
  dOwn g 1 s fun s e => do
    s.dStill e allDoms
    let ks ← s.dArea (s.getS d) 16 .write
    .ok (s.putArea ks e.queues)

/-- Bytes of an area, none of them lost. -/
def State.getArea (s : State) (a : DWord) (ks : List Nat) : Act (List Byte) := do
  ks.forM fun k => s.checkLost (packedOff a) k 16
  .ok (ks.flatMap fun k => s.drain.mem.getBytes k 16)

def domOf (x : Nat) : Dom :=
  { mode := x % 4, beat := false, trig := x / 4 % 16, phase := bitsOf x 31 8, period := bitsOf x 63 32,
    remain := bitsOf x 95 64, steps := bitsOf x 127 96 }
def portOf (x : Nat) : Port :=
  { value := ofTwoBit (x % 4), dom := x / 4 % 4, w := x / 16 % 16, bound := x.testBit 8, held := none }
def tapOf (x : Nat) : Tap :=
  { cell := x % 512, sink := x / 512 % 4, counter := BitVec.ofNat 32 (x / 2 ^ 32), fifo := [], aside := bitsOf x 18 12 }
def cellOf (x : Nat) : Cell :=
  let p := x / 2 ^ 64
  { y := BitVec.ofNat 32 x, r := BitVec.ofNat 32 (x / 2 ^ 32), patch := BitVec.ofNat 64 (p % 2 ^ 43),
    dz := ofTwoBit (bitsOf p 44 43), ldx := ofTwoBit (bitsOf p 46 45), ldy0 := ofTwoBit (bitsOf p 48 47),
    ldy1 := ofTwoBit (bitsOf p 50 49) }

def domOk (x : Nat) (taps : List Nat) : Bool :=
  let m := domOf x
  x / 64 % 4 == 0 && match m.mode with
  | 0 => m.trig == 0 && m.phase == 0 && m.period == 0 && m.remain == 0
  | 1 => m.trig == 0 && m.phase == 0 && m.period == 0 && m.remain != 0
  | 2 => m.trig == 0 && decide (1 ≤ m.period) && decide (m.period ≤ 0xFFFFFF) && decide (m.phase < m.period) && m.remain == 0
  | _ => (tapOf (taps.getD m.trig 0)).sink != 0 && m.period == 0 && m.remain == 0

def tapOk (x : Nat) : Bool :=
  let t := tapOf x
  bitsOf x 11 11 == 0 && bitsOf x 31 19 == 0 && match t.sink with
  | 0 => t.cell == 0 && t.aside == 0 && t.counter == 0
  | 1 => t.aside == 0
  | _ => decide (t.aside ≤ 64) && t.counter == 0

def cellOk (x : Nat) : Bool :=
  let p := x / 2 ^ 64
  patchOk (cellOf x).patch && bitsOf p 63 51 == 0 && [43, 45, 47, 49].all fun k => bitsOf p (k + 1) k != 2

/-- The fields of an image as numbers. -/
def imgDom (bs : List Byte) (j : Nat) : Nat := ofBytes ((bs.drop (16 + 16 * j)).take 16)
def imgPort (bs : List Byte) (p : Nat) : Nat := ofBytes ((bs.drop (80 + 2 * p)).take 2)
def imgTap (bs : List Byte) (k : Nat) : Nat := ofBytes ((bs.drop (112 + 8 * k)).take 8)
def imgCell (bs : List Byte) (i : Nat) : Nat := ofBytes ((bs.drop (256 + 16 * i)).take 16)
def imgAt (bs : List Byte) (off n : Nat) : Nat := ofBytes ((bs.drop off).take n)

def headerOk (bs : List Byte) : Bool :=
  let first := imgAt bs 2 2
  let n := imgAt bs 4 2
  imgAt bs 0 2 == 0xDDA1 && decide (1 ≤ n) && decide (first + n ≤ 512) && imgAt bs 6 10 == 0 && imgAt bs 240 16 == 0
    && (List.range 4).all (fun j => domOk (imgDom bs j) ((List.range 16).map (imgTap bs)))
    && (List.range 16).all (fun p => imgPort bs p % 4 != 2 && decide (imgPort bs p < 2 ^ 9))
    && (List.range 16).all fun k => tapOk (imgTap bs k)

/-- The DDA after an image is restored. -/
def Dda.restore (d : Dda) (bs : List Byte) : Dda :=
  let first := imgAt bs 2 2
  let d := { d with doms := (List.range 4).map fun j => domOf (imgDom bs j),
                    ports := (List.range 16).map fun p => portOf (imgPort bs p),
                    taps := (List.range 16).map fun k => tapOf (imgTap bs k) }
  (List.range (imgAt bs 4 2)).foldl (fun (e : Dda) i => e.setCell (first + i) (cellOf (imgCell bs i))) d

/-- Counted domains go on where DSAVE found them between two steps (R262). -/
def Dda.withBeats (d : Dda) (beats : List Bool) : Dda :=
  { d with doms := d.doms.mapIdx fun j m => { m with beat := m.mode == 1 && beats.getD j false } }

def execDrest (g : KG) (d : BitVec 6) (s : State) : Out :=
  dOwn g 1 s fun s e => do
    let a := s.getS d
    s.dStill e allDoms
    let hs ← s.dArea a 16 .read
    let head ← s.getArea a hs
    require (headerOk head) (s.dAt 0x0B)
    let n := imgAt head 4 2
    let ks ← s.dArea a (16 + n) .read
    let bs ← s.getArea a ks
    require ((List.range n).all fun i => cellOk (imgCell bs i)) (s.dAt 0x0B)
    .ok (s.drain.setDda ((e.restore bs).withBeats s.occ.beats))

/-- The entries of tap k in a tap-queue block are legal for its recorded count. -/
def queueOk (t : Tap) (x : Nat) : Bool :=
  (List.range 64).all fun n =>
    let v := x / 4 ^ n % 4
    if n < t.aside then v != 2 && (t.sink != 2 || v != 0) else v == 0

def execDrestTq (g : KG) (d : BitVec 6) (s : State) : Out :=
  dOwn g 1 s fun s e => do
    let a := s.getS d
    s.dStill e allDoms
    let ks ← s.dArea a 16 .read
    let bs ← s.getArea a ks
    let q (k : Nat) : Nat := imgAt bs (16 * k) 16
    require ((List.range 16).all fun k => queueOk (e.tap k) (q k)) (s.dAt 0x0B)
    .ok (s.drain.setDda { e with taps := (List.range 16).map fun k =>
      let t := e.tap k
      { t with fifo := (List.range t.aside).map (fun n => ofTwoBit (q k / 4 ^ n % 4)) ++ t.fifo, aside := 0 } })

/-! ## Stall time-outs (R391) -/

def stallLimit : Nat := 65536

/-- The read of the group in focus that waits on an unbound stream register, or on a memory stream with no element left
(R200), has waited long enough. One of trap-level code is a nested fault, after the same wait (R144, R373): DEDUCED (log 69), the
trap-level cycles that R391 never counts being those in which user level's read or port stands still. DESIGN CHOICE (log 76): a read that
needs more elements than its memory stream still holds ends so too, as one after the last element does. -/
def State.readStall (s : State) : State :=
  match s.occ.wait with
  | some w =>
    let x := s.occ.stream (w.detail - 1)
    let c : Cause := { code := 0x18, eng := .v, info := BitVec.ofNat 64 (w.detail - 1), addr := 0 }
    if w.kind = 14 && w.detail ≠ 0 && (!x.bound || (!x.tap && x.left == 0)) && s.me.run == .running
        && decide (stallLimit ≤ s.cyc - w.since) && !s.occ.causes.contains c then
      if s.occ.trapLevel then s.trap c (s.pcOf .v) else s.addCause c
    else s
  | none => s

/-- The lowest port of the DDA that the group in focus holds in its slot, whose stream register is unbound or has no
element left (R200) and which has held its domain long enough. Any other fault that the cycle's steps meet comes first (R249). -/
def State.portStall (s : State) : State :=
  let core := s.me.place.core
  let d := s.core.dda
  match d.owner, s.ownerOcc core with
  | some (gid, _), some o =>
    if gid ≠ s.me.gid || d.frozen || o.causes.any isDdaCause then s
    else
      match (List.range 16).find? fun p =>
        let x := d.port p
        x.bound && (!(o.stream x.w).bound || (!(o.stream x.w).tap && (o.stream x.w).left == 0))
          && match x.held with | some c => decide (stallLimit ≤ s.cyc - c) | none => false with
      | none => s
      | some p =>
        let j := (d.port p).dom
        let t := s.ddaCycle core
        if (t.coreAt core).dda.frozen then t
        else (s.setDda { d with frozen := true }).onOwner core fun s =>
          s.addCause { code := 0x18, eng := .d, info := ddaInfo p false j 3 true false (d.dom j).steps, addr := 0 }
  | _, _ => s

/-- STALL_TIMEOUT (R391). -/
def execStallTimeout (gid : Nat) (s : State) : Out := .next (s.onGroup gid fun s => s.readStall.portStall)

end Sys2Proof.Machine
end

