-- ==== Sys2Proof/Machine/Objects.lean ====
section
/-! DEFINITION. Objects in memory that the device acts on: object addresses (R301), task cards (R295 to R298), ready
queues (R299), waiters (R303), holder codes and fault words (R302), adoption (R308) and priority inheritance (R309). -/

namespace Sys2Proof.Machine

/-- Bytes [off, off + n) of a structure read as one little-endian number. -/
def fieldAt (x off n : Nat) : Nat := x / 2 ^ (8 * off) % 2 ^ (8 * n)

/-- The key of a 16-byte object, after the checks of R301; the device changes it indivisibly. -/
def State.objectKey (s : State) (e : Eng) (a : DWord) : Act Nat := do
  let sp := packedSpace a
  require ((sp == 0 || sp == 2 || sp == 3) && a.extractLsb' 48 13 == 0) (s.faultAt e 0x0B)
  let off := packedOff a
  let i : MemInfo := { write := true, atomic := true }
  require (off.toNat % 16 == 0) (.trap 4 i.bits off)
  let k ← s.keyOf sp 0 0 off 16 .both i
  s.checkRanges [s.range sp 0 off.toNat 16 true]
  s.checkStreams e [s.range sp 0 off.toNat 16 true]
  s.checkLost off k 16
  .ok k

/-- The key of an object for what the device does on its own, where it can be reached. -/
def State.objectKey? (s : State) (a : DWord) : Option Nat :=
  let sp := packedSpace a
  if (sp == 0 || sp == 2 || sp == 3) && a.extractLsb' 48 13 == 0 then
    match s.keyOf sp 0 0 (packedOff a) 16 .both {} with
    | .ok k => some k
    | .error _ => none
  else none

/-! ## Holder codes and fault words (R302) -/

def State.holder (s : State) : Nat :=
  if s.occ.task ≠ 0 then s.occ.task
  else 2 ^ 31 + s.die * 2 ^ 29 + Config.coreIndex s.me.place.core * 2 ^ 21 + s.me.place.slot * 2 ^ 14

def faultWord (task cause : Nat) : Nat := task + cause * 2 ^ 32

/-! ## Task cards (R296) -/

/-- Virtual address of a card. -/
def State.cardAddr (s : State) (ctx task : Nat) : Nat := (s.ctxAt ctx).arena + 128 * task

def State.card? (s : State) (ctx task : Nat) : Option Nat := s.devRead ctx (s.cardAddr ctx task) 128

def State.setCard (s : State) (ctx task off n x : Nat) : Option State := s.devWrite ctx (s.cardAddr ctx task + off) n x

/-- STATE of a card; 0 when it cannot be read. -/
def State.cardState (s : State) (ctx task : Nat) : Nat := (s.devRead ctx (s.cardAddr ctx task + 0x14) 1).getD 0

/-- What the device carries for a task. -/
def State.taskInfo? (s : State) (ctx task : Nat) : Option TaskInfo :=
  s.tasks.find? fun t => t.ctx == ctx && t.task == task

/-- What the device carries for a task that it has not seen before. -/
def TaskInfo.fresh (ctx task : Nat) : TaskInfo :=
  { ctx, task, launch := 0, teamIdx := 0, teamUid := 0, inherited := 0, home := (0, 0), parkedIn := none }

def State.modTask (s : State) (ctx task : Nat) (f : TaskInfo → TaskInfo) : State :=
  { s with tasks := modifyFirst (fun t => t.ctx == ctx && t.task == task) f s.tasks }

/-- Effective priority of a task (R299). -/
def State.taskPrio (s : State) (ctx task : Nat) : Nat :=
  let own := (s.devRead ctx (s.cardAddr ctx task + 0x16) 1).getD 0
  match s.taskInfo? ctx task with
  | some t => max own t.inherited
  | none => own

/-- Effective priority of an occupant of a context (R309). -/
def State.occPrio (s : State) (ctx : Nat) (o : Occ) : Nat :=
  if o.task ≠ 0 then s.taskPrio ctx o.task
  else match (s.team? o.team).bind fun t => s.launch? t.launch with
    | some l => l.record.prio
    | none => 0

/-- Effective priority of the running occupant (R309). -/
def State.myPrio (s : State) : Nat := s.occPrio s.me.ctx s.occ

/-- An entry at the tail of a cluster's ready queue (R299). -/
def State.enqueue (s : State) (ctx task die cluster core : Nat) : State :=
  { s with ready := s.ready ++ [{ die, cluster, ctx, task, stamp := (s.dieAt die).cyc, core, passed := false, slot := none }] }

/-- The home cluster of a task made ready by the group in focus (R299). -/
def State.homeFor (s : State) (tile : Bool) : Nat × Nat :=
  let c := Config.clusterOf s.me.place.core
  if s.tile = tile then (s.die, c)
  else let d := Config.partnerDie s.die; (d, c % Config.clustersOf d)

/-- KIND of a card: whether it asks for an N-tile. -/
def cardTile (card : Nat) : Bool := fieldAt card 0x17 1 / 2 % 2 == 1

/-- A task becomes ready at the hands of the group in focus. -/
def State.makeReady (s : State) (ctx task : Nat) (card : Nat) : State :=
  let (d, c) := s.homeFor (cardTile card)
  (s.enqueue ctx task d c s.me.place.core).modTask ctx task fun t => { t with home := (d, c) }

def State.dequeue (s : State) (ctx task : Nat) : State :=
  { s with ready := s.ready.filter fun r => !(r.ctx == ctx && r.task == task) }

/-- Give a task a priority (R309), which a task that is not spawned yet keeps too, and through what it waits on, the owners further on; a queued one gets a new stamp, which puts it at
the tail of its level (R353). `fuel` bounds the chain. -/
def State.inherit (s : State) (ctx task prio : Nat) : Nat → State
  | 0 => s
  | fuel + 1 =>
    let st := s.cardState ctx task
    if task = 0 || st = 5 || st = 6 || prio ≤ s.taskPrio ctx task then s
    else
      let s : State := if (s.taskInfo? ctx task).isNone then { s with tasks := s.tasks ++ [TaskInfo.fresh ctx task] } else s
      let s : State := s.modTask ctx task fun t => { t with inherited := max t.inherited prio }
      let s : State :=
        match s.ready.find? fun r => r.ctx == ctx && r.task == task with
        | some r => { s with ready := (s.ready.filter fun q => !(q.ctx == ctx && q.task == task))
                                        ++ [{ r with stamp := (s.dieAt r.die).cyc }] }
        | none => s
      match s.groups.find? fun (g : Group) => g.ctx == ctx && (g.occ.task == task || g.under.any fun o => o.task == task) with
      | some g =>
        match g.occ.wait.orElse fun _ => g.occ.parked with
        | some w => if w.kind = 4 || w.kind = 5 || w.kind = 10 then s.inherit ctx w.owner prio fuel else s
        | none => s
      | none => s

/-! ## Waiters (R303) -/

/-- Change the WAITERS count of the object that a wait of AWAIT (4) or LOCKA (5) is on; it saturates at 0xFFFF. -/
def State.addWaiter (s : State) (kind : Nat) (obj : DWord) (up : Bool) : State :=
  match s.objectKey? obj with
  | none => s
  | some k =>
    let (off, n) := if kind = 4 then (12, 2) else (4, 4)
    let x := s.mem.getN (k + off) n
    s.poke (k + off) (toBytes n (if up then min 0xFFFF (x + 1) else x - 1))

/-- The wait of the group in focus ends (R303). -/
def State.endWait (s : State) : State :=
  match s.occ.wait with
  | some w => (if w.kind = 4 || w.kind = 5 then s.addWaiter w.kind w.obj false else s).mapOcc fun o => { o with wait := none }
  | none => s

/-- An AWAIT or LOCKA waits: counted once. -/
def State.waitOn (s : State) (kind : Nat) (obj : DWord) (owner : Nat) : State :=
  match s.occ.wait with
  | some _ => s.beginWait kind obj owner 0
  | none => (s.addWaiter kind obj true).beginWait kind obj owner 0

/-! ## The register pool (R17, R323) -/

/-- Lane-registers that a group's occupants hold. -/
def Group.laneRegs (g : Group) : Nat := (g.occ :: g.under).foldl (fun a o => a + o.count * o.width) 0

def Group.resident (g : Group) : Bool := decide (g.run = .running)

/-- Lane-registers free on a core: the pool less what its groups and the credits of its teams hold; a team's credit returns when the team
ends (R323, R426). A team on a core pair holds its credit on the even core. -/
def State.poolFree (s : State) (core : Nat) : Nat :=
  Config.poolRegs (Config.isTile core)
    - (s.groups.filter fun g => g.resident && g.place.core == core).foldl (fun a g => a + g.laneRegs) 0
    - (s.teams.filter fun t => !t.parked && t.live != 0 && t.cores.head? == some core).foldl (fun a t => a + t.credit) 0

/-- The half-slots or slots that a group of width w at a slot index covers (R15, R16). -/
def coveredSlots (tile : Bool) (slot w : Nat) : List Nat := if tile then [slot] else (List.range (w / 16)).map (slot + ·)

/-- The physical lanes of a placement (R14, R16). -/
def coveredLanes (core slot w : Nat) : List Nat := (List.range w).map (physLane ⟨core, slot⟩)

/-- Bytes of slices on a physical lane of a core (R18). -/
def State.slicesOn (s : State) (core lane : Nat) : Nat :=
  (s.groups.filter fun g => g.resident && g.place.core == core
      && (coveredLanes core g.place.slot g.occ.width).contains lane).foldl
    (fun a g => a + (g.occ :: g.under).foldl (fun b o => b + o.lanePriv) 0) 0

/-- Whether a slice fits every physical lane of a placement (R18). -/
def State.sliceFits (s : State) (core slot w bytes : Nat) : Bool :=
  (coveredLanes core slot w).all fun l => s.slicesOn core l + bytes ≤ Config.lanePrivBytes (Config.isTile core)

/-! ## Adoption (R308) -/

/-- Offset of the AWIN word in a control record (R219). -/
def awinAt : Nat := 0xFE8

/-- The window that the control record at a save area holds (R219); that of the parked occupant where the record cannot be read. -/
def State.savedWindow (s : State) (ctx : Nat) (save : DWord) (o : Occ) : Nat × Nat :=
  match s.devRead ctx (save + BitVec.ofNat 64 awinAt).toNat 4 with
  | some w => (bitsOf w 11 0, bitsOf w 27 16)
  | none => (o.awb, o.awl)

/-- The checks of R308 on a task T, against the slot of the group in focus. The window of a parked task must lie in no
resident group's window (R218, R219). A parked T brings the registers that it holds and its credit: VREGS × width together (R426). -/
def State.adoptable (s : State) (task : Nat) : Bool :=
  match s.card? s.me.ctx task with
  | none => false
  | some card =>
    let st := fieldAt card 0x14 1
    let alone := match s.taskInfo? s.me.ctx task with
      | some t => match t.parkedIn.bind s.group? with
        | some g => g.under = [] && (match g.run with | .waitPark _ => true | .preemptPark => true | _ => false)
            && (let w := s.savedWindow s.me.ctx (BitVec.ofNat 64 (fieldAt card 0x40 8)) g.occ
                !({ s with me := { s.me with under := s.me.occ :: s.me.under } } : State).overlapsWindow w.1 w.2)
        | none => false
      | none => false
    let flags := fieldAt card 0x17 1
    let w := 16 * 2 ^ fieldAt card 0x15 1
    (st == 2 || (st == 4 && alone)) && flags % 2 == 1 && cardTile card == s.tile && w == s.occ.width
      && fieldAt card 0x18 2 * w ≤ s.poolFree s.me.place.core
      && s.sliceFits s.me.place.core s.me.place.slot w (fieldAt card 0x1A 2)
      && s.me.under.length < s.me.alim

/-- A fresh occupant that runs a task from its entry (R21, R300). -/
def taskOcc (t : TaskInfo) (card cardVa slices : Nat) (changes : Nat) : Occ :=
  let w := 16 * 2 ^ fieldAt card 0x15 1
  let entry := BitVec.ofNat 64 (fieldAt card 0 8)
  { Occ.empty with
    task := t.task, team := t.teamUid, launch := t.launch, teamIdx := t.teamIdx, group := 0, ngroup := 1, width := w,
    count := fieldAt card 0x18 2, lanePriv := fieldAt card 0x1A 2, lanePrivBase := slices,
    pcs := Pcs.all (lineOf64 entry + 4), flow := { Flow.empty with mask := allLanes w },
    regs := { Regs.empty with s := [0, BitVec.ofNat 64 (fieldAt card 8 8), BitVec.ofNat 64 cardVa] },
    saveptr := BitVec.ofNat 64 (fieldAt card 0x40 8), fgseen := changes }

end Sys2Proof.Machine
end

