-- ==== Sys2Proof/Machine/Pack.lean ====
section
/-! DEFINITION. The launch record (R319), and where its groups and teams fit: slots, registers, slices and allocations (R3, R14 to R19,
R173, R334), on one core, on a core pair, and in a cluster at once (R354, R355, R439). -/

namespace Sys2Proof.Machine

/-! ## The launch record (R319) -/

def LaunchRec.ofNat (x : Nat) : LaunchRec :=
  { entry := BitVec.ofNat 64 (fieldAt x 0 8), tx := fieldAt x 8 2, ty := fieldAt x 10 2, tz := fieldAt x 12 2,
    groups := fieldAt x 14 1, width := 16 * 2 ^ fieldAt x 15 1, regs := fieldAt x 16 2, lanePriv := fieldAt x 18 2,
    teamScr := fieldAt x 20 4, clusScr := fieldAt x 24 4, stagger := fieldAt x 28 4,
    counter := BitVec.ofNat 64 (fieldAt x 32 8), arg := BitVec.ofNat 64 (fieldAt x 40 8),
    cosched := fieldAt x 48 4 % 2 == 1, tile := fieldAt x 48 4 / 2 % 2 == 1, prio := fieldAt x 52 1 }

def LaunchRec.teams (r : LaunchRec) : Nat := r.tx * r.ty * r.tz

/-- Every field in its range, and reserved bits zero (R319). -/
def recordOk (x : Nat) : Bool :=
  let r := LaunchRec.ofNat x
  r.tx != 0 && r.ty != 0 && r.tz != 0 && decide (r.teams ≤ 2 ^ 32)
    && decide (1 ≤ r.groups) && decide (r.groups ≤ 32) && decide (fieldAt x 15 1 ≤ 2)
    && decide (8 ≤ r.regs) && decide (r.regs ≤ 128) && r.regs % 8 == 0
    && r.lanePriv % 16 == 0 && decide (r.lanePriv ≤ Config.lanePrivBytes r.tile)
    && r.teamScr % 64 == 0 && r.clusScr % 64 == 0
    && fieldAt x 48 4 / 4 == 0 && decide (r.prio ≤ 7) && fieldAt x 53 11 == 0

/-! ## Groups -/

def State.slotTaken (s : State) (core i : Nat) : Bool :=
  s.groups.any fun (g : Group) => g.resident && g.place.core == core
    && (coveredSlots (Config.isTile core) g.place.slot g.occ.width).contains i

/-- A slot index for a group of width w (R15, R16). -/
def slotAligned (tile : Bool) (slot w : Nat) : Bool :=
  if tile then decide (slot < 8) else slot % (w / 16) == 0 && decide (slot + w / 16 ≤ 96)

/-- A core that stands on a unit scheduled for retirement (R400). -/
def Die.retiresCore (d : Die) (core : Nat) : Bool :=
  d.retiring.any fun u => ([0, 1, 2, 5, 6, 10].contains u.1 && u.2 == Config.coreIndex core)
    || (u.1 == 3 && u.2 == Config.clusterOf core)

/-- The core is there, enabled, and receives placements (R3, R400). -/
def State.coreUsable (s : State) (core : Nat) : Bool :=
  decide (Config.coreDie core < 4) && decide (Config.coreIndex core < Config.coresOf (Config.coreDie core))
    && !(s.coreAt core).disabled && !(s.dieAt (Config.coreDie core)).retiresCore core

/-- A group fits a placement: half-slots or slot, registers, slices (R14 to R18). -/
def State.groupFits (s : State) (pl : Place) (w regs priv : Nat) : Bool :=
  let tile := Config.isTile pl.core
  s.coreUsable pl.core && slotAligned tile pl.slot w
    && (coveredSlots tile pl.slot w).all (fun i => !s.slotTaken pl.core i)
    && decide (regs * w ≤ s.poolFree pl.core) && s.sliceFits pl.core pl.slot w priv

def State.freeSlot? (s : State) (core w regs priv : Nat) : Option Nat :=
  (List.range (Config.slotsOf (Config.isTile core))).find? fun i => s.groupFits ⟨core, i⟩ w regs priv

/-- A group that only takes its place. -/
def placeHolder (pl : Place) (w regs priv : Nat) : Group :=
  { Group.vacant with run := .running, place := pl,
                      occ := { Occ.empty with width := w, count := regs, lanePriv := priv } }

/-- How many of n groups a core takes, and the state with them in place. -/
def State.pack (s : State) (core w regs priv : Nat) : Nat → Nat × State
  | 0 => (0, s)
  | n + 1 =>
    match s.freeSlot? core w regs priv with
    | none => (0, s)
    | some i =>
      let (k, t) := { s with others := s.others ++ [placeHolder ⟨core, i⟩ w regs priv] }.pack core w regs priv n
      (k + 1, t)

/-! ## Allocations (R19, R173, R334) -/

/-- Where [b, b + n) may lie below a size, clear of what is used; multiples of 64. -/
def basesIn (size n : Nat) (used : List (Nat × Nat)) : List Nat :=
  if n = 0 then [0]
  else (List.range (size / 64)).map (· * 64) |>.filter fun b =>
    decide (b + n ≤ size) && used.all fun u => decide (b + n ≤ u.1) || decide (u.2 ≤ b)

/-- The unit-scratchpad offsets that a team's allocation of n bytes may take, the same in each of its cores. -/
def State.unitBases (s : State) (cores : List Nat) (n : Nat) : List Nat :=
  let used := (s.teams.filter fun (t : Team) => !t.parked && t.cores.any cores.contains).map fun (t : Team) =>
    (t.unitBase, t.unitBase + t.unitSize)
  basesIn ((cores.map Config.unitBytes).foldl min (2 ^ 20)) n used

def State.clusBases (s : State) (die cluster n : Nat) : List Nat :=
  let used := s.launches.filterMap fun (l : Launch) =>
    match l.bound with
    | some (d, c, b) => if d = die && c = cluster then some (b, b + l.record.clusScr) else none
    | none => none
  basesIn (Config.clusterBytes die) n used

/-- One of the places that an allocation may take: which is free (log 32). -/
def pickBase (seq : Nat) (bases : List Nat) : Nat := bases.getD (Config.freeBase seq % bases.length) 0

/-! ## Teams (R354) -/

/-- Cores of a cluster of a die. -/
def State.clusterCores (s : State) (die cluster : Nat) : List Nat :=
  ((List.range (Config.coresOf die)).map (Config.coreKey die)).filter fun k =>
    Config.clusterOf k == cluster && s.coreUsable k

def pairOf (core : Nat) : List Nat := [core / 2 * 2, core / 2 * 2 + 1]

/-- Whether a team fits a core alone. -/
def State.fitsCore (s : State) (r : LaunchRec) (core : Nat) : Bool :=
  (s.pack core r.width r.regs r.lanePriv r.groups).1 == r.groups && s.unitBases [core] r.teamScr != []

/-- Whether a team fits a core pair: as many groups as fit on the even core, the rest on the odd one. -/
def State.fitsPair (s : State) (r : LaunchRec) (core : Nat) : Bool :=
  let even := core / 2 * 2
  let (k, t) := s.pack even r.width r.regs r.lanePriv r.groups
  s.coreUsable even && s.coreUsable (even + 1)
    && k + (t.pack (even + 1) r.width r.regs r.lanePriv (r.groups - k)).1 == r.groups
    && s.unitBases (pairOf core) r.teamScr != []

/-- Whether a launch may use a cluster, with the allocation that it asks for there. -/
def State.clusterOpen (s : State) (l : Launch) (die cluster : Nat) : Bool :=
  match l.bound with
  | some (d, c, _) => d == die && c == cluster
  | none => l.record.clusScr == 0 || s.clusBases die cluster l.record.clusScr != []

/-- Whether the next team of a launch fits in a cluster. -/
def State.teamFits (s : State) (l : Launch) (die cluster : Nat) : Bool :=
  s.clusterOpen l die cluster
    && (s.clusterCores die cluster).any fun k => s.fitsCore l.record k || s.fitsPair l.record k

/-- A team that only takes its scratchpad allocation. -/
def teamHolder (cores : List Nat) (base size : Nat) : Team :=
  { uid := 0, ctx := 0, launch := 0, index := 0, cores, unitBase := base, unitSize := size, live := 0, barriers := [],
    credit := 0, claims := [], abort := none, preempting := false, parked := false, resuming := false, relocate := false }

/-- The state with one more team of a launch in place: on one core where it fits one, else on a pair. -/
def State.packTeam (s : State) (r : LaunchRec) (cores : List Nat) : Option State :=
  let hold (t : State) (cs : List Nat) : State :=
    { t with teams := t.teams ++ [teamHolder cs ((s.unitBases cs r.teamScr).headD 0) r.teamScr] }
  match cores.find? (s.fitsCore r) with
  | some k => some (hold (s.pack k r.width r.regs r.lanePriv r.groups).2 [k])
  | none =>
    (cores.find? (s.fitsPair r)).map fun core =>
      let (k, t) := s.pack (core / 2 * 2) r.width r.regs r.lanePriv r.groups
      hold (t.pack (core / 2 * 2 + 1) r.width r.regs r.lanePriv (r.groups - k)).2 (pairOf core)

/-- Whether n teams fit at once. -/
def State.packTeams (s : State) (r : LaunchRec) (cores : List Nat) : Nat → Bool
  | 0 => true
  | n + 1 => match s.packTeam r cores with
    | some t => t.packTeams r cores n
    | none => false

/-- Mesh form (R439): one team to a tile. -/
def LaunchRec.mesh (r : LaunchRec) : Bool := r.cosched && r.tile && r.tz == 1 && decide (r.tx ≤ 4) && decide (r.ty ≤ 4)

/-- The tile of team i of a launch in mesh form in a cluster (R439). -/
def meshCore (r : LaunchRec) (die cluster i : Nat) : Nat :=
  Config.coreKey die ((4 * (cluster / 3) + i / r.tx) * 12 + 4 * (cluster % 3) + i % r.tx)

/-- Whether every team of a co-scheduled launch fits in a cluster at once (R354, R439). -/
def State.allFit (s : State) (l : Launch) (die cluster : Nat) : Bool :=
  s.clusterOpen l die cluster
    && (if l.record.mesh then (List.range l.record.teams).all fun i => s.fitsCore l.record (meshCore l.record die cluster i)
        else s.packTeams l.record (s.clusterCores die cluster) l.record.teams)

/-- The die that serves a launch issued on a die (R320). -/
def servingDie (die : Nat) (r : LaunchRec) : Nat := if Config.isTileDie die = r.tile then die else Config.partnerDie die

/-- The package with no work on it; what is disabled stays so. -/
def State.emptied (s : State) : State :=
  { s with me := Group.vacant, others := [], teams := [], launches := [], dies := s.dies.map fun d => { d with retiring := [] } }

/-- A launch of a record that holds nothing yet. -/
def LaunchRec.fresh (r : LaunchRec) : Launch :=
  { uid := 0, ctx := 0, id := 0, record := r, stage := .held, dies := [], core := 0, stamp := 0, next := 0, done := 0, bound := none,
    lastStart := [], drain := none, passed := [] }

/-- Whether the teams of a co-scheduled launch could all be placed at once in an empty cluster of one of the dies (R355). -/
def State.fitsEmpty (s : State) (r : LaunchRec) (dies : List Nat) : Bool :=
  dies.any fun d => (List.range (Config.clustersOf d)).any fun c => s.emptied.allFit r.fresh d c

end Sys2Proof.Machine
end

