-- ==== Sys2Proof/Machine/Launch.lean ====
section
/-! DEFINITION. Launches: the record and its checks (R319, R320, R355), identifiers (R448), the pending-launch queue and
the die launch list (R321, R352, R432), and the host launch list (R349, R350). -/

namespace Sys2Proof.Machine

/-! ## The checks of R320 -/

/-- Check a record of a context that has been read: its fields, whether its teams fit a die that serves it, then its counter, which is
to be written. -/
def State.checkRecord (s : State) (ctx : Nat) (dies : LaunchRec → List Nat) (x : Nat) : Act (LaunchRec × Option Nat) := do
  let r := LaunchRec.ofNat x
  let wr : MemInfo := { write := true, atomic := true }
  require (r.entry.toNat % 32 == 0) (.trap 4 ({} : MemInfo).bits r.entry)
  require (r.counter.toNat % 8 == 0) (.trap 4 wr.bits r.counter)
  require (recordOk x) (.trap 0x0B 0 (s.pcOf .k))
  require (!r.cosched || s.fitsEmpty r (dies r)) (.trap 0x0B 0 (s.pcOf .k))
  if r.counter = 0 then .ok (r, none)
  else match s.translate ctx r.counter .both with
    | .ok k => do
      s.checkLost r.counter k 8
      .ok (r, some k)
    | .error w =>
      if w.code = 0x1C then .error (.trap 0x1C (s.lostInfo w.key false) r.counter)
      else .error (.trap w.code ({ wr with level := w.level, bad := w.bad }).bits r.counter)

/-! ## Acceptance (R320, R448) -/

/-- The next %LAUNCH of a context; 0 is skipped. -/
def nextId (x : Word) : Word := if x + 1 = 0 then 1 else x + 1

/-- A launch is accepted: it takes its identifier, and its counter gains its team count. -/
def State.acceptLaunch (s : State) (ctx : Nat) (r : LaunchRec) (counter : Option Nat) (stage : Stage) (dies : List Nat)
    (core : Nat) (drain : Option (SetRef × Nat)) : State :=
  let id := (s.ctxAt ctx).nextLaunch
  let l : Launch :=
    { uid := s.uid, ctx, id, record := r, stage, dies, core, stamp := (s.dieAt (dies.headD 0)).cyc, next := 0, done := 0,
      bound := none, lastStart := [], drain, passed := [] }
  let s := { s with uid := s.uid + 1, launches := s.launches ++ [l] }.modCtx ctx fun c => { c with nextLaunch := nextId id }
  match counter with
  | some k => s.poke k (toBytes 8 ((s.mem.getN k 8 + r.teams) % 2 ^ 64))
  | none => s

/-- Launches of a core in its pending-launch queue, and spilled ones. -/
def State.pendingOf (s : State) (core : Nat) : List Launch := s.launches.filter fun l => l.core == core && l.stage == .pending
def Stage.isSpilled : Stage → Bool
  | .spilled .. => true
  | _ => false
def State.spilledOf (s : State) (core : Nat) : List Launch := s.launches.filter fun l => l.core == core && l.stage.isSpilled

/-- Entries of the die launch list of a die and context that are waiting. -/
def State.dieListUsed (s : State) (ctx die : Nat) : Nat :=
  (s.launches.filter fun l => l.ctx == ctx && match l.stage with | .spilled d _ => d == die | _ => false).length

/-- The ring position of the next spill: the first from where the ring stands whose entry does not still wait (R352, R432). -/
def State.spillPos (s : State) (ctx die : Nat) : Nat :=
  let at' := (s.ctxAt ctx).dieLists.getD die 0
  let waiting := s.launches.filterMap fun l => match l.stage with
    | .spilled d pos => if l.ctx = ctx ∧ d = die then some (pos % 4096) else none
    | _ => none
  (((List.range 4096).map (at' + ·)).find? fun p => !waiting.contains (p % 4096)).getD at'

/-- Write entry `pos` of a die launch list (R432). -/
def State.writeSpill (s : State) (ctx die pos record stamp core state issuer : Nat) : Option State :=
  let at' := (s.ctxAt ctx).dieList die + 128 * (pos % 4096)
  s.devPut ctx at' (toBytes 64 record ++ toBytes 8 stamp ++ toBytes 2 core ++ toBytes 1 state ++ toBytes 1 0
    ++ toBytes 4 issuer ++ toBytes 48 0)

/-- LAUNCH (R320, R321). -/
def execLaunch (g : KG) (a : BitVec 6) (s : State) : Out :=
  kDo g 1 s fun s => do
    let addr := s.getS a
    require (addr.toNat % 64 == 0) (.trap 4 ({} : MemInfo).bits addr)
    let k ← s.globalKey addr .read {}
    s.checkRanges [s.range 0 0 addr.toNat 64 false]
    s.checkLost addr k 64
    let s := s.drain
    let x := s.mem.getN k 64
    let (r, counter) ← s.checkRecord s.me.ctx (fun r => [servingDie s.die r]) x
    let core := s.me.place.core
    let die := servingDie s.die r
    let ctx := s.me.ctx
    if (s.pendingOf core).length < 4 && s.spilledOf core = [] then
      .ok (s.acceptLaunch ctx r counter .pending [die] core none)
    else
      require (decide (s.dieListUsed ctx s.die < 4096)) (.wait 12 0 0 0)
      let pos := s.spillPos ctx s.die
      let t := (s.acceptLaunch ctx r counter (.spilled s.die pos) [die] core none).modCtx ctx fun c =>
        { c with dieLists := setAt 0 c.dieLists s.die (pos + 1) }
      t.reach 0 (BitVec.ofNat 64 ((s.ctxAt ctx).dieList s.die)) (t.writeSpill ctx s.die pos x (s.dieAt die).cyc (Config.coreIndex core) 1 s.holder)

/-- PENDING_LAUNCH_DRAIN (R321): the controller takes the next launch of a core's pending-launch queue. -/
def execPendingLaunchDrain (core : Nat) (s : State) : Out :=
  match s.pendingOf core with
  | [] => .next s
  | l :: _ => .next (s.modLaunch l.uid fun l => { l with stage := .held })

/-- The first spilled launch that the controller of a die's list may take: its core has nothing pending (R432). -/
def State.takeable (s : State) (ctx die : Nat) : Option (Launch × Nat) :=
  s.launches.findSome? fun l =>
    if l.ctx != ctx || (s.pendingOf l.core) != [] then none
    else match l.stage with
      | .spilled d pos => if d = die then some (l, pos) else none
      | _ => none

/-- DIE_LIST_TAKE (R432): the controller takes a spilled entry; its STATE becomes 2. -/
def execDieListTake (ctx die : Nat) (s : State) : Out :=
  match s.takeable ctx die with
  | none => .next s
  | some (l, pos) =>
    device s ((s.modLaunch l.uid fun l => { l with stage := .held }).devWrite ctx
      ((s.ctxAt ctx).dieList die + 128 * (pos % 4096) + 0x4A) 1 2)

/-! ## The host launch list (R349, R350) -/

/-- HOST_LAUNCH_DOORBELL (R349): the host writes WRPTR, which is counted where the list lies in HBM (R434). -/
def execHostLaunchDoorbell (ctx : Nat) (wrptr : BitVec 64) (s : State) : Out :=
  let at' := (s.ctxAt ctx).hlist
  device s (do
    let t ← s.devWrite ctx at' 8 wrptr.toNat
    let k ← s.devKey ctx at' .write
    some (t.countWrite k 8))

/-- The cause code of a rejection. -/
def rejectCode : Stop → Nat
  | .trap c _ _ => c
  | _ => 0

/-- A host record at an address of a context, as LAUNCH reads one (R350): one that cannot be reached, or is lost, fails. -/
def State.hostRecord (s : State) (ctx va : Nat) : Act Nat := do
  let a := BitVec.ofNat 64 va
  match s.translate ctx a .read with
  | .error w => .error (.trap w.code 0 a)
  | .ok k => do
    s.checkLost a k 64
    .ok (s.mem.getN k 64)

/-- Consume the next record of the host launch list of an active context. -/
def State.consumeHost (s : State) (ctx : Nat) : Option State := do
  let at' := (s.ctxAt ctx).hlist
  if (s.ctxAt ctx).state ≠ 1 then some s
  else do
    let w ← s.devRead ctx at' 8
    let r ← s.devRead ctx (at' + 8) 8
    let cap ← s.devRead ctx (at' + 0x10) 4
    let status ← s.devRead ctx (at' + 0x14) 4
    if status / 2 % 2 = 1 || w = r then some s
    else if cap < (w + 2 ^ 64 - r) % 2 ^ 64 then s.devWrite ctx (at' + 0x14) 4 (status ||| 2)
    else do
      let dies (r : LaunchRec) : List Nat := if r.tile then [2, 3] else [0, 1]
      let s ← match (s.hostRecord ctx (at' + 64 + 64 * (r % cap))).bind (s.checkRecord ctx dies) with
        | .ok (rec', counter) => some (s.acceptLaunch ctx rec' counter .held (dies rec') 0 none)
        | .error stop =>
          (s.devWrite ctx (at' + 0x14) 4 (status % 256 / 2 * 2 + 1 + rejectCode stop * 256)).bind fun t =>
            t.devWrite ctx (at' + 0x18) 8 r
      s.devWrite ctx (at' + 8) 8 ((r + 1) % 2 ^ 64)

/-- HOST_RECORD_CONSUME (R350). -/
def execHostRecordConsume (ctx : Nat) (s : State) : Out := device s (s.consumeHost ctx)

end Sys2Proof.Machine
end

