-- ==== Sys2Proof/Machine/Record.lean ====
section
/-! DEFINITION. The control record (R377 to R379): how PARK writes it and how a restore reads it, and the restore path
(R308, R380). -/

namespace Sys2Proof.Machine

/-! ## Writing -/

/-- The newest 16 entries of a control stack, newest first: those on the core, then spilled ones. -/
def State.topDiv (s : State) (f : Flow) : Nat → List DivEntry
  | 0 => []
  | n + 1 =>
    let i := f.dspill - (n + 1)
    s.topDiv f n ++ [DivEntry.ofNat ((s.devRead s.me.ctx (divSpillAt s.occ.saveptr i).toNat 32).getD 0)]

def State.topRet (s : State) (f : Flow) : Nat → List RetEntry
  | 0 => []
  | n + 1 =>
    let i := f.rspill - (n + 1)
    s.topRet f n ++ [RetEntry.ofNat ((s.devRead s.me.ctx (retSpillAt s.occ.saveptr i).toNat 16).getD 0)]

/-- The stacks as they are recorded: at most 16 entries each, so that the record's depths say where they stand. -/
def State.settle (s : State) (f : Flow) : Flow :=
  let nd := min (16 - f.div.length) f.dspill
  let nr := min (16 - f.ret.length) f.rspill
  { f with div := f.div ++ s.topDiv f nd, dspill := f.dspill - nd, ret := f.ret ++ s.topRet f nr, rspill := f.rspill - nr }

/-- Pad with zeros to n bytes. -/
def padTo (n : Nat) (bs : List Byte) : List Byte := (bs ++ List.replicate (n - bs.length) 0).take n

def LoopRec.bytes (l : LoopRec) : List Byte :=
  toBytes 8 l.start.toNat ++ toBytes 2 l.span ++ toBytes 2 l.ddepth ++ toBytes 2 l.rdepth ++ toBytes 2 1

def Watch.bytes (w : Watch) : List Byte :=
  toBytes 8 w.addr.toNat ++ toBytes 8 w.expect.toNat ++ toBytes 1 w.attrs ++ toBytes 1 w.armed.toNat ++ toBytes 6 0

def BoqEntry.bytes (q : BoqEntry) : List Byte :=
  toBytes 8 q.addr.toNat ++ toBytes 8 (q.target.toNat / 4 * 4 + q.taken.toNat + 2 * q.transfer.toNat)
    ++ toBytes 8 q.mask.toNat

def MemCmd.bytes (c : MemCmd) : List Byte :=
  c.quad.flatMap (fun w => toBytes 8 w.toNat) ++ toBytes 8 c.route.toNat ++ toBytes 1 c.op
    ++ toBytes 1 (c.halted.toNat + 2 * c.error.toNat) ++ toBytes 2 0
    ++ toBytes 4 (if c.op = 0x0B && c.sem.isNone then 0
        else (joinMX { c := 0, sz := 0, sp := BitVec.ofNat 3 c.space, sc := BitVec.ofNat 3 c.scope, imm := c.off }).toNat)
    ++ toBytes 4 c.i ++ toBytes 4 c.j ++ toBytes 8 c.deliveries

/-- A stream is recorded with its next unconsumed element (R379). -/
def Stream.rewind (w : Stream) : Stream :=
  if w.tap then w
  else
    let n := w.arrived.length
    { w with addr := w.addr - BitVec.ofNat 64 n * w.stride, left := w.left + n, arrived := [], index := w.index - n,
             fixed := w.arrived.map some ++ w.fixed }

def Stream.bytes (w : Stream) : List Byte :=
  if !w.bound then toBytes 16 0
  else
    toBytes 8 (w.addr.toNat % 2 ^ 48 + w.space * 2 ^ 48 + w.size * 2 ^ 51 + 2 ^ 62 + w.tap.toNat * 2 ^ 63)
      ++ toBytes 4 w.left ++ toBytes 4 (w.stride.toNat % 2 ^ 32)

/-- The five engine PCs of an adoption frame: K, V, M, then X or B, then D. -/
def Pcs.frame (p : Pcs) (tile : Bool) : List DWord := [p.k, p.v, p.m, if tile then p.x else p.b, p.d]

def frameBytes (tile : Bool) (base : Nat) (o : Occ) : List Byte :=
  (o.pcs.frame tile).flatMap (fun a => toBytes 8 a.toNat) ++ toBytes 2 base ++ toBytes 2 o.flow.ddepth
    ++ toBytes 2 o.flow.rdepth ++ toBytes 2 0 ++ toBytes 8 o.flow.mask.toNat ++ toBytes 8 0

def frames (tile : Bool) (seq : Nat) : List Occ → List Byte
  | [] => []
  | o :: os => frameBytes tile (Config.freeBase seq) o ++ frames tile (seq + 1) os

def pcsBytes (p : Pcs) : List Byte := [p.k, p.v, p.m, p.x, p.d, p.b].flatMap fun a => toBytes 8 a.toNat

/-- Loop order: the lc registers as they were bound, oldest first, two bits each. -/
def loopOrder (ls : List LoopRec) : Nat := (ls.reverse.map (·.lc)).foldr (fun lc a => lc + 4 * a) 0

/-- A command halts at an element boundary (R379). -/
def MemCmd.atElement (c : MemCmd) : MemCmd := { c with halted := true }

/-- The team record (R377): barriers, credit and claims. -/
def Barrier.bytes (b : Barrier) : List Byte :=
  toBytes 8 (b.arrived.toNat + b.expected * 2 ^ 32 + b.opened.toNat * 2 ^ 38 + b.phase.toNat * 2 ^ 39)

def Team.bytes (t : Team) : List Byte :=
  padTo 128 ((t.barriers.take 16).flatMap Barrier.bytes) ++ toBytes 4 t.credit ++ toBytes 1 t.claims.length
    ++ toBytes 3 0 ++ padTo 32 (t.claims.flatMap (toBytes 1))

/-- Offset of the team record in the control record, and its bytes. -/
def teamRecordAt : Nat := 0xF40

/-- The control record of the group in focus up to the team record (R377), from the entry capture. -/
def State.recordHead (s : State) (fn : Nat) (cap : Capture) (hasDda : Bool) : List Byte :=
  let o := s.occ
  let w := o.parked.getD { kind := 0, obj := 0, owner := 0, detail := 0, since := 0 }
  let f := s.settle cap.flow
  let at' (l : List DWord) (i : Nat) : DWord := l.getD i 0
  let loop (n : Nat) : List Byte := match f.loops.find? (·.lc == n) with | some l => l.bytes | none => toBytes 16 0
  let bar := match o.barWait with | some (id, ph, _) => id + ph.toNat * 16 + 32 | none => 0
  let pop (e : Eng) : Nat := (f.pops.get e).toNat
  toBytes 2 0xC7A1 ++ toBytes 1 fn ++ toBytes 1 (o.token.isSome.toNat + 2 * o.power.toNat + 4 * hasDda.toNat)
    ++ toBytes 4 o.task ++ toBytes 8 f.mask.toNat ++ pcsBytes o.epc
    ++ toBytes 8 o.tcause.toNat ++ toBytes 8 o.tinfo.toNat ++ toBytes 8 o.taddr.toNat
    ++ toBytes 8 w.obj.toNat ++ toBytes 1 w.kind ++ toBytes 1 s.me.under.length ++ toBytes 1 s.me.alim
    ++ toBytes 1 o.window.toNat ++ toBytes 4 o.parkt.toNat
    ++ toBytes 4 (if w.kind = 2 || w.kind = 7 || w.kind = 8 then w.detail else 0) ++ toBytes 4 bar
    ++ (match o.token with | some (a, n) => toBytes 8 a.toNat ++ toBytes 4 n ++ toBytes 4 0 | none => toBytes 16 0)
    ++ (List.range 64).flatMap (fun i => toBytes 8 (if i = 0 then 0 else (at' cap.s i).toNat))
    ++ toBytes 1 (cap.q.toNat / 2 * 2 + 1) ++ toBytes 1 (loopOrder f.loops)
    ++ toBytes 2 f.ddepth ++ toBytes 2 f.rdepth ++ toBytes 2 o.fgseen
    ++ (List.range 4).flatMap (fun n => toBytes 4 (if f.loops.any (·.lc == n) then f.lc.getD n 0 else 0).toNat)
    ++ (List.range 4).flatMap loop
    ++ padTo 96 (o.watches.flatMap Watch.bytes)
    ++ toBytes 8 (f.boq.length + pop .k * 2 ^ 16 + pop .v * 2 ^ 22 + pop .m * 2 ^ 28 + pop .x * 2 ^ 34
        + pop .d * 2 ^ 40 + pop .b * 2 ^ 46)
    ++ padTo 768 (f.boq.flatMap BoqEntry.bytes)
    ++ padTo 512 (f.div.reverse.flatMap DivEntry.bytes)
    ++ padTo 256 (f.ret.reverse.flatMap RetEntry.bytes)
    ++ padTo 512 (frames s.tile s.freeSeq s.me.under.reverse)
    ++ padTo 256 (cap.v0.flatMap fun x => toBytes 4 x.toNat)
    ++ padTo 512 (s.me.occs.flatMap fun o => o.cmds.flatMap fun c => c.atElement.bytes)
    ++ padTo 256 ((List.range 16).flatMap fun k => (o.stream k).rewind.bytes)

/-- The AWIN word (R219). -/
def Occ.awinWord (o : Occ) : Nat := o.awb + o.awl * 2 ^ 16

/-- Write 64-byte pieces at a GLOBAL address as the group in focus does. -/
def State.writePieces (s : State) (addr : DWord) : Nat → List Byte → Act State
  | 0, _ => .ok s
  | fuel + 1, bs =>
    if bs = [] then .ok s
    else do
      let k ← s.globalKey addr .write { write := true }
      (s.poke k (bs.take 64)).writePieces (addr + 64) fuel (bs.drop 64)

/-- PARK writes the control record (R138, R377) at a save area; the team record's fields are left as they are. -/
def State.writeRecord (s : State) (base : DWord) (fn : Nat) (cap : Capture) (hasDda : Bool) : Act State := do
  require (base.toNat % 64 == 0) (.trap 4 ({ write := true } : MemInfo).bits base)
  let s ← s.writePieces base 61 (s.recordHead fn cap hasDda)
  let k ← s.globalKey (base + 0xFC0) .write { write := true }
  .ok (({ s with freeSeq := s.freeSeq + s.me.under.length }.poke (k + 5) (toBytes 3 0)).poke (k + 0x28)
    (toBytes 4 s.occ.awinWord ++ toBytes 20 0))

/-! ## Reading -/

/-- Bytes [off, off + n) of a record as a number. -/
def recN (r : List Byte) (off n : Nat) : Nat := ofBytes ((r.drop off).take n)
def recD (r : List Byte) (off : Nat) : DWord := BitVec.ofNat 64 (recN r off 8)

def recPcs (r : List Byte) (off : Nat) : Pcs :=
  { k := recD r off, v := recD r (off + 8), m := recD r (off + 16), x := recD r (off + 24), d := recD r (off + 32),
    b := recD r (off + 40) }

/-- The flow that a record holds. -/
def recFlow (r : List Byte) : Flow :=
  let dd := recN r 0x282 2
  let rd := recN r 0x284 2
  let boqs := recN r 0x338 8
  let bound (n : Nat) : Bool := recN r (0x298 + 16 * n + 14) 1 % 2 == 1
  let nb := ((List.range 4).filter bound).length
  let loopAt (n : Nat) : LoopRec :=
    { lc := n, start := recD r (0x298 + 16 * n), span := recN r (0x298 + 16 * n + 8) 2,
      ddepth := recN r (0x298 + 16 * n + 10) 2, rdepth := recN r (0x298 + 16 * n + 12) 2 }
  let names := (List.range nb).map fun j => recN r 0x281 1 / 4 ^ j % 4
  let pop (e : Nat) : DWord := BitVec.ofNat 64 (bitsOf boqs (16 + 6 * e + 5) (16 + 6 * e))
  let entry (j : Nat) : BoqEntry :=
    let b := 0x340 + 24 * j
    let t := recN r (b + 8) 8
    { addr := recD r b, taken := t % 2 == 1, transfer := t / 2 % 2 == 1, target := BitVec.ofNat 64 (t / 4 * 4),
      mask := recD r (b + 16) }
  { mask := recD r 8
    boq := (List.range (min 32 (boqs % 64))).map fun j => entry ((bitsOf boqs 10 6 + j) % 32)
    pops := { k := pop 0, v := pop 1, m := pop 2, x := pop 3, d := pop 4, b := pop 5 }
    div := ((List.range (min 16 dd)).map fun j => DivEntry.ofNat (recN r (0x640 + 32 * j) 32)).reverse
    dspill := dd - 16
    ret := ((List.range (min 16 rd)).map fun j => RetEntry.ofNat (recN r (0x840 + 16 * j) 16)).reverse
    rspill := rd - 16
    lc := (List.range 4).map fun n => BitVec.ofNat 32 (recN r (0x288 + 4 * n) 4)
    loops := ((names.filter bound).map loopAt).reverse
    skips := [] }

/-- The entry capture that a record holds. The record has no place for a loop skip that is still to come (R122), for what the rest of a
broken line reads or completes, nor for the start of an MWAIT whose time-out runs on (R133): these stay as the group parked with them,
`old` (log 26). -/
def recCapture (r : List Byte) (w : Nat) (old : Option Capture) : Capture :=
  { flow := { recFlow r with skips := (old.map (·.flow.skips)).getD [] }, old := (old.map (·.old)).getD [],
    oldLine := (old.map (·.oldLine)).getD 0, mwait := old.bind Capture.mwait, atEnd := old.bind Capture.atEnd,
    s := (List.range 64).map fun i => if i = 0 then 0 else recD r (0x80 + 8 * i),
    q := BitVec.ofNat 8 (recN r 0x280 1), v0 := (List.range w).map fun i => BitVec.ofNat 32 (recN r (0xB40 + 4 * i) 4) }

def recWatch (r : List Byte) (j : Nat) : Watch :=
  let b := 0x2D8 + 24 * j
  { addr := recD r b, expect := recD r (b + 8), attrs := recN r (b + 16) 1, armed := recN r (b + 17) 1 % 2 == 1 }

/-- A command of which nothing is known. -/
def MemCmd.blank (uid : Nat) : MemCmd :=
  { uid, op := 0, quad := [], route := 0, sem := none, off := 0, space := 0, scope := 0, halted := true, i := 0, j := 0, deliveries := 0,
    error := false, ranges := [], addr := 0 }

/-- Command record j; `old` is the command in that place as the group parked with it, whose handle and instruction address go on. The
record does not say whether a TMOV of a zero semaphore word signals, nor where a TMCAST does: that goes on too (log 26). -/
def recCmd (r : List Byte) (j : Nat) (old : MemCmd) : MemCmd :=
  let b := 0xC40 + 64 * j
  let x := splitMX (BitVec.ofNat 32 (recN r (b + 44) 4))
  let route := recD r (b + 32)
  let op := recN r (b + 40) 1
  { old with
    op, quad := (List.range 4).map fun k => recD r (b + 8 * k), route, off := x.imm, space := x.sp.toNat,
    scope := x.sc.toNat, halted := true, error := recN r (b + 41) 1 / 2 % 2 == 1, i := recN r (b + 48) 4,
    j := recN r (b + 52) 4, deliveries := recN r (b + 56) 8,
    sem := if op = 0x0B then
        (if old.sem.isSome || route != 0 || recN r (b + 44) 4 != 0 then
          some ((if x.sp = 0 then route else (route.setWidth 32).setWidth 64) + off16 x) else none)
      else old.sem }

/-- The commands of an occupant that a record holds: those of its places whose record is not zero. -/
def recCmds (r : List Byte) (o : Occ) (uid : Nat) (places : List Nat) : List MemCmd :=
  places.zipIdx.filterMap fun (j, n) =>
    if recN r (0xC40 + 64 * j) 64 = 0 then none else some (recCmd r j (o.cmds.getD n (MemCmd.blank (uid + j))))

/-- The places of the command records of occupants, the running one first, as the slot parked with them (R190, R379, log 26); those of no
other are the first occupant's. -/
def cmdPlaces (os : List Occ) (i : Nat) : List Nat :=
  let from' (n : Nat) : Nat := ((os.take n).map fun o => o.cmds.length).sum
  (List.range 8).filter fun j =>
    (decide (from' i ≤ j) && decide (j < from' (i + 1))) || (i == 0 && decide (from' os.length ≤ j))

/-- Stream record j; `old` is the stream as the group parked with it, whose handle and whose values at the SBIND (R345) go on. -/
def recStream (r : List Byte) (j : Nat) (old : Stream) : Stream :=
  let b := 0xE40 + 16 * j
  let w := recN r b 8
  if bitsOf w 62 62 = 0 then Stream.unbound
  else
    let sp := bitsOf w 50 48
    let a : BitVec 48 := BitVec.ofNat 48 w
    let addr : DWord := if sp = 0 then a.signExtend 64 else a.setWidth 64
    let left := recN r (b + 8) 4
    { bound := true, tap := bitsOf w 63 63 == 1, addr, space := sp, size := bitsOf w 53 51, left,
      stride := (BitVec.ofNat 32 (recN r (b + 12) 4)).signExtend 64, arrived := [], index := old.index, halted := true,
      uid := old.uid, fixed := if addr = old.addr && left = old.left then old.fixed else [] }

/-- An adoption frame gives a helper its PCs and its mask; its commands come back at their places (R379). -/
def recFrame (r : List Byte) (tile : Bool) (j : Nat) (o : Occ) (uid : Nat) (places : List Nat) : Occ :=
  let b := 0x940 + 64 * j
  let p : Pcs := { k := recD r b, v := recD r (b + 8), m := recD r (b + 16), x := if tile then recD r (b + 24) else 0,
                   d := recD r (b + 32), b := if tile then 0 else recD r (b + 24) }
  { o with pcs := p, flow := { o.flow with mask := recD r (b + 48) }, cmds := recCmds r o uid places }

/-- The occupant as the record leaves it. -/
def recOcc (r : List Byte) (o : Occ) (uid : Nat) (places : List Nat) : Occ :=
  let bar := recN r 0x06C 4
  let awin := recN r awinAt 4
  { o with
    epc := recPcs r 0x010, tcause := recD r 0x040, tinfo := recD r 0x048, taddr := recD r 0x050,
    window := BitVec.ofNat 64 (recN r 0x063 1), parkt := BitVec.ofNat 64 (recN r 0x064 4),
    barWait := if bitsOf bar 5 5 = 1 then some (bitsOf bar 3 0, bitsOf bar 4 4 == 1, match o.barWait with | some (_, _, d) => d | none => false) else none,
    token := if recN r 0x003 1 % 2 = 1 then some (recD r 0x070, recN r 0x078 4) else none,
    owed := recN r 0x003 1 / 2 % 2 == 1,
    fgseen := recN r 0x286 2,
    watches := (List.range 4).map (recWatch r),
    cmds := recCmds r o uid places,
    streams := (List.range 16).map fun k => recStream r k (o.stream k),
    awb := bitsOf awin 11 0, awl := bitsOf awin 27 16,
    capture := some (recCapture r o.width o.capture) }

/-- The team record (R377, R130): what a resumed team goes on with. -/
def recTeam (r : List Byte) (t : Team) : Team :=
  let bar (x : Nat) : Barrier :=
    { arrived := BitVec.ofNat 32 x, expected := bitsOf x 37 32, opened := x.testBit 38, phase := x.testBit 39 }
  { t with
    barriers := (List.range 16).map fun j => bar (recN r (teamRecordAt + 8 * j) 8)
    credit := recN r 0xFC0 4
    claims := (List.range (min 32 (recN r 0xFC4 1))).map fun j => recN r (0xFC8 + j) 1 }

/-! ## Checks of a restore (R379) -/

/-- The bounds of a recorded window are ones that AWIN takes (R218). DESIGN CHOICE (log 80): no rule names this check at a restore; a
record that breaks it is a nested fault 0x0B, as one that breaks the checks of R379. -/
def recWindow (r : List Byte) : Bool :=
  let w := recN r awinAt 4
  decide (bitsOf w 11 0 ≤ bitsOf w 27 16) && decide (bitsOf w 27 16 ≤ 3072)

/-- Every reserved field of a record is zero (R8, R377, R378); `team` says whether its team record is read. -/
def recReserved (r : List Byte) (team : Bool) : Bool :=
  let zero (off n : Nat) : Bool := recN r off n == 0
  let bits (off hi lo : Nat) : Bool := bitsOf (recN r off ((hi + 8) / 8)) hi lo == 0
  let every (n : Nat) (f : Nat → Bool) : Bool := (List.range n).all f
  bits 0x003 7 3 && bits 0x06C 31 6 && bits 0x338 15 11 && bits 0x338 63 52 && zero 0xFC5 3 && bits awinAt 15 12
    && bits awinAt 31 28 && zero 0xFEC 20
    && every 4 (fun j => bits (0x298 + 16 * j + 14) 7 1 && zero (0x298 + 16 * j + 15) 1)
    && every 4 (fun j => bits (0x2D8 + 24 * j + 16) 7 7 && bits (0x2D8 + 24 * j + 17) 7 1 && zero (0x2D8 + 24 * j + 18) 6)
    && every 16 (fun j => zero (0x640 + 32 * j + 2) 6 && zero (0x840 + 16 * j + 1) 1 && zero (0x840 + 16 * j + 4) 4)
    && every 8 (fun j => zero (0x940 + 64 * j + 46) 2 && zero (0x940 + 64 * j + 56) 8)
    && every 8 (fun j => bits (0xC40 + 64 * j + 41) 7 2 && zero (0xC40 + 64 * j + 42) 2)
    && every 16 (fun j => bits (0xE40 + 16 * j) 61 54)
    && (!team || every 16 fun j => bits (teamRecordAt + 8 * j) 63 40)

/-- The checks of R184 on a rebuilt command; a mode-3 move is exempt from those of the DDA's ownership and of its tap (R442). -/
def State.cmdOk (s : State) (c : MemCmd) : Bool :=
  let d := c.move
  let okAct (r : Act Unit) : Bool := match r with | .ok _ => true | .error _ => false
  let ownTap (st : State) : State := st.modCore st.me.place.core fun k =>
    { k with dda := { k.dda with owner := some (st.me.gid, st.me.under.length),
                                 taps := setAt Tap.reset k.dda.taps d.tap { Tap.reset with sink := 3 } } }
  (c.op == 0x0B || c.op == 0x0C || c.op == 0x14) && okAct (s.checkMove d)
    && okAct ((if d.mode = 3 then ownTap s else s).checkExtents d (c.op == 0x0B))

/-- The checks of R199 and R200 on a rebuilt stream. -/
def State.streamOk (s : State) (w : Stream) : Bool :=
  !w.bound || (if w.tap then w.space == 0 && w.size == 2 && decide (w.addr.toNat < 16) && w.left == 0 && w.stride == 0
    else decide (w.size ≤ 2) && decide (w.space ≤ 3) && w.addr.toNat % sizeBytes w.size == 0
      && (w.left ≤ 1 || w.stride.toNat % sizeBytes w.size == 0)
      && (w.space = 0 || w.left = 0
        || firstOutside (s.extentOf w.space) w.addr w.stride.toInt (sizeBytes w.size) w.left == none))

/-! ## The restore path (R308, R380) -/

/-- A window is reinstated with every row reading +0 (R219). -/
def State.clearWindow (s : State) (o : Occ) : State :=
  let a := accKey s.me.place.core o.awb 0
  let b := accKey s.me.place.core o.awl 0
  { s with mem := s.mem.clear a b, poison := s.poison.filter fun p => !(decide (a ≤ p) && decide (p < b)) }

/-- The record at a save area, 64 bytes at a time, each translated and none of them lost (R369, R396, R399). -/
def State.readSave (s : State) (base : DWord) : Act (List Byte) := do
  let pieces ← (List.range 64).mapM fun j => do
    let a := base + BitVec.ofNat 64 (64 * j)
    let k ← s.globalKey a .read {}
    s.checkLost a k 64
    .ok (s.mem.getBytes k 64)
  .ok pieces.flatten

/-- Whether the group in focus is group 0 of a team that is resumed: its area holds the team record (R377, R382). -/
def State.readsTeam (s : State) (whole : Bool) : Bool :=
  whole && s.me.bottom.task == 0 && s.me.bottom.group == 0
    && match s.team? s.me.bottom.team with | some t => t.resuming | none => false

/-- The occupant in focus enters trap level on the restore path from its control record: the slot just placed as a
`whole` with its adoption stack (R310, R380), or the one task that a helper adopts (R308); `task` is the id that a
task's restore reports. A record that cannot be read is a nested fault. DESIGN CHOICE (log 68): the line at %TVEC is entered without
the T check of R41, for which there is no instruction to charge. -/
def State.restoreEntry (s : State) (task : Nat) (whole : Bool) : State :=
  let save := if whole then s.me.bottom.saveptr else s.occ.saveptr
  match s.readSave save with
  | .error st =>
    let c : Cause := match st with
      | .trap code info addr => { code, eng := .k, info, addr }
      | _ => { code := 5, eng := .k, info := 0, addr := save }
    (s.mapOcc fun o => { o with trapLevel := true, wait := none }).nestTrap c
  | .ok r =>
    let n := s.me.under.length
    let tile := s.tile
    let places := cmdPlaces (if whole then s.me.occs else [s.occ])
    let o := recOcc r s.occ s.uid (places 0)
    let cap := recCapture r s.occ.width s.occ.capture
    let info : DWord := BitVec.ofNat 64 (task + recN r 0x060 1 * 2 ^ 32 + 2 ^ 63)
    let w := o.width
    let ranged (c : MemCmd) : MemCmd := { c with ranges := s.moveRanges c.op c.move (s.semRange c.space c.sem) }
    let o := { o with
      tcause := causeBits 0x1F .k false false, tinfo := info, taddr := 0, faultAt := o.epc.k, trapLevel := true, stepping := false,
      wait := none, cmds := o.cmds.map ranged,
      flow := { Flow.empty with mask := allLanes w, dbase := cap.flow.dspill, rbase := cap.flow.rspill },
      regs := { o.regs with s := cap.s, q := cap.q,
                            v := setAt [] o.regs.v 0 ((List.range w).map fun i => BitVec.ofNat 32 (4 * i)) } }
    let team := s.readsTeam whole
    let s := { s with uid := s.uid + 8 }.mapOcc fun _ => o
    let s : State :=
      if whole then { s with me := { s.me with
        alim := recN r 0x062 1, under := s.me.under.mapIdx fun j h => recFrame r tile (n - 1 - j) h s.uid (places (j + 1)) } }
      else s
    let s := if team then s.modTeam s.me.bottom.team (recTeam r) else s
    let s := if recWindow r then (s.occ :: if whole then s.me.under else []).foldl State.clearWindow s else s
    let ok := recReserved r team && recWindow r && s.occ.streams.all s.streamOk
      && (s.occ :: if whole then s.me.under else []).all fun o =>
        o.cmds.all ({ s with me := { s.me with occ := o } } : State).cmdOk
    let s := s.jump s.shared.tvec
    if ok then s else s.nestTrap { code := 0x0B, eng := .k, info := 0, addr := s.pcOf .k }

end Sys2Proof.Machine
end

