-- ==== Sys2Proof/Machine/Adopt.lean ====
section
/-! DEFINITION. A task takes a slot: started from its card, or adopted by a waiting helper (R298, R300, R308). -/

namespace Sys2Proof.Machine

/-- The record of a task as a team of one with its own register credit (R323). -/
def soloTeam (uid ctx core : Nat) : Team :=
  { uid, ctx, launch := 0, index := 0, cores := [core], unitBase := 0, unitSize := 0, live := 1, barriers := [],
    credit := 0, claims := [], abort := none, preempting := false, parked := false, resuming := false,
    relocate := false }

/-- An unstarted task gets an occupant of its own for a core: fresh registers, slices and credit. -/
def State.newTask (s : State) (t : TaskInfo) (card core : Nat) : Occ × State :=
  let o := taskOcc t card (s.cardAddr t.ctx t.task) (s.uid + 1) (s.dieAt (Config.coreDie core)).changes
  ({ o with team := s.uid }, { s with uid := s.uid + 2, teams := s.teams ++ [soloTeam s.uid t.ctx core] })

/-- The claim on a task: STATE becomes 3 and its queue entry goes (R298). -/
def State.claimTask (s : State) (ctx task : Nat) : Option State := (s.dequeue ctx task).setCard ctx task 0x14 1 3

/-- The wait that a trap with cause 0x1F ended is watched no more (R303, R305). -/
def State.unpark (s : State) : State :=
  match s.occ.parked with
  | some w => (if w.kind = 4 || w.kind = 5 then s.addWaiter w.kind w.obj false else s).mapOcc fun o => { o with parked := none }
  | none => s

/-- The hardware watch of group gid is given up. -/
def State.unwatch (s : State) (gid : Nat) : State := { s with watching := s.watching.filter fun w => w.gid != gid }

def State.dropParkedWait (s : State) (gid : Nat) : State := (s.onGroup gid State.unpark).unwatch gid

/-- Push an occupant onto the slot in focus (R308). -/
def State.push (s : State) (o : Occ) : State :=
  { s with me := { s.me with occ := o, under := s.me.occ :: s.me.under, progress := s.cyc, recorded := false } }

/-- The helper in focus adopts a task that passes `adoptable`. -/
def State.adopt (s : State) (task : Nat) : Option State := do
  let ctx := s.me.ctx
  let card ← s.card? ctx task
  let s ← s.endWait.claimTask ctx task
  let t := (s.taskInfo? ctx task).getD (TaskInfo.fresh ctx task)
  if fieldAt card 0x14 1 = 2 then
    let (o, s) := s.newTask t card s.me.place.core
    some (s.push o)
  else do
    let gid ← t.parkedIn
    let s := s.dropParkedWait gid
    let g ← s.group? gid
    let s : State := { s with others := s.others.filter fun h => h.gid != gid }
    let s : State := (s.modTask ctx task fun t => { t with parkedIn := none }).modTeam g.occ.team fun tm =>
      { tm with cores := [s.me.place.core], parked := false }
    some ((s.push { g.occ with saveptr := BitVec.ofNat 64 (fieldAt card 0x40 8) }).restoreEntry task false)

end Sys2Proof.Machine
end

