-- ==== Sys2Proof/Machine/Worklist.lean ====
section
/-! DEFINITION. Worklist sets: WLAPP, WLDONE, WLTAKE, append rights, drains and quiescence (R203 to R205, R326 to
R330). -/

namespace Sys2Proof.Machine

/-! ## A set in memory (R326) -/

/-- The key of bytes at an address of the set's space. -/
def State.setKey (s : State) (r : SetRef) (a : DWord) (n : Nat) : Option Nat :=
  if r.space = 0 then s.devKey r.ctx a.toNat .both
  else if a.toNat + n ≤ r.size then some (r.base + a.toNat)
  else none

/-- A field of a set; none where it cannot be reached or is lost (R399). -/
def State.wGet (s : State) (r : SetRef) (off n : Nat) : Option Nat :=
  (s.setKey r (r.off + BitVec.ofNat 64 off) n).bind fun k => if (s.lost k n).isSome then none else some (s.mem.getN k n)

def State.wPut (s : State) (r : SetRef) (off n x : Nat) : Option State :=
  (s.setKey r (r.off + BitVec.ofNat 64 off) n).map fun k => s.poke k (toBytes n x)

def listAt (k : Nat) : Nat := 64 + 64 * k

/-- Records held by list k: TAIL − HEAD. -/
def State.held (s : State) (r : SetRef) (k : Nat) : Option Nat := do
  let h ← s.wGet r (listAt k + 36) 4
  let t ← s.wGet r (listAt k + 40) 4
  some ((t + 2 ^ 32 - h) % 2 ^ 32)

/-- The set that a group names (R326): where its bytes lie and which die is its home. -/
def State.setRef (s : State) (space : Nat) (off : DWord) : SetRef :=
  let (base, size, home) := match space with
    | 2 => match s.clusAlloc with | some (d, c, b, n) => (clusKey d c b, n, d) | none => (0, 0, s.die)
    | 3 => let (b, n) := s.ctx.dieWin s.die; (dieKey s.die b, n, s.die)
    | _ =>
      let home := match s.devKey s.me.ctx off.toNat .read with
        | some k => (hbmDie k).getD s.die
        | none => s.die
      (0, 0, home)
  { ctx := s.me.ctx, obj := packObject space 0 off, space, off, home, base, size }

/-! ## Drains and quiescence (R328, R330) -/

/-- Launch a drain of list k; a template that no longer passes the checks of LAUNCH launches nothing. -/
def State.launchDrain (s : State) (r : SetRef) (k : Nat) : Option State := do
  let at' ← s.wGet r (listAt k + 24) 8
  match (s.devRead r.ctx at' 64).map fun x => s.checkRecord r.ctx (fun r' => [servingDie r.home r']) x with
  | none | some (.error _) => some s
  | some (.ok (rec', counter)) =>
    let flags ← s.wGet r (listAt k + 44) 1
    let drains ← s.wGet r 6 2
    let s ← s.wPut r (listAt k + 44) 1 (flags ||| 1)
    let s ← s.wPut r 6 2 (drains + 1)
    some (s.acceptLaunch r.ctx rec' counter .held [servingDie r.home rec'] 0 (some (r, k)))

/-- Whether list k launches a drain by R328. -/
def State.drainDue (s : State) (r : SetRef) (k : Nat) : Option Bool := do
  let flags ← s.wGet r (listAt k + 44) 1
  let n ← s.held r k
  let thresh ← s.wGet r (listAt k + 12) 4
  let age ← s.wGet r (listAt k + 16) 4
  let stamp ← s.wGet r (listAt k + 48) 8
  let rights ← s.wGet r 4 2
  let sflags ← s.wGet r 3 1
  some (flags % 2 == 0 && (decide (thresh ≤ n)
    || (age != 0 && n != 0 && decide (age ≤ (s.dieAt r.home).cyc - stamp))
    || (rights == 0 && sflags / 2 % 2 == 1 && n != 0)))

def State.testList (s : State) (r : SetRef) (k : Nat) : Option State := do
  if ← s.drainDue r k then s.launchDrain r k else some s

def State.testLists (s : State) (r : SetRef) : Nat → Option State
  | 0 => some s
  | n + 1 => do
    let t ← s.testLists r n
    t.testList r n

/-- Whether every one of the first n lists is empty. -/
def State.allEmpty (s : State) (r : SetRef) : Nat → Option Bool
  | 0 => some true
  | n + 1 => do
    let h ← s.held r n
    let rest ← s.allEmpty r n
    some (h == 0 && rest)

/-- Test a set for quiescence; declared once. -/
def State.testQuiet (s : State) (r : SetRef) : Option State := do
  let sflags ← s.wGet r 3 1
  let rights ← s.wGet r 4 2
  let drains ← s.wGet r 6 2
  let n ← s.wGet r 2 1
  if sflags % 4 = 2 && rights = 0 && drains = 0 && (← s.allEmpty r n) then do
    let counter ← s.wGet r 8 8
    let s ← s.wPut r 3 1 (sflags ||| 1)
    let k ← s.devKey r.ctx counter .both
    some (s.poke k (toBytes 8 ((s.mem.getN k 8 + 2 ^ 64 - 1) % 2 ^ 64)))
  else some s

/-- An append right ends (R327). -/
def State.endRight (s : State) (r : SetRef) : Option State := do
  let rights ← s.wGet r 4 2
  let n ← s.wGet r 2 1
  let s ← s.wPut r 4 2 (rights - 1)
  let s ← s.testLists r n
  s.testQuiet r

/-- Every right of the running occupant ends; a set that cannot be reached loses its count (log 17). -/
def State.endRights (s : State) : State :=
  s.occ.rights.foldl (fun s r => (s.endRight r).getD s) (s.mapOcc fun o => { o with rights := [] })

/-! ## The instructions -/

def setFault (r : SetRef) (lane : Nat) : Stop := .trap 0x1E (BitVec.ofNat 64 lane) r.obj

/-- The group's own access to 64 bytes of a set, with the faults of an access (R172) and of lost bytes (R399). -/
def State.reachSet (s : State) (r : SetRef) (off : Nat) : Act Unit :=
  [0, 16, 32, 48].forM fun i => do
    let a := r.off + BitVec.ofNat 64 (off + i)
    let k ← s.keyOf r.space 0 0 a 16 .both {}
    s.checkLost a k 16

/-- Lost bytes of 64 at an address, where they can be reached (R399). -/
def State.notLost (s : State) (a : DWord) (k : Option Nat) : Act Unit :=
  match k with | some k => s.checkLost a k 64 | none => .ok ()

/-- The set's footprint (R326): header, descriptors and every ring. -/
def State.setRanges (s : State) (r : SetRef) : List Range :=
  let n := (s.wGet r 2 1).getD 0
  s.range r.space 0 r.off.toNat (64 + 64 * n) true :: (List.range n).map fun k =>
    s.range r.space 0 ((s.wGet r (listAt k) 8).getD 0) (16 * (s.wGet r (listAt k + 8) 4).getD 0) true

/-- The set of WLAPP, WLTAKE and WLDONE, reached and ordered behind the group's commands. -/
def State.openSet (s : State) (f : VF) (x : MX) : Act SetRef := do
  let base := s.occ.getS (f.b.toNat % 64)
  let r := s.setRef x.sp.toNat (if x.sp = 0 then base else (base.setWidth 32).setWidth 64)
  s.reachSet r 0
  s.checkRanges (s.setRanges r)
  s.checkStreams .m (s.setRanges r)
  .ok r

/-- The check of a list's descriptor and template at the first append right (R327). -/
def State.listOk (s : State) (r : SetRef) (k : Nat) : Bool :=
  (do
    let b := listAt k
    let ring ← s.wGet r b 8
    let cap ← s.wGet r (b + 8) 4
    let thresh ← s.wGet r (b + 12) 4
    let age ← s.wGet r (b + 16) 4
    let r1 ← s.wGet r (b + 20) 4
    let template ← s.wGet r (b + 24) 8
    let producer ← s.wGet r (b + 32) 4
    let r2 ← s.wGet r (b + 44) 4
    let r3 ← s.wGet r (b + 56) 8
    let x ← s.devRead r.ctx template 64
    let _ ← s.setKey r (BitVec.ofNat 64 ring) 16
    let _ ← s.setKey r (BitVec.ofNat 64 (ring + 16 * (cap - 1))) 16
    some (ring % 16 == 0 && decide (1 ≤ cap) && decide (cap ≤ 2 ^ 20) && decide (1 ≤ thresh) && decide (thresh ≤ cap)
      && decide (age ≤ 65536) && r1 == 0 && template % 64 == 0 && decide (producer < (s.ctxAt r.ctx).ncard)
      && r2 / 2 == 0 && r3 == 0
      && match s.checkRecord r.ctx (fun r' => [servingDie r.home r']) x with | .ok _ => true | .error _ => false)).getD false

/-- The check of the whole set at the first append right: a header that is not at a multiple of 64 is what LAUNCH would refuse (R320),
and SFLAGS may hold QUIESCENT and ARMED only (R326). -/
def State.setOk (s : State) (r : SetRef) : Bool :=
  (do
    let n ← s.wGet r 2 1
    let sflags ← s.wGet r 3 1
    let counter ← s.wGet r 8 8
    let rs ← (List.range 6).mapM fun i => s.wGet r (16 + 8 * i) 8
    let _ ← s.devKey r.ctx counter .both
    some (r.off.toNat % 64 == 0 && sflags / 4 == 0 && decide (1 ≤ n) && decide (n ≤ 64) && counter % 8 == 0 && rs.all (· == 0)
      && (List.range n).all (s.listOk r))).getD false

/-- The first append right reads every descriptor and every template, which must not be lost (R327, R399). -/
def State.readWhole (s : State) (r : SetRef) : Act Unit :=
  (List.range ((s.wGet r 2 1).getD 0)).forM fun k => do
    let a := r.off + BitVec.ofNat 64 (listAt k)
    s.notLost a (s.setKey r a 64)
    let t := (s.wGet r (listAt k + 24) 8).getD 0
    s.notLost (BitVec.ofNat 64 t) (s.devKey r.ctx t .read)

/-- Take the append right of the group on a set (R327). -/
def State.takeRight (s : State) (r : SetRef) (lane : Nat) : Act State := do
  if s.occ.rights.any (·.obj == r.obj) then .ok s
  else
    let sflags ← s.reach r.space r.off (s.wGet r 3 1)
    if sflags / 2 % 2 = 0 then s.readWhole r
    require (sflags / 2 % 2 == 1 || s.setOk r) (setFault r lane)
    let rights ← s.reach r.space r.off (s.wGet r 4 2)
    let s ← s.reach r.space r.off (s.wPut r 3 1 (sflags ||| 2))
    let s ← s.reach r.space r.off (s.wPut r 4 2 (rights + 1))
    .ok (s.mapOcc fun o => { o with rights := o.rights ++ [r] })

/-- Append one record to list k (R328). -/
def State.appendRecord (s : State) (r : SetRef) (k : Nat) (bytes : List Byte) : Option State := do
  let n ← s.held r k
  let tail ← s.wGet r (listAt k + 40) 4
  let ring ← s.wGet r (listAt k) 8
  let cap ← s.wGet r (listAt k + 8) 4
  let s ← if n = 0 then s.wPut r (listAt k + 48) 8 (s.dieAt r.home).cyc else some s
  let key ← s.setKey r (BitVec.ofNat 64 (ring + 16 * (tail % cap))) 16
  let s ← ((s.poke key bytes).countWrite key 16).wPut r (listAt k + 40) 4 ((tail + 1) % 2 ^ 32)
  s.testList r k

/-- Whether list k is full. -/
def State.full (s : State) (r : SetRef) (k : Nat) : Option Bool := do
  let n ← s.held r k
  let cap ← s.wGet r (listAt k + 8) 4
  some (decide (cap ≤ n))

/-- A full list launches a drain if it is not already DRAINING (R328). -/
def State.drainFull (s : State) (r : SetRef) (k : Nat) : Option State := do
  let flags ← s.wGet r (listAt k + 44) 1
  if flags % 2 = 0 then s.launchDrain r k else some s

/-- The records of lanes, one after the other, each to the list that `list` gives it: one whose list is full stays. Answers the lanes
whose records have entered. -/
def State.appendAll (s : State) (r : SetRef) (list : Nat → Nat) (bytes : Nat → List Byte) : List Nat → Option (State × List Nat)
  | [] => some (s, [])
  | i :: lanes => do
    if ← s.full r (list i) then
      let t ← s.drainFull r (list i)
      t.appendAll r list bytes lanes
    else
      let t ← s.appendRecord r (list i) (bytes i)
      let (u, done) ← t.appendAll r list bytes lanes
      some (u, i :: done)

/-- Lanes whose records a WLAPP at the M engine's place has appended before it waited (log 33). -/
def State.entered (s : State) : List Nat :=
  match s.occ.appending with | some (pc, done) => if pc = s.pcOf .m then done else [] | none => []

/-- WLAPP (R203, R328): the records enter in an order that is free, each by itself; while the list of one is full the group waits. -/
def execWlapp (f : VF) (x : MX) (s : State) : Out :=
  let lanes := s.lanes .m f
  let r : Act (State × Option Stop) := do
    s.checkCount (.mForm 0x15 f (some x))
    if lanes = [] then .ok (s, none)
    else
      let s := s.drain
      let r ← s.openSet f x
      let first := lanes.headD 0
      require ((s.wGet r 0 2) == some 0xC0A1) (setFault r first)
      require (((s.wGet r 3 1).getD 0) % 2 == 0) (setFault r first)
      let n := (s.wGet r 2 1).getD 0
      match lanes.find? fun i => n ≤ (s.occ.getV f.a.toNat i).toNat with
      | some i => .error (setFault r i)
      | none =>
        let lists := lanes.map fun i => (s.occ.getV f.a.toNat i).toNat
        lists.forM fun k => s.reachSet r (listAt k)
        let t ← s.takeRight r first
        let before := s.entered
        let todo := lanes.filter fun i => !before.contains i
        let order := if todo.length = 1 then todo else shuffleFrom t.freeSeq todo
        let list (i : Nat) : Nat := (s.occ.getV f.a.toNat i).toNat
        let (u, done) ← t.reach r.space r.off (({ t with freeSeq := t.freeSeq + todo.length }).appendAll r list
          (fun i => toBytes 16 (s.occ.getData 4 f.d.toNat i)) order)
        match todo.find? fun i => !done.contains i with
        | none => .ok (u.mapOcc fun o => { o with appending := none }, none)
        | some i => .ok (u.mapOcc fun o => { o with appending := some (s.pcOf .m, before ++ done) }, some (.wait 11 r.obj 0 (list i)))
  match r with
  | .ok (t, none) => .next (t.advance .m 2)
  | .ok (t, some w) => t.stop .m 2 w
  | .error w => s.stop .m 2 w

/-- WLDONE (R205): a write of the set's header, which may lie in a stream of the group (R200). -/
def vWldone (f : VF) (x : Option MX) (s : State) : Out :=
  mOnce 0x17 f x s fun x s => do
    let base := s.occ.getS (f.b.toNat % 64)
    let r := s.setRef x.sp.toNat (if x.sp = 0 then base else (base.setWidth 32).setWidth 64)
    match s.occ.rights.find? fun q => q.obj == r.obj with
    | none => .ok s
    | some r =>
      let s := s.drain
      s.checkRanges (s.setRanges r)
      s.checkStreams .m (s.setRanges r)
      let s := s.mapOcc fun o => { o with rights := o.rights.filter fun q => q.obj != r.obj }
      s.reach r.space r.off (s.endRight r)
def execWldone (f : VF) (s : State) : Out := vWldone f none s
def execWldone64 (f : VF) (x : MX) (s : State) : Out := vWldone f (some x) s

/-- Give the lanes the records at HEAD, one each, in order; answers how many lanes are served. -/
def State.takeRecords (s : State) (r : SetRef) (k d : Nat) : List Nat → Option State
  | [] => some s
  | i :: lanes => do
    let head ← s.wGet r (listAt k + 36) 4
    let ring ← s.wGet r (listAt k) 8
    let cap ← s.wGet r (listAt k + 8) 4
    let key ← s.setKey r (BitVec.ofNat 64 (ring + 16 * (head % cap))) 16
    let s ← ((s.countRead key 16).mapOcc (·.putData 4 d i (s.mem.getN key 16))).wPut r (listAt k + 36) 4 ((head + 1) % 2 ^ 32)
    s.takeRecords r k d lanes

/-- Record j from HEAD on is not lost (R399). -/
def State.recordThere (s : State) (r : SetRef) (k j : Nat) : Act Unit :=
  let head := (s.wGet r (listAt k + 36) 4).getD 0
  let cap := (s.wGet r (listAt k + 8) 4).getD 0
  let a := BitVec.ofNat 64 ((s.wGet r (listAt k) 8).getD 0 + 16 * ((head + j) % cap))
  match s.setKey r a 16 with
  | some key => s.checkLost a key 16
  | none => .ok ()

/-- WLTAKE (R204, R329): records for the lowest lanes; of an empty list none at quiescence, else the producer is helped
or waited for. DESIGN CHOICE (log 72): a PRODUCER that is no card's id takes 0x1E, the fault that R204 names for WLTAKE (R297). -/
def execWltake (f : VF) (x : MX) (s : State) : Out :=
  let en := s.enabled .m f
  let lanes := s.lanes .m f
  let r : Act (State × Bool) := do
    s.checkCount (.mForm 0x16 f (some x))
    if lanes = [] then .ok (s, true)
    else
      let s := s.drain
      let r ← s.openSet f x
      let k := (s.occ.getS (f.a.toNat % 64)).toNat
      require (decide (k < (s.wGet r 2 1).getD 0)) (setFault r (lanes.headD 0))
      s.reachSet r (listAt k)
      let n ← s.reach r.space r.off (s.held r k)
      let c := x.c.toNat % 16
      if n ≠ 0 then
        let got := lanes.take n
        (List.range got.length).forM (s.recordThere r k)
        let t ← s.reach r.space r.off (s.takeRecords r k f.d.toNat got)
        let t := t.mapOcc (·.putP c en (laneMask got fun _ => true))
        let t ← if n ≤ lanes.length then t.reach r.space r.off (t.testQuiet r) else .ok t
        .ok (t, true)
      else if (s.wGet r 3 1).getD 0 % 2 = 1 then .ok (s.mapOcc (·.putP c en 0), true)
      else
        let p ← s.reach r.space r.off (s.wGet r (listAt k + 32) 4)
        require (decide (p < s.ctx.ncard)) (setFault r (lanes.headD 0))
        if p ≠ 0 && s.cardState s.me.ctx p = 2 && s.adoptable p then
          let t ← s.reach 0 (BitVec.ofNat 64 (s.cardAddr s.me.ctx p)) (s.adopt p)
          .ok (t, false)
        else
          let t := if p = 0 then s else s.inherit s.me.ctx p s.myPrio (s.tasks.length + 1)
          .ok (t.beginWait 10 r.obj p 0, false)
  match r with
  | .ok (t, true) => .next (t.advance .m 2)
  | .ok (t, false) => .next t
  | .error w => s.stop .m 2 w

/-! ## Device events of worklists (R328) -/

/-- The sets that the device knows of: those on which a right is held, and those with an active drain. -/
def State.knownSets (s : State) : List SetRef :=
  s.groups.flatMap (fun (g : Group) => g.occs.flatMap fun o => o.rights)
    ++ s.launches.filterMap fun (l : Launch) => l.drain.map fun p => p.1

/-- WORKLIST_AGE_EXPIRY (R328): a list whose oldest record has reached AGE launches a drain. -/
def execWorklistAgeExpiry (set list : Nat) (s : State) : Out :=
  match s.knownSets.find? fun r => r.obj.toNat == set with
  | none => .next s
  | some r =>
    device s (do
      let n ← s.wGet r 2 1
      if list < n then s.testList r list else some s)

/-- DRAIN_COMPLETE (R328): the last team of a drain launch has completed. -/
def execDrainComplete (launch : Nat) (s : State) : Out :=
  match s.launch? launch with
  | none => .next s
  | some l =>
    match l.drain with
    | none => .next s
    | some (r, k) =>
      if l.done < l.record.teams then .next s
      else device s (do
        let flags ← s.wGet r (listAt k + 44) 1
        let drains ← s.wGet r 6 2
        let s ← s.wPut r (listAt k + 44) 1 (flags / 2 * 2)
        let s ← s.wPut r 6 2 (drains - 1)
        let s : State := { s with launches := s.launches.filter fun l => l.uid != launch }
        let s ← s.testList r k
        s.testQuiet r)

end Sys2Proof.Machine
end

