-- ==== Sys2Proof/Machine/Ending.lean ====
section
/-! DEFINITION. How an occupant ends: what it releases (R317, R375), owned futures (R316), dependency counters (R318),
kills (R314), barriers and teams (R128, R322), aborts (R384 to R386), and EXIT. -/

namespace Sys2Proof.Machine

/-! ## What an occupant releases (R317, R375) -/

/-- The order word of a held token gets n + 1 (R282). -/
def State.storeOrder (s : State) (a : DWord) (n : Nat) : State :=
  match s.keyOf (packedSpace a) 0 0 (packedOff a) 4 .write {} with
  | .ok k => s.poke k (toBytes 4 (n + 1))
  | .error _ => s

/-- The token goes with its occupant, and an event says so (R283). -/
def State.releaseToken (s : State) (abort : Bool) : State :=
  match s.occ.token with
  | none => s
  | some (a, n) =>
    let s := (s.storeOrder a n).mapOcc fun o => { o with token := none }
    s.logEvent s.me.ctx { s.eventOf 1 with flags := abort.toNat, addr := a.toNat, detail := n }

/-- A DDA that the running occupant owns is free again, every domain stopped (R251). -/
def State.releaseDda (s : State) : State :=
  if s.ownsDda then s.modCore s.me.place.core fun c => { c with dda := c.dda.release } else s

/-- A power token goes back to the pool (R361). -/
def State.releasePower (s : State) : State :=
  if s.occ.power then { s with tokens := s.tokens + 1 }.mapOcc fun o => { o with power := false } else s

def State.releaseOcc (s : State) (abort : Bool) : State :=
  let s := s.drain.endWait.unpark.releaseDda.releaseToken abort
  (s.endRights.releasePower).mapOcc fun o => { o with streams := [], cmds := [], xcmds := [], awb := 0, awl := 0 }

/-! ## Owned futures (R314, R316) -/

/-- Fault one owned future, if its STATE is 0; none when it cannot be acted on: one that cannot be reached, whose bytes are lost (R399),
or whose STATE is above 2. -/
def State.faultFuture (s : State) (a : DWord) (task cause : Nat) : Option State := do
  let k ← s.objectKey? a
  let st := s.mem.getN (k + 14) 1
  if 2 < st || (s.lost k 16).isSome then none
  else if st = 0 then
    let flags := s.mem.getN (k + 15) 1
    some (((s.poke k (toBytes 8 (faultWord task cause))).poke (k + 14) (toBytes 1 2)).poke (k + 15)
      (toBytes 1 (if cause = 0 then flags / 2 * 2 + 1 else flags)))
  else some s

/-- The entries of an owned-future list from index i on, in order; each that cannot be acted on is logged. -/
def State.faultEntries (s : State) (list task cause : Nat) : Nat → Nat → State
  | 0, _ => s
  | n + 1, i =>
    let at' := list + 8 * i
    let t := match (s.devRead s.me.ctx at' 8).bind fun a => s.faultFuture (BitVec.ofNat 64 a) task cause with
      | some t => t
      | none => s.logEvent s.me.ctx { s.eventOf 7 with task, addr := at', detail := i }
    t.faultEntries list task cause n (i + 1)

/-- The owned futures of a task that ends with a cause, 0 for EXIT. -/
def State.faultFutures (s : State) (card task cause : Nat) : State :=
  let list := fieldAt card 0x30 8
  let n := fieldAt card 0x38 4
  if n = 0 then s
  else if (List.range n).all fun i => (s.devRead s.me.ctx (list + 8 * i) 8) == none then
    s.logEvent s.me.ctx { s.eventOf 7 with task, addr := list, detail := 0xFFFFFFFF }
  else s.faultEntries list task cause n 0

/-! ## Dependency counters (R298, R318) -/

/-- One dependency decrement; answers whether it underflows. On a card in a reserved STATE, which R298 does not list, it takes the same
fault and changes nothing. -/
def State.decrement (s : State) (n : Nat) : Option (State × Bool) :=
  let ctx := s.me.ctx
  if s.ctx.ncard ≤ n then some (s, true)
  else do
    let card ← s.card? ctx n
    let deps := fieldAt card 0x1C 4
    if deps = 0 || 7 ≤ fieldAt card 0x14 1 then some (s, true)
    else do
      let s ← s.setCard ctx n 0x1C 4 (deps - 1)
      if fieldAt card 0x14 1 = 1 && deps = 1 then do
        let s ← s.setCard ctx n 0x14 1 2
        some (s.makeReady ctx n card, false)
      else some (s, false)

/-- The successors from position p on; the first underflow is what the task is charged with. -/
def State.decrements (s : State) (card : Nat) : Nat → Nat → Option (Nat × Nat) → Option (State × Option (Nat × Nat))
  | 0, _, u => some (s, u)
  | fuel + 1, p, u =>
    let n := fieldAt card (0x20 + 4 * p) 4
    if n = 0 then s.decrements card fuel (p + 1) u
    else do
      let (t, under) ← s.decrement n
      t.decrements card fuel (p + 1) (if under then u.orElse fun _ => some (n, p) else u)

/-! ## Teams (R128, R322) -/

/-- Change every occupant of a team's groups. -/
def State.mapTeam (s : State) (team : Nat) (f : Occ → Occ) : State :=
  let g (o : Occ) : Occ := if o.team = team then f o else o
  let h (x : Group) : Group := { x with occ := g x.occ, under := x.under.map g }
  { s with me := h s.me, others := s.others.map h }

/-- The groups of a launch team that have not ended. -/
def State.teamGroups (s : State) (team : Nat) : List Group :=
  s.groups.filter fun (g : Group) => g.bottom.team == team && g.bottom.task == 0

def Team.barrier (t : Team) (id : Nat) : Barrier :=
  t.barriers.getD id { arrived := 0, expected := 0, opened := false, phase := false }

def Team.setBarrier (t : Team) (id : Nat) (b : Barrier) : Team :=
  { t with barriers := setAt { arrived := 0, expected := 0, opened := false, phase := false } t.barriers id b }

def bitCount (w : Word) : Nat := ((List.range 32).filter fun i => w.getLsbD i).length

/-- A phase is satisfied (R128). -/
def State.satisfied (s : State) (team : Nat) (b : Barrier) : Bool :=
  b.opened && (if b.expected = 0 then (s.teamGroups team).all fun (g : Group) => b.arrived.getLsbD g.bottom.group
    else decide (b.expected ≤ bitCount b.arrived))

/-- A satisfied phase completes: the phase bit flips, and every group that arrived waits no more. -/
def State.tryBarrier (s : State) (team id : Nat) : State :=
  match s.team? team with
  | none => s
  | some t =>
    let b := t.barrier id
    if s.satisfied team b then
      (s.modTeam team fun t => t.setBarrier id { arrived := 0, expected := 0, opened := false, phase := !b.phase }).mapTeam
        team fun o => match o.barWait with
          | some (i, ph, _) => if i = id && b.arrived.getLsbD o.group then
              { o with barWait := some (i, ph, true), wait := o.wait.filter fun w => w.kind != 1 } else o
          | none => o
    else s

def State.tryBarriers (s : State) (team : Nat) : State :=
  (List.range 16).foldl (fun (s : State) id =>
    match s.team? team with
    | some t => if (t.barrier id).opened && (t.barrier id).expected == 0 then s.tryBarrier team id else s
    | none => s) s

/-- A team completes (R322), once: its launch's counter loses 1, where it can be reached (log 17). -/
def State.completeTeam (s : State) (t : Team) : State :=
  if t.ended then s
  else
    let s := s.modTeam t.uid fun t => { t with ended := true }
    match s.launch? t.launch with
    | none => s
    | some l =>
      let s := if l.record.counter = 0 then s
        else match s.devKey l.ctx l.record.counter.toNat .both with
          | some k => s.poke k (toBytes 8 ((s.mem.getN k 8 + 2 ^ 64 - 1) % 2 ^ 64))
          | none => s
      s.modLaunch l.uid fun l => { l with done := l.done + 1 }

/-- Teams of a fault domain whose last group has ended give up their allocations (R386), and a launch that is no drain goes with its
last team. -/
def State.freeTeams (s : State) (d : List Team) : State :=
  { s with
    teams := s.teams.filter fun u => !(d.any fun v => v.uid == u.uid)
    launches := s.launches.filter fun l =>
      !(d.any fun v => v.launch == l.uid) || l.drain.isSome || decide (l.done < l.record.teams) }

/-- The teams that share a team's fault domain: itself, or every team of its co-scheduled launch (R385). -/
def State.domain (s : State) (t : Team) : List Team :=
  match s.launch? t.launch with
  | some l => if l.record.cosched then s.teams.filter fun u => u.launch == t.launch else [t]
  | none => [t]

/-- The abort event (R385, R387). -/
def State.logAbort (s : State) (t : Team) (a : Abort) : State :=
  let id := match s.launch? t.launch with | some l => l.id.toNat | none => 0
  s.logEvent t.ctx { kind := if a.code = 0x14 then 3 else 2, cause := a.cause, die := Config.coreDie a.core,
                     core := Config.coreIndex a.core, group := a.group, launch := id, task := a.task, team := a.team.toNat, addr := a.pc }

/-- The last group of a team may have ended: the team completes; in an abort, with the last group of its fault domain (R385). With that
group the allocations of the domain are free (R386). -/
def State.endTeam (s : State) (team : Nat) : State :=
  match s.team? team with
  | none => s
  | some t =>
    let d := s.domain t
    let last := d.all fun u => u.live = 0
    if t.live ≠ 0 then s
    else match t.abort, last with
      | none, false => s.completeTeam t
      | none, true => (s.completeTeam t).freeTeams d
      | some _, false => s
      | some a, true => (d.foldl (fun (s : State) u => s.completeTeam u) (s.logAbort t a)).freeTeams d

/-- The slot in focus becomes free (R138). -/
def State.vacate (s : State) : State := { s with me := Group.vacant }

/-- The bottom occupant of a launch team in focus ends (R317). -/
def State.groupEnds (s : State) : State :=
  let team := s.occ.team
  let n := s.occ.group
  let area := s.occ.area
  let s := s.modCtx s.me.ctx fun c => { c with areas := c.areas.filter fun a => some a != area }
  let s := s.vacate.modTeam team fun t => { t with live := t.live - 1, claims := t.claims.filter (· != n) }
  (s.tryBarriers team).endTeam team

/-! ## The end of a task (R298, R300, R317) -/

/-- The task's record and what the device carries for it go. -/
def State.forgetTask (s : State) : State :=
  let ctx := s.me.ctx
  let task := s.occ.task
  let team := s.occ.team
  { s with tasks := s.tasks.filter fun t => !(t.ctx == ctx && t.task == task),
           teams := s.teams.filter fun t => t.uid != team }

/-- The causes of an abort (R385). -/
def Cause.ofAbort (c : Cause) : Bool := c.code == 0x13 || c.code == 0x14

/-- Causes that are asked of the group, whoever runs in its slot: an abort, a pre-emption, an all-stop (R382, R385, R389). -/
def Cause.ofGroup (c : Cause) : Bool := c.ofAbort || c.code == 0x15 || (c.code == 0x16 && c.info.getLsbD 63)

/-- The running occupant leaves its slot: an adopted one pops its frame (R308), a bottom one frees the slot. What is asked of the group
is still to come. -/
def State.leaveSlot (s : State) : State :=
  match s.me.under with
  | o :: rest =>
    let asked := s.occ.causes.filter fun c => c.ofGroup && !o.causes.any (·.code == c.code)
    { s with me := { s.me with occ := { o with wait := none, causes := o.causes ++ asked }, under := rest, progress := s.cyc, recorded := false } }
  | [] => if s.occ.task ≠ 0 then s.vacate else s.groupEnds

/-- FAULT of a card (R296). -/
def faultRecord (code : Nat) (e lane : Nat) (addr : DWord) : Nat :=
  code + e * 2 ^ 6 + (if code = 1 || code = 2 then lane % 8 else 0) * 2 ^ 9 + addr.toNat % 2 ^ 48 * 2 ^ 16

/-- The running occupant, a task, is killed (R314): its card, its owned futures. A card that cannot be reached stays as it is (log 17). -/
def State.killTask (s : State) (code : Nat) (record : Nat) : State :=
  let ctx := s.me.ctx
  let task := s.occ.task
  let card := (s.card? ctx task).getD 0
  let s := (s.setCard ctx task 0x48 8 record).getD s
  let s := (s.setCard ctx task 0x14 1 6).getD s
  (s.faultFutures card task code).forgetTask

/-! ## Aborts (R384 to R386) -/

/-- %TINFO of causes 0x13 and 0x14 (R384). -/
def Abort.info (a : Abort) : DWord :=
  BitVec.ofNat 64 (a.cause % 64 + a.group % 32 * 2 ^ 8 + a.team.toNat % 2 ^ 48 * 2 ^ 16)

/-- The occupant in focus, running or parked, ends without running in an abort; tasks are killed with its cause. -/
def State.dropOcc (s : State) (code : Nat) : State :=
  let s := s.releaseOcc true
  let s := if s.occ.task ≠ 0 && !s.occ.exited then s.killTask code (faultRecord code 0 0 s.occ.pcs.k)
    else if s.occ.task ≠ 0 then s.forgetTask else s
  s.leaveSlot

/-- End the top n occupants of the group in focus, from the top down. -/
def State.dropOccs (s : State) (code : Nat) : Nat → State
  | 0 => s
  | n + 1 => (s.dropOcc code).dropOccs code n

/-- With group gid in focus; nothing when it is gone. -/
def State.onFocus (s : State) (gid : Nat) (f : State → State) : State :=
  match s.group? gid with
  | none => s
  | some _ => (f (s.focus gid)).focus s.me.gid

/-- What an abort does to one group of its domain. -/
def State.abortGroup (s : State) (a : Abort) (gid : Nat) : State :=
  s.onFocus gid fun s =>
    match s.me.run with
    | .running => s.addCause { code := a.code, eng := .k, info := a.info, addr := 0 }
    | .vacant => s
    | _ => (s.dropParkedWait gid).dropOccs a.code (s.me.under.length + 1)

/-- The abort that the occupant in focus starts with a cause at an address. -/
def State.abortBy (s : State) (cause pc : Nat) : Abort :=
  { cause, group := s.occ.group, team := s.occ.teamIdx, pc, code := 0x13, core := s.me.place.core, task := s.occ.task }

/-- Start an abort of a team, or of every team of its co-scheduled launch (R385). `self` ends by itself. -/
def State.startAbort (s : State) (team : Nat) (self : Nat) (by' : Abort) : State :=
  match s.team? team with
  | none => s
  | some t =>
    if t.abort.isSome then s
    else
      let d := s.domain t
      let cosched := match s.launch? t.launch with | some l => l.record.cosched | none => false
      let a : Abort := { by' with code := if cosched then 0x14 else 0x13 }
      let s := d.foldl (fun (s : State) u => s.modTeam u.uid fun t => { t with abort := some a }) s
      let gids := (d.flatMap fun u => s.teamGroups u.uid).map fun (g : Group) => g.gid
      (gids.filter (· != self)).foldl (fun (s : State) gid => s.abortGroup a gid) s

/-! ## The abnormal end (R314, R374, R375) -/

/-- The launch team of the slot's bottom occupant: its own, or that under whose launch a bottom task runs (R13, R314). -/
def State.bottomTeam (s : State) : Nat :=
  let b := s.me.bottom
  if b.task = 0 then b.team else ((s.taskInfo? s.me.ctx b.task).map fun (t : TaskInfo) => t.teamUid).getD 0

/-- The occupant in focus ends at trap level as PARK fn 2 ends it: it releases what EXIT releases; a task is killed, and
under FMODE 1 its team is aborted; a group of a launch team aborts its team, unless an abort ends it. -/
def State.endAbnormally (s : State) : State :=
  let o := s.occ
  let code := o.tcause.toNat % 64
  let aborted := code == 0x13 || code == 0x14
  let a := s.abortBy code o.faultAt.toNat
  let s := s.releaseOcc aborted
  if o.task = 0 then
    if s.me.under.isEmpty && !aborted then
      (s.startAbort o.team s.me.gid a).leaveSlot
    else s.leaveSlot
  else
    let card := (s.card? s.me.ctx o.task).getD 0
    let team := s.bottomTeam
    let s := if o.exited then s.forgetTask
      else s.killTask code (faultRecord code (o.tcause.toNat / 64 % 8) o.tinfo.toNat o.faultAt)
    let s := s.leaveSlot
    if fieldAt card 0x17 1 / 4 % 2 = 1 && !aborted then
      s.startAbort team 0 a
    else s

/-! ## EXIT (R317, R318) -/

/-- Commands of the occupant are complete, or it waits (kind 25). -/
def State.commandsDone (s : State) : Act Unit :=
  require (s.occ.cmds == [] && s.occ.xcmds == []) (.wait 25 0 0 0)

/-- EXIT of the occupant in focus. A task that underflows a dependency counter is still there to take 0x0C; the answer
is that trap. -/
def State.exit (s : State) : Act (State × Option (Nat × Nat)) := do
  s.commandsDone
  let ctx := s.me.ctx
  let task := s.occ.task
  let s := s.releaseOcc false
  if task = 0 then .ok (s.leaveSlot, none)
  else
    let at' := BitVec.ofNat 64 (s.cardAddr ctx task)
    let card ← s.reach 0 at' (s.card? ctx task)
    let s := s.faultFutures card task 0
    let s ← s.reach 0 at' (s.setCard ctx task 0x14 1 5)
    let (s, u) ← s.reach 0 (BitVec.ofNat 64 (s.cardAddr ctx 0)) (s.decrements card 4 0 none)
    match u with
    | none => .ok (s.forgetTask.leaveSlot, none)
    | some w => .ok (s, some w)

/-- The underflow of R318: STATE 6 and FAULT with the address of the EXIT. -/
def State.underflow (s : State) (n : Nat) (p : Nat) : Act State := do
  let ctx := s.me.ctx
  let task := s.occ.task
  let pc := s.pcOf .k
  let at' := BitVec.ofNat 64 (s.cardAddr ctx task)
  let s ← s.reach 0 at' (s.setCard ctx task 0x48 8 (faultRecord 0x0C 0 0 pc))
  let s ← s.reach 0 at' (s.setCard ctx task 0x14 1 6)
  let info := BitVec.ofNat 64 (n + p * 2 ^ 32 + (if s.ctx.ncard ≤ n then 2 ^ 34 else 0))
  .ok ((s.mapOcc fun o => { o with exited := true }).trap { code := 0x0C, eng := .k, info, addr := pc } pc)

/-- EXIT. -/
def execExit (g : KG) (s : State) : Out :=
  run .k 1 s (if s.guard g then do
      let (t, u) ← s.exit
      match u with
      | none => .ok t
      | some (n, p) => t.underflow n p
    else .ok (s.advance .k 1))

end Sys2Proof.Machine
end

