-- ==== Sys2Proof/Machine/Matrix.lean ====
section
/-! DEFINITION. The matrix engine and the accumulator store (R207 to R232), and leave for its commands (R359, R360). -/

namespace Sys2Proof.Machine

/-! ## Formats (R208, R211, R212) -/

/-- Bytes of an operand or output row by format code. -/
def rowSize (code : Nat) : Nat :=
  match code with
  | 0 | 1 => 56
  | 2 | 3 => 88
  | 4 | 5 => 128
  | 6 => 256
  | 7 => 512
  | _ => 64

/-- The block format of QMX for a matrix format code 0 to 3. -/
def blockCode (code : Nat) : Nat := match code with | 0 => 0 | 1 => 3 | 2 => 1 | _ => 2

/-- The scalar format of a code 4 to 9. -/
def scalarFmt (code : Nat) : Fmt :=
  match code with | 4 => bf16 | 5 => f16 | 6 => f32 | 7 => f64 | 8 => e4m3 | _ => e5m2

def unsetEntry : Word := 0x3FFF
def entryAF (e : Word) : Nat := bitsOf e.toNat 3 0
def entryBF (e : Word) : Nat := bitsOf e.toNat 7 4
def entryOF (e : Word) : Nat := bitsOf e.toNat 11 8
def entryBM (e : Word) : Nat := bitsOf e.toNat 13 12
def entryT (e : Word) : Nat := bitsOf e.toNat 16 14

/-- Whether the fields of an entry are consistent (R212). -/
def entryOk (e : Word) : Bool :=
  let a := entryAF e; let b := entryBF e; let f := entryOF e; let m := entryBM e; let t := entryT e
  decide (a ≤ 7) && decide (b ≤ 7) && decide (f ≤ 9) && decide (m ≤ 2)
    && ((decide (a ≤ 3) && decide (b ≤ 3)) || (a == b && decide (4 ≤ a)))
    && (f != 7 || a == 7) && (a != 7 || f == 6 || f == 7)
    && (m == 0 || decide (a ≤ 3) || decide (b ≤ 3) || decide (f ≤ 3))
    && (decide (1 ≤ t) == (decide (f ≤ 3) && m == 0))

def Occ.fmt (o : Occ) (i : Nat) : Word := o.fmts.getD i unsetEntry

/-- The bitmap of fixed blocks of 16 or 32 (R212). -/
def fixedBitmap (bm : Nat) : Nat := if bm = 1 then 0x0001000100010001 else 0x0000000100000001

/-- The 64 exact values of an operand row, and its format errors. -/
def operandRow (code bm row : Nat) : List Num × Nat :=
  if code ≤ 3 then
    let n := blockBits (blockCode code)
    let row := if bm = 0 then row
      else row % 2 ^ (64 * n) + fixedBitmap bm * 2 ^ (64 * n) + row / 2 ^ (64 * n + 64) * 2 ^ (64 * n + 64)
    decodeGranule (blockCode code) row
  else
    let F := scalarFmt code
    ((List.range 64).map fun i => F.decode (row / 2 ^ (F.width * i) % 2 ^ F.width), 0)

/-- Pieces of n elements. -/
def piecesOf {α : Type} (n : Nat) : Nat → List α → List (List α)
  | 0, _ => []
  | fuel + 1, l => if l.isEmpty then [] else l.take n :: piecesOf n fuel (l.drop n)

/-- A row of 64 values in an output format as one number, and its saturations (R226). -/
def convertRow (code bm t : Nat) (xs : List Num) : Nat × Nat :=
  if code ≤ 3 then
    if bm = 0 then quantise (blockCode code) 0 t xs
    else quantiseBlocks (blockCode code) 0 (piecesOf (if bm = 1 then 16 else 32) 4 xs)
  else
    let F := scalarFmt code
    let rs := xs.map (F.conv 0 false)
    (packBits F.width (rs.map (·.1)), rs.foldl (fun a r => a + r.2) 0)

/-! ## The nest (R214 to R216) -/

/-- A step's operands: offsets and spaces of A and B, first row, M, format index. -/
structure Base where
  aoff : Nat
  asp : Nat
  boff : Nat
  bsp : Nat
  crow : Nat
  mc : Nat
  fix : Nat
  deriving DecidableEq, Repr

def Base.ofWords (w0 w1 : DWord) : Base :=
  let a := w0.toNat; let b := w1.toNat
  { aoff := bitsOf a 31 0, asp := bitsOf a 34 32, boff := bitsOf b 31 0, bsp := bitsOf b 34 32, crow := bitsOf b 47 36,
    mc := bitsOf b 49 48, fix := bitsOf b 53 50 }

/-- Reserved bits of the base entry. -/
def baseReserved (w0 w1 : DWord) : Bool :=
  bitsOf w0.toNat 63 35 != 0 || bitsOf w1.toNat 35 35 != 0 || bitsOf w1.toNat 63 54 != 0

structure Level where
  trip : Nat
  ainc : Int
  binc : Int
  cinc : Int
  fmtidx : Bool
  ovw : Bool
  deriving DecidableEq, Repr

def signedField (x hi lo : Nat) : Int := sextNat (bitsOf x hi lo) (hi - lo + 1)

def Level.ofWords (w0 w1 : DWord) : Level :=
  let a := w0.toNat; let b := w1.toNat
  { trip := bitsOf a 15 0, ainc := signedField a 39 16, binc := signedField a 63 40, cinc := signedField b 15 0,
    fmtidx := b.testBit 16, ovw := b.testBit 17 }

def tableWord (t : List DWord) (level word : Nat) : DWord := t.getD (2 * level + word) 0
def tableBase (t : List DWord) : Base := Base.ofWords (tableWord t 0 0) (tableWord t 0 1)
def tableLevels (t : List DWord) : List Level :=
  [1, 2, 3, 4, 5, 6].map fun l => Level.ofWords (tableWord t l 0) (tableWord t l 1)

def Level.count (l : Level) : Nat := max l.trip 1
def stepsOf (ls : List Level) : Nat := ls.foldl (fun n l => n * l.count) 1
def rowsOf (mc : Nat) : Nat := match mc with | 0 => 64 | 1 => 32 | _ => 16

/-- The counters of step s, level 1 fastest. -/
def counters : Nat → List Level → List Nat
  | _, [] => []
  | s, l :: ls => s % l.count :: counters (s / l.count) ls

/-- A base value plus the counters times an increment. -/
def along (base : Int) (inc : Level → Int) (ls : List Level) (cs : List Nat) : Int :=
  (ls.zip cs).foldl (fun (a : Int) p => a + (p.2 : Int) * inc p.1) base

/-- The format index of a step. -/
def stepIndex (b : Base) (ls : List Level) (cs : List Nat) : Nat :=
  match (ls.zip cs).find? fun p => p.1.fmtidx with
  | some p => (b.fix + p.2) % 16
  | none => b.fix

def stepOvw (ls : List Level) (cs : List Nat) : Bool :=
  ls.any (·.ovw) && (ls.zip cs).all fun p => !p.1.ovw || p.2 == 0

/-- The format indices that a nest can reach. -/
def reachable (b : Base) (ls : List Level) : List Nat :=
  match ls.find? (·.fmtidx) with
  | some l => (List.range (min 16 l.count)).map fun c => (b.fix + c) % 16
  | none => [b.fix]

/-- Smallest and largest value over the corners of the counter space. -/
def corners (base : Int) (inc : Level → Int) (ls : List Level) : Int × Int :=
  ls.foldl (fun (p : Int × Int) l =>
    let d := ((l.count : Int) - 1) * inc l
    (p.1 + min 0 d, p.2 + max 0 d)) (base, base)

/-- What a nest or a step accesses: the extents of A, B and the accumulator rows. -/
structure Extents where
  a : Int × Int
  b : Int × Int
  c : Int × Int
  deriving DecidableEq, Repr

def nestExtents (b : Base) (ls : List Level) (fmts : List Word) : Extents :=
  let es := (reachable b ls).map fun i => fmts.getD i unsetEntry
  let m := rowsOf b.mc
  let sa := (es.map fun e => rowSize (entryAF e)).foldl max 0
  let sb := (es.map fun e => rowSize (entryBF e)).foldl max 0
  let rows := if es.any fun e => entryAF e == 7 then 2 * m else m
  let a := corners b.aoff (·.ainc) ls
  let bb := corners b.boff (·.binc) ls
  let c := corners b.crow (·.cinc) ls
  { a := (a.1, a.2 + (m * sa : Nat)), b := (bb.1, bb.2 + (64 * sb : Nat)), c := (c.1, c.2 + (rows : Nat)) }

/-- The first value that is not a multiple of 8, or for FP64 of 2, in the order of R216. -/
def misaligned (b : Base) (ls : List Level) (fp64 : Bool) : Option Int :=
  (([(b.aoff : Int), (b.boff : Int)] ++ ls.map (·.ainc) ++ ls.map (·.binc)).find? fun x => x % 8 != 0).orElse fun _ =>
    if fp64 then ((b.crow : Int) :: ls.map (·.cinc)).find? fun x => x % 2 != 0 else none

/-- An extent in UNIT or CLUS: the fault 0x07 with its lowest byte outside. -/
def State.checkExtent (s : State) (space : Nat) (e : Int × Int) (i : MemInfo) : Act Unit :=
  let size : Int := s.extentOf space
  require (decide (0 ≤ e.1) && decide (e.2 ≤ size)) (.trap 7 i.bits (BitVec.ofInt 64 (if e.1 < 0 then e.1 else max e.1 size)))

/-- The checks of R216. -/
def State.checkNest (s : State) (b : Base) (ls : List Level) (fmts : List Word) : Act Unit := do
  let unused (l : Level) : Bool := l.trip == 0 && (l.ainc != 0 || l.binc != 0 || l.cinc != 0 || l.fmtidx || l.ovw)
  require (!(ls.any unused || decide (1 < (ls.filter (·.fmtidx)).length) || decide (2 ^ 32 ≤ stepsOf ls) || b.mc == 3
    || (b.asp != 1 && b.asp != 2) || (b.bsp != 1 && b.bsp != 2))) (s.faultAt .x 0x0B)
  let idx := reachable b ls
  match idx.find? fun i => 8 ≤ entryAF (fmts.getD i unsetEntry) with
  | some i => .error (s.faultAt .x 0x1D (BitVec.ofNat 64 i))
  | none =>
    match misaligned b ls (idx.any fun i => entryAF (fmts.getD i unsetEntry) == 7) with
    | some v => .error (.trap 4 0 (BitVec.ofInt 64 v))
    | none =>
      let e := nestExtents b ls fmts
      s.checkExtent b.asp e.a {}
      s.checkExtent b.bsp e.b {}
      require (decide ((s.occ.awb : Int) ≤ e.c.1) && decide (e.c.2 ≤ (s.occ.awl : Int))) (s.faultAt .x 8)

/-! ## The X queue (R217, R230) -/

/-- Accumulator rows as a range of the checker: a space of their own. -/
def rowRange (lo hi : Nat) : Range := { space := 8, core := 0, lo, hi, wr := true }

def State.nestRanges (s : State) (b : Base) (ls : List Level) (fmts : List Word) : List Range :=
  let e := nestExtents b ls fmts
  s.spanRanges b.asp 0 e.a.1.toNat e.a.2.toNat false ++ s.spanRanges b.bsp 0 e.b.1.toNat e.b.2.toNat false
    ++ [rowRange e.c.1.toNat e.c.2.toNat]

/-- An X instruction, ready only with a token while %POWCOMPAT is 1 (R361). -/
def xDo (g : KG) (n : Nat) (s : State) (f : State → Act State) : Out :=
  finish .x n s (do
    require (!(s.shared.powcompat % 2 == 1) || s.occ.power) (.wait 15 0 0 1)
    if s.guard g then f s else .ok s)

/-- The X queue accepts a command when it and the footprint checker have room (R182, R230) and no memory command of the
group that it overlaps is running. -/
def State.acceptX (s : State) (op : Nat) (args : List DWord) (table : List DWord) (rs : List Range) : Act State := do
  require (decide (s.occ.xcmds.length < 8)) (.wait 22 0 0 0)
  require (!(rs.any fun r => (s.occ.cmds.flatMap (·.ranges)).any r.overlaps)) (.wait 21 0 0 0)
  require (rs.isEmpty || decide (s.checkerUsed < 64)) (.wait 21 0 0 0)
  s.checkStreams .x rs
  let c : XCmd := { uid := s.uid, op, args, fmts := (List.range 16).map s.occ.fmt, table, granted := false, started := false,
                    next := 0, sem := none, ranges := rs, addr := s.pcOf .x }
  .ok ({ s.drain with uid := s.uid + 1 }.mapOcc fun o => { o with xcmds := o.xcmds ++ [c] })

/-! ## MCFG and MFMT (R212, R221) -/

/-- Reserved bits of a table entry. -/
def entryReserved (level : Nat) (w0 w1 : DWord) : Bool :=
  if level = 0 then baseReserved w0 w1 else bitsOf w1.toNat 63 18 != 0

def putTable (t : List DWord) (level : Nat) (w0 w1 : DWord) : List DWord :=
  setAt 0 (setAt 0 t (2 * level) w0) (2 * level + 1) w1

def execMcfg (g : KG) (level : BitVec 3) (a b : BitVec 6) (s : State) : Out :=
  xDo g 1 s fun s => do
    require (!entryReserved level.toNat (s.getS a) (s.getS b)) (s.faultAt .x 0x0B)
    .ok (s.mapOcc fun o => { o with shadow := putTable o.shadow level.toNat (s.getS a) (s.getS b) })

def execMcfgAct (g : KG) (level : BitVec 3) (a b : BitVec 6) (s : State) : Out :=
  xDo g 1 s fun s => do
    require s.occ.trapLevel (s.faultAt .x 3)
    require (!entryReserved level.toNat (s.getS a) (s.getS b)) (s.faultAt .x 0x0B)
    .ok (s.mapOcc fun o => { o with active := putTable o.active level.toNat (s.getS a) (s.getS b) })

/-- MFMT (R212, R221). DESIGN CHOICE (log 67): ACT = 1 at user level takes 0x03 before the entry is checked (0x1D), as a check of the
right to execute the form. -/
def execMfmt (g : KG) (index : BitVec 4) (a : BitVec 6) (s : State) : Out :=
  xDo g 1 s fun s => do
    let x := s.getS a
    let e : Word := x.extractLsb' 0 32
    require (bitsOf x.toNat 63 33 == 0 && bitsOf x.toNat 31 17 == 0) (s.faultAt .x 0x0B)
    require (!x.getLsbD 32 || s.occ.trapLevel) (s.faultAt .x 3)
    require (entryOk e) (s.faultAt .x 0x1D (index.setWidth 64))
    .ok (s.mapOcc fun o =>
      if x.getLsbD 32 then
        { o with snapshot := some (setAt unsetEntry (o.snapshot.getD []) index.toNat e) }
      else { o with fmts := setAt unsetEntry o.fmts index.toNat e })

/-! ## Windows (R223, R224) -/

/-- Rows [lo, hi) become +0, and lost data in them is written over (R399). -/
def State.zeroRows (s : State) (lo hi : Nat) : State :=
  let a := accKey s.me.place.core lo 0
  let b := accKey s.me.place.core hi 0
  { s with mem := s.mem.clear a b, poison := s.poison.filter fun p => !(decide (a ≤ p) && decide (p < b)) }

def execAwin (g : KG) (a : BitVec 6) (s : State) : Out :=
  xDo g 1 s fun s => do
    let x := (s.getS a).toNat
    let lo := bitsOf x 11 0
    let hi := bitsOf x 27 16
    require (bitsOf x 15 12 == 0 && bitsOf x 63 28 == 0 && decide (lo ≤ hi) && decide (hi ≤ 3072)) (s.faultAt .x 0x0B)
    require (s.occ.xcmds == []) (.wait 23 0 0 0)
    require (!s.overlapsWindow lo hi) (s.faultAt .x 8)
    let b := s.occ.awb
    let l := s.occ.awl
    let t := (s.zeroRows lo (min hi (max lo b))).zeroRows (max lo (min hi l)) hi
    .ok (t.mapOcc fun o => { o with awb := lo, awl := hi })

/-- row0 and count of ACLR, ALD and AST. -/
def rowsArg (x : DWord) : Nat × Nat := (bitsOf x.toNat 11 0, bitsOf x.toNat 23 12)

def State.checkRows (s : State) (row n : Nat) : Act Unit :=
  require (decide (s.occ.awb ≤ row) && decide (row + n ≤ s.occ.awl)) (s.faultAt .x 8)

def execAclr (g : KG) (a : BitVec 6) (s : State) : Out :=
  xDo g 1 s fun s => do
    let x := s.getS a
    let (row, n) := rowsArg x
    require (bitsOf x.toNat 63 24 == 0 && n != 0) (s.faultAt .x 0x0B)
    s.checkRows row n
    s.acceptX 5 [x] [] [rowRange row (row + n)]

/-! ## MNEST and MMA (R222) -/

def execMnest (g : KG) (s : State) : Out :=
  xDo g 1 s fun s => do
    let t := (List.range 14).map fun i => s.occ.shadow.getD i 0
    let fmts := (List.range 16).map s.occ.fmt
    s.checkNest (tableBase t) (tableLevels t) fmts
    s.acceptX 1 [] t (s.nestRanges (tableBase t) (tableLevels t) fmts)

def vMma (g : KG) (a b : BitVec 6) (ovw : Bool) (s : State) : Out :=
  xDo g 1 s fun s => do
    let w0 := s.getS a
    let w1 := s.getS b
    require (!baseReserved w0 w1) (s.faultAt .x 0x0B)
    let fmts := (List.range 16).map s.occ.fmt
    s.checkNest (Base.ofWords w0 w1) [] fmts
    s.acceptX 2 [w0, w1, if ovw then 1 else 0] [] (s.nestRanges (Base.ofWords w0 w1) [] fmts)
def execMma (g : KG) (a b : BitVec 6) (s : State) : Out := vMma g a b false s
def execMmaOvw (g : KG) (a b : BitVec 6) (s : State) : Out := vMma g a b true s

/-! ## ALD, AST and AEPI (R225, R226) -/

/-- The address operand of R220: UNIT or CLUS. -/
def State.xAddress (s : State) (x : DWord) : Act Unit :=
  require ((packedSpace x == 1 || packedSpace x == 2) && packedPeer x == 0) (s.faultAt .x 0x0B)

def State.spanX (s : State) (x : DWord) (n : Nat) (wr : Bool) : List Range :=
  s.spanRanges (packedSpace x) 0 (packedOff x).toNat ((packedOff x).toNat + n) wr

def execAld (g : KG) (d a : BitVec 6) (s : State) : Out :=
  xDo g 1 s fun s => do
    let x := s.getS a
    let at' := s.getS d
    let off := packedOff at'
    let (row, n) := rowsArg x
    s.xAddress at'
    require (bitsOf x.toNat 63 24 == 0 && n != 0) (s.faultAt .x 0x0B)
    require (off.toNat % 16 == 0) (.trap 4 ({} : MemInfo).bits off)
    s.checkExtent (packedSpace at') (off.toNat, (off.toNat + 256 * n : Nat)) {}
    s.checkRows row n
    s.acceptX 7 [at', x] [] (rowRange row (row + n) :: s.spanX at' (256 * n) false)

def astFmts : List Nat := [4, 5, 6, 8, 9]

def execAst (g : KG) (d a : BitVec 6) (s : State) : Out :=
  xDo g 1 s fun s => do
    let x := s.getS a
    let at' := s.getS d
    let off := packedOff at'
    let (row, n) := rowsArg x
    let f := bitsOf x.toNat 27 24
    let wr : MemInfo := { write := true }
    s.xAddress at'
    require (bitsOf x.toNat 63 28 == 0 && n != 0 && astFmts.contains f) (s.faultAt .x 0x0B)
    require (off.toNat % 16 == 0) (.trap 4 wr.bits off)
    s.checkExtent (packedSpace at') (off.toNat, (off.toNat + rowSize f * n : Nat)) wr
    s.checkRows row n
    s.acceptX 8 [at', x] [] (rowRange row (row + n) :: s.spanX at' (rowSize f * n) true)

/-- What AEPI does: rows, destination stride, and the extent of tile and counter word. -/
structure Epi where
  row0 : Nat
  rows : Nat
  fp64 : Bool
  entry : Word
  relu : Bool
  clr : Bool
  stride : Int
  deriving DecidableEq, Repr

def Epi.ofWord (x : DWord) (fmts : List Word) : Epi :=
  let e := fmts.getD (bitsOf x.toNat 19 16) unsetEntry
  let st := signedField x.toNat 63 32
  { row0 := bitsOf x.toNat 11 0, rows := rowsOf (bitsOf x.toNat 13 12), fp64 := entryAF e == 7, entry := e,
    relu := x.getLsbD 20, clr := x.getLsbD 21, stride := if st = 0 then (rowSize (entryOF e) : Nat) else st }

def Epi.accRows (e : Epi) : Nat := if e.fp64 then 2 * e.rows else e.rows

/-- The bytes from the lowest to one past the highest that AEPI writes. -/
def Epi.extent (e : Epi) (dst : Nat) : Int × Int :=
  let size : Int := (rowSize (entryOF e.entry) : Nat)
  let first : Int := dst
  let last : Int := first + ((e.rows : Int) - 1) * e.stride
  let word : Int := first + (e.rows : Int) * e.stride
  (min (min first last) word, max (max (first + size) (last + size)) (word + 4))

/-- The semaphore of AEPI: core and address, from s[b], the offset and the space. -/
def epiSem (sp : Nat) (base : DWord) (off : BitVec 16) : Nat × DWord :=
  let o : DWord := off.signExtend 64
  if sp = 0 then (0, base + o)
  else (if sp = 5 then packedPeer base else 0, (base.setWidth 32).setWidth 64 + o)

/-- Bits of s[b] that must be zero. -/
def epiSemZero (sp : Nat) (base : DWord) : Bool :=
  match sp with
  | 0 => true
  | 5 => bitsOf base.toNat 47 32 == 0 && bitsOf base.toNat 63 61 == 0
  | _ => bitsOf base.toNat 63 32 == 0

/-- AEPI (R226). DESIGN CHOICE (log 67): the window check of R218 (0x08) comes behind those of the destination and of the semaphore's
address (0x07, 0x04 to 0x06). DESIGN CHOICE (log 82): R226 names no check of ROW0 for an FP64 entry, so an odd one is taken, and its rows
are those from ROW0 on. -/
def execAepi (g : KG) (d a b : BitVec 6) (off : BitVec 16) (sp sc : BitVec 3) (s : State) : Out :=
  xDo g 2 s fun s => do
    let x := s.getS a
    let at' := s.getS d
    let dst := packedOff at'
    let ill := s.faultAt .x 0x0B
    let wr : MemInfo := { write := true }
    s.xAddress at'
    let fmts := (List.range 16).map s.occ.fmt
    let e := Epi.ofWord x fmts
    require (decide (entryAF e.entry ≤ 7) && (entryOF e.entry != 7 || e.fp64))
      (s.faultAt .x 0x1D (BitVec.ofNat 64 (bitsOf x.toNat 19 16)))
    require (bitsOf x.toNat 15 14 == 0 && bitsOf x.toNat 31 22 == 0 && bitsOf x.toNat 13 12 != 3) ill
    require (b != 0 || (off == 0 && sp == 0 && sc == 0)) ill
    require (dst.toNat % 8 == 0) (.trap 4 wr.bits dst)
    require (e.stride % 8 == 0) (.trap 4 wr.bits (dst + BitVec.ofInt 64 e.stride))
    require (b == 0 || epiSemZero sp.toNat (s.getS b)) ill
    let ext := e.extent dst.toNat
    s.checkExtent (packedSpace at') ext wr
    let (core, sem) := epiSem sp.toNat (s.getS b) off
    if b ≠ 0 then
      let _ ← s.keyOf sp.toNat core 0 sem 8 .both { atomic := true }
    s.checkRows e.row0 e.accRows
    let semR := if b = 0 then [] else [s.range sp.toNat core sem.toNat 8 true]
    let key := if b = 0 then none else match s.keyOf sp.toNat core 0 sem 8 .both {} with | .ok k => some k | .error _ => none
    let t ← s.acceptX 6 [at', x, sem, BitVec.ofNat 64 (sp.toNat + 8 * core), if b = 0 then 0 else 1] []
      (rowRange e.row0 (e.row0 + e.accRows) :: s.spanRanges (packedSpace at') 0 ext.1.toNat ext.2.toNat true ++ semR)
    .ok (t.mapOcc fun o => { o with xcmds := o.xcmds.map fun c => if c.uid = s.uid then { c with sem := key } else c })

/-! ## Rows in memory and in the accumulator -/

/-- n bytes of UNIT or CLUS, a multiple of 8, as a number; lost bytes are a fault (R232). -/
def State.readRow (s : State) (space : Nat) (addr : Nat) (n : Nat) : Act Nat := do
  let ws ← (List.range (n / 8)).mapM fun j => do
    let a := BitVec.ofNat 64 (addr + 8 * j)
    let k ← s.cmdKey space 0 a 8 .read { async := true }
    .ok (s.mem.getN k 8)
  .ok (packBits 64 ws)

def State.writeRow (s : State) (space : Nat) (addr : Int) (n x : Nat) : Act State :=
  ((piecesOf 4 256 (toBytes n x)).foldlM (fun (p : State × Int) bs => do
    let k ← p.1.keyOf space 0 0 (BitVec.ofInt 64 p.2) 4 .write {}
    .ok (p.1.poke k bs, p.2 + 4)) (s, addr)).map Prod.fst

/-- Word n of accumulator row r of the core in focus. -/
def State.accWord (s : State) (r n : Nat) : Nat := s.mem.getN (accKey s.me.place.core r n) 4
def State.setAcc (s : State) (r n x : Nat) : State := { s with mem := s.mem.setN (accKey s.me.place.core r n) 4 x }

/-- A lost byte of an accumulator row. -/
def State.rowLost (s : State) (r : Nat) : Act Unit :=
  match s.lost (accKey s.me.place.core r 0) 256 with
  | some _ => .error (.trap 0x1C (s.lostInfo (accKey s.me.place.core r 0) true) (BitVec.ofNat 64 r))
  | none => .ok ()

/-- Output n of logical row m: an FP32 word, or an FP64 pair (R209). -/
def State.output (s : State) (fp64 : Bool) (c0 m n : Nat) : Nat :=
  if fp64 then
    let r := c0 + 2 * m + n / 32
    s.accWord r (2 * (n % 32)) + s.accWord r (2 * (n % 32) + 1) * 2 ^ 32
  else s.accWord (c0 + m) n

def State.setOutput (s : State) (fp64 : Bool) (c0 m n x : Nat) : State :=
  if fp64 then
    let r := c0 + 2 * m + n / 32
    (s.setAcc r (2 * (n % 32)) (x % 2 ^ 32)).setAcc r (2 * (n % 32) + 1) (x / 2 ^ 32)
  else s.setAcc (c0 + m) n x

/-! ## A step (R210, R92 to R94) -/

/-- One output of a narrow or 16-bit step: four chunks of 16. -/
def dotChunks (ovw : Bool) (c : Nat) (as bs : List Num) : Nat :=
  (List.range 4).foldl (fun c j =>
    let t := (f32.round 0 (sumNum 0 ((((as.drop (16 * j)).take 16).zip ((bs.drop (16 * j)).take 16)).map fun p =>
      mulNum p.1 p.2))).code
    if j = 0 && ovw then t else (f32.round 0 (addNum 0 (f32.decode c) (f32.decode t))).code) c

/-- One output of an FP32 or FP64 step: 64 fused multiply-adds. -/
def dotFma (F : Fmt) (ovw : Bool) (c : Nat) (as bs : List Num) : Nat :=
  (as.zip bs).foldl (fun c p => (F.round 0 (fmaNum 0 p.1 p.2 (F.decode c))).code) (if ovw then 0 else c)

/-- A step: A at an offset of a space, B, first row, M rows, table entry, overwrite. -/
def State.matrixStep (s : State) (asp aoff bsp boff c0 m : Nat) (e : Word) (ovw : Bool) : Act State := do
  let af := entryAF e
  let bf := entryBF e
  let fp64 := af == 7
  (List.range (if fp64 then 2 * m else m)).forM fun r => s.rowLost (c0 + r)
  let rowsA ← (List.range m).mapM fun i => s.readRow asp (aoff + i * rowSize af) (rowSize af)
  let rowsB ← (List.range 64).mapM fun i => s.readRow bsp (boff + i * rowSize bf) (rowSize bf)
  let da := rowsA.map (operandRow af (entryBM e))
  let db := rowsB.map (operandRow bf (entryBM e))
  let errs := (da ++ db).foldl (fun n p => n + p.2) 0
  let dot := if af = 6 then dotFma f32 ovw else if af = 7 then dotFma f64 ovw else dotChunks ovw
  let t := (List.range m).foldl (fun (t : State) i =>
    (List.range 64).foldl (fun (t : State) n =>
      t.setOutput fp64 c0 i n (dot (s.output fp64 c0 i n) ((da.getD i ([], 0)).1) ((db.getD n ([], 0)).1))) t) s
  .ok (t.countFmt errs)

/-! ## Leave (R359, R360) -/

/-- The charge of an operand format (R359), by the bytes of its rows. -/
def formatCharge (fmt : Nat) : Nat :=
  match rowSize fmt with
  | 56 => 102000
  | 88 => 85000
  | 128 => 68000
  | _ => 51000

/-- The charge of a first step: where its formats differ, the greater of theirs (R440). -/
def leaveCharge (e : Word) : Nat := max (formatCharge (entryAF e)) (formatCharge (entryBF e))

/-- The array is executing a step or finished one within the last 64 cycles. -/
def State.leaveExempt (s : State) : Bool :=
  match s.core.lastStep with
  | some c => decide (s.cyc ≤ c + 64)
  | none => false

def State.setX (s : State) (c : XCmd) : State :=
  s.mapOcc fun o => { o with xcmds := modifyFirst (fun e => e.uid == c.uid) (fun _ => c) o.xcmds }

def State.dropX (s : State) (uid : Nat) : State := s.mapOcc fun o => { o with xcmds := o.xcmds.filter fun c => c.uid != uid }

/-- The table entry, and the rest, of step number n of a command. -/
def XCmd.base (c : XCmd) : Base := if c.op = 1 then tableBase c.table else Base.ofWords (c.args.getD 0 0) (c.args.getD 1 0)
def XCmd.levels (c : XCmd) : List Level := if c.op = 1 then tableLevels c.table else []
def XCmd.steps (c : XCmd) : Nat := stepsOf c.levels

def XCmd.entry (c : XCmd) (n : Nat) : Word := c.fmts.getD (stepIndex c.base c.levels (counters n c.levels)) unsetEntry

/-- Ask for leave, unless the array is busy or was so at the moment of the request (R360). Requests queue as they arrive; no two arrive
in one cycle (log 3). -/
def State.askLeave (s : State) (c : XCmd) : State :=
  if (s.dieAt s.die).leave.any fun r => r.cmd == c.uid then s
  else if s.leaveExempt then s.setX { c with granted := true }
  else s.modDie s.die fun d => { d with leave := d.leave ++ [{ gid := s.me.gid, cmd := c.uid, charge := leaveCharge (c.entry c.next) }] }

/-- The X command meets a fault while it runs: it halts with its progress and raises it (R232, R397). A nest halts as at
a trap. -/
def State.haltXCmd (s : State) (c : XCmd) (stop : Stop) : State :=
  let s := s.setX { c with halted := true }
  match stop with
  | .trap code info addr =>
    if s.occ.trapLevel then s else s.addCause { code, eng := .x, info, addr, cmd := c.uid, pc := some c.addr }
  | _ => s

/-- One step of the nest or MMA at the head of the X queue. -/
def State.stepX (s : State) (c : XCmd) : State :=
  if c.halted || c.steps ≤ c.next then s
  else if !c.granted then s.askLeave c
  else
    let s := if c.op = 1 && !c.started then s.mapOcc fun o => { o with mprog := 0, active := c.table, snapshot := some c.fmts } else s
    let c := { c with started := true }
    let s := s.setX c
    let b := c.base
    let cs := counters c.next c.levels
    let a := (along b.aoff (·.ainc) c.levels cs).toNat
    let bb := (along b.boff (·.binc) c.levels cs).toNat
    let row := (along b.crow (·.cinc) c.levels cs).toNat
    let ovw := if c.op = 1 then stepOvw c.levels cs else c.args.getD 2 0 == 1
    match s.matrixStep b.asp a b.bsp bb row (rowsOf b.mc) (c.entry c.next) ovw with
    | .error stop => s.haltXCmd c stop
    | .ok t =>
      let n := c.next + 1
      let cyc := s.cyc
      let t := (t.setX { c with next := n }).modCore s.me.place.core fun k => { k with lastStep := some cyc }
      (if c.op = 1 then t.mapOcc fun o => { o with mprog := (o.mprog >>> 32 <<< 32) ||| BitVec.ofNat 64 (n % 2 ^ 32) } else t).progressed

/-- The occupant of a group whose X queue has a nest or an MMA at its head that is not finished. -/
def Occ.stepping? (o : Occ) : Bool :=
  match o.xcmds.head? with
  | some c => (c.op == 1 || c.op == 2) && decide (c.next < c.steps)
  | none => false

def State.headX (s : State) (f : XCmd → State → State) : State :=
  match s.occ.xcmds.head? with
  | some c => f c s
  | none => s

/-- MATRIX_STEP (R215): the array executes one step of a group's nest or MMA; the first asks for leave. -/
def execMatrixStep (gid : Nat) (s : State) : Out :=
  .next (s.onGroup gid fun s =>
    if s.me.run ≠ .running then s else s.onOcc Occ.stepping? fun s => s.headX fun c s => s.stepX c)

/-! ## The other X commands run (R224 to R226) -/

def State.runAld (s : State) (at' x : DWord) : Act State := do
  let (row, n) := rowsArg x
  let rows ← (List.range n).mapM fun i => s.readRow (packedSpace at') ((packedOff at').toNat + 256 * i) 256
  .ok ((List.range n).foldl (fun (t : State) i =>
    t.poke (accKey t.me.place.core (row + i) 0) (toBytes 256 (rows.getD i 0))) s)

def State.runAst (s : State) (at' x : DWord) : Act State := do
  let (row, n) := rowsArg x
  let f := bitsOf x.toNat 27 24
  (List.range n).forM fun i => s.rowLost (row + i)
  let (t, sats) ← (List.range n).foldlM (fun (p : State × Nat) i => do
    let xs := (List.range 64).map fun k => s.accWord (row + i) k
    let (v, c) := if f = 6 then (packBits 32 xs, 0) else convertRow f 0 0 (xs.map f32.decode)
    let u ← p.1.writeRow (packedSpace at') ((packedOff at').toNat + rowSize f * i : Nat) (rowSize f) v
    .ok (u, p.2 + c)) (s, 0)
  .ok (t.countSat sats)

def relu (x : Num) : Num :=
  match x with
  | .nan => .nan
  | _ => if x.sign || x.isZero then .zero false else x

/-- The rows of an AEPI and its counter word. -/
def State.runAepi (s : State) (at' x : DWord) (fmts : List Word) : Act State := do
  let e := Epi.ofWord x fmts
  let sp := packedSpace at'
  let dst : Int := (packedOff at').toNat
  let F := if e.fp64 then f64 else f32
  (List.range e.accRows).forM fun i => s.rowLost (e.row0 + i)
  let t ← (List.range e.rows).foldlM (fun (t : State) m => do
    let xs := (List.range 64).map fun n =>
      let v := F.decode (t.output e.fp64 e.row0 m n)
      if e.relu then relu v else v
    let (v, c) := convertRow (entryOF e.entry) (entryBM e.entry) (entryT e.entry) xs
    let u ← t.writeRow sp (dst + (m : Int) * e.stride) (rowSize (entryOF e.entry)) v
    let u := if e.clr then
        if e.fp64 then u.zeroRows (e.row0 + 2 * m) (e.row0 + 2 * m + 2) else u.zeroRows (e.row0 + m) (e.row0 + m + 1)
      else u
    .ok (u.countSat c)) s
  let t ← t.writeRow sp (dst + (e.rows : Int) * e.stride) 4 t.core.overflow.toNat
  .ok (t.modCore t.me.place.core fun c => { c with overflow := 0 })

/-- The signal of an AEPI (R226, R446). -/
def State.signalAepi (s : State) (c : XCmd) : State :=
  if c.args.getD 4 0 = 0 then s.dropX c.uid
  else
    let at' := c.args.getD 2 0
    let spc := (c.args.getD 3 0).toNat
    match s.cmdKey (spc % 8) (spc / 8) at' 8 .both { async := true, write := true, atomic := true } with
    | .error stop => s.haltXCmd c stop
    | .ok k =>
      match s.cmdSignal k .x at' c.addr with
      | some (t, ok) => (t.dropX c.uid).mapOcc fun o => { o with xerr := o.xerr || !ok }
      | none => s.setX { c with halted := true }

/-- The command at the head of the X queue runs to its end: a nest or an MMA whose steps are done leaves the queue. -/
def State.finishX (s : State) (c : XCmd) : State :=
  let done (r : Act State) : State := match r with
    | .ok t => (t.dropX c.uid).progressed
    | .error stop => s.haltXCmd { c with started := true } stop
  let a0 := c.args.getD 0 0
  let a1 := c.args.getD 1 0
  if c.halted then s
  else match c.op with
  | 1 | 2 => if c.steps ≤ c.next then (s.dropX c.uid).progressed else s
  | 5 => let (row, n) := rowsArg a0; done (.ok (s.zeroRows row (row + n)))
  | 7 => done (s.runAld a0 a1)
  | 8 => done (s.runAst a0 a1)
  | _ =>
    if c.next = 1 then (s.signalAepi c).progressed
    else match s.runAepi a0 a1 c.fmts with
      | .ok t => ((t.setX { c with next := 1, started := true }).signalAepi { c with next := 1, started := true }).progressed
      | .error stop => s.haltXCmd { c with started := true } stop

/-- X_COMMAND_COMPLETE (R230): the last step, row or signal of a group's oldest X command takes effect. -/
def execXCommandComplete (gid : Nat) (s : State) : Out :=
  .next (s.onGroup gid fun s =>
    if s.me.run ≠ .running then s
    else s.onOcc (fun o => o.xcmds != [] && !o.stepping?) fun s => s.headX fun c s => s.finishX c)

/-! ## MSTAT and MSTOP (R227, R228) -/

def State.xStat (s : State) : DWord :=
  BitVec.ofNat 64 (s.occ.xcmds.length + (bitsOf s.occ.mprog.toNat 32 32) * 2 ^ 62 + s.occ.xerr.toNat * 2 ^ 63)

def State.xIdle (s : State) : Act Unit := require (s.occ.xcmds == []) (.wait 17 0 0 0)

def execMstatStat (g : KG) (d _a : BitVec 6) (s : State) : Out := xDo g 1 s fun s => .ok (s.setS d s.xStat)

def execMstatWait (g : KG) (d _a : BitVec 6) (s : State) : Out :=
  xDo g 1 s fun s => do
    s.xIdle
    .ok ((s.setS d s.xStat).mapOcc fun o => { o with xerr := false })

def mstatOverflow (g : KG) (d : BitVec 6) (clear : Bool) (s : State) : Out :=
  xDo g 1 s fun s => do
    s.xIdle
    let t := s.setS d (s.core.overflow.setWidth 64)
    .ok (if clear then t.modCore s.me.place.core fun c => { c with overflow := 0 } else t)
def execMstatOvf (g : KG) (d _a : BitVec 6) (s : State) : Out := mstatOverflow g d false s
def execMstatOvfc (g : KG) (d _a : BitVec 6) (s : State) : Out := mstatOverflow g d true s

def mstatErrors (g : KG) (d : BitVec 6) (clear : Bool) (s : State) : Out :=
  xDo g 1 s fun s => do
    s.xIdle
    let t := s.setS d (s.core.formatErr.setWidth 64)
    .ok (if clear then t.modCore s.me.place.core fun c => { c with formatErr := 0 } else t)
def execMstatFerr (g : KG) (d _a : BitVec 6) (s : State) : Out := mstatErrors g d false s
def execMstatFerrc (g : KG) (d _a : BitVec 6) (s : State) : Out := mstatErrors g d true s

def mstatTable (g : KG) (d a : BitVec 6) (s : State) (t : List DWord) : Out :=
  xDo g 1 s fun s => do
    let x := (s.getS a).toNat
    require (x / 16 == 0 && x % 8 != 7) (s.faultAt .x 0x0B)
    .ok (s.setS d (tableWord t (x % 8) (x / 8)))
/-- The last nest in program order that the X queue has accepted and that is not complete (R214, R227). -/
def Occ.lastNest (o : Occ) : Option XCmd := (o.xcmds.filter fun c => c.op == 1).getLast?

/-- The active table and the snapshot in program order (R213, R214, R227): those of the last nest accepted. -/
def Occ.nestTable (o : Occ) : List DWord := match o.lastNest with | some c => c.table | none => o.active
def Occ.nestFmts (o : Occ) : Option (List Word) := match o.lastNest with | some c => some c.fmts | none => o.snapshot

def execMstatNest (g : KG) (d a : BitVec 6) (s : State) : Out := mstatTable g d a s s.occ.nestTable
def execMstatNests (g : KG) (d a : BitVec 6) (s : State) : Out := mstatTable g d a s s.occ.shadow

def execMstatFmt (g : KG) (d a : BitVec 6) (s : State) : Out :=
  xDo g 1 s fun s => do
    let x := (s.getS a).toNat
    require (x / 32 == 0) (s.faultAt .x 0x0B)
    let e := if x / 16 = 1 then (s.occ.nestFmts.getD []).getD (x % 16) unsetEntry else s.occ.fmt (x % 16)
    .ok (s.setS d (e.setWidth 64))

/-- MSTOP (R228). A nest halted at a trap is stopped too. The tables of the last nest accepted stay what MSTAT reads (R227). -/
def execMstop (g : KG) (s : State) : Out :=
  xDo g 1 s fun s =>
    let running := s.occ.mprog.getLsbD 32 || s.occ.xcmds.any fun c => c.op == 1 && c.started
    .ok (s.mapOcc fun o =>
      { o with xcmds := o.xcmds.filter fun c => c.op != 1 && (c.op != 2 || c.started),
               active := o.nestTable, snapshot := o.nestFmts, nestHeld := [],
               mprog := if running then (o.mprog &&& ~~~(0x100000000 : DWord)) ||| (1 <<< 33) else o.mprog })

/-! ## A halted nest goes on (R231) -/

/-- At RFT, a nest that %MPROG says is halted goes back to the head of the X queue. -/
def State.resumeNest (s : State) : State :=
  let o := s.occ
  if bitsOf o.mprog.toNat 32 32 = 0 then s.mapOcc fun o => { o with nestHeld := [] }
  else
    let t := (List.range 14).map fun i => o.active.getD i 0
    let fmts := (List.range 16).map fun i => (o.snapshot.getD []).getD i unsetEntry
    let c : XCmd := { uid := s.uid, op := 1, args := [], fmts, table := t, granted := false, started := true,
                      next := o.mprog.toNat % 2 ^ 32, sem := none, ranges := s.nestRanges (tableBase t) (tableLevels t) fmts,
                      addr := o.nestAddr }
    { s with uid := s.uid + 1 }.mapOcc fun o =>
      { o with nestHeld := [], xcmds := c :: o.xcmds, mprog := o.mprog &&& ~~~(0x100000000 : DWord) }

/-! ## The current governor (R359) -/

/-- Grant requests from the head while the budget lasts. -/
def grantLeave (budget : Nat) : List LeaveReq → List LeaveReq × List LeaveReq × Nat
  | [] => ([], [], budget)
  | r :: rs =>
    if r.charge ≤ budget then
      let (g, rest, b) := grantLeave (budget - r.charge) rs
      (r :: g, rest, b)
    else ([], r :: rs, budget)

/-- A granted command may begin. -/
def State.grant (s : State) (r : LeaveReq) : State :=
  let f (o : Occ) : Occ := { o with xcmds := o.xcmds.map fun c => if c.uid = r.cmd then { c with granted := true } else c }
  s.modGroup r.gid fun g => { g with occ := f g.occ, under := g.under.map f }

/-- CURRENT_GOVERNOR_CYCLE (R359, R365): refill, then grants in queue order. A request whose command is gone has left the
queue. -/
def execCurrentGovernorCycle (die : Nat) (s : State) : Out :=
  if 4 ≤ die then .next s
  else
    let d := s.dieAt die
    let alive := d.leave.filter fun r => s.groups.any fun g => g.gid == r.gid
      && (g.occ :: g.under).any fun o => o.xcmds.any fun c => c.uid == r.cmd
    let budget := min 136000 (d.budget + 10 * d.didt / 2 ^ d.throttle)
    let (granted, rest, b) := grantLeave budget alive
    .next (granted.foldl State.grant (s.modDie die fun d => { d with
      budget := b, leave := rest, grants := (d.grants + granted.length) % 2 ^ 32,
      lwait := min 0xFFFFFFFF (d.lwait + rest.length) }))

end Sys2Proof.Machine
end

