-- ==== Sys2Proof/Machine/Fit.lean ====
section
/-! DEFINITION. Whether groups, tasks and teams fit (R14 to R19, R300, R354), the order of a die's controller (R353), and
where an allocation may lie. -/

namespace Sys2Proof.Machine

/-! ## Tasks and parked slots -/

/-- Whether a task fits a cluster of its kind (R300). -/
def State.taskFits (s : State) (card die cluster : Nat) : Bool :=
  Config.isTileDie die == cardTile card && (s.clusterCores die cluster).any fun k =>
    (s.freeSlot? k (16 * 2 ^ fieldAt card 0x15 1) (fieldAt card 0x18 2) (fieldAt card 0x1A 2)).isSome

/-- The windows of a parked slot: that of its record's AWIN word (R219), and those of the occupants below. -/
def State.parkedWindows (s : State) (g : Group) : List (Nat × Nat) :=
  s.savedWindow g.ctx g.bottom.saveptr g.occ :: g.under.map fun o => (o.awb, o.awl)

/-- Lane-registers that a parked slot needs of the pool: what its occupants hold, and for a bottom task its credit, which comes back
with it. The two make VREGS × width for a task by itself (R300, R426). -/
def State.parkedRegs (s : State) (g : Group) : Nat :=
  g.laneRegs + if g.bottom.task = 0 then 0 else ((s.team? g.bottom.team).map (·.credit)).getD 0

/-- Rows [lo, hi) of a tile lie in no resident group's window. -/
def State.rowsFree (s : State) (core : Nat) (w : Nat × Nat) : Bool :=
  decide (w.2 ≤ w.1) || s.groups.all fun h => !h.resident || h.place.core != core
    || h.occs.all fun o => decide (o.awl ≤ o.awb) || decide (w.2 ≤ o.awb) || decide (o.awl ≤ w.1)

/-- Registers, half-slots or slot, slices and windows of a parked slot fit a placement. -/
def State.restoreFits (s : State) (g : Group) (pl : Place) : Bool :=
  let tile := Config.isTile pl.core
  let w := g.occ.width
  s.coreUsable pl.core && Config.isTile g.place.core == tile && slotAligned tile pl.slot w
    && (coveredSlots tile pl.slot w).all (fun i => !s.slotTaken pl.core i)
    && decide (s.parkedRegs g ≤ s.poolFree pl.core)
    && s.sliceFits pl.core pl.slot w (g.occs.foldl (fun a o => a + o.lanePriv) 0)
    && (s.parkedWindows g).all (s.rowsFree pl.core)

/-- A parked slot fits on one of the cores it may return to. -/
def State.slotFits (s : State) (g : Group) (cores : List Nat) : Bool :=
  cores.any fun k => (List.range (Config.slotsOf (Config.isTile k))).any fun i => s.restoreFits g ⟨k, i⟩

/-! ## The controller's order (R353, R423) -/

/-- Whether a parked slot is resumable by itself: its watch has re-queued it, or its task has been; the groups of a
pre-empted team come back with their team. -/
def State.resumable (s : State) (g : Group) : Bool :=
  match g.run with
  | .waitPark r => r && (g.bottom.task != 0 || match s.team? g.bottom.team with | some t => !t.preempting && !t.parked | none => false)
  | .preemptPark => g.bottom.task != 0
  | _ => false

/-- An item of a controller's order: its priority, stamp and issuing %CORE, its place in the ready queues from 1 on, whether it has been passed over too
long, whether it fits. -/
structure Item where
  prio : Nat
  stamp : Nat
  core : Nat
  pos : Nat
  passed : Bool
  fits : Bool
  deriving DecidableEq, Repr

/-- Cycles between team starts (R356); the counters of log 3 count one cycle a step. -/
def LaunchRec.gap (r : LaunchRec) (didt : Nat) : Nat :=
  if r.stagger ≠ 0 then r.stagger else ((if r.tile then 10200 else 1700) + didt - 1) / didt

/-- A launch's next team may start on a die as far as its stagger goes (R356). -/
def State.staggerOk (s : State) (l : Launch) (die : Nat) : Bool :=
  l.record.cosched || match l.lastStart.find? fun p => p.1 == die with
    | some (_, c) => decide (c + l.record.gap (s.dieAt die).didt ≤ (s.dieAt die).cyc)
    | none => true

/-- Parked teams of a launch that RESUME has returned to placement, in team order (R382). -/
def State.toResume (s : State) (launch : Nat) : List Team :=
  s.teams.filter fun (t : Team) => t.launch == launch && t.parked && t.resuming

/-- Save areas are free for the groups that start next; parked groups keep theirs (R404). -/
def State.areasFree (s : State) (l : Launch) : Bool :=
  let n := l.record.groups * (if l.record.cosched then l.record.teams else 1)
  s.toResume l.uid != [] || decide ((s.ctxAt l.ctx).areas.length + n ≤ (s.ctxAt l.ctx).narea)

/-- The parked groups of a team, in order, on a core: how many it takes, and the state with them in place. -/
def State.packGroups (s : State) (core : Nat) : List Group → Nat × State
  | [] => (0, s)
  | g :: gs =>
    match (List.range (Config.slotsOf (Config.isTile core))).find? fun i => s.restoreFits g ⟨core, i⟩ with
    | none => (0, s)
    | some i =>
      let (k, t) := (s.modGroup g.gid fun g => { g with run := .running, place := ⟨core, i⟩ }).packGroups core gs
      (k + 1, t)

/-- Groups of a team by rising %GROUP. -/
def insertGroup (g : Group) : List Group → List Group
  | [] => [g]
  | h :: t => if g.bottom.group ≤ h.bottom.group then g :: h :: t else h :: insertGroup g t

def State.groupsInOrder (s : State) (team : Nat) : List Group := (s.teamGroups team).foldr insertGroup []

/-- Whether a parked team fits a core alone, its credit included (R450). -/
def State.resumesOn (s : State) (t : Team) (core : Nat) : Bool :=
  let gs := s.groupsInOrder t.uid
  let (k, u) := s.packGroups core gs
  k == gs.length && decide (t.credit ≤ u.poolFree core) && s.unitBases [core] t.unitSize != []

/-- Whether it fits a pair of which neither core takes it: as many groups as fit on the even core, the rest on the odd one; answers how
many go to the even one. -/
def State.resumesOnPair (s : State) (t : Team) (core : Nat) : Option Nat :=
  let even := core / 2 * 2
  let gs := s.groupsInOrder t.uid
  let (k, u) := s.packGroups even gs
  if !s.resumesOn t even && !s.resumesOn t (even + 1) && k + (u.packGroups (even + 1) (gs.drop k)).1 == gs.length
      && s.unitBases (pairOf core) t.unitSize != [] then some k else none

/-- Whether a parked team of a launch may be resumed in a cluster of a die: on its own die (R450), with the launch's allocation. -/
def State.teamResumes (s : State) (l : Launch) (t : Team) (die cluster : Nat) : Bool :=
  (t.cores.head?.map Config.coreDie) == some die && s.clusterOpen l die cluster
    && (s.clusterCores die cluster).any fun k => s.resumesOn t k || (s.resumesOnPair t k).isSome

/-- A launch's next team fits on a die: one that RESUME has returned, or the next to be placed (R354). -/
def State.launchFits (s : State) (l : Launch) (die : Nat) : Bool :=
  s.areasFree l && (List.range (Config.clustersOf die)).any fun c =>
    match s.toResume l.uid with
    | t :: _ => s.teamResumes l t die c
    | [] => if l.record.cosched then s.allFit l die c else s.teamFits l die c

/-- A launch in the order of a die's controller. One that waits for its stagger alone does not start now, and is not passed over
(R354, R356). -/
def State.launchItem (s : State) (l : Launch) (die : Nat) : Item :=
  { prio := l.record.prio, stamp := l.stamp, core := Config.coreIndex l.core, pos := 0, passed := l.passed.contains die,
    fits := s.staggerOk l die && s.launchFits l die }

/-- The parked slot with an adoption stack that an entry of a ready queue stands for (R423). -/
def State.slotOf (s : State) (r : Ready) : Option Group :=
  match r.slot with
  | some gid => s.group? gid
  | none => s.groups.find? fun (g : Group) => g.under != [] && g.ctx == r.ctx && g.bottom.task == r.task

/-- Cores to which the slot of an entry may return: those of the cluster in which it is queued (R450). -/
def State.slotCores (s : State) (r : Ready) : List Nat := s.clusterCores r.die r.cluster

/-- An entry of a ready queue in the controller's order: a task, or a parked slot at the greatest effective priority among
its occupants (R423). -/
def State.readyItem (s : State) (r : Ready) : Item :=
  match s.slotOf r with
  | some g =>
    { prio := g.occs.foldl (fun p o => max p (s.occPrio g.ctx o)) 0, stamp := r.stamp, core := Config.coreIndex r.core,
      pos := s.ready.idxOf r + 1, passed := r.passed, fits := s.slotFits g (s.slotCores r) }
  | none =>
    { prio := s.taskPrio r.ctx r.task, stamp := r.stamp, core := Config.coreIndex r.core, pos := s.ready.idxOf r + 1, passed := r.passed,
      fits := r.slot.isNone && match s.card? r.ctx r.task with | some c => s.taskFits c r.die r.cluster | none => false }

/-- Entries of the ready queues of a die; a parked slot that has ended, or that now comes back with its team only, is none. -/
def State.readyOf (s : State) (die : Nat) : List Ready :=
  s.ready.filter fun (r : Ready) => r.die == die && r.slot.all fun gid => (s.group? gid).any s.resumable

/-- The cycle from which a launch counts as passed over on a die: its arrival, or the end of the stagger after its last start there
(R354, R356). -/
def Launch.since (l : Launch) (die didt : Nat) : Nat :=
  l.lastStart.foldl (fun c p => if p.1 = die then max c (p.2 + l.record.gap didt) else c) l.stamp

/-- Launches with unplaced teams that a die's controller holds. -/
def State.heldLaunches (s : State) (die : Nat) : List Launch :=
  s.launches.filter fun (l : Launch) => l.stage == .held && l.dies.contains die
    && (decide (l.next < l.record.teams) || s.toResume l.uid != [])
    && (match l.bound with | some (d, _, _) => d == die | none => true)

/-- The items of a die other than the one given. -/
def State.itemsBut (s : State) (die : Nat) (launch : Nat) (but : Option Ready) : List Item :=
  ((s.heldLaunches die).filter fun (l : Launch) => l.uid != launch).map (fun l => s.launchItem l die)
    ++ ((s.readyOf die).filter fun (r : Ready) => some r != but).map s.readyItem

/-- The order of a controller: the greater priority, then the lower stamp, then the lower issuing %CORE (R353), then the place in the
queue, which for tasks that one group made ready in one cycle is that of their successor positions (R299, R420). -/
def Item.before (i j : Item) : Bool :=
  decide (j.prio < i.prio) || (i.prio == j.prio
    && (decide (i.stamp < j.stamp) || (i.stamp == j.stamp
      && (decide (i.core < j.core) || (i.core == j.core && decide (0 < i.pos) && decide (i.pos < j.pos))))))

/-- An item may start now: nothing before it in the order fits, and no passed-over item of its priority or above bars
it (R353, R354). -/
def mayStart (me : Item) (rest : List Item) : Bool :=
  rest.all fun i => !(i.passed && decide (me.prio ≤ i.prio)) && !(i.fits && i.before me)

end Sys2Proof.Machine
end

