-- ==== Sys2Proof/Machine/Hang.lean ====
section
/-! DEFINITION. Hang records (R366 to R368). -/

namespace Sys2Proof.Machine

/-! ## What will satisfy a wait (R368) -/

/-- Keys of the semaphores that a memory command of the occupant in focus will signal. -/
def State.signalKeys (s : State) (c : MemCmd) : List Nat :=
  match c.sem with
  | none => []
  | some a =>
    if c.op = 0x0C then (c.tiles (Config.coreIndex s.me.place.core)).map fun t => unitKey (Config.coreKey s.die t) a.toNat
    else match s.keyOf c.space 0 0 a 8 .both {} with | .ok k => [k] | .error _ => []

/-- Keys that the commands of a group will signal. -/
def State.groupSignals (s : State) (g : Group) : List Nat :=
  (g.occs.flatMap fun o => o.xcmds.filterMap fun c => c.sem)
    ++ (g.occs.flatMap fun o =>
      o.cmds.flatMap fun c => ({ s with me := { g with occ := o } } : State).signalKeys c)

/-- Keys that the payloads of CSENDs under way will add to. -/
def State.ringSignals (s : State) : List Nat :=
  s.felts.filterMap fun (r : FeltRes) => r.cmd.map fun _ => unitKey r.ring (feltHdr (s.coreAt r.ring).felt) + 8

/-- The key of an object as a group reaches it; a felt ring of a SLOT (kind 3) is that of the tile it names (R197). -/
def State.waitKey (s : State) (g : Group) (w : Wait) : Option Nat :=
  if w.kind = 3 then some (s.ringKey w)
  else match ({ s with me := g } : State).keyOf (packedSpace w.obj) (packedPeer w.obj) 0 (packedOff w.obj) 4 .both {} with
  | .ok k => some k
  | .error _ => none

/-- The key of the order word of a token that an occupant of a group holds (R284). -/
def State.tokenKey (s : State) (g : Group) (o : Occ) : Option (Nat × Nat) :=
  o.token.bind fun t => (s.waitKey { g with occ := o } { kind := 8, obj := t.1, owner := 0, detail := 0, since := 0 }).map fun k => (k, t.2)

/-- The order token that an occupant of a group holds, running or suspended (R281, R366). -/
def Group.token? (g : Group) : Option (DWord × Nat) := g.occs.findSome? (·.token)

/-- The wait of a group: in progress, or ended by the trap with which it parked. -/
def Group.waiting (g : Group) : Option Wait := g.occ.wait.orElse fun _ => g.occ.parked

/-- The wait of a group as the hang record knows it: a matrix start that waits for leave (R449, kind 18) where nothing else does. -/
def State.hangWait (s : State) (g : Group) : Option Wait :=
  g.waiting.orElse fun _ =>
    if (s.dieAt (Config.coreDie g.place.core)).leave.any (·.gid == g.gid) then
      some { kind := 18, obj := 0, owner := 0, detail := 0, since := g.progress }
    else none

def Run.isParked : Run → Bool
  | .waitPark _ => true
  | .preemptPark => true
  | _ => false

/-- Slot code of R302. -/
def slotCode (core slot : Nat) : Nat :=
  2 ^ 31 + Config.coreDie core * 2 ^ 29 + Config.coreIndex core * 2 ^ 21 + slot * 2 ^ 14

/-- The group whose slot holds the owner of an object: a task, or the group that a slot code names (R302). -/
def State.slotOfOwner (s : State) (ctx owner : Nat) : Option Group :=
  s.groups.find? fun (g : Group) => g.ctx == ctx &&
    if owner < 2 ^ 31 then g.occs.any fun o => o.task == owner else slotCode g.place.core g.place.slot == owner

/-- A Counted domain with REMAIN above 0 steps the cell of the tap that feeds the stream of a stream read (R368). -/
def State.feedsStream (s : State) (g : Group) (w : Wait) : Bool :=
  let st := g.occ.stream (w.detail - 1)
  let dda := (s.coreAt g.place.core).dda
  let cell := dda.cells.getD (dda.taps.getD st.addr.toNat Tap.reset).cell Cell.reset
  let m := dda.doms.getD (bitsOf cell.patch.toNat 39 38) Dom.reset
  st.tap && m.mode == 1 && m.remain != 0

/-- QUEUED (R368). An owner task runs while the group that holds it neither waits nor is parked. -/
def State.hangQueued (s : State) (g : Group) (w : Wait) : Bool :=
  let own := g.occ.cmds.any (fun c => !c.halted) || g.occ.xcmds != []
  match w.kind with
  | 2 | 3 => match s.waitKey g w with
    | some k => (s.groups.flatMap s.groupSignals ++ s.ringSignals).contains k
    | none => false
  | 4 | 5 | 10 => w.owner != 0 && decide (w.owner < 2 ^ 31) && match s.slotOfOwner g.ctx w.owner with
    | some h => h.waiting.isNone && h.run == .running
    | none => false
  | 14 => s.feedsStream g w
  | 13 | 20 | 21 | 22 | 23 | 25 => own
  | 17 | 24 => own || (s.coreAt g.place.core).dda.doms.any fun (d : Dom) => d.mode == 1 && d.remain != 0
  | 18 => true
  | _ => false

/-- The owner chain from a group leads back into a slot (R368). -/
def State.chainBack (s : State) (home : Nat) : Nat → Group → Bool
  | 0, _ => false
  | fuel + 1, g =>
    match g.waiting with
    | some w =>
      (w.kind == 4 || w.kind == 5) && w.owner != 0 &&
        match s.slotOfOwner g.ctx w.owner with
        | some h => h.gid == home || s.chainBack home fuel h
        | none => false
    | none => false

/-- Nothing in the context can run: every group waits or is parked in a wait, and every queued task is without room. -/
def State.allStuck (s : State) (ctx : Nat) : Bool :=
  (s.groups.filter fun (g : Group) => g.ctx == ctx).all (fun (g : Group) => g.waiting.isSome)
    && (s.ready.filter fun (r : Ready) => r.ctx == ctx).all fun (r : Ready) => !(s.readyItem r).fits

/-- NOSAT (R368). -/
def State.noSat (s : State) : Nat → Group → Bool
  | 0, _ => false
  | fuel + 1, g =>
    match s.hangWait g with
    | none => false
    | some w =>
      !s.hangQueued g w &&
        (s.chainBack g.gid (s.others.length + 1) g
          || (w.kind == 8 && !(s.groups.any fun (h : Group) => h.occs.any fun o =>
              match s.tokenKey h o with | some (k, n) => s.waitKey g w == some k && decide (n < w.detail) | none => false))
          || (w.owner != 0 && (w.kind == 4 || w.kind == 5) &&
              match s.slotOfOwner g.ctx w.owner with | some h => s.noSat fuel h | none => false)
          || s.allStuck g.ctx)

/-- A group entry (R367). A parked group stands where its engines stopped. -/
def State.hangEntry (s : State) (g : Group) : List Byte :=
  let o := g.occ
  let w := (s.hangWait g).getD { kind := if g.token?.isSome then 19 else 0, obj := 0, owner := 0, detail := 0, since := 0 }
  let tokenHeld := w.kind == 19
  let obj := if tokenHeld then (g.token?.map fun t => t.1).getD 0 else w.obj
  let owner := if tokenHeld then (g.token?.map fun t => t.2).getD 0 else w.owner
  let queued := (s.hangWait g).isSome && s.hangQueued g w
  let cycle := s.chainBack g.gid (s.others.length + 1) g
  let marks := queued.toNat + 2 * (s.noSat (s.others.length + 1) g).toNat + 4 * g.run.isParked.toNat + 8 * cycle.toNat
  let dda := (s.coreAt g.place.core).dda
  let dhead := match dda.owner with
    | some (gid, _) => if gid = g.gid then ((dda.running.map fun r => r.1.toNat) ++ dda.queue.map fun (e : DdaEvent) => e.addr.toNat).headD 0 else 0
    | none => 0
  toBytes 4 (slotCode g.place.core g.place.slot) ++ toBytes 4 o.task ++ toBytes 4 o.launch.toNat ++ toBytes 1 o.group
    ++ toBytes 1 w.kind ++ toBytes 1 marks ++ toBytes 1 g.under.length ++ toBytes 8 o.teamIdx.toNat
    ++ pcsBytes ((if g.run.isParked then o.epc else o.pcs).map fun e a => if Eng.present (Config.isTile g.place.core) e then a else 0)
    ++ toBytes 8 ((o.cmds.head?.map fun c => c.addr.toNat).getD 0)
    ++ toBytes 8 ((o.xcmds.head?.map fun c => c.addr.toNat).getD 0) ++ toBytes 8 dhead
    ++ toBytes 8 obj.toNat ++ toBytes 4 owner
    ++ toBytes 4 (if w.kind = 2 || w.kind = 7 || w.kind = 8 then w.detail else 0)
    ++ toBytes 8 ((s.dieAt (Config.coreDie g.place.core)).cyc - g.progress) ++ toBytes 8 0

/-- Groups in the order of their slots (R15). -/
def insertSlot (g : Group) : List Group → List Group
  | [] => [g]
  | h :: t => if g.place.slot ≤ h.place.slot then g :: h :: t else h :: insertSlot g t

/-- %HANGT in force for a group at its line (R33, R404). -/
def State.hangtOf (s : State) (g : Group) : Nat := match g.occ.line with | some l => l.seen.hangt | none => (s.ctxAt g.ctx).hangt

/-- Write one hang record for groups of one core; a log that cannot be reached loses it (log 17). -/
def State.logHang (s : State) (ctx core reason : Nat) (gs : List Group) : State :=
  let gs := gs.foldr insertSlot []
  let d := Config.coreDie core
  let head := toBytes 2 0x48A1 ++ toBytes 1 reason ++ toBytes 1 d ++ toBytes 2 (Config.coreIndex core)
    ++ toBytes 2 gs.length ++ toBytes 8 s.tod ++ toBytes 8 (s.dieAt d).cyc
    ++ toBytes 4 (match gs.head? with | some g => s.hangtOf g | none => (s.ctxAt ctx).hangt) ++ toBytes 36 0
  (s.appendLog ctx (s.ctxAt ctx).hanglog (head ++ gs.flatMap s.hangEntry)).getD s

/-- Cycles without progress of a group (R366). -/
def State.stall (s : State) (g : Group) : Nat := (s.dieAt (Config.coreDie g.place.core)).cyc - g.progress

/-- HANG_TIMER_EXPIRY (R366): a group that has made no progress for %HANGT cycles, and every such group of its core. -/
def execHangTimerExpiry (gid : Nat) (s : State) : Out :=
  match s.group? gid with
  | none => .next s
  | some g =>
    let due (h : Group) : Bool := !h.recorded && h.ctx == g.ctx && h.place.core == g.place.core
      && ((s.hangWait h).isSome || h.token?.isSome) && decide (s.hangtOf h ≤ s.stall h)
    if !due g then .next s
    else
      let gs := s.groups.filter due
      let t := s.logHang g.ctx g.place.core (if (s.hangWait g).isNone then 3 else 0) gs
      .next (gs.foldl (fun (t : State) (h : Group) => t.modGroup h.gid fun h => { h with recorded := true }) t)

end Sys2Proof.Machine
end

