-- ==== Sys2Proof/Machine/Tasks.lean ====
section
/-! DEFINITION. SPAWN, futures, locks, YIELD, CJOIN, VGIVE and VCLAIM (R306 to R316, R322 to R325). -/

namespace Sys2Proof.Machine

/-! ## SPAWN (R306) -/

/-- The checks of a card (R306); the ENTRY's alignment is looked at first among its fields' faults of another cause. -/
def State.cardOk (s : State) (n card : Nat) : Bool :=
  let flags := fieldAt card 0x17 1
  let tile := cardTile card
  fieldAt card 0x10 4 == n && fieldAt card 0x14 1 == 0
    && decide (fieldAt card 0x15 1 ≤ 2) && decide (fieldAt card 0x16 1 ≤ 7) && flags / 8 == 0
    && decide (8 ≤ fieldAt card 0x18 2) && decide (fieldAt card 0x18 2 ≤ 128) && fieldAt card 0x18 2 % 8 == 0
    && fieldAt card 0x1A 2 % 16 == 0 && decide (fieldAt card 0x1A 2 ≤ Config.lanePrivBytes tile)
    && fieldAt card 0x50 16 == 0
    && (List.range 4).all (fun i =>
        let u := fieldAt card (0x20 + 4 * i) 4
        u == 0 || (u != n && decide (u < s.ctx.ncard)))
    && decide (fieldAt card 0x38 4 ≤ 65535)
    && fieldAt card 0x40 8 != 0 && fieldAt card 0x40 8 % 64 == 0
    && (fieldAt card 0x38 4 == 0 || fieldAt card 0x30 8 % 8 == 0)

/-- What the device carries for a task that the occupant in focus creates (R13, R300); a priority that it has inherited already lasts
(R309). -/
def State.childInfo (s : State) (n : Nat) : TaskInfo :=
  let team := if s.occ.task = 0 then s.occ.team
    else ((s.taskInfo? s.me.ctx s.occ.task).map fun (t : TaskInfo) => t.teamUid).getD 0
  { TaskInfo.fresh s.me.ctx n with
    launch := s.occ.launch, teamIdx := s.occ.teamIdx, teamUid := team,
    inherited := ((s.taskInfo? s.me.ctx n).map (·.inherited)).getD 0 }

def execSpawn (g : KG) (a : BitVec 6) (s : State) : Out :=
  kDo g 1 s fun s => do
    let x := (s.getS a).toNat
    let n := x % 2 ^ 32
    let bad := s.faultAt .k 0x0B (BitVec.ofNat 64 n)
    require (x / 2 ^ 32 == 0) bad
    require (n != 0 && decide (n < s.ctx.ncard)) bad
    let at' := BitVec.ofNat 64 (s.cardAddr s.me.ctx n)
    let k ← s.globalKey at' .read {}
    s.checkRanges [s.range 0 0 at'.toNat 128 true]
    s.checkLost at' k 128
    let s := s.drain
    let card := s.mem.getN k 128
    require (s.cardOk n card) bad
    require (fieldAt card 0 8 % 32 == 0) (.trap 4 ({} : MemInfo).bits (BitVec.ofNat 64 (fieldAt card 0 8)))
    let ctx := s.me.ctx
    let s ← s.reach 0 at' (s.setCard ctx n 0x3C 4 s.occ.task)
    let ready := fieldAt card 0x1C 4 == 0
    let s ← s.reach 0 at' (s.setCard ctx n 0x14 1 (if ready then 2 else 1))
    let s : State := { s with tasks := (s.tasks.filter fun t => !(t.ctx == ctx && t.task == n)) ++ [s.childInfo n] }
    .ok (if ready then s.makeReady ctx n card else s)

/-! ## AWAIT and FSET (R307, R311) -/

/-- How a helping instruction stands: done, or going on with another state, or waiting on an object with an owner to
whom priority is passed. -/
inductive Help where
  | done (t : State)
  | moved (t : State)
  | held (owner : Nat) (inherits : Bool)

/-- Whether a task is an occupant of the slot in focus. -/
def Group.occupies (g : Group) (task : Nat) : Bool := g.occs.any fun o => o.task == task

/-- The wait cycle of R307 and R312: fault 0x0D with a hang record. -/
def State.waitCycle (s : State) (kind : Nat) (obj : DWord) (owner : Nat) : State :=
  let w : Wait := { kind, obj, owner, detail := 0, since := s.cyc }
  let t := s.mapOcc fun o => { o with wait := some w }
  (({ t.logHang s.me.ctx s.me.place.core 1 [t.me] with me := s.me } : State)).trap
    { code := 0x0D, eng := .k, info := BitVec.ofNat 64 owner, addr := s.pcOf .k } (s.pcOf .k)

/-- Pass priority to an owner (R309). -/
def State.passPrio (s : State) (owner : Nat) : State := s.inherit s.me.ctx owner s.myPrio (s.tasks.length + 1)

def State.awaitOnce (s : State) (a : DWord) (d : BitVec 6) (q : BitVec 3) : Act Help := do
  let k ← s.objectKey .k a
  let s := s.drain
  let st := s.mem.getN (k + 14) 1
  let ill := s.faultAt .k 0x0B
  if st = 1 || st = 2 then
    .ok (.done ((((s.countObject k false).setS d (BitVec.ofNat 64 (s.mem.getN k 8)))).setQ q (st == 1)))
  else if 2 < st then .error ill
  else
    let owner := s.mem.getN (k + 8) 4
    require (decide (owner < s.ctx.ncard)) ill
    if owner = 0 then .ok (.held 0 false)
    else if s.me.occupies owner then .ok (.moved (s.waitCycle 4 a owner))
    else if s.adoptable owner then (s.reach 0 (BitVec.ofNat 64 (s.cardAddr s.me.ctx owner)) (s.adopt owner)).map .moved
    else .ok (.held owner true)

/-- A helping instruction begins again each time it is looked at: a wait that goes on keeps its place, that on the range checker too
(R366). -/
def helping (s : State) (kind : Nat) (obj : DWord) (once : State → Act Help) : Out :=
  match once s.endWait with
  | .ok (.done t) => .next (t.advance .k 1)
  | .ok (.moved t) => .next t
  | .ok (.held owner inherits) => .next ((if inherits then s.passPrio owner else s).waitOn kind obj owner)
  | .error (.wait kd ob ow dt) => .next ((if (s.occ.sameWait kd ob).isSome then s else s.endWait).beginWait kd ob ow dt)
  | .error st => s.endWait.stop .k 1 st

def execAwait (g : KG) (d a : BitVec 6) (q : BitVec 3) (s : State) : Out :=
  if s.guard g then helping s 4 (s.getS a) fun s => s.awaitOnce (s.getS a) d q
  else .next (s.advance .k 1)

def execFset (g : KG) (a b : BitVec 6) (s : State) : Out :=
  kDo g 1 s fun s => do
    let k ← s.objectKey .k (s.getS a)
    let s := s.drain
    require (s.mem.getN (k + 14) 1 == 0) (s.faultAt .k 0x0B)
    .ok (((s.countObject k true).poke k (toBytes 8 (s.getS b).toNat)).poke (k + 14) (toBytes 1 1))

/-! ## LOCKA and LOCKR (R312, R313) -/

/-- One pass of the loop of R312; `try'` names the q-register of LOCKA.TRY. A holder that is no card's id takes the instruction's fault
(R297). -/
def State.lockOnce (s : State) (a : DWord) (try' : Option (BitVec 3)) : Act Help := do
  let k ← s.objectKey .k a
  let s := s.drain
  let h := s.holder
  let holder := s.mem.getN k 4
  let fault := s.faultAt .k 0x0B (BitVec.ofNat 64 holder)
  let give (s : State) (x : Bool) : State := match try' with | some q => s.setQ q x | none => s
  if holder = 0 then .ok (.done (give ((s.countObject k true).poke k (toBytes 4 h)) true))
  else
    require (holder != h) fault
    if holder / 2 ^ 31 = 0 then
      if s.me.occupies holder then .ok (.moved (s.waitCycle 5 a holder))
      else
        require (decide (holder < s.ctx.ncard)) fault
        let st := s.cardState s.me.ctx holder
        require (st != 5 && st != 6) fault
        if st = 4 && s.adoptable holder then (s.reach 0 (BitVec.ofNat 64 (s.cardAddr s.me.ctx holder)) (s.adopt holder)).map .moved
        else match try' with
          | some _ => .ok (.done (give ((s.countObject k false).passPrio holder) false))
          | none => .ok (.held holder true)
    else match try' with
      | some _ => .ok (.done (give (s.countObject k false) false))
      | none => .ok (.held holder false)

def execLocka (g : KG) (a : BitVec 6) (s : State) : Out :=
  if s.guard g then helping s 5 (s.getS a) fun s => s.lockOnce (s.getS a) none else .next (s.advance .k 1)

def execLockaTry (g : KG) (q : BitVec 3) (a : BitVec 6) (s : State) : Out :=
  if s.guard g then helping s 5 (s.getS a) fun s => s.lockOnce (s.getS a) (some q) else .next (s.advance .k 1)

def execLockr (g : KG) (a : BitVec 6) (s : State) : Out :=
  kDo g 1 s fun s => do
    let k ← s.objectKey .k (s.getS a)
    let s := s.drain
    require (s.mem.getN k 4 == s.holder) (s.faultAt .k 0x0B)
    .ok ((s.countObject k true).poke k (toBytes 4 0))

/-! ## YIELD (R315) -/

/-- Whether some waiting item could run in the slot's stead (R315): a task of the home cluster's ready queue, or an unplaced team. -/
def State.yields (s : State) : Bool :=
  let home := match s.taskInfo? s.me.ctx s.occ.task with
    | some t => t.home
    | none => (s.die, Config.clusterOf s.me.place.core)
  let p := s.myPrio
  (s.ready.any fun (r : Ready) => r.slot.isNone && r.die == home.1 && r.cluster == home.2 && decide (p ≤ (s.readyItem r).prio)
      && !(s.readyItem r).fits)
    || (s.heldLaunches home.1).any fun (l : Launch) =>
      (match l.bound with | some (_, c, _) => c == home.2 | none => true)
        && l.record.tile == s.tile && decide (p ≤ l.record.prio) && !s.teamFits l home.1 home.2

def execYield (g : KG) (s : State) : Out :=
  kDo g 1 s fun s =>
    if s.occ.task ≠ 0 && s.me.under.isEmpty && s.yields then .error (.event 0x1F (1 <<< 62) 0) else .ok s

/-! ## CJOIN (R322) -/

def execCjoin (g : KG) (a : BitVec 6) (s : State) : Out :=
  kDo g 1 s fun s => do
    let addr := s.getS a
    require (addr.toNat % 8 == 0) (.trap 4 ({} : MemInfo).bits addr)
    let k ← s.globalKey addr .read {}
    s.checkRanges [s.range 0 0 addr.toNat 8 false]
    s.checkLost addr k 8
    require (s.drain.mem.getN k 8 == 0) (.wait 6 (packObject 0 0 addr) 0 0)
    .ok (s.drain.countRead k 8)

/-! ## VGIVE and VCLAIM (R323 to R325, R426 to R428) -/

/-- The team of the group in focus stands on a core pair, where no credit is kept (R428). -/
def State.onPair (s : State) : Bool :=
  match s.team? s.occ.team with
  | some t => decide (2 ≤ t.cores.length)
  | none => false

def execVgive (g : KG) (imm : BitVec 16) (s : State) : Out :=
  kDo g 1 s fun s => do
    let n := imm.toNat
    let o := s.occ
    require (n % 4 == 0 && decide (4 ≤ n) && decide (n + 8 ≤ o.count) && s.me.under.isEmpty && !s.onPair) (s.faultAt .k 0x0B)
    .ok ((s.modTeam o.team fun t => { t with credit := t.credit + n * o.width }).mapOcc fun o =>
      { o with count := o.count - n, regs := { o.regs with v := o.regs.v.take (o.count - n) } })

/-- Whether a group waits in VCLAIM, or in BAR for a phase that has not completed, spinning or parked (R325). -/
def Group.claimStuck (g : Group) : Bool :=
  match g.waiting with
  | some w => w.kind == 7 || (w.kind == 1 && !(match g.occ.barWait with | some (_, _, done) => done | none => false))
  | none => false

/-- Whether the team stands in a register-claim deadlock, its head claim being that of the group in focus for n
registers (R325). -/
def State.claimDeadlock (s : State) (t : Team) (n : Nat) : Bool :=
  t.claims.head? == some s.occ.group && decide (t.credit < n * s.occ.width)
    && (s.teamGroups t.uid).all fun (g : Group) => g.gid == s.me.gid || g.claimStuck

/-- VCLAIM: the claim takes its place in the team's order and is granted at the head when the credit suffices. -/
def State.claim (s : State) (n : Nat) : State × Bool :=
  let o := s.occ
  match s.team? o.team with
  | none => (s, false)
  | some t =>
    let order := if t.claims.contains o.group then t.claims else t.claims ++ [o.group]
    if order.head? = some o.group && n * o.width ≤ t.credit then
      ((s.modTeam o.team fun t => { t with credit := t.credit - n * o.width, claims := order.drop 1 }).mapOcc
        fun o => { o with count := o.count + n, regs := { o.regs with v := o.regs.v.take o.count } }, true)
    else (s.modTeam o.team fun t => { t with claims := order }, false)

/-- A group of a team in a register-claim deadlock at the head of the order takes fault 0x0E, which starts the abort of
its team (R325, R374). The hang record holds every group of the team that has not ended (R430): of a task, a team of one, its own
(R323). -/
def State.claimFault (s : State) (t : Team) (n : Nat) : State :=
  let o := s.occ
  let s := s.beginWait 7 0 0 n
  let s := s.logHang s.me.ctx s.me.place.core 2 (if o.task = 0 then s.teamGroups o.team else [s.me])
  let s := s.startAbort t.uid s.me.gid (s.abortBy 0x0E (s.pcOf .k).toNat)
  s.trap { code := 0x0E, eng := .k, info := BitVec.ofNat 64 (n + t.credit * 2 ^ 16), addr := s.pcOf .k } (s.pcOf .k)

/-- The claim at the head of a team's order, where its group runs and waits in VCLAIM for n registers (R324). -/
def State.headClaim (s : State) (t : Team) : Option (Group × Nat) := do
  let n ← t.claims.head?
  let g ← s.groups.find? fun (g : Group) => g.bottom.team == t.uid && g.bottom.group == n && g.run == .running && g.under.isEmpty
  let w ← g.occ.wait
  if w.kind = 7 then some (g, w.detail) else none

/-- Claims of a team are granted from the head of its order until the credit is exhausted or the order empty: the groups' VCLAIMs
complete (R324, R427). A parked claim keeps its place and is granted when its group has come back. `fuel` bounds the claims. -/
def State.grantClaims (s : State) (team : Nat) : Nat → State
  | 0 => s
  | fuel + 1 =>
    match (s.team? team).bind s.headClaim with
    | some (g, n) =>
      if (({ s with me := g } : State).claim n).2 then (s.onGroup g.gid fun u => (u.claim n).1.advance .k 1).grantClaims team fuel else s
    | none => s

/-- The claims of every team as a cycle leaves them: granted as far as the credits go, and a register-claim deadlock takes its fault
(R325, R427). -/
def State.settleClaims (s : State) : State :=
  s.teams.foldl (fun (s : State) t =>
    if t.claims = [] then s
    else
      let s := s.grantClaims t.uid t.claims.length
      match s.team? t.uid with
      | none => s
      | some t =>
        match s.headClaim t with
        | some (g, n) => s.onGroup g.gid fun u => if u.claimDeadlock t n then u.claimFault t n else u
        | none => s) s

def execVclaim (g : KG) (imm : BitVec 16) (s : State) : Out :=
  if !s.guard g then .next (s.advance .k 1)
  else
    let n := imm.toNat
    if !(n % 4 == 0 && decide (4 ≤ n) && decide (n + s.occ.count ≤ 128) && s.me.under.isEmpty && !s.onPair) then
      s.stop .k 1 (s.faultAt .k 0x0B)
    else
      let (t, granted) := s.claim n
      if granted then .next (t.advance .k 1)
      else match t.team? s.occ.team with
        | some tm =>
          if t.claimDeadlock tm n then .next (t.claimFault tm n)
          else .next (t.beginWait 7 0 0 n)
        | none => .next (t.beginWait 7 0 0 n)

end Sys2Proof.Machine
end

