-- ==== Sys2Proof/Machine/Sync.lean ====
section
/-! DEFINITION. Barriers (R127 to R130), memory watches (R131 to R133), TRAP and BKPT (R134 to R136, R388, R389), and
power tokens (R139, R361). -/

namespace Sys2Proof.Machine

/-! ## BAR -/

/-- The group in focus arrives at a barrier of its team with count k. -/
def State.arrive (s : State) (id k : Nat) : Act State := do
  let o := s.occ
  match s.team? o.team with
  | none => .error (s.faultAt .k 0x0B)
  | some t =>
    let b := t.barrier id
    require (!b.opened || b.expected == k) (s.faultAt .k 0x0B)
    let bit : Word := 1 <<< o.group
    let s := (s.modTeam t.uid fun t => t.setBarrier id { b with arrived := b.arrived ||| bit, expected := k, opened := true }).mapOcc
      fun o => { o with barWait := some (id, b.phase, false) }
    .ok (s.tryBarrier t.uid id)

/-- Whether the barrier that the occupant waits at has let it go, or still counts it as arrived (R383). -/
def State.barState (s : State) (id : Nat) : Option Bool :=
  match s.occ.barWait, s.team? s.occ.team with
  | some (i, ph, done), some t =>
    if i ≠ id then none
    else if done || (t.barrier id).phase != ph then some true
    else if (t.barrier id).arrived.getLsbD s.occ.group then some false
    else none
  | _, _ => none

def execBar (g : KG) (id : BitVec 4) (a : BitVec 6) (s : State) : Out :=
  if !s.guard g then .next (s.advance .k 1)
  else
    let s := s.drain
    let i := id.toNat
    let r : Act State := match s.barState i with
      | some _ => .ok s
      | none => do
        let k := (s.getS a).toNat
        require (decide (k ≤ s.occ.ngroup)) (s.faultAt .k 0x0B)
        s.arrive i k
    match r with
    | .error st => s.stop .k 1 st
    | .ok t =>
      if t.barState i = some true then .next ((t.mapOcc fun o => { o with barWait := none }).advance .k 1)
      else .next (t.beginWait 1 0 0 0)

/-! ## MWATCH and MWAIT -/

def Watch.none : Watch := { armed := false, addr := 0, expect := 0, attrs := 0 }
def Occ.watch (o : Occ) (j : Nat) : Watch := o.watches.getD j Watch.none
def Watch.space (w : Watch) : Nat := w.attrs % 8
def Watch.bytesWide (w : Watch) : Nat := if w.attrs / 64 % 2 = 1 then 8 else 4

def execMwatch (g : KG) (ws : BitVec 2) (a b : BitVec 6) (sp sc : BitVec 3) (wide : Bool) (s : State) : Out :=
  kDo g 2 s fun s => do
    let addr := s.getS a
    require (sp == 0 || addr.toNat / 2 ^ 32 == 0) (.trap 7 ({} : MemInfo).bits addr)
    let w : Watch := { armed := true, addr, expect := s.getS b, attrs := sp.toNat + 8 * sc.toNat + 64 * wide.toNat }
    let _ ← s.keyOf sp.toNat 0 0 addr w.bytesWide .read {}
    .ok (s.mapOcc fun o => { o with watches := setAt Watch.none o.watches ws.toNat w })

/-- Whether the location of a watch slot differs from its expected value. -/
def State.watchChanged (s : State) (w : Watch) : Act Bool := do
  let n := w.bytesWide
  let k ← s.keyOf w.space 0 0 w.addr n .read {}
  s.checkRanges [s.range w.space 0 w.addr.toNat n false]
  s.checkLost w.addr k n
  .ok (s.mem.getN k n != w.expect.toNat % 2 ^ (8 * n))

/-- The slots that an MWAIT names: those of its mask, or every armed one. -/
def Occ.named (o : Occ) (which : Nat) : List Nat :=
  (List.range 4).filter fun j => if which = 0 then (o.watch j).armed else which.testBit j

/-- The named slots that have changed, as a mask. -/
def State.changedMask (s : State) : List Nat → Act Nat
  | [] => .ok 0
  | j :: js => do
    let c ← s.watchChanged (s.occ.watch j)
    let r ← s.changedMask js
    .ok (r + if c then 2 ^ j else 0)

/-- The reads of an MWAIT that completes are counted (R434). -/
def State.countWatches (s : State) (ns : List Nat) : State :=
  ns.foldl (fun (t : State) j =>
    let w := s.occ.watch j
    match s.keyOf w.space 0 0 w.addr w.bytesWide .read {} with
    | .ok k => t.countRead k w.bytesWide
    | .error _ => t) s

def State.endMwait (s : State) (d : Nat) (x : DWord) : State :=
  (s.mapOcc fun o => { o with mwait := none }.setS d x).advance .k 1

def execMwait (g : KG) (d a : BitVec 6) (which : BitVec 4) (s : State) : Out :=
  if !s.guard g then .next (s.advance .k 1)
  else
    let s := s.drain
    let pc := s.pcOf .k
    let start := match s.occ.mwait with | some (p, st, _, _) => if p = pc then st else s.cyc | none => s.cyc
    let limit := (s.getS a).toNat
    let ns := s.occ.named which.toNat
    let r : Act (Option DWord) := do
      require (ns != [] && ns.all fun j => (s.occ.watch j).armed) (s.faultAt .k 0x0B)
      let f ← s.changedMask ns
      if f ≠ 0 then .ok (some (BitVec.ofNat 64 f))
      else if limit ≠ 0 && decide (limit ≤ s.cyc - start) then .ok (some 0)
      else .ok none
    match r with
    | .error st => s.stop .k 1 st
    | .ok (some x) => .next ((s.countWatches ns).endMwait d.toNat x)
    | .ok none =>
      let w := s.occ.watch (ns.headD 0)
      .next ((s.mapOcc fun o => { o with mwait := some (pc, start, d.toNat, limit, which.toNat) }).beginWait 9
        (packObject w.space 0 w.addr) 0 0)

/-! ## TRAP and BKPT -/

/-- Every other running group of the context takes 0x16 at its next boundary (R389). -/
def State.allStop (s : State) : State :=
  if s.shared.flags % 2 = 1 then
    { s with others := s.others.map fun g =>
        if g.ctx == s.me.ctx && g.run == .running then
          { g with occ := { g.occ with causes := g.occ.causes ++ [{ code := 0x16, eng := .k, info := 1 <<< 63, addr := 0 }] } }
        else g }
  else s

/-- After an instruction of the group in focus: a single step ends (R390). -/
def State.singleStep (s : State) (e : Eng) (p : DWord) (r : Out) : Out :=
  match r with
  | .next t =>
    if s.occ.stepping && t.occ.stepping && t.me.gid == s.me.gid && t.me.under.length == s.me.under.length
        && t.occ.wait.isNone then
      .next ((if t.shared.flags % 2 = 1 then t.allStop else t).trap { code := 0x17, eng := e, info := 0, addr := p } t.position)
    else .next t
  | r => r

/-- MWAIT_TIMEOUT (R132): the time-out of the MWAIT that the group in focus waits at has passed. Its slots are read once more, and a
slot that has changed comes before the time-out. -/
def execMwaitTimeout (s : State) : Out :=
  match s.occ.mwait, s.occ.wait with
  | some (pc, start, d, limit, which), some w =>
    if w.kind = 9 && pc == s.pcOf .k && limit ≠ 0 && decide (limit ≤ s.cyc - start) then
      s.singleStep .k pc (match s.changedMask (s.occ.named which) with
        | .error st => s.stop .k 1 st
        | .ok f => .next ((s.countWatches (s.occ.named which)).endMwait d (BitVec.ofNat 64 f)))
    else .next s
  | _, _ => .next s

def execTrap (g : KG) (imm : BitVec 16) (s : State) : Out :=
  kDo g 1 s fun s => .error (.event 0x19 (imm.setWidth 64) (s.pcOf .k))

def execBkpt (g : KG) (imm : BitVec 16) (s : State) : Out :=
  let s := if s.guard g && !s.occ.trapLevel then s.allStop else s
  kDo g 1 s fun s => .error (.event 0x16 (imm.setWidth 64) (s.pcOf .k))

/-! ## LEAVE and LEAVR -/

def State.powcompat (s : State) : Bool := s.shared.powcompat % 2 == 1

/-- Take a token of the pool, or wait (kind 15). -/
def State.takeToken (s : State) : Act State := do
  require (s.tokens != 0) (.wait 15 0 0 0)
  .ok ({ s with tokens := s.tokens - 1 }.mapOcc fun o => { o with power := true })

def execLeave (g : KG) (s : State) : Out :=
  kDo g 1 s fun s => if s.powcompat && !s.occ.power then s.takeToken else .ok s

def execLeavr (g : KG) (s : State) : Out :=
  kDo g 1 s fun s => .ok (if s.powcompat then s.releasePower else s)

end Sys2Proof.Machine
end

