-- ==== Sys2Proof/Machine/Park.lean ====
section
/-! DEFINITION. RFT and PARK (R137, R138, R374, R442), asynchronous traps (R370), parking waits and their watches (R305, R449),
and the restore of parked groups (R380, R423). -/

namespace Sys2Proof.Machine

/-! ## RFT (R137, R371, R397) -/

/-- The faults of RFT at the %EPC of a present engine. -/
def State.checkEpc (s : State) (e : Eng) : Act Unit := do
  let a := s.occ.epc.get e
  require (a.toNat % 4 == 0 && laneOf a != 0) (.trap 4 ({} : MemInfo).bits a)
  match s.fetch (lineOf64 a) with
  | .error _ => .ok ()
  | .ok ws =>
    require (laneTag (ws.headD 0) (laneOf a) != 15)
      (.trap 1 (lineInfo { lane := laneOf a, tag := 15, sub := 3 }) a)

/-- What no fault of its own has halted of a helper below the running occupant goes on (R379, R397). -/
def Occ.goOn (o : Occ) : Occ :=
  let still (halted : Bool) (uid : Nat) : Bool := halted && o.causes.any fun d => d.cmd == uid
  { o with cmds := o.cmds.map fun c => { c with halted := still c.halted c.uid },
           xcmds := o.xcmds.map fun c => { c with halted := still c.halted c.uid },
           streams := o.streams.map fun w => { w with halted := still w.halted w.uid } }

/-- Halted commands and streams go on. -/
def Occ.unhalt (o : Occ) : Occ :=
  { o with cmds := o.cmds.map fun c => { c with halted := false },
           xcmds := o.xcmds.map fun c => { c with halted := false },
           streams := o.streams.map fun w => { w with halted := false } }

/-- A port that waits for elements counts afresh (R391). -/
def State.restartStalls (s : State) : State :=
  if s.ownsDda then
    let now := s.cyc
    s.modCore s.me.place.core fun c =>
      { c with dda := { c.dda with ports := c.dda.ports.map fun p => { p with held := p.held.map fun _ => now } } }
  else s

/-- The K engine stands after a line that it has not completed (R123, R134, R444): it completes the line before the one at which it
stands. A transfer stands in the branch-outcome queue for the other engines. -/
def State.completeBefore (s : State) : State :=
  let line := lineOf64 s.occ.pcs.k - 32
  match s.occ.flow.complete line with
  | .error n =>
      (s.mapOcc fun o => { o with pcs := o.pcs.set .k (line + 32) }).trap
        { code := 0x1B, eng := .k, info := BitVec.ofNat 64 (1 + 2 * n), addr := line } (line + 32)
  | .ok (f, none) => s.setFlow f
  | .ok (f, some t) =>
      let en : BoqEntry := { addr := line, taken := true, transfer := true, target := t, mask := f.maskOf .k }
      s.mapOcc fun o => { o with
        pcs := o.pcs.set .k (t + 4)
        flow := { f with boq := f.boq ++ [en], pops := f.pops.set .k (BitVec.ofNat 64 (f.boq.length + 1)) } }

/-- The entry capture is installed, and each engine resumes at its %EPC. -/
def State.install (s : State) : State :=
  let old := s.occ
  let cap := old.capture.getD { flow := { Flow.empty with mask := allLanes old.width }, s := [], q := 0, v0 := [] }
  let redo := (old.tcause.toNat % 64 == 0x1B && old.tinfo.getLsbD 0) || cap.atEnd == some old.epc.k
  let s := s.leaveLine.unpark.unwatch s.me.gid
  let s : State := { s with me := { s.me with under := s.me.under.map Occ.goOn } }
  let s := s.mapOcc fun o => { o.unhalt with
    flow := cap.flow, regs := { o.regs with s := cap.s, q := cap.q, v := setAt [] o.regs.v 0 cap.v0 },
    pcs := old.epc, appending := o.appending.filter fun w => w.1 == old.epc.m, capture := none,
    sysOld := if cap.oldLine == lineOf64 old.epc.k then cap.old else [],
    mwait := cap.mwait.filter fun w => w.1 == old.epc.k, trapLevel := false, stepping := old.tcause.getLsbD 15,
    tcause := o.tcause &&& ~~~(0x8000 : DWord), wait := none }
  let t := ((s.freezeDda false).restartStalls.resumeNest).progressed
  if redo then t.completeBefore else t

/-- A resumed team runs only when every group of it has been restored: stands at its RFT, or has passed it (R382). -/
def State.teamWhole (s : State) : Bool :=
  match s.team? s.me.bottom.team with
  | some t => !t.resuming || (s.teamGroups t.uid).all fun (g : Group) =>
      g.gid == s.me.gid || g.run != .running || !g.occ.trapLevel
        || match g.occ.wait with | some w => w.kind == 0 | none => false
  | none => true

/-- Whether RFT acts as PARK with fn 2 (R370). -/
def Occ.doomed (o : Occ) : Bool := o.tcause.getLsbD 10

/-- Commands that a PARK with fn 2 discards: those halted (R374). -/
def Occ.discardHalted (o : Occ) : Occ :=
  { o with cmds := o.cmds.filter fun c => !c.halted, xcmds := o.xcmds.filter fun c => !c.halted }

/-- Every mode-3 move of the slot that has not taken all its entries finds its tap: the group owns the DDA, and the tap is bound to
sink 3 (R442). -/
def State.movesBound (s : State) : Bool :=
  (s.me.occs.flatMap (·.cmds)).all fun c => !c.paced || (s.holdsDda && s.tapSink c.move.tap == 3)

/-- The occupant ends as PARK with fn 2 ends it. -/
def State.parkEnd (s : State) : Act State := do
  let s := s.mapOcc Occ.discardHalted
  s.commandsDone
  .ok s.endAbnormally

/-- A power token held at the save is taken again, by every occupant of the slot that held one (R361). -/
def Occ.retake (power : Bool) (o : Occ) : Occ := if o.owed then { o with power := o.power || power, owed := false } else o

/-- RFT takes the tokens of the slot's occupants, or waits (kind 15) until there are as many; while %POWCOMPAT is 0 it takes none. -/
def State.retakeTokens (s : State) : Act State := do
  let n := if s.powcompat then (s.me.occs.filter (·.owed)).length else 0
  require (decide (n ≤ s.tokens)) (.wait 15 0 0 0)
  let take := Occ.retake s.powcompat
  .ok { s with tokens := s.tokens - n, me := { s.me with occ := take s.me.occ, under := s.me.under.map take } }

def execRft (s : State) : Out :=
  run .k 1 s do
    require s.occ.trapLevel (s.faultAt .k 3)
    if s.occ.doomed then s.parkEnd
    else
      (allEngines.filter (Eng.present s.tile)).forM s.checkEpc
      require s.movesBound (s.faultAt .k 0x0B)
      require s.teamWhole (.wait 0 0 0 0)
      let s ← s.retakeTokens
      .ok (s.install.modTeam s.me.bottom.team fun t => { t with resuming := false })

/-! ## PARK (R138, R219, R379) -/

/-- The group in focus leaves its slot and goes among the parked ones. -/
def State.goParked (s : State) (r : Run) : State :=
  { s with me := Group.vacant, others := s.others ++ [{ s.me with run := r }] }

/-- A DDA that any occupant of the slot owns is given up (R251). -/
def State.releaseSlotDda (s : State) : State :=
  s.modCore s.me.place.core fun c => match c.dda.owner with
    | some (g, _) => if g = s.me.gid then { c with dda := c.dda.release } else c
    | none => c

/-- What a parked occupant keeps: commands and streams halted, what a halted nest declares, its token given up. -/
def State.setAside (s : State) : State :=
  let power := s.occ.power
  let s := s.releasePower
  s.mapOcc fun o => { o with
    cmds := o.cmds.map MemCmd.atElement,
    streams := o.streams.map fun w => { w.rewind with halted := true },
    owed := o.owed || power, nestHeld := [], wait := none }

/-- Every occupant of the slot gives up what a PARK releases (R219, R251, R361). -/
def State.setAsideAll (s : State) : State :=
  let n := s.me.under.length
  (List.range n).foldl (fun (s : State) j =>
    match s.me.under[j]? with
    | some o => s.onOcc (fun p => p.team == o.team && p.task == o.task) State.setAside
    | none => s) s.releaseSlotDda.setAside

/-- A bottom task is parked: STATE 4 (R298). -/
def State.parkTask (s : State) : Option State :=
  let b := s.me.bottom
  if b.task = 0 then some s
  else
    let gid := s.me.gid
    let home := (s.die, Config.clusterOf s.me.place.core)
    let t := s.modTask s.me.ctx b.task fun t => { t with parkedIn := some gid, home }
    (t.modTeam b.team fun tm => { tm with parked := true }).setCard s.me.ctx b.task 0x14 1 4

/-- A task that parks because its team is pre-empted comes back when its team is resumed (R298, R299). -/
def State.withTeam (s : State) (b : Occ) : Bool :=
  (s.occ.tcause.toNat % 64 == 0x15 || s.occ.causes.any (·.code == 0x15)) &&
    match (s.taskInfo? s.me.ctx b.task).bind fun (i : TaskInfo) => s.team? i.teamUid with
    | some t => (t.preempting && !t.relocate) || (t.parked && !t.resuming)
    | none => false

/-- The entry of a parked slot of a team with an adoption stack (R423). -/
def State.enqueueSlot (s : State) (g : Group) : State :=
  if g.under = [] then s
  else
    let d := Config.coreDie g.place.core
    { s with ready := s.ready ++ [{ die := d, cluster := Config.clusterOf g.place.core, ctx := g.ctx, task := 0,
                                    stamp := (s.dieAt d).cyc, core := g.place.core, passed := false, slot := some g.gid }] }

/-- A group that parks while an abort has it end is ended without running (R373, R385). -/
def State.endParked (s : State) (gid : Nat) (causes : List Cause) : State :=
  match causes.find? Cause.ofAbort with
  | some c => s.onFocus gid fun s => (s.dropParkedWait gid).dropOccs c.code (s.me.under.length + 1)
  | none => s

/-- PARK with fn 0 or 1. DESIGN CHOICE (log 70): it waits, as kind 25, while X commands of the occupant are incomplete, which the
record has no place for. A pre-emption that came at trap level is taken with it (R373, R382). -/
def State.park (s : State) (fn : Nat) : Act State := do
  let base := s.me.bottom.saveptr
  require (base != 0) (s.faultAt .k 0x0B)
  require (s.occ.xcmds == []) (.wait 25 0 0 0)
  let cap := s.occ.capture.getD { flow := s.occ.flow, s := s.occ.regs.s, q := s.occ.regs.q, v0 := s.occ.regs.v.getD 0 [] }
  let s := s.drain.leaveLine
  let s ← s.writeRecord base fn cap s.holdsDda
  let s ← s.reach 0 (BitVec.ofNat 64 (s.cardAddr s.me.ctx s.me.bottom.task)) s.parkTask
  let s := s.setAsideAll
  let b := s.me.bottom
  let home := (s.die, Config.clusterOf s.me.place.core)
  let ctx := s.me.ctx
  let asked := s.occ.causes.any (·.code == 0x15)
  let withTeam := s.withTeam b
  let causes := s.occ.causes
  let gid := s.me.gid
  let s := s.mapOcc fun o => { o with causes := o.causes.filter fun c => c.code != 0x15 }
  let t : State :=
    if fn = 0 && !asked then
      match s.occ.parked with
      | some _ => s.goParked (.waitPark false)
      | none =>
        let t := s.goParked (.waitPark true)
        if b.task ≠ 0 then t.enqueue ctx b.task home.1 home.2 s.me.place.core else t.enqueueSlot s.me
    else
      let t := s.goParked .preemptPark
      if b.task ≠ 0 && !withTeam then t.enqueue ctx b.task home.1 home.2 s.me.place.core else t
  .ok (t.endParked gid causes)

def execParkWait (s : State) : Out :=
  run .k 1 s do
    require s.occ.trapLevel (s.faultAt .k 3)
    s.park 0
def execParkPreempt (s : State) : Out :=
  run .k 1 s do
    require s.occ.trapLevel (s.faultAt .k 3)
    s.park 1
def execParkEnd (s : State) : Out :=
  run .k 1 s do
    require s.occ.trapLevel (s.faultAt .k 3)
    s.parkEnd

/-! ## Asynchronous traps (R370, R385, R397) -/

/-- Take a cause at the boundary where the group in focus stands. -/
def State.takeCause (s : State) (c : Cause) : State :=
  let s := s.endWait
  let s := if (c.code = 0x16 || c.code = 0x17) && !c.info.getLsbD 63 then s.allStop else s
  (s.mapOcc fun o => { o with causes := (o.causes.erase c).filter fun d => d.cmd == 0 }).trap c s.position

/-- The cause that comes first: of the halted commands and streams the earliest in program order (R397), which is that of their handles,
else the oldest. -/
def Occ.firstCause (o : Occ) : Option Cause :=
  match o.causes with
  | [] => none
  | c :: _ =>
    if c.cmd = 0 then some c
    else
      (o.causes.filter fun d => d.cmd != 0).foldl (fun (a : Option Cause) d =>
        match a with | some b => if d.cmd < b.cmd then some d else a | none => some d) none

/-- An abort kills the running task of an adoption stack, once its commands that no fault has halted have completed; the cause goes on to
the occupant below (R375, R385). -/
def State.killAbove (s : State) (code : Nat) : State :=
  let t := s.mapOcc Occ.discardHalted
  if t.occ.cmds.isEmpty && t.occ.xcmds.isEmpty then t.dropOcc code else t

/-- The group in focus, at user level, takes its first cause; an abort first kills the tasks above its bottom. -/
def State.asyncTrap (s : State) : State :=
  if s.me.run ≠ .running || s.occ.trapLevel then s
  else if let some en := s.queued then s.follow en
  else if let (some c, false) := (s.occ.causes.find? Cause.ofAbort, s.me.under.isEmpty) then s.killAbove c.code
  else match s.occ.firstCause with
    | none => s
    | some c => s.takeCause c

/-- ASYNC_TRAP (R370). -/
def execAsyncTrap (gid : Nat) (s : State) : Out := .next (s.onFocus gid State.asyncTrap)

/-! ## Parking a wait (R305, R449) -/

/-- The waits that park. -/
def Wait.parks (w : Wait) : Bool :=
  [1, 2, 3, 4, 5, 6, 7, 8, 9, 10, 11, 12, 13, 16, 17].contains w.kind || (w.kind == 15 && w.detail == 0)

/-- The key of n bytes at an offset of a waited object, as the group in focus reaches it. -/
def State.waitedKey (s : State) (obj : DWord) (off n : Nat) : Option Nat :=
  match s.keyOf (packedSpace obj) (packedPeer obj) 0 (packedOff obj + BitVec.ofNat 64 off) n .read {} with
  | .ok k => some k
  | .error _ => none

/-- The slots that the MWAIT of the group in focus names, while it waits or as the trap broke it off (R132, R133). -/
def State.mwaitNames (s : State) : Nat :=
  match s.occ.mwait, s.occ.capture.bind Capture.mwait with
  | some w, _ | none, some w => w.2.2.2.2
  | none, none => 0

/-- The memory that the hardware watch of a wait covers (R138, R305): of a future or a lock all but its WAITERS, which the watches
themselves count in; none where it cannot be reached. -/
def State.watchBytes (s : State) (w : Wait) : List (Nat × Nat) :=
  let at' (off n : Nat) : List (Nat × Nat) := ((s.waitedKey w.obj off n).map fun k => (k, k + n)).toList
  let set := s.setRef (packedSpace w.obj) (packedOff w.obj)
  match w.kind with
  | 2 => at' 0 4 ++ at' 4 4
  | 3 => [(s.ringKey w, s.ringKey w + 8)]
  | 4 => ((s.objectKey? w.obj).map fun k => [(k, k + 12), (k + 14, k + 16)]).getD []
  | 5 => ((s.objectKey? w.obj).map fun k => [(k, k + 4)]).getD []
  | 6 => at' 0 8
  | 8 => at' 0 4
  | 9 => ((s.occ.named s.mwaitNames).map s.occ.watch).flatMap fun m =>
      if m.armed then
        match s.keyOf m.space 0 0 m.addr m.bytesWide .read {} with | .ok k => [(k, k + m.bytesWide)] | .error _ => []
      else []
  | 10 | 11 => (List.range (4 * (1 + (s.wGet set 2 1).getD 0))).flatMap fun j =>
      ((s.setKey set (set.off + BitVec.ofNat 64 (16 * j)) 16).map fun k => (k, k + 16)).toList
  | _ => []

/-- What the object of a wait on no memory reads (R305): the credit of the team, the launches spilled, the power tokens, the owner of
the DDA. -/
def State.waitMark (s : State) (w : Wait) : Nat :=
  match w.kind with
  | 7 => match s.team? s.occ.team with | some t => t.credit | none => 0
  | 12 => s.dieListUsed s.me.ctx s.die
  | 15 => s.tokens
  | 16 => match s.core.dda.owner with | some (g, d) => 16 * g + d + 1 | none => 0
  | _ => 0

/-- A spinning wait of the group in focus has lasted %PARKT cycles: cause 0x1F, with the watch on its object. -/
def State.parkExpiry (s : State) : State :=
  match s.occ.wait with
  | none => s
  | some w =>
    if s.me.run ≠ .running || s.occ.trapLevel || !w.parks || s.cyc - w.since < s.occ.parkt.toNat then s
    else
      let t := (s.enterTrap { code := 0x1F, eng := .k, info := BitVec.ofNat 64 (w.kind * 2 ^ 32), addr := 0 } s.position).mapOcc
        fun o => { o with parked := some { w with mark := s.waitMark w } }
      let gid := s.me.gid
      { t with
        me := { t.me with recorded := s.me.recorded }
        watching := t.watching ++ (s.watchBytes w).map fun r => { gid, lo := r.1, hi := r.2, fired := false } }

/-- PARKT_EXPIRY (R449). -/
def execParktExpiry (gid : Nat) (s : State) : Out := .next (s.onGroup gid State.parkExpiry)

/-! ## Watches (R138, R305) -/

/-- The value of n bytes at an offset of a waited object of the group in focus. -/
def State.objField (s : State) (obj : DWord) (off n : Nat) : Nat :=
  match s.waitedKey obj off n with
  | some k => s.mem.getN k n
  | none => 0

/-- Whether the wait of a parked group in focus could end now. DESIGN CHOICE (log 83): a TWAIT (kind 13) and an MSTAT.WAIT or DSTAT.WAIT
(kind 17), whose commands and whose DDA the PARK has halted and given up, have nothing left that could end them while parked, and the
spec names no event that does: their watch fires at once, and they are tried again when the group is back. -/
def State.waitOver (s : State) (w : Wait) : Bool :=
  let o := s.occ
  match w.kind with
  | 1 => match o.barWait with | some (id, _, _) => s.barState id != some false | none => true
  | 2 => decide (w.detail ≤ s.objField w.obj 0 4) || decide (2 ^ 31 ≤ s.objField w.obj 4 4)
  | 3 => s.mem.getN (s.ringKey w) 4 != 0
  | 4 => (match s.objectKey? w.obj with | some k => s.mem.getN (k + 14) 1 != 0 | none => true)
  | 5 => (match s.objectKey? w.obj with | some k => s.mem.getN k 4 != w.owner | none => true)
  | 6 => s.objField w.obj 0 8 == 0
  | 7 => (match s.team? o.team with
    | some t => t.claims.head? == some o.group && (decide (w.detail * o.width ≤ t.credit) || s.claimDeadlock t w.detail)
    | none => true)
  | 8 => decide (w.detail ≤ s.objField w.obj 0 4)
  | 9 => (o.named s.mwaitNames).any fun j =>
      match s.watchChanged (o.watch j) with | .ok b => b | .error _ => true
  | 10 => s.knownSets.all fun r => r.obj != w.obj || (match s.wGet r 3 1 with | some x => x % 2 == 1 | none => true)
      || (match s.wGet r 2 1 with
          | some n => (List.range n).any fun k => s.held r k != some 0
          | none => true)
  | 11 => s.knownSets.all fun r => r.obj != w.obj ||
      match s.held r w.detail, s.wGet r (listAt w.detail + 8) 4 with
      | some n, some cap => decide (n < cap)
      | _, _ => true
  | 12 => decide (s.dieListUsed s.me.ctx s.die < 4096)
  | 15 => s.tokens != 0
  | 16 => s.core.dda.owner.isNone
  | _ => true

/-- Whether the object of a parked wait of the group in focus has changed since the trap entry, so that its instruction is to be
tried again (R138, R305): its bytes have been written (R133), what it reads has differed in some cycle, or the wait could end. -/
def State.watchFired (s : State) (w : Wait) : Bool :=
  s.waitOver w || w.moved || s.waitMark w != w.mark || s.watching.any fun x => x.gid == s.me.gid && x.fired

/-- What the object of a wait reads is looked at in every cycle from the trap entry on (R138): a change that is undone before PARK is one
too. -/
def State.noteMark (s : State) (o : Occ) : Occ :=
  match o.parked with
  | none => o
  | some w =>
    let x := s.waitMark w
    if x = w.mark then o else { o with parked := some { w with mark := x, moved := true } }

def State.noteMarks (s : State) : State :=
  let look (g : Group) : Group := { g with occ := (s.seenBy g).noteMark g.occ }
  { s with me := look s.me, others := s.others.map look }

/-- Whether an entry of a ready queue is that of a parked group. -/
def Ready.of (r : Ready) (g : Group) : Bool :=
  r.slot == some g.gid || (r.slot == none && r.task != 0 && r.ctx == g.ctx && r.task == g.bottom.task)

/-- A parked slot becomes resumable: a bottom task enters the queue of the cluster in which it parked (R299). -/
def State.requeue (s : State) (gid : Nat) : State :=
  match s.group? gid with
  | none => s
  | some g =>
    let s := (s.dropParkedWait gid).modGroup gid fun g => { g with run := .waitPark true }
    let b := g.bottom
    if b.task = 0 then s.enqueueSlot g
    else
      let home := match s.taskInfo? g.ctx b.task with | some t => t.home | none => (0, 0)
      s.enqueue g.ctx b.task home.1 home.2 g.place.core

/-- Whether group g is parked and the watch on the object of its wait has fired. -/
def State.firedFor (s : State) (g : Group) : Bool :=
  match g.run, g.occ.parked with
  | .waitPark false, some w => (s.seenBy g).watchFired w
  | _, _ => false

/-- The hardware watches re-queue every parked slot whose object has changed, in the cycle of the change (R138, R305, R425). -/
def State.requeueFired (s : State) : State :=
  ((s.groups.filter s.firedFor).map (·.gid)).foldl State.requeue s

/-- WATCH_REQUEUE (R138). -/
def execWatchRequeue (gid : Nat) (s : State) : Out :=
  match s.group? gid with
  | none => .next s
  | some g => .next (if s.firedFor g then s.requeue gid else s)

/-! ## Restoring a parked group (R219, R380, R423) -/

/-- Where a parked slot may go (R450): a group alone on the cores of its team, a task or a slot with adopted occupants in the cluster
where it is queued. -/
def State.restorePlace (s : State) (g : Group) (pl : Place) : Bool :=
  let b := g.bottom
  let queued (r : Ready) : Bool := r.die == Config.coreDie pl.core && r.cluster == Config.clusterOf pl.core
  if b.task = 0 && !g.under.isEmpty then s.ready.any fun r => r.slot == some g.gid && queued r
  else if b.task = 0 then
    match s.team? b.team with | some t => t.cores.contains pl.core && !t.parked | none => false
  else s.ready.any fun r => r.ctx == g.ctx && r.task == b.task && queued r

/-- A helper of a slot that comes back: its halted commands, which the RFT resumes, raise what they met afresh (R379, R397). -/
def Occ.resumeHelper (o : Occ) : Occ := { o with causes := o.causes.filter fun c => c.cmd == 0 }

/-- Put a parked slot into a placement and enter its restore path. -/
def State.restoreGroup (s : State) (gid : Nat) (pl : Place) : Option State :=
  match s.group? gid with
  | none => some s
  | some g => do
    let b := g.bottom
    let s : State := { s with ready := s.ready.filter fun (r : Ready) => r.slot != some gid }
    let s ← if b.task = 0 then some s else s.claimTask g.ctx b.task
    let s := if b.task = 0 then s else
      (s.modTask g.ctx b.task fun t => { t with parkedIn := none }).modTeam b.team fun tm =>
        { tm with parked := false, cores := [pl.core] }
    some ((s.modGroup gid fun g => { g with run := .running, place := pl, under := g.under.map Occ.resumeHelper }).onGroup gid
      fun s => (s.restoreEntry s.occ.task true).progressed)

/-- A queued slot is restored in the order of its die's controller (R353, R354, R423); a group of a team without an adoption
stack waits for its core. -/
def State.restoreTurn (s : State) (g : Group) : Bool :=
  match s.ready.find? fun (r : Ready) => r.of g with
  | some r => mayStart { s.readyItem r with fits := true } (s.itemsBut r.die 0 (some r))
  | none => g.bottom.task == 0

/-- GROUP_RESTORE (R380). -/
def execGroupRestore (gid : Nat) (place : Place) (s : State) : Out :=
  match s.group? gid with
  | none => .next s
  | some g =>
    if s.resumable g && s.restorePlace g place && s.restoreFits g place && s.restoreTurn g then
      device s (s.restoreGroup gid place)
    else .next s

end Sys2Proof.Machine
end

