-- ==== Sys2Proof/Machine/Place.lean ====
section
/-! DEFINITION. Placement by the launch controllers: teams and their start (R12, R19, R21, R319, R328, R334, R351 to R356,
R439), tasks (R300), and the parking and the resumption of whole teams (R382, R450). Which of several legal places an
item takes is given by the event (log 22). -/

namespace Sys2Proof.Machine

/-! ## Allocations -/

/-- A range of memory reads zero (R334). -/
def State.zeroRange (s : State) (lo n : Nat) : State :=
  if n = 0 then s
  else { s with mem := s.mem.clear lo (lo + n), poison := s.poison.filter fun p => !(decide (lo ≤ p) && decide (p < lo + n)) }

/-! ## Groups of a team (R21, R319, R328, R404) -/

/-- %TEAM of a linear team index, x fastest (R32, R351). -/
def LaunchRec.teamIdx (r : LaunchRec) (i : Nat) : DWord :=
  BitVec.ofNat 64 (i % r.tx + i / r.tx % r.ty * 2 ^ 16 + i / (r.tx * r.ty) * 2 ^ 32)

/-- The first save area from `start` on that is not in use. -/
def freeArea (used : List Nat) (n start : Nat) : Option Nat :=
  ((List.range (used.length + 1)).map fun j => (start + j) % n).find? fun i => !used.contains i

/-- s1 to s4 of a group at its start. -/
def Launch.args (l : Launch) (idx : DWord) : List DWord :=
  [0, l.record.arg, idx] ++ match l.drain with
    | some (r, k) => [r.obj, BitVec.ofNat 64 k]
    | none => []

/-- Start group i of a team at a placement that fits it; none when no save area is free. -/
def State.startGroup (s : State) (l : Launch) (team index i : Nat) (pl : Place) : Option State := do
  let c := s.ctxAt l.ctx
  let r := l.record
  let area ← if c.areas.length < c.narea then freeArea c.areas c.narea (Config.freeBase s.freeSeq % c.narea) else none
  let idx := r.teamIdx index
  let o : Occ := { Occ.empty with
    team, launch := l.id, teamIdx := idx, group := i, ngroup := r.groups, width := r.width, count := r.regs,
    lanePriv := r.lanePriv, lanePrivBase := s.uid + 1, pcs := Pcs.all (lineOf64 r.entry + 4),
    flow := { Flow.empty with mask := allLanes r.width }, regs := { Regs.empty with s := l.args idx },
    saveptr := BitVec.ofNat 64 (c.spool + area * c.areaKib * 1024), area := some area,
    fgseen := (s.dieAt (Config.coreDie pl.core)).changes }
  let g : Group :=
    { gid := s.uid, ctx := l.ctx, run := .running, place := pl, alim := 4, occ := o, under := [],
      progress := (s.dieAt (Config.coreDie pl.core)).cyc, recorded := false }
  some ({ s with uid := s.uid + 2, freeSeq := s.freeSeq + 1, others := s.others ++ [g] }.modCtx l.ctx fun c =>
    { c with areas := area :: c.areas })

/-- Start the groups of a team one after the other, each where it fits. -/
def State.startGroups (s : State) (l : Launch) (team index : Nat) : List (Nat × Place) → Option State
  | [] => some s
  | (i, pl) :: rest =>
    if s.groupFits pl l.record.width l.record.regs l.record.lanePriv then
      (s.startGroup l team index i pl).bind fun t => t.startGroups l team index rest
    else none

/-! ## Teams (R354) -/

/-- The cores of a team whose groups go to the places given: one core that takes it all, or a pair of which neither core
does, the even one filled first. -/
def State.teamCores (s : State) (r : LaunchRec) (pls : List Place) : Option (List Nat) :=
  match pls with
  | [] => none
  | p :: _ =>
    let even := p.core / 2 * 2
    if pls.length ≠ r.groups || Config.isTile p.core != r.tile then none
    else if pls.all (·.core == p.core) then (if s.fitsCore r p.core then some [p.core] else none)
    else
      let k := (pls.takeWhile (·.core == even)).length
      if (pls.drop k).all (·.core == even + 1) && !s.fitsCore r even && !s.fitsCore r (even + 1) && s.fitsPair r even
          && k == (s.pack even r.width r.regs r.lanePriv r.groups).1 then some [even, even + 1]
      else none

/-- The cluster allocation of a launch whose team goes to a cluster: it is there, or is not needed, or is granted. -/
def State.bindCluster (s : State) (l : Launch) (die cluster : Nat) : Option State :=
  match l.bound with
  | some (d, c, _) => if d = die && c = cluster then some s else none
  | none =>
    if l.record.clusScr = 0 && !l.record.cosched then some s
    else
      let bases := s.clusBases die cluster l.record.clusScr
      if bases.isEmpty then none
      else
        let b := pickBase s.freeSeq bases
        some (({ s with freeSeq := s.freeSeq + 1 }.zeroRange (clusKey die cluster b) l.record.clusScr).modLaunch l.uid
          fun l => { l with bound := some (die, cluster, b) })

/-- Place the next team of a launch. -/
def State.startTeam (s : State) (uid : Nat) (pls : List Place) : Option State := do
  let l ← s.launch? uid
  let r := l.record
  let cores ← s.teamCores r pls
  let core ← cores.head?
  let die := Config.coreDie core
  if !(l.dies.contains die) then none
  let s ← s.bindCluster l die (Config.clusterOf core)
  let bases := s.unitBases cores r.teamScr
  if bases.isEmpty then none
  let base := pickBase s.freeSeq bases
  let team := s.uid
  let t : Team :=
    { uid := team, ctx := l.ctx, launch := uid, index := l.next, cores, unitBase := base, unitSize := r.teamScr,
      live := r.groups, barriers := [], credit := 0, claims := [], abort := none, preempting := false, parked := false,
      resuming := false, relocate := false }
  let s := { s with uid := s.uid + 1, freeSeq := s.freeSeq + 1, teams := s.teams ++ [t] }
  let s := cores.foldl (fun (s : State) c => s.zeroRange (unitKey c base) r.teamScr) s
  let s ← s.startGroups l team l.next ((List.range r.groups).zip pls)
  some (s.modLaunch uid fun l => { l with
    next := l.next + 1, passed := l.passed.filter (· != die), lastStart := (die, (s.dieAt die).cyc) :: l.lastStart.filter fun p => p.1 != die })

/-- Places of one team after another. -/
def chunks (n : Nat) : Nat → List Place → List (List Place)
  | 0, _ => []
  | k + 1, l => l.take n :: chunks n k (l.drop n)

/-- Every team of a co-scheduled launch in one cluster at once. -/
def State.startAll (s : State) (l : Launch) (pls : List Place) : Option State :=
  let r := l.record
  match pls with
  | [] => none
  | p :: _ =>
    let cs := chunks r.groups r.teams pls
    let cluster := Config.clusterOf p.core
    if pls.length ≠ r.groups * r.teams then none
    else if r.mesh && !(cs.zipIdx.all fun c => c.1.all fun q => q.core == meshCore r (Config.coreDie p.core) cluster c.2) then none
    else cs.foldlM (fun (s : State) c => s.startTeam l.uid c) s

/-! ## Resuming teams (R382, R450) -/

/-- Put the parked groups of a team into places that fit them. -/
def State.restoreGroups (s : State) : List (Group × Place) → Option State
  | [] => some s
  | (g, pl) :: rest =>
    if s.restoreFits g pl then (s.restoreGroup g.gid pl).bind fun t => t.restoreGroups rest else none

/-- The cores of a parked team whose groups go to the places given: one that takes it all, or a pair of which neither core does, the
even one filled first (R354, R450). -/
def State.resumeCores (s : State) (t : Team) (pls : List Place) : Option (List Nat) :=
  match pls with
  | [] => none
  | p :: _ =>
    let even := p.core / 2 * 2
    if pls.length ≠ (s.groupsInOrder t.uid).length then none
    else if pls.all (·.core == p.core) then (if s.resumesOn t p.core then some [p.core] else none)
    else (s.resumesOnPair t even).bind fun k =>
      if (pls.take k).all (·.core == even) && (pls.drop k).all (·.core == even + 1) then some [even, even + 1] else none

/-- Place a parked team anew: its groups, its team allocation, which reads zero until the restore routine has filled it (R334, R382). -/
def State.resumeTeam (s : State) (t : Team) (pls : List Place) : Option State := do
  let gs := s.groupsInOrder t.uid
  let p ← pls.head?
  let l ← s.launch? t.launch
  let die := Config.coreDie p.core
  let cores ← s.resumeCores t pls
  if t.cores.head?.map Config.coreDie ≠ some die then none
  let s ← s.bindCluster l die (Config.clusterOf p.core)
  let bases := s.unitBases cores t.unitSize
  if bases.isEmpty then none
  let base := pickBase s.freeSeq bases
  let s := { s with freeSeq := s.freeSeq + 1 }.modTeam t.uid fun t => { t with parked := false, cores, unitBase := base }
  let s := cores.foldl (fun (s : State) c => s.zeroRange (unitKey c base) t.unitSize) s
  (s.restoreGroups (gs.zip pls)).map fun s => s.modLaunch t.launch fun l => { l with passed := l.passed.filter (· != die) }

/-- Resume the first parked team of a launch, or for a co-scheduled launch all of them at once in one cluster. -/
def State.resumeNext (s : State) (l : Launch) (ts : List Team) (pls : List Place) : Option State :=
  if !l.record.cosched then ts.head?.bind fun t => s.resumeTeam t pls
  else
    let all := s.teams.filter fun (t : Team) => t.launch == l.uid && !t.ended
    if all.any fun t => !(t.parked && t.resuming) then none
    else
      (all.foldlM (fun (r : State × List Place) t =>
        let n := (s.teamGroups t.uid).length
        (r.1.resumeTeam t (r.2.take n)).map fun u => (u, r.2.drop n)) (s, pls)).map (·.1)

/-! ## TEAM_PLACE and TEAM_STAGGER_START -/

/-- The die that a placement is on. -/
def dieOf (pls : List Place) : Nat := match pls with | p :: _ => Config.coreDie p.core | [] => 4

/-- Whether an item of a launch may start on a die (R353, R354). -/
def State.launchTurn (s : State) (l : Launch) (die : Nat) : Bool :=
  l.stage == .held && mayStart { s.launchItem l die with fits := true } (s.itemsBut die l.uid none)

def State.started (l : Launch) (die : Nat) : Bool := l.lastStart.any fun p => p.1 == die

/-- TEAM_PLACE (R354): a team that RESUME has returned to placement, a co-scheduled launch whole, or the first team of a
launch on a die. A placement that does not hold changes nothing. -/
def execTeamPlace (launch : Nat) (places : List Place) (s : State) : Out :=
  match s.launch? launch with
  | none => .next s
  | some l =>
    let die := dieOf places
    if !s.launchTurn l die then .next s
    else
      let ts := s.toResume launch
      let r := if ts != [] then s.resumeNext l ts places
        else if l.record.teams ≤ l.next then none
        else if l.record.cosched then s.startAll l places
        else if State.started l die then none
        else s.startTeam launch places
      .next (r.getD s)

/-- TEAM_STAGGER_START (R356): a later team of a launch on a die, when its stagger has passed. -/
def execTeamStaggerStart (launch : Nat) (places : List Place) (s : State) : Out :=
  match s.launch? launch with
  | none => .next s
  | some l =>
    let die := dieOf places
    if s.launchTurn l die && s.toResume launch == [] && decide (l.next < l.record.teams) && !l.record.cosched
        && State.started l die && s.staggerOk l die then .next ((s.startTeam launch places).getD s)
    else .next s

/-! ## TASK_START and PASSOVER_LIMIT -/

/-- TASK_START (R300): an unstarted task of a cluster's queue takes a place there. -/
def State.startTask (s : State) (r : Ready) (card : Nat) (pl : Place) : Option State := do
  let ctx := r.ctx
  let s ← s.claimTask ctx r.task
  let t := (s.taskInfo? ctx r.task).getD (TaskInfo.fresh ctx r.task)
  let (o, s) := s.newTask t card pl.core
  let g : Group :=
    { gid := s.uid, ctx, run := .running, place := pl, alim := 4, occ := o, under := [],
      progress := (s.dieAt (Config.coreDie pl.core)).cyc, recorded := false }
  some { s with uid := s.uid + 1, others := s.others ++ [g] }

def execTaskStart (ctx task : Nat) (place : Place) (s : State) : Out :=
  match s.ready.find? fun (r : Ready) => r.ctx == ctx && r.task == task, s.card? ctx task with
  | some r, some card =>
    let w := 16 * 2 ^ fieldAt card 0x15 1
    if fieldAt card 0x14 1 == 2 && Config.isTile place.core == cardTile card && r.die == Config.coreDie place.core
        && r.cluster == Config.clusterOf place.core && s.groupFits place w (fieldAt card 0x18 2) (fieldAt card 0x1A 2)
        && r.slot.isNone && mayStart { s.readyItem r with fits := true } (s.itemsBut r.die 0 (some r)) then
      device s (s.startTask r card place)
    else .next s
  | _, _ => .next s

def passLimit : Nat := 1048576

/-- PASSOVER_LIMIT (R354): an item of a die, a launch by its handle, a queued task by its id or 0 for parked slots of
teams, has not fitted for 1,048,576 cycles. -/
def execPassoverLimit (die item : Nat) (s : State) : Out :=
  let now := (s.dieAt die).cyc
  .next { s with
    launches := s.launches.map fun (l : Launch) =>
      if l.uid == item && (s.heldLaunches die).contains l && decide (passLimit ≤ now - l.since die (s.dieAt die).didt) && !s.launchFits l die
          && !l.passed.contains die
      then { l with passed := die :: l.passed } else l,
    ready := s.ready.map fun (r : Ready) =>
      if r.task == item && r.die == die && decide (passLimit ≤ now - r.stamp) && !(s.readyItem r).fits
      then { r with passed := true } else r }

/-! ## TEAM_PARKED (R382) -/

/-- A group of a pre-empted team that has parked: it comes back with its team only. -/
def Group.setAside (g : Group) : Group :=
  { g with run := .preemptPark, occ := { g.occ with causes := g.occ.causes.filter fun c => c.code != 0x15 } }

/-- The cluster allocation of a co-scheduled launch is freed once all of its teams that have not ended are parked. -/
def State.freeCluster (s : State) (l : Launch) : State :=
  if l.record.cosched && (s.teams.filter fun (t : Team) => t.launch == l.uid).all fun (t : Team) => t.parked || t.ended then
    match l.bound with
    | some _ => s.modLaunch l.uid fun l => { l with bound := none }
    | none => s
  else s

def State.parkTeam (s : State) (t : Team) : State :=
  let gs := s.teamGroups t.uid
  let s := match gs.find? fun (g : Group) => g.bottom.group == 0 with
    | some g => (s.devPut t.ctx (g.bottom.saveptr.toNat + teamRecordAt) (Team.bytes t)).getD s
    | none => s
  let s := gs.foldl (fun (s : State) (g : Group) => s.modGroup g.gid Group.setAside) s
  let s : State := { s with ready := s.ready.filter fun (r : Ready) => !(gs.any fun (g : Group) => r.slot == some g.gid) }
  let s := s.modTeam t.uid fun t =>
    { t with parked := true, preempting := false, resuming := t.relocate, relocate := false }
  match s.launch? t.launch with | some l => s.freeCluster l | none => s

def execTeamParked (team : Nat) (s : State) : Out :=
  match s.team? team with
  | none => .next s
  | some t =>
    if t.preempting && !t.parked && t.live != 0 && (s.teamGroups team).all fun (g : Group) => g.run.isParked then
      .next (s.parkTeam t)
    else .next s

end Sys2Proof.Machine
end

