-- ==== Sys2Proof/Machine/Service.lean ====
section
/-! DEFINITION. The host port: context slots and their commands (R402 to R407), package and die registers (R408, R409),
BAR2 (R403), service commands and firmware (R413 to R415), telemetry (R362 to R365), and SPDM (R413). -/

namespace Sys2Proof.Machine

/-- An MSI-X vector is signalled. -/
def State.signalVec (s : State) (v : Nat) : State := { s with signals := v :: s.signals }

/-- Event records of a context, held back while a die switches its firmware (R415). -/
def State.report (s : State) (die ctx : Nat) (e : Event) : State :=
  if (s.dieAt die).switching then s.modDie die fun d => { d with queued := d.queued ++ [(ctx, e.bytes s.tod)] }
  else s.logEvent ctx e

/-- Context slots that are active. -/
def State.activeCtxs (s : State) : List Nat := (List.range s.ctxs.length).filter fun c => (s.ctxAt c).state == 1

/-! ## CREATE (R404, R405) -/

/-- Every field of a descriptor in its range, the reserved ones 0. -/
def Ctx.fieldsOk (c : Ctx) : Bool :=
  c.ptroot % 4096 == 0 && decide (1 ≤ c.asid) && decide (c.flags / 2 = 0)
    && c.tvec.toNat % 32 == 0 && c.arena % 128 == 0 && decide (2 ≤ c.ncard) && decide (c.ncard ≤ 2 ^ 24)
    && decide (1 ≤ c.vec) && decide (c.vec ≤ 63) && c.field 4 63 40 == 0
    && c.hlist % 64 == 0 && c.spool % 64 == 0 && decide (1 ≤ c.narea) && decide (16 ≤ c.areaKib) && c.areaKib % 4 == 0
    && c.hanglog % 64 == 0 && c.evlog % 64 == 0
    && (List.range 4).all (fun d => (c.dieWin d).1 % 65536 == 0 && (c.dieWin d).2 % 65536 == 0
      && decide ((c.dieWin d).1 + (c.dieWin d).2 ≤ Config.dieBytes d) && c.dieList d % 4096 == 0)
    && (List.range 14).all fun i => c.desc.getD (18 + i) 0 == 0

/-- Windows of two contexts that share bytes of a die. -/
def winsMeet (a b : Ctx) : Bool :=
  (List.range 4).any fun d =>
    let (x, n) := a.dieWin d
    let (y, m) := b.dieWin d
    decide (0 < n) && decide (0 < m) && decide (x < y + m) && decide (y < x + n)

/-- The result of CREATE, and the state when it is 0. -/
def State.createCtx (s : State) (ctx : Nat) : State × Nat :=
  let c := s.ctxAt ctx
  let others := s.activeCtxs.map s.ctxAt
  if c.state ≠ 0 then (s, 2)
  else if !c.fieldsOk then (s, 1)
  else if others.any fun o => o.asid == c.asid then (s, 3)
  else if others.any (winsMeet c) then (s, 4)
  else
    let t := (List.range 4).foldl (fun (s : State) d => s.zeroRange (dieKey d (c.dieWin d).1) (c.dieWin d).2) s
    (t.modCtx ctx fun c => { c with state := 1, nextLaunch := 1, areas := [], dieLists := [] }, 0)

/-! ## PREEMPT and RESUME (R382, R405) -/

/-- The launches that CARG names, and its teams. -/
def State.cargTeams (s : State) (ctx : Nat) : Option (List Team) :=
  let c := s.ctxAt ctx
  let id := c.carg.toNat % 2 ^ 32
  let index := c.carg.toNat / 2 ^ 32
  match s.launches.find? fun (l : Launch) => l.ctx == ctx && l.id.toNat == id with
  | none => none
  | some l =>
    let all := s.teams.filter fun (t : Team) => t.launch == l.uid
    if index = 2 ^ 32 - 1 then some all
    else if !(all.any fun t => t.index == index) then none
    else some (if l.record.cosched then all else all.filter fun t => t.index == index)

/-- A running group takes 0x15 at its next boundary. -/
def Group.askPark (g : Group) : Group :=
  if g.run == .running && !(g.occ.causes.any fun c => c.code == 0x15) then
    { g with occ := { g.occ with causes := g.occ.causes ++ [{ code := 0x15, eng := .k, info := 0, addr := 0 }] } }
  else g

/-- The groups of the tasks that run under a team, at the bottom of slots of their own (R13, R298). -/
def State.tasksUnder (s : State) (t : Team) : List Group :=
  s.groups.filter fun (g : Group) => g.ctx == t.ctx && g.bottom.task != 0
    && (match s.taskInfo? g.ctx g.bottom.task with | some i => i.teamUid == t.uid | none => false)

/-- A task under a pre-empted team: running, it is to park; parked in a wait, it is pre-empted without running. -/
def State.preemptTask (s : State) (g : Group) : State :=
  match g.run with
  | .waitPark _ => (s.dequeue g.ctx g.bottom.task).modGroup g.gid fun g => { g with run := .preemptPark }
  | _ => s.modGroup g.gid Group.askPark

def State.preemptTeam (s : State) (t : Team) : State :=
  if t.parked || t.preempting || t.live = 0 then s
  else
    let s' := (s.teamGroups t.uid).foldl (fun (s : State) (g : Group) => s.modGroup g.gid Group.askPark)
      (s.modTeam t.uid fun t => { t with preempting := true })
    (s.tasksUnder t).foldl State.preemptTask s'

def State.preemptCtx (s : State) (ctx : Nat) : State × Nat :=
  if (s.ctxAt ctx).state ≠ 1 then (s, 2)
  else match s.cargTeams ctx with
    | none => (s, 5)
    | some ts => (ts.foldl State.preemptTeam s, 0)

/-- A parked team returns to placement, and its parked tasks to the ready queues; a team that is still parking does so
once it has parked (log 26). -/
def State.resumeTeamCmd (s : State) (t : Team) : State :=
  let s := s.modTeam t.uid fun t =>
    { t with resuming := t.resuming || t.parked, relocate := t.relocate || (t.preempting && !t.parked) }
  (s.tasksUnder t).foldl (fun (s : State) (g : Group) =>
    if g.run == .preemptPark && !(s.ready.any fun (r : Ready) => r.ctx == g.ctx && r.task == g.bottom.task) then
      let home := match s.taskInfo? g.ctx g.bottom.task with | some i => i.home | none => (0, 0)
      s.enqueue g.ctx g.bottom.task home.1 home.2 g.place.core
    else s) s

def State.resumeCtx (s : State) (ctx : Nat) : State × Nat :=
  if (s.ctxAt ctx).state ≠ 1 then (s, 2)
  else match s.cargTeams ctx with
    | none => (s, 5)
    | some ts =>
      (ts.foldl State.resumeTeamCmd s, 0)

/-! ## LRESET, INVAL and DESTROY -/

def State.resetList (s : State) (ctx : Nat) : Option State := do
  let at' := (s.ctxAt ctx).hlist
  let w ← s.devRead ctx at' 8
  let s ← s.devWrite ctx (at' + 8) 8 w
  s.devWrite ctx (at' + 0x14) 4 0

/-- INVAL drops translations (R405, R406). -/
def State.dropKept (s : State) (ctx : Nat) : State :=
  let a := (s.ctxAt ctx).carg.toNat
  { s with tlb := s.tlb.filter fun k => k.ctx != ctx || (a != 0 && k.page != a % 2 ^ 48 / 2 ^ k.shift) }

/-- Every access issued by the groups of a context takes effect. -/
def State.drainCtx (s : State) (ctx : Nat) : State :=
  (s.groups.filter fun (g : Group) => g.ctx == ctx).foldl (fun (s : State) (g : Group) => s.onGroup g.gid State.drain) s

/-- The abort of a DESTROY. -/
def destroyed (core : Nat) : Abort := { cause := 0x15, group := 0, team := 0, pc := 0, code := 0x13, core }

/-- DESTROY begins: every group of the context is ended as in a team abort with FCAUSE 0x15. -/
def State.beginDestroy (s : State) (ctx : Nat) : State :=
  let s := s.modCtx ctx fun c => { c with state := 2, busy := true }
  let s : State := { s with ready := s.ready.filter fun (r : Ready) => r.ctx != ctx,
                            launches := s.launches.map fun (l : Launch) => if l.ctx == ctx then { l with next := l.record.teams } else l }
  let ts := s.teams.filter fun (t : Team) => t.ctx == ctx && t.launch != 0
  let s := ts.foldl (fun (s : State) t => s.startAbort t.uid 0 (destroyed (t.cores.headD 0))) s
  let solo := s.groups.filter fun (g : Group) => g.ctx == ctx && g.bottom.task != 0
  solo.foldl (fun (s : State) (g : Group) => s.abortGroup (destroyed g.place.core) g.gid) s

/-- DESTROY ends once no group of the context is left: everything of it is freed. -/
def State.endDestroy (s : State) (ctx : Nat) : State :=
  if s.groups.any fun (g : Group) => g.ctx == ctx then s
  else
    let t : State :=
      { s with launches := s.launches.filter fun (l : Launch) => l.ctx != ctx,
               teams := s.teams.filter fun (t : Team) => t.ctx != ctx,
               tasks := s.tasks.filter fun (t : TaskInfo) => t.ctx != ctx,
               tlb := s.tlb.filter fun (k : Kept) => k.ctx != ctx }
    (t.modCtx ctx fun c => { c with state := 0, busy := false, result := 0 }).signalVec (s.ctxAt ctx).vec

/-! ## Running a context command (R405) -/

/-- A command ends with a result. -/
def State.cmdEnds (s : State) (ctx result : Nat) : State :=
  (s.modCtx ctx fun c => { c with busy := false, result }).signalVec (s.ctxAt ctx).vec

/-- Run a command of a context slot. An LRESET of a list that cannot be reached changes nothing and ends with result 1 (log 17). -/
def State.runCmd (s : State) (ctx code : Nat) : State :=
  let c := s.ctxAt ctx
  let ends (r : State × Nat) : State := r.1.cmdEnds ctx r.2
  match code with
  | 1 => ends (s.createCtx ctx)
  | 2 => ends (s.preemptCtx ctx)
  | 3 => ends (s.resumeCtx ctx)
  | 4 =>
    if c.state ≠ 1 then ends (s, 2)
    else if c.carg.toNat % 4096 ≠ 0 then ends (s, 1)
    else (s.dropKept ctx).modCtx ctx fun c => { c with busy := true }
  | 5 => if c.state ≠ 1 then ends (s, 2) else ends (match s.resetList ctx with | some t => (t, 0) | none => (s, 1))
  | 6 => if c.state ≠ 1 then ends (s, 2) else s.beginDestroy ctx
  | _ => ends (s, 1)

/-- The host writes a code to CMD: ignored while BUSY; held while a die switches its firmware (R415). -/
def State.writeCmd (s : State) (ctx : Nat) (code : DWord) : State :=
  let c := s.ctxAt ctx
  if c.busy then s.modCtx ctx fun c => { c with lost := true }
  else
    let s := s.modCtx ctx fun c => { c with cmd := code }
    if s.dies.any fun d => d.switching then s.modCtx ctx fun c => { c with busy := true, held := true }
    else s.runCmd ctx code.toNat

def ctxEvent (ctx : Nat) (code : DWord) (s : State) : Out :=
  .next (if ctx < 64 then s.writeCmd ctx code else s)

def execCreate (ctx : Nat) (s : State) : Out := ctxEvent ctx 1 s
def execPreempt (ctx : Nat) (s : State) : Out := ctxEvent ctx 2 s
def execResume (ctx : Nat) (s : State) : Out := ctxEvent ctx 3 s
def execInval (ctx : Nat) (s : State) : Out := ctxEvent ctx 4 s
def execLreset (ctx : Nat) (s : State) : Out := ctxEvent ctx 5 s

/-- DESTROY (R405): the host's write, or the end of a DESTROY whose groups are gone. -/
def execDestroy (ctx : Nat) (s : State) : Out :=
  if (s.ctxAt ctx).state = 2 then .next (s.endDestroy ctx) else ctxEvent ctx 6 s

/-- INVAL_COMPLETE (R406). -/
def execInvalComplete (ctx : Nat) (s : State) : Out :=
  let c := s.ctxAt ctx
  .next (if c.busy && !c.held && c.cmd == 4 then ((s.drainCtx ctx).dropKept ctx).cmdEnds ctx 0 else s)

/-- CMD_WRITE_WHILE_BUSY (R405). -/
def execCmdWriteWhileBusy (ctx : Nat) (_code : BitVec 64) (s : State) : Out :=
  .next (if (s.ctxAt ctx).busy then s.modCtx ctx fun c => { c with lost := true } else s)

/-! ## Registers (R404, R408, R409) -/

/-- A write that is ignored. -/
def State.badWrite (s : State) : State := { s with service := { s.service with result := 1 } }

/-- A word of a descriptor: all of it while STATE is 0, its rewritable fields while STATE is 1 (R404). -/
def State.writeDesc (s : State) (ctx i : Nat) (v : DWord) : State :=
  let c := s.ctxAt ctx
  let open' : DWord :=
    if c.state = 0 then (if i = 1 then 0xFFFFFFFFFF00FFFF else 0xFFFFFFFFFFFFFFFF)
    else if c.state = 1 then (match i with | 1 => 0xFFFFFFFFFF000000 | 2 => 0xFFFFFFFFFFFFFFFF | 4 => 0xFF00000000 | _ => 0)
    else 0
  s.modCtx ctx fun c => { c with desc := setAt 0 c.desc i (((c.desc.getD i 0) &&& ~~~open') ||| (v &&& open')) }

def State.setExport (s : State) (k part : Nat) (v : DWord) : State :=
  let e := s.exports.getD k (0, 0, 0)
  let e' := match part with | 0 => (v, e.2.1, e.2.2) | 1 => (e.1, v, e.2.2) | _ => (e.1, e.2.1, v)
  { s with exports := setAt (0, 0, 0) s.exports k e' }

def State.writePackage (s : State) (off : Nat) (v : DWord) : State :=
  let n := v.toNat
  if off = 0x08 then
    if n < 64 && s.links.all (·.failed) then { s with pkgid := n } else s.badWrite
  else if off = 0x10 then if 1400 ≤ n && n ≤ 2600 then { s with powcap := n } else s.badWrite
  else if off = 0x20 then { s with service := { s.service with svcarg := v } }
  else if 0x40 ≤ off && off < 0x140 && off % 0x20 < 0x18 then
    let part := off % 0x20 / 8
    if part = 0 && n % 2 ^ 30 ≠ 0 then s.badWrite else s.setExport ((off - 0x40) / 0x20) part v
  else s

/-- The tokens of the groups of a die go back to the pool (R409). -/
def State.returnTokens (s : State) (die : Nat) : State :=
  let drop (o : Occ) : Occ := { o with power := false }
  let mine (g : Group) : Bool := g.run != .vacant && Config.coreDie g.place.core == die
  let n := (s.groups.filter mine).foldl (fun a (g : Group) => a + (g.occs.filter (·.power)).length) 0
  let f (g : Group) : Group := if mine g then { g with occ := drop g.occ, under := g.under.map drop } else g
  { s with tokens := s.tokens + n, me := f s.me, others := s.others.map f }

/-- POWCOMPAT_WRITE (R409): a write that changes it leaves no group of the die with a token. -/
def State.setPowcompat (s : State) (die : Nat) (v : DWord) : State :=
  if 1 < v.toNat then s.badWrite
  else if v.toNat = (s.dieAt die).powcompat then s
  else (s.returnTokens die).modDie die fun d => { d with powcompat := v.toNat }

def execPowcompatWrite (die : Nat) (v : BitVec 64) (s : State) : Out :=
  .next (if die < 4 then s.setPowcompat die v else s)

/-- DIDT_WRITE (R359, R408). -/
def State.setDidt (s : State) (die : Nat) (v : DWord) : State :=
  if 10 ≤ v.toNat && v.toNat ≤ 400 then s.modDie die fun d => { d with didt := v.toNat } else s.badWrite

def execDidtWrite (die : Nat) (v : BitVec 64) (s : State) : Out := .next (if die < 4 then s.setDidt die v else s)

def State.writeDie (s : State) (die off : Nat) (v : DWord) : State :=
  match off with
  | 0x00 => s.setDidt die v
  | 0x08 => s.setPowcompat die v
  | 0x10 => if v.toNat % 2 ^ 14 < 2 then s.modDie die fun d => { d with telem := v } else s.badWrite
  | 0x28 => s.modDie die fun d => { d with hbmrd := v.toNat }
  | 0x30 => s.modDie die fun d => { d with hbmwr := v.toNat }
  | _ => s

/-- Where the firmware staging area stands among the model's keys. -/
def stagingKey : Nat := 2 ^ 119

/-- The command registers of a context slot. -/
def State.writeSlot (s : State) (ctx off : Nat) (v : DWord) : State :=
  if off < 0x100 then s.writeDesc ctx (off / 8) v
  else if off = 0x100 then s.writeCmd ctx v
  else if off = 0x108 then s.modCtx ctx fun c => { c with carg := v }
  else s

/-! ## Service commands (R413 to R415, R418) -/

/-- The image in the staging area, as a number. -/
def State.image (s : State) (length : Nat) : Nat := s.mem.getN stagingKey length

def State.svcEnds (s : State) (result : Nat) : State :=
  ({ s with service := { s.service with busy := false, result } }).signalVec 0

/-- An image verifies against one of the fused key digests whose slot is not revoked, and its SVN is not below the minimum (R413). -/
def State.verifies (s : State) (img : Nat) : Bool :=
  (s.service.keys.any fun k => !k.2 && Config.signatureOk img k.1) && decide (s.service.minSvn ≤ Config.imageSvn img)

/-- UPDATE: verification, then the switch of the first die. -/
def State.beginUpdate (s : State) : State :=
  let n := s.service.svcarg.toNat
  if n = 0 || 2 ^ 24 < n then s.svcEnds 1
  else
    let img := s.image n
    if s.verifies img then
      { s with service := { s.service with busy := true, staged := some (Config.imageSvn img), toSwitch := [0, 1, 2, 3],
                                           before := s.dies.map Die.svn } }.modDie 0
        fun d => { d with switching := true }
    else s.svcEnds 6

def State.doCommit (s : State) : State :=
  if s.service.svcarg ≠ 0 then s.svcEnds 1
  else
    let svn := s.dies.foldl (fun a d => min a d.svn) (s.dieAt 0).svn
    ({ s with service := { s.service with minSvn := max s.service.minSvn svn } }).svcEnds 0

/-- Class, die and unit of SVCARG. -/
def State.svcUnit (s : State) : Nat × Nat × Nat :=
  let a := s.service.svcarg.toNat
  (a % 16, a / 16 % 4, a / 2 ^ 16 % 2 ^ 16)

/-- Whether a core of a die stands on a unit. -/
def unitCore (cls die unit core : Nat) : Bool :=
  Config.coreDie core == die && (({ Die.reset with retiring := [(cls, unit)] } : Die).retiresCore core)

/-- Whether a group stands on a unit. -/
def onUnit (cls die unit : Nat) (g : Group) : Bool := g.resident && unitCore cls die unit g.place.core

/-- The launch teams that hold a unit, those whose groups are all parked in waits among them. -/
def State.teamsOnUnit (s : State) (cls die unit : Nat) : List Team :=
  s.teams.filter fun (t : Team) => !t.parked && !(s.teamGroups t.uid).isEmpty && t.cores.any (unitCore cls die unit)

/-- A unit holds no group and no team. -/
def State.unitEmpty (s : State) (cls die unit : Nat) : Bool :=
  !(s.groups.any (onUnit cls die unit)) && (s.teamsOnUnit cls die unit).isEmpty

/-- A unit is scheduled for retirement: no new placement, and what stands on it is pre-empted, of a co-scheduled launch every team, to
be resumed elsewhere (R382, R400). -/
def State.scheduleRetire (s : State) (cls die unit : Nat) : State :=
  if (s.dieAt die).retiring.contains (cls, unit) then s
  else
    let s := s.modDie die fun d => { d with retiring := d.retiring ++ [(cls, unit)] }
    let ts := ((s.teamsOnUnit cls die unit).flatMap s.domain).eraseDups
    let tasks := s.groups.filter fun (g : Group) => onUnit cls die unit g && g.bottom.task != 0
    ts.foldl (fun (s : State) t => (s.preemptTeam t).modTeam t.uid fun t => { t with relocate := t.relocate || !t.parked })
      (tasks.foldl (fun (s : State) (g : Group) => s.modGroup g.gid Group.askPark) s)

/-- Units of a class on a die, where the spec tells their number (R2, R3, R399, R410): one die scratchpad, four bridges and twelve links.
DESIGN CHOICE (log 77): bridges and links count over the package, under any die. -/
def unitThere (cls die unit : Nat) : Bool :=
  if [0, 1, 2, 5, 6, 10].contains cls then decide (unit < Config.coresOf die)
  else match cls with
    | 3 => decide (unit < Config.clustersOf die)
    | 4 => unit == 0
    | 7 => true
    | 8 => decide (unit < 4)
    | 9 => decide (unit < 12)
    | _ => false

/-- SVCARG names a unit, with nothing in the bits between its fields (R414). -/
def State.svcUnitOk (s : State) : Bool :=
  let (cls, die, unit) := s.svcUnit
  unitThere cls die unit && decide (s.service.svcarg.toNat / 64 % 2 ^ 10 = 0) && decide (s.service.svcarg.toNat < 2 ^ 32)

def State.doRetire (s : State) : State :=
  let (cls, die, unit) := s.svcUnit
  if s.svcUnitOk then (s.scheduleRetire cls die unit).svcEnds 0 else s.svcEnds 1

def Channel.restored (c : Channel) : Channel := { c with retraining := false, failed := false, attempts := 0 }

/-- RECAL: a channel is retrained and is back in service. -/
def State.doRecal (s : State) : State :=
  let (cls, _, unit) := s.svcUnit
  let dflt := Channel.up 8
  if !s.svcUnitOk then s.svcEnds 1
  else match cls with
  | 7 => s.svcEnds 0
  | 8 => ({ s with bridges := setAt dflt s.bridges unit (s.bridges.getD unit dflt).restored }).svcEnds 0
  | 9 => ({ s with links := setAt dflt s.links unit (s.links.getD unit dflt).restored, unreachable := [] }).svcEnds 0
  | _ => s.svcEnds 1

/-- A write to SVCCMD (R414). -/
def State.writeSvc (s : State) (v : DWord) (run : State → State) : State :=
  if s.service.busy then { s with service := { s.service with lost := true } }
  else run { s with service := { s.service with svccmd := v } }

def execUpdate (s : State) : Out := .next (s.writeSvc 1 State.beginUpdate)
def execCommit (s : State) : Out := .next (s.writeSvc 2 State.doCommit)
def execRetire (s : State) : Out := .next (s.writeSvc 3 State.doRetire)
def execRecal (s : State) : Out := .next (s.writeSvc 4 State.doRecal)

def State.svcCommand (s : State) (v : DWord) : State :=
  s.writeSvc v (match v.toNat with
    | 1 => State.beginUpdate | 2 => State.doCommit | 3 => State.doRetire | 4 => State.doRecal
    | _ => fun s => s.svcEnds 1)

/-- REGISTER_WRITE (R402, R404, R408): eight bytes of BAR0. -/
def State.writeBar0 (s : State) (off : Nat) (v : DWord) : State :=
  if off % 8 ≠ 0 then s
  else if off = 0x18 then s.svcCommand v
  else if off < 0x1000 then s.writePackage off v
  else if off < 0x5000 then s.writeDie ((off - 0x1000) / 0x1000) (off % 0x1000) v
  else if 0x100000 ≤ off && off < 0x108000 then s.writeSlot ((off - 0x100000) / 0x200) (off % 0x200) v
  else if 0x1000000 ≤ off && off < 0x2000000 then s.poke (stagingKey + (off - 0x1000000)) (toBytes 8 v.toNat)
  else s

def execRegisterWrite (off : BitVec 25) (v : BitVec 64) (s : State) : Out := .next (s.writeBar0 off.toNat v)

/-- BUSY, LOST and the result, as CSTAT and SVCSTAT give them (R404, R408). -/
def statWord (busy lost : Bool) (result : Nat) : DWord := BitVec.ofNat 64 (busy.toNat + lost.toNat * 2 + result % 256 * 256)

/-- The bits of a descriptor word that are fields (R404): the others are reserved, and read zero (R8). -/
def descFields (i : Nat) : DWord :=
  match i with
  | 1 => 0xFFFFFFFF0100FFFF
  | 4 => 0xFFFFFFFFFF
  | _ => if i < 18 then BitVec.allOnes 64 else 0

/-- A word of a context slot (R404). -/
def Ctx.word (c : Ctx) (off : Nat) : DWord :=
  if off < 0x100 then
    let w := c.desc.getD (off / 8) 0 &&& descFields (off / 8)
    if off = 0x08 then w ||| BitVec.ofNat 64 (c.state * 2 ^ 16) else w
  else if off = 0x100 then c.cmd
  else if off = 0x108 then c.carg
  else if off = 0x110 then statWord c.busy c.lost c.result
  else 0

/-- The retired ranges of a die: 256 entries at most (R408). -/
def Die.retpg (d : Die) : List (Nat × Nat) := d.retired.take 256

/-- A word of a die's registers (R408, R434). -/
def Die.word (d : Die) (off : Nat) : DWord :=
  if 0x800 ≤ off then
    match d.retpg[(off - 0x800) / 8]? with
    | some (first, n) => BitVec.ofNat 64 (first % 2 ^ 27 * 2 ^ 12 + n % 2 ^ 24 * 2 ^ 40)
    | none => 0
  else match off with
    | 0x00 => BitVec.ofNat 64 d.didt
    | 0x08 => BitVec.ofNat 64 d.powcompat
    | 0x10 => d.telem
    | 0x18 => BitVec.ofNat 64 d.capMib
    | 0x20 => BitVec.ofNat 64 d.retpg.length
    | 0x28 => BitVec.ofNat 64 d.hbmrd
    | 0x30 => BitVec.ofNat 64 d.hbmwr
    | _ => 0

/-- A word of the package registers (R408). -/
def State.packageWord (s : State) (off : Nat) : DWord :=
  if 0x40 ≤ off && off < 0x140 then
    let e := s.exports.getD ((off - 0x40) / 0x20) (0, 0, 0)
    match off % 0x20 / 8 with | 0 => e.1 | 1 => e.2.1 | 2 => e.2.2 | _ => 0
  else match off with
    | 0x00 => BitVec.ofNat 64 (0x7716 + Config.stepping.toNat * 2 ^ 16)
    | 0x08 => BitVec.ofNat 64 s.pkgid
    | 0x10 => BitVec.ofNat 64 s.powcap
    | 0x18 => s.service.svccmd
    | 0x20 => s.service.svcarg
    | 0x28 => statWord s.service.busy s.service.lost s.service.result
    | _ => 0

/-- Eight bytes of BAR0 as the host reads them (R402, R404, R408). -/
def State.readBar0 (s : State) (off : Nat) : DWord :=
  let at' := off / 8 * 8
  if at' < 0x1000 then s.packageWord at'
  else if at' < 0x5000 then (s.dieAt ((at' - 0x1000) / 0x1000)).word (at' % 0x1000)
  else if 0x100000 ≤ at' && at' < 0x108000 then (s.ctxAt ((at' - 0x100000) / 0x200)).word (at' % 0x200)
  else if 0x1000000 ≤ at' && at' < 0x2000000 then BitVec.ofNat 64 (s.mem.getN (stagingKey + (at' - 0x1000000)) 8)
  else 0

/-- The host reads eight bytes of BAR0. The table has no row for it, so it is a turn of the agenda (log 2). -/
def State.hostRead (s : State) (off : Nat) : State :=
  { s with replies := toBytes 8 (s.readBar0 off).toNat :: s.replies }

/-! ## BAR2 (R402, R403) -/

/-- Whether n bytes of BAR2 all lie in HBM. -/
def barOk (pa n : Nat) : Bool :=
  (List.range n).all fun i => decide (pa + i < 2 ^ 39) && decide ((pa + i) % 2 ^ 37 < Config.hbmBytes)

/-- HOST_BAR2_WRITE: one that leaves HBM is an Unsupported Request and writes nothing. -/
def execHostBar2Write (pa : BitVec 39) (bytes : List (BitVec 8)) (s : State) : Out :=
  .next (if barOk pa.toNat bytes.length then (s.poke (hbmKey pa.toNat) bytes).countWrite (hbmKey pa.toNat) bytes.length else s)

/-- HOST_BAR2_READ: an Unsupported Request returns no byte. -/
def execHostBar2Read (pa : BitVec 39) (count : Nat) (s : State) : Out :=
  .next (if barOk pa.toNat count then
      { s with replies := s.mem.getBytes (hbmKey pa.toNat) count :: s.replies }.countRead (hbmKey pa.toNat) count
    else { s with replies := [] :: s.replies })

/-! ## Firmware (R413, R415) -/

/-- BOOT_VERIFY (R413). -/
def execBootVerify (die : Nat) (s : State) : Out :=
  .next (if 4 ≤ die then s else
    let img := Config.bootImage die
    let ok := s.verifies img
    s.modDie die fun d => { d with verified := ok, svn := if ok then Config.imageSvn img else d.svn })

/-- The event records that a die held back are logged. -/
def State.logQueued (s : State) (die : Nat) : State :=
  let q := (s.dieAt die).queued
  (q.foldl (fun (s : State) r => (s.appendLog r.1 (s.ctxAt r.1).evlog r.2).getD s) s).modDie die fun d =>
    { d with queued := [], switching := false }

/-- The context commands that waited for a switch run. -/
def State.runHeld (s : State) : State :=
  ((List.range s.ctxs.length).filter fun c => (s.ctxAt c).held).foldl (fun (s : State) c =>
    (s.modCtx c fun x => { x with busy := false, held := false }).runCmd c (s.ctxAt c).cmd.toNat) s

/-- FIRMWARE_SWITCH_END (R415). -/
def State.switchEnds (s : State) (die : Nat) (selfTest : Bool) : State :=
  let s := s.logQueued die
  let sv := s.service
  if !selfTest then
    let s := (List.range 4).foldl (fun (s : State) d => s.modDie d fun x => { x with svn := sv.before.getD d x.svn }) s
    ({ s with service := { s.service with staged := none, toSwitch := [] } }.svcEnds 6).runHeld
  else
    let s := s.modDie die fun d => { d with svn := sv.staged.getD d.svn }
    match sv.toSwitch.drop 1 with
    | [] => ({ s with service := { s.service with staged := none, toSwitch := [] } }.svcEnds 0).runHeld
    | next :: rest =>
      let s := s.runHeld
      { s with service := { s.service with toSwitch := next :: rest } }.modDie next fun d => { d with switching := true }

def execFirmwareSwitchEnd (die : Nat) (selfTest : Bool) (s : State) : Out :=
  if (s.dieAt die).switching && s.service.toSwitch.head? == some die then .next (s.switchEnds die selfTest)
  else .next s

/-! ## Telemetry (R362 to R365) -/

/-- Sample k of a die as its record, without SEQ. -/
def telemetryBytes (die k level tod cap grants lwait : Nat) (r : Sensors) : List Byte :=
  toBytes 4 (k + 1) ++ toBytes 1 die ++ toBytes 1 level ++ toBytes 2 0 ++ toBytes 8 tod ++ toBytes 4 r.power.toNat
    ++ toBytes 4 r.current.toNat ++ toBytes 2 r.volt.toNat ++ toBytes 2 r.temp.toNat ++ toBytes 2 r.hbmTemp.toNat
    ++ toBytes 2 r.inlet.toNat ++ toBytes 4 grants ++ toBytes 4 lwait ++ toBytes 4 r.rise.toNat ++ toBytes 4 (cap * 1000)
    ++ toBytes 16 0

/-- The throttle level after a sample of the package (R365). -/
def nextLevel (level total cap : Nat) : Nat :=
  if cap < total then min 4 (level + 1) else if total * 100 < cap * 95 then level - 1 else level

/-- TELEMETRY_SAMPLE (R363): the dies sample in order, and the package is compared with its cap behind the last (log 20).
A die that switches its firmware stays at its level (R415). -/
def execTelemetrySample (die : Nat) (r : Sensors) (s : State) : Out :=
  .next (if 4 ≤ die then s else
    let d := s.dieAt die
    let base := d.telem.toNat / 2 ^ 14 * 2 ^ 14
    let k := d.samples
    let s := if d.telem = 0 || d.switching then s
      else match s.home (d.telem.toNat % 4) 0 (base + 64 * (k % 256)) with
        | some key => s.poke key (telemetryBytes die k d.throttle s.tod s.powcap d.grants d.lwait r)
        | none => s
    let s := s.modDie die fun d => { d with samples := k + 1, power := r.power.toNat, grants := 0, lwait := 0 }
    if die ≠ 3 then s
    else
      let total := s.dies.foldl (fun a d => a + d.power) r.other
      { s with dies := s.dies.map fun d =>
          if d.switching then d else { d with throttle := nextLevel d.throttle total (s.powcap * 1000) } })

/-! ## SPDM (R413) -/

/-- A response: its code and contents (log 18). -/
def State.respond (s : State) (code : Nat) (contents : List Nat) : Out := .next { s with spdm := (code, contents) :: s.spdm }

/-- A value of a response that the spec does not give. -/
def State.respondFree (s : State) (code : Nat) (contents : List Nat) : Out :=
  State.respond { s with freeSeq := s.freeSeq + 1 } code (contents ++ [Config.freeResponse s.freeSeq])

def execGetVersion (s : State) : Out := s.respond 0x04 [0x13]
def execGetCapabilities (s : State) : Out := s.respondFree 0x61 []
/-- SHA-384, and brainpoolP384r1 as an extended asymmetric algorithm. -/
def execNegotiateAlgorithms (s : State) : Out := s.respond 0x63 [384, 384]
def execGetDigests (s : State) : Out := s.respondFree 0x01 []
def execGetCertificate (offset length : Nat) (s : State) : Out := s.respondFree 0x02 [offset, length]
def execChallenge (nonce : Nat) (s : State) : Out := s.respondFree 0x03 [nonce]

/-- What measurement index stands for: firmware of a die, fuses and SVN, the retirement map, PKGID and windows. -/
def State.measured (s : State) (index : Nat) : List Nat :=
  match index with
  | 1 | 2 | 3 | 4 => [(s.dieAt (index - 1)).svn]
  | 5 => s.service.minSvn :: s.service.keys.flatMap fun k => [k.1, k.2.toNat]
  | 6 => s.dies.flatMap fun d => d.retired.flatMap fun r => [r.1, r.2]
  | 7 => s.pkgid :: s.exports.flatMap fun e => [e.1.toNat, e.2.1.toNat, e.2.2.toNat]
  | _ => []

def execGetMeasurements (index : Nat) (s : State) : Out := s.respondFree 0x60 (index :: s.measured index)
/-- ERROR with UnsupportedRequest. -/
def execSpdmSessionRequest (s : State) : Out := s.respond 0x7F [0x07]

end Sys2Proof.Machine
end

