-- ==== Sys2Proof/Machine/Errors.lean ====
section
/-! DEFINITION. Detected errors, poison and retirement (R398 to R400, R416, R417), bridges and links (R290, R291, R410),
other packages (R411, R412), and the two encoding faults (R43, R58). -/

namespace Sys2Proof.Machine

/-! ## Errors (R398, R399) -/

/-- The event of an error, with what the group that it belongs to is, where it has one (R387). -/
def State.errorEvent (s : State) (e : ErrorReport) : Event :=
  let by' : Event := match e.owner.bind s.group? with
    | some g => { kind := 0, core := Config.coreIndex g.place.core, group := g.occ.group, launch := g.occ.launch.toNat,
                  task := g.occ.task, team := g.occ.teamIdx.toNat }
    | none => { kind := 0 }
  { by' with
    kind := if e.lasting then 5 else 4, flags := if e.lasting && !e.repaired then 2 else 0,
    cause := if e.lasting && !e.repaired then 0x1C else 0, die := e.die, cls := e.cls.toNat, addr := e.addr.toNat }

/-- The contexts whose logs take an error: the owner's, or every active one. -/
def State.errorCtxs (s : State) (owner : Option Nat) : List Nat :=
  match owner.bind s.group? with
  | some g => [g.ctx]
  | none => s.activeCtxs

def errorInfo (e : ErrorReport) (async : Bool) : DWord := BitVec.ofNat 64 (e.cls.toNat + async.toNat * 16 + e.unit * 2 ^ 32)

/-- An X command of an occupant that runs on the array. -/
def Occ.runningX (o : Occ) : Option XCmd := o.xcmds.find? fun c => c.started && !c.halted

/-- 0x1C in the group in focus for an error of its own. One of the array or the accumulator store while an X command runs halts the
command and is raised in it (R232); any other is raised at once (R399). -/
def State.ownError (s : State) (e : ErrorReport) : State :=
  let ofX := e.cls == 5 || e.cls == 6
  if ofX && s.me.occs.any (·.runningX.isSome) then
    s.onOcc (·.runningX.isSome) fun s => match s.occ.runningX with
      | some c => s.haltXCmd c (.trap 0x1C (errorInfo e true) e.addr)
      | none => s
  else s.addCause { code := 0x1C, eng := if ofX then .x else .k, info := errorInfo e false, addr := e.addr }

/-- A byte of memory is poisoned. -/
def insertPoison (k : Nat) : List Nat → List Nat
  | [] => [k]
  | x :: l => if k < x then k :: x :: l else if k = x then x :: l else x :: insertPoison k l

/-- A lasting error: what cannot be repaired is poisoned, and the unit is scheduled for retirement; a row of HBM is
replaced by a spare (R417), and bridges and links have rules of their own. -/
def State.lastingError (s : State) (e : ErrorReport) : State :=
  let s := if e.repaired then s
    else
      let s := { s with poison := e.cells.foldl (fun p k => insertPoison k p) s.poison }
      match e.owner with
      | some gid => s.onGroup gid fun s => s.ownError e
      | none => s
  if [7, 8, 9].contains e.cls.toNat then s else s.scheduleRetire e.cls.toNat e.die e.unit

/-- ERROR_DETECTED (R398). -/
def execErrorDetected (e : ErrorReport) (s : State) : Out :=
  let t := (s.errorCtxs e.owner).foldl (fun (s : State) c => s.report e.die c (s.errorEvent e)) s
  .next (if e.lasting then t.lastingError e else t)

/-! ## Bridges (R290, R291) -/

def State.modBridge (s : State) (b : Nat) (f : Channel → Channel) : State :=
  { s with bridges := setAt (Channel.up 8) s.bridges b (f (s.bridges.getD b (Channel.up 8))) }

def State.modLink (s : State) (l : Nat) (f : Channel → Channel) : State :=
  { s with links := setAt (Channel.up 8) s.links l (f (s.links.getD l (Channel.up 8))) }

/-- The F bit of a semaphore (R196). -/
def State.failSem (s : State) (k : Nat) : State := s.poke (k + 4) (toBytes 4 (s.mem.getN (k + 4) 4 ||| 2 ^ 31))

/-- A CSEND whose bridge has failed fails (R198, R291). -/
def State.failSend (s : State) (uid : Nat) : State :=
  match s.groups.find? fun (g : Group) => g.occs.any fun o => o.cmds.any (·.uid == uid) with
  | some g => s.forCmd g.gid uid fun c s => s.failCmd c
  | none => s

/-- At the lasting failure of a bridge: a ring with a reservation made over it carries no traffic at all, any other ring of its receiving
dies none over it, until they are rewritten (R291, R418). -/
def State.staleRings (s : State) (b : Nat) (used : List Nat) : State :=
  { s with cores := s.cores.map fun c =>
      if used.contains c.key then { c with stale := List.range 4, renewed := false }
      else if (List.range 4).any (fun d => bridgeOf d (Config.coreDie c.key) == some b) && feltCount c.felt != 0 then
        { c with stale := b :: c.stale.filter (· != b), renewed := false }
      else c }

/-- A lasting failure of a bridge (R291). -/
def State.bridgeFails (s : State) (b : Nat) : State :=
  let rs := s.felts.filter fun (r : FeltRes) => r.bridge == b
  let s := (rs.filterMap (·.cmd)).foldl State.failSend (s.staleRings b (rs.map (·.ring)))
  let s := (rs.map (·.ring)).eraseDups.foldl (fun (s : State) ring =>
    let hdr := unitKey ring (feltHdr (s.coreAt ring).felt)
    (s.failSem hdr).failSem (hdr + 8)) s
  { s with felts := s.felts.filter fun (r : FeltRes) => r.bridge != b }

/-- BRIDGE_LINK_ERROR (R290). -/
def execBridgeLinkError (bridge : Nat) (s : State) : Out :=
  .next (if bridge < 4 then s.modBridge bridge fun c => if c.failed then c else { c with retraining := true } else s)

/-! ## Links (R410) -/

/-- A lane of a link is retired: 4 lanes are left, and at the second one the link is down (R410). -/
def Channel.laneLost (c : Channel) : Channel :=
  if c.failed then c
  else if c.lanes = 8 then { c with lanes := 4, retraining := true }
  else { c with failed := true, retraining := false }

/-- LINK_ERROR_RETRAIN (R410). -/
def execLinkErrorRetrain (link : Nat) (laneLost : Bool) (s : State) : Out :=
  .next (if link < 12 then
      (s.modLink link fun c => if laneLost then c.laneLost else if c.failed then c else { c with retraining := true })
    else s)

/-- What a retrain that ends makes of a channel. -/
def Channel.retrained (c : Channel) (ok : Bool) : Channel :=
  if ok then { c with retraining := false, attempts := 0 }
  else if 3 ≤ c.attempts + 1 then { c with retraining := false, failed := true, attempts := 0 }
  else { c with attempts := c.attempts + 1 }

/-- RETRAIN_COMPLETE (R290, R291, R410). -/
def execRetrainComplete (bridge : Bool) (index : Nat) (ok : Bool) (s : State) : Out :=
  .next (if bridge then
      (if index < 4 && (s.bridges.getD index (Channel.up 8)).retraining then
        let t := s.modBridge index fun c => c.retrained ok
        if (t.bridges.getD index (Channel.up 8)).failed then t.bridgeFails index else t
      else s)
    else if index < 12 && (s.links.getD index (Channel.up 8)).retraining then s.modLink index fun c => c.retrained ok
    else s)

/-! ## Retirement (R400, R416, R417) -/

def Config.spareCores (die : Nat) : Nat := if Config.isTileDie die then 12 else 4

/-- The cores of the cluster in which a unit stands. -/
def unitCluster (cls die unit : Nat) : Nat := if cls = 3 then unit else Config.clusterOf (Config.coreKey die unit)

/-- Whether an HBM channel is retired: its pages are listed (R417). -/
def Die.channelRetired (d : Die) (die unit : Nat) : Bool := d.retired.contains (Config.channelPages die unit)

/-- An emptied unit is replaced by a spare, which nothing but the new routes shows (R3), or its cluster is disabled (R416). An HBM
channel gives up its pages (R417), a link a lane (R410). DESIGN CHOICE (log 77): a retired bridge is out of service as after a lasting
failure (R291); a die scratchpad has no spare, and stays. -/
def State.replaceUnit (s : State) (cls die unit : Nat) : State :=
  let s := s.modDie die fun d => { d with retiring := d.retiring.erase (cls, unit) }
  let s : State :=
    if cls = 7 then
      let (first, n) := Config.channelPages die unit
      s.modDie die fun d => { d with retired := d.retired ++ [(first, n)], capMib := d.capMib - n * 4 / 1024 }
    else if cls = 8 then
      (if (s.bridges.getD unit (Channel.up 8)).failed then s
       else (s.modBridge unit fun c => { c with failed := true, retraining := false }).bridgeFails unit)
    else if cls = 9 then s.modLink unit Channel.laneLost
    else if !(List.contains [0, 1, 2, 3, 5, 6, 10] cls) then s
    else if cls ≠ 3 && decide ((s.dieAt die).spares < Config.spareCores die) then
      s.modDie die fun d => { d with spares := d.spares + 1 }
    else
      let cl := unitCluster cls die unit
      ((List.range (Config.coresOf die)).filter fun i => Config.clusterOf (Config.coreKey die i) == cl).foldl
        (fun (s : State) i => s.modCore (Config.coreKey die i) fun c => { c with disabled := true }) s
  let e : Event := { kind := 6, die, cls, detail := unit }
  s.activeCtxs.foldl (fun (s : State) c => s.report die c e) (s.modDie die fun d => { d with routesAwaited := true })

/-- UNIT_RETIREMENT (R400): an emptied unit is replaced, and then new route tables are installed. An HBM channel is retired once
(R417). -/
def execUnitRetirement (cls : BitVec 4) (die unit : Nat) (s : State) : Out :=
  let c := cls.toNat
  .next (if (s.dieAt die).retiring.contains (c, unit) || (c == 7 && !(s.dieAt die).channelRetired die unit) then
      (if !s.unitEmpty c die unit then s
       else if c == 7 && (s.dieAt die).channelRetired die unit then
         s.modDie die fun d => { d with retiring := d.retiring.erase (c, unit) }
       else s.replaceUnit c die unit)
    else if (s.dieAt die).routesAwaited then s.modDie die fun d => { d with routesAwaited := false }
    else s)

/-- HBM_RETRAIN (R418): seen only as delay. -/
def execHbmRetrain (_die _channel : Nat) (s : State) : Out := .next s

/-! ## Other packages (R411, R412) -/

/-- PACKAGE_UNREACHABLE (R412): a package has not answered for 1 ms. It answers again once it makes an access of its own, or a link is
put back in service (log 19). -/
def execPackageUnreachable (pkg : Nat) (s : State) : Out :=
  .next (if pkg = s.pkgid || s.unreachable.contains pkg then s else { s with unreachable := pkg :: s.unreachable })

/-- Whether n bytes at a PA lie in a window open to a package (R411). -/
def State.exported (s : State) (pkg pa n : Nat) : Bool :=
  decide (pkg < 64) && s.exports.any fun (b, size, m) =>
    decide (b.toNat ≤ pa) && decide (pa + n ≤ b.toNat + size.toNat * 2 ^ 30) && m.getLsbD pkg

/-- An atomic of another package at this package's fabric port (R343, R411): f gives what it writes from the old value, which it
returns. -/
def State.remoteAtomic (s : State) (pkg pa sz : Nat) (f : Nat → Option Nat) : State :=
  let n := 2 ^ sz
  let k := hbmKey pa
  if s.exported pkg pa n then
    let old := s.mem.getN k n
    let t := match f old with | some x => (s.poke k (toBytes n x)).countWrite k n | none => s
    ({ t with replies := toBytes n old :: t.replies }).countRead k n
  else { s with replies := [] :: s.replies }

/-- FABRIC_REMOTE_ACCESS (R411): one that fails the check takes 0x06 at the requester and returns no byte. -/
def execFabricRemoteAccess (pkg : Nat) (pa : BitVec 52) (op : RemoteOp) (s : State) : Out :=
  let k := hbmKey pa.toNat
  let s := { s with unreachable := s.unreachable.filter (· != pkg) }
  .next (match op with
    | .atomic aop sz c => s.remoteAtomic pkg pa.toNat sz fun old => some (atomOp aop sz old c)
    | .cas sz e n => s.remoteAtomic pkg pa.toNat sz fun old => if old = e then some n else none
    | .read n => if s.exported pkg pa.toNat n then { s with replies := s.mem.getBytes k n :: s.replies }.countRead k n
      else { s with replies := [] :: s.replies }
    | .write bs => if s.exported pkg pa.toNat bs.length then (s.poke k bs).countWrite k bs.length
      else { s with replies := [] :: s.replies })

/-! ## Encoding faults (R43, R58) -/

/-- ILLEGAL_LINE_FAULT (R43, R58): %TCAUSE names engine K; %TADDR is the lane's address, which for nibble 0 is the
line's. -/
def execIllegalLineFault (d : LineDefect) (s : State) : Out :=
  .next (s.trap { code := 1, eng := .k, info := lineInfo d, addr := lineOf64 s.position + BitVec.ofNat 64 (4 * d.lane) } s.position)

/-- ILLEGAL_INSTRUCTION_FAULT (R58): %TADDR is the instruction address. -/
def execIllegalInstructionFault (d : WordDefect) (s : State) : Out :=
  let e := (Eng.ofTag (d.tag.toNat % 8)).getD (s.occ.leader s.tile)
  .next (s.trap { code := 2, eng := e, info := illegalInfo d, addr := s.pcOf e } (s.pcOf e))

end Sys2Proof.Machine
end

