-- ==== Sys2Proof/Machine/Governor.lean ====
section
/-! DEFINITION. The frame governor of an N-die: FGMARK and FGPLAN (R140, R141), the plan table (R292), and the marks that
the governor applies (R293, R294). -/

namespace Sys2Proof.Machine

/-- Bytes of the plan table. -/
def planBytes : Nat := 2624

/-- Key of byte 0 of the plan table at an offset of the DIE window of a context; none when it leaves that window. -/
def State.planKey (s : State) (die ctx off : Nat) : Option Nat :=
  let (b, size) := (s.ctxAt ctx).dieWin die
  if off + planBytes ≤ size then some (dieKey die (b + off)) else none

/-- The plan table as a number, its field at a byte offset read by `fieldAt` (R292). -/
abbrev Plan := Nat

def Plan.nplans (p : Plan) : Nat := fieldAt p 2 1
def Plan.cur (p : Plan) : Nat := fieldAt p 3 1
def Plan.pos (p : Plan) : Nat := fieldAt p 4 1
def Plan.flags (p : Plan) : Nat := fieldAt p 5 1
def Plan.last (p : Plan) : Nat := fieldAt p 8 8
def Plan.nominal (p : Plan) (k : Nat) : Nat := fieldAt p (64 + 8 * k) 4
def Plan.ewma (p : Plan) (k : Nat) : Nat := fieldAt p (68 + 8 * k) 4
def Plan.len (p : Plan) (i : Nat) : Nat := fieldAt p (576 + 128 * i) 1
def Plan.entry (p : Plan) (i e : Nat) : Nat := fieldAt p (580 + 128 * i + 4 * e) 4
def Plan.step (p : Plan) (i e : Nat) : Nat := p.entry i e % 64
def Plan.drop (p : Plan) (i e : Nat) : Bool := p.entry i e / 2 ^ 24 % 2 == 1
def Plan.entries (p : Plan) (i : Nat) : List Nat := (List.range (p.len i)).map (p.entry i)

/-- The checks of R293 on the table. -/
def Plan.ok (p : Plan) : Bool :=
  fieldAt p 0 2 == 0xF6A1 && decide (1 ≤ p.nplans) && decide (p.nplans ≤ 16)
    && fieldAt p 6 2 == 0 && fieldAt p 16 48 == 0 && p.flags / 8 == 0
    && (List.range 16).all (fun i => fieldAt p (577 + 128 * i) 3 == 0
      && (List.range 31).all fun e => p.entry i e / 64 % 4 == 0 && p.entry i e / 2 ^ 25 == 0)
    && (List.range p.nplans).all fun i => decide (1 ≤ p.len i) && decide (p.len i ≤ 31)

/-! ## The rule of R294 -/

/-- What a mark writes: CUR, POS, FLAGS, the EWMA of one step, and whether the plan changes. LAST is the stamp. -/
structure Marked where
  cur : Nat
  pos : Nat
  flags : Nat
  ewma : Option (Nat × Nat)
  changed : Bool
  deriving DecidableEq, Repr

/-- The new average of a step that took m nanoseconds. -/
def newEwma (old m : Nat) : Nat := if old = 0 then m else (3 * old + m + 2) / 4

/-- A mark with step value i and stamp τ, under %FGDL and %FGGUARD. -/
def Plan.mark (p : Plan) (i tau deadline guard : Nat) : Marked :=
  let len := p.len p.cur
  if i = 0xFFFF then { cur := 0, pos := 0, flags := 4, ewma := none, changed := false }
  else if p.flags / 4 % 2 = 0 || p.nplans ≤ p.cur || len ≤ p.pos || p.step p.cur p.pos ≠ i then
    { cur := p.cur, pos := p.pos, flags := p.flags ||| 2, ewma := none, changed := false }
  else
    let m := min ((tau + 2 ^ 64 - p.last) % 2 ^ 64) 0xFFFFFFFF
    let avg := newEwma (p.ewma i) m
    let ewma (k : Nat) : Nat := if k = i then avg else p.ewma k
    let pos := p.pos + 1
    let rest := (List.range len).filter fun e => decide (pos ≤ e)
    let predicted : Nat := tau + rest.foldl (fun a e => a + max (p.nominal (p.step p.cur e)) (ewma (p.step p.cur e))) 0
    let late := decide ((deadline : Int) - (guard : Int) < (predicted : Int))
    let other : Option Nat := do
      let j ← rest.find? (p.drop p.cur)
      (List.range p.nplans).find? fun q => p.entries q == (p.entries p.cur).eraseIdx j
    let cur := if late then other.getD p.cur else p.cur
    let flags := if late && other.isNone then p.flags ||| 1 else p.flags
    { cur, pos, flags := if pos = p.len cur then flags &&& 0xFB else flags, ewma := some (i, avg),
      changed := late && other.isSome }

/-- The governor of a die applies its next mark with the stamp of this moment (R293). -/
def State.applyMark (s : State) (die : Nat) : State :=
  match (s.dieAt die).marks with
  | [] => s
  | (_, step, ctx, base) :: rest =>
    let s := s.modDie die fun d => { d with marks := rest }
    match s.planKey die ctx base with
    | none => s
    | some k =>
      let d := s.dieAt die
      let m := Plan.mark (s.mem.getN k planBytes) step s.tod d.fgdl.toNat d.fgguard.toNat
      let s := (s.poke (k + 3) (toBytes 1 m.cur ++ toBytes 1 m.pos ++ toBytes 1 m.flags)).poke (k + 8) (toBytes 8 s.tod)
      let s := match m.ewma with
        | some (i, x) => s.poke (k + 68 + 8 * i) (toBytes 4 x)
        | none => s
      s.modDie die fun d => { d with changes := (d.changes + m.changed.toNat) % 2 ^ 16 }

/-- GOVERNOR_APPLY_MARK (R293). -/
def execGovernorApplyMark (die : Nat) (s : State) : Out := .next (s.applyMark die)

/-- Apply marks up to the last one of a group. `fuel` is the number of marks. -/
def State.applyMarksOf (s : State) (die gid : Nat) : Nat → State
  | 0 => s
  | fuel + 1 =>
    if (s.dieAt die).marks.any fun m => m.1 == gid then (s.applyMark die).applyMarksOf die gid fuel
    else s

/-! ## FGMARK and FGPLAN (R140, R141) -/

/-- An N-tile with %FGBASE set, and the table's key, its 2,624 bytes in the window (R292). -/
def State.governed (s : State) : Act Nat := do
  let base := s.shared.fgbase
  require (s.tile && base != 0) (s.faultAt .k 0x0B)
  match s.planKey s.die s.me.ctx base.toNat with
  | some k => .ok k
  | none => .error (.trap 7 ({} : MemInfo).bits base)

def execFgmark (g : KG) (a : BitVec 6) (s : State) : Out :=
  kDo g 1 s fun s => do
    let x := (s.getS a).toNat
    require (decide (x < 2 ^ 16)) (s.faultAt .k 0x0B)
    let k ← s.governed
    require (decide (x < 64) || x == 0xFFFF) (s.faultAt .k 0x0B)
    require (s.occ.cmds == [] && s.occ.xcmds == []) (.wait 20 0 0 0)
    let s := s.drain
    s.checkLost s.shared.fgbase k planBytes
    require (Plan.ok (s.mem.getN k planBytes)) (s.faultAt .k 0x0B)
    .ok (s.modDie s.die fun d =>
      { d with marks := d.marks ++ [(s.me.gid, x, s.me.ctx, s.shared.fgbase.toNat)] })

/-- FGPLAN answers the state behind every earlier mark of its group (R293). -/
def execFgplan (g : KG) (d : BitVec 6) (s : State) : Out :=
  kDo g 1 s fun s => do
    let k ← s.governed
    let s := s.drain
    s.checkLost s.shared.fgbase k planBytes
    let t := s.applyMarksOf s.die s.me.gid (s.dieAt s.die).marks.length
    let p : Plan := t.mem.getN k planBytes
    let now := (t.dieAt t.die).changes
    .ok ((t.setS d (BitVec.ofNat 64 (Plan.cur p % 16 + Plan.flags p % 2 * 16 + (if now != t.occ.fgseen then 32 else 0)))).mapOcc
      fun o => { o with fgseen := now })

end Sys2Proof.Machine
end

