-- ==== Sys2Proof/Machine/Dispatch.lean ====
section
/-! DEFINITION. The one dispatch from an instruction or device event to its meaning. -/

namespace Sys2Proof.Machine

open Sys2Proof

def exec (i : Instr) (s : State) : Host.Outcome State Fault Refusal :=
  match i with
  | .nop g => Sys2Proof.Machine.execNop g s
  | .nop64 g imm => Sys2Proof.Machine.execNop64 g imm s
  | .smov g d a => Sys2Proof.Machine.execSmov g d a s
  | .smovLc g d lc => Sys2Proof.Machine.execSmovLc g d lc s
  | .sli g d imm => Sys2Proof.Machine.execSli g d imm s
  | .sli64 g d hi imm => Sys2Proof.Machine.execSli64 g d hi imm s
  | .sadd g d a b => Sys2Proof.Machine.execSadd g d a b s
  | .saddImm g d a imm => Sys2Proof.Machine.execSaddImm g d a imm s
  | .ssub g d a b => Sys2Proof.Machine.execSsub g d a b s
  | .ssubImm g d a imm => Sys2Proof.Machine.execSsubImm g d a imm s
  | .smul g d a b => Sys2Proof.Machine.execSmul g d a b s
  | .smulImm g d a imm => Sys2Proof.Machine.execSmulImm g d a imm s
  | .smulHi g d a b => Sys2Proof.Machine.execSmulHi g d a b s
  | .smulHiImm g d a imm => Sys2Proof.Machine.execSmulHiImm g d a imm s
  | .smulHiu g d a b => Sys2Proof.Machine.execSmulHiu g d a b s
  | .smulHiuImm g d a imm => Sys2Proof.Machine.execSmulHiuImm g d a imm s
  | .sand g d a b => Sys2Proof.Machine.execSand g d a b s
  | .sandImm g d a imm => Sys2Proof.Machine.execSandImm g d a imm s
  | .sor g d a b => Sys2Proof.Machine.execSor g d a b s
  | .sorImm g d a imm => Sys2Proof.Machine.execSorImm g d a imm s
  | .sxor g d a b => Sys2Proof.Machine.execSxor g d a b s
  | .sxorImm g d a imm => Sys2Proof.Machine.execSxorImm g d a imm s
  | .sshl g d a b => Sys2Proof.Machine.execSshl g d a b s
  | .sshlImm g d a n => Sys2Proof.Machine.execSshlImm g d a n s
  | .sshr g d a b => Sys2Proof.Machine.execSshr g d a b s
  | .sshrImm g d a n => Sys2Proof.Machine.execSshrImm g d a n s
  | .sshrA g d a b => Sys2Proof.Machine.execSshrA g d a b s
  | .sshrAImm g d a n => Sys2Proof.Machine.execSshrAImm g d a n s
  | .smin g d a b => Sys2Proof.Machine.execSmin g d a b s
  | .sminImm g d a imm => Sys2Proof.Machine.execSminImm g d a imm s
  | .smax g d a b => Sys2Proof.Machine.execSmax g d a b s
  | .smaxImm g d a imm => Sys2Proof.Machine.execSmaxImm g d a imm s
  | .sminu g d a b => Sys2Proof.Machine.execSminu g d a b s
  | .sminuImm g d a imm => Sys2Proof.Machine.execSminuImm g d a imm s
  | .smaxu g d a b => Sys2Proof.Machine.execSmaxu g d a b s
  | .smaxuImm g d a imm => Sys2Proof.Machine.execSmaxuImm g d a imm s
  | .scmp g d a b cc => Sys2Proof.Machine.execScmp g d a b cc s
  | .scmpImm g d a cc imm => Sys2Proof.Machine.execScmpImm g d a cc imm s
  | .ssel g d a b q => Sys2Proof.Machine.execSsel g d a b q s
  | .qlog g d a b f => Sys2Proof.Machine.execQlog g d a b f s
  | .scsrRead g d num => Sys2Proof.Machine.execScsrRead g d num s
  | .scsrWrite g d num => Sys2Proof.Machine.execScsrWrite g d num s
  | .scsrSwap g d num => Sys2Proof.Machine.execScsrSwap g d num s
  | .br g off => Sys2Proof.Machine.execBr g off s
  | .brv p pn off => Sys2Proof.Machine.execBrv p pn off s
  | .join => Sys2Proof.Machine.execJoin s
  | .call g off => Sys2Proof.Machine.execCall g off s
  | .callvPair g a => Sys2Proof.Machine.execCallvPair g a s
  | .callvReg g a => Sys2Proof.Machine.execCallvReg g a s
  | .ret g => Sys2Proof.Machine.execRet g s
  | .jmp g a => Sys2Proof.Machine.execJmp g a s
  | .loopOpen g lc byImm a e count => Sys2Proof.Machine.execLoopOpen g lc byImm a e count s
  | .lineEndAction => Sys2Proof.Machine.execLineEndAction s
  | .lbrk g lc => Sys2Proof.Machine.execLbrk g lc s
  | .bar g id a => Sys2Proof.Machine.execBar g id a s
  | .mwatch g ws a b sp sc wide => Sys2Proof.Machine.execMwatch g ws a b sp sc wide s
  | .mwait g d a which => Sys2Proof.Machine.execMwait g d a which s
  | .mwaitTimeout => Sys2Proof.Machine.execMwaitTimeout s
  | .trap g imm => Sys2Proof.Machine.execTrap g imm s
  | .bkpt g imm => Sys2Proof.Machine.execBkpt g imm s
  | .rft => Sys2Proof.Machine.execRft s
  | .parkWait => Sys2Proof.Machine.execParkWait s
  | .parkPreempt => Sys2Proof.Machine.execParkPreempt s
  | .parkEnd => Sys2Proof.Machine.execParkEnd s
  | .leave g => Sys2Proof.Machine.execLeave g s
  | .leavr g => Sys2Proof.Machine.execLeavr g s
  | .fgmark g a => Sys2Proof.Machine.execFgmark g a s
  | .governorApplyMark die => Sys2Proof.Machine.execGovernorApplyMark die s
  | .fgplan g d => Sys2Proof.Machine.execFgplan g d s
  | .spawn g a => Sys2Proof.Machine.execSpawn g a s
  | .await g d a q => Sys2Proof.Machine.execAwait g d a q s
  | .fset g a b => Sys2Proof.Machine.execFset g a b s
  | .locka g a => Sys2Proof.Machine.execLocka g a s
  | .lockaTry g q a => Sys2Proof.Machine.execLockaTry g q a s
  | .lockr g a => Sys2Proof.Machine.execLockr g a s
  | .yield g => Sys2Proof.Machine.execYield g s
  | .exit g => Sys2Proof.Machine.execExit g s
  | .launch g a => Sys2Proof.Machine.execLaunch g a s
  | .cjoin g a => Sys2Proof.Machine.execCjoin g a s
  | .vgive g imm => Sys2Proof.Machine.execVgive g imm s
  | .vclaim g imm => Sys2Proof.Machine.execVclaim g imm s
  | .mov f => Sys2Proof.Machine.execMov f s
  | .mov64 f x => Sys2Proof.Machine.execMov64 f x s
  | .vadd f => Sys2Proof.Machine.execVadd f s
  | .vadd64 f x => Sys2Proof.Machine.execVadd64 f x s
  | .vsub f => Sys2Proof.Machine.execVsub f s
  | .vsub64 f x => Sys2Proof.Machine.execVsub64 f x s
  | .vmul f => Sys2Proof.Machine.execVmul f s
  | .vmul64 f x => Sys2Proof.Machine.execVmul64 f x s
  | .mulh f => Sys2Proof.Machine.execMulh f s
  | .mulh64 f x => Sys2Proof.Machine.execMulh64 f x s
  | .mad f x => Sys2Proof.Machine.execMad f x s
  | .vand f => Sys2Proof.Machine.execVand f s
  | .vand64 f x => Sys2Proof.Machine.execVand64 f x s
  | .vor f => Sys2Proof.Machine.execVor f s
  | .vor64 f x => Sys2Proof.Machine.execVor64 f x s
  | .vxor f => Sys2Proof.Machine.execVxor f s
  | .vxor64 f x => Sys2Proof.Machine.execVxor64 f x s
  | .shl f => Sys2Proof.Machine.execShl f s
  | .shl64 f x => Sys2Proof.Machine.execShl64 f x s
  | .shr f => Sys2Proof.Machine.execShr f s
  | .shr64 f x => Sys2Proof.Machine.execShr64 f x s
  | .sra f => Sys2Proof.Machine.execSra f s
  | .sra64 f x => Sys2Proof.Machine.execSra64 f x s
  | .vmin f => Sys2Proof.Machine.execVmin f s
  | .vmin64 f x => Sys2Proof.Machine.execVmin64 f x s
  | .vmax f => Sys2Proof.Machine.execVmax f s
  | .vmax64 f x => Sys2Proof.Machine.execVmax64 f x s
  | .vabs f => Sys2Proof.Machine.execVabs f s
  | .vabs64 f x => Sys2Proof.Machine.execVabs64 f x s
  | .clz f => Sys2Proof.Machine.execClz f s
  | .clz64 f x => Sys2Proof.Machine.execClz64 f x s
  | .popc f => Sys2Proof.Machine.execPopc f s
  | .popc64 f x => Sys2Proof.Machine.execPopc64 f x s
  | .bfe f => Sys2Proof.Machine.execBfe f s
  | .bfe64 f x => Sys2Proof.Machine.execBfe64 f x s
  | .bfi f x => Sys2Proof.Machine.execBfi f x s
  | .sel f x => Sys2Proof.Machine.execSel f x s
  | .cmp f => Sys2Proof.Machine.execCmp f s
  | .cmp64 f x => Sys2Proof.Machine.execCmp64 f x s
  | .plog f x => Sys2Proof.Machine.execPlog f x s
  | .cvt f x => Sys2Proof.Machine.execCvt f x s
  | .fadd f => Sys2Proof.Machine.execFadd f s
  | .fadd64 f x => Sys2Proof.Machine.execFadd64 f x s
  | .fsub f => Sys2Proof.Machine.execFsub f s
  | .fsub64 f x => Sys2Proof.Machine.execFsub64 f x s
  | .fmul f => Sys2Proof.Machine.execFmul f s
  | .fmul64 f x => Sys2Proof.Machine.execFmul64 f x s
  | .ffma f x => Sys2Proof.Machine.execFfma f x s
  | .fmin f => Sys2Proof.Machine.execFmin f s
  | .fmin64 f x => Sys2Proof.Machine.execFmin64 f x s
  | .fmax f => Sys2Proof.Machine.execFmax f s
  | .fmax64 f x => Sys2Proof.Machine.execFmax64 f x s
  | .fcmp f => Sys2Proof.Machine.execFcmp f s
  | .fcmp64 f x => Sys2Proof.Machine.execFcmp64 f x s
  | .frcp f => Sys2Proof.Machine.execFrcp f s
  | .frcp64 f x => Sys2Proof.Machine.execFrcp64 f x s
  | .frsq f => Sys2Proof.Machine.execFrsq f s
  | .frsq64 f x => Sys2Proof.Machine.execFrsq64 f x s
  | .fsqrt f => Sys2Proof.Machine.execFsqrt f s
  | .fsqrt64 f x => Sys2Proof.Machine.execFsqrt64 f x s
  | .fexp2 f => Sys2Proof.Machine.execFexp2 f s
  | .fexp264 f x => Sys2Proof.Machine.execFexp264 f x s
  | .flog2 f => Sys2Proof.Machine.execFlog2 f s
  | .flog264 f x => Sys2Proof.Machine.execFlog264 f x s
  | .fsin f => Sys2Proof.Machine.execFsin f s
  | .fsin64 f x => Sys2Proof.Machine.execFsin64 f x s
  | .fcos f => Sys2Proof.Machine.execFcos f s
  | .fcos64 f x => Sys2Proof.Machine.execFcos64 f x s
  | .fdiv f => Sys2Proof.Machine.execFdiv f s
  | .fdiv64 f x => Sys2Proof.Machine.execFdiv64 f x s
  | .fclass f => Sys2Proof.Machine.execFclass f s
  | .fclass64 f x => Sys2Proof.Machine.execFclass64 f x s
  | .shuf f => Sys2Proof.Machine.execShuf f s
  | .shuf64 f x => Sys2Proof.Machine.execShuf64 f x s
  | .voteAny f => Sys2Proof.Machine.execVoteAny f s
  | .vote64 f x => Sys2Proof.Machine.execVote64 f x s
  | .gred f => Sys2Proof.Machine.execGred f s
  | .gred64 f x => Sys2Proof.Machine.execGred64 f x s
  | .scan f => Sys2Proof.Machine.execScan f s
  | .scan64 f x => Sys2Proof.Machine.execScan64 f x s
  | .qmx f x => Sys2Proof.Machine.execQmx f x s
  | .dqmx f x => Sys2Proof.Machine.execDqmx f x s
  | .pack f x => Sys2Proof.Machine.execPack f x s
  | .unpk f x => Sys2Proof.Machine.execUnpk f x s
  | .gets f => Sys2Proof.Machine.execGets f s
  | .movs f x => Sys2Proof.Machine.execMovs f x s
  | .movp f => Sys2Proof.Machine.execMovp f s
  | .movp64 f x => Sys2Proof.Machine.execMovp64 f x s
  | .ld f => Sys2Proof.Machine.execLd f s
  | .ld64 f x => Sys2Proof.Machine.execLd64 f x s
  | .st f => Sys2Proof.Machine.execSt f s
  | .st64 f x => Sys2Proof.Machine.execSt64 f x s
  | .lds f x => Sys2Proof.Machine.execLds f x s
  | .sts f x => Sys2Proof.Machine.execSts f x s
  | .ldl f x => Sys2Proof.Machine.execLdl f x s
  | .stl f x => Sys2Proof.Machine.execStl f x s
  | .ldu f => Sys2Proof.Machine.execLdu f s
  | .ldu64 f x => Sys2Proof.Machine.execLdu64 f x s
  | .stu f => Sys2Proof.Machine.execStu f s
  | .stu64 f x => Sys2Proof.Machine.execStu64 f x s
  | .atom f x => Sys2Proof.Machine.execAtom f x s
  | .cas f x => Sys2Proof.Machine.execCas f x s
  | .fence f => Sys2Proof.Machine.execFence f s
  | .fence64 f x => Sys2Proof.Machine.execFence64 f x s
  | .tmov f => Sys2Proof.Machine.execTmov f s
  | .tmov64 f x => Sys2Proof.Machine.execTmov64 f x s
  | .moveProgress gid cmd => Sys2Proof.Machine.execMoveProgress gid cmd s
  | .memoryCommandComplete gid cmd => Sys2Proof.Machine.execMemoryCommandComplete gid cmd s
  | .tmcast f x => Sys2Proof.Machine.execTmcast f x s
  | .tmcastDelivery gid cmd => Sys2Proof.Machine.execTmcastDelivery gid cmd s
  | .twait f => Sys2Proof.Machine.execTwait f s
  | .tstat f => Sys2Proof.Machine.execTstat f s
  | .sbind f => Sys2Proof.Machine.execSbind f s
  | .sbind64 f x => Sys2Proof.Machine.execSbind64 f x s
  | .streamFetch gid w => Sys2Proof.Machine.execStreamFetch gid w s
  | .sfree f => Sys2Proof.Machine.execSfree f s
  | .semw f => Sys2Proof.Machine.execSemw f s
  | .semw64 f x => Sys2Proof.Machine.execSemw64 f x s
  | .sems f => Sys2Proof.Machine.execSems f s
  | .sems64 f x => Sys2Proof.Machine.execSems64 f x s
  | .slot f => Sys2Proof.Machine.execSlot f s
  | .csend f => Sys2Proof.Machine.execCsend f s
  | .csendLanded gid cmd => Sys2Proof.Machine.execCsendLanded gid cmd s
  | .wlapp f x => Sys2Proof.Machine.execWlapp f x s
  | .worklistAgeExpiry set list => Sys2Proof.Machine.execWorklistAgeExpiry set list s
  | .drainComplete launch => Sys2Proof.Machine.execDrainComplete launch s
  | .wltake f x => Sys2Proof.Machine.execWltake f x s
  | .wldone f => Sys2Proof.Machine.execWldone f s
  | .wldone64 f x => Sys2Proof.Machine.execWldone64 f x s
  | .gath f x => Sys2Proof.Machine.execGath f x s
  | .scat f x => Sys2Proof.Machine.execScat f x s
  | .mcfg g level a b => Sys2Proof.Machine.execMcfg g level a b s
  | .mcfgAct g level a b => Sys2Proof.Machine.execMcfgAct g level a b s
  | .mnest g => Sys2Proof.Machine.execMnest g s
  | .mma g a b => Sys2Proof.Machine.execMma g a b s
  | .mmaOvw g a b => Sys2Proof.Machine.execMmaOvw g a b s
  | .matrixStep gid => Sys2Proof.Machine.execMatrixStep gid s
  | .xCommandComplete gid => Sys2Proof.Machine.execXCommandComplete gid s
  | .mfmt g index a => Sys2Proof.Machine.execMfmt g index a s
  | .awin g a => Sys2Proof.Machine.execAwin g a s
  | .aclr g a => Sys2Proof.Machine.execAclr g a s
  | .aepi g d a b off sp sc => Sys2Proof.Machine.execAepi g d a b off sp sc s
  | .ald g d a => Sys2Proof.Machine.execAld g d a s
  | .ast g d a => Sys2Proof.Machine.execAst g d a s
  | .mstatStat g d a => Sys2Proof.Machine.execMstatStat g d a s
  | .mstatWait g d a => Sys2Proof.Machine.execMstatWait g d a s
  | .mstatOvf g d a => Sys2Proof.Machine.execMstatOvf g d a s
  | .mstatOvfc g d a => Sys2Proof.Machine.execMstatOvfc g d a s
  | .mstatFerr g d a => Sys2Proof.Machine.execMstatFerr g d a s
  | .mstatFerrc g d a => Sys2Proof.Machine.execMstatFerrc g d a s
  | .mstatNest g d a => Sys2Proof.Machine.execMstatNest g d a s
  | .mstatNests g d a => Sys2Proof.Machine.execMstatNests g d a s
  | .mstatFmt g d a => Sys2Proof.Machine.execMstatFmt g d a s
  | .mstop g => Sys2Proof.Machine.execMstop g s
  | .dclaim g => Sys2Proof.Machine.execDclaim g s
  | .dclaimTry g q => Sys2Proof.Machine.execDclaimTry g q s
  | .dfree g => Sys2Proof.Machine.execDfree g s
  | .dpatch g a b => Sys2Proof.Machine.execDpatch g a b s
  | .dinit g d a b => Sys2Proof.Machine.execDinit g d a b s
  | .dsave g d a => Sys2Proof.Machine.execDsave g d a s
  | .dsaveTq g d => Sys2Proof.Machine.execDsaveTq g d s
  | .drest g d => Sys2Proof.Machine.execDrest g d s
  | .drestTq g d => Sys2Proof.Machine.execDrestTq g d s
  | .dclk g dom a => Sys2Proof.Machine.execDclk g dom a s
  | .dstep g mask a => Sys2Proof.Machine.execDstep g mask a s
  | .dstep64 g mask imm => Sys2Proof.Machine.execDstep64 g mask imm s
  | .drun g mask a => Sys2Proof.Machine.execDrun g mask a s
  | .drun64 g mask imm => Sys2Proof.Machine.execDrun64 g mask imm s
  | .dhalt g mask => Sys2Proof.Machine.execDhalt g mask s
  | .dtap g tap a => Sys2Proof.Machine.execDtap g tap a s
  | .drdY g d a => Sys2Proof.Machine.execDrdY g d a s
  | .drdR g d a => Sys2Proof.Machine.execDrdR g d a s
  | .drdPatch g d a => Sys2Proof.Machine.execDrdPatch g d a s
  | .drdDz g d a => Sys2Proof.Machine.execDrdDz g d a s
  | .drdTapc g d a => Sys2Proof.Machine.execDrdTapc g d a s
  | .drdTapn g d a => Sys2Proof.Machine.execDrdTapn g d a s
  | .drdPort g d a => Sys2Proof.Machine.execDrdPort g d a s
  | .dwrY g a b => Sys2Proof.Machine.execDwrY g a b s
  | .dwrR g a b => Sys2Proof.Machine.execDwrR g a b s
  | .dwrPort g a b => Sys2Proof.Machine.execDwrPort g a b s
  | .dwrPcfg g a b => Sys2Proof.Machine.execDwrPcfg g a b s
  | .dwrTapc g a b => Sys2Proof.Machine.execDwrTapc g a b s
  | .dstatStat g d => Sys2Proof.Machine.execDstatStat g d s
  | .dstatWait g d => Sys2Proof.Machine.execDstatWait g d s
  | .dstatSteps g d a => Sys2Proof.Machine.execDstatSteps g d a s
  | .ddaCycle core => Sys2Proof.Machine.execDdaCycle core s
  | .freeDomainTick core dom => Sys2Proof.Machine.execFreeDomainTick core dom s
  | .bvhset f x => Sys2Proof.Machine.execBvhset f x s
  | .beam f x => Sys2Proof.Machine.execBeam f x s
  | .ray f => Sys2Proof.Machine.execRay f s
  | .ray64 f x => Sys2Proof.Machine.execRay64 f x s
  | .bres f x => Sys2Proof.Machine.execBres f x s
  | .bsplit f x => Sys2Proof.Machine.execBsplit f x s
  | .cover f x => Sys2Proof.Machine.execCover f x s
  | .robeg f x => Sys2Proof.Machine.execRobeg f x s
  | .roend f => Sys2Proof.Machine.execRoend f s
  | .gbst f x => Sys2Proof.Machine.execGbst f x s
  | .bstatSlot f x => Sys2Proof.Machine.execBstatSlot f x s
  | .bstatScene f x => Sys2Proof.Machine.execBstatScene f x s
  | .bstatDepth f x => Sys2Proof.Machine.execBstatDepth f x s
  | .bstatOrd f x => Sys2Proof.Machine.execBstatOrd f x s
  | .bstatOrda f x => Sys2Proof.Machine.execBstatOrda f x s
  | .illegalLineFault d => Sys2Proof.Machine.execIllegalLineFault d s
  | .asyncTrap gid => Sys2Proof.Machine.execAsyncTrap gid s
  | .parktExpiry gid => Sys2Proof.Machine.execParktExpiry gid s
  | .watchRequeue gid => Sys2Proof.Machine.execWatchRequeue gid s
  | .stallTimeout gid => Sys2Proof.Machine.execStallTimeout gid s
  | .hangTimerExpiry gid => Sys2Proof.Machine.execHangTimerExpiry gid s
  | .groupRestore gid place => Sys2Proof.Machine.execGroupRestore gid place s
  | .taskStart ctx task place => Sys2Proof.Machine.execTaskStart ctx task place s
  | .teamPlace launch places => Sys2Proof.Machine.execTeamPlace launch places s
  | .teamStaggerStart launch places => Sys2Proof.Machine.execTeamStaggerStart launch places s
  | .passoverLimit die item => Sys2Proof.Machine.execPassoverLimit die item s
  | .pendingLaunchDrain core => Sys2Proof.Machine.execPendingLaunchDrain core s
  | .dieListTake ctx die => Sys2Proof.Machine.execDieListTake ctx die s
  | .hostLaunchDoorbell ctx wrptr => Sys2Proof.Machine.execHostLaunchDoorbell ctx wrptr s
  | .hostRecordConsume ctx => Sys2Proof.Machine.execHostRecordConsume ctx s
  | .teamParked team => Sys2Proof.Machine.execTeamParked team s
  | .currentGovernorCycle die => Sys2Proof.Machine.execCurrentGovernorCycle die s
  | .telemetrySample die r => Sys2Proof.Machine.execTelemetrySample die r s
  | .create ctx => Sys2Proof.Machine.execCreate ctx s
  | .preempt ctx => Sys2Proof.Machine.execPreempt ctx s
  | .resume ctx => Sys2Proof.Machine.execResume ctx s
  | .inval ctx => Sys2Proof.Machine.execInval ctx s
  | .invalComplete ctx => Sys2Proof.Machine.execInvalComplete ctx s
  | .lreset ctx => Sys2Proof.Machine.execLreset ctx s
  | .destroy ctx => Sys2Proof.Machine.execDestroy ctx s
  | .cmdWriteWhileBusy ctx code => Sys2Proof.Machine.execCmdWriteWhileBusy ctx code s
  | .update => Sys2Proof.Machine.execUpdate s
  | .commit => Sys2Proof.Machine.execCommit s
  | .retire => Sys2Proof.Machine.execRetire s
  | .recal => Sys2Proof.Machine.execRecal s
  | .powcompatWrite die v => Sys2Proof.Machine.execPowcompatWrite die v s
  | .didtWrite die v => Sys2Proof.Machine.execDidtWrite die v s
  | .registerWrite off v => Sys2Proof.Machine.execRegisterWrite off v s
  | .hostBar2Write pa bytes => Sys2Proof.Machine.execHostBar2Write pa bytes s
  | .hostBar2Read pa count => Sys2Proof.Machine.execHostBar2Read pa count s
  | .fabricRemoteAccess pkg pa op => Sys2Proof.Machine.execFabricRemoteAccess pkg pa op s
  | .packageUnreachable pkg => Sys2Proof.Machine.execPackageUnreachable pkg s
  | .linkErrorRetrain link laneLost => Sys2Proof.Machine.execLinkErrorRetrain link laneLost s
  | .bridgeLinkError bridge => Sys2Proof.Machine.execBridgeLinkError bridge s
  | .errorDetected e => Sys2Proof.Machine.execErrorDetected e s
  | .unitRetirement cls die unit => Sys2Proof.Machine.execUnitRetirement cls die unit s
  | .hbmRetrain die channel => Sys2Proof.Machine.execHbmRetrain die channel s
  | .bootVerify die => Sys2Proof.Machine.execBootVerify die s
  | .getVersion => Sys2Proof.Machine.execGetVersion s
  | .getCapabilities => Sys2Proof.Machine.execGetCapabilities s
  | .negotiateAlgorithms => Sys2Proof.Machine.execNegotiateAlgorithms s
  | .getDigests => Sys2Proof.Machine.execGetDigests s
  | .getCertificate offset length => Sys2Proof.Machine.execGetCertificate offset length s
  | .challenge nonce => Sys2Proof.Machine.execChallenge nonce s
  | .getMeasurements index => Sys2Proof.Machine.execGetMeasurements index s
  | .spdmSessionRequest => Sys2Proof.Machine.execSpdmSessionRequest s
  | .illegalInstructionFault d => Sys2Proof.Machine.execIllegalInstructionFault d s
  | .accessTakesEffect gid index => Sys2Proof.Machine.execAccessTakesEffect gid index s
  | .ddaEventApplied core => Sys2Proof.Machine.execDdaEventApplied core s
  | .retrainComplete bridge index ok => Sys2Proof.Machine.execRetrainComplete bridge index ok s
  | .firmwareSwitchEnd die selfTest => Sys2Proof.Machine.execFirmwareSwitchEnd die selfTest s

end Sys2Proof.Machine
end

