-- ==== Sys2Proof/Machine/Issue.lean ====
section
/-! DEFINITION. The clock (log 3), and the fetch and issue of one lane by the group in focus (R22, R36 to R43, R120, R390,
R444). -/

namespace Sys2Proof.Machine

/-! ## The clock -/

/-- A cycle passes (R32, %CYC and %TOD). -/
def State.tick (s : State) : State :=
  { s with dies := s.dies.map fun d => { d with cyc := d.cyc + 1 }, tod := s.tod + 1 }

/-- What the device does by itself in the cycle of a turn: claims are granted (R427), watches re-queue (R138, R305); then the clock moves
on. -/
def State.endCycle (s : State) : State := s.settleClaims.noteMarks.requeueFired.tick

/-- The cycle of a turn ends. -/
def ticked (r : Out) : Out :=
  match r with
  | .next t => .next t.endCycle
  | .fault f => .fault f
  | .refused f => .refused f

/-! ## Issue -/

/-- The lane at the position of the group in focus: an instruction whose engine stands there is issued, and every other
lane is passed over. -/
noncomputable def State.issueLane (s : State) (ws : List Word) : Out :=
  let p := s.position
  let lead := s.occ.leader s.tile
  match decodeLane s.tile ws (laneOf p) with
  | .pass => .next (s.mapOcc (·.moveWith lead (p + 4)))
  | .issue e n i =>
    match i with
    | .illegalLineFault d => exec (.illegalLineFault d) s
    | i =>
      if s.occ.standsWith lead e then s.singleStep e p (exec i s)
      else .next (s.mapOcc (·.moveWith lead (p + BitVec.ofNat 64 (4 * n))))

/-- The group in focus has fetched a line; it keeps the words, and what it sees of shared registers, until it leaves the line (R33,
R44). -/
def State.enterLine (s : State) (line : DWord) (ws : List Word) : State :=
  if s.occ.line.any (·.addr == line) then s
  else s.mapOcc fun o => { o with line := some { addr := line, words := ws, seen := s.sharedNow } }

/-- The group in focus goes on by one: an occupant that must end ends, a cause that waits is taken, a queue entry is
followed, a line is left behind, or a lane is issued. -/
noncomputable def State.issue (s : State) : Out :=
  if s.me.run ≠ .running then .next s
  else if s.occ.ending then run .k 1 s s.parkEnd
  else if !s.occ.trapLevel && s.occ.causes != [] then exec (.asyncTrap s.me.gid) s
  else match s.queued with
    | some en => .next (s.follow en)
    | none =>
      if laneOf s.position = 0 then exec .lineEndAction s
      else match s.fetched (lineOf64 s.position) with
        | .error st => s.stop (s.occ.leader s.tile) 1 st
        | .ok ws => (s.enterLine (lineOf64 s.position) ws).issueLane ws

end Sys2Proof.Machine
end

