-- ==== Sys2Proof/Machine/Turns.lean ====
section
/-! DEFINITION. Whose turn it is (log 2), and the placing of one instruction where the next fetch reads it (log 5). -/

namespace Sys2Proof.Machine

/-! ## Turns (log 2) -/

/-- What the package does by itself for a group, while another turn is not given. -/
noncomputable def groupEvents (g : Group) : List Instr :=
  let id := g.gid
  let os := g.occ :: g.under
  let cmds := os.flatMap fun o => o.cmds.flatMap fun c =>
    [.moveProgress id c.uid, .tmcastDelivery id c.uid, .csendLanded id c.uid, .memoryCommandComplete id c.uid]
  let streams := (g.occ.streams.zipIdx.filter fun w => w.1.bound).map fun w => .streamFetch id w.2
  let xs := if os.any fun o => o.xcmds != [] then [.matrixStep id, .xCommandComplete id] else []
  let stores := if os.any fun o => o.stores != [] then [.accessTakesEffect id 0] else []
  cmds ++ streams ++ xs ++ stores
    ++ [.parktExpiry id, .watchRequeue id, .stallTimeout id, .hangTimerExpiry id]

/-- What the package does by itself for dies, cores, contexts, launches and teams. -/
noncomputable def State.packageEvents (s : State) : List Instr :=
  (List.range 4).map (fun d => .currentGovernorCycle d)
    ++ (List.range 4).map (fun d => .governorApplyMark d)
    ++ (s.cores.filter fun c => c.dda.owner.isSome).flatMap (fun c => [.ddaEventApplied c.key, .ddaCycle c.key])
    ++ s.ctxs.zipIdx.flatMap (fun c => [.hostRecordConsume c.2, .invalComplete c.2] ++ (if c.1.state = 2 then [.destroy c.2] else [])
        ++ (List.range 4).map fun d => .dieListTake c.2 d)
    ++ (s.launches.filter fun l => l.stage == .pending).map (fun l => .pendingLaunchDrain l.core)
    ++ (s.launches.filter fun l => l.drain.isSome).map (fun l => .drainComplete l.uid)
    ++ s.teams.map (fun t => .teamParked t.uid)
    ++ (List.range 4).flatMap (fun d => ((s.dieAt d).retiring.map fun u => .unitRetirement (BitVec.ofNat 4 u.1) d u.2)
        ++ (if (s.dieAt d).routesAwaited then [.unitRetirement 0 d 0] else []))

/-- Turns that the package takes by itself: every running group, and every event that needs no input. -/
noncomputable def State.background (s : State) : List Turn :=
  (s.groups.filter fun g => g.run == .running).map (fun g => .issue g.gid)
    ++ (s.groups.flatMap groupEvents ++ s.packageEvents).map .happen

/-- The events that the world, the device's controllers or the clock bring about. The rows of the table that the issue
of a lane brings about are not among them. -/
def Instr.isEvent (i : Instr) : Bool :=
  match i with
  | .illegalLineFault _ => false
  | .illegalInstructionFault _ => false
  | .lineEndAction => false
  | i => i.form.isNone

/-- A translation unit keeps the valid translation of a page (R395). -/
def State.keepPage (s : State) (ctx va : Nat) : State :=
  match s.leaf ctx va with
  | .ok (e, shift) =>
    let k : Kept := { ctx, shift, page := va / 2 ^ shift, entry := BitVec.ofNat 64 e }
    if s.tlb.contains k then s else { s with tlb := k :: s.tlb }
  | .error _ => s

noncomputable def State.take (s : State) : Turn → Out
  | .issue gid => (s.focus gid).issue
  | .happen ev => if Instr.isEvent ev then exec ev s else .next s
  | .keep ctx va => .next (s.keepPage ctx va)
  | .hostRead off => .next (s.hostRead off)

/-- Whether the group in focus goes on: it runs and does not wait, and it is not one of the turns, every eighth, that
the others have. -/
def State.mine (s : State) : Bool :=
  s.me.run == .running && s.occ.wait.isNone && (s.dieAt 0).cyc % 8 != 7

/-! ## Placing one instruction (log 5) -/

/-- The key of a page-table entry that maps GLOBAL [0, 2^30) to HBM [0, 2^30) of die 0 with every right. -/
def bootTables (m : Memory) : Memory :=
  (m.setN (hbmKey 0x1000) 8 0x2003).setN (hbmKey 0x2000) 8 0x1D

def bootLine : DWord := 0x10000

/-- A context with that table, its handler at 0x20000. -/
def bootCtx (c : Ctx) : Ctx :=
  { c with desc := [0x1000, 0x0100000000010001, 0x20000], state := 1 }

/-- A group of width 16 with 64 registers, alone in a team of its own, that stands at a line. -/
def bootGroup (gid team core : Nat) : Group :=
  { Group.vacant with
    gid, run := .running, place := ⟨core, 0⟩,
    occ := { Occ.empty with
      team, launch := 1, ngroup := 1, count := 64, lanePrivBase := gid + 1, pcs := Pcs.all (bootLine + 4),
      flow := { Flow.empty with mask := allLanes 16 }, saveptr := 0x40000 } }

def bootTeam (uid core : Nat) : Team :=
  { uid, ctx := 0, launch := 0, index := 0, cores := [core], unitBase := 0, unitSize := 0, live := 1, barriers := [],
    credit := 0, claims := [], abort := none, preempting := false, parked := false, resuming := false, relocate := false }

/-- A launched group in focus, on a shade core or an N-tile: what a launch leaves behind before its first instruction. -/
def State.launched (s : State) (tile : Bool) : State :=
  let core := if tile then Config.coreKey 2 0 else Config.coreKey 0 0
  let t := s.modCtx 0 bootCtx
  { t with mem := bootTables t.mem, me := bootGroup (s.uid + 1) s.uid core, teams := t.teams ++ [bootTeam s.uid core],
           uid := s.uid + 3 }

/-- A line at the position of the group in focus, which stands at its lane 1; nothing else has a turn before it. -/
def State.placeLine (s : State) (line : List Byte) : State :=
  let at' := lineOf64 s.position
  let mem := match s.translate s.me.ctx at' .fetch with
    | .ok k => s.mem.setBytes k line
    | .error _ => s.mem
  { s with mem, agenda := .issue s.me.gid :: s.agenda }.mapOcc fun o =>
    { o with pcs := Pcs.all (at' + 4), line := none }

end Sys2Proof.Machine
end

