-- ==== Sys2Proof/Machine/Step.lean ====
section
/-! DEFINITION. One step of the package, and a state whose next step runs a given instruction. -/

namespace Sys2Proof.Machine

/-- One step of the package. -/
noncomputable def step (s : State) : Host.Outcome State Fault Refusal :=
  match s.agenda with
  | t :: ts => ticked (({ s with agenda := ts } : State).take t)
  | [] =>
    if s.mine then ticked s.issue
    else
      let l := s.background
      match l[s.idle % l.length]? with
      | some t => ticked (({ s with idle := s.idle + 1 } : State).take t)
      | none => .next s.endCycle

/-- s with an instruction of the opcode table where the next step fetches it: in lane 1 of the line at which the running
group in focus stands, or, where no group is in focus, of a group that has just been launched. -/
noncomputable def State.withFetchWord (s : State) (nbits w : Nat) : State :=
  let w0 : Word := BitVec.ofNat 32 w
  let x : Option Word := if 32 < nbits then some (BitVec.ofNat 32 (w / 2 ^ 32)) else none
  let e := (tableEngine w0 x).getD .k
  let t := if s.me.run = .running then s else s.launched (e != .b)
  t.placeLine (lineOf e w0 x)

end Sys2Proof.Machine
end

