-- ==== Sys2Proof/WellFormed.lean ====
section
/-! DEFINITION. Well-formed instructions: those that an encoding of the spec stands for (R38 to R59), and events whose
subjects exist on the AH-7716-LC (R3, R404, R410, R449). -/

namespace Sys2Proof

def dieOk (die : Nat) : Bool := decide (die < 4)

/-- A core key names an enabled core (R3). -/
def coreOk (key : Nat) : Bool :=
  decide (Config.coreDie key < 4) && decide (Config.coreIndex key < Config.coresOf (Config.coreDie key))

/-- A place names a slot of an enabled core (R15, R16). -/
def Place.ok (p : Place) : Bool := coreOk p.core && decide (p.slot < Config.slotsOf (Config.isTile p.core))

/-- An access of another package that an instruction of it makes (R177, R178). -/
def RemoteOp.ok (pa : Nat) : RemoteOp → Bool
  | .atomic aop sz _ => decide (aop < 14) && (sz == 2 || sz == 3) && pa % 2 ^ sz == 0
  | .cas sz _ _ => (sz == 2 || sz == 3) && pa % 2 ^ sz == 0
  | _ => true

/-- The checks of a row of the table that no lane word encodes. -/
def Instr.eventOk : Instr → Bool
  | .illegalLineFault d => decide (d.lane ≤ 7) && decide (1 ≤ d.sub) && decide (d.sub ≤ 6)
  | .illegalInstructionFault d =>
    decide (1 ≤ d.lane) && decide (d.lane ≤ 7) && decide (1 ≤ d.sub) && decide (d.sub ≤ 7)
  | .groupRestore _ p => p.ok
  | .taskStart _ _ p => p.ok
  | .teamPlace _ ps => ps != [] && ps.all Place.ok
  | .teamStaggerStart _ ps => ps != [] && ps.all Place.ok
  | .passoverLimit d _ => dieOk d
  | .pendingLaunchDrain c => coreOk c
  | .dieListTake _ d => dieOk d
  | .currentGovernorCycle d => dieOk d
  | .governorApplyMark d => dieOk d
  | .telemetrySample d _ => dieOk d
  | .powcompatWrite d _ => dieOk d
  | .didtWrite d _ => dieOk d
  | .fabricRemoteAccess p pa op => decide (p < 64) && op.ok pa.toNat
  | .packageUnreachable p => decide (p < 64)
  | .linkErrorRetrain l _ => decide (l < 12)
  | .bridgeLinkError b => decide (b < 4)
  | .retrainComplete b l _ => decide (l < if b then 4 else 12)
  | .errorDetected e => dieOk e.die && decide (e.cls.toNat ≤ 10)
  | .unitRetirement _ d _ => dieOk d
  | .hbmRetrain d _ => dieOk d
  | .bootVerify d => dieOk d
  | .ddaEventApplied c => coreOk c
  | .ddaCycle c => coreOk c
  | .firmwareSwitchEnd d _ => dieOk d
  | _ => true

/-- BSTAT's rows are told apart by the function in c[6:4] (R270). -/
def Instr.rowOk : Instr → Bool
  | .bstatSlot _ x => x.c.toNat / 16 == 0
  | .bstatScene _ x => x.c.toNat / 16 == 1
  | .bstatDepth _ x => x.c.toNat / 16 == 2
  | .bstatOrd _ x => x.c.toNat / 16 == 3
  | .bstatOrda _ x => x.c.toNat / 16 == 4
  | _ => true

/-- A lane instruction is well formed when its words have no defect (R58); an event when its subject exists. -/
def Instr.wf (i : Instr) : Bool :=
  match i.form with
  | some fm => i.rowOk && lowest fm.defects == none
  | none => i.eventOk

end Sys2Proof
end

