-- ==== Sys2Proof/Safety.lean ====
section
/-! DEFINITION. What a safe run is, and the vocabulary of the statements: an instruction that completes, what it may have
changed (its frame), and where it stands afterwards. -/

namespace Sys2Proof.Machine

/-- An instruction completes: exec answers a next state, of which P holds. -/
def Runs (i : Instr) (s : State) (P : State → Prop) : Prop := ∃ t, exec i s = .next t ∧ P t

/-- A step is safe when it answers a next state. -/
def SafeStep (s : State) : Prop := ∃ t, step s = .next t

/-! ## Frames -/

/-- Every byte of every memory reads as before. -/
def State.BytesSame (s t : State) : Prop := ∀ k, Memory.get t.mem k = Memory.get s.mem k

/-- Every byte of memory outside [lo, lo + n) reads as before. -/
def State.BytesSameOutside (s t : State) (lo n : Nat) : Prop :=
  ∀ k, (k < lo ∨ lo + n ≤ k) → Memory.get t.mem k = Memory.get s.mem k

def State.SameV (s t : State) : Prop := ∀ r i, t.occ.getV r i = s.occ.getV r i
def State.SameP (s t : State) : Prop := ∀ r, t.occ.getP r = s.occ.getP r
def State.SameS (s t : State) : Prop := ∀ r : BitVec 6, t.getS r = s.getS r
def State.SameQ (s t : State) : Prop := ∀ r : BitVec 3, t.occ.getQ r.toNat = s.occ.getQ r.toNat

/-- The general registers read as before. -/
def State.SameRegs (s t : State) : Prop := s.SameV t ∧ s.SameP t ∧ s.SameS t ∧ s.SameQ t

/-- Only general registers, program counters, the wait and the progress clock of the running occupant may differ. -/
def State.OnlyRegs (s t : State) : Prop :=
  t = { s with me := { s.me with
          progress := t.me.progress, recorded := t.me.recorded
          occ := { s.me.occ with regs := t.me.occ.regs, pcs := t.me.occ.pcs, wait := t.me.occ.wait } } }

/-- Engine e has gone on by n lanes, and the group does not wait. -/
def State.Moved (s t : State) (e : Eng) (n : Nat) : Prop :=
  t.pcOf e = s.pcOf e + BitVec.ofNat 64 (4 * n) ∧ t.occ.wait = none

/-- Nothing but s[d] has changed, which holds x unless it is s0, and the engine has gone on. -/
def State.WroteS (s t : State) (e : Eng) (n : Nat) (d : BitVec 6) (x : DWord) : Prop :=
  s.OnlyRegs t ∧ s.BytesSame t ∧ s.SameV t ∧ s.SameP t ∧ s.SameQ t ∧ s.Moved t e n
    ∧ ∀ r : BitVec 6, t.getS r = if r = d ∧ d ≠ 0 then x else s.getS r

/-- Nothing but q[d] has changed, which holds x unless it is q0, and the engine has gone on. -/
def State.WroteQ (s t : State) (e : Eng) (n : Nat) (d : BitVec 3) (x : Bool) : Prop :=
  s.OnlyRegs t ∧ s.BytesSame t ∧ s.SameV t ∧ s.SameP t ∧ s.SameS t ∧ s.Moved t e n
    ∧ ∀ r : BitVec 3, t.occ.getQ r.toNat = if r = d ∧ d ≠ 0 then x else s.occ.getQ r.toNat

/-- No register has changed, and the engine has gone on. -/
def State.WroteNothing (s t : State) (e : Eng) (n : Nat) : Prop :=
  s.OnlyRegs t ∧ s.BytesSame t ∧ s.SameRegs t ∧ s.Moved t e n

/-- Behind u, an update of the state that is written out, engine e has gone on by n lanes; nothing else differs. -/
def State.ThenMoved (u t : State) (e : Eng) (n : Nat) : Prop :=
  t = { u with me := { u.me with
          progress := t.me.progress, recorded := t.me.recorded
          occ := { u.me.occ with pcs := t.me.occ.pcs, wait := t.me.occ.wait } } }
    ∧ u.Moved t e n

/-- Where a group issues an instruction of the K engine with nothing left in the branch-outcome queue: every engine stands with the K
engine, or behind it in its line up to the place after the line (R23, R444). -/
def State.Together (s : State) : Prop :=
  s.occ.flow.boq = [] ∧ s.occ.flow.pops = Pcs.all 0
    ∧ ∀ e, Eng.present s.tile e = true → ∃ j, s.pcOf e = s.pcOf .k + BitVec.ofNat 64 (4 * j) ∧ laneOf (s.pcOf .k) + j ≤ 9

/-- Behind u, the line is left and every engine continues at a (R40, R32); no general register and no byte changes. -/
def State.Landed (u t : State) (a : DWord) : Prop :=
  t = { u.leaveLine with me := { u.leaveLine.me with
          progress := t.me.progress, recorded := t.me.recorded
          occ := { u.leaveLine.me.occ with pcs := Pcs.all a, wait := none } } }
    ∧ u.SameRegs t ∧ u.BytesSame t

/-- The same at lane 1 of a line (R41). -/
def State.LandedOn (u t : State) (line : DWord) : Prop := u.Landed t (lineOf64 line + 4)

/-- A line, if it can be fetched, carries T (R41). -/
def State.CarriesT (s : State) (line : DWord) : Prop := ∀ ws, s.fetch line = .ok ws → lineT ws = true

/-- A trap of engine e at its instruction, with %TINFO and %TADDR (R369, R371, R373). -/
def State.trapped (s : State) (e : Eng) (code : Nat) (info addr : DWord) : Host.Outcome State Fault Refusal :=
  .next (s.trap { code, eng := e, info, addr } (s.pcOf e))

/-- The same with the instruction's address in %TADDR. -/
def State.trappedAt (s : State) (e : Eng) (code : Nat) : Host.Outcome State Fault Refusal := s.trapped e code 0 (s.pcOf e)

/-! ## Lane instructions -/

/-- Every v-register that an instruction names lies below the current count of its occupant (R20, R323). -/
def State.CountOk (s : State) (i : Instr) : Prop :=
  ∀ fm, i.form = some fm → fm.countDefects s.occ.width s.occ.count = []

/-- The extension fields of a V instruction in either length (R51). -/
def fieldsOf (op : Nat) (x : Option VX) : VX := x.getD (defaultVX op)

/-- Stream elements that each enabled lane takes (R144). -/
def perLane (x : VX) (word : Bool) : Nat := if x.pair && !word then 2 else 1

/-- A stream operand has every element it needs, and no port of the DDA takes them (R144, R244). -/
def State.OperandReady (s : State) (f : VF) (x : VX) (word : Bool) : Prop :=
  x.bk = 2 → s.lanes .v f ≠ [] → s.portBound f.b.toNat = false
    ∧ (s.lanes .v f).length * perLane x word ≤ (s.arrived f.b.toNat).length

/-- The b operand of lane i (R50, R52, R144, R147). -/
def State.operand (s : State) (f : VF) (x : VX) (word : Bool) (i : Nat) : Nat :=
  let pair := x.pair && !word
  let j := rankOf (s.lanes .v f) i
  let elem (k : Nat) : Nat := ((s.arrived f.b.toNat).getD k 0).toNat
  match x.bk.toNat with
  | 0 => s.occ.raw pair f.b.toNat i
  | 1 => if pair then (s.occ.getS f.b.toNat).toNat else (s.occ.getS f.b.toNat).toNat % 2 ^ 32
  | 2 => if pair then elem (2 * j) + elem (2 * j + 1) * 2 ^ 32 else elem j
  | _ => if word then (x.imm.signExtend 32).toNat else immOperand x

/-- The state once the b operand has been taken: a stream has lost the elements consumed (R144). -/
def State.operandTaken (s : State) (f : VF) (x : VX) (word : Bool) : State :=
  if x.bk = 2 ∧ s.lanes .v f ≠ [] then s.consume f.b.toNat ((s.lanes .v f).length * perLane x word) else s

/-- Behind u, only v-registers have changed, n saturations have been counted, and engine e has gone on. -/
def State.OnlyV (u t : State) (n : Nat) : Prop :=
  t = { u.countSat n with me := { u.me with
          progress := t.me.progress, recorded := t.me.recorded
          occ := { u.me.occ with
            regs := { u.me.occ.regs with v := t.me.occ.regs.v }, pcs := t.me.occ.pcs, wait := t.me.occ.wait } } }

/-- The same with n saturations and m format errors counted. -/
def State.OnlyVCounting (u t : State) (n m : Nat) : Prop :=
  t = { (u.countSat n).countFmt m with me := { u.me with
          progress := t.me.progress, recorded := t.me.recorded
          occ := { u.me.occ with
            regs := { u.me.occ.regs with v := t.me.occ.regs.v }, pcs := t.me.occ.pcs, wait := t.me.occ.wait } } }

/-- The v-registers of t are those of s, but that in the lanes listed v[d], or the pair at d, holds r. -/
def State.WroteV (s t : State) (ls : List Nat) (pair : Bool) (d : Nat) (r : Nat → Nat) : Prop :=
  ∀ k j, t.occ.getV k j =
    if j ∈ ls ∧ k = d then BitVec.ofNat 32 (r j)
    else if pair = true ∧ j ∈ ls ∧ k = d + 1 then BitVec.ofNat 32 (r j / 2 ^ 32)
    else s.occ.getV k j

/-- The v-registers of t are those of s, but that in the lanes listed v[d + k] holds r of the lane and k, for k < n. -/
def State.WroteRange (s t : State) (ls : List Nat) (d n : Nat) (r : Nat → Nat → Nat) : Prop :=
  ∀ k j, t.occ.getV k j =
    if j ∈ ls ∧ d ≤ k ∧ k < d + n then BitVec.ofNat 32 (r j (k - d)) else s.occ.getV k j

/-- Saturations of the lanes listed. -/
def satsOf (ls : List Nat) (r : Nat → Nat × Nat) : Nat := (ls.map fun i => (r i).2).sum

/-- Only p-registers have changed behind u: in the lanes of `en`, p[d] holds r; p0 stays true. -/
def State.WroteP (s u t : State) (en : DWord) (d : Nat) (r : Nat → Bool) : Prop :=
  t = { u with me := { u.me with
          progress := t.me.progress, recorded := t.me.recorded
          occ := { u.me.occ with
            regs := { u.me.occ.regs with p := t.me.occ.regs.p }, pcs := t.me.occ.pcs, wait := t.me.occ.wait } } }
    ∧ ∀ k i, i < s.occ.width → (t.occ.getP k).getLsbD i =
        if k = d ∧ d ≠ 0 ∧ en.getLsbD i = true then r i else (s.occ.getP k).getLsbD i

/-- The words of a V instruction. -/
def vWords (x : Option VX) : Nat := if x.isSome then 2 else 1

/-- Instruction i gives v[d] of every enabled lane what r makes of the lane, its A and its B; every other register, lane
and byte is as before. -/
def LaneWrites (i : Instr) (op : Nat) (f : VF) (xo : Option VX) (word : Bool)
    (r : VX → State → Nat → Nat → Nat → Nat × Nat) : Prop :=
  ∀ s : State, s.CountOk i → s.OperandReady f (fieldsOf op xo) word →
    let x := fieldsOf op xo
    let u := s.operandTaken f x word
    let res := fun l => r x s l (s.occ.raw x.pair f.a.toNat l) (s.operand f x word l)
    Runs i s fun t =>
      u.OnlyV t (satsOf (s.lanes .v f) res) ∧ s.BytesSame t ∧ s.Moved t .v (vWords xo)
        ∧ s.WroteV t (s.lanes .v f) x.pair f.d.toNat (fun l => (res l).1)

/-- The same of an instruction without a b operand; `pair` tells whether the result is a pair. -/
def LaneWrites1 (i : Instr) (op : Nat) (f : VF) (xo : Option VX) (pair : Bool)
    (r : VX → State → Nat → Nat → Nat × Nat) : Prop :=
  ∀ s : State, s.CountOk i →
    let x := fieldsOf op xo
    let res := fun l => r x s l (s.occ.raw x.pair f.a.toNat l)
    Runs i s fun t =>
      s.OnlyV t (satsOf (s.lanes .v f) res) ∧ s.BytesSame t ∧ s.Moved t .v (vWords xo)
        ∧ s.WroteV t (s.lanes .v f) pair f.d.toNat (fun l => (res l).1)

/-- Instruction i sets p[d[3:0]] in every enabled lane to what r makes of A and B. -/
def LaneCompares (i : Instr) (op : Nat) (f : VF) (xo : Option VX) (r : VX → Nat → Nat → Bool) : Prop :=
  ∀ s : State, s.occ.width ≤ 64 → s.CountOk i → s.OperandReady f (fieldsOf op xo) false →
    let x := fieldsOf op xo
    Runs i s fun t =>
      s.WroteP (s.operandTaken f x false) t (s.enabled .v f) (f.d.toNat % 16)
          (fun l => r x (s.occ.raw x.pair f.a.toNat l) (s.operand f x false l))
        ∧ s.BytesSame t ∧ s.Moved t .v (vWords xo)

/-! ## Memory accesses -/

/-- The extension fields of an M instruction in either length. -/
def mFields (x : Option MX) : MX := x.getD defaultMX

/-- The words of an M instruction. -/
def mWords (x : Option MX) : Nat := if x.isSome then 2 else 1

/-- Of the dies only the HBM counters have changed (R434). -/
def State.CountsOnly (s t : State) : Prop :=
  ∀ d, ∃ r w, t.dieAt d = { s.dieAt d with hbmrd := r, hbmwr := w }

/-- Behind u only the HBM counters of the home die of a key have changed: r bytes have been read there and w written (R434). -/
def State.Counted (u v : State) (k r w : Nat) : Prop :=
  v = { u with dies := v.dies }
    ∧ ∀ d, v.dieAt d = { u.dieAt d with
        hbmrd := if r ≠ 0 ∧ hbmDie k = some d then ((u.dieAt d).hbmrd + r) % 2 ^ 64 else (u.dieAt d).hbmrd
        hbmwr := if w ≠ 0 ∧ hbmDie k = some d then ((u.dieAt d).hbmwr + w) % 2 ^ 64 else (u.dieAt d).hbmwr }

/-- Behind s nothing but v-registers and the HBM counters has changed. -/
def State.OnlyLoaded (s t : State) : Prop :=
  t = { s with dies := t.dies, me := { s.me with
          progress := t.me.progress, recorded := t.me.recorded
          occ := { s.me.occ with
            regs := { s.me.occ.regs with v := t.me.occ.regs.v }, pcs := t.me.occ.pcs, wait := t.me.occ.wait } } }
    ∧ s.CountsOnly t

/-- Behind s nothing but memory, what has been stored and not yet taken effect, lost bytes, hardware watches, the HBM counters and
the counter of free values has changed. -/
def State.OnlyStored (s t : State) : Prop :=
  t = { s with mem := t.mem, poison := t.poison, watching := t.watching, dies := t.dies, freeSeq := t.freeSeq, me := { s.me with
          progress := t.me.progress, recorded := t.me.recorded
          occ := { s.me.occ with stores := t.me.occ.stores, pcs := t.me.occ.pcs, wait := t.me.occ.wait } } }
    ∧ s.CountsOnly t

/-- The device reaches n bytes at a virtual address of a context, which stand at key k, whatever these bytes hold: they are no part of
the tables that translate it. -/
def State.Reaches (s : State) (ctx va n k : Nat) : Prop :=
  ∀ m : Memory, (∀ j, (j < k ∨ k + n ≤ j) → Memory.get m j = Memory.get s.mem j) →
    ∀ j < n, ∀ acc : Access, ({ s with mem := m } : State).devKey ctx (va + j) acc = some (k + j)

/-- The save area of the slot can be written, its pieces of 64 bytes at `key`, and, where a task is parked, STATE of its card, at `card`,
whatever the bytes of the area hold: they are no part of the tables that translate it (R138, R377). -/
def State.SaveAreaAt (s : State) (key : Nat → Nat) (card : Nat) : Prop :=
  let base := s.me.bottom.saveptr
  base ≠ 0 ∧ base.toNat % 64 = 0 ∧ ∀ m : Memory,
    (∀ j, (∀ i < 64, j < key i ∨ key i + 64 ≤ j) → Memory.get m j = Memory.get s.drain.mem j) →
    (∀ i < 64, ({ s with mem := m } : State).translate s.me.ctx (base + BitVec.ofNat 64 (64 * i)) .write = .ok (key i))
    ∧ (s.me.bottom.task ≠ 0 →
        ({ s with mem := m } : State).devKey s.me.ctx (s.cardAddr s.me.ctx s.me.bottom.task + 0x14) .write = some card)

/-- The pieces of the save area share no byte with each other, nor with STATE of the card. -/
def PiecesApart (key : Nat → Nat) (card : Nat) : Prop :=
  (∀ i < 64, ∀ j < 64, i ≠ j → key i + 64 ≤ key j ∨ key j + 64 ≤ key i) ∧ ∀ i < 64, card < key i ∨ key i + 64 ≤ card

/-- One of the accesses of an instruction: lane, index, PEER core and address (R56, R172). -/
abbrev Req := Nat × Nat × Nat × DWord

/-- Every access of a list is allowed, names a memory key, and meets no bytes of an incomplete command (R172, R181). -/
def State.Allowed (s : State) (space n : Nat) (acc : Access) (reqs : List Req) (key : Req → Nat) : Prop :=
  (∀ r ∈ reqs, s.keyOf space r.2.2.1 r.1 r.2.2.2 n acc { k := r.2.1, atomic := acc == .both } = .ok (key r))
  ∧ s.checkAccs .m space n acc
      (reqs.map fun r => { lane := r.1, k := r.2.1, core := r.2.2.1, addr := r.2.2.2, key := key r }) = .ok ()

/-- No byte of the accesses is lost (R399). -/
def State.NoneLost (s : State) (n : Nat) (reqs : List Req) (key : Req → Nat) : Prop :=
  ∀ r ∈ reqs, ∀ p ∈ s.poison, ¬ (key r ≤ p ∧ p < key r + n)

/-- Two accesses of n bytes meet in every byte or in none. -/
def KeysApart (n : Nat) (reqs : List Req) (key : Req → Nat) : Prop :=
  ∀ q ∈ reqs, ∀ r ∈ reqs, key q = key r ∨ key q + n ≤ key r ∨ key r + n ≤ key q

/-- Instruction i takes, with no effect, the fault of the first access that a check of R172 turns away. -/
def FirstFaultDecides (i : Instr) (s : State) (space n : Nat) (acc : Access) (reqs : List Req) : Prop :=
  ∀ p r q code info addr, reqs = p ++ r :: q →
    (∀ x ∈ p, ∃ k, s.keyOf space x.2.2.1 x.1 x.2.2.2 n acc { k := x.2.1, atomic := acc == .both } = .ok k) →
    s.keyOf space r.2.2.1 r.1 r.2.2.2 n acc { k := r.2.1, atomic := acc == .both } = .error (.trap code info addr) →
    exec i s = s.trapped .m code info addr

/-- The little-endian value of n bytes as the group sees them: its own latest store, else memory (R7, R336). -/
def State.seen (s : State) (k n : Nat) : Nat := ofBytes (s.peekBytes k n)

/-- No pending store of the group writes a byte of the accesses (R336). -/
def State.NonePending (s : State) (n : Nat) (reqs : List Req) (key : Req → Nat) : Prop :=
  ∀ c ∈ s.occ.stores, ∀ r ∈ reqs, c.1 + c.2.length ≤ key r ∨ key r + n ≤ c.1

/-- The state from which a load reads: the pending stores of the group take effect before it when one of them writes a byte of it
(R336, R342). -/
def State.readFrom (s : State) (n : Nat) (reqs : List Req) (key : Req → Nat) : State :=
  s.settleLoads (reqs.map fun r => (key r, n))

/-- Instruction i loads n = 2^sz bytes in each enabled lane into v[d] (R174, R175). -/
def LaneLoads (i : Instr) (f : VF) (xo : Option MX) (space : Nat) (addr : State → Nat → Nat × DWord) : Prop :=
  ∀ s : State, s.CountOk i →
    let x := mFields xo
    let sz := x.sz.toNat
    let n := 2 ^ sz
    let req := fun (l : Nat) => (l, 0, addr s l)
    let reqs := (s.lanes .m f).map req
    FirstFaultDecides i s space n .read reqs
    ∧ ∀ key, s.Allowed space n .read reqs key → (s.readFrom n reqs key).NoneLost n reqs key → sz ≤ 4 →
      let u := s.readFrom n reqs key
      let v := fun (l : Nat) => u.mem.getN (key (req l)) n
      let w := fun (l : Nat) => if x.c.getLsbD 0 ∧ sz < 2 then ((BitVec.ofNat (8 * n) (v l)).signExtend 32).toNat else v l
      (s.NonePending n reqs key → u = s)
      ∧ Runs i s fun t => u.OnlyLoaded t ∧ s.Moved t .m (mWords xo)
        ∧ (sz ≤ 2 → s.WroteV t (s.lanes .m f) false f.d.toNat w)
        ∧ (sz = 3 → s.WroteV t (s.lanes .m f) true f.d.toNat v)
        ∧ (sz = 4 → s.WroteRange t (s.lanes .m f) f.d.toNat 4 (fun l k => v l / 2 ^ (32 * k)))

/-- Of the accesses that store to one place, one leaves its data there (R176); every other byte is as the group saw it. -/
def State.StoredBy (s t : State) (n : Nat) (reqs : List Req) (key : Req → Nat) (data : Req → Nat) : Prop :=
  (∀ k, (∀ r ∈ reqs, k < key r ∨ key r + n ≤ k) → t.peek k = s.peek k)
  ∧ (KeysApart n reqs key → ∀ r ∈ reqs, ∃ q ∈ reqs, key q = key r
      ∧ ∀ j < n, t.peek (key r + j) = BitVec.ofNat 8 (data q / 256 ^ j))

/-- Instruction i stores the low n = 2^sz bytes of v[d] of each enabled lane (R174 to R176). A plain store is pending until
it takes effect; a release takes effect behind everything that is pending. -/
def LaneStores (i : Instr) (f : VF) (xo : Option MX) (plain : Bool) (space : Nat) (addr : State → Nat → Nat × DWord) : Prop :=
  ∀ s : State, s.CountOk i →
    let x := mFields xo
    let sz := x.sz.toNat
    let n := 2 ^ sz
    let reqs := (s.lanes .m f).map fun l => (l, 0, addr s l)
    FirstFaultDecides i s space n .write reqs
    ∧ ∀ key, s.Allowed space n .write reqs key → sz ≤ 4 →
      Runs i s fun t => s.OnlyStored t ∧ s.SameRegs t ∧ s.Moved t .m (mWords xo)
        ∧ (s.mem.wf = true → s.StoredBy t n reqs key (fun r => s.occ.getData sz f.d.toNat r.1))
        ∧ (plain = true → s.BytesSame t) ∧ (plain = false → reqs ≠ [] → t.occ.stores = [])

end Sys2Proof.Machine
end

