-- ==== Sys2Proof/Certificates/Slice0/Obligations.lean ====
section
/-! DEFINITION. The statements for the provers. -/

open Sys2Proof
open Sys2Proof.Machine

/-! ## Scalar instructions of the K engine -/

/-- R101, R102, R106, R99: moves, constants, selection and NOP, each with its frame. -/
def scalarMovesWriteTheirDestination : Prop :=
  ∀ (s : State) (g : KG), s.guard g = true →
    (Runs (.nop g) s fun t => s.WroteNothing t .k 1)
    ∧ (∀ imm, Runs (.nop64 g imm) s fun t => s.WroteNothing t .k 2)
    ∧ (∀ d a, Runs (.smov g d a) s fun t => s.WroteS t .k 1 d (s.getS a))
    ∧ (∀ d lc, Runs (.smovLc g d lc) s fun t => s.WroteS t .k 1 d ((s.occ.getLc lc.toNat).setWidth 64))
    ∧ (∀ d (imm : BitVec 16), Runs (.sli g d imm) s fun t => s.WroteS t .k 1 d (imm.signExtend 64))
    ∧ (∀ d (hi : BitVec 16) (lo : BitVec 32),
        Runs (.sli64 g d hi lo) s fun t => s.WroteS t .k 2 d ((hi ++ lo).signExtend 64))
    ∧ (∀ d a b q, Runs (.ssel g d a b q) s fun t =>
        s.WroteS t .k 1 d (if s.occ.getQ q.toNat then s.getS a else s.getS b))

/-- The upper half of a product of 128 bits. -/
def upperHalf (x : BitVec 128) : DWord := x.extractLsb' 64 64

/-- R103: the binary family with two registers, and with a register and sext(imm32, 32). -/
def scalarArithmeticWrapsAt64Bits : Prop :=
  ∀ (s : State) (g : KG) (d a b : BitVec 6) (imm : BitVec 32), s.guard g = true →
    let x := s.getS a
    let y := s.getS b
    let z : DWord := imm.signExtend 64
    (Runs (.sadd g d a b) s fun t => s.WroteS t .k 1 d (x + y))
    ∧ (Runs (.saddImm g d a imm) s fun t => s.WroteS t .k 2 d (x + z))
    ∧ (Runs (.ssub g d a b) s fun t => s.WroteS t .k 1 d (x - y))
    ∧ (Runs (.ssubImm g d a imm) s fun t => s.WroteS t .k 2 d (x - z))
    ∧ (Runs (.smul g d a b) s fun t => s.WroteS t .k 1 d (x * y))
    ∧ (Runs (.smulImm g d a imm) s fun t => s.WroteS t .k 2 d (x * z))
    ∧ (Runs (.smulHi g d a b) s fun t => s.WroteS t .k 1 d (upperHalf (x.signExtend 128 * y.signExtend 128)))
    ∧ (Runs (.smulHiImm g d a imm) s fun t => s.WroteS t .k 2 d (upperHalf (x.signExtend 128 * z.signExtend 128)))
    ∧ (Runs (.smulHiu g d a b) s fun t => s.WroteS t .k 1 d (upperHalf (x.setWidth 128 * y.setWidth 128)))
    ∧ (Runs (.smulHiuImm g d a imm) s fun t => s.WroteS t .k 2 d (upperHalf (x.setWidth 128 * z.setWidth 128)))
    ∧ (Runs (.sand g d a b) s fun t => s.WroteS t .k 1 d (x &&& y))
    ∧ (Runs (.sandImm g d a imm) s fun t => s.WroteS t .k 2 d (x &&& z))
    ∧ (Runs (.sor g d a b) s fun t => s.WroteS t .k 1 d (x ||| y))
    ∧ (Runs (.sorImm g d a imm) s fun t => s.WroteS t .k 2 d (x ||| z))
    ∧ (Runs (.sxor g d a b) s fun t => s.WroteS t .k 1 d (x ^^^ y))
    ∧ (Runs (.sxorImm g d a imm) s fun t => s.WroteS t .k 2 d (x ^^^ z))

/-- R103, R104: shifts by bits(y, 5, 0), and signed and unsigned minimum and maximum. -/
def scalarShiftsAndExtremes : Prop :=
  ∀ (s : State) (g : KG) (d a b n : BitVec 6) (imm : BitVec 32), s.guard g = true →
    let x := s.getS a
    let y := s.getS b
    let z : DWord := imm.signExtend 64
    let c := (y.extractLsb' 0 6).toNat
    (Runs (.sshl g d a b) s fun t => s.WroteS t .k 1 d (x <<< c))
    ∧ (Runs (.sshlImm g d a n) s fun t => s.WroteS t .k 2 d (x <<< n.toNat))
    ∧ (Runs (.sshr g d a b) s fun t => s.WroteS t .k 1 d (x >>> c))
    ∧ (Runs (.sshrImm g d a n) s fun t => s.WroteS t .k 2 d (x >>> n.toNat))
    ∧ (Runs (.sshrA g d a b) s fun t => s.WroteS t .k 1 d (x.sshiftRight c))
    ∧ (Runs (.sshrAImm g d a n) s fun t => s.WroteS t .k 2 d (x.sshiftRight n.toNat))
    ∧ (Runs (.smin g d a b) s fun t => s.WroteS t .k 1 d (if x.toInt < y.toInt then x else y))
    ∧ (Runs (.sminImm g d a imm) s fun t => s.WroteS t .k 2 d (if x.toInt < z.toInt then x else z))
    ∧ (Runs (.smax g d a b) s fun t => s.WroteS t .k 1 d (if x.toInt < y.toInt then y else x))
    ∧ (Runs (.smaxImm g d a imm) s fun t => s.WroteS t .k 2 d (if x.toInt < z.toInt then z else x))
    ∧ (Runs (.sminu g d a b) s fun t => s.WroteS t .k 1 d (if x.toNat < y.toNat then x else y))
    ∧ (Runs (.sminuImm g d a imm) s fun t => s.WroteS t .k 2 d (if x.toNat < z.toNat then x else z))
    ∧ (Runs (.smaxu g d a b) s fun t => s.WroteS t .k 1 d (if x.toNat < y.toNat then y else x))
    ∧ (Runs (.smaxuImm g d a imm) s fun t => s.WroteS t .k 2 d (if x.toNat < z.toNat then z else x))

/-- R103, R104: the binary family with two registers, and with a register and sext(imm32, 32). Shifts by bits(y, 5, 0), and signed
and unsigned minimum and maximum. Completes: sadd, saddImm, ssub, ssubImm, smul, smulImm, smulHi, smulHiImm, smulHiu, smulHiuImm,
sand, sandImm, sor, sorImm, sxor, sxorImm, sshl, sshlImm, sshr, sshrImm, sshrA, sshrAImm, smin, sminImm, smax, smaxImm, sminu,
sminuImm, smaxu, smaxuImm. -/
def Obligations.ScalarBinaryOperationsWrapAt64Bits : Prop :=
  scalarArithmeticWrapsAt64Bits ∧ scalarShiftsAndExtremes

/-- The ten comparisons of R105, by fn. -/
def scmpHolds (cc : BitVec 4) (x y : DWord) : Prop :=
  match cc.toNat with
  | 0 => x = y
  | 1 => x ≠ y
  | 2 => x.toInt < y.toInt
  | 3 => y.toInt ≤ x.toInt
  | 4 => x.toNat < y.toNat
  | 5 => y.toNat ≤ x.toNat
  | 6 => x.toInt ≤ y.toInt
  | 7 => y.toInt < x.toInt
  | 8 => x.toNat ≤ y.toNat
  | _ => y.toNat < x.toNat

/-- R105, R107: comparisons and truth tables write one q-register, and the reserved conditions are not well formed. -/
def scalarComparesWriteQ : Prop :=
  ∀ (s : State) (g : KG), s.guard g = true →
    (∀ d a b cc, cc.toNat < 10 → ∃ v : Bool, (v = true ↔ scmpHolds cc (s.getS a) (s.getS b))
        ∧ Runs (.scmp g d a b cc) s fun t => s.WroteQ t .k 1 d v)
    ∧ (∀ d a cc (imm : BitVec 32), cc.toNat < 10 → ∃ v : Bool, (v = true ↔ scmpHolds cc (s.getS a) (imm.signExtend 64))
        ∧ Runs (.scmpImm g d a cc imm) s fun t => s.WroteQ t .k 2 d v)
    ∧ (∀ d a b cc, 10 ≤ cc.toNat → (Instr.scmp g d a b cc).wf = false)
    ∧ (∀ d a cc imm, 10 ≤ cc.toNat → (Instr.scmpImm g d a cc imm).wf = false)
    ∧ (∀ d a b f, Runs (.qlog g d a b f) s fun t =>
        s.WroteQ t .k 1 d (f.getLsbD (2 * (s.occ.getQ a.toNat).toNat + (s.occ.getQ b.toNat).toNat)))

/-- R101, R102, R106, R99, R105, R107: moves, constants, selection and NOP, each with its frame. Comparisons and truth tables write
one q-register, and the reserved conditions are not well formed. Completes: nop, nop64, smov, smovLc, sli, sli64, scmp, scmpImm,
ssel, qlog. -/
def Obligations.ScalarMovesAndComparisons : Prop :=
  scalarMovesWriteTheirDestination ∧ scalarComparesWriteQ

/-! ## Lane instructions of the V engine -/

/-- An operand of an integer type as an integer: sext(·, n) or zext(·, n) (R148). -/
def laneInt (x : VX) (a : Nat) : Int :=
  if x.signed then (BitVec.ofNat x.bits a).toInt else ((BitVec.ofNat x.bits a).toNat : Int)

/-- An exact integer result as it is stored: modulo 2^n, or sat() of it, a changed value being one saturation (R148). -/
def laneStored (x : VX) (r : Int) : Nat × Nat :=
  let lo : Int := if x.signed then -(2 : Int) ^ (x.bits - 1) else 0
  let hi : Int := if x.signed then (2 : Int) ^ (x.bits - 1) - 1 else (2 : Int) ^ x.bits - 1
  let y := if x.sat then max lo (min r hi) else r
  ((BitVec.ofInt x.bits y).toNat, if y = r then 0 else 1)

/-- R148: MOV, ADD, SUB, MUL, MULH, MAD, MIN, MAX and ABS in both lengths. -/
def laneIntegerArithmetic : Prop :=
  ∀ (f : VF) (x : VX),
    let add := fun (x : VX) (_ : State) (_ a b : Nat) => laneStored x (laneInt x a + laneInt x b)
    let sub := fun (x : VX) (_ : State) (_ a b : Nat) => laneStored x (laneInt x a - laneInt x b)
    let mul := fun (x : VX) (_ : State) (_ a b : Nat) => laneStored x (laneInt x a * laneInt x b)
    let mulh := fun (x : VX) (_ : State) (_ a b : Nat) =>
      (((BitVec.ofInt (2 * x.bits) (laneInt x a * laneInt x b)).extractLsb' x.bits x.bits).toNat, 0)
    let mad := fun (x : VX) (s : State) (l a b : Nat) =>
      laneStored x (laneInt x a * laneInt x b + laneInt x (s.occ.raw x.pair x.c.toNat l))
    let mn := fun (x : VX) (_ : State) (_ a b : Nat) => ((BitVec.ofInt x.bits (min (laneInt x a) (laneInt x b))).toNat, 0)
    let mx := fun (x : VX) (_ : State) (_ a b : Nat) => ((BitVec.ofInt x.bits (max (laneInt x a) (laneInt x b))).toNat, 0)
    let abs := fun (x : VX) (_ : State) (_ a : Nat) => laneStored x ((laneInt x a).natAbs : Int)
    LaneWrites (.mov f) 0x00 f none false (fun _ _ _ _ b => (b, 0))
    ∧ LaneWrites (.mov64 f x) 0x00 f (some x) false (fun _ _ _ _ b => (b, 0))
    ∧ LaneWrites (.vadd f) 0x01 f none false add ∧ LaneWrites (.vadd64 f x) 0x01 f (some x) false add
    ∧ LaneWrites (.vsub f) 0x02 f none false sub ∧ LaneWrites (.vsub64 f x) 0x02 f (some x) false sub
    ∧ LaneWrites (.vmul f) 0x03 f none false mul ∧ LaneWrites (.vmul64 f x) 0x03 f (some x) false mul
    ∧ LaneWrites (.mulh f) 0x04 f none false mulh ∧ LaneWrites (.mulh64 f x) 0x04 f (some x) false mulh
    ∧ LaneWrites (.mad f x) 0x05 f (some x) false mad
    ∧ LaneWrites (.vmin f) 0x0C f none false mn ∧ LaneWrites (.vmin64 f x) 0x0C f (some x) false mn
    ∧ LaneWrites (.vmax f) 0x0D f none false mx ∧ LaneWrites (.vmax64 f x) 0x0D f (some x) false mx
    ∧ LaneWrites1 (.vabs f) 0x0E f none (fieldsOf 0x0E none).pair abs
    ∧ LaneWrites1 (.vabs64 f x) 0x0E f (some x) x.pair abs

/-- The 32-bit number whose bit k is g k. -/
def wordOfBits (g : Nat → Bool) : Nat := ((List.range 32).map fun k => if g k then 2 ^ k else 0).sum

/-- pos and len of BFE and BFI (R149). -/
def bfPos (b : Nat) : Nat := (BitVec.ofNat 32 b).toNat % 256
def bfLen (b : Nat) : Nat := min ((BitVec.ofNat 32 b).toNat / 256 % 256) 32

/-- R148, R149, R152: the bitwise operations, shifts, counts, bit fields and SEL in both lengths. -/
def laneBitsShiftsAndFields : Prop :=
  ∀ (f : VF) (x : VX),
    let k := fun (x : VX) (b : Nat) => b % x.bits
    let shl := fun (x : VX) (_ : State) (_ a b : Nat) => ((BitVec.ofNat x.bits a <<< k x b).toNat, 0)
    let shr := fun (x : VX) (_ : State) (_ a b : Nat) => (a >>> k x b, 0)
    let sra := fun (x : VX) (_ : State) (_ a b : Nat) => (((BitVec.ofNat x.bits a).sshiftRight (k x b)).toNat, 0)
    let clz := fun (x : VX) (_ : State) (_ a : Nat) =>
      (((List.range x.bits).takeWhile fun j => !a.testBit (x.bits - 1 - j)).length, 0)
    let popc := fun (x : VX) (_ : State) (_ a : Nat) => ((List.range x.bits).countP a.testBit, 0)
    let bfe := fun (x : VX) (_ : State) (_ a b : Nat) =>
      let v := wordOfBits fun j => decide (j < bfLen b) && decide (bfPos b + j ≤ 31) && a.testBit (bfPos b + j)
      (if x.ty = 0 ∧ 0 < bfLen b then ((BitVec.ofNat (bfLen b) v).signExtend 32).toNat else v, 0)
    let bfi := fun (x : VX) (s : State) (l a b : Nat) =>
      let c := (s.occ.getV x.c.toNat l).toNat
      (wordOfBits fun j => if bfPos b ≤ j ∧ j < bfPos b + bfLen b then c.testBit (j - bfPos b) else a.testBit j, 0)
    LaneWrites (.vand f) 0x06 f none false (fun _ _ _ a b => (a &&& b, 0))
    ∧ LaneWrites (.vand64 f x) 0x06 f (some x) false (fun _ _ _ a b => (a &&& b, 0))
    ∧ LaneWrites (.vor f) 0x07 f none false (fun _ _ _ a b => (a ||| b, 0))
    ∧ LaneWrites (.vor64 f x) 0x07 f (some x) false (fun _ _ _ a b => (a ||| b, 0))
    ∧ LaneWrites (.vxor f) 0x08 f none false (fun _ _ _ a b => (a ^^^ b, 0))
    ∧ LaneWrites (.vxor64 f x) 0x08 f (some x) false (fun _ _ _ a b => (a ^^^ b, 0))
    ∧ LaneWrites (.shl f) 0x09 f none true shl ∧ LaneWrites (.shl64 f x) 0x09 f (some x) true shl
    ∧ LaneWrites (.shr f) 0x0A f none true shr ∧ LaneWrites (.shr64 f x) 0x0A f (some x) true shr
    ∧ LaneWrites (.sra f) 0x0B f none true sra ∧ LaneWrites (.sra64 f x) 0x0B f (some x) true sra
    ∧ LaneWrites1 (.clz f) 0x0F f none (fieldsOf 0x0F none).pair clz ∧ LaneWrites1 (.clz64 f x) 0x0F f (some x) x.pair clz
    ∧ LaneWrites1 (.popc f) 0x10 f none (fieldsOf 0x10 none).pair popc
    ∧ LaneWrites1 (.popc64 f x) 0x10 f (some x) x.pair popc
    ∧ (LaneWrites (.bfe f) 0x11 f none true bfe)
    ∧ (x.pair = false → LaneWrites (.bfe64 f x) 0x11 f (some x) true bfe)
    ∧ (x.pair = false → LaneWrites (.bfi f x) 0x12 f (some x) true bfi)
    ∧ LaneWrites (.sel f x) 0x13 f (some x) false
        (fun x s l a b => (if (s.occ.getP (x.c.toNat % 16)).getLsbD l then a else b, 0))

/-- R148, R149, R152: MOV, ADD, SUB, MUL, MULH, MAD, MIN, MAX and ABS in both lengths. The bitwise operations, shifts, counts, bit
fields and SEL in both lengths. Completes: mov, mov64, vadd, vadd64, vsub, vsub64, vmul, vmul64, mulh, mulh64, mad, vand, vand64,
vor, vor64, vxor, vxor64, shl, shl64, shr, shr64, sra, sra64, vmin, vmin64, vmax, vmax64, vabs, vabs64, clz, clz64, popc, popc64,
bfe, bfe64, bfi, sel. -/
def Obligations.LaneIntegersAndBits : Prop :=
  laneIntegerArithmetic ∧ laneBitsShiftsAndFields

/-- R150, R151, R153: comparisons, PLOG and MOVP. Completes: cmp, cmp64, plog, fcmp, fcmp64, movp, movp64. -/
def Obligations.LaneComparesAndPredicates : Prop :=
  ∀ (f : VF) (x : VX),
    let cond := fun (o : Option Ordering) =>
      match f.d.toNat / 16 with
      | 0 => o == some .eq
      | 1 => o != some .eq
      | 2 => o == some .lt
      | 3 => o == some .lt || o == some .eq
      | 4 => o == some .gt
      | 5 => o == some .gt || o == some .eq
      | 6 => o == none
      | _ => o != none
    let icmp := fun (x : VX) (a b : Nat) => cond (some (compare (laneInt x a) (laneInt x b)))
    let fcmp := fun (x : VX) (a b : Nat) => cond (cmpNum (x.fmt.decode a) (x.fmt.decode b))
    LaneCompares (.cmp f) 0x14 f none icmp ∧ LaneCompares (.cmp64 f x) 0x14 f (some x) icmp
    ∧ LaneCompares (.fcmp f) 0x1D f none fcmp ∧ LaneCompares (.fcmp64 f x) 0x1D f (some x) fcmp
    ∧ (∀ s : State, s.occ.width ≤ 64 → s.CountOk (.plog f x) → Runs (.plog f x) s fun t =>
        s.WroteP s t (s.enabled .v f) (f.d.toNat % 16) (fun l =>
          x.imm.getLsbD (2 * ((s.occ.getP (f.a.toNat % 16)).getLsbD l).toNat + ((s.occ.getP (f.b.toNat % 16)).getLsbD l).toNat))
        ∧ s.BytesSame t ∧ s.Moved t .v 2)
    ∧ (∀ s : State, s.occ.width ≤ 64 → s.CountOk (.movp f) → Runs (.movp f) s fun t =>
        s.WroteP s t (s.enabled .v f) (f.d.toNat % 16) (fun l => s.occ.getV f.a.toNat l != 0)
        ∧ s.BytesSame t ∧ s.Moved t .v 1)
    ∧ (∀ s : State, s.occ.width ≤ 64 → s.CountOk (.movp64 f x) → x.imm.getLsbD 0 = false → Runs (.movp64 f x) s fun t =>
        s.WroteP s t (s.enabled .v f) (f.d.toNat % 16) (fun l => s.occ.getV f.a.toNat l != 0)
        ∧ s.BytesSame t ∧ s.Moved t .v 2)
    ∧ (∀ s : State, s.occ.width ≤ 64 → s.CountOk (.movp64 f x) → x.imm.getLsbD 0 = true → Runs (.movp64 f x) s fun t =>
        s.OnlyV t 0 ∧ s.BytesSame t ∧ s.Moved t .v 2
        ∧ s.WroteV t (s.lanes .v f) false f.d.toNat
            (fun l => if (s.occ.getP (f.a.toNat % 16)).getLsbD l then 1 else 0))

/-- The elements of ty in A, B and C, g of them rounded once and saturated when sat = 1, packed again (R156). -/
def perElement (x : VX) (g : Nat → Machine.Num → Machine.Num → Machine.Num → Machine.Num) (a b c : Nat) : Nat × Nat :=
  let one := fun (p : Nat) =>
    let e := fun (v : Nat) => x.fmt.decode (v / 2 ^ p % 2 ^ x.fmt.width)
    x.fmt.conv x.rm.toNat x.sat (g x.rm.toNat (e a) (e b) (e c))
  if x.ty = 3 ∨ x.ty = 4 then ((one 0).1 + (one 16).1 * 2 ^ 16, (one 0).2 + (one 16).2) else one 0

/-- R156: every floating-point function of the table in both lengths writes its result in every enabled lane, rounded once, with
saturations counted. -/
def floatFunctionsRoundOnce : Prop :=
  ∀ (f : VF) (x : VX),
    let two := fun (g : Nat → Machine.Num → Machine.Num → Machine.Num) (x : VX) (_ : State) (_ a b : Nat) => perElement x (fun rm u v _ => g rm u v) a b 0
    let uno := fun (g : Machine.Num → Machine.Num) (x : VX) (_ : State) (_ a : Nat) => perElement x (fun _ u _ _ => g u) a 0 0
    let fma := fun (x : VX) (s : State) (l a b : Nat) => perElement x fmaNum a b (s.occ.raw x.pair x.c.toNat l)
    LaneWrites (.fadd f) 0x17 f none false (two addNum) ∧ LaneWrites (.fadd64 f x) 0x17 f (some x) false (two addNum)
    ∧ LaneWrites (.fsub f) 0x18 f none false (two subNum) ∧ LaneWrites (.fsub64 f x) 0x18 f (some x) false (two subNum)
    ∧ LaneWrites (.fmul f) 0x19 f none false (two fun _ => mulNum)
    ∧ LaneWrites (.fmul64 f x) 0x19 f (some x) false (two fun _ => mulNum)
    ∧ LaneWrites (.ffma f x) 0x1A f (some x) false fma
    ∧ LaneWrites (.fdiv f) 0x25 f none false (two fun _ => divNum)
    ∧ LaneWrites (.fdiv64 f x) 0x25 f (some x) false (two fun _ => divNum)
    ∧ LaneWrites1 (.frcp f) 0x1E f none (fieldsOf 0x1E none).pair (uno rcpNum)
    ∧ LaneWrites1 (.frcp64 f x) 0x1E f (some x) x.pair (uno rcpNum)
    ∧ LaneWrites1 (.frsq f) 0x1F f none (fieldsOf 0x1F none).pair (uno rsqNum)
    ∧ LaneWrites1 (.frsq64 f x) 0x1F f (some x) x.pair (uno rsqNum)
    ∧ LaneWrites1 (.fsqrt f) 0x20 f none (fieldsOf 0x20 none).pair (uno sqrtNum)
    ∧ LaneWrites1 (.fsqrt64 f x) 0x20 f (some x) x.pair (uno sqrtNum)
    ∧ LaneWrites1 (.fexp2 f) 0x21 f none (fieldsOf 0x21 none).pair (uno exp2Num)
    ∧ LaneWrites1 (.fexp264 f x) 0x21 f (some x) x.pair (uno exp2Num)
    ∧ LaneWrites1 (.flog2 f) 0x22 f none (fieldsOf 0x22 none).pair (uno log2Num)
    ∧ LaneWrites1 (.flog264 f x) 0x22 f (some x) x.pair (uno log2Num)
    ∧ LaneWrites1 (.fsin f) 0x23 f none (fieldsOf 0x23 none).pair (uno sinNum)
    ∧ LaneWrites1 (.fsin64 f x) 0x23 f (some x) x.pair (uno sinNum)
    ∧ LaneWrites1 (.fcos f) 0x24 f none (fieldsOf 0x24 none).pair (uno cosNum)
    ∧ LaneWrites1 (.fcos64 f x) 0x24 f (some x) x.pair (uno cosNum)

/-- The value (-1)^n · m · 2^e (R69). -/
def finiteValue (n : Bool) (m : Nat) (e : Int) : Rat := (if n then -1 else 1) * (m : Rat) * 2 ^ e

/-- A finite number stands for y before its rounding: it is y, or it holds at least 100 bits of y and is marked as a little less in
magnitude. -/
def standsFor (z : Machine.Num) (y : Rat) : Prop :=
  ∃ n m e st, z = .fin n m e st ∧ (st = false → y = finiteValue n m e)
    ∧ (st = true → 2 ^ 100 ≤ m ∧ finiteValue false m e < (if n then -y else y)
        ∧ (if n then -y else y) < finiteValue false (m + 1) e)

/-- The same of the square root of y. -/
def standsForRoot (z : Machine.Num) (y : Rat) : Prop :=
  ∃ m e st, z = .fin false m e st ∧ (st = false → y = finiteValue false m e ^ 2)
    ∧ (st = true → 2 ^ 100 ≤ m ∧ finiteValue false m e ^ 2 < y ∧ y < finiteValue false (m + 1) e ^ 2)

/-- R73, R156: what is rounded is the exact sum, difference, product, product plus sum, quotient, reciprocal and root of the finite
operands. -/
def floatArithmeticIsExact : Prop :=
  ∀ (rm m m' m'' : Nat) (n n' n'' : Bool) (e e' e'' : Int),
    let a := Machine.Num.fin n m e false
    let b := Machine.Num.fin n' m' e' false
    let c := Machine.Num.fin n'' m'' e'' false
    let x := finiteValue n m e
    let y := finiteValue n' m' e'
    let z := finiteValue n'' m'' e''
    standsFor (addNum rm a b) (x + y) ∧ standsFor (subNum rm a b) (x - y) ∧ standsFor (mulNum a b) (x * y)
    ∧ standsFor (fmaNum rm a b c) (x * y + z)
    ∧ (m' ≠ 0 → standsFor (divNum a b) (x / y)) ∧ (m ≠ 0 → standsFor (rcpNum a) (1 / x))
    ∧ (n = false → m ≠ 0 → standsForRoot (sqrtNum a) x) ∧ (n = false → m ≠ 0 → standsForRoot (rsqNum a) (1 / x))

/-- R73, R156: every floating-point function of the table in both lengths writes its result in every enabled lane, rounded once,
with saturations counted. What is rounded is the exact sum, difference, product, product plus sum, quotient, reciprocal and root of
the finite operands. The model's own choices in it: log 16. Completes: fadd, fadd64, fsub, fsub64, fmul, fmul64, ffma, frcp, frcp64,
frsq, frsq64, fsqrt, fsqrt64, fexp2, fexp264, flog2, flog264, fsin, fsin64, fcos, fcos64, fdiv, fdiv64. -/
def Obligations.LaneFloatFunctions : Prop :=
  floatFunctionsRoundOnce ∧ floatArithmeticIsExact

/-- R157, R72: a NaN operand gives a NaN. -/
def nanOperandsGiveNan : Prop :=
  (∀ rm (a b : Machine.Num), addNum rm .nan a = .nan ∧ addNum rm a .nan = .nan ∧ subNum rm .nan a = .nan ∧ subNum rm a .nan = .nan
      ∧ mulNum .nan a = .nan ∧ mulNum a .nan = .nan ∧ divNum .nan a = .nan ∧ divNum a .nan = .nan
      ∧ fmaNum rm .nan a b = .nan ∧ fmaNum rm a .nan b = .nan ∧ fmaNum rm a b .nan = .nan)
  ∧ sqrtNum .nan = .nan ∧ rcpNum .nan = .nan ∧ rsqNum .nan = .nan ∧ exp2Num .nan = .nan ∧ log2Num .nan = .nan
  ∧ sinNum .nan = .nan ∧ cosNum .nan = .nan

/-- R157: the special operands of the functions of R156. -/
def floatSpecialOperands : Prop :=
  (∀ rm n, addNum rm (.inf n) (.inf (!n)) = .nan ∧ subNum rm (.inf n) (.inf n) = .nan)
  ∧ (∀ rm n m e (k : Nat), 0 < m → addNum rm (.fin n (m * 2 ^ k) e false) (.fin (!n) m (e + k) false) = .zero (rm == 2)
      ∧ subNum rm (.fin n (m * 2 ^ k) e false) (.fin n m (e + k) false) = .zero (rm == 2))
  ∧ (∀ rm z n c, z.isZero = true → mulNum z (.inf n) = .nan ∧ mulNum (.inf n) z = .nan
      ∧ fmaNum rm z (.inf n) c = .nan ∧ fmaNum rm (.inf n) z c = .nan)
  ∧ (∀ n n' e e' a a', divNum (.fin n 0 e false) (.fin n' 0 e' false) = .nan ∧ divNum (.inf a) (.inf a') = .nan)
  ∧ (∀ n m e n' e', 0 < m → divNum (.fin n m e false) (.fin n' 0 e' false) = .inf (n != n'))
  ∧ (∀ n m e n', divNum (.fin n m e false) (.inf n') = .zero (n != n'))
  ∧ (∀ e m, 0 < m → sqrtNum (.fin true 0 e false) = .zero true ∧ sqrtNum (.inf false) = .inf false
      ∧ sqrtNum (.fin true m e false) = .nan ∧ sqrtNum (.inf true) = .nan)
  ∧ (∀ n e, rcpNum (.fin n 0 e false) = .inf n ∧ rcpNum (.inf n) = .zero n)
  ∧ (∀ e m, 0 < m → rsqNum (.fin false 0 e false) = .inf false ∧ rsqNum (.fin true 0 e false) = .inf true
      ∧ rsqNum (.inf false) = .zero false ∧ rsqNum (.fin true m e false) = .nan ∧ rsqNum (.inf true) = .nan)
  ∧ (∀ n e, exp2Num (.fin n 0 e false) = .pow2 0 ∧ exp2Num (.inf true) = .zero false ∧ exp2Num (.inf false) = .inf false)
  ∧ (∀ n e m (k : Nat), 0 < m → log2Num (.fin n 0 e false) = .inf true ∧ log2Num (.fin false (2 ^ k) (-k) false) = .zero false
      ∧ log2Num (.inf false) = .inf false ∧ log2Num (.fin true m e false) = .nan ∧ log2Num (.inf true) = .nan)
  ∧ (∀ n e m (k : Nat), 0 < m → sinNum (.fin n 0 e false) = .zero n ∧ sinNum (.inf n) = .nan
      ∧ (-1 ≤ e → sinNum (.fin n (m * 2 ^ k) (e - k) false) = .zero false))
  ∧ (∀ n m (k : Nat), m % 2 = 1 → cosNum (.inf n) = .nan ∧ cosNum (.fin n (m * 2 ^ k) (-2 - k) false) = .zero false)
  ∧ (∀ F ∈ [f16, bf16, f32, f64], ∀ big a b,
      (F.decode a = .nan → F.decode b ≠ .nan → F.pick big a b = b ∧ F.pick big b a = b)
      ∧ (F.decode a = .nan → F.decode b = .nan → F.pick big a b = F.nanCode)
      ∧ (F.decode a = .fin true 0 (1 - F.bias - F.mbits) false → F.decode b = .fin false 0 (1 - F.bias - F.mbits) false →
          F.pick false a b = a ∧ F.pick false b a = a ∧ F.pick true a b = b ∧ F.pick true b a = b))

/-- R69, R74: a value that a floating-point format holds is rounded to itself under every rounding mode, and every NaN to
the canonical one of R72. -/
def roundingKeepsRepresentableValues : Prop :=
  ∀ F ∈ [f16, bf16, f32, f64], ∀ (rm code : Nat), code < 2 ^ F.width →
    (F.decode code ≠ .nan → (F.round rm (F.decode code)).code = code)
    ∧ (F.decode code = .nan → (F.round rm (F.decode code)).code = F.nanCode)

/-- The magnitude that a code of a format without sign stands for (R69). -/
def codeValue (F : Fmt) (k : Nat) : Rat :=
  match F.decode k with
  | .fin _ m e _ => finiteValue false m e
  | _ => 0

/-- The magnitude y of a finite number: it is exact, or marked as a little less, with at least 100 bits of y. -/
def hasMagnitude (m : Nat) (e : Int) (st : Bool) (y : Rat) : Prop :=
  (st = false → y = finiteValue false m e)
  ∧ (st = true → 2 ^ 100 ≤ m ∧ finiteValue false m e < y ∧ y < finiteValue false (m + 1) e)

/-- R74: of the two neighbours in magnitude of a value y of sign n between them, the greater is the rounded one; `odd` tells whether the
least significant bit of the lesser is 1. -/
def takesGreater (rm : Nat) (n odd : Bool) (y lo hi : Rat) : Prop :=
  match rm with
  | 0 => hi - y < y - lo ∨ (hi - y = y - lo ∧ odd = true)
  | 1 => False
  | 2 => n = true
  | _ => n = false

/-- R69, R74, R75: a value that a format holds is rounded to itself, one between two neighbours to the one that the mode names, and one
that is rounded beyond the largest finite magnitude overflows; rounding to an integer is the same with the integers as neighbours. -/
def roundingTakesANeighbour : Prop :=
  (∀ F ∈ [f64, f32, f16, bf16, e4m3, e5m2, e2m1], ∀ (rm m : Nat) (n st : Bool) (e : Int) (y : Rat), rm < 4 → hasMagnitude m e st y →
    let r := F.round rm (.fin n m e st)
    let v := codeValue F
    let top := F.maxCode
    let beyond := v top + (v top - v (top - 1))
    let infinite := F.ieee = true ∧ F.narrow = false ∧ (rm = 0 ∨ (rm = 2 ∧ n = true) ∨ (rm = 3 ∧ n = false))
    (∀ j ≤ top, y = v j → r = ⟨F.signBit n + j, false⟩)
    ∧ (∀ j < top, v j < y → y < v (j + 1) →
        (takesGreater rm n (j % 2 == 1) y (v j) (v (j + 1)) → r = ⟨F.signBit n + (j + 1), false⟩)
        ∧ (¬ takesGreater rm n (j % 2 == 1) y (v j) (v (j + 1)) → r = ⟨F.signBit n + j, false⟩))
    ∧ (v top < y → y < beyond → ¬ takesGreater rm n (top % 2 == 1) y (v top) beyond → r = ⟨F.signBit n + top, false⟩)
    ∧ (v top < y → beyond ≤ y ∨ takesGreater rm n (top % 2 == 1) y (v top) beyond →
        (infinite → r = ⟨F.signBit n + (2 ^ F.ebits - 1) * 2 ^ F.mbits, true⟩)
        ∧ (¬ infinite → r = ⟨F.signBit n + top, true⟩)))
  ∧ (∀ (rm m : Nat) (n st : Bool) (e : Int) (y : Rat), rm < 4 → hasMagnitude m e st y → (st = true → e < 0) →
    let z := roundInt rm n m e st
    let signed := fun (j : Nat) => if n then -(j : Int) else (j : Int)
    ∀ j : Nat, (y = (j : Rat) → z = signed j)
      ∧ ((j : Rat) < y → y < ((j + 1 : Nat) : Rat) →
        (takesGreater rm n (j % 2 == 1) y (j : Rat) ((j + 1 : Nat) : Rat) → z = signed (j + 1))
        ∧ (¬ takesGreater rm n (j % 2 == 1) y (j : Rat) ((j + 1 : Nat) : Rat) → z = signed j)))

/-- R74 to R79: infinities stay infinite where the format has them and no saturation is in force; the narrow formats always saturate,
the others with sat = 1; a clamped value is the largest finite one of its sign and counts one saturation. -/
def saturationClamps : Prop :=
  ∀ F ∈ [f64, f32, f16, bf16, e4m3, e5m2, e2m1], ∀ (rm : Nat) (sat : Bool),
    (∀ n, F.conv rm sat (.inf n) = if sat = false ∧ F.narrow = false then (F.signBit n + (2 ^ F.ebits - 1) * 2 ^ F.mbits, 0)
      else (F.signBit n + F.maxCode, 1))
    ∧ ∀ x : Machine.Num, let r := F.round rm x
      F.conv rm sat x = if (sat = true ∨ F.narrow = true) ∧ r.clamped = true then (F.signBit x.sign + F.maxCode, 1) else (r.code, 0)

/-- R157, R72, R69, R74 to R79: the special operands of the functions of R156, a NaN operand among them. A value that a floating-point
format holds is rounded to itself under every rounding mode, every NaN to the canonical one of R72, and a value between two neighbours
to the one that the mode names; what is rounded beyond the largest finite magnitude becomes infinite, or is clamped and counted. -/
def Obligations.FloatSpecialOperandsAndRounding : Prop :=
  floatSpecialOperands ∧ nanOperandsGiveNan ∧ roundingKeepsRepresentableValues ∧ roundingTakesANeighbour ∧ saturationClamps

/-- The exact value of a CVT source (R154): an integer, or what a floating-point code stands for. -/
def cvtSource (src a : Nat) : Int ⊕ Machine.Num :=
  match src with
  | 0 => .inl (BitVec.ofNat 32 a).toInt
  | 1 => .inl (BitVec.ofNat 32 a).toNat
  | 6 => .inl (BitVec.ofNat 64 a).toInt
  | 7 => .inl (BitVec.ofNat 64 a).toNat
  | 2 => .inr (f32.decode (a % 2 ^ 32))
  | 3 => .inr (f16.decode (a % 2 ^ 16))
  | 4 => .inr (bf16.decode (a % 2 ^ 16))
  | 5 => .inr (f64.decode (a % 2 ^ 64))
  | 8 => .inr (e4m3.decode (a % 2 ^ 8))
  | 9 => .inr (e5m2.decode (a % 2 ^ 8))
  | _ => .inr (e2m1.decode (a % 2 ^ 4))

/-- An integer of n bits clamped into its range, with one saturation when that changes it. -/
def clampTo (signed : Bool) (n : Nat) (v : Int) : Nat × Nat :=
  let lo : Int := if signed then -(2 : Int) ^ (n - 1) else 0
  let hi : Int := if signed then (2 : Int) ^ (n - 1) - 1 else (2 : Int) ^ n - 1
  let y := max lo (min v hi)
  ((BitVec.ofInt n y).toNat, if y = v then 0 else 1)

/-- R155 by the kinds of source and destination. -/
def cvtResult (dst rm : Nat) (sat : Bool) (v : Int ⊕ Machine.Num) : Nat × Nat :=
  let int := fun (signed : Bool) (n : Nat) =>
    match v with
    | .inl i => if sat then clampTo signed n i else ((BitVec.ofInt n i).toNat, 0)
    | .inr .nan => (0, 0)
    | .inr (.inf neg) => ((clampTo signed n (if neg then -(2 : Int) ^ 64 else (2 : Int) ^ 64)).1, 1)
    | .inr (.fin neg m e st) => clampTo signed n (roundInt rm neg m e st)
  let flt := fun (F : Fmt) => F.conv rm sat (match v with | .inl i => Machine.Num.ofInt i | .inr x => x)
  match dst with
  | 0 => int true 32
  | 1 => int false 32
  | 6 => int true 64
  | 7 => int false 64
  | 2 => flt f32
  | 3 => flt f16
  | 4 => flt bf16
  | 5 => flt f64
  | 8 => flt e4m3
  | 9 => flt e5m2
  | _ => flt e2m1

/-- A code among those of a pair (R154). -/
def cvtIsPair (code : Nat) : Bool := code == 5 || code == 6 || code == 7

/-- R155, R157, R158: CVT, FMIN, FMAX and FCLASS. -/
def laneConversions : Prop :=
  ∀ (f : VF) (x : VX),
    let pick := fun (big : Bool) (x : VX) (_ : State) (_ a b : Nat) =>
      let e := fun (p : Nat) => x.fmt.pick big (a / 2 ^ p % 2 ^ x.fmt.width) (b / 2 ^ p % 2 ^ x.fmt.width)
      (if x.ty = 3 ∨ x.ty = 4 then e 0 + e 16 * 2 ^ 16 else e 0, 0)
    let cls := fun (x : VX) (_ : State) (_ a : Nat) =>
      let e := fun (p : Nat) => x.fmt.classMask (a / 2 ^ p % 2 ^ x.fmt.width)
      (if x.ty = 3 ∨ x.ty = 4 then e 0 + e 16 * 2 ^ 16 else e 0, 0)
    LaneWrites (.fmin f) 0x1B f none false (pick false) ∧ LaneWrites (.fmin64 f x) 0x1B f (some x) false (pick false)
    ∧ LaneWrites (.fmax f) 0x1C f none false (pick true) ∧ LaneWrites (.fmax64 f x) 0x1C f (some x) false (pick true)
    ∧ LaneWrites1 (.fclass f) 0x26 f none false cls ∧ LaneWrites1 (.fclass64 f x) 0x26 f (some x) false cls
    ∧ LaneWrites1 (.cvt f x) 0x16 f (some x) (cvtIsPair (x.imm.toNat % 16)) (fun x s l _ =>
        cvtResult (x.imm.toNat % 16) x.rm.toNat x.sat (cvtSource (x.imm.toNat / 16 % 16)
          (s.occ.raw (cvtIsPair (x.imm.toNat / 16 % 16)) f.a.toNat l)))

/-- R165 to R169: PACK, UNPK, QMX and DQMX write whole registers of the enabled lanes, and count saturations and format
errors. -/
def blockFormatsMove : Prop :=
  ∀ (f : VF) (x : VX) (s : State),
    let ls := s.lanes .v f
    let w := s.occ.width
    let fmt := x.imm.toNat / 16 % 4
    let nf := x.c.toNat % 8
    let u := s.operandTaken f x true
    let scale := fun (l : Nat) => s.operand f x true l % 256
    let packed := fun (l : Nat) => (List.range (packN nf)).map fun k =>
      packCode nf x.rm.toNat (scale l) (f32.decode (s.occ.getV (f.a.toNat + k) l).toNat)
    let code := fun (l k : Nat) => (s.occ.getV f.a.toNat l).toNat / 2 ^ (packBitsOf nf * k) % 2 ^ packBitsOf nf
    (s.CountOk (.pack f x) → s.OperandReady f x true → Runs (.pack f x) s fun t =>
      u.OnlyVCounting t (ls.map fun l => ((packed l).map (·.2)).sum).sum 0 ∧ s.BytesSame t ∧ s.Moved t .v 2
      ∧ s.WroteV t ls false f.d.toNat (fun l => packBits (packBitsOf nf) ((packed l).map (·.1))))
    ∧ (s.CountOk (.unpk f x) → s.OperandReady f x true → Runs (.unpk f x) s fun t =>
      u.OnlyVCounting t 0 (ls.map fun l => ((List.range (packN nf)).map fun k => (unpackCode nf (scale l) (code l k)).2).sum).sum
      ∧ s.BytesSame t ∧ s.Moved t .v 2
      ∧ s.WroteRange t ls f.d.toNat (packN nf) (fun l k =>
          (f32.round x.rm.toNat (unpackCode nf (scale l) (code l k)).1).code))
    ∧ (s.CountOk (.qmx f x) → ls ≠ [] →
        let xs := (List.range 64).map fun e =>
          if e % w ∈ ls then f32.decode (s.occ.getV (f.a.toNat + e / w) (e % w)).toNat else .zero false
        let q := quantise fmt x.rm.toNat (x.imm.toNat % 8) xs
        Runs (.qmx f x) s fun t => s.OnlyVCounting t q.2 0 ∧ s.BytesSame t ∧ s.Moved t .v 2
          ∧ s.WroteRange t ls f.d.toNat (recRegs fmt w) (fun l k => q.1 / 2 ^ (32 * (k * w + l))))
    ∧ (s.CountOk (.dqmx f x) → ls ≠ [] →
        let gran := packBits 32 ((List.range (recWords fmt)).map fun k => (s.occ.getV (f.a.toNat + k / w) (k % w)).toNat)
        let q := decodeGranule fmt gran
        Runs (.dqmx f x) s fun t => s.OnlyVCounting t 0 q.2 ∧ s.BytesSame t ∧ s.Moved t .v 2
          ∧ s.WroteRange t ls f.d.toNat (elemRegs w) (fun l k => (f32.round x.rm.toNat (q.1.getD (k * w + l) .nan)).code))
    ∧ (s.CountOk (.qmx f x) → ls = [] → Runs (.qmx f x) s fun t => s.WroteNothing t .v 2)
    ∧ (s.CountOk (.dqmx f x) → ls = [] → Runs (.dqmx f x) s fun t => s.WroteNothing t .v 2)

/-- R155, R157, R158, R165 to R169: CVT, FMIN, FMAX and FCLASS. PACK, UNPK, QMX and DQMX write whole registers of the enabled lanes,
and count saturations and format errors. The model's own choices in it: log 44. Completes: cvt, fmin, fmin64, fmax, fmax64, fclass,
fclass64, qmx, dqmx, pack, unpk. -/
def Obligations.LaneConversionsAndBlockFormats : Prop :=
  laneConversions ∧ blockFormatsMove

/-- One level of the tree of R95 over a function of positions: neighbours combined, an absent node passed over. -/
def levelUp (g : Nat → Nat → Nat) (v : Nat → Option Nat) (i : Nat) : Option Nat :=
  match v (2 * i), v (2 * i + 1) with
  | some a, some b => some (g a b)
  | some a, none => some a
  | none, r => r

/-- The root of the six-level tree of R95 over 64 positions. -/
def rootOf (g : Nat → Nat → Nat) (v : Nat → Option Nat) : Option Nat :=
  levelUp g (levelUp g (levelUp g (levelUp g (levelUp g (levelUp g v))))) 0

/-- R159 to R164: SHUF, VOTE, GRED, SCAN, GETS and MOVS. The model's own choices in it: log 44. Completes: shuf, shuf64, voteAny,
vote64, gred, gred64, scan, scan64, gets, movs. -/
def Obligations.LanesMeetLanes : Prop :=
  ∀ (f : VF) (x : VX),
    let from' := fun (x : VX) (s : State) (l b : Nat) =>
      let w := s.occ.width
      match x.c.toNat % 4 with
      | 0 => b % w
      | 1 => if b ≤ l then l - b else l
      | 2 => if l + b < w then l + b else l
      | _ => (l ^^^ (b % w)) % 64
    let shuf := fun (x : VX) (s : State) (l _ b : Nat) => (s.occ.raw x.pair f.a.toNat (from' x s l b), 0)
    let contrib := fun (s : State) =>
      (if f.a.getLsbD 4 then ~~~(s.occ.getP (f.a.toNat % 16)) else s.occ.getP (f.a.toNat % 16)) &&& s.enabled .v f
    let tree := fun (x : VX) (s : State) (enters : Nat → Bool) (p wd : Nat) =>
      rootOf (redOp x (x.c.toNat % 8)) fun l =>
        if l < s.occ.width ∧ enters l = true then some (s.occ.raw x.pair f.a.toNat l / 2 ^ p % 2 ^ wd) else none
    let combined := fun (x : VX) (s : State) (enters : Nat → Bool) (empty : Nat) =>
      if x.ty = 3 ∨ x.ty = 4 then ((tree x s enters 0 16).getD empty) + ((tree x s enters 16 16).getD empty) * 2 ^ 16
      else (tree x s enters 0 64).getD empty
    let enabled := fun (s : State) (l : Nat) => decide (l ∈ s.lanes .v f)
    let gred := fun (x : VX) (s : State) (_ _ : Nat) => (combined x s (enabled s) 0, 0)
    let scan := fun (x : VX) (s : State) (i _ : Nat) =>
      let inSet := fun (l : Nat) =>
        match x.c.getLsbD 3, x.c.getLsbD 4 with
        | false, false => decide (l ≤ i)
        | true, false => decide (l < i)
        | false, true => decide (i ≤ l)
        | true, true => decide (i < l)
      (combined x s (fun l => enabled s l && inSet l) (redIdentity x (x.c.toNat % 8)), 0)
    LaneWrites (.shuf f) 0x27 f none true shuf ∧ LaneWrites (.shuf64 f x) 0x27 f (some x) true shuf
    ∧ (∀ s, Runs (.voteAny f) s fun t => s.WroteQ t .v 1 (f.d.extractLsb' 0 3) (contrib s != 0))
    ∧ (∀ s, x.c.extractLsb' 0 2 = 0 → Runs (.vote64 f x) s fun t => s.WroteQ t .v 2 (f.d.extractLsb' 0 3) (contrib s != 0))
    ∧ (∀ s, x.c.extractLsb' 0 2 = 1 → Runs (.vote64 f x) s fun t =>
        s.WroteQ t .v 2 (f.d.extractLsb' 0 3) (contrib s == s.enabled .v f))
    ∧ (∀ s, x.c.extractLsb' 0 2 = 2 → Runs (.vote64 f x) s fun t =>
        s.WroteQ t .v 2 (f.d.extractLsb' 0 3) (contrib s == s.enabled .v f || contrib s == 0))
    ∧ (∀ s, x.c.extractLsb' 0 2 = 3 → Runs (.vote64 f x) s fun t => s.WroteS t .v 2 (f.d.extractLsb' 0 6) (contrib s))
    ∧ LaneWrites1 (.gred f) 0x29 f none (fieldsOf 0x29 none).pair gred ∧ LaneWrites1 (.gred64 f x) 0x29 f (some x) x.pair gred
    ∧ LaneWrites1 (.scan f) 0x2A f none (fieldsOf 0x2A none).pair scan ∧ LaneWrites1 (.scan64 f x) 0x2A f (some x) x.pair scan
    ∧ LaneWrites1 (.gets f) 0x2F f none false (fun _ s l _ =>
        let m := (s.occ.flow.maskOf .v &&& allLanes s.occ.width).toNat
        (match f.a.toNat with
          | 0 => l
          | 1 => physLane s.me.place l
          | 2 => m % 2 ^ 32
          | 3 => m / 2 ^ 32
          | 4 => Config.coreIndex s.me.place.core
          | _ => s.occ.group, 0))
    ∧ (∀ s, s.CountOk (.movs f x) → x.bk = 1 ∨ x.bk = 3 →
        let b := s.operand f x true 0
        let v := fun (l : Nat) => s.occ.raw x.pair f.a.toNat l
        let out := fun (l : Nat) => if x.ty = 0 then (BitVec.ofNat 32 (v l)).signExtend 64 else BitVec.ofNat 64 (v l)
        (s.lanes .v f = [] → Runs (.movs f x) s fun t => s.WroteNothing t .v 2)
        ∧ (∀ l ls, s.lanes .v f = l :: ls → b < s.occ.width →
            Runs (.movs f x) s fun t => s.WroteS t .v 2 (f.d.extractLsb' 0 6) (out b))
        ∧ (∀ l ls, s.lanes .v f = l :: ls → ¬ b < s.occ.width → b = 0xFFFFFFFF →
            Runs (.movs f x) s fun t => s.WroteS t .v 2 (f.d.extractLsb' 0 6) (out l))
        ∧ (∀ l ls, s.lanes .v f = l :: ls → ¬ b < s.occ.width → b ≠ 0xFFFFFFFF →
            exec (.movs f x) s = .next (s.trap { code := 0x0B, eng := .v, info := BitVec.ofNat 64 b, addr := s.pcOf .v } (s.pcOf .v))))

/-! ## System registers -/

/-- What R32 says of a write of x to register n: the first check that fails names the fault. -/
def sysWriteFault (s : State) (n : Nat) (x : DWord) : Option Nat :=
  if sysAbsent s.tile n then some 0x0B
  else if n ∈ [0x000, 0x001, 0x002, 0x003, 0x004, 0x005, 0x006, 0x007, 0x008, 0x009, 0x010, 0x011, 0x032, 0x033, 0x038,
      0x039] then some 0x0B
  else if n ∈ [0x02B, 0x031, 0x050, 0x051] then some 0x03
  else if n ∈ [0x020, 0x021, 0x022, 0x023, 0x024, 0x025, 0x028, 0x029, 0x02A, 0x02C, 0x03A, 0x048]
      ∧ s.occ.trapLevel = false then some 0x03
  else if s.sysLegal n x then none
  else some 0x0B

/-- R32, R108, R109: SCSR reads, writes and swaps; a checked write is pending until the line is left, and a write that
fails a check takes its fault with no effect. -/
def systemRegisterAccess : Prop :=
  ∀ (s : State) (g : KG) (d : BitVec 6) (num : BitVec 12), s.guard g = true →
    let n := num.toNat
    let u := s.mapOcc fun o => { o with
      sysPend := o.sysPend ++ [(n, s.getS d)]
      capture := o.capture.map fun c => { c with old := c.old.filter fun w => w.1 != n } }
    (Runs (.scsrRead g d num) s fun t => s.WroteS t .k 1 d (s.sysRead n))
    ∧ (sysWriteFault s n (s.getS d) = none →
        (Runs (.scsrWrite g d num) s fun t => u.ThenMoved t .k 1)
        ∧ (Runs (.scsrSwap g d num) s fun t => u.WroteS t .k 1 d (s.sysRead n))
        ∧ u.sysRead n = s.sysRead n)
    ∧ (∀ c, sysWriteFault s n (s.getS d) = some c →
        exec (.scsrWrite g d num) s = s.trappedAt .k c ∧ exec (.scsrSwap g d num) s = s.trappedAt .k c)

/-- R32, R33, R30: behind the line the register reads the value written last; in the rest of a line that a trap broke off it reads as
before; a register that the core kind lacks reads zero. -/
def systemRegistersReadWhatWasWritten : Prop :=
  (∀ (s : State) (p : List (Nat × DWord)) (n : Nat) (x : DWord), s.occ.sysPend = p ++ [(n, x)] →
    n ∈ [0x012, 0x018, 0x020, 0x021, 0x022, 0x023, 0x024, 0x025, 0x028, 0x029, 0x02A, 0x02C, 0x030, 0x03A, 0x040, 0x048,
      0x049, 0x04A] → sysAbsent s.tile n = false →
      s.leaveLine.sysRead n = x ∧ s.leaveLine.occ.sysPend = [] ∧ s.SameRegs s.leaveLine ∧ s.BytesSame s.leaveLine)
  ∧ (∀ (s : State) (w : Nat × DWord), w ∈ s.occ.sysPend →
      s.suspendLine.sysRead w.1 = s.sysRead w.1 ∧ s.suspendLine.occ.sysPend = [])
  ∧ (∀ s : State, s.occ.sysOld = [] → s.tile = false →
      ∀ n ∈ [0x023, 0x038, 0x039, 0x03A, 0x040, 0x048, 0x049, 0x04A], s.sysRead n = 0)
  ∧ (∀ s : State, s.occ.sysOld = [] → s.tile = true → s.sysRead 0x025 = 0)
  ∧ (∀ s : State, s.occ.sysOld = [] → s.sysRead 0x006 = BitVec.ofNat 64 (s.occ.width / 32) ∧ s.sysRead 0x011 = BitVec.ofNat 64 s.me.under.length
      ∧ s.sysRead 0x032 = BitVec.ofNat 64 (s.dieAt s.die).cyc)

/-- R32, R108, R109, R33, R30: SCSR reads, writes and swaps; a checked write is pending until the line is left, and a write that
fails a check takes its fault with no effect. Behind the line the register reads the value written last, and in the rest of a line
that a trap broke off as before; a register that the core kind lacks reads zero. The model's own choices in it: log 43. Completes:
scsrRead, scsrWrite, scsrSwap. -/
def Obligations.SystemRegistersAreReadAndWritten : Prop :=
  systemRegisterAccess ∧ systemRegistersReadWhatWasWritten

/-! ## Control transfers -/

/-- The flow once the line of an instruction is left without being completed: no loop skip waits for it any more (R122). -/
def leftLine (f : Flow) (pc : DWord) : Flow :=
  { f with skips := f.skips.filter fun k => !(k.1 == lineOf64 pc && k.2.1 == f.rdepth) }

/-- The flow once the K engine runs under mask m behind a transfer or a divergence at which every engine stands (R120): each pops the
entry that it pushes, and the queue is empty (log 1). -/
def flowUnder (f : Flow) (m : DWord) : Flow := { f with mask := m, boq := [], pops := Pcs.all 0 }

/-- R40, R41, R111, R112: BR and JMP land on lane 1 of their target line under an unchanged mask; a target without T and a
misaligned address take their faults; a guard that does not hold goes on with the next lane. -/
def branchesLand : Prop :=
  ∀ (s : State) (g : KG) (off : BitVec 22) (a : BitVec 6),
    let u := s.setFlow (flowUnder (leftLine s.occ.flow (s.pcOf .k)) s.kmask)
    let target := lineOf64 (s.pcOf .k) + off.signExtend 64 * 32
    (s.guard g = false → (Runs (.br g off) s fun t => s.WroteNothing t .k 1) ∧ (Runs (.jmp g a) s fun t => s.WroteNothing t .k 1))
    ∧ (s.guard g = true → s.Together →
      (s.CarriesT target → Runs (.br g off) s fun t => u.LandedOn t target)
      ∧ (¬ s.CarriesT target → ∃ info, exec (.br g off) s = s.trapped .k 1 info target)
      ∧ ((s.getS a).toNat % 32 = 0 → s.CarriesT (s.getS a) → Runs (.jmp g a) s fun t => u.LandedOn t (s.getS a))
      ∧ ((s.getS a).toNat % 32 = 0 → ¬ s.CarriesT (s.getS a) → ∃ info, exec (.jmp g a) s = s.trapped .k 1 info (s.getS a))
      ∧ ((s.getS a).toNat % 32 ≠ 0 → exec (.jmp g a) s = s.trapped .k 4 0 (s.getS a)))

/-- R23, R120: a branch pushes one entry with its outcome, its target and the mask; the engines that stand at the branch or behind it in
its line pop it and follow, the others keep their place; with 32 entries in the queue the branch stalls. -/
def branchesPushOneEntry : Prop :=
  ∀ (s : State) (g : KG) (off : BitVec 22), s.guard g = true →
    let pc := s.pcOf .k
    let q := s.occ.flow.settle s.tile
    let target := lineOf64 pc + off.signExtend 64 * 32
    let dest := lineOf64 target + 4
    let n : DWord := BitVec.ofNat 64 (q.boq.length + 1)
    let reaches := fun (e : Eng) => Eng.present s.tile e = false
      ∨ (q.pops.get e = q.pops.k ∧ ∃ j, s.pcOf e = pc + BitVec.ofNat 64 (4 * j) ∧ laneOf pc + j ≤ 9)
    s.CarriesT target →
    (q.boq.length = 32 → exec (.br g off) s = .next (s.beginWait 0 0 0 0))
    ∧ (q.boq.length < 32 → Runs (.br g off) s fun t => t.pcOf .k = dest ∧ t.occ.wait = none
        ∧ (∀ e, reaches e → t.pcOf e = dest) ∧ (∀ e, e ≠ .k → ¬ reaches e → t.pcOf e = s.pcOf e)
        ∧ ∃ pops : Pcs, pops.k = n ∧ (∀ e, reaches e → pops.get e = n) ∧ (∀ e, e ≠ .k → ¬ reaches e → pops.get e = q.pops.get e)
          ∧ t.occ.flow = ({ leftLine q pc with
              boq := q.boq ++ [{ addr := pc, taken := true, transfer := true, target, mask := s.kmask }], pops } : Flow).settle s.tile)

/-- R23: an entry that every engine of the core has popped is freed, and the mask of the last one freed is that of the engines that have
popped none of those left. -/
def poppedEntriesAreFreed : Prop :=
  ∀ (f : Flow) (tile : Bool),
    ((∃ e, Eng.present tile e = true ∧ (f.pops.get e).toNat = 0) → f.settle tile = f)
    ∧ (∀ n en, 0 < n → (∀ e, Eng.present tile e = true → n ≤ (f.pops.get e).toNat) →
        (∃ e, Eng.present tile e = true ∧ (f.pops.get e).toNat = n) → f.boq[n - 1]? = some en →
        f.settle tile = { f with mask := en.mask, boq := f.boq.drop n, pops := f.pops.map fun _ k => k - BitVec.ofNat 64 n })

/-- R23, R40, R41, R111, R112, R120: BR and JMP land on lane 1 of their target line under an unchanged mask; a target without T and a
misaligned address take their faults; a guard that does not hold goes on with the next lane. A branch pushes one entry on the
branch-outcome queue, which each engine pops and follows; with 32 entries it stalls. The model's own choices in it: log 1, 42.
Completes: br, jmp. -/
def Obligations.BranchesLandOnLaneOne : Prop :=
  branchesLand ∧ branchesPushOneEntry ∧ poppedEntriesAreFreed

/-- R113, R114: a push beyond the 16 entries on the core spills the oldest entry to the spill area at %SAVEPTR; entry 257,
and entry 17 while %SAVEPTR is 0, take fault 0x09; an empty core side is filled from the spill area. What trap-level code spills goes
behind what the user level has spilled (log 32). -/
def controlStacksSpill : Prop :=
  ∀ (s : State) (d : DivEntry) (r : RetEntry),
    let f := s.occ.flow
    let oldD := f.div.getLast?.getD d
    let oldR := f.ret.getLast?.getD r
    (f.div.length + f.dspill < 256 → f.div.length < 16 → s.pushDiv d = .ok (s.setFlow { f with div := d :: f.div }))
    ∧ (f.ret.length + f.rspill < 256 → f.ret.length < 16 → s.pushRet r = .ok (s.setFlow { f with ret := r :: f.ret }))
    ∧ (∀ k, f.div.length + f.dspill < 256 → 16 ≤ f.div.length → s.occ.saveptr ≠ 0 → f.dbase + f.dspill < 240 →
        s.translate s.me.ctx (s.occ.saveptr + BitVec.ofNat 64 (0x1000 + 32 * (f.dbase + f.dspill))) .write = .ok k →
        s.pushDiv d = .ok ((s.poke k oldD.bytes).setFlow { f with div := d :: f.div.dropLast, dspill := f.dspill + 1 }))
    ∧ (∀ k, f.ret.length + f.rspill < 256 → 16 ≤ f.ret.length → s.occ.saveptr ≠ 0 → f.rbase + f.rspill < 240 →
        s.translate s.me.ctx (s.occ.saveptr + BitVec.ofNat 64 (0x2E00 + 16 * (f.rbase + f.rspill))) .write = .ok k →
        s.pushRet r = .ok ((s.poke k oldR.bytes).setFlow { f with ret := r :: f.ret.dropLast, rspill := f.rspill + 1 }))
    ∧ (256 ≤ f.div.length + f.dspill ∨ (16 ≤ f.div.length ∧ (s.occ.saveptr = 0 ∨ 240 ≤ f.dbase + f.dspill)) → s.pushDiv d = .error (.trap 9 2 0))
    ∧ (256 ≤ f.ret.length + f.rspill ∨ (16 ≤ f.ret.length ∧ (s.occ.saveptr = 0 ∨ 240 ≤ f.rbase + f.rspill)) → s.pushRet r = .error (.trap 9 3 0))
    ∧ (∀ k n, f.div = [] → f.dspill = n + 1 →
        s.translate s.me.ctx (s.occ.saveptr + BitVec.ofNat 64 (0x1000 + 32 * (f.dbase + n))) .read = .ok k → s.lost k 32 = none →
        s.fillDiv = .ok (s.setFlow { f with div := [DivEntry.ofNat (s.mem.getN k 32)], dspill := n }))
    ∧ (∀ k n, f.ret = [] → f.rspill = n + 1 →
        s.translate s.me.ctx (s.occ.saveptr + BitVec.ofNat 64 (0x2E00 + 16 * (f.rbase + n))) .read = .ok k → s.lost k 16 = none →
        s.fillRet = .ok (s.setFlow { f with ret := [RetEntry.ofNat (s.mem.getN k 16)], rspill := n }))
    ∧ (f.div ≠ [] ∨ f.dspill = 0 → s.fillDiv = .ok s) ∧ (f.ret ≠ [] ∨ f.rspill = 0 → s.fillRet = .ok s)
    ∧ (d.treg < 256 → DivEntry.ofNat (ofBytes d.bytes) = d) ∧ (r.ddepth < 2 ^ 16 → RetEntry.ofNat (ofBytes r.bytes) = r)

/-- R117, R118: CALL and CALLV push the return entry and transfer; CALLV with a pair dispatches the lanes that share the
target of the lowest active lane. -/
def callsPushAndTransfer : Prop :=
  ∀ (s : State) (g : KG) (off : BitVec 22) (a : BitVec 6), s.guard g = true → s.Together →
    let here := lineOf64 (s.pcOf .k)
    let m := s.kmask
    let c : RetEntry := { vKind := false, ddepth := s.occ.flow.ddepth, retline := here + 32 }
    let target := here + off.signExtend 64 * 32
    let tgt := fun (i : Nat) => s.occ.getPair a.toNat i
    (∀ s1, s.pushRet c = .ok s1 → s1.CarriesT target →
      Runs (.call g off) s fun t => (s1.setFlow (flowUnder s1.occ.flow m)).LandedOn t target)
    ∧ (∀ s1, (s.getS a).toNat % 32 = 0 → s.pushRet c = .ok s1 → s1.CarriesT (s.getS a) →
      Runs (.callvReg g a) s fun t => (s1.setFlow (flowUnder s1.occ.flow m)).LandedOn t (s.getS a))
    ∧ ((s.getS a).toNat % 32 ≠ 0 → exec (.callvReg g a) s = s.trapped .k 4 0 (s.getS a))
    ∧ (s.CountOk (.callvPair g a) →
      ((∀ i < s.occ.width, m.getLsbD i = false) → Runs (.callvPair g a) s fun t => s.WroteNothing t .k 1)
      ∧ (∀ i < s.occ.width, m.getLsbD i = true → (tgt i).toNat % 32 ≠ 0 →
          (∀ j < i, m.getLsbD j = true → (tgt j).toNat % 32 = 0) →
          exec (.callvPair g a) s = s.trapped .k 4 (BitVec.ofNat 64 i) (tgt i))
      ∧ (s.occ.width ≤ 64 → (∀ i < s.occ.width, m.getLsbD i = true → (tgt i).toNat % 32 = 0) →
          ∀ l < s.occ.width, m.getLsbD l = true → (∀ j < l, m.getLsbD j = false) →
          ∀ sub : DWord, (∀ i < 64, sub.getLsbD i = (decide (i < s.occ.width) && m.getLsbD i && tgt i == tgt l)) →
          ∀ s1 s2, s.pushDiv { vKind := true, treg := a.toNat, saved := m, pending := m &&& ~~~sub, pendpc := 0 } = .ok s1 →
            s1.pushRet { vKind := true, ddepth := s1.occ.flow.ddepth, retline := here + 32 } = .ok s2 →
            s2.CarriesT (tgt l) →
            Runs (.callvPair g a) s fun t => (s2.setFlow (flowUnder s2.occ.flow sub)).LandedOn t (tgt l)))

/-- R113, R114, R117, R118: a push beyond the 16 entries on the core spills the oldest entry to the spill area at %SAVEPTR; entry
257, and entry 17 while %SAVEPTR is 0, take fault 0x09; an empty core side is filled from the spill area. CALL and CALLV push the
return entry and transfer; CALLV with a pair dispatches the lanes that share the target of the lowest active lane. The model's own
choices in it: log 1, 32, 67. Completes: call, callvPair, callvReg. -/
def Obligations.ControlStacksAndCalls : Prop :=
  controlStacksSpill ∧ callsPushAndTransfer

/-- R115, R116: BRV splits the active lanes and pushes one entry; JOIN runs the lanes still to run, then restores the mask and pops;
it reads the frame base in the top return entry, filled from the spill area when it stands there. A BRV taken with no lane left to fall
through, or behind the last lanes of its line, leaves its line uncompleted. The model's own choices in it: log 1, 42. Completes: brv,
join. -/
def Obligations.DivergenceSplitsAndJoins : Prop :=
  ∀ (s : State), s.Together →
    let pc := s.pcOf .k
    let m := s.kmask
    let f := s.occ.flow
    let next := if laneOf pc + 2 ≤ 7 then pc + 8 else lineOf64 pc + 36
    (∀ (p : BitVec 4) (pn : Bool) (off : BitVec 32) (T : DWord) (s1 : State),
      let target := lineOf64 pc + off.signExtend 64 * 32
      T = m &&& (if pn then ~~~(s.occ.getP p.toNat) else s.occ.getP p.toNat) →
      s.pushDiv { vKind := false, treg := 0, saved := m, pending := if T = 0 then 0 else m &&& ~~~T, pendpc := next } = .ok s1 →
      (T = 0 → Runs (.brv p pn off) s fun t => (s1.setFlow (flowUnder s1.occ.flow m)).ThenMoved t .k 2)
      ∧ (T ≠ 0 → s1.CarriesT target →
          let left := if m &&& ~~~T = 0 ∨ 7 < laneOf pc + 2 then leftLine s1.occ.flow pc else s1.occ.flow
          Runs (.brv p pn off) s fun t => (s1.setFlow (flowUnder left T)).LandedOn t target)
      ∧ (T ≠ 0 → ¬ s1.CarriesT target → ∃ info, exec (.brv p pn off) s = s.trapped .k 1 info target))
    ∧ (∀ s0, s.fillRet = .ok s0 → f.ddepth ≤ s0.occ.flow.frameBase → exec .join s = s.trappedAt .k 0x0B)
    ∧ (∀ s0 s1 e rest, s.fillRet = .ok s0 → s0.occ.flow.frameBase < f.ddepth → s0.fillDiv = .ok s1 → s1.occ.flow.div = e :: rest →
        (e.vKind = true → exec .join s = s.trappedAt .k 0x0B)
        ∧ (e.vKind = false → e.pending = 0 → Runs .join s fun t =>
            (s1.setFlow (flowUnder { s1.occ.flow with div := rest } e.saved)).ThenMoved t .k 1)
        ∧ (e.vKind = false → e.pending ≠ 0 → Runs .join s fun t =>
            (s1.setFlow (flowUnder (leftLine { s1.occ.flow with div := { e with pending := 0 } :: rest } pc) e.pending)).Landed t e.pendpc))
    ∧ (∀ r below, f.ret = r :: below → f.frameBase = r.ddepth) ∧ (f.ret = [] → f.frameBase = 0)

/-- R119, R124: RET pops the return stack, unbinds the loops of the callee, and completes the line of the CALL; the last return of a
CALLV restores the mask, and an earlier one dispatches the next lanes, whose target must be aligned (R40). The model's own choices in
it: log 1, 42. Completes: ret. -/
def Obligations.ReturnsCompleteTheLineOfTheCall : Prop :=
  ∀ (s s1 : State) (g : KG) (e : RetEntry) (rest : List RetEntry), s.guard g = true → s.Together →
    let f := s1.occ.flow
    let depth := f.rdepth - 1
    let popped : Flow := { f with
      ret := rest, loops := f.loops.filter fun l => l.rdepth ≤ depth, skips := f.skips.filter fun k => k.2.1 ≤ depth }
    let lands := fun (u : State) (m : DWord) =>
      let fm := flowUnder u.occ.flow m
      (∀ n, fm.complete (e.retline - 32) = .error n → Runs (.ret g) s fun t => (u.setFlow fm).Landed t e.retline)
      ∧ (∀ fc x, fm.complete (e.retline - 32) = .ok (fc, some x) → Runs (.ret g) s fun t => (u.setFlow fc).LandedOn t x)
      ∧ (∀ fc, fm.complete (e.retline - 32) = .ok (fc, none) → u.CarriesT e.retline →
          Runs (.ret g) s fun t => (u.setFlow fc).LandedOn t e.retline)
      ∧ (∀ fc, fm.complete (e.retline - 32) = .ok (fc, none) → ¬ u.CarriesT e.retline →
          ∃ info, exec (.ret g) s = s.trapped .k 1 info e.retline)
    (s.occ.flow.rdepth = 0 → exec (.ret g) s = s.trappedAt .k 0x0A)
    ∧ (s.occ.flow.rdepth ≠ 0 → s.fillRet = .ok s1 → f.ret = e :: rest →
        (f.ddepth ≠ e.ddepth → exec (.ret g) s = s.trappedAt .k 0x0B)
        ∧ (f.ddepth = e.ddepth → e.vKind = false → lands (s1.setFlow popped) s.kmask)
        ∧ (∀ s3 v below, f.ddepth = e.ddepth → e.vKind = true → (s1.setFlow popped).fillDiv = .ok s3 →
            s3.occ.flow.div = v :: below →
            ((∀ i < s.occ.width, v.pending.getLsbD i = false) →
              lands (s3.setFlow { s3.occ.flow with div := below }) v.saved)
            ∧ (∀ x sub s4, s.occ.dispatch v.treg v.pending = some (x, sub) →
                (s3.setFlow { s3.occ.flow with div := { v with pending := v.pending &&& ~~~sub } :: below }).pushRet
                  { vKind := true, ddepth := s3.occ.flow.ddepth, retline := e.retline } = .ok s4 → x.toNat % 32 = 0 →
                s4.CarriesT x →
                Runs (.ret g) s fun t => (s4.setFlow (flowUnder s4.occ.flow sub)).LandedOn t x)
            ∧ (∀ x sub, s.occ.dispatch v.treg v.pending = some (x, sub) → x.toNat % 32 ≠ 0 →
                ∃ l < s.occ.width, v.pending.getLsbD l = true ∧ (∀ j < l, v.pending.getLsbD j = false)
                  ∧ x = s.occ.getPair v.treg l ∧ exec (.ret g) s = s.trapped .k 4 (BitVec.ofNat 64 l) x)))

/-- R121, R122, R125: LOOP binds an lc register or asks for a loop skip, and LBRK leaves a loop; both fault with 0x1B where the
rules say so. A second LOOP of count 0 in one line replaces the loop skip of the first, and LBRK drops it: the model's own choice, log
42. The model's own choices in it: log 1, 42. Completes: loopOpen, lbrk. -/
def Obligations.LoopsBindAndBreak : Prop :=
  ∀ (s : State) (g : KG) (lc : BitVec 2) (byImm : Bool) (a : BitVec 6) (e count : BitVec 16), s.guard g = true →
    let f := s.occ.flow
    let line := lineOf64 (s.pcOf .k)
    let n : Word := if byImm then count.setWidth 32 else (s.getS a).setWidth 32
    let skips := (leftLine f (s.pcOf .k)).skips
    let bound := f.loops.any fun l => l.lc == lc.toNat
    (bound = true ∨ e = 0 → exec (.loopOpen g lc byImm a e count) s = s.trappedAt .k 0x1B)
    ∧ (bound = false → e ≠ 0 → n = 0 → Runs (.loopOpen g lc byImm a e count) s fun t =>
        (s.setFlow { f with skips := (line, f.rdepth, line + BitVec.ofNat 64 (32 * (e.toNat + 1))) :: skips }).ThenMoved t .k 2
        ∧ s.SameRegs t ∧ s.BytesSame t)
    ∧ (bound = false → e ≠ 0 → n ≠ 0 → Runs (.loopOpen g lc byImm a e count) s fun t =>
        (s.setFlow { f with
          lc := t.occ.flow.lc,
          loops := { lc := lc.toNat, start := line + 32, span := e.toNat, ddepth := f.ddepth, rdepth := f.rdepth } :: f.loops }).ThenMoved t .k 2
        ∧ t.occ.getLc lc.toNat = n ∧ (∀ k : BitVec 2, k ≠ lc → t.occ.getLc k.toNat = s.occ.getLc k.toNat)
        ∧ s.SameRegs t ∧ s.BytesSame t)
    ∧ (bound = false → exec (.lbrk g lc) s = s.trappedAt .k 0x1B)
    ∧ (∀ l, f.loops.find? (fun l => l.lc == lc.toNat) = some l →
        (l.ddepth ≠ f.ddepth → exec (.lbrk g lc) s = s.trappedAt .k 0x1B)
        ∧ (l.ddepth = f.ddepth → s.Together → Runs (.lbrk g lc) s fun t =>
            (s.setFlow (flowUnder { f with skips := skips, loops := (f.loops.dropWhile fun x => x.lc != lc.toNat).drop 1 } s.kmask)).LandedOn t
              (l.start + BitVec.ofNat 64 (32 * l.span))))

/-- R122, R123: what the completion of a line leads to: a loop skip that waits for it; else loops that end there count
down, innermost first, and the first that has iterations left transfers to its start. -/
def linesCompleteInnermostFirst : Prop :=
  ∀ (f : Flow) (line : DWord),
    let ends := fun (l : LoopRec) => l.start + BitVec.ofNat 64 (32 * (l.span - 1)) = line ∧ l.rdepth = f.rdepth
    let left := fun (l : LoopRec) => f.lc.getD l.lc 0 - 1
    let noSkip := f.skips.find? (fun k => k.1 == line && k.2.1 == f.rdepth) = none
    (∀ k, f.skips.find? (fun k => k.1 == line && k.2.1 == f.rdepth) = some k →
      f.complete line = .ok ({ f with skips := f.skips.erase k }, some k.2.2))
    ∧ (noSkip → f.loops = [] → f.complete line = .ok (f, none))
    ∧ (∀ l ls, noSkip → f.loops = l :: ls → ¬ ends l → f.complete line = .ok (f, none))
    ∧ (∀ l ls, noSkip → f.loops = l :: ls → ends l → l.ddepth ≠ f.ddepth → f.complete line = .error l.lc)
    ∧ (∀ l ls, noSkip → f.loops = l :: ls → ends l → l.ddepth = f.ddepth → left l ≠ 0 →
        f.complete line = .ok ({ f with lc := setAt 0 f.lc l.lc (left l) }, some l.start))
    ∧ (∀ l ls, noSkip → f.loops = l :: ls → ends l → l.ddepth = f.ddepth → left l = 0 →
        f.complete line = ({ f with lc := setAt 0 f.lc l.lc 0, loops := ls } : Flow).complete line)

/-- R122, R123, R32: at the end of a line the K engine completes it; the engines that have left a line earlier go on to the
next line. -/
def lineEndsCompleteTheLine : Prop :=
  ∀ (s : State),
    let p := s.pcOf .k
    (∀ f x, laneOf p = 0 → s.Together → s.occ.flow.complete (p - 32) = .ok (f, some x) →
      Runs .lineEndAction s fun t => (s.setFlow (flowUnder f (f.maskOf .k))).LandedOn t x)
    ∧ (∀ f, laneOf p = 0 → s.occ.flow.complete (p - 32) = .ok (f, none) → Runs .lineEndAction s fun t =>
        t = ((s.setFlow f).leaveLine.mapOcc fun o => { o with pcs := o.pcs.map fun e a => if o.standsWith .k e then p + 4 else a })
        ∧ t.pcOf .k = p + 4 ∧ s.SameRegs t ∧ s.BytesSame t)
    ∧ (∀ n, laneOf p = 0 → s.occ.flow.complete (p - 32) = .error n →
        exec .lineEndAction s = .next (s.leaveLine.trap
          { code := 0x1B, eng := .k, info := BitVec.ofNat 64 (1 + 2 * n), addr := p - 32 } p))
    ∧ (laneOf p ≠ 0 → Runs .lineEndAction s fun t =>
        t = (s.leaveLine.mapOcc fun o => { o with pcs := o.pcs.map fun _ a => if laneOf a = 0 then a + 4 else a })
        ∧ t.pcOf .k = p ∧ s.SameRegs t ∧ s.BytesSame t)

/-- R122, R123, R32: what the completion of a line leads to: a loop skip that waits for it; else loops that end there count down,
innermost first, and the first that has iterations left transfers to its start. At the end of a line the K engine completes it; the
engines that have left a line earlier go on to the next line. The model's own choices in it: log 42. Completes: lineEndAction. -/
def Obligations.LineCompletionRunsLoops : Prop :=
  linesCompleteInnermostFirst ∧ lineEndsCompleteTheLine

/-! ## Traps -/

/-- The %EPC registers (R32). -/
def epcReg (n : Nat) : Bool := decide (0x020 ≤ n) && decide (n ≤ 0x025)

/-- Lane j of a line is tagged for engine e, and is no continuation word (R36). -/
def taggedFor (ws : List Word) (e : Eng) (j : Nat) : Prop :=
  Eng.ofTag (laneTag (ws.headD 0) j) = some e ∧ laneTag (ws.headD 0) j ≠ 15

/-- The address at which engine e, standing at p, is stopped: its first lane from p on in the line, else lane 1 of the line that follows
in memory (R28, R444). -/
def StopsAt (ws : List Word) (p : DWord) (e : Eng) (a : DWord) : Prop :=
  (∃ j, laneOf p ≤ j ∧ j ≤ 7 ∧ taggedFor ws e j ∧ (∀ i, laneOf p ≤ i → i < j → ¬ taggedFor ws e i)
    ∧ a = lineOf64 p + BitVec.ofNat 64 (4 * j))
  ∨ ((∀ i, laneOf p ≤ i → i ≤ 7 → ¬ taggedFor ws e i) ∧ a = lineOf64 p + 36)

/-- R28, R444, R134: where a group stops that is stopped before p. Engines that stand at p with those furthest behind stop at their next
lane, others where they stand; an absent engine reads zero. A K engine with no lane left completes the line: a transfer stands in the
queue for the others, and where the end action faults it stands after the line, not completed. Behind its own TRAP or BKPT (`here`) the
K engine stops at the next address, behind lane 7 after the line with the line not completed. -/
def enginesStopAtTheirNextLane : Prop :=
  ∀ (s : State) (p : DWord) (ws : List Word), p.toNat % 4 = 0 →
    let f := s.occ.flow
    let stands := fun (e : Eng) => s.pcOf e = p ∧ f.pops.get e = f.pops.get (s.occ.leader s.tile)
    let inLine := laneOf p ≠ 0
    let line := if laneOf p = 0 then p - 32 else lineOf64 p
    let kDone := stands .k ∧ (inLine → ∀ i, laneOf p ≤ i → i ≤ 7 → ¬ taggedFor ws .k i)
    s.fetched line = .ok ws →
    (∀ here e, Eng.present s.tile e = false → (s.stopPoint p here).pcs.get e = 0)
    ∧ (∀ here e, e ≠ .k → Eng.present s.tile e = true →
        (¬ stands e → (s.stopPoint p here).pcs.get e = s.pcOf e)
        ∧ (stands e → inLine → StopsAt ws p e ((s.stopPoint p here).pcs.get e))
        ∧ (stands e → ¬ inLine → (s.stopPoint p here).pcs.get e = p + 4))
    ∧ (let r := s.stopPoint p true
       r.flow = f ∧ r.pcs.k = (if inLine then p else p + 4) ∧ r.inLine = decide inLine ∧ r.unfinished = !decide inLine)
    ∧ (let r := s.stopPoint p false
       (¬ stands .k → r.flow = f ∧ r.pcs.k = s.pcOf .k ∧ r.inLine = true ∧ r.unfinished = false)
       ∧ (stands .k → ¬ kDone → r.flow = f ∧ StopsAt ws p .k r.pcs.k ∧ r.inLine = true ∧ r.unfinished = false)
       ∧ (∀ n, kDone → f.complete line = .error n →
           r.flow = f ∧ r.pcs.k = line + 36 ∧ r.inLine = false ∧ r.unfinished = true)
       ∧ (∀ g, kDone → f.complete line = .ok (g, none) →
           r.flow = g ∧ r.pcs.k = line + 36 ∧ r.inLine = false ∧ r.unfinished = false)
       ∧ (∀ g x, kDone → f.complete line = .ok (g, some x) →
           r.flow = { g with
             boq := g.boq ++ [{ addr := line, taken := true, transfer := true, target := x, mask := g.maskOf .k }]
             pops := g.pops.set .k (BitVec.ofNat 64 (g.boq.length + 1)) }
           ∧ r.pcs.k = x + 4 ∧ r.inLine = false ∧ r.unfinished = false))

/-- R371, R372, R28, R230: a trap from user level captures the flow, the s- and q-registers and v0 as they stand where the group stops,
saves the cause and where each engine stopped, and continues every engine at the trap vector with all lanes active, empty stacks and
v0 = 4 × lane. A started nest halts, and X commands not started are discarded, the first of which %EPC.X names. -/
def trapEntrySavesAndJumps : Prop :=
  ∀ (s : State) (c : Cause) (p : DWord), s.occ.trapLevel = false →
    let t := s.trap c p
    let fatal := c.code = 0x0C ∨ c.code = 0x0E ∨ c.code = 0x13 ∨ c.code = 0x14 ∨ c.code = 0x1C
    let own := c.code = 0x19 ∨ (c.code = 0x16 ∧ c.info.getLsbD 63 = false)
    let stop := s.drain.stopPoint p (decide (own ∧ s.pcOf .k = p))
    let discarded := s.occ.xcmds.find? fun x => !x.started
    t.occ.trapLevel = true ∧ (∀ e, t.pcOf e = lineOf64 s.shared.tvec + 4) ∧ t.occ.wait = none
    ∧ t.occ.tcause = BitVec.ofNat 64 (c.code + 64 * c.eng.code + if fatal then 1024 else 0)
    ∧ t.occ.tinfo = c.info ∧ t.occ.taddr = c.addr
    ∧ t.occ.flow = { Flow.empty with mask := allLanes s.occ.width, dbase := s.occ.flow.dspill, rbase := s.occ.flow.rspill }
    ∧ (∃ cap, t.occ.capture = some cap ∧ cap.s = s.occ.regs.s ∧ cap.q = s.occ.regs.q ∧ cap.v0 = s.occ.regs.v.getD 0 []
        ∧ cap.flow = stop.flow ∧ cap.atEnd = (if stop.unfinished then some stop.pcs.k else none))
    ∧ s.SameS t ∧ s.SameQ t ∧ s.SameP t ∧ (∀ r i, r ≠ 0 → t.occ.getV r i = s.occ.getV r i)
    ∧ (∀ i < s.occ.width, t.occ.getV 0 i = BitVec.ofNat 32 (4 * i))
    ∧ t.occ.stores = [] ∧ t.mem = s.drain.mem
    ∧ (∀ e, e ≠ .x ∨ discarded = none → t.occ.epc.get e = stop.pcs.get e)
    ∧ (∀ x, discarded = some x → t.occ.epc.x = x.addr)
    ∧ t.occ.xcmds = s.occ.xcmds.filter (fun x => x.started && x.op != 1)
    ∧ (∀ x, s.occ.sysPend = [] → s.occ.xcmds.find? (fun x => x.started && x.op == 1) = some x → t.occ.mprog = s.occ.mprog ||| (1 <<< 32))

/-- R373: a fault at trap level writes its cause with NESTED and FATAL, keeps the entry capture and every %EPC, and
continues at the second line of the trap vector; one that is raised while NESTED is set ends the occupant. -/
def faultsAtTrapLevelNest : Prop :=
  ∀ (s : State) (c : Cause) (p : DWord), s.occ.trapLevel = true →
    (s.occ.tcause.getLsbD 9 = true → s.trap c p = s.mapOcc fun o => { o with ending := true })
    ∧ (s.occ.tcause.getLsbD 9 = false → (∀ w ∈ s.occ.sysPend, epcReg w.1 = false) →
        let t := s.trap c p
        t.occ.trapLevel = true ∧ (∀ e, t.pcOf e = lineOf64 (s.shared.tvec + 32) + 4)
        ∧ t.occ.tcause = BitVec.ofNat 64 (c.code + 64 * c.eng.code + 512 + 1024)
        ∧ t.occ.tinfo = c.info ∧ t.occ.taddr = c.addr ∧ t.occ.epc = s.occ.epc ∧ t.occ.capture = s.occ.capture
        ∧ t.occ.flow = s.occ.flow ∧ s.SameRegs t ∧ t.mem = s.drain.mem)

/-- R28, R134, R230, R371, R372, R373, R444: a trap from user level captures the flow with its mask, its loops and its queue, the s- and
q-registers and v0, saves the cause and the stop address of each engine, its next lane, and continues every engine at the trap vector
with all lanes active, empty stacks and v0 = 4 × lane. A fault at trap level writes its cause with NESTED and FATAL, keeps the entry
capture and every %EPC, and continues at the second line of the trap vector; one that is raised while NESTED is set ends the occupant.
The model's own choices in it: log 1, 66. -/
def Obligations.TrapEntryAndNestedFaults : Prop :=
  enginesStopAtTheirNextLane ∧ trapEntrySavesAndJumps ∧ faultsAtTrapLevelNest

/-- R134, R135, R370, R373, R389: TRAP and BKPT complete and then take causes 0x19 and 0x16 with their immediate, at trap
level once it is left; BKPT stops the other groups of a context that asks for it; a cause that waits is taken at the
boundary where the group stands. -/
def trapInstructionsTakeTheirCause : Prop :=
  ∀ (s : State) (g : KG) (imm : BitVec 16), s.guard g = true →
    let pc := s.pcOf .k
    let c := fun code => ({ code, eng := .k, info := imm.setWidth 64, addr := pc, pc := some pc } : Cause)
    let stopped := fun (g : Group) => if g.ctx == s.me.ctx && g.run == .running then
      { g with occ := { g.occ with causes := g.occ.causes ++ [{ code := 0x16, eng := .k, info := 1 <<< 63, addr := 0 }] } } else g
    let u := if s.shared.flags % 2 = 1 then { s with others := s.others.map stopped } else s
    (s.occ.trapLevel = false →
      exec (.trap g imm) s = .next ((s.advance .k 1).trap (c 0x19) (pc + 4))
      ∧ exec (.bkpt g imm) s = .next ((u.advance .k 1).trap (c 0x16) (pc + 4)))
    ∧ (s.occ.trapLevel = true →
      (Runs (.trap g imm) s fun t =>
        (s.mapOcc fun o => { o with causes := o.causes ++ [c 0x19] }).ThenMoved t .k 1)
      ∧ (Runs (.bkpt g imm) s fun t =>
        (s.mapOcc fun o => { o with causes := o.causes ++ [c 0x16] }).ThenMoved t .k 1))
    ∧ (∀ en, s.me.run = .running → s.occ.trapLevel = false → s.queued = some en →
      exec (.asyncTrap s.me.gid) s = .next (s.follow en))
    ∧ (∀ a, s.me.run = .running → s.occ.trapLevel = false → s.queued = none → s.occ.firstCause = some a → a.code ∉ [0x16, 0x17] →
      s.occ.wait = none → (∀ d ∈ s.occ.causes, d.code ≠ 0x13 ∧ d.code ≠ 0x14) ∨ s.me.under = [] →
      exec (.asyncTrap s.me.gid) s = .next ((s.mapOcc fun o =>
        { o with causes := (o.causes.erase a).filter fun d => d.cmd == 0 }).trap a s.position))

/-- R43, R58: an illegal line is charged to engine K with the lane's address, and an illegal instruction to the engine of
its tag with the instruction address; %TINFO holds lane, tag and subcode. -/
def encodingFaultsReportTheLane : Prop :=
  ∀ (s : State),
    (∀ d : LineDefect, exec (.illegalLineFault d) s = .next (s.trap
      { code := 1, eng := .k, info := BitVec.ofNat 64 (d.lane + 16 * d.tag.toNat + 256 * d.sub),
        addr := lineOf64 s.position + BitVec.ofNat 64 (4 * d.lane) } s.position))
    ∧ (∀ (d : WordDefect) e, Eng.ofTag (d.tag.toNat % 8) = some e →
      exec (.illegalInstructionFault d) s = s.trapped e 2
        (BitVec.ofNat 64 (d.lane + 8 * d.ext.toNat + 16 * d.tag.toNat + 256 * d.sub + 4096 * d.op.toNat)) (s.pcOf e))

/-- R134, R135, R370, R373, R389, R43, R58: TRAP and BKPT complete and then take causes 0x19 and 0x16 with their immediate, at
trap level once it is left; BKPT stops the other groups of a context that asks for it; a cause that waits is taken at the boundary
where the group stands. An illegal line is charged to engine K with the lane's address, and an illegal instruction to the engine
of its tag with the instruction address; %TINFO holds lane, tag and subcode. The model's own choices in it: log 6, 31. Completes:
trap, bkpt, illegalLineFault, asyncTrap, illegalInstructionFault. -/
def Obligations.TrapInstructionsAndEncodingFaults : Prop :=
  trapInstructionsTakeTheirCause ∧ encodingFaultsReportTheLane

/-- R137, R370, R371, R379, R442, R123, R361: RFT faults with 0x03 at user level, and after a FATAL trap acts as PARK with fn 2; else it
restores the entry capture, resumes each engine at its %EPC and lets halted commands and streams go on, or takes the fault of the first
engine whose %EPC cannot be resumed, or 0x0B where an unfinished mode-3 move of the slot finds the DDA not owned by its group or its
tap not bound to sink 3. After an end action's fault it applies the end action of the line before %EPC.K again. Power
tokens held at the save are taken again. Completes: rft. -/
def Obligations.ReturnFromTrapRestoresTheCapture : Prop :=
  ∀ (s : State) (cap : Capture),
    let o := s.occ
    let tapped := ∀ p ∈ s.me.occs, ∀ c ∈ p.cmds, c.op = 0x0B → c.move.mode = 3 → c.i < c.move.count →
      (∃ d, s.core.dda.owner = some (s.me.gid, d)) ∧ (s.core.dda.taps.getD c.move.tap Tap.reset).sink = 3
    let resumable := fun (e : Eng) => (o.epc.get e).toNat % 4 = 0 ∧ laneOf (o.epc.get e) ≠ 0
      ∧ ∀ ws, s.fetch (lineOf64 (o.epc.get e)) = .ok ws → laneTag (ws.headD 0) (laneOf (o.epc.get e)) ≠ 15
    let again := o.tcause.toNat % 64 = 0x1B ∧ o.tinfo.getLsbD 0 = true ∨ cap.atEnd = some o.epc.k
    let line := lineOf64 o.epc.k - 32
    let resumed := fun (f : Flow) (k : DWord) (t : State) =>
      t.occ.trapLevel = false ∧ t.occ.capture = none ∧ t.occ.flow = f ∧ t.occ.wait = none
      ∧ t.occ.stepping = o.tcause.getLsbD 15 ∧ t.occ.tcause = o.tcause &&& ~~~0x8000#64
      ∧ (∀ r : BitVec 6, t.getS r = if r = 0 then 0 else cap.s.getD r.toNat 0)
      ∧ (∀ r : BitVec 3, t.occ.getQ r.toNat = (r == 0 || cap.q.getLsbD r.toNat))
      ∧ (∀ i, t.occ.getV 0 i = cap.v0.getD i 0) ∧ (∀ r i, r ≠ 0 → t.occ.getV r i = s.occ.getV r i) ∧ s.SameP t
      ∧ (∀ c ∈ t.occ.cmds, c.halted = false) ∧ (∀ w ∈ t.occ.streams, w.halted = false)
      ∧ t.occ.sysOld = (if cap.oldLine = lineOf64 o.epc.k then cap.old else [])
      ∧ t.occ.mwait = cap.mwait.filter (fun w => w.1 == o.epc.k)
      ∧ s.BytesSame t ∧ t.occ.epc = o.epc ∧ (∀ e, e ≠ .k → t.pcOf e = o.epc.get e) ∧ t.pcOf .k = k
    (o.trapLevel = false → exec .rft s = s.trappedAt .k 3)
    ∧ (o.trapLevel = true → o.tcause.getLsbD 10 = true → exec .rft s = exec .parkEnd s)
    ∧ (∀ e earlier later, o.trapLevel = true → o.tcause.getLsbD 10 = false →
        allEngines.filter (Eng.present s.tile) = earlier ++ e :: later → (∀ f ∈ earlier, resumable f) →
        ((o.epc.get e).toNat % 4 ≠ 0 ∨ laneOf (o.epc.get e) = 0 → exec .rft s = s.trapped .k 4 0 (o.epc.get e))
        ∧ (∀ ws, (o.epc.get e).toNat % 4 = 0 → laneOf (o.epc.get e) ≠ 0 → s.fetch (lineOf64 (o.epc.get e)) = .ok ws →
            laneTag (ws.headD 0) (laneOf (o.epc.get e)) = 15 →
            exec .rft s = s.trapped .k 1 (BitVec.ofNat 64 (laneOf (o.epc.get e) + 16 * 15 + 256 * 3)) (o.epc.get e)))
    ∧ (o.trapLevel = true → o.tcause.getLsbD 10 = false →
        (∀ e, Eng.present s.tile e = true → resumable e) → ¬ tapped → exec .rft s = s.trappedAt .k 0x0B)
    ∧ (o.trapLevel = true → o.tcause.getLsbD 10 = false →
        (∀ e, Eng.present s.tile e = true → resumable e) → tapped → s.teamWhole = true →
        s.shared.powcompat % 2 = 0 ∨ (s.me.occs.filter fun p => p.owed).length ≤ s.tokens →
        o.capture = some cap → o.sysPend = [] → (∀ w, o.parked = some w → w.kind ≠ 4 ∧ w.kind ≠ 5) →
        (¬ again → Runs .rft s (resumed cap.flow o.epc.k))
        ∧ (∀ f, again → cap.flow.complete line = .ok (f, none) → Runs .rft s (resumed f o.epc.k))
        ∧ (∀ f x, again → cap.flow.complete line = .ok (f, some x) → Runs .rft s (resumed
            { f with
              boq := f.boq ++ [{ addr := line, taken := true, transfer := true, target := x, mask := f.maskOf .k }]
              pops := f.pops.set .k (BitVec.ofNat 64 (f.boq.length + 1)) } (x + 4)))
        ∧ (∀ n, again → cap.flow.complete line = .error n → Runs .rft s fun t => t.occ.trapLevel = true
            ∧ t.occ.tcause.toNat % 64 = 0x1B ∧ t.occ.tinfo = BitVec.ofNat 64 (1 + 2 * n) ∧ t.occ.taddr = line))
    ∧ (o.trapLevel = true → o.tcause.getLsbD 10 = false →
        (∀ e, Eng.present s.tile e = true → resumable e) → tapped → s.teamWhole = true →
        s.shared.powcompat % 2 = 1 → s.tokens < (s.me.occs.filter fun p => p.owed).length →
        exec .rft s = .next (s.beginWait 15 0 0 0))

/-- R138, R374, R379: PARK faults with 0x03 at user level and waits for the X queue; it writes the control record, and the
group leaves its slot, in a wait that a watch ends, or pre-empted; with fn 2 the occupant ends, once its commands that no fault has
halted are complete. Completes: parkWait, parkPreempt, parkEnd. -/
def parkingLeavesTheSlot : Prop :=
  ∀ (s : State),
    let o := s.occ
    (o.trapLevel = false → exec .parkWait s = s.trappedAt .k 3 ∧ exec .parkPreempt s = s.trappedAt .k 3
      ∧ exec .parkEnd s = s.trappedAt .k 3)
    ∧ (o.trapLevel = true → s.me.bottom.saveptr = 0 →
        exec .parkWait s = s.trappedAt .k 0x0B ∧ exec .parkPreempt s = s.trappedAt .k 0x0B)
    ∧ (o.trapLevel = true → s.me.bottom.saveptr ≠ 0 → o.xcmds ≠ [] →
        exec .parkWait s = .next (s.beginWait 25 0 0 0) ∧ exec .parkPreempt s = .next (s.beginWait 25 0 0 0))
    ∧ (∀ key card, o.trapLevel = true → o.xcmds = [] → o.causes = [] → s.SaveAreaAt key card →
        let left := fun (r : Run) (t : State) => t.me = Group.vacant
          ∧ ∃ g, t.others = s.others ++ [g] ∧ g.gid = s.me.gid ∧ g.run = r ∧ g.under.length = s.me.under.length
            ∧ g.occ.capture = o.capture ∧ g.occ.task = o.task ∧ g.occ.team = o.team ∧ g.occ.power = false
        Runs .parkWait s (left (.waitPark o.parked.isNone)) ∧ Runs .parkPreempt s (left .preemptPark))
    ∧ (o.trapLevel = true → (∀ c ∈ o.cmds, c.halted = true) → (∀ c ∈ o.xcmds, c.halted = true) →
        exec .parkEnd s = .next (s.mapOcc fun o => { o with cmds := [], xcmds := [] }).endAbnormally
        ∧ (o.task = 0 → s.me.under = [] → o.tcause.toNat % 64 = 0x13 ∨ o.tcause.toNat % 64 = 0x14 →
            Runs .parkEnd s fun t => t.me = Group.vacant)
        ∧ (∀ p rest, s.me.under = p :: rest → o.task = 0 ∨ o.tcause.toNat % 64 = 0x13 ∨ o.tcause.toNat % 64 = 0x14 →
            Runs .parkEnd s fun t => t.me.under = rest ∧ t.occ.task = p.task ∧ t.occ.capture = p.capture))
    ∧ (o.trapLevel = true → (∃ c ∈ o.cmds, c.halted = false) ∨ (∃ c ∈ o.xcmds, c.halted = false) →
        exec .parkEnd s = .next (s.beginWait 25 0 0 0))

/-- R138, R377, R219: the bytes that PARK writes: the record from the entry capture, 64 bytes of it in each piece of the save area from
the bottom save pointer on, the AWIN word behind the claims, and STATE 4 of a parked task's card; every other byte is as the group's
own stores have left it, the team record's fields too. -/
def parkingWritesTheRecord : Prop :=
  ∀ (s : State) (cap : Capture) (key : Nat → Nat) (card : Nat),
    s.occ.trapLevel = true → s.occ.xcmds = [] → s.occ.causes = [] → s.occ.capture = some cap →
    s.SaveAreaAt key card → PiecesApart key card →
    let parked := s.me.bottom.task ≠ 0
    let awin := toBytes 4 (s.occ.awb + s.occ.awl * 2 ^ 16)
    let wrote := fun (fn : Nat) (t : State) =>
      let record := s.drain.leaveLine.recordHead fn cap s.holdsDda
      record.length = 61 * 64
      ∧ (∀ i < 61, ∀ j < 64, t.mem.get (key i + j) = record.getD (64 * i + j) 0)
      ∧ (∀ j < 3, t.mem.get (key 63 + 5 + j) = 0) ∧ (∀ j < 24, t.mem.get (key 63 + 0x28 + j) = awin.getD j 0)
      ∧ (parked → t.mem.get card = 4)
      ∧ ∀ k, (∀ i < 61, k < key i ∨ key i + 64 ≤ k) → (k < key 63 + 5 ∨ key 63 + 8 ≤ k) →
          (k < key 63 + 0x28 ∨ key 63 + 0x40 ≤ k) → (parked → k ≠ card) → t.mem.get k = s.drain.mem.get k
    Runs .parkWait s (wrote 0) ∧ Runs .parkPreempt s (wrote 1)

/-- R377, R378: what the control record holds, and where: the registers and the wait of the group, its captured flow and registers. -/
def controlRecordHoldsTheGroup : Prop :=
  ∀ (s : State) (fn : Nat) (cap : Capture) (dda : Bool),
    let r := s.recordHead fn cap dda
    let o := s.occ
    let f := cap.flow
    recN r 0 2 = 0xC7A1 ∧ recN r 2 1 = fn % 256 ∧ recN r 3 1 = o.token.isSome.toNat + 2 * o.power.toNat + 4 * dda.toNat
    ∧ recN r 4 4 = o.task % 2 ^ 32 ∧ recD r 8 = f.mask
    ∧ recPcs r 0x010 = o.epc ∧ recD r 0x040 = o.tcause ∧ recD r 0x048 = o.tinfo ∧ recD r 0x050 = o.taddr
    ∧ (∀ w, o.parked = some w → recD r 0x058 = w.obj ∧ recN r 0x060 1 = w.kind % 256
        ∧ (w.kind = 2 ∨ w.kind = 7 ∨ w.kind = 8 → recN r 0x068 4 = w.detail % 2 ^ 32))
    ∧ (o.parked = none → recD r 0x058 = 0 ∧ recN r 0x060 1 = 0)
    ∧ recN r 0x061 1 = s.me.under.length % 256 ∧ recN r 0x062 1 = s.me.alim % 256 ∧ recN r 0x063 1 = o.window.toNat % 256
    ∧ recN r 0x064 4 = o.parkt.toNat % 2 ^ 32
    ∧ (∀ a n, o.token = some (a, n) → recD r 0x070 = a ∧ recN r 0x078 4 = n % 2 ^ 32)
    ∧ recD r 0x80 = 0 ∧ (∀ i, 0 < i → i < 64 → recD r (0x80 + 8 * i) = cap.s.getD i 0)
    ∧ recN r 0x280 1 = cap.q.toNat / 2 * 2 + 1
    ∧ recN r 0x282 2 = f.ddepth % 2 ^ 16 ∧ recN r 0x284 2 = f.rdepth % 2 ^ 16 ∧ recN r 0x286 2 = o.fgseen % 2 ^ 16
    ∧ (∀ l, f.loops.find? (·.lc == l.lc) = some l → l.lc < 4 →
        recN r (0x288 + 4 * l.lc) 4 = (f.lc.getD l.lc 0).toNat ∧ recD r (0x298 + 16 * l.lc) = l.start
        ∧ recN r (0x298 + 16 * l.lc + 8) 2 = l.span % 2 ^ 16 ∧ recN r (0x298 + 16 * l.lc + 10) 2 = l.ddepth % 2 ^ 16
        ∧ recN r (0x298 + 16 * l.lc + 12) 2 = l.rdepth % 2 ^ 16 ∧ recN r (0x298 + 16 * l.lc + 14) 2 = 1)
    ∧ (∀ n < 4, (∀ l ∈ f.loops, l.lc ≠ n) → recN r (0x288 + 4 * n) 4 = 0 ∧ recN r (0x298 + 16 * n) 16 = 0)
    ∧ (∀ (j : Nat) w, j < 4 → o.watches[j]? = some w → recD r (0x2D8 + 24 * j) = w.addr ∧ recD r (0x2D8 + 24 * j + 8) = w.expect
        ∧ recN r (0x2D8 + 24 * j + 16) 1 = w.attrs % 256 ∧ recN r (0x2D8 + 24 * j + 17) 1 = w.armed.toNat)
    ∧ (∀ (j : Nat) q, j < 32 → f.boq[j]? = some q → recD r (0x340 + 24 * j) = q.addr
        ∧ recN r (0x340 + 24 * j + 8) 8 = q.target.toNat / 4 * 4 + q.taken.toNat + 2 * q.transfer.toNat
        ∧ recD r (0x340 + 24 * j + 16) = q.mask)
    ∧ (∀ (j : Nat) e, j < 16 → f.dspill = 0 → f.div.length ≤ 16 → f.div.reverse[j]? = some e → recN r (0x640 + 32 * j) 32 = ofBytes e.bytes)
    ∧ (∀ (j : Nat) e, j < 16 → f.rspill = 0 → f.ret.length ≤ 16 → f.ret.reverse[j]? = some e → recN r (0x840 + 16 * j) 16 = ofBytes e.bytes)
    ∧ (∀ i < 64, recN r (0xB40 + 4 * i) 4 = (cap.v0.getD i 0).toNat)
    ∧ (∀ (j : Nat) c, let all := s.me.occs.flatMap fun p => p.cmds
        (∀ d ∈ all, d.quad.length = 4) → j < 8 → all[j]? = some c →
          (∀ k < 4, recD r (0xC40 + 64 * j + 8 * k) = c.quad.getD k 0) ∧ recD r (0xC40 + 64 * j + 32) = c.route
          ∧ recN r (0xC40 + 64 * j + 40) 1 = c.op % 256 ∧ recN r (0xC40 + 64 * j + 41) 1 = 1 + 2 * c.error.toNat
          ∧ recN r (0xC40 + 64 * j + 48) 4 = c.i % 2 ^ 32 ∧ recN r (0xC40 + 64 * j + 52) 4 = c.j % 2 ^ 32
          ∧ recN r (0xC40 + 64 * j + 56) 8 = c.deliveries % 2 ^ 64)
    ∧ (∀ k < 16, let w := o.stream k
        (w.bound = false → recN r (0xE40 + 16 * k) 16 = 0)
        ∧ (w.bound = true → recN r (0xE40 + 16 * k + 8) 4 = (w.left + if w.tap then 0 else w.arrived.length) % 2 ^ 32
            ∧ recN r (0xE40 + 16 * k + 12) 4 = w.stride.toNat % 2 ^ 32
            ∧ recN r (0xE40 + 16 * k) 6 = (if w.tap then w.addr else w.addr - BitVec.ofNat 64 w.arrived.length * w.stride).toNat % 2 ^ 48
            ∧ (w.space < 8 → w.size < 8 → recN r (0xE40 + 16 * k + 6) 2 = w.space + 8 * w.size + 2 ^ 14 + w.tap.toNat * 2 ^ 15)))

/-- R138, R374, R379, R377, R378, R219: PARK faults with 0x03 at user level and waits for the X queue; it writes the control record, and
the group leaves its slot, in a wait that a watch ends, or pre-empted. Which bytes it writes where, and what the control record holds.
The model's own choices in it: log 26, 30, 53, 70. Completes: parkWait, parkPreempt, parkEnd. -/
def Obligations.ParkingWritesTheControlRecord : Prop :=
  parkingLeavesTheSlot ∧ parkingWritesTheRecord ∧ controlRecordHoldsTheGroup

/-! ## Barriers, watches and power tokens -/

/-- R127 to R129, R383: BAR arrives at a barrier of the team; the arrival with which as many groups have arrived as it counts, or, at
count 0, every group of the team that has not ended, completes the phase, flips its phase bit and lets every group that has arrived go
on; an earlier one waits until that has happened, and a count above the team's groups takes 0x0B. Completes: bar. -/
def Obligations.BarriersCompleteTheirPhase : Prop :=
  ∀ (s : State) (g : KG) (id : BitVec 4) (a : BitVec 6) (tm : Team), s.guard g = true →
    s.team? s.occ.team = some tm →
    let i := id.toNat
    let k := (s.getS a).toNat
    let b := tm.barrier i
    let b' : Barrier := { b with arrived := b.arrived ||| 1 <<< s.occ.group, expected := k, opened := true }
    let u := (s.drain.modTeam tm.uid fun t => t.setBarrier i b').mapOcc fun o => { o with barWait := some (i, b.phase, false) }
    let satisfied := if k = 0 then ∀ h ∈ u.groups, h.bottom.team = tm.uid → h.bottom.task = 0 → b'.arrived.getLsbD h.bottom.group = true
      else k ≤ ((List.range 32).filter fun j => b'.arrived.getLsbD j).length
    (s.barState i = none → s.occ.ngroup < k → exec (.bar g id a) s = s.drain.trappedAt .k 0x0B)
    ∧ (s.barState i = none → k ≤ s.occ.ngroup → b.opened = true → b.expected ≠ k →
        exec (.bar g id a) s = s.drain.trappedAt .k 0x0B)
    ∧ (s.barState i = none → k ≤ s.occ.ngroup → b.opened = false ∨ b.expected = k → satisfied →
        Runs (.bar g id a) s fun t =>
          (∃ tm', t.team? s.occ.team = some tm'
            ∧ tm'.barrier i = { arrived := 0, expected := 0, opened := false, phase := !b.phase })
          ∧ (∀ h ∈ s.others, ∀ ph d, h.occ.team = tm.uid → b.arrived.getLsbD h.occ.group = true → h.occ.barWait = some (i, ph, d) →
              ∃ h' ∈ t.others, h'.gid = h.gid ∧ h'.occ.barWait = some (i, ph, true) ∧ ∀ w, h'.occ.wait = some w → w.kind ≠ 1)
          ∧ t.occ.barWait = none ∧ s.SameRegs t ∧ t.mem = s.drain.mem ∧ s.Moved t .k 1)
    ∧ (s.barState i = none → k ≤ s.occ.ngroup → b.opened = false ∨ b.expected = k → ¬ satisfied →
        exec (.bar g id a) s = .next (u.beginWait 1 0 0 0))
    ∧ (s.barState i = some false → exec (.bar g id a) s = .next (s.drain.beginWait 1 0 0 0))
    ∧ (s.barState i = some true → Runs (.bar g id a) s fun t =>
        (s.drain.mapOcc fun o => { o with barWait := none }).ThenMoved t .k 1)

/-- R131 to R133: MWATCH arms a slot; MWAIT answers the mask of the named slots that have changed, or 0 once its time-out
has passed, and waits before that; when the time-out ends the wait, the slots are read once more. -/
def watchesWakeOnAChange : Prop :=
  ∀ (s : State) (g : KG) (ws : BitVec 2) (d a b : BitVec 6) (sp sc : BitVec 3) (wide : Bool) (which : BitVec 4),
    s.guard g = true →
    let u := s.drain
    let w : Watch := { armed := true, addr := s.getS a, expect := s.getS b, attrs := sp.toNat + 8 * sc.toNat + 64 * wide.toNat }
    let named := fun (m : Nat) => (List.range 4).filter fun j => if m = 0 then (s.occ.watch j).armed else m.testBit j
    let ns := named which.toNat
    let pc := s.pcOf .k
    let start := match s.occ.mwait with | some (p, st, _, _, _) => if p = pc then st else s.cyc | none => s.cyc
    let limit := (s.getS a).toNat
    let idle := u.mapOcc fun o => { o with mwait := none }
    let answers := fun (v : State) (x : DWord) (t : State) =>
      ∃ c : State, c = { v with dies := c.dies } ∧ v.CountsOnly c ∧ c.WroteS t .k 1 d x
    (∀ k, sp = 0 ∨ (s.getS a).toNat < 2 ^ 32 → s.keyOf sp.toNat 0 0 (s.getS a) (if wide then 8 else 4) .read {} = .ok k →
      Runs (.mwatch g ws a b sp sc wide) s fun t =>
        (s.mapOcc fun o => { o with watches := t.occ.watches }).ThenMoved t .k 2 ∧ t.occ.watch ws.toNat = w
        ∧ ∀ j, j ≠ ws.toNat → t.occ.watch j = s.occ.watch j)
    ∧ (sp ≠ 0 → 2 ^ 32 ≤ (s.getS a).toNat → exec (.mwatch g ws a b sp sc wide) s = s.trapped .k 7 0 (s.getS a))
    ∧ (ns = [] ∨ (∃ j ∈ ns, (s.occ.watch j).armed = false) → exec (.mwait g d a which) s = u.trappedAt .k 0x0B)
    ∧ (∀ c : Nat → Bool, ns ≠ [] → (∀ j ∈ ns, (s.occ.watch j).armed = true) →
        (∀ j ∈ ns, u.watchChanged (u.occ.watch j) = .ok (c j)) →
        (ns.any c = true → Runs (.mwait g d a which) s fun t =>
          answers idle (BitVec.ofNat 64 (((ns.filter c).map (2 ^ ·)).sum)) t)
        ∧ (ns.any c = false → limit ≠ 0 → limit ≤ s.cyc - start → Runs (.mwait g d a which) s (answers idle 0))
        ∧ (ns.any c = false → limit = 0 ∨ s.cyc - start < limit → ∃ obj, exec (.mwait g d a which) s = .next
            ((u.mapOcc fun o => { o with mwait := some (pc, start, d.toNat, limit, which.toNat) }).beginWait 9 obj 0 0)))
    ∧ (∀ st n m w, s.occ.mwait = some (pc, st, d.toNat, n, m) → s.occ.wait = some w → w.kind = 9 →
        (∀ c : Nat → Bool, n ≠ 0 → n ≤ s.cyc - st → s.occ.stepping = false →
          (∀ j ∈ named m, s.watchChanged (s.occ.watch j) = .ok (c j)) →
          Runs .mwaitTimeout s (answers (s.mapOcc fun o => { o with mwait := none })
            (BitVec.ofNat 64 ((((named m).filter c).map (2 ^ ·)).sum))))
        ∧ (n = 0 ∨ s.cyc - st < n → exec .mwaitTimeout s = .next s))
    ∧ (s.occ.mwait = none → exec .mwaitTimeout s = .next s)

/-- R139, R361: under %POWCOMPAT, LEAVE takes a token of the pool or waits, and LEAVR gives it back; without it both only
go on. -/
def powerTokensAreTakenAndGivenBack : Prop :=
  ∀ (s : State) (g : KG), s.guard g = true →
    let on := s.shared.powcompat % 2 = 1
    let with' := fun (n : Nat) (p : Bool) => { s with tokens := n }.mapOcc fun o => { o with power := p }
    (¬ on → (Runs (.leave g) s fun t => s.WroteNothing t .k 1) ∧ (Runs (.leavr g) s fun t => s.WroteNothing t .k 1))
    ∧ (on → s.occ.power = true → (Runs (.leave g) s fun t => s.WroteNothing t .k 1)
        ∧ (Runs (.leavr g) s fun t => (with' (s.tokens + 1) false).ThenMoved t .k 1))
    ∧ (on → s.occ.power = false → (Runs (.leavr g) s fun t => s.WroteNothing t .k 1)
        ∧ (s.tokens ≠ 0 → Runs (.leave g) s fun t => (with' (s.tokens - 1) true).ThenMoved t .k 1)
        ∧ (s.tokens = 0 → exec (.leave g) s = .next (s.beginWait 15 0 0 0)))

/-- R131 to R133, R139, R361: MWATCH arms a slot; MWAIT answers the mask of the named slots that have changed, or 0 once its
time-out has passed, and waits before that. Under %POWCOMPAT, LEAVE takes a token of the pool or waits, and LEAVR gives it back;
without it both only go on. Completes: mwatch, mwait, mwaitTimeout, leave, leavr. -/
def Obligations.WatchesAndPowerTokens : Prop :=
  watchesWakeOnAChange ∧ powerTokensAreTakenAndGivenBack

/-! ## The frame governor -/

/-- R294, R292: what a mark of value i and stamp τ does to the plan table p, read at its offsets, under a deadline and a guard time. -/
def marksFollowTheRule : Prop :=
  ∀ (p i tau deadline guard : Nat),
    let m := Plan.mark p i tau deadline guard
    let nplans := fieldAt p 2 1
    let cur := fieldAt p 3 1
    let pos := fieldAt p 4 1
    let flags := fieldAt p 5 1
    let last := fieldAt p 8 8
    let nominal := fun k => fieldAt p (64 + 8 * k) 4
    let ewma := fun k => fieldAt p (68 + 8 * k) 4
    let len := fun q => fieldAt p (576 + 128 * q) 1
    let entry := fun q e => fieldAt p (580 + 128 * q + 4 * e) 4
    let step := fun e => entry cur e % 64
    let drops := fun e => entry cur e / 2 ^ 24 % 2 = 1
    let entries := fun q => (List.range (len q)).map (entry q)
    let stray := flags / 4 % 2 = 0 ∨ nplans ≤ cur ∨ len cur ≤ pos ∨ step pos ≠ i
    let took := min ((tau + 2 ^ 64 - last) % 2 ^ 64) 0xFFFFFFFF
    let avg := if ewma i = 0 then took else (3 * ewma i + took + 2) / 4
    let left := (List.range (len cur)).filter fun e => pos + 1 ≤ e
    let predicted := tau + (left.map fun e => max (nominal (step e)) (if step e = i then avg else ewma (step e))).sum
    let late := (deadline : Int) - guard < predicted
    let firstDrop := fun j => j ∈ left ∧ drops j ∧ ∀ e ∈ left, e < j → ¬ drops e
    let lowest := fun j q => q < nplans ∧ entries q = (entries cur).eraseIdx j ∧ ∀ r < q, entries r ≠ (entries cur).eraseIdx j
    let idle := fun c f => if pos + 1 = len c then f &&& 0xFB else f
    (i = 0xFFFF → m = { cur := 0, pos := 0, flags := 4, ewma := none, changed := false })
    ∧ (i ≠ 0xFFFF → stray → m = { cur, pos, flags := flags ||| 2, ewma := none, changed := false })
    ∧ (i ≠ 0xFFFF → ¬ stray → ¬ late → m = { cur, pos := pos + 1, flags := idle cur flags, ewma := some (i, avg), changed := false })
    ∧ (∀ j q, i ≠ 0xFFFF → ¬ stray → late → firstDrop j → lowest j q →
        m = { cur := q, pos := pos + 1, flags := idle q flags, ewma := some (i, avg), changed := true })
    ∧ (i ≠ 0xFFFF → ¬ stray → late → (∀ j q, firstDrop j → ¬ lowest j q) →
        m = { cur, pos := pos + 1, flags := idle cur (flags ||| 1), ewma := some (i, avg), changed := false })

/-- R140, R141, R293: FGMARK queues a mark for the governor, FGPLAN reads the plan behind the marks of its own group, and the governor
applies one mark to the plan table. -/
def marksAreQueuedAndApplied : Prop :=
  ∀ (s : State) (g : KG) (a d : BitVec 6),
    let u := s.drain
    let x := (s.getS a).toNat
    (s.guard g = true → s.tile = false ∨ s.shared.fgbase = 0 →
      exec (.fgmark g a) s = s.trappedAt .k 0x0B ∧ exec (.fgplan g d) s = s.trappedAt .k 0x0B)
    ∧ (s.guard g = true → s.tile = true → s.shared.fgbase ≠ 0 → ∀ k, s.planKey s.die s.me.ctx s.shared.fgbase.toNat = some k →
        (x < 64 ∨ x = 0xFFFF → s.occ.cmds = [] → s.occ.xcmds = [] → u.lost k 2624 = none →
          Plan.ok (u.mem.getN k 2624) = true → Runs (.fgmark g a) s fun t => (u.modDie s.die fun d =>
            { d with marks := d.marks ++ [(s.me.gid, x, s.me.ctx, s.shared.fgbase.toNat)] }).ThenMoved t .k 1)
        ∧ (¬ (x < 64 ∨ x = 0xFFFF) → exec (.fgmark g a) s = s.trappedAt .k 0x0B)
        ∧ (let v := u.applyMarksOf s.die s.me.gid (s.dieAt s.die).marks.length
           let n := (v.dieAt s.die).changes
           ((∀ m ∈ (s.dieAt s.die).marks, m.1 ≠ s.me.gid) → v = u)
           ∧ (u.lost k 2624 = none → Runs (.fgplan g d) s fun t => (v.mapOcc fun o => { o with fgseen := n }).WroteS t .k 1 d
              (BitVec.ofNat 64 (v.mem.getN (k + 3) 1 % 16 + v.mem.getN (k + 5) 1 % 2 * 16
                + if n ≠ s.occ.fgseen then 32 else 0)))))
    ∧ (∀ die, (s.dieAt die).marks = [] → exec (.governorApplyMark die) s = .next s)
    ∧ (∀ die gid step ctx base rest k, (s.dieAt die).marks = (gid, step, ctx, base) :: rest → s.planKey die ctx base = some k →
        s.mem.wf = true →
        let m := Plan.mark (s.mem.getN k 2624) step s.tod (s.dieAt die).fgdl.toNat (s.dieAt die).fgguard.toNat
        Runs (.governorApplyMark die) s fun t => (t.dieAt die).marks = rest ∧ s.SameRegs t ∧ s.BytesSameOutside t k 2624
          ∧ t.mem.getN (k + 3) 1 = m.cur % 256 ∧ t.mem.getN (k + 4) 1 = m.pos % 256 ∧ t.mem.getN (k + 5) 1 = m.flags % 256
          ∧ t.mem.getN (k + 8) 8 = s.tod % 2 ^ 64
          ∧ (∀ i x, m.ewma = some (i, x) → t.mem.getN (k + 68 + 8 * i) 4 = x % 2 ^ 32)
          ∧ (∀ j, j < 3 ∨ (6 ≤ j ∧ j < 8) ∨ (16 ≤ j ∧ j < 2624) → (∀ i x, m.ewma = some (i, x) → j < 68 + 8 * i ∨ 72 + 8 * i ≤ j) →
              t.mem.get (k + j) = s.mem.get (k + j))
          ∧ (t.dieAt die).changes = ((s.dieAt die).changes + m.changed.toNat) % 2 ^ 16)

/-- R140, R141, R292 to R294: FGMARK queues a mark for the governor, FGPLAN reads the plan behind the marks of its own group, and
the governor applies one mark to the plan table, as the rule of R294 says. The model's own choices in it: log 39. Completes: fgmark,
governorApplyMark, fgplan. -/
def Obligations.GovernorMarksAndPlans : Prop :=
  marksFollowTheRule ∧ marksAreQueuedAndApplied

/-! ## Tasks, futures and locks -/

/-- R306: SPAWN checks the card, records its creator and its state, and makes a task without dependencies ready. Completes: spawn, for
every card that the device reaches. -/
def spawnMakesATask : Prop :=
  ∀ (s : State) (g : KG) (a : BitVec 6) (k : Nat), s.guard g = true →
    let x := (s.getS a).toNat
    let n := x % 2 ^ 32
    let va := BitVec.ofNat 64 (s.cardAddr s.me.ctx n)
    let u := s.drain
    let card := u.mem.getN k 128
    let ready := fieldAt card 0x1C 4 == 0
    (2 ^ 32 ≤ x ∨ n = 0 ∨ s.ctx.ncard ≤ n → exec (.spawn g a) s = s.trapped .k 0x0B (BitVec.ofNat 64 n) (s.pcOf .k))
    ∧ (x < 2 ^ 32 → n ≠ 0 → n < s.ctx.ncard → s.globalKey va .read {} = .ok k →
        s.checkRanges [s.range 0 0 va.toNat 128 true] = .ok () → s.checkLost va k 128 = .ok () →
        (s.cardOk n card = false → exec (.spawn g a) s = s.trapped .k 0x0B (BitVec.ofNat 64 n) (s.pcOf .k))
        ∧ (u.cardOk n card = true → fieldAt card 0 8 % 32 ≠ 0 →
            exec (.spawn g a) s = s.trapped .k 4 0 (BitVec.ofNat 64 (fieldAt card 0 8)))
        ∧ (u.cardOk n card = true → fieldAt card 0 8 % 32 = 0 → s.mem.wf = true →
            u.Reaches s.me.ctx (s.cardAddr s.me.ctx n) 128 k →
            Runs (.spawn g a) s fun t => s.SameRegs t ∧ s.Moved t .k 1
              ∧ t.mem.getN (k + 0x3C) 4 = s.occ.task % 2 ^ 32 ∧ t.mem.getN (k + 0x14) 1 = (if ready then 2 else 1)
              ∧ (∀ j, j ≠ k + 0x14 → (j < k + 0x3C ∨ k + 0x40 ≤ j) → Memory.get t.mem j = Memory.get u.mem j)
              ∧ (∃ i ∈ t.tasks, i.ctx = s.me.ctx ∧ i.task = n ∧ i.inherited = ((s.taskInfo? s.me.ctx n).map (·.inherited)).getD 0)
              ∧ (∃ d c, t.ready = s.ready ++ if ready then
                  [{ die := d, cluster := c, ctx := s.me.ctx, task := n, stamp := (s.dieAt d).cyc, core := s.me.place.core,
                     passed := false, slot := none }] else [])))

/-- R307, R311: FSET sets a future that is not yet set; AWAIT takes the value of one that is, and waits for one that has no
owner. -/
def futuresAreSetOnce : Prop :=
  ∀ (s : State) (g : KG) (d a b : BitVec 6) (q : BitVec 3) (k : Nat), s.guard g = true →
    let u := s.drain
    let e := s.endWait
    let v := e.drain
    (s.objectKey .k (s.getS a) = .ok k →
      (u.mem.getN (k + 14) 1 ≠ 0 → exec (.fset g a b) s = s.trappedAt .k 0x0B)
      ∧ (u.mem.getN (k + 14) 1 = 0 → s.mem.wf = true → Runs (.fset g a b) s fun t =>
          (∃ c, u.Counted c k 16 16 ∧ ((c.poke k (toBytes 8 (s.getS b).toNat)).poke (k + 14) [1]).ThenMoved t .k 1)
          ∧ t.mem.getN k 8 = (s.getS b).toNat ∧ t.mem.getN (k + 14) 1 = 1 ∧ u.BytesSameOutside t k 16
          ∧ (∀ j, k + 8 ≤ j → j ≠ k + 14 → Memory.get t.mem j = Memory.get u.mem j) ∧ s.SameRegs t))
    ∧ (e.objectKey .k (s.getS a) = .ok k →
      let st := v.mem.getN (k + 14) 1
      let owner := v.mem.getN (k + 8) 4
      (st = 1 ∨ st = 2 → Runs (.await g d a q) s fun t =>
        ∃ c, v.Counted c k 16 0 ∧ ((c.setS d (BitVec.ofNat 64 (v.mem.getN k 8))).setQ q (st == 1)).ThenMoved t .k 1)
      ∧ (2 < st → exec (.await g d a q) s = e.trappedAt .k 0x0B)
      ∧ (st = 0 → s.ctx.ncard ≤ owner → exec (.await g d a q) s = e.trappedAt .k 0x0B)
      ∧ (st = 0 → 0 < s.ctx.ncard → owner = 0 → exec (.await g d a q) s = .next (s.waitOn 4 (s.getS a) 0)))

/-- R302, R312, R313: LOCKA takes a free lock for the holder code of the occupant, LOCKA.TRY says in a q-register whether
it did, and LOCKR gives a lock back that the occupant holds. -/
def locksNameTheirHolder : Prop :=
  ∀ (s : State) (g : KG) (a : BitVec 6) (q : BitVec 3) (k : Nat), s.guard g = true →
    let u := s.drain
    let e := s.endWait
    let v := e.drain
    let h := if s.occ.task ≠ 0 then s.occ.task
      else 2 ^ 31 + s.die * 2 ^ 29 + Config.coreIndex s.me.place.core * 2 ^ 21 + s.me.place.slot * 2 ^ 14
    let holder := v.mem.getN k 4
    let taken := fun (c : State) => c.poke k (toBytes 4 h)
    (e.objectKey .k (s.getS a) = .ok k →
      (holder = 0 → (Runs (.locka g a) s fun t => (∃ c, v.Counted c k 16 16 ∧ (taken c).ThenMoved t .k 1) ∧ s.SameRegs t)
        ∧ (Runs (.lockaTry g q a) s fun t => ∃ c, v.Counted c k 16 16 ∧ (taken c).WroteQ t .k 1 q true))
      ∧ (holder ≠ 0 → holder = h →
          exec (.locka g a) s = e.trapped .k 0x0B (BitVec.ofNat 64 h) (s.pcOf .k)
          ∧ exec (.lockaTry g q a) s = e.trapped .k 0x0B (BitVec.ofNat 64 h) (s.pcOf .k))
      ∧ (2 ^ 31 ≤ holder → holder ≠ h → (Runs (.lockaTry g q a) s fun t => ∃ c, v.Counted c k 16 0 ∧ c.WroteQ t .k 1 q false)
          ∧ exec (.locka g a) s = .next (s.waitOn 5 (s.getS a) holder)))
    ∧ (s.objectKey .k (s.getS a) = .ok k →
      (u.mem.getN k 4 = h → s.mem.wf = true → Runs (.lockr g a) s fun t =>
        (∃ c, u.Counted c k 16 16 ∧ (c.poke k (toBytes 4 0)).ThenMoved t .k 1) ∧ t.mem.getN k 4 = 0 ∧ u.BytesSameOutside t k 4 ∧ s.SameRegs t)
      ∧ (u.mem.getN k 4 ≠ h → exec (.lockr g a) s = s.trappedAt .k 0x0B))

/-- R307, R311, R302, R312, R313: FSET sets a future that is not yet set; AWAIT takes the value of one that is, and waits for one
that has no owner. LOCKA takes a free lock for the holder code of the occupant, LOCKA.TRY says in a q-register whether it did, and
LOCKR gives a lock back that the occupant holds. The model's own choices in it: log 41, 54, 79. Completes: await, fset, locka,
lockaTry, lockr. -/
def Obligations.FuturesAndLocks : Prop :=
  futuresAreSetOnce ∧ locksNameTheirHolder

/-- R306, R296: what SPAWN asks of a card. -/
def cardsAreChecked : Prop :=
  ∀ (s : State) (n card : Nat),
    let succ := fun i => fieldAt card (0x20 + 4 * i) 4
    s.cardOk n card = true ↔
      fieldAt card 0x10 4 = n ∧ fieldAt card 0x14 1 = 0 ∧ fieldAt card 0x15 1 ≤ 2 ∧ fieldAt card 0x16 1 ≤ 7
      ∧ fieldAt card 0x17 1 < 8 ∧ 8 ≤ fieldAt card 0x18 2 ∧ fieldAt card 0x18 2 ≤ 128 ∧ fieldAt card 0x18 2 % 8 = 0
      ∧ fieldAt card 0x1A 2 % 16 = 0
      ∧ fieldAt card 0x1A 2 ≤ Config.lanePrivBytes (decide (fieldAt card 0x17 1 / 2 % 2 = 1))
      ∧ fieldAt card 0x50 16 = 0 ∧ (∀ i < 4, succ i ≠ 0 → succ i ≠ n ∧ succ i < s.ctx.ncard) ∧ fieldAt card 0x38 4 ≤ 65535
      ∧ fieldAt card 0x40 8 ≠ 0 ∧ fieldAt card 0x40 8 % 64 = 0 ∧ (fieldAt card 0x38 4 ≠ 0 → fieldAt card 0x30 8 % 8 = 0)

/-- R316, R302: what the end of a task does to its owned futures, in list order: one whose STATE is 0 holds the fault word and STATE 2,
and at EXIT its ORPHAN bit; one that is set is as before; an entry that cannot be acted on is passed over with an event of kind 7, and so
is a list that cannot be read. -/
def ownedFuturesAreFaulted : Prop :=
  ∀ (s : State) (card list task cause n i : Nat) (a : DWord),
    let passed := fun (d : Nat) => s.logEvent s.me.ctx { s.eventOf 7 with task, addr := list + 8 * i, detail := d }
    (∀ k, s.objectKey? a = some k → s.lost k 16 = none → s.mem.getN (k + 14) 1 = 0 → s.mem.wf = true →
      ∃ t, s.faultFuture a task cause = some t ∧ t.mem.getN k 8 = (task + cause * 2 ^ 32) % 2 ^ 64 ∧ t.mem.getN (k + 14) 1 = 2
        ∧ t.mem.getN (k + 15) 1 = (if cause = 0 then s.mem.getN (k + 15) 1 / 2 * 2 + 1 else s.mem.getN (k + 15) 1)
        ∧ (∀ j, j < k ∨ (k + 8 ≤ j ∧ j < k + 14) ∨ k + 16 ≤ j → t.mem.get j = s.mem.get j) ∧ t.me = s.me)
    ∧ (∀ k, s.objectKey? a = some k → s.lost k 16 = none → s.mem.getN (k + 14) 1 = 1 ∨ s.mem.getN (k + 14) 1 = 2 →
        s.faultFuture a task cause = some s)
    ∧ (s.objectKey? a = none → s.faultFuture a task cause = none)
    ∧ (∀ k, s.objectKey? a = some k → s.lost k 16 ≠ none ∨ 2 < s.mem.getN (k + 14) 1 → s.faultFuture a task cause = none)
    ∧ s.faultEntries list task cause 0 i = s
    ∧ (∀ e t, s.devRead s.me.ctx (list + 8 * i) 8 = some e → s.faultFuture (BitVec.ofNat 64 e) task cause = some t →
        s.faultEntries list task cause (n + 1) i = t.faultEntries list task cause n (i + 1))
    ∧ ((∀ e, s.devRead s.me.ctx (list + 8 * i) 8 = some e → s.faultFuture (BitVec.ofNat 64 e) task cause = none) →
        s.faultEntries list task cause (n + 1) i = (passed i).faultEntries list task cause n (i + 1))
    ∧ (let first := fieldAt card 0x30 8
       let count := fieldAt card 0x38 4
       let readable := fun j => s.devRead s.me.ctx (first + 8 * j) 8 ≠ none
       (count = 0 → s.faultFutures card task cause = s)
       ∧ ((∃ j < count, readable j) → s.faultFutures card task cause = s.faultEntries first task cause count 0)
       ∧ (count ≠ 0 → (∀ j < count, ¬ readable j) → s.faultFutures card task cause
            = s.logEvent s.me.ctx { s.eventOf 7 with task, addr := first, detail := 0xFFFFFFFF }))

/-- R298, R318: a dependency decrement lowers DEPS by one; at 0 a task that waits on dependencies becomes ready, once; a decrement of a
counter that is 0, of an id beyond the arena, or of a card in a reserved state changes nothing and is an underflow. The successors come
in order, each nonzero one, and the first underflow is what the task is charged with. -/
def dependenciesCountDown : Prop :=
  ∀ (s : State) (n k card fuel p : Nat) (charged : Option (Nat × Nat)),
    let c := s.mem.getN k 128
    let deps := fieldAt c 0x1C 4
    let state := fieldAt c 0x14 1
    let wakes := state = 1 ∧ deps = 1
    let succ := fieldAt card (0x20 + 4 * p) 4
    (s.ctx.ncard ≤ n → s.decrement n = some (s, true))
    ∧ (n < s.ctx.ncard → s.Reaches s.me.ctx (s.cardAddr s.me.ctx n) 128 k → s.lost k 128 = none → s.mem.wf = true →
        (deps = 0 ∨ 7 ≤ state → s.decrement n = some (s, true))
        ∧ (deps ≠ 0 → state < 7 → ∃ t, s.decrement n = some (t, false) ∧ t.mem.getN (k + 0x1C) 4 = deps - 1
            ∧ t.mem.getN (k + 0x14) 1 = (if wakes then 2 else state) ∧ t.me = s.me
            ∧ (∀ j, j ≠ k + 0x14 → (j < k + 0x1C ∨ k + 0x20 ≤ j) → t.mem.get j = s.mem.get j)
            ∧ (¬ wakes → t.ready = s.ready)
            ∧ (wakes → ∃ d q, t.ready = s.ready ++
                [{ die := d, cluster := q, ctx := s.me.ctx, task := n, stamp := (s.dieAt d).cyc, core := s.me.place.core,
                   passed := false, slot := none }])))
    ∧ s.decrements card 0 p charged = some (s, charged)
    ∧ (succ = 0 → s.decrements card (fuel + 1) p charged = s.decrements card fuel (p + 1) charged)
    ∧ (∀ t, succ ≠ 0 → s.decrement succ = some (t, false) →
        s.decrements card (fuel + 1) p charged = t.decrements card fuel (p + 1) charged)
    ∧ (∀ t, succ ≠ 0 → s.decrement succ = some (t, true) →
        s.decrements card (fuel + 1) p charged = t.decrements card fuel (p + 1) (charged.orElse fun _ => some (succ, p)))

/-- R317, R283, R361: what an occupant releases at its end: its pending stores take effect, its streams, commands, window, order token,
append rights and power token go, and a DDA that it owns is free with every domain stopped. -/
def endingReleasesWhatIsHeld : Prop :=
  ∀ (s : State) (abort : Bool),
    let t := s.releaseOcc abort
    t.occ.stores = [] ∧ t.occ.streams = [] ∧ t.occ.cmds = [] ∧ t.occ.xcmds = [] ∧ t.occ.awb = 0 ∧ t.occ.awl = 0
    ∧ t.occ.token = none ∧ t.occ.rights = [] ∧ t.occ.power = false ∧ t.occ.wait = none ∧ t.occ.parked = none
    ∧ t.tokens = s.tokens + (if s.occ.power then 1 else 0)
    ∧ (s.ownsDda = true → t.core.dda.owner = none ∧ ∀ d ∈ t.core.dda.doms, d.mode = 0)
    ∧ (s.ownsDda = false → t.core.dda = s.core.dda)
    ∧ t.me.under = s.me.under ∧ t.occ.task = s.occ.task ∧ t.occ.regs = s.occ.regs ∧ t.occ.pcs = s.occ.pcs
    ∧ (∀ a i k, s.occ.token = some (a, i) → s.keyOf (packedSpace a) 0 0 (packedOff a) 4 .write {} = .ok k →
        s.releaseToken abort = ((s.poke k (toBytes 4 (i + 1))).mapOcc fun o => { o with token := none }).logEvent s.me.ctx
          { s.eventOf 1 with flags := abort.toNat, addr := a.toNat, detail := i })

/-- R315, R317, R318: YIELD gives its slot up only when an item that waits could run there; EXIT waits for the occupant's
commands, releases what it holds and leaves the slot; a task's EXIT faults its owned futures, ends its card and
decrements its successors. -/
def yieldAndExitGiveUpTheSlot : Prop :=
  ∀ (s : State) (g : KG), s.guard g = true →
    let r := s.releaseOcc false
    let at' := s.cardAddr s.me.ctx s.occ.task
    (s.occ.task = 0 ∨ s.me.under ≠ [] ∨ s.yields = false → Runs (.yield g) s fun t => s.WroteNothing t .k 1)
    ∧ (s.occ.task ≠ 0 → s.me.under = [] → s.yields = true → s.occ.trapLevel = false →
        exec (.yield g) s = .next ((s.advance .k 1).trap { code := 0x1F, eng := .k, info := 1 <<< 62, addr := 0, pc := some (s.pcOf .k) } (s.pcOf .k + 4)))
    ∧ (s.occ.cmds ≠ [] ∨ s.occ.xcmds ≠ [] → exec (.exit g) s = .next (s.beginWait 25 0 0 0))
    ∧ (s.occ.cmds = [] → s.occ.xcmds = [] → s.occ.task = 0 → s.me.under = [] →
        exec (.exit g) s = .next r.leaveSlot ∧ r.leaveSlot.me = Group.vacant)
    ∧ (∀ k, s.occ.cmds = [] → s.occ.xcmds = [] → s.occ.task ≠ 0 → r.Reaches s.me.ctx at' 128 k → r.mem.wf = true → r.lost k 128 = none →
        fieldAt (r.mem.getN k 128) 0x38 4 = 0 → (∀ i < 4, fieldAt (r.mem.getN k 128) (0x20 + 4 * i) 4 = 0) →
        Runs (.exit g) s fun t => t.mem.getN (k + 0x14) 1 = 5 ∧ (∀ j, j ≠ k + 0x14 → Memory.get t.mem j = Memory.get r.mem j)
          ∧ (s.me.under = [] → t.me = Group.vacant)
          ∧ (∀ p rest, s.me.under = p :: rest → t.me.under = rest ∧ t.occ.task = p.task ∧ t.occ.regs = p.regs ∧ t.occ.pcs = p.pcs))
    ∧ (∀ card s1 s2, s.occ.cmds = [] → s.occ.xcmds = [] → s.occ.task ≠ 0 → r.card? s.me.ctx s.occ.task = some card →
        (r.faultFutures card s.occ.task 0).setCard s.me.ctx s.occ.task 0x14 1 5 = some s1 →
        (s1.decrements card 4 0 none = some (s2, none) → exec (.exit g) s = .next s2.forgetTask.leaveSlot)
        ∧ (∀ n p s3 s4, s1.decrements card 4 0 none = some (s2, some (n, p)) →
            s2.setCard s2.me.ctx s2.occ.task 0x48 8 (faultRecord 0x0C 0 0 (s2.pcOf .k)) = some s3 →
            s3.setCard s2.me.ctx s2.occ.task 0x14 1 6 = some s4 →
            exec (.exit g) s = .next ((s4.mapOcc fun o => { o with exited := true }).trap
              { code := 0x0C, eng := .k, info := BitVec.ofNat 64 (n + p * 2 ^ 32 + (if s4.ctx.ncard ≤ n then 2 ^ 34 else 0)),
                addr := s2.pcOf .k } (s2.pcOf .k))))

/-- R306, R296, R298, R315 to R318: SPAWN checks the card, records its creator and its state, and makes a task without dependencies ready.
YIELD gives its slot up only when an item that waits could run there; EXIT waits for the occupant's commands, releases what it
holds and leaves the slot; a task's EXIT faults its owned futures, ends its card and decrements its successors; a counter that is
0 already is cause 0x0C. What is asked of a card, what becomes of an owned future and of a successor, and what an occupant releases.
The model's own choices in it: log 17, 54, 57. Completes: spawn, yield, exit. -/
def Obligations.TasksSpawnYieldAndExit : Prop :=
  spawnMakesATask ∧ cardsAreChecked ∧ ownedFuturesAreFaulted ∧ dependenciesCountDown ∧ endingReleasesWhatIsHeld ∧ yieldAndExitGiveUpTheSlot

/-! ## Launches, counters and register credit -/

/-- R319 to R322, R448: LAUNCH checks the record, gives it the next launch identifier, adds its teams to its counter and
queues it; CJOIN goes on once the counter is zero. -/
def launchesCountTheirTeams : Prop :=
  ∀ (s : State) (g : KG) (a : BitVec 6) (k : Nat), s.guard g = true →
    let addr := s.getS a
    let u := s.drain
    let id := (u.ctxAt s.me.ctx).nextLaunch
    (addr.toNat % 64 ≠ 0 → exec (.launch g a) s = s.trapped .k 4 0 addr)
    ∧ (addr.toNat % 8 ≠ 0 → exec (.cjoin g a) s = s.trapped .k 4 0 addr)
    ∧ (∀ r c, addr.toNat % 64 = 0 → s.globalKey addr .read {} = .ok k → s.checkRanges [s.range 0 0 addr.toNat 64 false] = .ok () →
        s.checkLost addr k 64 = .ok () → u.checkRecord s.me.ctx (fun r => [servingDie s.die r]) (u.mem.getN k 64) = .ok (r, c) →
        (u.pendingOf s.me.place.core).length < 4 → u.spilledOf s.me.place.core = [] →
        Runs (.launch g a) s fun t => s.SameRegs t ∧ s.Moved t .k 1
          ∧ (∃ l, t.launches = s.launches ++ [l] ∧ l.id = id ∧ l.record = r ∧ l.stage = .pending ∧ l.core = s.me.place.core
              ∧ l.ctx = s.me.ctx ∧ l.dies = [servingDie s.die r])
          ∧ (t.ctxAt s.me.ctx).nextLaunch = (if id + 1 = 0 then 1 else id + 1)
          ∧ (c = none → u.BytesSame t)
          ∧ (∀ j, c = some j → s.mem.wf = true → t.mem.getN j 8 = (u.mem.getN j 8 + r.tx * r.ty * r.tz) % 2 ^ 64 ∧ u.BytesSameOutside t j 8))
    ∧ (addr.toNat % 8 = 0 → s.globalKey addr .read {} = .ok k → s.checkRanges [s.range 0 0 addr.toNat 8 false] = .ok () →
        s.checkLost addr k 8 = .ok () →
        (u.mem.getN k 8 = 0 → Runs (.cjoin g a) s fun t => ∃ c, u.Counted c k 8 0 ∧ c.WroteNothing t .k 1)
        ∧ (u.mem.getN k 8 ≠ 0 → exec (.cjoin g a) s = .next (s.beginWait 6 (packObject 0 0 addr) 0 0)))

/-- R321, R349, R350, R432: a controller takes the first pending launch of a core, or a spilled entry of its die's list
once the core has none pending; the doorbell writes WRPTR; an empty host list is left alone, and a record that stands in it is
accepted, or rejected with its cause in STATUS and its index in REJIDX. -/
def controllersTakeLaunchesInOrder : Prop :=
  ∀ (s : State) (core ctx die : Nat) (w : BitVec 64),
    (s.pendingOf core = [] → exec (.pendingLaunchDrain core) s = .next s)
    ∧ (∀ l ls, s.pendingOf core = l :: ls → Runs (.pendingLaunchDrain core) s fun t =>
        t = s.modLaunch l.uid fun l => { l with stage := .held })
    ∧ (s.takeable ctx die = none → exec (.dieListTake ctx die) s = .next s)
    ∧ (∀ l pos, s.takeable ctx die = some (l, pos) →
        let entry := (s.ctxAt ctx).dieList die + 128 * (pos % 4096) + 0x4A
        (s.pendingOf l.core = [] ∧ l.stage = .spilled die pos ∧ l.ctx = ctx)
        ∧ (∀ k, s.devKey ctx entry .write = some k → exec (.dieListTake ctx die) s =
            .next ((s.modLaunch l.uid fun l => { l with stage := .held }).poke k [2]))
        ∧ (s.devKey ctx entry .write = none → exec (.dieListTake ctx die) s = .next s))
    ∧ (∀ k, s.Reaches ctx (s.ctxAt ctx).hlist 8 k → s.mem.wf = true → Runs (.hostLaunchDoorbell ctx w) s fun t =>
        t.mem.getN k 8 = w.toNat ∧ s.BytesSameOutside t k 8 ∧ t.launches = s.launches ∧ ∀ d, hbmDie k = some d →
          (t.dieAt d).hbmwr = ((s.dieAt d).hbmwr + 8) % 2 ^ 64)
    ∧ (∀ k, s.Reaches ctx (s.ctxAt ctx).hlist 64 k → s.lost k 64 = none → s.mem.wf = true → (s.ctxAt ctx).state = 1 →
        let wrptr := s.mem.getN k 8
        let rdptr := s.mem.getN (k + 8) 8
        let cap := s.mem.getN (k + 0x10) 4
        let status := s.mem.getN (k + 0x14) 4
        let dies := fun (r : LaunchRec) => if r.tile then [2, 3] else [0, 1]
        let checked := (s.hostRecord ctx ((s.ctxAt ctx).hlist + 64 + 64 * (rdptr % cap))).bind (s.checkRecord ctx dies)
        status / 2 % 2 = 0 → wrptr ≠ rdptr → (wrptr + 2 ^ 64 - rdptr) % 2 ^ 64 ≤ cap →
        (∀ r, checked = .ok (r, none) → Runs (.hostRecordConsume ctx) s fun t =>
          (∃ l, t.launches = s.launches ++ [l] ∧ l.ctx = ctx ∧ l.record = r ∧ l.stage = .held ∧ l.dies = dies r
            ∧ l.id = (s.ctxAt ctx).nextLaunch)
          ∧ t.mem.getN (k + 8) 8 = (rdptr + 1) % 2 ^ 64 ∧ s.BytesSameOutside t (k + 8) 8)
        ∧ (∀ code info addr, code < 2 ^ 24 → checked = .error (.trap code info addr) → Runs (.hostRecordConsume ctx) s fun t =>
          t.launches = s.launches ∧ t.mem.getN (k + 8) 8 = (rdptr + 1) % 2 ^ 64 ∧ t.mem.getN (k + 0x18) 8 = rdptr
          ∧ t.mem.getN (k + 0x14) 4 = status % 256 / 2 * 2 + 1 + code * 256 ∧ s.BytesSameOutside t (k + 8) 24))
    ∧ ((s.ctxAt ctx).state ≠ 1 → exec (.hostRecordConsume ctx) s = .next s)
    ∧ (∀ r c st, s.devRead ctx (s.ctxAt ctx).hlist 8 = some r → s.devRead ctx ((s.ctxAt ctx).hlist + 8) 8 = some r →
        s.devRead ctx ((s.ctxAt ctx).hlist + 0x10) 4 = some c → s.devRead ctx ((s.ctxAt ctx).hlist + 0x14) 4 = some st →
        exec (.hostRecordConsume ctx) s = .next s)

/-- R319 to R322, R448, R321, R349, R350, R432: LAUNCH checks the record, gives it the next launch identifier, adds its teams to
its counter and queues it; CJOIN goes on once the counter is zero. A controller takes the first pending launch of a core, or a
spilled entry of its die's list once the core has none pending; the doorbell writes WRPTR; an empty host list is left alone, and a
record that stands in it is accepted or rejected. The model's own choices in it: log 17, 22. Completes: launch, cjoin,
pendingLaunchDrain, dieListTake, hostLaunchDoorbell, hostRecordConsume. -/
def Obligations.LaunchesReachTheirControllers : Prop :=
  launchesCountTheirTeams ∧ controllersTakeLaunchesInOrder

/-- R323 to R325, R427, R428: VGIVE gives the top registers to the credit of the team and VCLAIM takes registers back, which read zero, at
the head of the team's order; a claim that is not at the head, or finds too little credit, waits, and takes 0x0E where every other group
of the team waits for registers or for a barrier that is not complete; both fault with 0x0B outside their range, in a helper and on a
core pair. Completes: vgive, vclaim. -/
def Obligations.RegisterCreditMovesWithinTheTeam : Prop :=
  ∀ (s : State) (g : KG) (imm : BitVec 16) (tm : Team), s.guard g = true → s.team? s.occ.team = some tm →
    let n := imm.toNat
    let o := s.occ
    let order := if tm.claims.contains o.group then tm.claims else tm.claims ++ [o.group]
    let queued := s.modTeam o.team fun t => { t with claims := order }
    let stuck := ∀ h ∈ s.groups, h.bottom.team = tm.uid → h.bottom.task = 0 → h.gid ≠ s.me.gid → ∃ w, h.waiting = some w
      ∧ (w.kind = 7 ∨ (w.kind = 1 ∧ ∀ i ph done, h.occ.barWait = some (i, ph, done) → done = false))
    (n % 4 ≠ 0 ∨ n < 4 ∨ o.count < n + 8 ∨ s.me.under ≠ [] ∨ 2 ≤ tm.cores.length → exec (.vgive g imm) s = s.trappedAt .k 0x0B)
    ∧ (n % 4 = 0 → 4 ≤ n → n + 8 ≤ o.count → s.me.under = [] → tm.cores.length < 2 → Runs (.vgive g imm) s fun t =>
        t.occ.count = o.count - n ∧ (∃ tm', t.team? o.team = some tm' ∧ tm'.credit = tm.credit + n * o.width)
        ∧ (∀ r i, r < o.count - n → t.occ.getV r i = s.occ.getV r i) ∧ s.SameS t ∧ s.SameP t ∧ s.SameQ t ∧ s.BytesSame t
        ∧ s.Moved t .k 1)
    ∧ (n % 4 ≠ 0 ∨ n < 4 ∨ 128 < n + o.count ∨ s.me.under ≠ [] ∨ 2 ≤ tm.cores.length → exec (.vclaim g imm) s = s.trappedAt .k 0x0B)
    ∧ (n % 4 = 0 → 4 ≤ n → n + o.count ≤ 128 → s.me.under = [] → tm.cores.length < 2 →
        (order.head? = some o.group → n * o.width ≤ tm.credit → Runs (.vclaim g imm) s fun t =>
          t.occ.count = o.count + n
          ∧ (∃ tm', t.team? o.team = some tm' ∧ tm'.credit = tm.credit - n * o.width ∧ tm'.claims = order.drop 1)
          ∧ (∀ r i, t.occ.getV r i = if r < o.count then s.occ.getV r i else 0) ∧ s.SameS t ∧ s.SameP t ∧ s.SameQ t ∧ s.BytesSame t
          ∧ s.Moved t .k 1)
        ∧ (order.head? ≠ some o.group ∨ (tm.credit < n * o.width ∧ ¬ stuck) → exec (.vclaim g imm) s = .next (queued.beginWait 7 0 0 n))
        ∧ (order.head? = some o.group → tm.credit < n * o.width → stuck → s.me.run = .running → o.trapLevel = false →
            Runs (.vclaim g imm) s fun t => t.occ.trapLevel = true ∧ t.occ.tcause = BitVec.ofNat 64 (0x0E + 1024)
              ∧ t.occ.tinfo = BitVec.ofNat 64 (n + tm.credit * 2 ^ 16) ∧ t.occ.taddr = s.pcOf .k ∧ t.occ.count = o.count))

/-! ## Loads and stores -/

/-- The PEER core and the address of lane l of an access with an address operand (R56): a v-register or pair, or an
s-register plus a v-register, plus an offset. -/
def address56 (f : VF) (sp : Nat) (off : DWord) (s : State) (l : Nat) : Nat × DWord :=
  let v : DWord := (s.occ.getV f.a.toNat l).setWidth 64
  let b := s.occ.getS (f.b.toNat % 64)
  if f.b.toNat < 64 then
    (0, if sp = 0 then (s.occ.getV (f.a.toNat + 1) l ++ s.occ.getV f.a.toNat l : BitVec 64) + off else v + off)
  else if sp = 5 then ((b.extractLsb' 0 16).toNat, v + off)
  else (0, b + v + off)

/-- The address of LDL and STL (R174): one offset in the slice of every lane. -/
def addressInSlice (f : VF) (x : MX) (s : State) (_ : Nat) : Nat × DWord :=
  (0, ((s.occ.getS f.a.toNat).setWidth 32).setWidth 64 + x.imm.signExtend 64)

/-- R172, R173: the checks of an access of n bytes to a space, in their order, and the key of the bytes it reaches: misalignment is
0x04; what leaves the extent of a scratchpad is 0x07; a PEER core that is not there, or bytes outside the allocations of the context,
are 0x06. A GLOBAL address is translated. -/
def accessesAreChecked : Prop :=
  ∀ (s : State) (space core lane : Nat) (addr : DWord) (n : Nat) (acc : Access) (i : MemInfo), 0 < n →
    let info : MemInfo := { i with lane, write := acc.writes }
    let a := addr.toNat
    let r := s.keyOf space core lane addr n acc i
    let fails := fun (code : Nat) => r = .error (.trap code info.bits addr)
    let solo := s.occ.task ≠ 0 ∨ s.team? s.occ.team = none
    (a % n ≠ 0 → fails 4)
    ∧ (a % n = 0 → space = 0 → r = s.globalKey addr acc info)
    ∧ (a % n = 0 → space = 1 →
        (solo → fails 7)
        ∧ (∀ t c cs, s.occ.task = 0 → s.team? s.occ.team = some t → t.cores = c :: cs →
          (a + n ≤ t.unitSize → r = .ok (unitKey c (t.unitBase + a)))
          ∧ (∀ d ds, cs = d :: ds → t.unitSize ≤ a → a + n ≤ 2 * t.unitSize → r = .ok (unitKey d (t.unitBase + a - t.unitSize)))
          ∧ (t.unitSize < a + n → a < t.unitSize ∨ cs = [] ∨ 2 * t.unitSize < a + n → fails 7)))
    ∧ (a % n = 0 → space = 2 →
        (solo → fails 7)
        ∧ (∀ t l, s.occ.task = 0 → s.team? s.occ.team = some t → s.launch? t.launch = some l →
          (l.bound = none → fails 7)
          ∧ (∀ d c b, l.bound = some (d, c, b) → (l.record.clusScr < a + n → fails 7)
              ∧ (a + n ≤ l.record.clusScr → r = .ok (clusKey d c (b + a))))))
    ∧ (a % n = 0 → space = 3 → let w := s.ctx.dieWin s.die
        (w.2 < a + n → fails 7) ∧ (a + n ≤ w.2 → r = .ok (dieKey s.die (w.1 + a))))
    ∧ (a % n = 0 → space = 4 →
        (s.occ.lanePriv < a + n → fails 7) ∧ (a + n ≤ s.occ.lanePriv → r = .ok (laneKey s.occ.lanePrivBase lane a)))
    ∧ (a % n = 0 → space = 5 → let size := if s.tile then 2 ^ 20 else 2 ^ 18
        (size < a + n → fails 7)
        ∧ (a + n ≤ size → Config.coresOf s.die ≤ core ∨ s.allocated s.me.ctx (Config.coreKey s.die core) a n = false → fails 6)
        ∧ (a + n ≤ size → core < Config.coresOf s.die → s.allocated s.me.ctx (Config.coreKey s.die core) a n = true →
            r = .ok (unitKey (Config.coreKey s.die core) a)))

/-- R392 to R396, R412, R417: a GLOBAL address that is not canonical, or whose walk meets an entry that is not valid or is bad, is a
page fault; a missing right, or a physical address with no memory behind it, is an access violation; a page that is retired, or a
package that is lost, is 0x1C. A walk indexes one table a level, and a block or page entry ends it. -/
def globalAddressesAreTranslated : Prop :=
  ∀ (s : State),
    let wrong := fun (code level : Nat) (bad : Bool) => ({ code, level, bad } : Walk)
    (∀ (ctx : Nat) (va : DWord) (acc : Access),
      let a := va.toNat
      let v := a % 2 ^ 48
      let canonical := a / 2 ^ 48 = if va.getLsbD 47 then 0xFFFF else 0
      let right := fun (e : Nat) => match acc with
        | .read => e.testBit 2 = true | .write => e.testBit 3 = true
        | .both => e.testBit 2 = true ∧ e.testBit 3 = true | .fetch => e.testBit 4 = true
      (¬ canonical → s.translate ctx va acc = .error (wrong 5 0 false))
      ∧ (∀ w, canonical → s.leaf ctx v = .error w → s.translate ctx va acc = .error w)
      ∧ (∀ e shift, canonical → s.leaf ctx v = .ok (e, shift) →
        (¬ right e → s.translate ctx va acc = .error (wrong 6 ((39 - shift) / 9) false))
        ∧ (right e → s.translate ctx va acc = s.physical ((39 - shift) / 9) (e / 2 ^ 6 % 4) (e / 2 ^ 52 % 2 ^ 6)
            (e / 2 ^ 12 % 2 ^ 40 * 4096 / 2 ^ shift * 2 ^ shift + v % 2 ^ shift)))
      ∧ (∀ i, (∀ k, s.translate s.me.ctx va acc = .ok k → s.globalKey va acc i = .ok k)
        ∧ (∀ w, s.translate s.me.ctx va acc = .error w → w.code ≠ 0x1C →
            s.globalKey va acc i = .error (.trap w.code ({ i with level := w.level, bad := w.bad } : MemInfo).bits va))
        ∧ (∀ w, s.translate s.me.ctx va acc = .error w → w.code = 0x1C →
            s.globalKey va acc i = .error (.trap 0x1C (s.lostInfo w.key i.async) va))))
    ∧ (∀ ctx v, let kept := fun (k : Kept) => k.ctx = ctx ∧ k.page = v / 2 ^ k.shift
        ((∀ k ∈ s.tlb, ¬ kept k) → s.leaf ctx v = s.walkFrom v 4 0 0 0 (s.ctxAt ctx).ptroot)
        ∧ (∀ p k q, s.tlb = p ++ k :: q → (∀ j ∈ p, ¬ kept j) → kept k → s.leaf ctx v = .ok (k.entry.toNat, k.shift)))
    ∧ (∀ v fuel level loc pkg table, let slot := table + 8 * (v / 2 ^ (39 - 9 * level) % 512)
        let walk := s.walkFrom v (fuel + 1) level loc pkg table
        (∀ w, s.physical level loc pkg slot = .error w → walk = .error w)
        ∧ (∀ k, s.physical level loc pkg slot = .ok k →
          let e := s.mem.getN k 8
          let at' := e / 2 ^ 6 % 4
          let table' := e.testBit 1 = true
          let bad := e / 2 ^ 8 % 16 ≠ 0 ∨ e / 2 ^ 58 % 64 ≠ 0 ∨ at' = 3 ∨ (at' ≠ 2 ∧ e / 2 ^ 52 % 64 ≠ 0)
            ∨ (level ≠ 3 ∧ e.testBit 5 = true) ∨ (level = 0 ∧ ¬ table') ∨ (level = 3 ∧ ¬ table')
            ∨ (level = 1 ∧ ¬ table' ∧ e / 2 ^ 12 % 2 ^ 18 ≠ 0) ∨ (level = 2 ∧ ¬ table' ∧ e / 2 ^ 12 % 2 ^ 9 ≠ 0)
          (e % 2 = 0 → walk = .error (wrong 5 level false))
          ∧ (e % 2 = 1 → bad → walk = .error (wrong 5 level true))
          ∧ (e % 2 = 1 → ¬ bad → level < 3 → table' →
              walk = s.walkFrom v fuel (level + 1) at' (e / 2 ^ 52 % 64) (e / 2 ^ 12 % 2 ^ 40 * 4096))
          ∧ (e % 2 = 1 → ¬ bad → 3 ≤ level ∨ ¬ table' → walk = .ok (e, 39 - 9 * level))))
    ∧ (∀ level pkg pa, let here := pa < 2 ^ 39 ∧ pa % 2 ^ 37 < 96 * 2 ^ 30
        let gone := ∃ r ∈ (s.dieAt (pa / 2 ^ 37)).retired, r.1 ≤ pa / 4096 ∧ pa / 4096 < r.1 + r.2
        (¬ here → s.physical level 0 pkg pa = .error (wrong 6 level false))
        ∧ (here → ¬ gone → s.physical level 0 pkg pa = .ok pa)
        ∧ (here → gone → s.physical level 0 pkg pa = .error { code := 0x1C, level, bad := false, key := pa })
        ∧ s.physical level 1 pkg pa = .ok (hostKey pa)
        ∧ (s.packageLost pkg = true → ∃ w, s.physical level 2 pkg pa = .error w ∧ w.code = 0x1C ∧ w.level = level))
    ∧ (∀ i : MemInfo, i.lane < 64 → i.k < 8 → i.level < 4 → i.tag < 2 ^ 16 → i.index < 2 ^ 32 →
        let b := i.bits.toNat
        b % 2 ^ 6 = i.lane ∧ b / 2 ^ 6 % 2 ^ 3 = i.k ∧ b.testBit 9 = i.write ∧ b.testBit 10 = i.fetch ∧ b.testBit 11 = i.atomic
        ∧ b / 2 ^ 12 % 2 ^ 2 = i.level ∧ b.testBit 14 = i.async ∧ b.testBit 15 = i.bad ∧ b / 2 ^ 16 % 2 ^ 16 = i.tag
        ∧ b / 2 ^ 32 = i.index)

/-- R56, R172 to R175, R392 to R396: LD, LDS and LDL read the bytes that their addresses reach; how an access is checked, and how a
GLOBAL address is translated. The model's own choices in it: log 8, 24. Completes: ld, ld64, lds, ldl. -/
def Obligations.LoadsReadTheirBytes : Prop :=
  accessesAreChecked ∧ globalAddressesAreTranslated
  ∧ ∀ (f : VF) (x : MX),
    let at64 := address56 f x.sp.toNat (x.imm.signExtend 64)
    LaneLoads (.ld f) f none 0 (address56 f 0 0)
    ∧ LaneLoads (.ld64 f x) f (some x) x.sp.toNat at64
    ∧ LaneLoads (.lds f x) f (some x) x.sp.toNat at64
    ∧ LaneLoads (.ldl f x) f (some x) 4 (addressInSlice f x)

/-- R172, R174 to R176, R336, R342: ST, STL and STS; a pending store takes effect on memory in an order that keeps the writes of
each byte. The model's own choices in it: log 8, 11. Completes: st, st64, sts, stl, accessTakesEffect. -/
def Obligations.StoresTakeEffectLater : Prop :=
  (∀ (f : VF) (x : MX),
    let at64 := address56 f x.sp.toNat (x.imm.signExtend 64)
    LaneStores (.st f) f none true 0 (address56 f 0 0)
    ∧ LaneStores (.st64 f x) f (some x) true x.sp.toNat at64
    ∧ LaneStores (.sts f x) f (some x) false x.sp.toNat at64
    ∧ LaneStores (.stl f x) f (some x) true 4 (addressInSlice f x))
  ∧ (∀ (s : State) (n : Nat), s.me.run ≠ .vacant →
      (s.occ.stores.length ≤ n → exec (.accessTakesEffect s.me.gid n) s = .next s)
      ∧ (∀ p c q, s.occ.stores = p ++ c :: q → p.length = n →
          ((∃ d ∈ p, c.key < d.key + d.bytes.length ∧ d.key < c.key + c.bytes.length) →
              exec (.accessTakesEffect s.me.gid n) s = .next s)
          ∧ ((∀ d ∈ p, ¬ (c.key < d.key + d.bytes.length ∧ d.key < c.key + c.bytes.length)) →
              Runs (.accessTakesEffect s.me.gid n) s fun t =>
                let u := (s.poke c.key c.bytes).mapOcc fun o => { o with stores := p ++ q }
                t = { u with torn := t.torn } ∧ t.mem = s.mem.setBytes c.key c.bytes
                ∧ (s.mem.wf = true → ∀ j, t.peek j = s.peek j)
                ∧ ((∃ d ∈ p ++ q, d.cmd = c.cmd ∧ d.key / 32 = c.key / 32) →
                    t.lineBytes (c.key / 32 * 32) = s.lineBytes (c.key / 32 * 32)))))

/-- R434: an access of n bytes adds n to the read or the write counter of the die whose HBM it lies in, and to nothing else. -/
def accessesAreCounted : Prop :=
  ∀ (s : State) (k n : Nat), n ≠ 0 → s.Counted (s.countRead k n) k n 0 ∧ s.Counted (s.countWrite k n) k 0 n

/-- R174, R180, R336: LDU, STU and FENCE act once for the group, when their guard enables a lane. -/
def uniformAccesses : Prop :=
  ∀ (f : VF) (x : MX) (s : State),
    let addr := fun (x : MX) =>
      let base := s.occ.getS f.a.toNat
      (if x.sp = 0 then base else (base.setWidth 32).setWidth 64) + x.imm.signExtend 64
    let core := fun (x : MX) => if x.sp = 5 then ((s.occ.getS f.b.toNat).extractLsb' 0 16).toNat else 0
    let loads := fun (i : Instr) (xo : Option MX) =>
      let x := mFields xo
      let n := 2 ^ x.sz.toNat
      s.CountOk i → s.lanes .m f ≠ [] → ∀ k, x.sz.toNat ≤ 3 →
        s.keyOf x.sp.toNat (core x) 0 (addr x) n .read {} = .ok k →
        s.checkRanges [s.range x.sp.toNat (core x) (addr x).toNat n false] = .ok () →
        let u := s.settleLoads [(k, n)]
        u.checkLost (addr x) k n = .ok () →
        ((∀ c ∈ s.occ.stores, c.1 + c.2.length ≤ k ∨ k + n ≤ c.1) → u = s)
        ∧ Runs i s fun t => (u.countRead k n).WroteS t .m (mWords xo) (f.d.setWidth 6)
          (if x.c.getLsbD 1 then (BitVec.ofNat (8 * n) (u.mem.getN k n)).signExtend 64 else BitVec.ofNat 64 (u.mem.getN k n))
    let stores := fun (i : Instr) (xo : Option MX) =>
      let x := mFields xo
      let n := 2 ^ x.sz.toNat
      let req : Req := (0, 0, core x, addr x)
      s.CountOk i → s.lanes .m f ≠ [] → ∀ key, x.sz.toNat ≤ 3 → s.Allowed x.sp.toNat n .write [req] key →
        Runs i s fun t => s.OnlyStored t ∧ s.SameRegs t ∧ s.Moved t .m (mWords xo)
          ∧ (s.mem.wf = true → s.StoredBy t n [req] key (fun _ => (s.occ.getS f.d.toNat).toNat))
          ∧ (x.c.getLsbD 0 = false → s.BytesSame t) ∧ (x.c.getLsbD 0 = true → t.occ.stores = [])
    let idle := fun (i : Instr) (w : Nat) => s.CountOk i → s.lanes .m f = [] → Runs i s fun t => s.WroteNothing t .m w
    let fence := fun (i : Instr) (xo : Option MX) =>
      let x := mFields xo
      s.CountOk i → s.lanes .m f ≠ [] →
        (x.sc ≠ 0 → x.c.toNat % 4 ≠ 1 → Runs i s fun t => s.drain.WroteNothing t .m (mWords xo) ∧ t.occ.stores = []
          ∧ (s.mem.wf = true → ∀ k, Memory.get t.mem k = s.peek k))
        ∧ (x.sc = 0 ∨ x.c.toNat % 4 = 1 → Runs i s fun t => s.WroteNothing t .m (mWords xo))
    (f.d.toNat < 64 → loads (.ldu f) none ∧ loads (.ldu64 f x) (some x))
    ∧ stores (.stu f) none ∧ stores (.stu64 f x) (some x)
    ∧ fence (.fence f) none ∧ fence (.fence64 f x) (some x)
    ∧ idle (.ldu f) 1 ∧ idle (.ldu64 f x) 2 ∧ idle (.stu f) 1 ∧ idle (.stu64 f x) 2 ∧ idle (.fence f) 1 ∧ idle (.fence64 f x) 2

/-- R35: the groups that the scope of an access contains: its own, those of its team, its cluster, its die, and every one. -/
def scopesContainGroups : Prop :=
  ∀ (s : State) (sc : Nat) (g : Group),
    let own := g.gid = s.me.gid
    s.inScope sc g = true ↔
      match sc with
      | 0 => own
      | 1 => own ∨ g.occ.team = s.occ.team
      | 2 => Config.coreDie g.place.core = s.die ∧ Config.clusterOf g.place.core = Config.clusterOf s.me.place.core
      | 3 => Config.coreDie g.place.core = s.die
      | _ => True

/-- R35, R174, R180, R336, R434: LDU, STU and FENCE act once for the group, when their guard enables a lane; a FENCE that orders earlier
stores, at a scope beyond GROUP, lets every pending one take effect. What an access counts, and which groups a scope contains. The model's
own choices in it: log 8, 45, 59, 65. Completes: ldu, ldu64, stu, stu64, fence, fence64. -/
def Obligations.UniformAccessesActOnce : Prop :=
  uniformAccesses ∧ accessesAreCounted ∧ scopesContainGroups

/-- f(old, C) of R177 on n bits. -/
def atomTable (aop n old c : Nat) : Nat :=
  let o := BitVec.ofNat n old
  let k := BitVec.ofNat n c
  let F := if n = 64 then f64 else f32
  match aop with
  | 0 => c
  | 1 => (o + k).toNat
  | 2 => (o &&& k).toNat
  | 3 => (o ||| k).toNat
  | 4 => (o ^^^ k).toNat
  | 5 => if o.toInt ≤ k.toInt then old else c
  | 6 => if o.toInt ≤ k.toInt then c else old
  | 7 => if old ≤ c then old else c
  | 8 => if old ≤ c then c else old
  | 9 => if c ≤ old then 0 else old + 1
  | 10 => if old = 0 ∨ c < old then c else old - 1
  | 11 => (F.round 0 (addNum 0 (F.decode old) (F.decode c))).code
  | 12 => F.pick false old c
  | _ => F.pick true old c

/-- Memory after indivisible read-modify-writes of n bytes in one order: `new` answers what an access writes over what it
reads, if anything. -/
def serially (n : Nat) (key : Req → Nat) (new : Nat → Nat → Option Nat) : List Req → Memory → Memory
  | [], m => m
  | r :: rs, m => serially n key new rs (match new r.1 (m.getN (key r) n) with
    | some x => m.setN (key r) n x
    | none => m)

/-- R177 to R179: ATOM and CAS act in one serial order of the enabled lanes, and each lane's v[d] takes the old value that this
order gives. The model's own choices in it: log 12, 65. Completes: atom, cas. -/
def Obligations.AtomicsActInOneOrder : Prop :=
  ∀ (f : VF) (x : MX) (s : State),
    let sz := x.sz.toNat
    let n := 2 ^ sz
    let off : DWord := (x.imm.extractLsb' 0 12).signExtend 64
    let reqs : List Req := (s.lanes .m f).map fun l => (l, 0, address56 f x.sp.toNat off s l)
    let reg := fun (r l : Nat) => s.occ.getData sz r l
    let c := x.c.toNat
    let acts := fun (i : Instr) (new : Nat → Nat → Option Nat) =>
      s.CountOk i → FirstFaultDecides i s x.sp.toNat n .both reqs
        ∧ ∀ key, s.Allowed x.sp.toNat n .both reqs key → s.drain.NoneLost n reqs key →
          (s.lanes .m f = [] → Runs i s fun t => s.WroteNothing t .m 2)
          ∧ (s.lanes .m f ≠ [] → Runs i s fun t => ∃ order old, List.Perm order reqs
              ∧ t.mem = serially n key new order s.drain.mem
              ∧ (∀ p r q, order = p ++ r :: q → old r.1 = (serially n key new p s.drain.mem).getN (key r) n)
              ∧ s.WroteV t (s.lanes .m f) (decide (sz = 3)) f.d.toNat old
              ∧ (∃ u, s.OnlyStored u ∧ u.OnlyLoaded t) ∧ t.occ.stores = [] ∧ s.Moved t .m 2)
    (sz = 2 ∨ sz = 3 → acts (.atom f x) (fun l old => some (atomTable (x.imm.toNat / 4096) (8 * n) old (reg c l))))
    ∧ (sz = 2 ∨ sz = 3 → acts (.cas f x) (fun l old =>
        if old = reg c l then some (reg (c + if sz = 3 then 2 else 1) l) else none))

/-- R206: GATH loads and SCAT stores count elements in each enabled lane, element k at s[b] + v[a + k] × 2^sz + off16. The model's
own choices in it: log 8, 24. Completes: gath, scat. -/
def Obligations.GatherAndScatterMoveElements : Prop :=
  ∀ (f : VF) (x : MX) (s : State),
    let sz := x.sz.toNat
    let n := 2 ^ sz
    let base := s.occ.getS (f.b.toNat % 64)
    let b : DWord := if x.sp = 0 then base else (base.setWidth 32).setWidth 64
    let count := x.c.toNat
    let per := if sz = 3 then 2 else 1
    let req := fun (l k : Nat) => (l, k, 0, b + (s.occ.getV (f.a.toNat + k) l).setWidth 64 * BitVec.ofNat 64 n + x.imm.signExtend 64)
    let reqs : List Req := (s.lanes .m f).flatMap fun l => (List.range count).map (req l)
    (s.CountOk (.gath f x) → FirstFaultDecides (.gath f x) s x.sp.toNat n .read reqs
      ∧ ∀ key, s.Allowed x.sp.toNat n .read reqs key → (s.readFrom n reqs key).NoneLost n reqs key → sz ≤ 3 →
        let u := s.readFrom n reqs key
        (s.NonePending n reqs key → u = s)
        ∧ Runs (.gath f x) s fun t => u.OnlyLoaded t ∧ s.Moved t .m 2
          ∧ s.WroteRange t (s.lanes .m f) f.d.toNat (per * count)
              (fun l k => u.mem.getN (key (req l (k / per))) n / 2 ^ (32 * (k % per))))
    ∧ (s.CountOk (.scat f x) → FirstFaultDecides (.scat f x) s x.sp.toNat n .write reqs
      ∧ ∀ key, s.Allowed x.sp.toNat n .write reqs key → sz ≤ 3 →
        Runs (.scat f x) s fun t => s.OnlyStored t ∧ s.SameRegs t ∧ s.BytesSame t ∧ s.Moved t .m 2
          ∧ s.StoredBy t n reqs key (fun r => s.occ.getData sz (f.d.toNat + per * r.2.1) r.1))

/-! ## Memory commands -/

/-- R184, R189 to R193, R198: TMOV, TMCAST and CSEND check their descriptor and are accepted among at most eight commands of the slot,
behind every earlier store of the group; a move of no elements completes at once. The model's own choices in it: log 25, 45, 46, 73. Completes:
tmov, tmov64, tmcast, csend. -/
def Obligations.MemoryCommandsAreAccepted : Prop :=
  ∀ (f : VF) (x : MX) (s : State), s.lanes .m f ≠ [] →
    let q := [s.occ.getS f.d.toNat, s.occ.getS (f.d.toNat + 1), s.occ.getS (f.d.toNat + 2), s.occ.getS (f.d.toNat + 3)]
    let d := Move.ofQuad q
    let h := s.occ.getS f.a.toNat
    let u := { s.drain with uid := s.uid + 1 }
    let src := s.spanOfSide d.ssp d.speer d.srcSpan false
    let accepted := fun (u : State) (t : State) (w op : Nat) (rs : List Range) (sem : Option DWord) (route : DWord) =>
      ∃ c : MemCmd, (u.mapOcc fun o => { o with cmds := o.cmds ++ [c] }).ThenMoved t .m w ∧ s.SameRegs t
        ∧ c.uid = s.uid ∧ c.op = op ∧ c.quad = q ∧ c.i = 0 ∧ c.deliveries = 0 ∧ c.halted = false ∧ c.ranges = rs
        ∧ c.sem = sem ∧ c.route = route ∧ c.addr = s.pcOf .m
    let room := (s.me.occs.flatMap fun o => o.cmds).length < 8
    let tmov := fun (i : Instr) (xo : Option MX) =>
      let x := mFields xo
      let w := mWords xo
      let at' := (if x.sp = 0 then h else (h.setWidth 32).setWidth 64) + x.imm.signExtend 64
      let sem := if f.a = 0 then none else some at'
      let rs := src ++ s.spanOfSide d.dsp d.dpeer d.dstSpan true
        ++ if f.a = 0 then [] else [s.range x.sp.toNat 0 at'.toNat 8 true]
      s.CountOk i →
        (∀ code info addr, s.checkMove d = .error (.trap code info addr) → exec i s = s.trapped .m code info addr)
        ∧ (s.checkMove d = .ok () →
            (∀ code info addr, s.checkExtents d true = .error (.trap code info addr) → exec i s = s.trapped .m code info addr)
            ∧ (s.checkExtents d true = .ok () →
                f.a = 0 ∨ (∃ k, s.keyOf x.sp.toNat 0 0 at' 8 .both { atomic := true } = .ok k) →
                (¬ room → exec i s = .next (s.beginWait 22 0 0 0))
                ∧ (room → s.checkRanges rs = .ok () → (∀ w ∈ s.occ.streams, w.bound = false) →
                    (d.rows ≠ 0 → d.cols ≠ 0 → Runs i s fun t => accepted u t w 0x0B rs sem h)
                    ∧ (d.rows = 0 ∨ d.cols = 0 → f.a = 0 → (∀ c ∈ s.occ.cmds, c.uid ≠ s.uid) →
                        Runs i s fun t => u.ThenMoved t .m w ∧ s.SameRegs t))))
    tmov (.tmov f) none ∧ tmov (.tmov64 f x) (some x)
    ∧ (s.CountOk (.tmcast f x) →
        let route := s.occ.getS f.b.toNat
        let off := fun t => (s.coreAt (Config.coreKey s.die t)).disabled
        let walk := routeOf off (Config.coreIndex s.me.place.core) route
        let sem := (h.setWidth 32).setWidth 64
        let fits := d.mode = 0 ∧ d.dsp = 5 ∧ d.dpeer = 0
        (s.tile = false → exec (.tmcast f x) s = s.trappedAt .m 0x0B)
        ∧ (s.tile = true → s.checkMove d = .ok () → s.checkExtents d false = .ok () →
            (∀ n, walk = .bad n → exec (.tmcast f x) s = s.trapped .m 0x1A (BitVec.ofNat 64 n) (s.pcOf .m))
            ∧ (∀ n, walk = .noDelivery n → exec (.tmcast f x) s = s.trapped .m 0x1A (BitVec.ofNat 64 (n + 32)) (s.pcOf .m))
            ∧ (∀ ts, walk = .tiles ts → (∀ t ∈ ts, s.peerOk 5 t d.dstSpan = true) →
                f.a = 0 ∨ (∀ t ∈ ts, s.peerOk 5 t (sem.toNat, sem.toNat + 8) = true) →
                (¬ fits → exec (.tmcast f x) s = s.trappedAt .m 0x0B)
                ∧ (fits → f.a = 0 ∨ sem.toNat % 8 = 0 →
                    (s.dieAt s.die).routesAwaited = false → room → s.checkRanges src = .ok () →
                    Config.coreIndex s.me.place.core ∉ ts ∨ (∀ w ∈ s.occ.streams, w.bound = false) →
                    Runs (.tmcast f x) s fun t =>
                      accepted { u with freeSeq := s.freeSeq + ts.length } t 2 0x0C src (if f.a = 0 then none else some sem) route))))
    ∧ (s.CountOk (.csend f) → s.checkMove d = .ok () → s.checkExtents d false = .ok () →
        let sent := modifyFirst (fun r => r.handle == h && r.cmd == none) (fun r => { r with cmd := some s.uid }) s.felts
        let fits := d.mode = 0 ∧ (d.ssp = 1 ∨ d.ssp = 2 ∨ d.ssp = 3) ∧ s.occ.getS (f.d.toNat + 1) = 0
        (¬ fits ∨ h ∉ s.occ.felts → exec (.csend f) s = s.trappedAt .m 0x12)
        ∧ (∀ r, fits → h ∈ s.occ.felts → s.felts.find? (fun r => r.handle == h && r.cmd == none) = some r →
            (d.dstSpan.2 > (feltSize (s.coreAt r.ring).felt : Int) → exec (.csend f) s = s.trappedAt .m 0x12)
            ∧ (0 ≤ d.dstSpan.1 → d.dstSpan.2 ≤ (feltSize (s.coreAt r.ring).felt : Int) →
                (s.dieAt (Config.coreDie r.ring)).routesAwaited = false → room → s.checkRanges src = .ok () →
                Runs (.csend f) s fun t => t.occ.felts = s.occ.felts.erase h
                  ∧ accepted ({ u with felts := sent }.mapOcc fun o => { o with felts := o.felts.erase h }) t 1 0x14 src none h)))

/-- R185, R190 to R192, R288, R397: a running copy reads and writes its next element; one that meets a fault halts there, and the
group is to trap; a command whose elements have landed signals and is complete. The model's own choices in it: log 48, 49.
Completes: moveProgress, memoryCommandComplete, tmcastDelivery, csendLanded. -/
def Obligations.MovesGoElementByElement : Prop :=
  ∀ (s : State) (uid : Nat) (c : MemCmd), s.occ.cmds.find? (·.uid == uid) = some c →
    let gid := s.me.gid
    let d := c.move
    let r := c.i / d.cols
    let k := c.i % d.cols
    let n := 2 ^ d.esz
    let sa := d.sa + BitVec.ofNat 64 r * d.sstride + BitVec.ofNat 64 (k * n)
    let da := d.da + BitVec.ofNat 64 r * d.dstride + BitVec.ofNat 64 (k * n)
    let i := c.info false
    let command := fun (t : State) => t.occ.cmds.find? (·.uid == uid)
    (c.halted = true → exec (.moveProgress gid uid) s = .next s ∧ exec (.memoryCommandComplete gid uid) s = .next s
      ∧ exec (.tmcastDelivery gid uid) s = .next s)
    ∧ (c.halted = false → c.op = 0x0B → d.mode = 0 → d.esz < 4 → c.i < d.rows * d.cols →
        (∀ ks kd, s.cmdKey d.ssp d.speer sa n .read i = .ok ks →
          (s.countRead ks n).cmdKey d.dsp d.dpeer da n .write { i with write := true } = .ok kd →
          Runs (.moveProgress gid uid) s fun t => t.mem = s.mem.setN kd n (s.mem.getN ks n) ∧ s.SameRegs t
            ∧ command t = some { c with i := c.i + 1 })
        ∧ (∀ code info addr, s.cmdKey d.ssp d.speer sa n .read i = .error (.trap code info addr) → s.occ.trapLevel = false →
          Runs (.moveProgress gid uid) s fun t => t.mem = s.mem ∧ s.SameRegs t
            ∧ command t = some { c with halted := true }
            ∧ t.occ.causes = s.occ.causes ++ [{ code, eng := .m, info, addr, cmd := c.uid, pc := some c.addr }]))
    ∧ (c.halted = false → c.op = 0x0B → d.rows * d.cols ≤ c.i → d.mode ≠ 3 → c.sem = none →
        Runs (.memoryCommandComplete gid uid) s fun t => t.mem = s.mem ∧ s.SameRegs t
          ∧ t.occ.cmds = s.occ.cmds.filter (·.uid != uid) ∧ t.occ.cmdErrs = s.occ.cmdErrs)
    ∧ (∀ a ks, c.halted = false → c.op = 0x0B → d.rows * d.cols ≤ c.i → d.mode ≠ 3 → c.sem = some a →
        s.cmdKey c.space 0 a 8 .both { c.info true with write := true } = .ok ks → s.mem.getN ks 4 < 0xFFFFFFFF →
        Runs (.memoryCommandComplete gid uid) s fun t => t.mem = s.mem.setN ks 4 (s.mem.getN ks 4 + 1) ∧ s.SameRegs t
          ∧ t.occ.cmds = s.occ.cmds.filter (·.uid != uid))
    ∧ (∀ tile a ks, c.halted = false → c.op = 0x0C → c.i = d.rows * d.cols → nextTile s c = some tile → c.sem = some a →
        s.cmdKey 5 tile a 8 .both { c.info true with write := true } = .ok ks → s.mem.getN ks 4 < 0xFFFFFFFF →
        Runs (.tmcastDelivery gid uid) s fun t => ks = unitKey (Config.coreKey s.die tile) a.toNat
          ∧ t.mem = s.mem.setN ks 4 (s.mem.getN ks 4 + 1) ∧ s.SameRegs t
          ∧ command t = some { c with i := 0, deliveries := c.deliveries + 1 })
    ∧ (∀ r, c.halted = false → c.op = 0x14 → s.felts.find? (fun r => r.cmd == some uid) = some r → c.i = d.count →
        (s.bridges.getD r.bridge (Channel.up 8)).failed = false → (s.bridges.getD r.bridge (Channel.up 8)).retraining = false →
        let felt := (s.coreAt r.ring).felt
        let hdr := unitKey r.ring (feltHdr felt)
        let full := s.mem.getN (hdr + 8) 4
        r.slot < feltCount felt → feltCount felt ≤ 16 → r.bridge ∉ (s.coreAt r.ring).stale →
        s.mem.getN (hdr + 18) 1 = r.slot → s.mem.getN (hdr + 20) 2 = 0 →
        full < 0xFFFFFFFF → s.mem.wf = true →
        Runs (.csendLanded gid uid) s fun t => t.mem.getN (hdr + 8) 4 = full + 1
          ∧ t.mem.getN (hdr + 18) 1 = (r.slot + 1) % feltCount felt ∧ t.mem.getN (hdr + 20) 2 = 0
          ∧ s.BytesSameOutside t (hdr + 8) 14)

/-- R194, R195: TWAIT waits until no selected command is incomplete, reports an error and clears its record; TSTAT waits for nothing
and clears nothing. Completes: twait, tstat. -/
def Obligations.CommandCompletionIsObserved : Prop :=
  ∀ (f : VF) (s : State), s.lanes .m f ≠ [] → f.d.toNat < 64 →
    let sel := s.occ.getS f.a.toNat
    let chosen := fun (tag : Nat) => sel.getLsbD 16 || tag == sel.toNat % 2 ^ 16
    let err := s.occ.cmdErrs.any chosen
    let n := s.occ.cmds.countP fun c => chosen c.tag
    (s.CountOk (.twait f) →
      (2 ^ 17 ≤ sel.toNat → exec (.twait f) s = s.trappedAt .m 0x0B)
      ∧ (sel.toNat < 2 ^ 17 → n ≠ 0 → exec (.twait f) s = .next (s.beginWait 13 0 0 0))
      ∧ (sel.toNat < 2 ^ 17 → n = 0 → Runs (.twait f) s fun t =>
          (s.mapOcc fun o => { o with cmdErrs := o.cmdErrs.filter fun t => !chosen t }).WroteS t .m 1 (f.d.setWidth 6)
            (if err then 1 else 0)))
    ∧ (s.CountOk (.tstat f) →
      (2 ^ 17 ≤ sel.toNat → exec (.tstat f) s = s.trappedAt .m 0x0B)
      ∧ (sel.toNat < 2 ^ 17 → Runs (.tstat f) s fun t =>
          s.WroteS t .m 1 (f.d.setWidth 6) (BitVec.ofNat 64 (n + if err then 2 ^ 63 else 0))))

/-! ## Streams, semaphores and felt slots -/

/-- R199 to R202, R345: SBIND binds a free stream register to memory or to a tap, the device fetches its elements in order, each
with the value it has at the SBIND where it can be read then, and SFREE unbinds it and discards what has arrived. The model's own
choices in it: log 23, 38, 47. Completes: sbind, sbind64, streamFetch, sfree. -/
def Obligations.StreamsBindFetchAndFree : Prop :=
  ∀ (f : VF) (x : MX) (s : State),
    let j := f.d.toNat % 16
    let w0 := s.occ.getS f.a.toNat
    let w1 := s.occ.getS (f.a.toNat + 1)
    let count := w1.toNat % 2 ^ 32
    let stride : DWord := (w1.extractLsb' 32 32).signExtend 64
    let sbind := fun (i : Instr) (xo : Option MX) =>
      let x := mFields xo
      let n := 2 ^ x.sz.toNat
      let addr : DWord := if x.sp = 0 then (w0.extractLsb' 0 48).signExtend 64 else (w0.extractLsb' 0 48).setWidth 64
      let w : Stream := { bound := true, tap := false, addr, space := x.sp.toNat, size := x.sz.toNat, left := count, stride := stride,
                          arrived := [], index := 0, halted := false }
      let bind := fun (u : State) (t : State) (w : Stream) =>
        (u.mapOcc fun o => { o with streams := t.occ.streams }).ThenMoved t .m (mWords xo)
          ∧ t.occ.stream j = w ∧ ∀ k, k ≠ j → t.occ.stream k = s.occ.stream k
      s.CountOk i → s.lanes .m f ≠ [] →
        ((s.occ.stream j).bound = true → exec i s = s.trappedAt .m 0x0B)
        ∧ ((s.occ.stream j).bound = false → w0.extractLsb' 48 15 = 0 → w0.getLsbD 63 = false →
            (count = 0 → exec i s = s.trappedAt .m 0x0B)
            ∧ (count ≠ 0 → addr.toNat % n ≠ 0 → exec i s = s.trapped .m 4 0 addr)
            ∧ (count ≠ 0 → addr.toNat % n = 0 → count = 1 ∨ stride.toNat % n = 0 →
                x.sp = 0 ∨ (∀ k < count, 0 ≤ (addr.toNat : Int) + stride.toInt * k
                  ∧ (addr.toNat : Int) + stride.toInt * k + n ≤ s.extentOf x.sp.toNat) →
                s.checkRanges (hull (s.streamRanges w)) = .ok () → Runs i s fun t =>
                  bind { s.drain with uid := s.uid + 1 } t { w with fixed := (t.occ.stream j).fixed, uid := s.uid }
                  ∧ ∀ k < count, ∀ key, s.drain.cmdKey x.sp.toNat 0 (addr + BitVec.ofNat 64 k * stride) n .read {} = .ok key →
                      (t.occ.stream j).fixed[k]? = some (some (BitVec.ofNat 32 (s.drain.mem.getN key n)))))
        ∧ ((s.occ.stream j).bound = false → w0.extractLsb' 48 15 = 0 → w0.getLsbD 63 = true → x.sp = 0 → x.sz = 2 →
            w0.toNat % 2 ^ 48 < 16 → w1 = 0 →
            (s.ownsDda = false → exec i s = s.trappedAt .m 0x11)
            ∧ (s.ownsDda = true → Runs i s fun t =>
                bind s t { w with tap := true, addr := w0 &&& 15, space := 0, size := 2, left := 0, stride := 0 }))
    sbind (.sbind f) none ∧ sbind (.sbind64 f x) (some x)
    ∧ (s.CountOk (.sfree f) → s.lanes .m f ≠ [] →
        (s.portBound j = true → exec (.sfree f) s = s.trappedAt .m 0x0B)
        ∧ (s.portBound j = false → (s.occ.stream j).tap = false → Runs (.sfree f) s fun t =>
            (s.mapOcc fun o => { o with streams := t.occ.streams }).ThenMoved t .m 1
            ∧ t.occ.stream j = Stream.unbound ∧ ∀ k, k ≠ j → t.occ.stream k = s.occ.stream k)
        ∧ (s.portBound j = false → (s.occ.stream j).bound = true → (s.occ.stream j).tap = true → s.ownsDda = true →
            Runs (.sfree f) s fun t => t.occ.stream j = Stream.unbound ∧ (∀ k, k ≠ j → t.occ.stream k = s.occ.stream k)
              ∧ (let tap := s.core.dda.taps.getD (s.occ.stream j).addr.toNat Tap.reset
                 (t.core.dda.taps.getD (s.occ.stream j).addr.toNat Tap.reset).fifo = if tap.sink = 2 then [] else tap.fifo)
              ∧ s.SameRegs t ∧ s.BytesSame t ∧ s.Moved t .m 1))
    ∧ (∀ k, let w := s.occ.stream k
        let n := 2 ^ w.size
        (w.bound = false ∨ w.tap = true ∨ w.halted = true ∨ w.left = 0 → exec (.streamFetch s.me.gid k) s = .next s)
        ∧ (∀ key, w.bound = true → w.tap = false → w.halted = false → w.left ≠ 0 → w.arrived.length < 64 →
            s.cmdKey w.space 0 w.addr n .read { async := true, index := w.index } = .ok key →
            Runs (.streamFetch s.me.gid k) s fun t => t.mem = s.mem ∧ s.SameRegs t ∧ t.occ.pcs = s.occ.pcs
              ∧ t.occ.stream k = { w with addr := w.addr + w.stride, left := w.left - 1, index := w.index + 1, fixed := w.fixed.drop 1,
                                          arrived := w.arrived ++ [(w.fixed.headD none).getD (BitVec.ofNat 32 (s.mem.getN key n))] }))

/-- R196: SEMW takes n from COUNT once it is large enough, or reports F, and waits before that; SEMS adds n, and takes 0x12
where COUNT would pass 0xFFFF_FFFF. -/
def semaphoresCount : Prop :=
  ∀ (f : VF) (x : MX) (s : State), s.lanes .m f ≠ [] →
    let u := s.drain
    let one := fun (xo : Option MX) (wait signal : Instr) =>
      let x := mFields xo
      let w := mWords xo
      let n := if x.c = 0 then 1 else x.c.toNat
      let base := s.occ.getS f.a.toNat
      let addr := (if x.sp = 0 then base else (base.setWidth 32).setWidth 64) + x.imm.signExtend 64
      let core := if x.sp = 5 then (s.occ.getS f.b.toNat).toNat % 2 ^ 16 else 0
      ∀ k, s.accessAt .m x.sp.toNat core addr 8 .both true = .ok k → u.checkLost addr k 8 = .ok () →
        let count := u.mem.getN k 4
        let fail := 2 ^ 31 ≤ u.mem.getN (k + 4) 4
        let gone := fun (c : Nat) => ((u.poke k (toBytes 4 c)).countRead k 8).countWrite k 8
        (s.CountOk wait →
          (fail → Runs wait s fun t => (u.countRead k 8).WroteQ t .m w (f.d.setWidth 3) false)
          ∧ (¬ fail → n ≤ count → Runs wait s fun t => (gone (count - n)).WroteQ t .m w (f.d.setWidth 3) true
              ∧ (s.mem.wf = true → t.mem.getN k 4 = count - n ∧ u.BytesSameOutside t k 4))
          ∧ (¬ fail → count < n → exec wait s = .next (s.beginWait 2 (packObject x.sp.toNat core addr) 0 n)))
        ∧ (s.CountOk signal →
          (count + n ≤ 0xFFFFFFFF → Runs signal s fun t => (gone (count + n)).WroteNothing t .m w
            ∧ (s.mem.wf = true → t.mem.getN k 4 = count + n ∧ u.BytesSameOutside t k 4))
          ∧ (0xFFFFFFFF < count + n → exec signal s = s.trappedAt .m 0x12))
    one none (.semw f) (.sems f) ∧ one (some x) (.semw64 f x) (.sems64 f x)

/-- R197, R291, R418: SLOT reserves the slot at TAIL of a felt ring of a neighbouring N-die, or waits for a free one; a ring whose bridge has
failed carries nothing until software has written it afresh. -/
def slotsAreReserved : Prop :=
  ∀ (f : VF) (s : State) (b : Nat), s.lanes .m f ≠ [] → f.d.toNat < 64 → s.CountOk (.slot f) →
    let h := s.occ.getS f.a.toNat
    let core := h.toNat % 2 ^ 16
    let die := h.toNat / 2 ^ 16 % 4
    let key := Config.coreKey die core
    let felt := (s.coreAt key).felt
    let hdr := unitKey key (feltHdr felt)
    let u := s.drain
    let free := u.mem.getN hdr 4
    let slot := u.mem.getN (hdr + 17) 1 % feltCount felt
    let handle := h ||| BitVec.ofNat 64 (slot * 2 ^ 32)
    let ring := s.coreAt key
    let carries := b ∉ ring.stale ∨ (ring.renewed = true ∧ u.mem.getN hdr 32 = feltCount felt)
    (2 ^ 18 ≤ h.toNat → exec (.slot f) s = s.trappedAt .m 0x0B)
    ∧ (h.toNat < 2 ^ 18 → die < 2 ∨ 144 ≤ core ∨ die = s.die → exec (.slot f) s = s.trappedAt .m 0x12)
    ∧ (h.toNat < 2 ^ 18 → 2 ≤ die → core < 144 → die ≠ s.die → bridgeOf s.die die = some b →
        (feltCount felt = 0 ∨ 16 ≤ s.occ.felts.length ∨ (s.bridges.getD b (Channel.up 8)).failed = true ∨ ¬ carries →
          exec (.slot f) s = s.trappedAt .m 0x12)
        ∧ (feltCount felt ≠ 0 → s.occ.felts.length < 16 → (s.bridges.getD b (Channel.up 8)).failed = false → carries →
          u.lost hdr 8 = none → u.lost (hdr + 17) 1 = none →
          (free = 0 → exec (.slot f) s = .next (s.beginWait 3 (packObject 5 core (BitVec.ofNat 64 (feltHdr felt))) 0 (core + die * 2 ^ 16)))
          ∧ (free ≠ 0 → Runs (.slot f) s fun t =>
              t.mem = ((u.mem.setN hdr 4 (free - 1)).setN (hdr + 17) 1 ((slot + 1) % feltCount felt))
              ∧ t.felts = s.felts ++ [{ ring := key, slot := slot, bridge := b, handle := handle, cmd := none }]
              ∧ t.occ.felts = s.occ.felts ++ [handle] ∧ s.SameV t ∧ s.SameP t ∧ s.SameQ t ∧ s.Moved t .m 1
              ∧ ∀ r : BitVec 6, t.getS r = if r = f.d.setWidth 6 ∧ f.d ≠ 0 then handle else s.getS r)))

/-- R196, R197: SEMW takes n from COUNT once it is large enough, or reports F, and waits before that; SEMS adds n, and takes 0x12
where COUNT would pass 0xFFFF_FFFF. SLOT reserves the slot at TAIL of a felt ring of a neighbouring N-die, or waits for a free one.
The model's own choices in it: log 45, 78. Completes: semw, semw64, sems, sems64, slot. -/
def Obligations.SemaphoresAndFeltSlots : Prop :=
  semaphoresCount ∧ slotsAreReserved

/-- R326: a field of a set is the bytes at its offset: in a scratchpad within the bounds of the space, in GLOBAL where they are
translated to; lost bytes are not read. A list holds TAIL − HEAD records. -/
def setFieldsAreBytes : Prop :=
  ∀ (s : State) (r : SetRef) (off n x : Nat) (a : DWord),
    let at' := r.off + BitVec.ofNat 64 off
    (r.space ≠ 0 → s.setKey r a n = if a.toNat + n ≤ r.size then some (r.base + a.toNat) else none)
    ∧ (r.space = 0 → s.setKey r a n = s.devKey r.ctx a.toNat .both)
    ∧ (s.setKey r at' n = none → s.wGet r off n = none ∧ s.wPut r off n x = none)
    ∧ (∀ k, s.setKey r at' n = some k →
        (s.lost k n = none → s.wGet r off n = some (s.mem.getN k n)) ∧ (s.lost k n ≠ none → s.wGet r off n = none)
        ∧ ∃ t, s.wPut r off n x = some t ∧ t = { s with mem := s.mem.setN k n x, poison := t.poison, watching := t.watching })
    ∧ (∀ k head tail, s.wGet r (64 + 64 * k + 36) 4 = some head → s.wGet r (64 + 64 * k + 40) 4 = some tail →
        s.held r k = some ((tail + 2 ^ 32 - head) % 2 ^ 32))

/-- R328, R319: a list that is not draining launches a drain when it holds its threshold, when its oldest record has reached the age
limit, or when no right is left on an armed set and it holds a record: DRAINING is set, DRAINS counts up, and the template's launch is
accepted, for its home die, as the drain of that list. One whose template no longer passes the checks launches nothing. -/
def dueListsLaunchDrains : Prop :=
  ∀ (s : State) (r : SetRef) (k fl n thresh age stamp rights sflags : Nat),
    let d := 64 + 64 * k
    s.wGet r (d + 44) 1 = some fl → s.held r k = some n → s.wGet r (d + 12) 4 = some thresh → s.wGet r (d + 16) 4 = some age →
    s.wGet r (d + 48) 8 = some stamp → s.wGet r 4 2 = some rights → s.wGet r 3 1 = some sflags →
    let due := fl % 2 = 0 ∧ (thresh ≤ n ∨ (age ≠ 0 ∧ n ≠ 0 ∧ age ≤ (s.dieAt r.home).cyc - stamp)
      ∨ (rights = 0 ∧ sflags / 2 % 2 = 1 ∧ n ≠ 0))
    (¬ due → s.testList r k = some s) ∧ (due → s.testList r k = s.launchDrain r k)
    ∧ (∀ template, s.wGet r (d + 24) 8 = some template → s.devRead r.ctx template 64 = none → s.launchDrain r k = some s)
    ∧ (∀ template x, s.wGet r (d + 24) 8 = some template → s.devRead r.ctx template 64 = some x →
        let checked := s.checkRecord r.ctx (fun l => [servingDie r.home l]) x
        (∀ e, checked = .error e → s.launchDrain r k = some s)
        ∧ (∀ l c drains s1 s2, checked = .ok (l, c) → s.wGet r 6 2 = some drains → s.wPut r (d + 44) 1 (fl ||| 1) = some s1 →
            s1.wPut r 6 2 (drains + 1) = some s2 → ∃ t q, s.launchDrain r k = some t ∧ t.launches = s.launches ++ [q] ∧ q.record = l
              ∧ q.ctx = r.ctx ∧ q.drain = some (r, k) ∧ q.stage = .held ∧ q.dies = [servingDie r.home l] ∧ t.me = s.me
              ∧ t.mem = match c with
                | some j => s2.mem.setN j 8 ((s2.mem.getN j 8 + l.teams) % 2 ^ 64)
                | none => s2.mem))

/-- R328, R329: an append stores its 16 bytes as record TAIL of the ring, writes STAMP where the list was empty, advances TAIL and tests
the list; a take gives a lane the 16 bytes of record HEAD and advances HEAD. Record j lies at RING + 16 × (j mod CAP). -/
def recordsEnterAndLeave : Prop :=
  ∀ (s : State) (r : SetRef) (k ring cap : Nat),
    let d := 64 + 64 * k
    let slot := fun (j : Nat) => BitVec.ofNat 64 (ring + 16 * (j % cap))
    s.wGet r d 8 = some ring → s.wGet r (d + 8) 4 = some cap →
    (∀ n, s.held r k = some n → s.full r k = some (decide (cap ≤ n)))
    ∧ (∀ (bytes : List Byte) n tail s1 s2 key, s.held r k = some n → s.wGet r (d + 40) 4 = some tail →
        (if n = 0 then s.wPut r (d + 48) 8 (s.dieAt r.home).cyc = some s1 else s1 = s) → s1.setKey r (slot tail) 16 = some key →
        ((s1.poke key bytes).countWrite key 16).wPut r (d + 40) 4 ((tail + 1) % 2 ^ 32) = some s2 →
        s.appendRecord r k bytes = s2.testList r k)
    ∧ (∀ reg, s.takeRecords r k reg [] = some s)
    ∧ (∀ reg i rest head key s1, s.wGet r (d + 36) 4 = some head → s.setKey r (slot head) 16 = some key →
        (s.countRead key 16).wPut r (d + 36) 4 ((head + 1) % 2 ^ 32) = some s1 →
        ∃ s2 : State, s.takeRecords r k reg (i :: rest) = s2.takeRecords r k reg rest
          ∧ s2 = { s1 with me := { s1.me with occ := { s1.me.occ with regs := { s1.me.occ.regs with v := s2.occ.regs.v } } } }
          ∧ ∀ v l, s2.occ.getV v l = if l = i ∧ reg ≤ v ∧ v < reg + 4
              then BitVec.ofNat 32 (s.mem.getN key 16 / 2 ^ (32 * (v - reg))) else s.occ.getV v l)

/-- R327, R330, R317: the first right ever taken on a set checks it whole, or takes 0x1E; a right sets ARMED and counts in RIGHTS, once for
a group. When it ends RIGHTS counts down, every list is tested in turn, then the set for quiescence: armed, no right, no drain, every
list empty; it is declared once, and counts the completion counter down. -/
def rightsAreCounted : Prop :=
  ∀ (s : State) (r : SetRef) (lane sflags rights : Nat), s.wGet r 3 1 = some sflags → s.wGet r 4 2 = some rights →
    ((∃ q ∈ s.occ.rights, q.obj = r.obj) → s.takeRight r lane = .ok s)
    ∧ ((∀ q ∈ s.occ.rights, q.obj ≠ r.obj) →
        (∀ s1 s2, sflags / 2 % 2 = 1 ∨ (s.readWhole r = .ok () ∧ s.setOk r = true) → s.wPut r 3 1 (sflags ||| 2) = some s1 →
          s1.wPut r 4 2 (rights + 1) = some s2 →
          s.takeRight r lane = .ok (s2.mapOcc fun o => { o with rights := o.rights ++ [r] }))
        ∧ (sflags / 2 % 2 = 0 → s.readWhole r = .ok () → s.setOk r = false →
            s.takeRight r lane = .error (.trap 0x1E (BitVec.ofNat 64 lane) r.obj)))
    ∧ (∀ n s1 s2, s.wGet r 2 1 = some n → s.wPut r 4 2 (rights - 1) = some s1 → s1.testLists r n = some s2 →
        s.endRight r = s2.testQuiet r)
    ∧ s.testLists r 0 = some s
    ∧ (∀ n s1, s.testLists r n = some s1 → s.testLists r (n + 1) = s1.testList r n)
    ∧ (∀ n drains (count : Nat → Nat), s.wGet r 2 1 = some n → s.wGet r 6 2 = some drains → (∀ k < n, s.held r k = some (count k)) →
        let quiet := sflags % 4 = 2 ∧ rights = 0 ∧ drains = 0 ∧ ∀ k < n, count k = 0
        (¬ quiet → s.testQuiet r = some s)
        ∧ (∀ counter s1 key, quiet → s.wGet r 8 8 = some counter → s.wPut r 3 1 (sflags ||| 1) = some s1 →
            s1.devKey r.ctx counter .both = some key →
            ∃ t, s.testQuiet r = some t ∧ t = { s1 with mem := t.mem, poison := t.poison, watching := t.watching }
              ∧ t.mem = s1.mem.setN key 8 ((s1.mem.getN key 8 + 2 ^ 64 - 1) % 2 ^ 64)))

/-- R203 to R205, R328, R329: WLAPP appends the records of its lanes in one order, each by itself, and waits while the list of one is full;
WLTAKE gives the oldest records to the lowest lanes, answers no lane at quiescence, and waits on an empty list else; WLDONE ends an append
right; the device launches a drain of a list that is due, and closes a drain whose teams have completed. -/
def worklistInstructions : Prop :=
  ∀ (f : VF) (x : MX) (s : State) (r : SetRef), s.lanes .m f ≠ [] →
    let u := s.drain
    let lanes := s.lanes .m f
    let first := lanes.headD 0
    let list := fun (i : Nat) => (s.occ.getV f.a.toNat i).toNat
    let record := fun (i : Nat) => toBytes 16 (s.occ.getData 4 f.d.toNat i)
    let n := (u.wGet r 2 1).getD 0
    let before := match s.occ.appending with | some (pc, done) => if pc = s.pcOf .m then done else [] | none => []
    let todo := lanes.filter fun i => !before.contains i
    let open' := u.openSet f x = .ok r
    (s.CountOk (.wlapp f x) → open' →
      (u.wGet r 0 2 ≠ some 0xC0A1 ∨ (u.wGet r 3 1).getD 0 % 2 = 1 →
        exec (.wlapp f x) s = s.trapped .m 0x1E (BitVec.ofNat 64 first) r.obj)
      ∧ (u.wGet r 0 2 = some 0xC0A1 → (u.wGet r 3 1).getD 0 % 2 = 0 →
          (∀ i p q, lanes = p ++ i :: q → (∀ j ∈ p, list j < n) → n ≤ list i →
            exec (.wlapp f x) s = s.trapped .m 0x1E (BitVec.ofNat 64 i) r.obj)
          ∧ (∀ t, (∀ i ∈ lanes, list i < n) → (∀ i ∈ lanes, u.reachSet r (64 + 64 * list i) = .ok ()) →
              u.takeRight r first = .ok t →
              ∃ order, List.Perm order todo
                ∧ ∀ v done, ({ t with freeSeq := t.freeSeq + todo.length } : State).appendAll r list record order = some (v, done) →
                  ((∀ i ∈ todo, i ∈ done) → exec (.wlapp f x) s = .next ((v.mapOcc fun o => { o with appending := none }).advance .m 2))
                  ∧ (∀ i p q, todo = p ++ i :: q → (∀ j ∈ p, j ∈ done) → i ∉ done → exec (.wlapp f x) s =
                      .next ((v.mapOcc fun o => { o with appending := some (s.pcOf .m, before ++ done) }).beginWait 11 r.obj 0 (list i))))))
    ∧ (∀ (t v w : State) i is b done, t.full r (list i) = some b → t.appendAll r list record (i :: is) = some (v, done) →
        (b = false → t.appendRecord r (list i) (record i) = some w →
          ∃ rest, w.appendAll r list record is = some (v, rest) ∧ done = i :: rest)
        ∧ (∀ fl, b = true → t.wGet r (64 + 64 * list i + 44) 1 = some fl →
            (fl % 2 = 1 → t.appendAll r list record is = some (v, done))
            ∧ (fl % 2 = 0 → t.launchDrain r (list i) = some w → w.appendAll r list record is = some (v, done))))
    ∧ (s.CountOk (.wltake f x) → open' →
        let k := (s.occ.getS (f.a.toNat % 64)).toNat
        let d := 64 + 64 * k
        let field := fun (off n : Nat) => (u.wGet r (d + off) n).getD 0
        let slot := fun (j : Nat) => BitVec.ofNat 64 (field 0 8 + 16 * ((field 36 4 + j) % field 8 4))
        (n ≤ k → exec (.wltake f x) s = s.trapped .m 0x1E (BitVec.ofNat 64 first) r.obj)
        ∧ (k < n → u.reachSet r d = .ok () →
            (∀ c v w, u.held r k = some c → c ≠ 0 →
              let got := lanes.take c
              let given := v.mapOcc (·.putP (x.c.toNat % 16) (s.enabled .m f) (laneMask got fun _ => true))
              (∀ j < got.length, ∀ key, u.setKey r (slot j) 16 = some key → u.lost key 16 = none) →
              u.takeRecords r k f.d.toNat got = some v →
              (lanes.length < c → w = given) → (c ≤ lanes.length → given.testQuiet r = some w) →
              Runs (.wltake f x) s fun t => w.ThenMoved t .m 2)
            ∧ (u.held r k = some 0 → (u.wGet r 3 1).getD 0 % 2 = 1 → Runs (.wltake f x) s fun t =>
                (u.mapOcc (·.putP (x.c.toNat % 16) (s.enabled .m f) 0)).ThenMoved t .m 2
                ∧ u.BytesSame t ∧ s.SameV t ∧ s.SameS t ∧ s.SameQ t)
            ∧ (u.held r k = some 0 → (u.wGet r 3 1).getD 0 % 2 = 0 →
                (∀ p, u.wGet r (d + 32) 4 = some p → s.ctx.ncard ≤ p →
                  exec (.wltake f x) s = s.trapped .m 0x1E (BitVec.ofNat 64 first) r.obj)
                ∧ (u.wGet r (d + 32) 4 = some 0 → 0 < s.ctx.ncard → exec (.wltake f x) s = .next (u.beginWait 10 r.obj 0 0)))))
    ∧ (let done := fun (i : Instr) (xo : Option MX) =>
        let x := mFields xo
        let b := s.occ.getS (f.b.toNat % 64)
        let q := s.setRef x.sp.toNat (if x.sp = 0 then b else (b.setWidth 32).setWidth 64)
        s.CountOk i →
          ((∀ p ∈ s.occ.rights, p.obj ≠ q.obj) → Runs i s fun t => s.WroteNothing t .m (mWords xo))
          ∧ (∀ p v, s.occ.rights.find? (fun p => p.obj == q.obj) = some p → u.checkRanges (u.setRanges p) = .ok () →
              u.checkStreams .m (u.setRanges p) = .ok () →
              (u.mapOcc fun o => { o with rights := o.rights.filter fun c => c.obj != p.obj }).endRight p = some v →
              Runs i s fun t => v.ThenMoved t .m (mWords xo))
       done (.wldone f) none ∧ done (.wldone64 f x) (some x))

/-- R328: the device tests a list whose age limit has passed, and closes a drain whose teams have completed. -/
def worklistDeviceEvents : Prop :=
  ∀ (s : State),
    (∀ set k,
      ((∀ q ∈ s.knownSets, q.obj.toNat ≠ set) → exec (.worklistAgeExpiry set k) s = .next s)
      ∧ (∀ q m, s.knownSets.find? (fun q => q.obj.toNat == set) = some q → s.wGet q 2 1 = some m →
          (m ≤ k → exec (.worklistAgeExpiry set k) s = .next s)
          ∧ (∀ t, k < m → s.testList q k = some t → exec (.worklistAgeExpiry set k) s = .next t)))
    ∧ (∀ l, (s.launch? l = none → exec (.drainComplete l) s = .next s)
        ∧ (∀ v, s.launch? l = some v → v.drain = none ∨ v.done < v.record.teams → exec (.drainComplete l) s = .next s)
        ∧ (∀ v q k fl n s1 s2 s3 t, s.launch? l = some v → v.drain = some (q, k) → v.record.teams ≤ v.done →
            s.wGet q (64 + 64 * k + 44) 1 = some fl → s.wGet q 6 2 = some n →
            s.wPut q (64 + 64 * k + 44) 1 (fl / 2 * 2) = some s1 → s1.wPut q 6 2 (n - 1) = some s2 →
            ({ s2 with launches := s2.launches.filter fun m => m.uid != l } : State).testList q k = some s3 → s3.testQuiet q = some t →
            exec (.drainComplete l) s = .next t))

/-- R203 to R205, R326 to R330: WLAPP appends the records of its lanes in one order, each by itself, and waits while the list of one
is full; WLTAKE gives the oldest records to the lowest lanes, answers no lane at quiescence, and waits on an empty list else; WLDONE ends
an append right; the device launches a drain of a list that is due, and closes a drain whose teams have completed. Which bytes of the set
each of these reads and writes. The model's own choices in it: log 17, 33, 50, 72. Completes: wlapp, worklistAgeExpiry, drainComplete,
wltake, wldone, wldone64. -/
def Obligations.WorklistsAppendAndTake : Prop :=
  setFieldsAreBytes ∧ dueListsLaunchDrains ∧ recordsEnterAndLeave ∧ rightsAreCounted ∧ worklistInstructions ∧ worklistDeviceEvents

/-! ## The matrix engine -/

/-- While %POWCOMPAT is 1 the X engine needs a power token (R361). -/
def xPowered (s : State) : Prop := s.shared.powcompat % 2 = 1 → s.occ.power = true

/-- The consistency of a format entry (R212). -/
def legalEntry (e : Word) : Prop :=
  let x := e.toNat
  let a := x % 16
  let b := x / 16 % 16
  let o := x / 256 % 16
  let bm := x / 4096 % 4
  let sc := x / 16384 % 8
  a ≤ 7 ∧ b ≤ 7 ∧ o ≤ 9 ∧ bm ≤ 2 ∧ ((a ≤ 3 ∧ b ≤ 3) ∨ (a = b ∧ 4 ≤ a)) ∧ (o = 7 → a = 7) ∧ (a = 7 → o = 6 ∨ o = 7)
  ∧ (bm ≠ 0 → a ≤ 3 ∨ b ≤ 3 ∨ o ≤ 3) ∧ (1 ≤ sc ↔ o ≤ 3 ∧ bm = 0)

/-- R212, R221, R223, R227, R228, R361: MCFG and MFMT write the shadow tables at user level and the active ones at trap level
alone; AWIN sets the window and zeroes the rows that join it; MSTAT reads the X queue, the counters and the tables; MSTOP discards
nests. Without the power token that %POWCOMPAT asks for, each of them waits. The model's own choices in it: log 58, 67. Completes:
mcfg, mcfgAct, mfmt, awin, mstatStat, mstatWait, mstatOvf, mstatOvfc, mstatFerr, mstatFerrc, mstatNest, mstatNests, mstatFmt,
mstop. -/
def Obligations.MatrixTablesWindowAndStatus : Prop :=
  ∀ (s : State) (g : KG) (level : BitVec 3) (index : BitVec 4) (a b d : BitVec 6),
    (¬ xPowered s → ∀ i ∈ [Instr.mcfg g level a b, .mcfgAct g level a b, .mfmt g index a, .awin g a, .mstop g, .mnest g,
      .mstatStat g d a, .mstatWait g d a, .mstatOvf g d a, .mstatOvfc g d a, .mstatFerr g d a, .mstatFerrc g d a,
      .mstatNest g d a, .mstatNests g d a, .mstatFmt g d a, .aclr g a, .mma g a b, .mmaOvw g a b, .ald g d a, .ast g d a],
      exec i s = .next (s.beginWait 15 0 0 1))
    ∧ (s.guard g = true → xPowered s →
      let x := s.getS a
      let w1 := s.getS b
      let n := x.toNat
      let bad := if level = 0 then 2 ^ 35 ≤ n ∨ w1.getLsbD 35 = true ∨ 2 ^ 54 ≤ w1.toNat else 2 ^ 18 ≤ w1.toNat
      let put := fun (t : List DWord) => setAt 0 (setAt 0 t (2 * level.toNat) x) (2 * level.toNat + 1) w1
      (bad → exec (.mcfg g level a b) s = s.trappedAt .x 0x0B)
      ∧ (¬ bad → Runs (.mcfg g level a b) s fun t => (s.mapOcc fun o => { o with shadow := put o.shadow }).ThenMoved t .x 1)
      ∧ (s.occ.trapLevel = false → exec (.mcfgAct g level a b) s = s.trappedAt .x 3)
      ∧ (s.occ.trapLevel = true → bad → exec (.mcfgAct g level a b) s = s.trappedAt .x 0x0B)
      ∧ (s.occ.trapLevel = true → ¬ bad → Runs (.mcfgAct g level a b) s fun t =>
          (s.mapOcc fun o => { o with active := put o.active }).ThenMoved t .x 1)
      ∧ (let e : Word := x.extractLsb' 0 32
         (2 ^ 33 ≤ n ∨ n / 2 ^ 17 % 2 ^ 15 ≠ 0 → exec (.mfmt g index a) s = s.trappedAt .x 0x0B)
         ∧ (n < 2 ^ 33 → n / 2 ^ 17 % 2 ^ 15 = 0 →
            (2 ^ 32 ≤ n → s.occ.trapLevel = false → exec (.mfmt g index a) s = s.trappedAt .x 3)
            ∧ (n < 2 ^ 32 ∨ s.occ.trapLevel = true → ¬ legalEntry e →
                exec (.mfmt g index a) s = s.trapped .x 0x1D (index.setWidth 64) (s.pcOf .x))
            ∧ (n < 2 ^ 32 → legalEntry e → Runs (.mfmt g index a) s fun t =>
                (s.mapOcc fun o => { o with fmts := setAt unsetEntry o.fmts index.toNat e }).ThenMoved t .x 1)
            ∧ (2 ^ 32 ≤ n → s.occ.trapLevel = true → legalEntry e → Runs (.mfmt g index a) s fun t =>
                (s.mapOcc fun o => { o with snapshot := some (setAt unsetEntry (o.snapshot.getD []) index.toNat e) }).ThenMoved
                  t .x 1)))
      ∧ (let lo := n % 2 ^ 12
         let hi := n / 2 ^ 16 % 2 ^ 12
         let legal := n / 2 ^ 12 % 16 = 0 ∧ n < 2 ^ 28 ∧ lo ≤ hi ∧ hi ≤ 3072
         let joins := fun (k : Nat) => ∃ r, lo ≤ r ∧ r < hi ∧ ¬ (s.occ.awb ≤ r ∧ r < s.occ.awl)
           ∧ accKey s.me.place.core r 0 ≤ k ∧ k < accKey s.me.place.core (r + 1) 0
         (¬ legal → exec (.awin g a) s = s.trappedAt .x 0x0B)
         ∧ (legal → s.occ.xcmds ≠ [] → exec (.awin g a) s = .next (s.beginWait 23 0 0 0))
         ∧ (legal → s.occ.xcmds = [] → s.overlapsWindow lo hi = true → exec (.awin g a) s = s.trappedAt .x 8)
         ∧ (legal → s.occ.xcmds = [] → s.overlapsWindow lo hi = false → s.mem.wf = true → Runs (.awin g a) s fun t =>
            (({ s with mem := t.mem, poison := t.poison } : State).mapOcc fun o => { o with awb := lo, awl := hi }).ThenMoved t .x 1
            ∧ (∀ k, (joins k → t.mem.get k = 0) ∧ (¬ joins k → t.mem.get k = s.mem.get k))
            ∧ ∀ k, k ∈ t.poison ↔ k ∈ s.poison ∧ ¬ joins k))
      ∧ (let o := s.occ
         let stat := BitVec.ofNat 64 (o.xcmds.length + (o.mprog.getLsbD 32).toNat * 2 ^ 62 + o.xerr.toNat * 2 ^ 63)
         let idle := o.xcmds = []
         let lastNest := (o.xcmds.filter fun c => c.op == 1).getLast?
         let key := s.me.place.core
         let word := fun (t : List DWord) => t.getD (2 * (n % 8) + n / 8) 0
         let table := match lastNest with | some c => c.table | none => o.active
         let snapshot := match lastNest with | some c => c.fmts | none => o.snapshot.getD []
         Runs (.mstatStat g d a) s (fun t => s.WroteS t .x 1 d stat)
         ∧ (¬ idle → ∀ i ∈ [Instr.mstatWait g d a, .mstatOvf g d a, .mstatOvfc g d a, .mstatFerr g d a, .mstatFerrc g d a],
              exec i s = .next (s.beginWait 17 0 0 0))
         ∧ (idle → Runs (.mstatWait g d a) s fun t => (s.mapOcc fun o => { o with xerr := false }).WroteS t .x 1 d stat)
         ∧ (idle → Runs (.mstatOvf g d a) s fun t => s.WroteS t .x 1 d (s.core.overflow.setWidth 64))
         ∧ (idle → Runs (.mstatOvfc g d a) s fun t =>
              (s.modCore key fun c => { c with overflow := 0 }).WroteS t .x 1 d (s.core.overflow.setWidth 64))
         ∧ (idle → Runs (.mstatFerr g d a) s fun t => s.WroteS t .x 1 d (s.core.formatErr.setWidth 64))
         ∧ (idle → Runs (.mstatFerrc g d a) s fun t =>
              (s.modCore key fun c => { c with formatErr := 0 }).WroteS t .x 1 d (s.core.formatErr.setWidth 64))
         ∧ (16 ≤ n ∨ n % 8 = 7 → exec (.mstatNest g d a) s = s.trappedAt .x 0x0B
              ∧ exec (.mstatNests g d a) s = s.trappedAt .x 0x0B)
         ∧ (n < 16 → n % 8 ≠ 7 → Runs (.mstatNest g d a) s (fun t => s.WroteS t .x 1 d (word table))
              ∧ Runs (.mstatNests g d a) s fun t => s.WroteS t .x 1 d (word o.shadow))
         ∧ (32 ≤ n → exec (.mstatFmt g d a) s = s.trappedAt .x 0x0B)
         ∧ (n < 16 → Runs (.mstatFmt g d a) s fun t => s.WroteS t .x 1 d ((o.fmts.getD n 0x3FFF).setWidth 64))
         ∧ (16 ≤ n → n < 32 → Runs (.mstatFmt g d a) s fun t =>
              s.WroteS t .x 1 d ((snapshot.getD (n % 16) 0x3FFF).setWidth 64)))
      ∧ (let o := s.occ
         let lastNest := (o.xcmds.filter fun c => c.op == 1).getLast?
         let halted := o.mprog.getLsbD 32 = true ∨ ∃ c ∈ o.xcmds, c.op = 1 ∧ c.started = true
         Runs (.mstop g) s fun t => (s.mapOcc fun o => { o with
          xcmds := o.xcmds.filter fun c => decide (c.op ≠ 1) && (decide (c.op ≠ 2) || c.started)
          active := match lastNest with | some c => c.table | none => o.active
          snapshot := match lastNest with | some c => some c.fmts | none => o.snapshot
          nestHeld := []
          mprog := if halted then (o.mprog &&& ~~~(0x100000000 : DWord)) ||| (1 <<< 33) else o.mprog }).ThenMoved t .x 1))

/-- Instruction i has the X queue accept a command: it waits for room, waits for memory commands that it overlaps and
for a full footprint checker, and then appends the command behind the group's pending stores (R182, R217, R230). -/
def xAccepted (i : Instr) (s : State) (n op : Nat) (args table : List DWord) (rs : List Range)
    (sem : Option Nat := none) : Prop :=
  let c : XCmd := { uid := s.uid, op, args, fmts := (List.range 16).map fun k => s.occ.fmts.getD k 0x3FFF, table,
                    granted := false, started := false, next := 0, sem, ranges := rs, addr := s.pcOf .x }
  let meets := ∃ r ∈ rs, ∃ m ∈ s.occ.cmds, ∃ q ∈ m.ranges, r.overlaps q = true
  (8 ≤ s.occ.xcmds.length → exec i s = .next (s.beginWait 22 0 0 0))
  ∧ (s.occ.xcmds.length < 8 → meets → exec i s = .next (s.beginWait 21 0 0 0))
  ∧ (s.occ.xcmds.length < 8 → ¬ meets → rs ≠ [] → 64 ≤ s.checkerUsed → exec i s = .next (s.beginWait 21 0 0 0))
  ∧ (s.occ.xcmds.length < 8 → ¬ meets → rs = [] ∨ s.checkerUsed < 64 → s.checkStreams .x rs = .ok () → Runs i s fun t =>
      ({ s.drain with uid := s.uid + 1 }.mapOcc fun o => { o with xcmds := o.xcmds ++ [c] }).ThenMoved t .x n)

/-- R216, R217, R220, R222, R224 to R226: MNEST, MMA, ACLR, ALD, AST and AEPI are checked and join the X queue with the format
table, the nest table and the rows and bytes of their issue. The model's own choices in it: log 23, 25, 82. Completes: mnest, mma,
mmaOvw, aclr, aepi, ald, ast. -/
def Obligations.MatrixCommandsAreAccepted : Prop :=
  ∀ (s : State) (g : KG) (a b d : BitVec 6) (off : BitVec 16) (sp sc : BitVec 3), s.guard g = true → xPowered s →
    let x := s.getS a
    let w1 := s.getS b
    let at' := s.getS d
    let row := x.toNat % 2 ^ 12
    let n := x.toNat / 2 ^ 12 % 2 ^ 12
    let rows : Range := { space := 8, core := 0, lo := row, hi := row + n, wr := true }
    let inWindow := fun (k : Nat) => s.occ.awb ≤ row ∧ row + k ≤ s.occ.awl
    let fmts := (List.range 16).map s.occ.fmt
    let t := (List.range 14).map fun i => s.occ.shadow.getD i 0
    let space := packedSpace at'
    let o := packedOff at'
    let place := (space = 1 ∨ space = 2) ∧ at'.extractLsb' 48 13 = 0
    let into := fun (bytes : Nat) => o.toNat + bytes ≤ s.extentOf space
    (s.checkNest (tableBase t) (tableLevels t) fmts = .ok () →
      xAccepted (.mnest g) s 1 1 [] t (s.nestRanges (tableBase t) (tableLevels t) fmts))
    ∧ (∀ c i ad, s.checkNest (tableBase t) (tableLevels t) fmts = .error (.trap c i ad) → exec (.mnest g) s = s.trapped .x c i ad)
    ∧ (2 ^ 35 ≤ x.toNat ∨ w1.getLsbD 35 = true ∨ 2 ^ 54 ≤ w1.toNat →
        exec (.mma g a b) s = s.trappedAt .x 0x0B ∧ exec (.mmaOvw g a b) s = s.trappedAt .x 0x0B)
    ∧ (x.toNat < 2 ^ 35 → w1.getLsbD 35 = false → w1.toNat < 2 ^ 54 → s.checkNest (Base.ofWords x w1) [] fmts = .ok () →
        xAccepted (.mma g a b) s 1 2 [x, w1, 0] [] (s.nestRanges (Base.ofWords x w1) [] fmts)
        ∧ xAccepted (.mmaOvw g a b) s 1 2 [x, w1, 1] [] (s.nestRanges (Base.ofWords x w1) [] fmts))
    ∧ (2 ^ 24 ≤ x.toNat ∨ n = 0 → exec (.aclr g a) s = s.trappedAt .x 0x0B)
    ∧ (x.toNat < 2 ^ 24 → n ≠ 0 → ¬ inWindow n → exec (.aclr g a) s = s.trappedAt .x 8)
    ∧ (x.toNat < 2 ^ 24 → n ≠ 0 → inWindow n → xAccepted (.aclr g a) s 1 5 [x] [] [rows])
    ∧ (¬ place → exec (.ald g d a) s = s.trappedAt .x 0x0B ∧ exec (.ast g d a) s = s.trappedAt .x 0x0B)
    ∧ (place → x.toNat < 2 ^ 24 → n ≠ 0 → o.toNat % 16 ≠ 0 → exec (.ald g d a) s = s.trapped .x 4 0 o)
    ∧ (place → x.toNat < 2 ^ 24 → n ≠ 0 → o.toNat % 16 = 0 → into (256 * n) → inWindow n →
        xAccepted (.ald g d a) s 1 7 [at', x] [] (rows :: s.spanRanges space 0 o.toNat (o.toNat + 256 * n) false))
    ∧ (let f := x.toNat / 2 ^ 24 % 16
       place → x.toNat < 2 ^ 28 → n ≠ 0 → f ∈ [4, 5, 6, 8, 9] → o.toNat % 16 = 0 → into (rowSize f * n) → inWindow n →
        xAccepted (.ast g d a) s 1 8 [at', x] [] (rows :: s.spanRanges space 0 o.toNat (o.toNat + rowSize f * n) true))
    ∧ (let e := Epi.ofWord x fmts
       let ext := e.extent o.toNat
       let legal := place ∧ entryAF e.entry ≤ 7 ∧ (entryOF e.entry = 7 → entryAF e.entry = 7) ∧ n / 4 % 4 = 0
         ∧ x.toNat / 2 ^ 22 % 2 ^ 10 = 0 ∧ n % 4 ≠ 3 ∧ o.toNat % 8 = 0 ∧ e.stride % 8 = 0
         ∧ 0 ≤ ext.1 ∧ ext.2 ≤ (s.extentOf space : Int) ∧ inWindow e.accRows
       let acc : Range := { space := 8, core := 0, lo := row, hi := row + e.accRows, wr := true }
       let out := s.spanRanges space 0 ext.1.toNat ext.2.toNat true
       (¬ place → exec (.aepi g d a b off sp sc) s = s.trappedAt .x 0x0B)
       ∧ ((∀ k ∈ s.occ.xcmds, k.uid ≠ s.uid) → legal → b = 0 → off = 0 → sp = 0 → sc = 0 →
            xAccepted (.aepi g d a b off sp sc) s 2 6 [at', x, 0, 0, 0] [] (acc :: out))
       ∧ (∀ k, (∀ k ∈ s.occ.xcmds, k.uid ≠ s.uid) → legal → b ≠ 0 → epiSemZero sp.toNat w1 = true →
            let q := epiSem sp.toNat w1 off
            s.keyOf sp.toNat q.1 0 q.2 8 .both { atomic := true } = .ok k →
            xAccepted (.aepi g d a b off sp sc) s 2 6 [at', x, q.2, BitVec.ofNat 64 (sp.toNat + 8 * q.1), 1] []
              (acc :: (out ++ [s.range sp.toNat q.1 q.2.toNat 8 true])) (some k)))

/-- One output of a step of the array: 64 products for the narrow and 16-bit formats, summed exactly in four chunks of 16,
each rounded once and added to the accumulator; 64 fused multiply-adds for FP32 and FP64 (R92 to R94, R210). -/
def arrayDot (af : Nat) (ovw : Bool) (c : Nat) (as bs : List Machine.Num) : Nat :=
  let fmas := fun (F : Fmt) => (as.zip bs).foldl (fun c p => (F.round 0 (fmaNum 0 p.1 p.2 (F.decode c))).code)
    (if ovw then 0 else c)
  let chunk := fun (j : Nat) => (f32.round 0 (sumNum 0 ((((as.drop (16 * j)).take 16).zip ((bs.drop (16 * j)).take 16)).map
    fun p => mulNum p.1 p.2))).code
  let plus := fun (c j : Nat) => (f32.round 0 (addNum 0 (f32.decode c) (f32.decode (chunk j)))).code
  if af = 6 then fmas f32 else if af = 7 then fmas f64
  else if ovw then plus (plus (plus (chunk 0) 1) 2) 3 else plus (plus (plus (plus c 0) 1) 2) 3

/-- A row of 64 values in an output format at key k (R226): a scalar format holds each value converted to it, the elements one
behind the other; a block format holds one granule, of the quantiser's blocks under BM = 0 and of fixed ones under BM = 1 or 2. -/
def rowHeld (m : Machine.Memory) (k code bm thr : Nat) (xs : List Machine.Num) : Prop :=
  let w := rowSize code / 64
  let size := if bm = 1 then 16 else 32
  let fixed := (List.range (64 / size)).map fun j => (xs.drop (size * j)).take size
  (4 ≤ code → ∀ x < 64, Memory.getN m (k + w * x) w = ((scalarFmt code).conv 0 false (xs.getD x .nan)).1 % 2 ^ (8 * w))
  ∧ (code ≤ 3 → bm = 0 → Memory.getN m k (rowSize code) = (quantise (blockCode code) 0 thr xs).1 % 2 ^ (8 * rowSize code))
  ∧ (code ≤ 3 → bm ≠ 0 → Memory.getN m k (rowSize code) = (quantiseBlocks (blockCode code) 0 fixed).1 % 2 ^ (8 * rowSize code))

/-- The saturations of the conversion of a row (R79, R226). -/
def rowSats (code bm thr : Nat) (xs : List Machine.Num) : Nat :=
  let size := if bm = 1 then 16 else 32
  if 4 ≤ code then (xs.map fun x => ((scalarFmt code).conv 0 false x).2).sum
  else if bm = 0 then (quantise (blockCode code) 0 thr xs).2
  else (quantiseBlocks (blockCode code) 0 ((List.range (64 / size)).map fun j => (xs.drop (size * j)).take size)).2

/-- The overflow counter of the tile after n saturations (R80). -/
def overflowAfter (s : State) (n : Nat) : Nat :=
  if s.tile then min 0xFFFFFFFF (s.core.overflow.toNat + n) else s.core.overflow.toNat

/-- R225: an AST stores count rows of the accumulator, one behind the other: the FP32 words as they are, or each converted to the
output format, whose saturations are counted. -/
def astStoresRows : Prop :=
  ∀ (s : State) (c : XCmd) (cs : List XCmd) (k0 : Nat), s.me.run = .running → s.occ.xcmds = c :: cs → c.halted = false → c.op = 8 →
    let a0 := c.args.getD 0 0
    let x := (c.args.getD 1 0).toNat
    let row := x % 2 ^ 12
    let n := x / 2 ^ 12 % 2 ^ 12
    let f := x / 2 ^ 24 % 16
    let off := (packedOff a0).toNat
    let values := fun (i : Nat) => (List.range 64).map fun j => f32.decode (s.accWord (row + i) j)
    f ∈ [4, 5, 6, 8, 9] → packedSpace a0 = 1 ∨ packedSpace a0 = 2 → s.mem.wf = true → k0 + rowSize f * n ≤ 2 ^ 100 →
    (∀ i < n, s.rowLost (row + i) = .ok ()) →
    (∀ j, 4 * j < rowSize f * n → s.keyOf (packedSpace a0) 0 0 (BitVec.ofNat 64 (off + 4 * j)) 4 .write {} = .ok (k0 + 4 * j)) →
    Runs (.xCommandComplete s.me.gid) s fun t =>
      t.occ.xcmds = s.occ.xcmds.filter (fun k => decide (k.uid ≠ c.uid)) ∧ s.SameRegs t
      ∧ (f = 6 → ∀ i < n, ∀ j < 64, t.mem.getN (k0 + 256 * i + 4 * j) 4 = s.accWord (row + i) j)
      ∧ (f ≠ 6 → ∀ i < n, rowHeld t.mem (k0 + rowSize f * i) f 0 0 (values i))
      ∧ s.BytesSameOutside t k0 (rowSize f * n)
      ∧ t.core = { s.core with overflow := BitVec.ofNat 32 (overflowAfter s
          (if f = 6 then 0 else ((List.range n).map fun i => rowSats f 0 0 (values i)).sum)) }

/-- R226: an AEPI without a semaphore converts the M rows of the output, RELU applied first, and stores each at its stride; CLR
leaves the rows it read +0; the tile's overflow counter, this AEPI's saturations among it, goes behind the rows and is cleared. -/
def aepiStoresTheTile : Prop :=
  ∀ (s : State) (c : XCmd) (cs : List XCmd) (kr : Nat → Nat) (kw : Nat), s.me.run = .running → s.occ.xcmds = c :: cs →
    c.halted = false → c.op = 6 → c.next = 0 → c.args.getD 4 0 = 0 →
    let a0 := c.args.getD 0 0
    let a1 := c.args.getD 1 0
    let x := a1.toNat
    let row := x % 2 ^ 12
    let m := match x / 2 ^ 12 % 4 with | 0 => 64 | 1 => 32 | _ => 16
    let entry := c.fmts.getD (x / 2 ^ 16 % 16) 0x3FFF
    let code := entryOF entry
    let fp64 := entryAF entry = 7
    let F := if fp64 then f64 else f32
    let size := rowSize code
    let st : Int := (a1.extractLsb' 32 32).toInt
    let stride : Int := if st = 0 then size else st
    let dst : Int := (packedOff a0).toNat
    let rows := if fp64 then 2 * m else m
    let lo := accKey s.me.place.core row 0
    let held := fun (i j : Nat) =>
      if fp64 then s.mem.getN (accKey s.me.place.core (row + 2 * i + j / 32) (2 * (j % 32))) 8
      else s.mem.getN (accKey s.me.place.core (row + i) j) 4
    let value := fun (i j : Nat) =>
      let v := F.decode (held i j)
      if a1.getLsbD 20 = true ∧ v ≠ .nan ∧ (v.sign = true ∨ v.isZero = true) then .zero false else v
    let values := fun (i : Nat) => (List.range 64).map (value i)
    packedSpace a0 = 1 ∨ packedSpace a0 = 2 → s.mem.wf = true → (∀ r < rows, s.rowLost (row + r) = .ok ()) →
    (∀ i < m, kr i + size ≤ 2 ^ 100 ∧ ∀ j, 4 * j < size →
      s.keyOf (packedSpace a0) 0 0 (BitVec.ofInt 64 (dst + i * stride + 4 * j)) 4 .write {} = .ok (kr i + 4 * j)) →
    s.keyOf (packedSpace a0) 0 0 (BitVec.ofInt 64 (dst + m * stride)) 4 .write {} = .ok kw → kw + 4 ≤ 2 ^ 100 →
    (∀ i < m, (kw + 4 ≤ kr i ∨ kr i + size ≤ kw) ∧ ∀ j < i, kr j + size ≤ kr i ∨ kr i + size ≤ kr j) →
    Runs (.xCommandComplete s.me.gid) s fun t =>
      t.occ.xcmds = s.occ.xcmds.filter (fun k => decide (k.uid ≠ c.uid)) ∧ s.SameRegs t
      ∧ (∀ i < m, rowHeld t.mem (kr i) code (entryBM entry) (entryT entry) (values i))
      ∧ t.mem.getN kw 4 = overflowAfter s ((List.range m).map fun i => rowSats code (entryBM entry) (entryT entry) (values i)).sum
      ∧ t.core = { s.core with overflow := 0 }
      ∧ (∀ k, lo ≤ k → k < lo + 256 * rows → t.mem.get k = if a1.getLsbD 21 then 0 else s.mem.get k)
      ∧ (∀ k, k < lo ∨ lo + 256 * rows ≤ k → k < kw ∨ kw + 4 ≤ k → (∀ i < m, k < kr i ∨ kr i + size ≤ k) →
          t.mem.get k = s.mem.get k)

/-- R209, R210, R215, R224, R225, R230, R359, R360, R365, R440: the array executes granted steps in order, each output a dot product
of a row of A and a row of B; AST and AEPI store the rows converted; a finished command leaves the X queue; leave is granted from the
head of the queue while the budget of the die lasts. The model's own choices in it: log 3, 55, 56. Completes: matrixStep,
xCommandComplete, currentGovernorCycle. -/
def Obligations.MatrixStepsAndLeave : Prop :=
  astStoresRows ∧ aepiStoresTheTile
  ∧ ∀ (s : State) (c : XCmd) (cs : List XCmd), s.me.run = .running → s.occ.xcmds = c :: cs → c.halted = false →
    let gid := s.me.gid
    let isStep := c.op = 1 ∨ c.op = 2
    let e := c.entry c.next
    let ask := fun (fmt : Nat) =>
      if fmt ≤ 1 then 102000 else if fmt ≤ 3 then 85000 else if fmt ≤ 5 then 68000 else 51000
    let exempt := ∃ n, s.core.lastStep = some n ∧ s.cyc ≤ n + 64
    let waits := ∃ r ∈ (s.dieAt s.die).leave, r.cmd = c.uid
    (isStep → c.next < c.steps → c.granted = false →
      (waits → exec (.matrixStep gid) s = .next s)
      ∧ (¬ waits → exempt → Runs (.matrixStep gid) s fun t =>
        t = s.mapOcc fun o => { o with xcmds := { c with granted := true } :: cs })
      ∧ (¬ waits → ¬ exempt → Runs (.matrixStep gid) s fun t => t = s.modDie s.die fun d => { d with leave := d.leave ++
          [{ gid := gid, cmd := c.uid, charge := max (ask (entryAF e)) (ask (entryBF e)) }] }))
    ∧ (∀ u, isStep → c.next < c.steps → c.granted = true →
        let b := c.base
        let ks := counters c.next c.levels
        let first := c.op = 1 ∧ c.started = false
        let v := (if first then s.mapOcc fun o => { o with mprog := 0, active := c.table, snapshot := some c.fmts } else s).mapOcc
          fun o => { o with xcmds := { c with started := true } :: cs }
        v.matrixStep b.asp (along b.aoff (·.ainc) c.levels ks).toNat b.bsp (along b.boff (·.binc) c.levels ks).toNat
          (along b.crow (·.cinc) c.levels ks).toNat (rowsOf b.mc) e
          (if c.op = 1 then stepOvw c.levels ks else c.args.getD 2 0 == 1) = .ok u →
        Runs (.matrixStep gid) s fun t => t.mem = u.mem ∧ s.SameRegs t ∧ t.occ.pcs = s.occ.pcs
          ∧ t.occ.xcmds = { c with started := true, next := c.next + 1 } :: cs
          ∧ t.core.lastStep = some s.cyc ∧ t.core.formatErr = u.core.formatErr
          ∧ (c.op = 1 → t.occ.mprog.toNat % 2 ^ 32 = (c.next + 1) % 2 ^ 32))
    ∧ (isStep → c.steps ≤ c.next → Runs (.xCommandComplete gid) s fun t =>
        t.mem = s.mem ∧ s.SameRegs t ∧ t.occ.xcmds = s.occ.xcmds.filter (fun k => decide (k.uid ≠ c.uid)))
    ∧ (let a0 := c.args.getD 0 0
       let a1 := c.args.getD 1 0
       let row := fun (x : DWord) => x.toNat % 2 ^ 12
       let n := fun (x : DWord) => x.toNat / 2 ^ 12 % 2 ^ 12
       let gone := fun (t : State) => t.occ.xcmds = s.occ.xcmds.filter (fun k => decide (k.uid ≠ c.uid)) ∧ s.SameRegs t
       (c.op = 5 → s.mem.wf = true → Runs (.xCommandComplete gid) s fun t => gone t
          ∧ ∀ k, t.mem.get k = if accKey s.me.place.core (row a0) 0 ≤ k ∧ k < accKey s.me.place.core (row a0 + n a0) 0 then 0
              else s.mem.get k)
       ∧ (c.op = 5 → Runs (.xCommandComplete gid) s fun t =>
            ∀ k, k ∈ t.poison ↔ k ∈ s.poison ∧ ¬ (accKey s.me.place.core (row a0) 0 ≤ k ∧ k < accKey s.me.place.core (row a0 + n a0) 0))
       ∧ (∀ v : Nat → Nat, c.op = 7 → s.mem.wf = true → (∀ i < n a1, s.readRow (packedSpace a0) ((packedOff a0).toNat + 256 * i) 256 = .ok (v i)) →
            Runs (.xCommandComplete gid) s fun t => gone t
              ∧ (∀ i < n a1, t.mem.getN (accKey s.me.place.core (row a1 + i) 0) 256 = v i % 2 ^ 2048)
              ∧ s.BytesSameOutside t (accKey s.me.place.core (row a1) 0) (256 * n a1))
       ∧ (∀ u, c.op = 8 → s.runAst a0 a1 = .ok u → Runs (.xCommandComplete gid) s fun t =>
            gone t ∧ t.mem = u.mem ∧ t.core = u.core)
       ∧ (∀ u, c.op = 6 → c.next = 0 → c.args.getD 4 0 = 0 → s.runAepi a0 a1 c.fmts = .ok u →
            Runs (.xCommandComplete gid) s fun t => gone t ∧ t.mem = u.mem ∧ t.core = u.core))
    ∧ (∀ asp aoff bsp boff c0 m ent ovw (ra rb : Nat → Nat),
        let af := entryAF ent
        let bf := entryBF ent
        let da := fun (i : Nat) => (operandRow af (entryBM ent) (ra i)).1
        let db := fun (i : Nat) => (operandRow bf (entryBM ent) (rb i)).1
        af ≠ 7 → s.mem.wf = true → (∀ r < m, s.rowLost (c0 + r) = .ok ()) →
        (∀ i < m, s.readRow asp (aoff + i * rowSize af) (rowSize af) = .ok (ra i)) →
        (∀ i < 64, s.readRow bsp (boff + i * rowSize bf) (rowSize bf) = .ok (rb i)) →
        ∃ u, s.matrixStep asp aoff bsp boff c0 m ent ovw = .ok u
          ∧ (∀ i < m, ∀ j < 64, u.accWord (c0 + i) j = arrayDot af ovw (s.accWord (c0 + i) j) (da i) (db j) % 2 ^ 32)
          ∧ s.BytesSameOutside u (accKey s.me.place.core c0 0) (256 * m))
    ∧ (∀ asp aoff bsp boff c0 m ent ovw (ra rb : Nat → Nat),
        let da := fun (i : Nat) => (operandRow 7 (entryBM ent) (ra i)).1
        let db := fun (i : Nat) => (operandRow (entryBF ent) (entryBM ent) (rb i)).1
        let at' := fun (i j : Nat) => accKey s.me.place.core (c0 + 2 * i + j / 32) (2 * (j % 32))
        entryAF ent = 7 → s.mem.wf = true → (∀ r < 2 * m, s.rowLost (c0 + r) = .ok ()) →
        (∀ i < m, s.readRow asp (aoff + i * 512) 512 = .ok (ra i)) →
        (∀ i < 64, s.readRow bsp (boff + i * rowSize (entryBF ent)) (rowSize (entryBF ent)) = .ok (rb i)) →
        ∃ u, s.matrixStep asp aoff bsp boff c0 m ent ovw = .ok u
          ∧ (∀ i < m, ∀ j < 64, u.mem.getN (at' i j) 8 = arrayDot 7 ovw (s.mem.getN (at' i j) 8) (da i) (db j) % 2 ^ 64)
          ∧ s.BytesSameOutside u (accKey s.me.place.core c0 0) (512 * m))
    ∧ (∀ die < 4,
        let d := s.dieAt die
        let budget := min 136000 (d.budget + 10 * d.didt / 2 ^ d.throttle)
        let alive := fun (r : LeaveReq) => ∃ g ∈ s.groups, g.gid = r.gid ∧ ∃ o ∈ g.occ :: g.under, ∃ k ∈ o.xcmds, k.uid = r.cmd
        (d.leave = [] → Runs (.currentGovernorCycle die) s fun t => s.SameRegs t ∧ s.BytesSame t
          ∧ (t.dieAt die).budget = budget ∧ (t.dieAt die).leave = [])
        ∧ (∀ r rs, d.leave = r :: rs → (∀ q ∈ d.leave, alive q) → budget < r.charge →
            Runs (.currentGovernorCycle die) s fun t => s.SameRegs t ∧ s.BytesSame t
              ∧ (t.dieAt die).budget = budget ∧ (t.dieAt die).leave = d.leave ∧ t.occ.xcmds = s.occ.xcmds
              ∧ (t.dieAt die).lwait = min 0xFFFFFFFF (d.lwait + d.leave.length))
        ∧ (∀ r, d.leave = [r] → alive r → r.charge ≤ budget → r.gid = gid →
            Runs (.currentGovernorCycle die) s fun t => s.SameRegs t ∧ s.BytesSame t
              ∧ (t.dieAt die).budget = budget - r.charge ∧ (t.dieAt die).leave = []
              ∧ t.occ.xcmds = s.occ.xcmds.map fun k => if k.uid = r.cmd then { k with granted := true } else k))

/-! ## The digital differential analyser -/

/-- The state in which every accepted DSTEP and DRUN has been applied (R239): what a later D instruction finds. -/
def ddaSettled (s : State) : State :=
  s.modCore s.me.place.core fun c => { c with dda := { c.dda.queue.foldl Dda.apply c.dda with queue := [] } }

/-- An entry that DPATCH accepts (R234, R254). -/
def legalPatch (p : DWord) : Prop :=
  let n := p.toNat
  let code := fun (c : Nat) => c ≤ 0x203 ∨ (0x210 ≤ c ∧ c ≤ 0x21F) ∨ c = 0x3FF
  code (n % 2 ^ 10) ∧ code (n / 2 ^ 11 % 2 ^ 10) ∧ code (n / 2 ^ 22 % 2 ^ 10) ∧ n / 2 ^ 40 % 4 ≤ 1 ∧ n < 2 ^ 43

/-- Instruction i of n lanes changes the DDA to e' once the domains listed neither run free nor count, or the DDA is frozen;
a free or event domain is illegal, and a Counted one is waited for (R242, R252). -/
def ddaChanges (i : Instr) (s : State) (n : Nat) (doms : List Nat) (e' : Dda) : Prop :=
  let e := (ddaSettled s).core.dda
  let still := e.frozen = true ∨ ∀ j ∈ doms, (e.dom j).mode = 0
  (e.frozen = false → (∃ j ∈ doms, 2 ≤ (e.dom j).mode) → exec i s = s.trappedAt .d 0x0B)
  ∧ (e.frozen = false → (∀ j ∈ doms, (e.dom j).mode < 2) → (∃ j ∈ doms, (e.dom j).mode = 1) →
      exec i s = .next (s.beginWait 24 0 0 0))
  ∧ (still → Runs i s fun t => ((ddaSettled s).setDda e').ThenMoved t .d n)

/-- R250 to R257: DCLAIM and DCLAIM.TRY take a free DDA, wait for another group or report it, and fault against an occupant of the
same slot; only the owner may configure it; DPATCH, DINIT, DCLK, DTAP and DHALT change a cell, cells, a domain, a tap and domains.
The model's own choices in it: log 13, 37. Completes: dclaim, dclaimTry, dfree, dpatch, dinit, dclk, dhalt, dtap. -/
def Obligations.DdaIsOwnedAndConfigured : Prop :=
  ∀ (s : State) (g : KG) (q : BitVec 3) (a b d : BitVec 6) (dom : BitVec 2) (tap mask : BitVec 4) (imm : BitVec 32),
    s.guard g = true →
    let u := ddaSettled s
    let e := u.core.dda
    let own := (s.me.gid, s.me.under.length)
    let x := (s.getS a).toNat
    let r := (s.getS d).toNat
    let claimed : Dda := { owner := some own, frozen := s.occ.trapLevel, cells := [], doms := [], ports := [], taps := [], queue := [] }
    (s.core.dda.owner = some own →
      (Runs (.dclaim g) s fun t => u.ThenMoved t .d 1) ∧ (Runs (.dclaimTry g q) s fun t => u.WroteQ t .d 1 q true))
    ∧ (s.core.dda.owner = none →
      (Runs (.dclaim g) s fun t => (u.setDda claimed).ThenMoved t .d 1)
      ∧ (Runs (.dclaimTry g q) s fun t => (u.setDda claimed).WroteQ t .d 1 q true))
    ∧ (∀ k, s.core.dda.owner = some (s.me.gid, k) → k ≠ s.me.under.length →
      exec (.dclaim g) s = s.trappedAt .d 0x11 ∧ exec (.dclaimTry g q) s = s.trappedAt .d 0x11)
    ∧ (∀ o k, s.core.dda.owner = some (o, k) → o ≠ s.me.gid →
      exec (.dclaim g) s = .next (s.beginWait 16 0 0 0) ∧ (Runs (.dclaimTry g q) s fun t => u.WroteQ t .d 1 q false))
    ∧ (s.core.dda.owner ≠ some own → ∀ i ∈ [Instr.dfree g, .dpatch g a b, .dinit g d a b, .dclk g dom a, .dtap g tap a,
        .dhalt g mask, .dstep g mask a, .dstep64 g mask imm, .drun g mask a, .drun64 g mask imm, .dsave g d a, .dsaveTq g d,
        .drest g d, .drestTq g d, .drdY g d a, .drdR g d a, .drdPatch g d a, .drdDz g d a, .drdTapc g d a, .drdTapn g d a,
        .drdPort g d a, .dwrY g a b, .dwrR g a b, .dwrPort g a b, .dwrPcfg g a b, .dwrTapc g a b, .dstatWait g d],
      exec i s = s.trappedAt .d 0x11)
    ∧ (s.core.dda.owner = some own →
      (s.occ.tapsUsed ≠ [] → exec (.dfree g) s = s.trappedAt .d 0x0B)
      ∧ (s.occ.tapsUsed = [] → Runs (.dfree g) s fun t =>
          (u.setDda { e with owner := none, frozen := false, queue := [], running := [], doms := e.doms.map fun m =>
            { m with mode := 0, beat := false, remain := 0, phase := 0, period := 0, trig := 0 } }).ThenMoved t .d 1)
      ∧ (let p := s.getS b
         let i := x % 512
         (¬ legalPatch p → exec (.dpatch g a b) s = s.trappedAt .d 0x0B)
         ∧ (legalPatch p → ddaChanges (.dpatch g a b) s 1 [(e.cell i).dom, p.toNat / 2 ^ 38 % 4]
              (e.setCell i { e.cell i with patch := p, dz := 0, ldx := 0, ldy0 := 0, ldy1 := 0 })))
      ∧ (let first := r % 2 ^ 9
         let n := r / 2 ^ 16 % 2 ^ 9 + 1
         let legal := r / 2 ^ 9 % 2 ^ 7 = 0 ∧ r < 2 ^ 25 ∧ first + n ≤ 512
         (¬ legal → exec (.dinit g d a b) s = s.trappedAt .d 0x0B)
         ∧ (legal → ∃ e', e' = { e with cells := e'.cells }
              ∧ (∀ i, e'.cell i = if first ≤ i ∧ i < first + n then
                  { e.cell i with y := (s.getS a).setWidth 32, r := (s.getS b).setWidth 32, dz := 0, ldx := 0, ldy0 := 0, ldy1 := 0 }
                else e.cell i)
              ∧ ddaChanges (.dinit g d a b) s 1 ((List.range n).map fun k => (e.cell (first + k)).dom) e'))
      ∧ (let m := e.dom dom.toNat
         (16 ≤ x ∨ m.mode ≠ 0 ∨ (e.tap x).sink = 0 → exec (.dclk g dom a) s = s.trappedAt .d 0x0B)
         ∧ (x < 16 → m.mode = 0 → (e.tap x).sink ≠ 0 → Runs (.dclk g dom a) s fun t =>
              (u.setDda (e.setDom dom.toNat { m with mode := 3, trig := x, phase := 0, period := 0, remain := 0 })).ThenMoved t .d 1))
      ∧ (let k := tap.toNat
         let sink := x / 512
         let cell := x % 512
         let of := fun (s c : Nat) => if s = 0 then [] else [(e.cell c).dom]
         let busy := k ∈ s.occ.tapsUsed ∨ ∃ j < 4, (e.dom j).mode = 3 ∧ (e.dom j).trig = k
         (2 ^ 11 ≤ x ∨ busy → exec (.dtap g tap a) s = s.trappedAt .d 0x0B)
         ∧ (x < 2 ^ 11 → ¬ busy → ddaChanges (.dtap g tap a) s 1 (of (e.tap k).sink (e.tap k).cell ++ of sink cell)
              (e.setTap k { cell := if sink = 0 then 0 else cell, sink := sink, counter := 0, fifo := [], aside := 0 })))
      ∧ (Runs (.dhalt g mask) s fun t => ∀ j < 4, mask.getLsbD j = true → (t.core.dda.dom j).mode = 0)
      ∧ ((∀ j < 4, mask.getLsbD j = true → (e.dom j).mode = 1 → (e.dom j).remain = 0) →
          ∃ e', e' = { e with doms := e'.doms, ports := e'.ports, running := e'.running }
          ∧ e'.running = (if mask = 0 then e.running else
              (e.running.map fun r => (r.1, r.2.filter fun j => decide ((e'.dom j).mode = 1))).filter fun r => decide (r.2 ≠ []))
          ∧ (∀ p, e'.port p = if mask.getLsbD (e.port p).dom then { e.port p with held := none } else e.port p)
          ∧ (∀ j < 4, e'.dom j = if mask.getLsbD j then
              { e.dom j with mode := 0, beat := false, remain := 0, phase := 0, period := 0, trig := 0 } else e.dom j)
          ∧ Runs (.dhalt g mask) s fun t => (u.setDda e').ThenMoved t .d 1))

/-- R25, R237 to R240, R242, R243, R248, R249, R256, R391: DSTEP and DRUN join the D queue and are applied in order, and a DSTEP is
incomplete while a domain of its mask is Counted; a stepping cell
integrates its inputs and carries its overflow, and one beyond 32 bits is cause 0x0F; a cycle that meets a fault freezes the DDA;
a read or a port held for 65536 cycles is cause 0x18. The model's own choices in it: log 34 to 36, 38, 69, 75, 76. Completes: dstep,
dstep64, drun, drun64, ddaCycle, freeDomainTick, stallTimeout, ddaEventApplied. -/
def Obligations.DdaStepsAndStalls : Prop :=
  ∀ (s : State) (g : KG) (mask : BitVec 4) (a : BitVec 6) (imm : BitVec 32),
    let u := ddaSettled s
    let e := u.core.dda
    let x := (s.getS a).toNat
    let put := fun (ev : DdaEvent) => u.setDda { e with queue := [ev] }
    (s.guard g = true → s.core.dda.owner = some (s.me.gid, s.me.under.length) →
      (let legal := fun (c : Nat) => c = 0 ∨ ∀ j < 4, mask.getLsbD j = true → (e.dom j).mode < 2 ∧ (e.dom j).remain + c < 2 ^ 32
       let ev := fun (c : Nat) => ({ run := false, mask, count := c, addr := s.pcOf .d } : DdaEvent)
       (2 ^ 32 ≤ x ∨ ¬ legal x → exec (.dstep g mask a) s = s.trappedAt .d 0x0B)
       ∧ (x < 2 ^ 32 → legal x → Runs (.dstep g mask a) s fun t => (put (ev x)).ThenMoved t .d 1)
       ∧ (¬ legal imm.toNat → exec (.dstep64 g mask imm) s = s.trappedAt .d 0x0B)
       ∧ (legal imm.toNat → Runs (.dstep64 g mask imm) s fun t => (put (ev imm.toNat)).ThenMoved t .d 2))
      ∧ (let legal := fun (p : Nat) => 1 ≤ p ∧ p ≤ 0xFFFFFF
           ∧ ∀ j < 4, mask.getLsbD j = true → (e.dom j).mode = 0 ∨ (e.dom j).mode = 2
         let ev := fun (p : Nat) => ({ run := true, mask, count := p, addr := s.pcOf .d } : DdaEvent)
         (¬ legal x → exec (.drun g mask a) s = s.trappedAt .d 0x0B)
         ∧ (legal x → Runs (.drun g mask a) s fun t => (put (ev x)).ThenMoved t .d 1)
         ∧ (¬ legal imm.toNat → exec (.drun64 g mask imm) s = s.trappedAt .d 0x0B)
         ∧ (legal imm.toNat → Runs (.drun64 g mask imm) s fun t => (put (ev imm.toNat)).ThenMoved t .d 2)))
    ∧ (∀ core ev es, (s.coreAt core).dda.queue = ev :: es → Runs (.ddaEventApplied core) s fun t =>
        s.SameRegs t ∧ s.BytesSame t ∧ (t.coreAt core).dda.queue = es
        ∧ (let before := (s.coreAt core).dda.running
           let now := if ev.run = true ∨ ev.count = 0 then before else
             before ++ [(ev.addr, (List.range 4).filter fun j => ev.mask.getLsbD j)]
           (t.coreAt core).dda.running =
             (now.map fun r => (r.1, r.2.filter fun j => decide (((t.coreAt core).dda.dom j).mode = 1))).filter fun r => decide (r.2 ≠ []))
        ∧ ∀ j < 4, let m := (s.coreAt core).dda.dom j
            let m' := (t.coreAt core).dda.dom j
            (ev.mask.getLsbD j = false → m' = m)
            ∧ (ev.mask.getLsbD j = true → ev.run = true → m.mode = 0 ∨ m.mode = 2 →
                m' = { m with mode := 2, period := ev.count, phase := 0, remain := 0, trig := 0 })
            ∧ (ev.mask.getLsbD j = true → ev.run = false → ev.count ≠ 0 → m.mode = 0 →
                m' = { m with mode := 1, beat := false, remain := ev.count, period := 0, phase := 0, trig := 0 })
            ∧ (ev.mask.getLsbD j = true → ev.run = false → ev.count ≠ 0 → m.mode = 1 →
                m' = { m with remain := m.remain + ev.count }))
    ∧ (∀ (d : Dda) (pv : List Int) (c : Cell),
        let i := fun (k : Nat) => d.input pv c k
        let y := c.y.toInt + (i 1 + i 2) * 2 ^ c.shift
        (y < -2 ^ 31 ∨ 2 ^ 31 ≤ y → d.stepCell pv c = none)
        ∧ (-2 ^ 31 ≤ y → y < 2 ^ 31 → ∃ c', d.stepCell pv c = some c' ∧ c'.y.toInt = y ∧ c'.patch = c.patch
            ∧ (c'.dz = -1 ∨ c'.dz = 0 ∨ c'.dz = 1)
            ∧ (i 0 = -1 ∨ i 0 = 0 ∨ i 0 = 1 → c'.dz * 2 ^ 32 + c'.r.toInt = c.r.toInt + i 0 * y)))
    ∧ (∀ (d d' : Dda) (S : List Nat) (pv : List Int), d.cycle S pv = .ok d' →
        (∀ i k, d.crosses (d.cell i) k = false) → ∀ i < d.cells.length,
          ((d.cell i).active = true ∧ (d.cell i).dom ∈ S → d.stepCell pv (d.cell i) = some (d'.cell i))
          ∧ (¬ ((d.cell i).active = true ∧ (d.cell i).dom ∈ S) → d'.cell i = d.cell i))
    ∧ (∀ core o, let d := (s.coreAt core).dda
        let due := (List.range 4).filter fun j => (d.dom j).due
        let d1 : Dda := { d with ports := (List.range 16).map d.port
                                 doms := (List.range 4).map fun j => if j ∈ due then d.dom j else (d.dom j).idleCycle }
        let pv := (List.range 16).map fun p => (d.port p).value
        s.ownerOcc core = some o → d.frozen = false → o.causes.any isDdaCause = false → (∀ p < 16, (d.port p).bound = false) →
        (∀ d', d1.cycle due pv = .ok d' → Runs (.ddaCycle core) s fun t => t.mem = s.mem ∧ (t.coreAt core).dda = d')
        ∧ (∀ f, d1.cycle due pv = .error f → Runs (.ddaCycle core) s fun t => t.mem = s.mem
            ∧ (t.coreAt core).dda = { d with frozen := true }))
    ∧ (∀ core dom, let m := (s.coreAt core).dda.dom (BitVec.toNat (w := 2) dom)
        (m.mode = 2 → m.period ≤ m.phase + 1 → exec (.freeDomainTick core dom) s = exec (.ddaCycle core) s
          ∧ Runs (.freeDomainTick core dom) s fun t => t = s.ddaCycle core)
        ∧ (m.mode ≠ 2 ∨ m.phase + 1 < m.period → exec (.freeDomainTick core dom) s = .next s))
    ∧ (∀ w : Wait, s.core.dda.owner = none → s.occ.wait = some w → w.kind = 14 → w.detail ≠ 0 → s.me.run = .running →
        let z := s.occ.stream (w.detail - 1)
        let c : Cause := { code := 0x18, eng := .v, info := BitVec.ofNat 64 (w.detail - 1), addr := 0 }
        z.bound = false ∨ (z.tap = false ∧ z.left = 0) → 65536 ≤ s.cyc - w.since →
        (c ∈ s.occ.causes → exec (.stallTimeout s.me.gid) s = .next s)
        ∧ (c ∉ s.occ.causes → s.occ.trapLevel = false → Runs (.stallTimeout s.me.gid) s fun t =>
            t = s.mapOcc fun o => { o with causes := o.causes ++ [c] }))
    ∧ (∀ p c, let d := s.core.dda
        let z := s.occ.stream (d.port p).w
        let j := (d.port p).dom
        d.owner = some (s.me.gid, s.me.under.length) → s.me.run = .running → s.occ.wait = none → d.frozen = false →
        s.occ.causes.any isDdaCause = false → p < 16 → (d.port p).bound = true → z.bound = false ∨ (z.tap = false ∧ z.left = 0) →
        (d.port p).held = some c → c + 65536 ≤ s.cyc →
        (∀ q < p, (d.port q).bound = false ∨ (d.port q).held = none) →
        let cycle := s.ddaCycle s.me.place.core
        (cycle.core.dda.frozen = true → Runs (.stallTimeout s.me.gid) s fun t => t = cycle)
        ∧ (cycle.core.dda.frozen = false → Runs (.stallTimeout s.me.gid) s fun t =>
          t = (s.setDda { d with frozen := true }).mapOcc fun o => { o with causes := o.causes ++
            [{ code := 0x18, eng := .d, addr := 0,
               info := BitVec.ofNat 64 (p + j * 2 ^ 10 + 3 * 2 ^ 12 + 2 ^ 14 + (d.dom j).steps % 2 ^ 32 * 2 ^ 16) }] }))
    ∧ (∀ j, let d := s.core.dda
        s.ownerOcc s.me.place.core = some s.occ → d.frozen = false → s.occ.causes.any isDdaCause = false →
        (d.dom j).due = true → (∃ p < 16, (d.port p).bound = true ∧ (d.port p).dom = j
          ∧ d.portElem s.occ ((List.range 4).filter fun i => (d.dom i).due) p = none) → j < 4 →
        (s.ddaCycle s.me.place.core).core.dda.frozen = false →
        ((s.ddaCycle s.me.place.core).core.dda.dom j).steps = (d.dom j).steps)

/-- R244, R258 to R262, R447: DRD reads and DWR writes a part of the DDA once its domain allows it; DSTAT reports it; DSAVE writes
the image or the tap queues to UNIT memory, and DREST restores a legal one. The model's own choices in it: log 36, 37, 71.
Completes: dsave, dsaveTq, drest, drestTq, drdY, drdR, drdPatch, drdDz, drdTapc, drdTapn, drdPort, dwrY, dwrR, dwrPort, dwrPcfg,
dwrTapc, dstatStat, dstatWait, dstatSteps. -/
def Obligations.DdaIsReadWrittenAndSaved : Prop :=
  ∀ (s : State) (g : KG) (a b d : BitVec 6), s.guard g = true →
    let u := ddaSettled s
    let e := u.core.dda
    let x := (s.getS a).toNat
    let y := s.getS b
    let mine := s.core.dda.owner = some (s.me.gid, s.me.under.length)
    let all := [0, 1, 2, 3]
    let reads := fun (i : Instr) (bound : Nat) (doms : List Nat) (v : DWord) =>
      let calm := e.frozen = true ∨ ∀ j ∈ doms, (e.dom j).mode ≠ 1
      (bound ≤ x → exec i s = s.trappedAt .d 0x0B)
      ∧ (x < bound → ¬ calm → exec i s = .next (s.beginWait 24 0 0 0))
      ∧ (x < bound → calm → Runs i s fun t => u.WroteS t .d 1 d v)
    let writes := fun (i : Instr) (bound : Nat) (doms : List Nat) (e' : Dda) =>
      (bound ≤ x → exec i s = s.trappedAt .d 0x0B) ∧ (x < bound → ddaChanges i s 1 doms e')
    let cell := e.cell x
    let tap := e.tap x
    let port := e.port x
    let tapDoms := if tap.sink = 0 then [] else [(e.cell tap.cell).dom]
    (mine →
      reads (.drdY g d a) 512 [cell.dom] (cell.y.signExtend 64)
      ∧ reads (.drdR g d a) 512 [cell.dom] (cell.r.signExtend 64)
      ∧ reads (.drdPatch g d a) 512 [cell.dom] cell.patch
      ∧ reads (.drdDz g d a) 512 [cell.dom] (BitVec.ofInt 64 cell.dz)
      ∧ reads (.drdTapc g d a) 16 tapDoms (tap.counter.signExtend 64)
      ∧ reads (.drdTapn g d a) 16 tapDoms (BitVec.ofNat 64 tap.fifo.length)
      ∧ reads (.drdPort g d a) 16 [port.dom] (BitVec.ofInt 64 port.value)
      ∧ writes (.dwrY g a b) 512 [cell.dom] (e.setCell x { cell with y := y.setWidth 32 })
      ∧ writes (.dwrR g a b) 512 [cell.dom] (e.setCell x { cell with r := y.setWidth 32 })
      ∧ writes (.dwrTapc g a b) 16 tapDoms (e.setTap x { tap with counter := y.setWidth 32 })
      ∧ (y.toNat / 4 % 4 = 0 → y.toNat < 2 ^ 9 → writes (.dwrPcfg g a b) 16 [port.dom] (e.setPort x
          { value := 0, dom := y.toNat % 4, w := y.toNat / 16 % 16, bound := y.getLsbD 8, held := none }))
      ∧ (let legal := x < 16 ∧ port.bound = false ∧ (y = 0 ∨ y = 1 ∨ y = -1)
         let calm := e.frozen = true ∨ (e.dom port.dom).mode ≠ 1
         (¬ legal → exec (.dwrPort g a b) s = s.trappedAt .d 0x0B)
         ∧ (legal → ¬ calm → exec (.dwrPort g a b) s = .next (s.beginWait 24 0 0 0))
         ∧ (legal → calm → y ≠ 0 → port.value ≠ 0 → exec (.dwrPort g a b) s = s.trapped .d 0x10
              (BitVec.ofNat 64 (x + port.dom * 2 ^ 10 + 3 * 2 ^ 12 + 2 ^ 14 + (e.dom port.dom).steps % 2 ^ 32 * 2 ^ 16)) 0)
         ∧ (legal → calm → y = 0 ∨ port.value = 0 → Runs (.dwrPort g a b) s fun t =>
              (u.setDda (e.setPort x { port with value := y.toInt })).ThenMoved t .d 1))
      ∧ (let counts := ∃ j < 4, (e.dom j).mode = 1
         (e.frozen = false → counts → exec (.dstatWait g d) s = .next (s.beginWait 17 0 0 0))
         ∧ (e.frozen = true ∨ ¬ counts → Runs (.dstatWait g d) s fun t => u.WroteS t .d 1 d (e.stat true)))
      ∧ (∀ ks, let first := x % 2 ^ 9
          let n := x / 2 ^ 16 % 2 ^ 9 + 1
          let legal := x / 2 ^ 9 % 2 ^ 7 = 0 ∧ x < 2 ^ 25 ∧ first + n ≤ 512
          (¬ legal → exec (.dsave g d a) s = s.trappedAt .d 0x0B)
          ∧ (legal → e.frozen = true ∨ (∀ j ∈ all, (e.dom j).mode = 0) → u.dArea (s.getS d) (16 + n) .write = .ok ks →
              Runs (.dsave g d a) s fun t =>
                ((u.putArea ks (e.image first n)).mapOcc fun o => { o with beats := e.doms.map Dom.beat }).ThenMoved t .d 1))
      ∧ (∀ ks, u.dArea (s.getS d) 16 .write = .ok ks → e.frozen = true ∨ (∀ j ∈ all, (e.dom j).mode = 0) →
          Runs (.dsaveTq g d) s fun t => (u.putArea ks e.queues).ThenMoved t .d 1)
      ∧ (∀ hs head ks bs, e.frozen = true ∨ (∀ j ∈ all, (e.dom j).mode = 0) →
          u.dArea (s.getS d) 16 .read = .ok hs → u.getArea (s.getS d) hs = .ok head →
          (headerOk head = false → exec (.drest g d) s = s.trappedAt .d 0x0B)
          ∧ (headerOk head = true → u.dArea (s.getS d) (16 + imgAt head 4 2) .read = .ok ks →
              u.getArea (s.getS d) ks = .ok bs →
              ((∃ i < imgAt head 4 2, cellOk (imgCell bs i) = false) → exec (.drest g d) s = s.trappedAt .d 0x0B)
              ∧ ((∀ i < imgAt head 4 2, cellOk (imgCell bs i) = true) → Runs (.drest g d) s fun t =>
                  let r := e.restore bs
                  (u.drain.setDda { r with doms := r.doms.mapIdx fun j m =>
                    { m with beat := m.mode == 1 && s.occ.beats.getD j false } }).ThenMoved t .d 1)))
      ∧ (∀ ks bs, e.frozen = true ∨ (∀ j ∈ all, (e.dom j).mode = 0) →
          u.dArea (s.getS d) 16 .read = .ok ks → u.getArea (s.getS d) ks = .ok bs →
          let legal := ∀ k < 16, queueOk (e.tap k) (imgAt bs (16 * k) 16) = true
          (¬ legal → exec (.drestTq g d) s = s.trappedAt .d 0x0B)
          ∧ (legal → ∃ e', e' = { e with taps := e'.taps }
              ∧ (∀ k < 16, e'.tap k = { e.tap k with
                  fifo := (List.range (e.tap k).aside).map (fun n =>
                    match imgAt bs (16 * k) 16 / 4 ^ n % 4 with | 3 => -1 | 1 => 1 | _ => 0) ++ (e.tap k).fifo, aside := 0 })
              ∧ Runs (.drestTq g d) s fun t => (u.drain.setDda e').ThenMoved t .d 1)))
    ∧ (mine → Runs (.dstatStat g d) s fun t => u.WroteS t .d 1 d (e.stat true))
    ∧ (¬ mine → Runs (.dstatStat g d) s fun t => u.WroteS t .d 1 d (if s.core.dda.owner.isSome then 1024 else 0))
    ∧ (4 ≤ x → exec (.dstatSteps g d a) s = s.trappedAt .d 0x0B)
    ∧ (x < 4 → mine → Runs (.dstatSteps g d a) s fun t => u.WroteS t .d 1 d (BitVec.ofNat 64 (e.dom x).steps))
    ∧ (x < 4 → ¬ mine → Runs (.dstatSteps g d a) s fun t => u.WroteS t .d 1 d 0)
    ∧ (∀ c : Cell, let unit := fun (z : Int) => z = -1 ∨ z = 0 ∨ z = 1
        unit c.dz → unit c.ldx → unit c.ldy0 → unit c.ldy1 → c.patch.toNat < 2 ^ 43 →
        c.bytes.length = 16 ∧ cellOf (ofBytes c.bytes) = c)

/-! ## Beams, rays, guide tiles and ordered sections -/

/-- R434: the reads of a scene are counted in pieces of 16 bytes, each at the die whose HBM holds it. -/
def sceneReadsAreCounted : Prop :=
  ∀ (s : State) (rs : Reads) (key : DWord → Nat),
    let pieces := rs.flatMap fun r => (List.range r.2).map fun j => r.1 + BitVec.ofNat 64 (16 * j)
    (∀ p ∈ pieces, s.keyOf 0 0 0 p 16 .read {} = .ok (key p)) →
    s.countScene rs = { s with dies := (s.countScene rs).dies }
    ∧ ∀ d, let here := pieces.filter fun p => hbmDie (key p) == some d
        (s.countScene rs).dieAt d =
          if here = [] then s.dieAt d else { s.dieAt d with hbmrd := ((s.dieAt d).hbmrd + 16 * here.length) % 2 ^ 64 }

/-- R263, R266, R267, R271 to R276, R434: BVHSET takes a scene and the depth of the ray stacks; BEAM fills a slot with the candidates of a tile;
RAY gives each lane the guide values of its pixel; among hits the least parameter, then PID, then address wins, and a hit lies on
its triangle and within the limits of the ray. The model's own choices in it: log 14, 15. Completes: bvhset, beam, ray, ray64. -/
def Obligations.ScenesBeamsAndRays : Prop :=
  sceneReadsAreCounted
  ∧ (∀ (f : VF) (x : VX) (s : State), s.lanes .b f ≠ [] →
    let a := s.occ.getS (f.b.toNat % 64)
    let d := x.imm.toNat
    (s.CountOk (.bvhset f x) →
      (a.toNat % 64 ≠ 0 → exec (.bvhset f x) s = s.trapped .b 4 0 a)
      ∧ (a.toNat % 64 = 0 → s.occ.lanePriv < 8 * d → exec (.bvhset f x) s = s.trapped .b 7 0
          (BitVec.ofNat 64 ((s.occ.lanePriv + 2 ^ 32 - 8 * d) % 2 ^ 32)))
      ∧ (∀ bs, a.toNat % 64 = 0 → 8 * d ≤ s.occ.lanePriv → s.sceneRange = .ok () → s.drain.readScene 0 a 8 = .ok bs →
          let dim := fun (off : Nat) => 1 ≤ bytesAt bs off 2 ∧ bytesAt bs off 2 ≤ 8192
          let legal := dim 112 ∧ dim 114 ∧ bytesAt bs 116 12 = 0 ∧ bytesAt bs 0 8 / 2 ^ 54 % 2 ^ 8 = 0
          (¬ legal → exec (.bvhset f x) s = s.trapped .b 0x0B 0 a)
          ∧ (legal → Runs (.bvhset f x) s fun t => ((s.drain.countScene [(a, 8)]).mapOcc fun o =>
              { o with scene := some (a, bs), rayDepth := d, beams := [] }).ThenMoved t .b 2)))
    ∧ (s.CountOk (.beam f x) →
      let n := a.toNat
      let tx := n % 2 ^ 16
      let ty := n / 2 ^ 16 % 2 ^ 16
      (s.occ.scene = none → exec (.beam f x) s = s.trappedAt .b 0x0B)
      ∧ (∀ at' desc, s.occ.scene = some (at', desc) →
        let legal := n < 2 ^ 32 ∧ tx < bytesAt desc 112 2 ∧ ty < bytesAt desc 114 2
        (¬ legal → exec (.beam f x) s = s.trappedAt .b 0x0B)
        ∧ (legal → s.sceneRange = .ok () → Ref.of? (bytesAt desc 0 8) = none → exec (.beam f x) s = s.trapped .b 0x0B 0 at')
        ∧ (∀ root cands split reads, legal → s.sceneRange = .ok () → Ref.of? (bytesAt desc 0 8) = some root →
            let c := Desc.camera desc
            s.drain.cast ((c.map fun c => c.planes tx ty).getD []) ((c.map (·.o)).getD ⟨0, 0, 0⟩) traceFuel [root] [] [] =
              .ok ((cands, split), reads) →
            Runs (.beam f x) s fun t => ((s.drain.countScene reads).mapOcc fun o => { o with
              beams := setAt BeamSlot.none o.beams (x.c.toNat % 16) { valid := true, split, tx, ty, cands } }).ThenMoved t .b 2)))
    ∧ (let ls := s.lanes .b f
       let first : DWord := BitVec.ofNat 64 (ls.headD 0)
       let px := fun (i : Nat) => (s.occ.getV f.a.toNat i).toNat % 2 ^ 16
       let py := fun (i : Nat) => (s.occ.getV f.a.toNat i).toNat / 2 ^ 16
       let depth := s.occ.rayDepth
       let stack := [s.range 4 0 (s.occ.lanePriv - 8 * depth) (8 * depth) true]
       let bottom := fun (i : Nat) => laneKey s.occ.lanePrivBase i (s.occ.lanePriv - 8 * depth)
       let ray := fun (i : Instr) (n : Nat) => s.CountOk i →
        (s.occ.scene = none ∨ depth = 0 → exec i s = s.trapped .b 0x0B first (s.pcOf .b))
        ∧ (∀ at' desc, s.occ.scene = some (at', desc) → depth ≠ 0 →
          let inside := fun (l : Nat) => px l < 8 * bytesAt desc 112 2 ∧ py l < 8 * bytesAt desc 114 2
          (∀ p l q, ls = p ++ l :: q → (∀ k ∈ p, inside k) → ¬ inside l →
            exec i s = s.trapped .b 0x0B (BitVec.ofNat 64 l) (s.pcOf .b))
          ∧ (∀ g : Nat → (Guide × Bool) × Reads, (∀ l ∈ ls, inside l) → s.sceneRange = .ok () → s.checkRanges stack = .ok () →
              s.checkStreams .b stack = .ok () → (∀ l ∈ ls, s.drain.rayLane (at', desc) (px l) (py l) l = .ok (g l)) →
              Runs i s fun t => s.SameP t ∧ s.SameS t ∧ s.SameQ t ∧ s.Moved t .b n
                ∧ s.WroteRange t ls f.d.toNat 4 (fun l k =>
                    match k with
                    | 0 => (g l).1.1.id | 1 => (g l).1.1.depth | 2 => (g l).1.1.normal | _ => (g l).1.1.motion)
                ∧ (∀ d, t.dieAt d = (s.drain.countScene (ls.flatMap fun l => (g l).2)).dieAt d)
                ∧ (s.mem.wf = true → ∀ k, (∀ l ∈ ls, (g l).1.2 = false ∨ k < bottom l ∨ bottom l + 8 * depth ≤ k) → t.mem.get k = s.drain.mem.get k)))
       ray (.ray f) 1 ∧ ray (.ray64 f x) 2))
  ∧ (∀ (ray : Ray) (rs : List Record),
      (rs.foldl ray.best none = none ↔ ∀ r ∈ rs, ray.hits r = none)
      ∧ (∀ h, rs.foldl ray.best none = some h → h.rcd ∈ rs ∧ ray.hits h.rcd = some h.t
          ∧ ∀ r ∈ rs, ∀ t, ray.hits r = some t → h.t < t ∨ (h.t = t ∧ (Record.pid h.rcd < Record.pid r
              ∨ (Record.pid h.rcd = Record.pid r ∧ h.rcd.1.toNat ≤ r.1.toNat)))))
  ∧ (∀ (ray : Ray) (r : Record) (v e1 e2 : V3) (t : Rat), Record.triangle r = some (v, e1, e2) → ray.hits r = some t →
      (∃ b1 b2 : Rat, 0 ≤ b1 ∧ 0 ≤ b2 ∧ b1 + b2 ≤ 1 ∧ ray.o.add (ray.d.scale t) = v.add ((e1.scale b1).add (e2.scale b2)))
      ∧ (∀ l, ray.least = some l → l ≤ t) ∧ ∀ u, ray.greatest = some u → t ≤ u)

/-- R269, R274, R277 to R284: BRES and BSPLIT hand a slot to the lanes; COVER and GBST store guide values into a tile of UNIT
memory; BSTAT reads the slot, the scene and the order token; ROBEG waits for its turn and takes the token, and ROEND passes the
turn on. The model's own choices in it: log 15, 67, 81. Completes: bres, bsplit, cover, robeg, roend, gbst, bstatSlot, bstatScene,
bstatDepth, bstatOrd, bstatOrda. -/
def Obligations.GuideTilesAndOrder : Prop :=
  ∀ (f : VF) (x : VX) (s : State), s.lanes .b f ≠ [] →
    let ls := s.lanes .b f
    let slot := s.occ.beam x
    let base := x.imm.toNat % 64
    let fits := base + s.occ.width ≤ 64
    let regs := fun (t : State) => s.OnlyRegs t ∧ s.BytesSame t ∧ s.SameP t ∧ s.SameS t ∧ s.SameQ t ∧ s.Moved t .b 2
    (s.CountOk (.bres f x) →
      (¬ (slot.valid = true ∧ fits) → exec (.bres f x) s = s.trappedAt .b 0x0B)
      ∧ (slot.valid = true → fits → Runs (.bres f x) s fun t => regs t ∧ s.WroteV t ls true f.d.toNat fun l =>
          (match slot.cands[base + l]? with | some r => r.1.toNat | none => 0)))
    ∧ (s.CountOk (.bsplit f x) →
      (¬ (slot.valid = true ∧ fits) → exec (.bsplit f x) s = s.trappedAt .b 0x0B)
      ∧ (slot.valid = true → fits → Runs (.bsplit f x) s fun t => regs t ∧ s.WroteV t ls false f.d.toNat fun l =>
          (8 * slot.tx + (base + l) % 8) + (8 * slot.ty + (base + l) / 8) * 2 ^ 16))
    ∧ (∀ ks k0, s.tileKeys f = .ok ks → ks = (List.range 16).map (fun j => k0 + 64 * j) →
        let tile := fun (t : State) => s.SameRegs t ∧ s.BytesSame t ∧ s.Moved t .b 2
          ∧ ∀ k, (k < k0 ∨ k0 + 1024 ≤ k) → t.peek k = s.peek k
        let holds := fun (t : State) (q id depth normal motion : Nat) =>
          t.seen (k0 + 4 * q) 4 = id % 2 ^ 32 ∧ t.seen (k0 + 256 + 2 * q) 2 = depth % 2 ^ 16
          ∧ t.seen (k0 + 384 + 4 * q) 4 = normal % 2 ^ 32 ∧ t.seen (k0 + 640 + 4 * q) 4 = motion % 2 ^ 32
        let tail := fun (t : State) => t.seen (k0 + 896) 2 = slot.tx % 2 ^ 16 ∧ t.seen (k0 + 898) 2 = slot.ty % 2 ^ 16
          ∧ t.seen (k0 + 900) 124 = 0
        (s.CountOk (.cover f x) →
          (slot.valid = false ∨ slot.split = true ∨ s.occ.scene = none → exec (.cover f x) s = s.trappedAt .b 0x0B)
          ∧ (∀ at' desc, slot.valid = true → slot.split = false → s.occ.scene = some (at', desc) →
              Runs (.cover f x) s fun t => tile t ∧ tail t ∧ ∀ q < 64,
                let g := Desc.pixel desc (8 * slot.tx + q % 8) (8 * slot.ty + q / 8) slot.cands
                holds t q g.id g.depth g.normal g.motion))
        ∧ (s.CountOk (.gbst f x) →
          (¬ fits ∨ (base = 0 ∧ slot.valid = false) → exec (.gbst f x) s = s.trappedAt .b 0x0B)
          ∧ (fits → base ≠ 0 ∨ slot.valid = true → Runs (.gbst f x) s fun t => tile t ∧ (base = 0 → tail t)
              ∧ ∀ l ∈ ls, let v := fun (r : Nat) => (s.occ.getV (f.a.toNat + r) l).toNat
                  holds t (base + l) (v 0) (v 1) (v 2) (v 3))))
    ∧ (let d : BitVec 6 := f.d.setWidth 6
       (s.CountOk (.bstatSlot f x) → Runs (.bstatSlot f x) s fun t => s.WroteS t .b 2 d (BitVec.ofNat 64
          (slot.cands.length + slot.valid.toNat * 2 ^ 8 + slot.split.toNat * 2 ^ 9 + slot.tx * 2 ^ 16 + slot.ty * 2 ^ 32)))
       ∧ (s.CountOk (.bstatScene f x) → Runs (.bstatScene f x) s fun t =>
          s.WroteS t .b 2 d (match s.occ.scene with | some p => p.1 | none => 0))
       ∧ (s.CountOk (.bstatDepth f x) → Runs (.bstatDepth f x) s fun t => s.WroteS t .b 2 d (BitVec.ofNat 64 s.occ.rayDepth))
       ∧ (s.CountOk (.bstatOrd f x) → Runs (.bstatOrd f x) s fun t =>
          s.WroteS t .b 2 d (match s.occ.token with | some p => BitVec.ofNat 64 (p.2 + 2 ^ 63) | none => 0))
       ∧ (s.CountOk (.bstatOrda f x) → Runs (.bstatOrda f x) s fun t =>
          s.WroteS t .b 2 d (match s.occ.token with | some p => p.1 | none => 0)))
    ∧ (s.CountOk (.robeg f x) →
        let a := s.occ.getS (f.a.toNat % 64)
        let n := (s.occ.getS (f.b.toNat % 64)).toNat
        let sp := packedSpace a
        let legal := (sp = 0 ∨ sp = 2 ∨ sp = 3) ∧ a.extractLsb' 48 13 = 0
        let restoring := s.occ.trapLevel = true ∧ s.occ.tcause.toNat % 64 = 0x1F ∧ s.occ.tinfo.getLsbD 63 = true
        let free := s.occ.token = none ∨ (restoring ∧ s.occ.token = some (a, n))
        (¬ legal → exec (.robeg f x) s = s.trappedAt .b 0x0B)
        ∧ (legal → a.toNat % 4 ≠ 0 → exec (.robeg f x) s = s.trapped .b 4 0 (packedOff a))
        ∧ (legal → a.toNat % 4 = 0 → 2 ^ 32 ≤ n → exec (.robeg f x) s = s.trappedAt .b 0x0B)
        ∧ (∀ u k v, legal → a.toNat % 4 = 0 → n < 2 ^ 32 → s.readAt .b sp 0 (packedOff a) 4 = .ok (u, k, v) →
            (¬ free ∨ n < v → exec (.robeg f x) s = s.trappedAt .b 0x0B)
            ∧ (free → v < n → exec (.robeg f x) s = .next (s.beginWait 8 a n n))
            ∧ (free → v = n → Runs (.robeg f x) s fun t =>
                ((u.drain.countRead k 4).mapOcc fun o => { o with token := some (a, n) }).ThenMoved t .b 2)))
    ∧ (s.CountOk (.roend f) →
        (s.occ.token = none → exec (.roend f) s = s.trappedAt .b 0x0B)
        ∧ (∀ a n k, s.occ.token = some (a, n) → s.accessAt .b (packedSpace a) 0 (packedOff a) 4 .write = .ok k →
            Runs (.roend f) s fun t => (((s.drain.poke k (toBytes 4 (n + 1))).countWrite k 4).mapOcc fun o =>
              { o with token := none }).ThenMoved t .b 1 ∧ (s.mem.wf = true → t.mem.getN k 4 = (n + 1) % 2 ^ 32)))

/-! ## Placement, parked work, contexts and the host -/

/-- R12, R19, R21, R300, R319, R351, R354, R356: a controller starts the next team of the launch whose turn it is, later teams once
their stagger has passed, and ready tasks of its queues; an item passed over for 1,048,576 cycles is marked. The model's own choices
in it: log 22, 32. Completes: taskStart, teamPlace, teamStaggerStart, passoverLimit. -/
def Obligations.ControllersPlaceTeamsAndTasks : Prop :=
  ∀ (s : State) (launch : Nat) (pls : List Place) (l : Launch), s.launch? launch = some l →
    let die := dieOf pls
    let begun := ∃ p ∈ l.lastStart, p.1 = die
    let more := l.next < l.record.teams
    let starts := fun (i : Instr) => ∀ u, s.startTeam launch pls = some u → exec i s = .next u
    (s.launchTurn l die = true → s.toResume launch = [] → more → l.record.cosched = false → ¬ begun →
      starts (.teamPlace launch pls) ∧ (s.startTeam launch pls = none → exec (.teamPlace launch pls) s = .next s))
    ∧ (∀ u, s.launchTurn l die = true → s.toResume launch = [] → more → l.record.cosched = true →
        s.startAll l pls = some u → exec (.teamPlace launch pls) s = .next u)
    ∧ (∀ u, s.launchTurn l die = true → s.toResume launch ≠ [] → s.resumeNext l (s.toResume launch) pls = some u →
        exec (.teamPlace launch pls) s = .next u)
    ∧ (s.launchTurn l die = false → exec (.teamPlace launch pls) s = .next s
        ∧ exec (.teamStaggerStart launch pls) s = .next s)
    ∧ (s.launchTurn l die = true → s.toResume launch = [] → more → l.record.cosched = false → begun →
        (s.staggerOk l die = true → starts (.teamStaggerStart launch pls))
        ∧ (s.staggerOk l die = false → exec (.teamStaggerStart launch pls) s = .next s))
    ∧ (∀ u, s.startTeam launch pls = some u → ∃ team gs,
        u.teams = s.teams ++ [team] ∧ team.launch = launch ∧ team.index = l.next ∧ team.live = l.record.groups
        ∧ team.unitSize = l.record.teamScr ∧ u.me = s.me ∧ u.others = s.others ++ gs ∧ gs.length = l.record.groups
        ∧ ∀ g ∈ gs, g.run = .running ∧ g.ctx = l.ctx ∧ g.under = [] ∧ g.place ∈ pls
            ∧ g.occ.team = team.uid ∧ g.occ.task = 0 ∧ g.occ.launch = l.id ∧ g.occ.ngroup = l.record.groups
            ∧ g.occ.group < l.record.groups ∧ g.occ.width = l.record.width ∧ g.occ.count = l.record.regs
            ∧ g.occ.pcs = Pcs.all (lineOf64 l.record.entry + 4) ∧ g.occ.trapLevel = false ∧ g.occ.parkt = 20000
            ∧ g.occ.getS 1 = l.record.arg ∧ g.occ.getS 2 = l.record.teamIdx l.next
            ∧ g.occ.flow.mask = allLanes l.record.width)
    ∧ (∀ ctx task place r card u,
        s.ready.find? (fun r => r.ctx == ctx && r.task == task) = some r → s.card? ctx task = some card →
        fieldAt card 0x14 1 = 2 → Config.isTile place.core = cardTile card → r.die = Config.coreDie place.core →
        r.cluster = Config.clusterOf place.core →
        s.groupFits place (16 * 2 ^ fieldAt card 0x15 1) (fieldAt card 0x18 2) (fieldAt card 0x1A 2) = true →
        r.slot = none → mayStart { s.readyItem r with fits := true } (s.itemsBut r.die 0 (some r)) = true →
        s.startTask r card place = some u → Runs (.taskStart ctx task place) s fun t => t = u
          ∧ ∃ os g, t.others = os ++ [g] ∧ g.run = .running ∧ g.place = place ∧ g.ctx = ctx ∧ g.under = [])
    ∧ (∀ die item, Runs (.passoverLimit die item) s fun t =>
        t = { s with launches := t.launches, ready := t.ready }
        ∧ t.launches.length = s.launches.length ∧ t.ready.length = s.ready.length
        ∧ (∀ m ∈ s.launches, m.uid = item → m ∈ s.heldLaunches die → 1048576 ≤ (s.dieAt die).cyc - m.since die (s.dieAt die).didt →
            s.launchFits m die = false → die ∉ m.passed → { m with passed := die :: m.passed } ∈ t.launches)
        ∧ (∀ m ∈ s.launches, m.uid ≠ item → m ∈ t.launches)
        ∧ (∀ r ∈ s.ready, r.task = item → r.die = die → 1048576 ≤ (s.dieAt die).cyc - r.stamp → (s.readyItem r).fits = false →
            { r with passed := true } ∈ t.ready))

/-- R133, R138, R305: a write sets off the watches that cover a byte of it, and no other; the watch of a parked wait has fired when a
byte that it covers was written, when what the object reads has differed, or when the wait could end as its object now stands. -/
def watchesFireOnAChange : Prop :=
  (∀ (s : State) (k : Nat) (bs : List Byte), (s.poke k bs).watching = s.watching.map fun x =>
      if x.lo < k + bs.length ∧ k < x.hi then { x with fired := true } else x)
  ∧ ∀ (s : State) (w : Wait),
    (s.watchFired w = true ↔ s.waitOver w = true ∨ w.moved = true ∨ s.waitMark w ≠ w.mark
      ∨ ∃ x ∈ s.watching, x.gid = s.me.gid ∧ x.fired = true)
    ∧ (∀ k, s.waitedKey w.obj 0 4 = some k → s.waitedKey w.obj 4 4 = some (k + 4) → w.kind = 2 →
        (s.waitOver w = true ↔ w.detail ≤ s.mem.getN k 4 ∨ 2 ^ 31 ≤ s.mem.getN (k + 4) 4))
    ∧ (w.kind = 3 → (s.waitOver w = true ↔ s.mem.getN (s.ringKey w) 4 ≠ 0))
    ∧ (∀ k, s.objectKey? w.obj = some k → (w.kind = 4 → (s.waitOver w = true ↔ s.mem.getN (k + 14) 1 ≠ 0))
        ∧ (w.kind = 5 → (s.waitOver w = true ↔ s.mem.getN k 4 ≠ w.owner)))
    ∧ (∀ k, s.waitedKey w.obj 0 8 = some k → w.kind = 6 → (s.waitOver w = true ↔ s.mem.getN k 8 = 0))
    ∧ (∀ k, s.waitedKey w.obj 0 4 = some k → w.kind = 8 → (s.waitOver w = true ↔ w.detail ≤ s.mem.getN k 4))
    ∧ (w.kind = 12 → (s.waitOver w = true ↔ s.dieListUsed s.me.ctx s.die < 4096))
    ∧ (w.kind = 15 → (s.waitOver w = true ↔ s.tokens ≠ 0))
    ∧ (w.kind = 16 → (s.waitOver w = true ↔ s.core.dda.owner = none))
    ∧ (w.kind = 13 ∨ w.kind = 17 → s.waitOver w = true)
    ∧ (∀ t, s.team? s.occ.team = some t → w.kind = 7 → t.claims.head? = some s.occ.group → w.detail * s.occ.width ≤ t.credit →
        s.waitOver w = true)
    ∧ (∀ t, s.team? s.occ.team = some t → w.kind = 7 → t.claims.head? ≠ some s.occ.group → s.waitOver w = false)

/-- R138, R299, R303, R423: a parked slot that is re-queued is resumable, waits for nothing and is watched no more; its bottom task
enters the ready queue of the cluster where it parked, and a slot of a team with adopted occupants enters it by itself. -/
def requeuedSlotsAreReady : Prop :=
  ∀ (s : State) (id : Nat) (g : Group) (w : Wait), ((s.me :: s.others).map (·.gid)).Nodup → s.group? id = some g →
    g.run = .waitPark false → g.occ.parked = some w →
    let t := s.requeue id
    let b := g.bottom
    let d := Config.coreDie g.place.core
    let home := match s.taskInfo? g.ctx b.task with | some i => i.home | none => (0, 0)
    t.group? id = some { g with run := .waitPark true, occ := { g.occ with parked := none } }
    ∧ t.watching.filter (fun x => x.gid == id) = []
    ∧ (w.kind ≠ 4 → w.kind ≠ 5 → t.mem = s.mem)
    ∧ (∀ k, (s.seenBy g).objectKey? w.obj = some k → s.mem.wf = true →
        (w.kind = 4 → t.mem.getN (k + 12) 2 = s.mem.getN (k + 12) 2 - 1 ∧ s.BytesSameOutside t (k + 12) 2)
        ∧ (w.kind = 5 → t.mem.getN (k + 4) 4 = s.mem.getN (k + 4) 4 - 1 ∧ s.BytesSameOutside t (k + 4) 4))
    ∧ (b.task ≠ 0 → t.ready = s.ready ++ [
        { die := home.1, cluster := home.2, ctx := g.ctx, task := b.task, stamp := (s.dieAt home.1).cyc, core := g.place.core,
          passed := false, slot := none }])
    ∧ (b.task = 0 → g.under ≠ [] → t.ready = s.ready ++ [
        { die := d, cluster := Config.clusterOf g.place.core, ctx := g.ctx, task := 0, stamp := (s.dieAt d).cyc, core := g.place.core,
          passed := false, slot := some id }])
    ∧ (b.task = 0 → g.under = [] → t.ready = s.ready)

/-- R138, R382: which parked slots may come back by themselves: one re-queued, of a task or of a team that is neither parked nor
being pre-empted; and a pre-empted one of a task. -/
def resumableSlots : Prop :=
  ∀ (s : State) (g : Group), s.resumable g = true ↔
    (g.run = .waitPark true ∧ (g.bottom.task ≠ 0 ∨ ∃ t, s.team? g.bottom.team = some t ∧ t.preempting = false ∧ t.parked = false))
    ∨ (g.run = .preemptPark ∧ g.bottom.task ≠ 0)

/-- R219, R308, R371, R377, R380: a slot that is restored enters trap level with what the control record at its bottom save pointer
holds: its %EPC and its registers, %PARKT, %WINDOW, %ALIM, its accumulator window, cleared, its order token, its barrier wait, its
watch slots and its entry capture; the restore path begins at %TVEC with cause 0x1F, RESTORE and the kind of its wait. A record with
a reserved bit, or a window that AWIN does not take (log 80), is a nested fault. -/
def restoredFromItsRecord : Prop :=
  ∀ (s : State) (r : List Byte), s.readSave s.me.bottom.saveptr = .ok r → s.occ.sysPend = [] →
    let w := s.occ.width
    let t := s.restoreEntry s.occ.task true
    let o := t.occ
    let word := fun (off n : Nat) => recN r off n
    let dword := fun (off : Nat) => BitVec.ofNat 64 (recN r off 8)
    let bar := word 0x06C 4
    let awin := word 0xFE8 4
    let window := awin % 2 ^ 12 ≤ awin / 2 ^ 16 % 2 ^ 12 ∧ awin / 2 ^ 16 % 2 ^ 12 ≤ 3072
    let legal := recReserved r (s.readsTeam true) = true ∧ window
    let tvec := lineOf64 s.shared.tvec
    o.trapLevel = true ∧ o.wait = none
    ∧ o.epc = { k := dword 0x010, v := dword 0x018, m := dword 0x020, x := dword 0x028, d := dword 0x030, b := dword 0x038 }
    ∧ (∀ i : BitVec 6, t.getS i = if i = 0 then 0 else dword (0x080 + 8 * i.toNat))
    ∧ (∀ i < w, o.getV 0 i = BitVec.ofNat 32 (4 * i))
    ∧ o.parkt = BitVec.ofNat 64 (word 0x064 4) ∧ o.window = BitVec.ofNat 64 (word 0x063 1) ∧ t.me.alim = word 0x062 1
    ∧ o.awb = awin % 2 ^ 12 ∧ o.awl = awin / 2 ^ 16 % 2 ^ 12
    ∧ o.token = (if word 0x003 1 % 2 = 1 then some (dword 0x070, word 0x078 4) else none)
    ∧ o.owed = decide (word 0x003 1 / 2 % 2 = 1) ∧ o.fgseen = word 0x286 2
    ∧ o.barWait.map (fun b => (b.1, b.2.1)) = (if bar / 32 % 2 = 1 then some (bar % 16, decide (bar / 16 % 2 = 1)) else none)
    ∧ (∀ j < 4, let m := o.watches.getD j { addr := 0, expect := 0, attrs := 0, armed := false }
        let b := 0x2D8 + 24 * j
        m.addr = dword b ∧ m.expect = dword (b + 8) ∧ m.attrs = word (b + 16) 1 ∧ m.armed = decide (word (b + 17) 1 % 2 = 1))
    ∧ (∃ c, o.capture = some c ∧ c.flow.mask = dword 8 ∧ c.q = BitVec.ofNat 8 (word 0x280 1)
        ∧ (∀ i < w, c.v0.getD i 0 = BitVec.ofNat 32 (word (0xB40 + 4 * i) 4))
        ∧ (∀ i < 64, i ≠ 0 → c.s.getD i 0 = dword (0x080 + 8 * i))
        ∧ (∀ n < 4, c.flow.lc.getD n 0 = BitVec.ofNat 32 (word (0x288 + 4 * n) 4))
        ∧ c.flow.dspill + c.flow.div.length = word 0x282 2 ∧ c.flow.rspill + c.flow.ret.length = word 0x284 2)
    ∧ (s.readsTeam true = true → ∀ m, s.team? s.me.bottom.team = some m → ∃ m', t.team? m.uid = some m' ∧ m'.credit = word 0xFC0 4)
    ∧ (¬ legal → o.pcs = Pcs.all (tvec + 32 + 4) ∧ o.tcause.toNat % 64 = 0x0B ∧ o.tcause.getLsbD 9 = true)
    ∧ (legal → word 0xC40 512 = 0 → word 0xE40 256 = 0 → s.me.under = [] →
        o.pcs = Pcs.all (tvec + 4) ∧ o.tcause.toNat % 64 = 0x1F ∧ o.flow.mask = allLanes w ∧ o.cmds = [] ∧ o.taddr = 0
        ∧ o.tinfo = BitVec.ofNat 64 (s.occ.task + word 0x060 1 * 2 ^ 32 + 2 ^ 63)
        ∧ ∀ k, t.mem.get k =
            if accKey s.me.place.core o.awb 0 ≤ k ∧ k < accKey s.me.place.core o.awl 0 then 0 else s.mem.get k)

/-- R298, R299, R380, R423: a restored slot stands at its new place, runs, has left the ready queues, and has entered its restore
path; the card of a bottom task is STATE 3 again. -/
def restoredSlotsStandAtTheirPlace : Prop :=
  ∀ (s : State) (id : Nat) (g : Group) (place : Place) (t : State), ((s.me :: s.others).map (·.gid)).Nodup →
    s.group? id = some g → s.restoreGroup id place = some t →
    let b := g.bottom
    let s0 : State := { s with ready := s.ready.filter fun r => decide (r.slot ≠ some id) }
    ∃ v s1 : State,
      (if b.task = 0 then some s0
       else ({ s0 with ready := s0.ready.filter fun r => decide (¬ (r.ctx = g.ctx ∧ r.task = b.task)) } : State).setCard
          g.ctx b.task 0x14 1 3) = some s1
      ∧ v.mem = s1.mem ∧ v.ready = s1.ready ∧ v.dies = s.dies ∧ v.ctxs = s.ctxs ∧ v.cores = s.cores
      ∧ v.me.gid = id ∧ v.me.run = .running ∧ v.me.place = place ∧ v.occ = g.occ ∧ v.me.under.length = g.under.length
      ∧ (let u := (v.restoreEntry v.occ.task true).progressed
         t.group? id = some u.me ∧ t.mem = u.mem ∧ t.ready = u.ready ∧ u.me.place = place ∧ u.me.run = .running ∧ u.ready = s1.ready)

/-- R302, R366, R367: what a group entry of the hang log holds, field by field. -/
def hangEntriesHoldTheGroup : Prop :=
  ∀ (s : State) (g : Group) (w : Wait), g.occ.wait = some w ∨ (g.occ.wait = none ∧ g.occ.parked = some w) →
    let e := s.hangEntry g
    let o := g.occ
    let n := fun (off len : Nat) => ofBytes ((e.drop off).take len)
    let tile := Config.isTile g.place.core
    let d := Config.coreDie g.place.core
    let dda := (s.coreAt g.place.core).dda
    let parked := g.run = .preemptPark ∨ ∃ r, g.run = .waitPark r
    let pcs := if parked then o.epc else o.pcs
    e.length = 128
    ∧ n 0 4 = (2 ^ 31 + d * 2 ^ 29 + Config.coreIndex g.place.core * 2 ^ 21 + g.place.slot * 2 ^ 14) % 2 ^ 32
    ∧ n 4 4 = o.task % 2 ^ 32 ∧ n 8 4 = o.launch.toNat ∧ n 0x0C 1 = o.group % 256 ∧ n 0x0D 1 = w.kind % 256
    ∧ (n 0x0E 1 / 4 % 2 = 1 ↔ parked) ∧ (n 0x0E 1 % 2 = 1 ↔ s.hangQueued g w = true) ∧ n 0x0F 1 = g.under.length % 256
    ∧ n 0x10 8 = o.teamIdx.toNat ∧ n 0x18 8 = pcs.k.toNat ∧ n 0x20 8 = pcs.v.toNat ∧ n 0x28 8 = pcs.m.toNat
    ∧ n 0x30 8 = (if tile then pcs.x.toNat else 0) ∧ n 0x38 8 = pcs.d.toNat ∧ n 0x40 8 = (if tile then 0 else pcs.b.toNat)
    ∧ (∀ c cs, o.cmds = c :: cs → n 0x48 8 = c.addr.toNat) ∧ (o.cmds = [] → n 0x48 8 = 0)
    ∧ (∀ c cs, o.xcmds = c :: cs → n 0x50 8 = c.addr.toNat) ∧ (o.xcmds = [] → n 0x50 8 = 0)
    ∧ (∀ k r rs, dda.owner = some (g.gid, k) → dda.running = r :: rs → n 0x58 8 = r.1.toNat)
    ∧ (∀ k ev evs, dda.owner = some (g.gid, k) → dda.running = [] → dda.queue = ev :: evs → n 0x58 8 = ev.addr.toNat)
    ∧ ((∀ k, dda.owner ≠ some (g.gid, k)) → n 0x58 8 = 0)
    ∧ (w.kind ≠ 19 → n 0x60 8 = w.obj.toNat ∧ n 0x68 4 = w.owner % 2 ^ 32)
    ∧ n 0x6C 4 = (if w.kind = 2 ∨ w.kind = 7 ∨ w.kind = 8 then w.detail else 0) % 2 ^ 32
    ∧ n 0x70 8 = ((s.dieAt d).cyc - g.progress) % 2 ^ 64 ∧ n 0x78 8 = 0

/-- R367: a record goes whole into the ring of a log from the place of WRPTR on, and WRPTR follows; one that does not fit is counted
in DROPPED, and nothing of it is written. -/
def logsTakeWholeRecords : Prop :=
  ∀ (s : State) (ctx log w r size dropped : Nat) (bytes : List Byte),
    s.devRead ctx log 8 = some w → s.devRead ctx (log + 8) 8 = some r → s.devRead ctx (log + 16) 4 = some size →
    s.devRead ctx (log + 20) 4 = some dropped →
    (size < bytes.length + (w - r) → s.appendLog ctx log bytes = s.devWrite ctx (log + 20) 4 (dropped + 1))
    ∧ (bytes.length + (w - r) ≤ size → s.appendLog ctx log bytes =
        (s.devPutAt ctx ((List.range bytes.length).map fun j => (log + 64 + (w + j) % size, bytes.getD j 0))).bind fun t =>
          t.devWrite ctx log 8 (w + bytes.length))

/-- R138, R305, R366, R367, R380, R382, R423, R449: a wait that has spun for %PARKT cycles takes cause 0x1F with its kind; a parked
wait is re-queued once its object has changed; parked groups are restored from their records, and a pre-empted team is parked, whole;
a group that has made no progress for %HANGT cycles is recorded once, with every such group of its core. The model's own choices in
it: log 3, 26, 54, 68, 80, 83. Completes: parktExpiry, watchRequeue, hangTimerExpiry, groupRestore, teamParked. -/
def Obligations.WaitsParkAndComeBack : Prop :=
  watchesFireOnAChange ∧ requeuedSlotsAreReady ∧ resumableSlots ∧ restoredFromItsRecord ∧ restoredSlotsStandAtTheirPlace
  ∧ hangEntriesHoldTheGroup ∧ logsTakeWholeRecords
  ∧ ∀ (s : State), let gid := s.me.gid
    (∀ w : Wait, s.me.run = .running → s.occ.trapLevel = false → s.occ.wait = some w →
      let parks := w.kind ∈ [1, 2, 3, 4, 5, 6, 7, 8, 9, 10, 11, 12, 13, 16, 17] ∨ (w.kind = 15 ∧ w.detail = 0)
      (parks → s.occ.parkt.toNat ≤ s.cyc - w.since → Runs (.parktExpiry gid) s fun t =>
        let u := (s.enterTrap { code := 0x1F, eng := .k, info := BitVec.ofNat 64 (w.kind * 2 ^ 32), addr := 0 } s.position).mapOcc
          fun o => { o with parked := some { w with mark := s.waitMark w } }
        t = { u with me := { u.me with recorded := s.me.recorded }
                     watching := u.watching ++ (s.watchBytes w).map fun r => { gid, lo := r.1, hi := r.2, fired := false } }
        ∧ t.occ.trapLevel = true ∧ t.occ.tinfo = BitVec.ofNat 64 (w.kind * 2 ^ 32))
      ∧ (¬ parks ∨ s.cyc - w.since < s.occ.parkt.toNat → exec (.parktExpiry gid) s = .next s))
    ∧ (∀ id g w, s.group? id = some g → g.run = .waitPark false → g.occ.parked = some w →
        ((s.seenBy g).watchFired w = true → Runs (.watchRequeue id) s fun t => t = s.requeue id)
        ∧ ((s.seenBy g).watchFired w = false → exec (.watchRequeue id) s = .next s))
    ∧ (∀ id g place u, s.group? id = some g →
        (s.resumable g = true → s.restorePlace g place = true → s.restoreFits g place = true → s.restoreTurn g = true →
          s.restoreGroup id place = some u → Runs (.groupRestore id place) s fun t => t = u)
        ∧ (s.resumable g = false ∨ s.restoreFits g place = false → exec (.groupRestore id place) s = .next s))
    ∧ (∀ id t, s.team? id = some t →
        (t.preempting = true → t.parked = false → (∀ g ∈ s.teamGroups id, g.run.isParked = true) →
          Runs (.teamParked id) s fun v => v = s.parkTeam t ∧ ∃ t', v.team? id = some t' ∧ t'.parked = true ∧ t'.preempting = false)
        ∧ (t.preempting = false ∨ t.parked = true → exec (.teamParked id) s = .next s))
    ∧ (s.me.run ≠ .vacant →
        let stuck := fun (h : Group) => h.recorded = false ∧ ((s.hangWait h).isSome = true ∨ ∃ o ∈ h.occ :: h.under, o.token.isSome = true)
          ∧ s.hangtOf h ≤ (s.dieAt (Config.coreDie h.place.core)).cyc - h.progress
        let due := stuck s.me
        let reason := if s.hangWait s.me = none then 3 else 0
        (due → Runs (.hangTimerExpiry gid) s fun t => t.me.recorded = true ∧ s.SameRegs t ∧ t.occ.pcs = s.occ.pcs
          ∧ ∃ gs : List Group, (∀ h, h ∈ gs ↔ h ∈ s.groups ∧ h.ctx = s.me.ctx ∧ h.place.core = s.me.place.core ∧ stuck h)
            ∧ gs.Pairwise (fun a b => a.place.slot ≤ b.place.slot)
            ∧ t.mem = ((s.appendLog s.me.ctx s.ctx.hanglog (toBytes 2 0x48A1 ++ toBytes 1 reason ++ toBytes 1 s.die
                ++ toBytes 2 (Config.coreIndex s.me.place.core) ++ toBytes 2 gs.length ++ toBytes 8 s.tod ++ toBytes 8 (s.dieAt s.die).cyc
                ++ toBytes 4 ((gs.head?.map s.hangtOf).getD 0) ++ List.replicate 36 0 ++ gs.flatMap s.hangEntry)).getD s).mem)
        ∧ (¬ due → exec (.hangTimerExpiry gid) s = .next s))

/-- A command of a context slot ends with a result: BUSY is clear, RESULT holds it, and its vector is signalled (R405). -/
def cmdEnded (s : State) (ctx result : Nat) : State :=
  let t := s.modCtx ctx fun c => { c with busy := false, result := result }
  { t with signals := (s.ctxAt ctx).vec :: t.signals }

/-- R334, R382, R404 to R407: the commands of a context slot check its STATE and their operands, and end with a result; CREATE
zeroes the windows of the context in the die scratchpads; INVAL drops its translations; DESTROY frees what it has; a command written
while BUSY is lost. The model's own choices in it: log 40. Completes: create, preempt, resume, inval, invalComplete, lreset,
destroy, cmdWriteWhileBusy. -/
def Obligations.ContextCommandsEndWithAResult : Prop :=
  ∀ (s : State) (ctx : Nat), ctx < 64 → (∀ d ∈ s.dies, d.switching = false) →
    let c := s.ctxAt ctx
    let wrote := fun (code : DWord) => s.modCtx ctx fun c => { c with cmd := code }
    let ends := fun (i : Instr) (code : DWord) (r : Nat) => exec i s = .next (cmdEnded (wrote code) ctx r)
    (c.busy = true → ∀ i ∈ [Instr.create ctx, .preempt ctx, .resume ctx, .inval ctx, .lreset ctx, .cmdWriteWhileBusy ctx 1],
      Runs i s fun t => t = s.modCtx ctx fun c => { c with lost := true })
    ∧ (c.busy = false → c.state ≠ 0 → ends (.create ctx) 1 2)
    ∧ (c.busy = false → c.state ≠ 1 → ends (.preempt ctx) 2 2 ∧ ends (.resume ctx) 3 2 ∧ ends (.inval ctx) 4 2
        ∧ ends (.lreset ctx) 5 2)
    ∧ (c.busy = false → c.state = 0 →
      let active := fun (o : Nat) => o < s.ctxs.length ∧ (s.ctxAt o).state = 1
      let shares := ∃ o, active o ∧ (s.ctxAt o).asid = c.asid
      let meets := ∃ o, active o ∧ winsMeet c (s.ctxAt o) = true
      let inWin := fun (k : Nat) => ∃ d < 4, dieKey d (c.dieWin d).1 ≤ k ∧ k < dieKey d (c.dieWin d).1 + (c.dieWin d).2
      (c.fieldsOk = false → ends (.create ctx) 1 1)
      ∧ (c.fieldsOk = true → shares → ends (.create ctx) 1 3)
      ∧ (c.fieldsOk = true → ¬ shares → meets → ends (.create ctx) 1 4)
      ∧ (c.fieldsOk = true → ¬ shares → ¬ meets → s.mem.wf = true → Runs (.create ctx) s fun t =>
          (t.ctxAt ctx) = { c with cmd := 1, state := 1, nextLaunch := 1, areas := [], dieLists := [], busy := false, result := 0 }
          ∧ t.signals = c.vec :: s.signals ∧ t.me = s.me ∧ t.others = s.others
          ∧ ∀ k, (inWin k → t.mem.get k = 0) ∧ (¬ inWin k → t.mem.get k = s.mem.get k)))
    ∧ (c.busy = false → c.state = 1 →
      (s.cargTeams ctx = none → ends (.preempt ctx) 2 5 ∧ ends (.resume ctx) 3 5)
      ∧ (∀ ts, (wrote 2).cargTeams ctx = some ts → Runs (.preempt ctx) s fun t =>
          t = cmdEnded (ts.foldl State.preemptTeam (wrote 2)) ctx 0)
      ∧ (∀ ts, (wrote 3).cargTeams ctx = some ts → Runs (.resume ctx) s fun t =>
          t = cmdEnded (ts.foldl State.resumeTeamCmd (wrote 3)) ctx 0)
      ∧ (c.carg.toNat % 4096 ≠ 0 → ends (.inval ctx) 4 1)
      ∧ (c.carg.toNat % 4096 = 0 → Runs (.inval ctx) s fun t => (t.ctxAt ctx) = { c with cmd := 4, busy := true }
          ∧ t.tlb = s.tlb.filter (fun k => decide (k.ctx ≠ ctx)
              || (decide (c.carg ≠ 0) && decide (k.page ≠ c.carg.toNat % 2 ^ 48 / 2 ^ k.shift))) ∧ s.BytesSame t ∧ t.me = s.me)
      ∧ (∀ u, (wrote 5).resetList ctx = some u → Runs (.lreset ctx) s fun t => t = cmdEnded u ctx 0)
      ∧ ((wrote 5).resetList ctx = none → ends (.lreset ctx) 5 1)
      ∧ (Runs (.destroy ctx) s fun t => t = (wrote 6).beginDestroy ctx))
    ∧ (c.busy = true → c.held = false → c.cmd = 4 → Runs (.invalComplete ctx) s fun t =>
        (t.ctxAt ctx) = { c with busy := false, result := 0 } ∧ t.signals = c.vec :: s.signals
        ∧ t.tlb = s.tlb.filter (fun k => decide (k.ctx ≠ ctx)
            || (decide (c.carg ≠ 0) && decide (k.page ≠ c.carg.toNat % 2 ^ 48 / 2 ^ k.shift))))
    ∧ (c.busy = false → exec (.invalComplete ctx) s = .next s ∧ ∀ code, exec (.cmdWriteWhileBusy ctx code) s = .next s)
    ∧ (c.state = 2 →
      ((∃ g ∈ s.groups, g.ctx = ctx) → exec (.destroy ctx) s = .next s)
      ∧ ((∀ g ∈ s.groups, g.ctx ≠ ctx) → Runs (.destroy ctx) s fun t =>
          (t.ctxAt ctx) = { c with state := 0, busy := false, result := 0 } ∧ t.signals = c.vec :: s.signals ∧ s.BytesSame t
          ∧ t.launches = s.launches.filter (fun l => decide (l.ctx ≠ ctx)) ∧ t.teams = s.teams.filter (fun m => decide (m.ctx ≠ ctx))
          ∧ t.tasks = s.tasks.filter (fun m => decide (m.ctx ≠ ctx)) ∧ t.tlb = s.tlb.filter (fun k => decide (k.ctx ≠ ctx))))

/-- A register write that the device ignores sets RESULT of the service controller to 1 (R408, R409). -/
def refusedWrite (s : State) : State := { s with service := { s.service with result := 1 } }

/-- R359, R402, R403, R404, R408, R409, R434: writes of the host to registers take legal values and refuse others, and a write of a
byte counter of HBM sets it; BAR2 reads and writes bytes of HBM and nothing beyond them; a read of BAR0 answers eight bytes of its
registers and changes nothing else. Completes: powcompatWrite, didtWrite, registerWrite, hostBar2Write, hostBar2Read. -/
def Obligations.HostPortIsChecked : Prop :=
  ∀ (s : State) (die : Nat) (off : BitVec 25) (v : DWord),
    let n := v.toNat
    let o := off.toNat
    let write := exec (.registerWrite off v) s
    (die < 4 → (10 ≤ n ∧ n ≤ 400 → Runs (.didtWrite die v) s fun t => t = s.modDie die fun d => { d with didt := n })
      ∧ (n < 10 ∨ 400 < n → exec (.didtWrite die v) s = .next (refusedWrite s))
      ∧ (n ≤ 1 → n ≠ (s.dieAt die).powcompat → Runs (.powcompatWrite die v) s fun t => (t.dieAt die).powcompat = n ∧ s.BytesSame t ∧ s.SameRegs t
          ∧ s.tokens ≤ t.tokens ∧ (s.die = die → s.me.run ≠ .vacant → t.occ.power = false)
          ∧ (s.die ≠ die → t.occ = s.occ))
      ∧ (n = (s.dieAt die).powcompat → n ≤ 1 → exec (.powcompatWrite die v) s = .next s)
      ∧ (1 < n → exec (.powcompatWrite die v) s = .next (refusedWrite s)))
    ∧ (let read := fun (k : Nat) => ofBytes ((s.hostRead k).replies.headD [])
       (∀ k, ∃ bs : List Byte, bs.length = 8 ∧ s.hostRead k = { s with replies := bs :: s.replies })
       ∧ read 0 % 2 ^ 16 = 0x7716 ∧ read 0 < 2 ^ 24 ∧ read 0x08 = s.pkgid % 2 ^ 64 ∧ read 0x10 = s.powcap % 2 ^ 64
       ∧ (∀ d < 4, read (0x1000 + 0x1000 * d) = (s.dieAt d).didt % 2 ^ 64 ∧ read (0x1008 + 0x1000 * d) = (s.dieAt d).powcompat % 2 ^ 64
          ∧ read (0x1028 + 0x1000 * d) = (s.dieAt d).hbmrd % 2 ^ 64 ∧ read (0x1030 + 0x1000 * d) = (s.dieAt d).hbmwr % 2 ^ 64)
       ∧ ∀ c < 64,
          let at' := fun (i : Nat) => read (0x100000 + 0x200 * c + 8 * i)
          let word := fun (i : Nat) => ((s.ctxAt c).desc.getD i 0).toNat
          (∀ i < 18, i ≠ 1 → i ≠ 4 → at' i = word i) ∧ at' 4 = word 4 % 2 ^ 40 ∧ (∀ i < 32, 18 ≤ i → at' i = 0)
          ∧ ((s.ctxAt c).state < 256 → at' 1 = word 1 % 2 ^ 16 + (s.ctxAt c).state * 2 ^ 16 + word 1 / 2 ^ 24 % 2 * 2 ^ 24
              + word 1 / 2 ^ 32 * 2 ^ 32)
          ∧ read (0x100110 + 0x200 * c) = (s.ctxAt c).busy.toNat + 2 * (s.ctxAt c).lost.toNat + 256 * ((s.ctxAt c).result % 256))
    ∧ (o % 8 ≠ 0 → write = .next s)
    ∧ (o = 0x08 → (n < 64 → (∀ l ∈ s.links, l.failed = true) → write = .next { s with pkgid := n })
        ∧ (64 ≤ n ∨ (∃ l ∈ s.links, l.failed = false) → write = .next (refusedWrite s)))
    ∧ (o = 0x10 → (1400 ≤ n ∧ n ≤ 2600 → write = .next { s with powcap := n })
        ∧ (n < 1400 ∨ 2600 < n → write = .next (refusedWrite s)))
    ∧ (o = 0x18 → n = 1 → write = exec .update s) ∧ (o = 0x18 → n = 2 → write = exec .commit s)
    ∧ (o = 0x18 → n = 3 → write = exec .retire s) ∧ (o = 0x18 → n = 4 → write = exec .recal s)
    ∧ (o = 0x20 → write = .next { s with service := { s.service with svcarg := v } })
    ∧ (∀ d < 4, (o = 0x1000 + 0x1000 * d → write = exec (.didtWrite d v) s)
        ∧ (o = 0x1008 + 0x1000 * d → write = exec (.powcompatWrite d v) s)
        ∧ (o = 0x1028 + 0x1000 * d → write = .next (s.modDie d fun x => { x with hbmrd := n }))
        ∧ (o = 0x1030 + 0x1000 * d → write = .next (s.modDie d fun x => { x with hbmwr := n })))
    ∧ (∀ c < 64, (o = 0x100100 + 0x200 * c → (n = 1 → write = exec (.create c) s) ∧ (n = 2 → write = exec (.preempt c) s)
          ∧ (n = 3 → write = exec (.resume c) s) ∧ (n = 4 → write = exec (.inval c) s) ∧ (n = 5 → write = exec (.lreset c) s))
        ∧ (o = 0x100108 + 0x200 * c → write = .next (s.modCtx c fun x => { x with carg := v }))
        ∧ (∀ i < 32, o = 0x100000 + 0x200 * c + 8 * i → (s.ctxAt c).state = 0 → i ≠ 1 → Runs (.registerWrite off v) s fun t =>
            s.BytesSame t ∧ ∀ j, ((t.ctxAt c).desc.getD j 0) = if j = i then v else (s.ctxAt c).desc.getD j 0))
    ∧ (∀ (pa : BitVec 39) (bytes : List Byte), let k := pa.toNat
        let inHbm := fun (m : Nat) => ∀ i < m, k + i < 2 ^ 39 ∧ (k + i) % 2 ^ 37 < 96 * 2 ^ 30
        (inHbm bytes.length → s.mem.wf = true → Runs (.hostBar2Write pa bytes) s fun t => s.BytesSameOutside t k bytes.length
          ∧ (∀ i < bytes.length, t.mem.get (k + i) = bytes.getD i 0) ∧ t.me = s.me ∧ t.others = s.others)
        ∧ (¬ inHbm bytes.length → exec (.hostBar2Write pa bytes) s = .next s)
        ∧ (∀ m, (inHbm m → Runs (.hostBar2Read pa m) s fun t => s.BytesSame t ∧ t.me = s.me
              ∧ t.replies = ((List.range m).map fun i => s.mem.get (k + i)) :: s.replies)
            ∧ (¬ inHbm m → exec (.hostBar2Read pa m) s = .next { s with replies := [] :: s.replies })))

/-- A service command ends with a result, and vector 0 is signalled (R414). -/
def svcEnded (s : State) (result : Nat) : State :=
  { s with service := { s.service with busy := false, result := result }, signals := 0 :: s.signals }

/-- An image verifies (R413): one of the fused key digests whose slot is not revoked signs it, and its SVN is not below the fused
minimum. -/
def imageVerifies (v : Service) (img : Nat) : Prop :=
  (∃ k ∈ v.keys, k.2 = false ∧ Config.signatureOk img k.1 = true) ∧ v.minSvn ≤ Config.imageSvn img

/-- R415: the switch of a die ends: its events are logged. With a good self-test the die runs the staged firmware, and the next one
switches, or the UPDATE ends with 0; a failed one takes every die back to what it ran before, and the UPDATE ends with 6. -/
def diesSwitchOneByOne : Prop :=
  ∀ (s : State) (die : Nat) (rest : List Nat), (s.dieAt die).switching = true → s.service.toSwitch = die :: rest →
    (∀ c, (s.ctxAt c).held = false) →
    let v := s.service
    let logged := ((s.dieAt die).queued.foldl (fun (t : State) r => (t.appendLog r.1 (t.ctxAt r.1).evlog r.2).getD t) s).modDie die
      fun d => { d with queued := [], switching := false }
    let new := v.staged.getD (s.dieAt die).svn
    let ended := fun (t : State) (result : Nat) =>
      t = { logged with dies := t.dies, signals := 0 :: s.signals
                        service := { v with staged := none, toSwitch := [], busy := false, result := result } }
    (Runs (.firmwareSwitchEnd die false) s fun t => ended t 6
      ∧ ∀ d, t.dieAt d = if d < 4 then { logged.dieAt d with svn := v.before.getD d (logged.dieAt d).svn } else logged.dieAt d)
    ∧ (rest = [] → Runs (.firmwareSwitchEnd die true) s fun t => ended t 0
      ∧ ∀ d, t.dieAt d = if d = die then { logged.dieAt d with svn := new } else logged.dieAt d)
    ∧ (∀ next others, rest = next :: others → next ≠ die → Runs (.firmwareSwitchEnd die true) s fun t =>
      t = { logged with dies := t.dies, service := { v with toSwitch := rest } }
      ∧ ∀ d, t.dieAt d = if d = die then { logged.dieAt d with svn := new }
          else if d = next then { logged.dieAt d with switching := true } else logged.dieAt d)

/-- R362 to R365, R400, R413 to R415, R418: a service command is lost while one is busy; UPDATE verifies the image before the dies
switch one after the other, a failed self-test takes all back, and COMMIT raises the fused minimum to the SVN of the running firmware;
RETIRE schedules a unit, RECAL restores a channel; each sample sets the throttle level by the power of the package. The model's own
choices in it: log 19, 20. Completes: telemetrySample, update, commit, retire, recal, bootVerify, firmwareSwitchEnd. -/
def Obligations.ServiceCommandsAndTelemetry : Prop :=
  diesSwitchOneByOne
  ∧ ∀ (s : State),
    let v := s.service
    let wrote := fun (code : DWord) => ({ s with service := { v with svccmd := code } } : State)
    let img := s.mem.getN stagingKey v.svcarg.toNat
    let a := v.svcarg.toNat
    let cls := a % 16
    let unit := a / 2 ^ 16 % 2 ^ 16
    let clean := unitThere cls (a / 16 % 4) unit = true ∧ a / 64 % 2 ^ 10 = 0 ∧ a < 2 ^ 32
    (v.busy = true → ∀ i ∈ [Instr.update, .commit, .retire, .recal],
      exec i s = .next { s with service := { v with lost := true } })
    ∧ (v.busy = false →
      (a = 0 ∨ 2 ^ 24 < a → exec .update s = .next (svcEnded (wrote 1) 1))
      ∧ (a ≠ 0 → a ≤ 2 ^ 24 → ¬ imageVerifies v img →
          exec .update s = .next (svcEnded (wrote 1) 6))
      ∧ (a ≠ 0 → a ≤ 2 ^ 24 → imageVerifies v img → Runs .update s fun t =>
          t = ({ wrote 1 with service := { v with svccmd := 1, busy := true, staged := some (Config.imageSvn img),
                                                  toSwitch := [0, 1, 2, 3], before := s.dies.map Die.svn } } : State).modDie 0
            fun d => { d with switching := true })
      ∧ (a ≠ 0 → exec .commit s = .next (svcEnded (wrote 2) 1))
      ∧ (∀ n, a = 0 → (∃ d ∈ s.dies, d.svn = n) → (∀ d ∈ s.dies, n ≤ d.svn) → Runs .commit s fun t =>
          t = svcEnded ({ wrote 2 with service := { v with svccmd := 2, minSvn := max v.minSvn n } }) 0)
      ∧ (¬ clean → exec .retire s = .next (svcEnded (wrote 3) 1) ∧ exec .recal s = .next (svcEnded (wrote 4) 1))
      ∧ (clean → Runs .retire s fun t =>
          t = svcEnded ((wrote 3).scheduleRetire cls (a / 16 % 4) unit) 0
          ∧ (cls, unit) ∈ (t.dieAt (a / 16 % 4)).retiring)
      ∧ (cls = 7 → clean → exec .recal s = .next (svcEnded (wrote 4) 0))
      ∧ (cls = 8 → clean → unit < 4 → Runs .recal s fun t => t.bridges.getD unit (Channel.up 8) =
            { s.bridges.getD unit (Channel.up 8) with retraining := false, failed := false, attempts := 0 }
          ∧ t.service = { v with svccmd := 4, result := 0 } ∧ t.links = s.links ∧ s.BytesSame t)
      ∧ (cls = 9 → clean → unit < 12 → Runs .recal s fun t => t.links.getD unit (Channel.up 8) =
            { s.links.getD unit (Channel.up 8) with retraining := false, failed := false, attempts := 0 }
          ∧ t.service = { v with svccmd := 4, result := 0 } ∧ t.bridges = s.bridges ∧ s.BytesSame t)
      ∧ (cls ∉ [7, 8, 9] → exec .recal s = .next (svcEnded (wrote 4) 1)))
    ∧ (∀ die < 4,
        let boot := Config.bootImage die
        let good := imageVerifies v boot
        (good → Runs (.bootVerify die) s fun t =>
            t = s.modDie die fun d => { d with verified := true, svn := Config.imageSvn boot })
          ∧ (¬ good → Runs (.bootVerify die) s fun t => t = s.modDie die fun d => { d with verified := false }))
    ∧ (∀ die ok, (s.dieAt die).switching = true → v.toSwitch.head? = some die →
        Runs (.firmwareSwitchEnd die ok) s fun t => t = s.switchEnds die ok)
    ∧ (∀ die ok, (s.dieAt die).switching = false ∨ v.toSwitch.head? ≠ some die → exec (.firmwareSwitchEnd die ok) s = .next s)
    ∧ (∀ die r, s.dies.length = 4 → die < 4 →
        let total := (s.dies.zipIdx.map fun d => if d.2 = 3 then r.power.toNat else d.1.power).sum + r.other
        let cap := s.powcap * 1000
        Runs (.telemetrySample die r) s fun t => s.SameRegs t ∧ t.occ = s.occ
          ∧ (t.dieAt die).samples = (s.dieAt die).samples + 1 ∧ (t.dieAt die).power = r.power.toNat
          ∧ (t.dieAt die).grants = 0 ∧ (t.dieAt die).lwait = 0 ∧ ((s.dieAt die).telem = 0 → t.mem = s.mem)
          ∧ (∀ d < 4, die ≠ 3 ∨ (s.dieAt d).switching = true → (t.dieAt d).throttle = (s.dieAt d).throttle)
          ∧ (die = 3 → ∀ d < 4, (s.dieAt d).switching = false → (t.dieAt d).throttle =
              if cap < total then min 4 ((s.dieAt d).throttle + 1)
              else if total * 100 < cap * 95 then (s.dieAt d).throttle - 1 else (s.dieAt d).throttle))

/-- R387: the 64 bytes of an event record, field by field. -/
def eventsAreRecords : Prop :=
  ∀ (e : Event) (tod : Nat),
    let b := e.bytes tod
    let n := fun (off len : Nat) => ofBytes ((b.drop off).take len)
    b.length = 64 ∧ n 0 1 = e.kind % 256 ∧ n 1 1 = e.flags % 256 ∧ n 2 1 = e.cause % 256 ∧ n 3 1 = e.die % 256
    ∧ n 4 2 = e.core % 2 ^ 16 ∧ n 6 1 = e.group % 256 ∧ n 7 1 = e.cls % 256 ∧ n 8 4 = e.launch % 2 ^ 32 ∧ n 12 4 = e.task % 2 ^ 32
    ∧ n 16 8 = e.team % 2 ^ 64 ∧ n 24 8 = e.addr % 2 ^ 64 ∧ n 32 4 = e.detail % 2 ^ 32 ∧ n 36 4 = 0 ∧ n 40 8 = tod % 2 ^ 64
    ∧ n 48 16 = 0

/-- R387, R398, R399, R415: what the event of an error says; it goes to the event log of the owner's context, or of every active one
where the error has no owner, and is held back while its die switches its firmware. -/
def errorsAreLogged : Prop :=
  (∀ (s : State) (e : ErrorReport) (g : Group), e.owner = some g.gid → s.group? g.gid = some g →
    s.errorEvent e =
      { kind := if e.lasting then 5 else 4, flags := if e.lasting = true ∧ e.repaired = false then 2 else 0,
        cause := if e.lasting = true ∧ e.repaired = false then 0x1C else 0, die := e.die, core := Config.coreIndex g.place.core,
        group := g.occ.group, cls := e.cls.toNat, launch := g.occ.launch.toNat, task := g.occ.task, team := g.occ.teamIdx.toNat,
        addr := e.addr.toNat, detail := 0 })
  ∧ (∀ (s : State) (e : ErrorReport), e.owner = none → e.lasting = false → (s.dieAt e.die).switching = false →
    Runs (.errorDetected e) s fun t =>
      t = ((List.range s.ctxs.length).filter fun c => decide ((s.ctxAt c).state = 1)).foldl
        (fun (u : State) c => u.logEvent c { kind := 4, die := e.die, cls := e.cls.toNat, addr := e.addr.toNat }) s)
  ∧ (∀ (s : State) (ctx : Nat) (e : Event), s.logEvent ctx e = (s.appendLog ctx (s.ctxAt ctx).evlog (e.bytes s.tod)).getD s)
  ∧ ∀ (s : State) (die ctx : Nat) (e : Event),
    ((s.dieAt die).switching = false → s.report die ctx e = s.logEvent ctx e)
    ∧ ((s.dieAt die).switching = true → s.report die ctx e = s.modDie die fun d => { d with queued := d.queued ++ [(ctx, e.bytes s.tod)] })

/-- R400, R410, R416, R417: what takes the place of an emptied unit: a spare; without one its whole cluster is disabled; an HBM channel
lists its pages and is no longer counted; a bridge is out of service (log 77), and a link loses a lane. An event of kind 6 goes to
every active context, and new routes are awaited. -/
def emptiedUnitsAreReplaced : Prop :=
  ∀ (s : State) (c die unit : Nat), die < 4 →
    let d := s.dieAt die
    let base := s.modDie die fun d => { d with retiring := d.retiring.erase (c, unit) }
    let ends := fun (u : State) => s.replaceUnit c die unit =
      ((List.range s.ctxs.length).filter fun x => decide ((s.ctxAt x).state = 1)).foldl
        (fun (v : State) x => v.report die x { kind := 6, die, cls := c, detail := unit })
        (u.modDie die fun d => { d with routesAwaited := true })
    let spare := d.spares < (if 2 ≤ die then 12 else 4)
    let cluster := if c = 3 then unit else Config.clusterOf (Config.coreKey die unit)
    (c ∈ [0, 1, 2, 5, 6, 10] → spare → ends (base.modDie die fun d => { d with spares := d.spares + 1 }))
    ∧ (c = 3 ∨ (c ∈ [0, 1, 2, 5, 6, 10] ∧ ¬ spare) → ∃ u : State, ends u ∧ u = { base with cores := u.cores }
        ∧ ∀ k, u.coreAt k = if ∃ i < Config.coresOf die, k = Config.coreKey die i ∧ Config.clusterOf k = cluster then
            { s.coreAt k with disabled := true } else s.coreAt k)
    ∧ (c = 7 → let pages := Config.channelPages die unit
        ends (base.modDie die fun d => { d with retired := d.retired ++ [pages], capMib := d.capMib - pages.2 * 4 / 1024 }))
    ∧ (∀ x, c = 8 → s.bridges.getD unit (Channel.up 8) = x → ∃ u : State, ends u
        ∧ u.bridges.getD unit (Channel.up 8) = (if x.failed then x else { x with failed := true, retraining := false })
        ∧ (x.failed = false → ∀ r ∈ u.felts, r.bridge ≠ unit))
    ∧ (∀ x, c = 9 → s.links.getD unit (Channel.up 8) = x → ∃ u : State, ends u ∧ u = { base with links := u.links }
        ∧ u.links.getD unit (Channel.up 8) =
          (if x.failed then x else if x.lanes = 8 then { x with lanes := 4, retraining := true }
           else { x with failed := true, retraining := false }))
    ∧ (c = 4 → ends base)

/-- R290, R291, R387, R398 to R400, R410 to R412, R416 to R418: errors are logged, lasting ones poison what they destroy and raise cause
0x1C at its owner; an emptied unit is replaced or its cluster disabled, and routes follow; bridges and links retrain and fail
after three attempts; another package reaches only exported windows. The model's own choices in it: log 19, 21, 28, 62, 77. Completes:
fabricRemoteAccess, packageUnreachable, linkErrorRetrain, bridgeLinkError, errorDetected, unitRetirement, hbmRetrain,
retrainComplete. -/
def Obligations.ErrorsRetirementLinksAndPackages : Prop :=
  eventsAreRecords ∧ errorsAreLogged ∧ emptiedUnitsAreReplaced
  ∧ ∀ (s : State),
    (∀ e : ErrorReport, e.owner = some s.me.gid → s.me.run ≠ .vacant → (s.dieAt e.die).switching = false →
      let logged := s.logEvent s.me.ctx (s.errorEvent e)
      let c := e.cls.toNat
      let array := c = 5 ∨ c = 6
      let repairs := fun (t : State) => if c ∈ [7, 8, 9] then t else t.scheduleRetire c e.die e.unit
      let running := s.me.occs.any (·.runningX.isSome) = true
      let cause : Cause := { code := 0x1C, eng := if array then .x else .k, addr := e.addr
                             info := BitVec.ofNat 64 (c + e.unit * 2 ^ 32) }
      (e.lasting = false → Runs (.errorDetected e) s fun t => t = logged)
      ∧ (e.lasting = true → e.repaired = true → Runs (.errorDetected e) s fun t => t = repairs logged)
      ∧ (e.lasting = true → e.repaired = false → ¬ (array ∧ running) → ∃ u,
          u = { (logged.addCause cause) with poison := u.poison } ∧ (∀ k, k ∈ u.poison ↔ k ∈ logged.poison ∨ k ∈ e.cells)
          ∧ Runs (.errorDetected e) s fun t => t = repairs u)
      ∧ (∀ x, e.lasting = true → e.repaired = false → array → s.occ.runningX = some x → s.occ.trapLevel = false → ∃ u,
          u = { ((logged.setX { x with halted := true }).addCause
              { code := 0x1C, eng := .x, info := BitVec.ofNat 64 (c + 16 + e.unit * 2 ^ 32), addr := e.addr, cmd := x.uid
                pc := some x.addr }) with poison := u.poison }
          ∧ (∀ k, k ∈ u.poison ↔ k ∈ logged.poison ∨ k ∈ e.cells)
          ∧ Runs (.errorDetected e) s fun t => t = repairs u))
    ∧ (∀ (cls : BitVec 4) die unit, let d := s.dieAt die
        let c := cls.toNat
        let gone := c = 7 ∧ Config.channelPages die unit ∈ d.retired
        let scheduled := (c, unit) ∈ d.retiring ∨ (c = 7 ∧ ¬ gone)
        let empty := (∀ g ∈ s.groups, onUnit c die unit g = false) ∧ s.teamsOnUnit c die unit = []
        (scheduled → ¬ empty → exec (.unitRetirement cls die unit) s = .next s)
        ∧ (scheduled → empty → ¬ gone → Runs (.unitRetirement cls die unit) s fun t =>
            t = s.replaceUnit c die unit)
        ∧ (scheduled → empty → gone → Runs (.unitRetirement cls die unit) s fun t =>
            t = s.modDie die fun d => { d with retiring := d.retiring.erase (c, unit) })
        ∧ (¬ scheduled → d.routesAwaited = false → exec (.unitRetirement cls die unit) s = .next s)
        ∧ (¬ scheduled → d.routesAwaited = true → Runs (.unitRetirement cls die unit) s fun t =>
            t = s.modDie die fun d => { d with routesAwaited := false })
        ∧ (c ∈ [0, 1, 2, 5, 6, 10] → s.activeCtxs = [] → d.spares < (if 2 ≤ die then 12 else 4) →
            let t := s.replaceUnit c die unit
            (t.dieAt die).spares = d.spares + 1 ∧ (t.dieAt die).routesAwaited = true ∧ (t.dieAt die).retiring = d.retiring.erase (c, unit)
            ∧ t.cores = s.cores ∧ t.mem = s.mem)
        ∧ (c ∈ [0, 1, 2, 5, 6, 10] → s.activeCtxs = [] → (if 2 ≤ die then 12 else 4) ≤ d.spares → die < 4 →
            ∀ core, unit < Config.coresOf die → (∃ i < Config.coresOf die, core = Config.coreKey die i) →
            Config.clusterOf core = Config.clusterOf (Config.coreKey die unit) →
            ((s.replaceUnit c die unit).coreAt core).disabled = true))
    ∧ (∀ die channel, Runs (.hbmRetrain die channel) s fun t => t = s)
    ∧ (∀ b < 4, let c := s.bridges.getD b (Channel.up 8)
        (Runs (.bridgeLinkError b) s fun t => s.BytesSame t ∧ t.me = s.me ∧ t.bridges.getD b (Channel.up 8) =
          if c.failed then c else { c with retraining := true })
        ∧ (c.retraining = true → c.failed = false → Runs (.retrainComplete true b true) s fun t => s.BytesSame t ∧ t.me = s.me
            ∧ t.bridges.getD b (Channel.up 8) = { c with retraining := false, attempts := 0 })
        ∧ (c.retraining = true → c.failed = false → c.attempts < 2 → Runs (.retrainComplete true b false) s fun t => s.BytesSame t
            ∧ t.me = s.me ∧ t.bridges.getD b (Channel.up 8) = { c with attempts := c.attempts + 1 })
        ∧ (c.retraining = true → 2 ≤ c.attempts → Runs (.retrainComplete true b false) s fun t =>
            t.bridges.getD b (Channel.up 8) = { c with retraining := false, failed := true, attempts := 0 }
            ∧ (∀ r ∈ t.felts, r.bridge ≠ b)
            ∧ (s.mem.wf = true → ∀ r ∈ s.felts, r.bridge = b →
                let hdr := unitKey r.ring (feltHdr (s.coreAt r.ring).felt)
                2 ^ 31 ≤ t.mem.getN (hdr + 4) 4 ∧ 2 ^ 31 ≤ t.mem.getN (hdr + 12) 4))
        ∧ (c.retraining = false → ∀ ok, exec (.retrainComplete true b ok) s = .next s))
    ∧ (∀ l < 12, let c := s.links.getD l (Channel.up 8)
        (∀ lost, Runs (.linkErrorRetrain l lost) s fun t => s.BytesSame t ∧ t.me = s.me ∧ t.links.getD l (Channel.up 8) =
          (if c.failed then c
           else if lost then (if c.lanes = 8 then { c with lanes := 4, retraining := true } else { c with failed := true, retraining := false })
           else { c with retraining := true })
          ∧ t = { s with links := t.links })
        ∧ (c.retraining = true → Runs (.retrainComplete false l true) s fun t => s.BytesSame t ∧ t.me = s.me
            ∧ t.links.getD l (Channel.up 8) = { c with retraining := false, attempts := 0 })
        ∧ (c.retraining = true → Runs (.retrainComplete false l false) s fun t => t = { s with links := t.links }
            ∧ t.links.getD l (Channel.up 8) =
              (if 2 ≤ c.attempts then { c with retraining := false, failed := true, attempts := 0 }
               else { c with attempts := c.attempts + 1 }))
        ∧ (c.retraining = false → ∀ ok, exec (.retrainComplete false l ok) s = .next s))
    ∧ (∀ pkg, (pkg ≠ s.pkgid → pkg ∉ s.unreachable → Runs (.packageUnreachable pkg) s fun t =>
          t = { s with unreachable := pkg :: s.unreachable })
        ∧ (pkg = s.pkgid ∨ pkg ∈ s.unreachable → exec (.packageUnreachable pkg) s = .next s))
    ∧ (∀ pkg (pa : BitVec 52) n (bs : List Byte), let k := pa.toNat
        let opened := fun (m : Nat) => pkg < 64 ∧ ∃ w ∈ s.exports, w.1.toNat ≤ k ∧ k + m ≤ w.1.toNat + w.2.1.toNat * 2 ^ 30
          ∧ w.2.2.getLsbD pkg = true
        let refused := fun (op : RemoteOp) => exec (.fabricRemoteAccess pkg pa op) s =
          .next { s with replies := [] :: s.replies, unreachable := s.unreachable.filter fun p => p != pkg }
        (∀ aop sz c, let m := 2 ^ sz
          let old := s.mem.getN k m
          (opened m → s.mem.wf = true → Runs (.fabricRemoteAccess pkg pa (.atomic aop sz c)) s fun t => s.BytesSameOutside t k m
            ∧ t.mem.getN k m = atomOp aop sz old c % 2 ^ (8 * m) ∧ t.replies = toBytes m old :: s.replies ∧ t.me = s.me)
          ∧ (¬ opened m → refused (.atomic aop sz c)))
        ∧ (∀ sz e x, let m := 2 ^ sz
          let old := s.mem.getN k m
          (opened m → s.mem.wf = true → Runs (.fabricRemoteAccess pkg pa (.cas sz e x)) s fun t => s.BytesSameOutside t k m
            ∧ t.mem.getN k m = (if old = e then x % 2 ^ (8 * m) else old) ∧ t.replies = toBytes m old :: s.replies ∧ t.me = s.me)
          ∧ (¬ opened m → refused (.cas sz e x)))
        ∧ (opened n → Runs (.fabricRemoteAccess pkg pa (.read n)) s fun t => s.BytesSame t ∧ t.me = s.me
          ∧ t.replies = ((List.range n).map fun i => s.mem.get (k + i)) :: s.replies)
        ∧ (opened bs.length → s.mem.wf = true → Runs (.fabricRemoteAccess pkg pa (.write bs)) s fun t => s.BytesSameOutside t k bs.length
          ∧ (∀ i < bs.length, t.mem.get (k + i) = bs.getD i 0) ∧ t.me = s.me)
        ∧ (¬ opened n → refused (.read n)) ∧ (¬ opened bs.length → refused (.write bs)))

/-- R413: every SPDM request is answered, in order, and changes nothing but the list of responses; what a response holds beside the
values of the spec is free (log 18). Completes: getVersion, getCapabilities, negotiateAlgorithms, getDigests, getCertificate,
challenge, getMeasurements, spdmSessionRequest. -/
def Obligations.SpdmRequestsAreAnswered : Prop :=
  ∀ (s : State),
    let fixed := fun (i : Instr) (code : Nat) (contents : List Nat) =>
      Runs i s fun t => t = { s with spdm := (code, contents) :: s.spdm }
    let answered := fun (i : Instr) (code : Nat) (known : List Nat) =>
      Runs i s fun t => ∃ x, t = { s with freeSeq := s.freeSeq + 1, spdm := (code, known ++ [x]) :: s.spdm }
    fixed .getVersion 0x04 [0x13] ∧ fixed .negotiateAlgorithms 0x63 [384, 384] ∧ fixed .spdmSessionRequest 0x7F [0x07]
    ∧ answered .getCapabilities 0x61 [] ∧ answered .getDigests 0x01 []
    ∧ (∀ off n, answered (.getCertificate off n) 0x02 [off, n]) ∧ (∀ nonce, answered (.challenge nonce) 0x03 [nonce])
    ∧ (∀ index, (1 ≤ index → index ≤ 4 → answered (.getMeasurements index) 0x60 [index, (s.dieAt (index - 1)).svn])
        ∧ (index = 5 → answered (.getMeasurements index) 0x60 (5 :: s.service.minSvn :: s.service.keys.flatMap fun k =>
            [k.1, k.2.toNat]))
        ∧ (index = 6 → answered (.getMeasurements index) 0x60 (6 :: s.dies.flatMap fun d => d.retired.flatMap fun r => [r.1, r.2]))
        ∧ (index = 7 → answered (.getMeasurements index) 0x60 (7 :: s.pkgid :: s.exports.flatMap fun e =>
            [e.1.toNat, e.2.1.toNat, e.2.2.toNat]))
        ∧ (index = 0 ∨ 7 < index → answered (.getMeasurements index) 0x60 [index]))

/-! ## Waiting by helping -/

/-- R300, R307 to R309: a helper that awaits a future of a task that it can adopt pushes a frame and runs the task from its entry in
its own slot; when the frame pops, the helper continues where it stood. A task among the occupants of the slot is cause 0x0D, and
one that cannot be adopted is waited for and given the helper's priority. The model's own choices in it: log 60. Completes: await.
-/
def Obligations.AHelperAdoptsTheTaskItAwaits : Prop :=
  (∀ (s : State) (g : KG) (d a : BitVec 6) (q : BitVec 3) (k : Nat), s.guard g = true → s.occ.wait = none →
    let v := s.drain
    let T := v.mem.getN (k + 8) 4
    s.objectKey .k (s.getS a) = .ok k → v.mem.getN (k + 14) 1 = 0 → 0 < T → T < s.ctx.ncard →
    ((∃ o ∈ s.me.occs, o.task = T) → exec (.await g d a q) s =
        let waiting : Group := { v.me with occ := { v.occ with
          wait := some { kind := 4, obj := s.getS a, owner := T, detail := 0, since := s.cyc } } }
        .next (({ ({ v with me := waiting } : State).logHang s.me.ctx s.me.place.core 1 [waiting] with me := v.me } : State).trap
          { code := 0x0D, eng := .k, info := BitVec.ofNat 64 T, addr := s.pcOf .k } (s.pcOf .k)))
    ∧ ((∀ o ∈ s.me.occs, o.task ≠ T) → v.adoptable T = false →
        exec (.await g d a q) s = .next ((s.passPrio T).waitOn 4 (s.getS a) T))
    ∧ (∀ card s1, (∀ o ∈ s.me.occs, o.task ≠ T) → v.adoptable T = true → v.card? s.me.ctx T = some card →
        fieldAt card 0x14 1 = 2 → (v.dequeue s.me.ctx T).setCard s.me.ctx T 0x14 1 3 = some s1 →
        Runs (.await g d a q) s fun t =>
          t.me.under = v.occ :: s.me.under ∧ t.me.gid = s.me.gid ∧ t.me.place = s.me.place ∧ t.me.alim = s.me.alim
          ∧ t.mem = s1.mem ∧ t.ready = s1.ready ∧ t.others = s.others
          ∧ t.occ.task = T ∧ t.occ.width = s.occ.width ∧ t.occ.count = fieldAt card 0x18 2
          ∧ t.occ.pcs = Pcs.all (lineOf64 (BitVec.ofNat 64 (fieldAt card 0 8)) + 4)
          ∧ t.occ.flow.mask = allLanes s.occ.width ∧ t.occ.trapLevel = false ∧ t.occ.wait = none
          ∧ (∀ r : BitVec 6, t.getS r = if r = 1 then BitVec.ofNat 64 (fieldAt card 8 8)
              else if r = 2 then BitVec.ofNat 64 (s.cardAddr s.me.ctx T) else 0)
          ∧ (∀ r i, t.occ.getV r i = 0) ∧ t.occ.streams = [] ∧ t.occ.cmds = [] ∧ t.occ.watches = []))
  ∧ (∀ (s : State) (o : Occ) (os : List Occ), s.me.under = o :: os →
      let u := s.leaveSlot
      let asked := s.occ.causes.filter fun c => (c.code ∈ [0x13, 0x14, 0x15] ∨ (c.code = 0x16 ∧ c.info.getLsbD 63 = true))
        ∧ ∀ d ∈ o.causes, d.code ≠ c.code
      u.occ.causes = o.causes ++ asked ∧ u.me.under = os ∧ u.occ.pcs = o.pcs ∧ u.occ.regs = o.regs ∧ u.occ.flow = o.flow ∧ u.occ.wait = none
      ∧ u.mem = s.mem ∧ u.others = s.others)

/-! ## The whole machine -/

/-- R47, R99, R142, R20: a lane is enabled when it lies in the group, is active under the lane mask, and its guard holds; the guard
pg = 0, pn = 0 enables every active lane, and pg = 0, pn = 1 none. A K, X or D instruction whose guard is false, and an M or B
instruction without an enabled lane, only goes on. The model's own choices in it: log 58, 59. -/
def Obligations.GuardsEnableLanesAndInstructions : Prop :=
  (∀ (s : State) (e : Eng) (f : VF) (i : Nat), s.occ.width ≤ 64 →
    (i ∈ s.lanes e f ↔ i < s.occ.width ∧ (s.occ.flow.maskOf e).getLsbD i = true
      ∧ ((s.occ.getP f.pg.toNat).getLsbD i != f.pn) = true)
    ∧ (f.pg = 0 → f.pn = false → (i ∈ s.lanes e f ↔ i < s.occ.width ∧ (s.occ.flow.maskOf e).getLsbD i = true))
    ∧ (f.pg = 0 → f.pn = true → i ∉ s.lanes e f))
  ∧ (∀ (i : Instr) (s : State) (e : Eng) (op : Nat) (g : KG) (y : BitVec 22) (x : Option Word),
      i.form = some (.kForm e op g y x) → s.guard g = false → s.CountOk i → (e = .x → xPowered s) →
      Runs i s fun t => s.WroteNothing t e (if x.isSome then 2 else 1))
  ∧ (∀ (i : Instr) (s : State) (op : Nat) (f : VF) (x : Option MX),
      i.form = some (.mForm op f x) → s.lanes .m f = [] → s.CountOk i → Runs i s fun t => s.WroteNothing t .m (mWords x))
  ∧ (∀ (i : Instr) (s : State) (op : Nat) (f : VF) (x : Option VX) (r : Bool),
      i.form = some (.vForm .b op f x r) → s.lanes .b f = [] → s.CountOk i → Runs i s fun t => s.WroteNothing t .b (vWords x))

/-- R50, R53, R54, R56, R165, R275: the v-registers that a form names, as ranges of first register and number: those of a plain
V instruction, pairs for the types of 64 bits; data and address of loads and stores; elements and records of QMX and DQMX; RAY. -/
def formsNameTheirRegisters : Prop :=
  ∀ (w : Nat) (f : VF) (x : VX) (y : MX) (rsv : Bool),
    let d := f.d.toNat
    let a := f.a.toNat
    let b := f.b.toNat
    let named := fun (fm : Form) => (fm.ranges w).map fun r => (r.base, r.n)
    let address := if y.sp = 0 ∧ f.b.getLsbD 6 = false then (a, 2) else (a, 1)
    let records := ((if x.imm.toNat / 16 % 4 = 0 ∨ x.imm.toNat / 16 % 4 = 3 then 14 else 22) + w - 1) / w
    (∀ op ∈ [0x01, 0x02, 0x03, 0x06, 0x07, 0x08],
      named (.vForm .v op f none rsv) = [(d, 1), (a, 1), (b, 1)]
      ∧ (x.ty.toNat < 5 → x.bk = 0 → named (.vForm .v op f (some x) rsv) = [(d, 1), (a, 1), (b, 1)])
      ∧ (x.ty.toNat < 5 → x.bk ≠ 0 → named (.vForm .v op f (some x) rsv) = [(d, 1), (a, 1)])
      ∧ (5 ≤ x.ty.toNat → x.bk = 0 → named (.vForm .v op f (some x) rsv) = [(d, 2), (a, 2), (b, 2)])
      ∧ (5 ≤ x.ty.toNat → x.bk ≠ 0 → named (.vForm .v op f (some x) rsv) = [(d, 2), (a, 2)]))
    ∧ (∀ op ∈ [0x00, 0x01, 0x02, 0x03], named (.mForm op f (some y)) =
        [(d, match y.sz.toNat with | 3 => 2 | 4 => 4 | _ => 1), address])
    ∧ named (.vForm .v 0x2B f (some x) rsv) = [(d, records), (a, 64 / w)]
    ∧ named (.vForm .v 0x2C f (some x) rsv) = [(d, 64 / w), (a, records)]
    ∧ named (.vForm .b 0x02 f (some x) rsv) = [(d, 4), (a, 1)]

/-- R20, R58, R59, R323: an instruction that names a v-register at or above the current count of its group is illegal: it takes
cause 0x02 with subcode 6 at its own address and has no effect. The model's own choices in it: log 6, 58. -/
def Obligations.RegistersBeyondTheCountAreIllegal : Prop :=
  formsNameTheirRegisters
  ∧ ∀ (i : Instr) (s : State) (fm : Form) (ext : Bool), i.form = some fm →
    let pc := s.pcOf fm.eng
    let ds := fm.countDefects s.occ.width s.occ.count
    (∀ d ∈ ds, d.1 = 6)
    ∧ (ds ≠ [] ↔ ∃ r ∈ fm.ranges s.occ.width, s.occ.count < r.base + r.n)
    ∧ (∀ ext, (6, ext) ∈ ds ↔ ∃ r ∈ fm.ranges s.occ.width, r.ext = ext ∧ s.occ.count < r.base + r.n)
    ∧ (ds ≠ [] → (ext = false ↔ (6, false) ∈ ds) → fm.op < 64 →
        exec i s = s.trapped fm.eng 2 (BitVec.ofNat 64
          (laneOf pc + 8 * ext.toNat + 16 * (fm.eng.tag + 8 * fm.long.toNat) + 256 * 6 + 4096 * fm.op)) pc)

/-- R38, R45, R49, R50, R55: lane words of each engine, written out from the tables of the encoding, decode to the instructions they
stand for. -/
def Obligations.WordsOfTheEncodingTablesDecode : Prop :=
  let yes : KG := { q := 0, n := false }
  let all (d a b : BitVec 7) : VF := { pg := 0, pn := false, d, a, b }
  -- SADD s3, s1, s2: opcode, qg, qn, d, a, b, fn
  decodeWords .k 0b000011_000_0_000011_000001_000010_0000#32 none = .ok (.sadd yes 3 1 2)
  -- (!q2) SLI s5, 0x8001: opcode, qg, qn, d, imm16
  ∧ decodeWords .k 0b000010_010_1_000101_1000000000000001#32 none = .ok (.sli { q := 2, n := true } 5 0x8001)
  -- BR -2: opcode, qg, qn, off22
  ∧ decodeWords .k 0b010000_000_0_1111111111111111111110#32 none = .ok (.br yes 0x3FFFFE)
  -- (!p1) ADD v4, v5, v6: opcode, pg, pn, d, a, b
  ∧ decodeWords .v 0b000001_0001_1_0000100_0000101_0000110#32 none = .ok (.vadd { pg := 1, pn := true, d := 4, a := 5, b := 6 })
  -- ADD.U32 v1, v2, #7 with saturation: c, ty, bk, rm, sat, 0, imm16
  ∧ decodeWords .v 0b000001_0000_0_0000001_0000010_0000000#32 (some 0b0000000_001_11_00_1_0_0000000000000111#32)
      = .ok (.vadd64 (all 1 2 0) { c := 0, ty := 1, bk := 3, rm := 0, sat := true, imm := 7 })
  -- LD.64 v2, [v4 + 16] in GLOBAL: c, sz, sp, sc, imm16
  ∧ decodeWords .m 0b000000_0000_0_0000010_0000100_0000000#32 (some 0b0000000_011_000_000_0000000000010000#32)
      = .ok (.ld64 (all 2 4 0) { c := 0, sz := 3, sp := 0, sc := 0, imm := 16 })
  -- MMA.OVW s1, s2
  ∧ decodeWords .x 0b000010_000_0_000000_000001_000010_0001#32 none = .ok (.mmaOvw yes 1 2)
  -- DPATCH s1, s2
  ∧ decodeWords .d 0b000010_000_0_000000_000001_000010_0000#32 none = .ok (.dpatch yes 1 2)
  -- RAY v8, v3
  ∧ decodeWords .b 0b000010_0000_0_0001000_0000011_0000000#32 none = .ok (.ray (all 8 3 0))
  -- an opcode that is not listed, and a reserved field
  ∧ decodeWords .k 0b111111_000_0_0000000000000000000000#32 none = .error ⟨1, false⟩
  ∧ decodeWords .k 0b000000_000_0_000000_000000_000000_0001#32 none = .error ⟨3, false⟩

/-- R38, R45, R49: decoding the words of a well-formed instruction gives it back, with every operand. -/
def Obligations.DecodeInvertsEncode : Prop :=
  ∀ (i : Instr) (e : Eng) (w : Word) (x : Option Word), i.wf = true → encode i = some (e, w, x) →
    decodeWords e w x = .ok i

/-- R22, R36, R38, R43, R58: when the group in focus has the turn and nothing is due before it, a step reads the lane where the
engine furthest behind stands: a step on the words of an instruction is exec of that instruction, followed by the clock; an empty
lane is passed, and a defect takes its fault. The model's own choices in it: log 1 to 3. -/
def Obligations.AStepRunsTheDecodedInstruction : Prop :=
  ∀ (s : State) (ws : List Word), s.agenda = [] → s.mine = true → s.occ.ending = false →
    s.occ.trapLevel = true ∨ s.occ.causes = [] → s.queued = none → laneOf s.position ≠ 0 → s.occ.stepping = false →
    s.fetched (lineOf64 s.position) = .ok ws →
    let p := s.position
    let u := s.enterLine (lineOf64 p) ws
    let k := laneOf p
    let tag := laneTag (ws.headD 0) k
    let w := ws.getD k 0
    let x := if 9 ≤ tag then some (ws.getD (k + 1) 0) else none
    let n := if 9 ≤ tag then 2 else 1
    let lead := s.occ.leader s.tile
    let stands := fun (e : Eng) => s.pcOf e = p ∧ s.occ.flow.pops.get e = s.occ.flow.pops.get lead
    (∀ d, lineDefect s.tile ws = some d → d.lane ≤ k → step s = ticked (exec (.illegalLineFault d) u))
    ∧ ((∀ d, lineDefect s.tile ws = some d → k < d.lane) →
        (Eng.ofTag tag = none → step s = .next (u.mapOcc (·.moveWith lead (p + 4))).endCycle)
        ∧ (∀ e i, Eng.ofTag tag = some e → decodeWords e w x = .ok i → i.form.isSome = true →
            (stands e → step s = ticked (exec i u))
            ∧ (¬ stands e → step s = .next (u.mapOcc (·.moveWith lead (p + BitVec.ofNat 64 (4 * n)))).endCycle))
        ∧ (∀ e sub ext, Eng.ofTag tag = some e → decodeWords e w x = .error ⟨sub, ext⟩ → stands e →
            step s = ticked (exec (.illegalInstructionFault ⟨k, BitVec.ofNat 4 tag, w.extractLsb' 26 6, sub, ext⟩) u)))

/-- R32, R359, R361, R404, R408: what reset leaves where the spec gives a value: the clocks, the limits of the dies, the package
registers, and no active context. That no group is placed and every byte of memory reads zero is the model's choice (log 4, log 10).
-/
def Obligations.ResetLeavesTheValuesOfTheSpec : Prop :=
  let s := State.reset
  s.tod = 0 ∧ s.pkgid = 0 ∧ s.powcap = 2600 ∧ s.service.svccmd = 0 ∧ s.service.svcarg = 0 ∧ s.service.busy = false
  ∧ s.service.lost = false ∧ s.service.result = 0
  ∧ (∀ die < 4, (s.dieAt die).cyc = 0 ∧ (s.dieAt die).didt = 100 ∧ (s.dieAt die).powcompat = 0 ∧ (s.dieAt die).telem = 0
      ∧ (s.dieAt die).capMib = 98304 ∧ (s.dieAt die).retired = [] ∧ (s.dieAt die).fgbase = 0 ∧ (s.dieAt die).fgdl = 0
      ∧ (s.dieAt die).fgguard = 0)
  ∧ (∀ ctx, (s.ctxAt ctx).state = 0 ∧ (s.ctxAt ctx).hangt = 0x01000000 ∧ (s.ctxAt ctx).tvec = 0 ∧ (s.ctxAt ctx).carg = 0
      ∧ (s.ctxAt ctx).busy = false)
  ∧ s.sysRead 0x012 = 4 ∧ s.sysRead 0x018 = 16 ∧ s.sysRead 0x030 = 20000 ∧ s.sysRead 0x028 = 0
  ∧ s.me.run = .vacant ∧ s.mem.wf = true ∧ ∀ k, s.mem.get k = 0

/-- Memory keeps its canonical form: addresses strictly rising, and no listed byte equal to what an unlisted one reads as. Every
step keeps it, whatever state it starts from. The model's own choices in it: log 4, 27. -/
def Obligations.EveryStepKeepsMemoryCanonical : Prop :=
  ∀ s t : State, s.mem.wf = true → step s = .next t → t.mem.wf = true
end

