-- ==== Sys2Proof/Laws/Exec.lean ====
section
/-! SUPPORT. The meaning that each instruction and event is dispatched to. -/

namespace Sys2Proof.Machine

@[simp] theorem exec_nop (g : KG) (s : State) : exec (.nop g) s = execNop g s := rfl
@[simp] theorem exec_nop64 (g : KG) (imm : BitVec 32) (s : State) : exec (.nop64 g imm) s = execNop64 g imm s := rfl
@[simp] theorem exec_smov (g : KG) (d a : BitVec 6) (s : State) : exec (.smov g d a) s = execSmov g d a s := rfl
@[simp] theorem exec_smovLc (g : KG) (d : BitVec 6) (lc : BitVec 2) (s : State) : exec (.smovLc g d lc) s = execSmovLc g d lc s := rfl
@[simp] theorem exec_sli (g : KG) (d : BitVec 6) (imm : BitVec 16) (s : State) : exec (.sli g d imm) s = execSli g d imm s := rfl
@[simp] theorem exec_sli64 (g : KG) (d : BitVec 6) (hi : BitVec 16) (imm : BitVec 32) (s : State) : exec (.sli64 g d hi imm) s = execSli64 g d hi imm s := rfl
@[simp] theorem exec_sadd (g : KG) (d a b : BitVec 6) (s : State) : exec (.sadd g d a b) s = execSadd g d a b s := rfl
@[simp] theorem exec_saddImm (g : KG) (d a : BitVec 6) (imm : BitVec 32) (s : State) : exec (.saddImm g d a imm) s = execSaddImm g d a imm s := rfl
@[simp] theorem exec_ssub (g : KG) (d a b : BitVec 6) (s : State) : exec (.ssub g d a b) s = execSsub g d a b s := rfl
@[simp] theorem exec_ssubImm (g : KG) (d a : BitVec 6) (imm : BitVec 32) (s : State) : exec (.ssubImm g d a imm) s = execSsubImm g d a imm s := rfl
@[simp] theorem exec_smul (g : KG) (d a b : BitVec 6) (s : State) : exec (.smul g d a b) s = execSmul g d a b s := rfl
@[simp] theorem exec_smulImm (g : KG) (d a : BitVec 6) (imm : BitVec 32) (s : State) : exec (.smulImm g d a imm) s = execSmulImm g d a imm s := rfl
@[simp] theorem exec_smulHi (g : KG) (d a b : BitVec 6) (s : State) : exec (.smulHi g d a b) s = execSmulHi g d a b s := rfl
@[simp] theorem exec_smulHiImm (g : KG) (d a : BitVec 6) (imm : BitVec 32) (s : State) : exec (.smulHiImm g d a imm) s = execSmulHiImm g d a imm s := rfl
@[simp] theorem exec_smulHiu (g : KG) (d a b : BitVec 6) (s : State) : exec (.smulHiu g d a b) s = execSmulHiu g d a b s := rfl
@[simp] theorem exec_smulHiuImm (g : KG) (d a : BitVec 6) (imm : BitVec 32) (s : State) : exec (.smulHiuImm g d a imm) s = execSmulHiuImm g d a imm s := rfl
@[simp] theorem exec_sand (g : KG) (d a b : BitVec 6) (s : State) : exec (.sand g d a b) s = execSand g d a b s := rfl
@[simp] theorem exec_sandImm (g : KG) (d a : BitVec 6) (imm : BitVec 32) (s : State) : exec (.sandImm g d a imm) s = execSandImm g d a imm s := rfl
@[simp] theorem exec_sor (g : KG) (d a b : BitVec 6) (s : State) : exec (.sor g d a b) s = execSor g d a b s := rfl
@[simp] theorem exec_sorImm (g : KG) (d a : BitVec 6) (imm : BitVec 32) (s : State) : exec (.sorImm g d a imm) s = execSorImm g d a imm s := rfl
@[simp] theorem exec_sxor (g : KG) (d a b : BitVec 6) (s : State) : exec (.sxor g d a b) s = execSxor g d a b s := rfl
@[simp] theorem exec_sxorImm (g : KG) (d a : BitVec 6) (imm : BitVec 32) (s : State) : exec (.sxorImm g d a imm) s = execSxorImm g d a imm s := rfl
@[simp] theorem exec_sshl (g : KG) (d a b : BitVec 6) (s : State) : exec (.sshl g d a b) s = execSshl g d a b s := rfl
@[simp] theorem exec_sshlImm (g : KG) (d a n : BitVec 6) (s : State) : exec (.sshlImm g d a n) s = execSshlImm g d a n s := rfl
@[simp] theorem exec_sshr (g : KG) (d a b : BitVec 6) (s : State) : exec (.sshr g d a b) s = execSshr g d a b s := rfl
@[simp] theorem exec_sshrImm (g : KG) (d a n : BitVec 6) (s : State) : exec (.sshrImm g d a n) s = execSshrImm g d a n s := rfl
@[simp] theorem exec_sshrA (g : KG) (d a b : BitVec 6) (s : State) : exec (.sshrA g d a b) s = execSshrA g d a b s := rfl
@[simp] theorem exec_sshrAImm (g : KG) (d a n : BitVec 6) (s : State) : exec (.sshrAImm g d a n) s = execSshrAImm g d a n s := rfl
@[simp] theorem exec_smin (g : KG) (d a b : BitVec 6) (s : State) : exec (.smin g d a b) s = execSmin g d a b s := rfl
@[simp] theorem exec_sminImm (g : KG) (d a : BitVec 6) (imm : BitVec 32) (s : State) : exec (.sminImm g d a imm) s = execSminImm g d a imm s := rfl
@[simp] theorem exec_smax (g : KG) (d a b : BitVec 6) (s : State) : exec (.smax g d a b) s = execSmax g d a b s := rfl
@[simp] theorem exec_smaxImm (g : KG) (d a : BitVec 6) (imm : BitVec 32) (s : State) : exec (.smaxImm g d a imm) s = execSmaxImm g d a imm s := rfl
@[simp] theorem exec_sminu (g : KG) (d a b : BitVec 6) (s : State) : exec (.sminu g d a b) s = execSminu g d a b s := rfl
@[simp] theorem exec_sminuImm (g : KG) (d a : BitVec 6) (imm : BitVec 32) (s : State) : exec (.sminuImm g d a imm) s = execSminuImm g d a imm s := rfl
@[simp] theorem exec_smaxu (g : KG) (d a b : BitVec 6) (s : State) : exec (.smaxu g d a b) s = execSmaxu g d a b s := rfl
@[simp] theorem exec_smaxuImm (g : KG) (d a : BitVec 6) (imm : BitVec 32) (s : State) : exec (.smaxuImm g d a imm) s = execSmaxuImm g d a imm s := rfl
@[simp] theorem exec_scmp (g : KG) (d : BitVec 3) (a b : BitVec 6) (cc : BitVec 4) (s : State) : exec (.scmp g d a b cc) s = execScmp g d a b cc s := rfl
@[simp] theorem exec_scmpImm (g : KG) (d : BitVec 3) (a : BitVec 6) (cc : BitVec 4) (imm : BitVec 32) (s : State) : exec (.scmpImm g d a cc imm) s = execScmpImm g d a cc imm s := rfl
@[simp] theorem exec_ssel (g : KG) (d a b : BitVec 6) (q : BitVec 3) (s : State) : exec (.ssel g d a b q) s = execSsel g d a b q s := rfl
@[simp] theorem exec_qlog (g : KG) (d a b : BitVec 3) (f : BitVec 4) (s : State) : exec (.qlog g d a b f) s = execQlog g d a b f s := rfl
@[simp] theorem exec_scsrRead (g : KG) (d : BitVec 6) (num : BitVec 12) (s : State) : exec (.scsrRead g d num) s = execScsrRead g d num s := rfl
@[simp] theorem exec_scsrWrite (g : KG) (d : BitVec 6) (num : BitVec 12) (s : State) : exec (.scsrWrite g d num) s = execScsrWrite g d num s := rfl
@[simp] theorem exec_scsrSwap (g : KG) (d : BitVec 6) (num : BitVec 12) (s : State) : exec (.scsrSwap g d num) s = execScsrSwap g d num s := rfl
@[simp] theorem exec_br (g : KG) (off : BitVec 22) (s : State) : exec (.br g off) s = execBr g off s := rfl
@[simp] theorem exec_brv (p : BitVec 4) (pn : Bool) (off : BitVec 32) (s : State) : exec (.brv p pn off) s = execBrv p pn off s := rfl
@[simp] theorem exec_join (s : State) : exec (.join) s = execJoin s := rfl
@[simp] theorem exec_call (g : KG) (off : BitVec 22) (s : State) : exec (.call g off) s = execCall g off s := rfl
@[simp] theorem exec_callvPair (g : KG) (a : BitVec 6) (s : State) : exec (.callvPair g a) s = execCallvPair g a s := rfl
@[simp] theorem exec_callvReg (g : KG) (a : BitVec 6) (s : State) : exec (.callvReg g a) s = execCallvReg g a s := rfl
@[simp] theorem exec_ret (g : KG) (s : State) : exec (.ret g) s = execRet g s := rfl
@[simp] theorem exec_jmp (g : KG) (a : BitVec 6) (s : State) : exec (.jmp g a) s = execJmp g a s := rfl
@[simp] theorem exec_loopOpen (g : KG) (lc : BitVec 2) (byImm : Bool) (a : BitVec 6) (e count : BitVec 16) (s : State) : exec (.loopOpen g lc byImm a e count) s = execLoopOpen g lc byImm a e count s := rfl
@[simp] theorem exec_lineEndAction (s : State) : exec (.lineEndAction) s = execLineEndAction s := rfl
@[simp] theorem exec_lbrk (g : KG) (lc : BitVec 2) (s : State) : exec (.lbrk g lc) s = execLbrk g lc s := rfl
@[simp] theorem exec_bar (g : KG) (id : BitVec 4) (a : BitVec 6) (s : State) : exec (.bar g id a) s = execBar g id a s := rfl
@[simp] theorem exec_mwatch (g : KG) (ws : BitVec 2) (a b : BitVec 6) (sp sc : BitVec 3) (wide : Bool) (s : State) : exec (.mwatch g ws a b sp sc wide) s = execMwatch g ws a b sp sc wide s := rfl
@[simp] theorem exec_mwait (g : KG) (d a : BitVec 6) (which : BitVec 4) (s : State) : exec (.mwait g d a which) s = execMwait g d a which s := rfl
@[simp] theorem exec_mwaitTimeout (s : State) : exec (.mwaitTimeout) s = execMwaitTimeout s := rfl
@[simp] theorem exec_trap (g : KG) (imm : BitVec 16) (s : State) : exec (.trap g imm) s = execTrap g imm s := rfl
@[simp] theorem exec_bkpt (g : KG) (imm : BitVec 16) (s : State) : exec (.bkpt g imm) s = execBkpt g imm s := rfl
@[simp] theorem exec_rft (s : State) : exec (.rft) s = execRft s := rfl
@[simp] theorem exec_parkWait (s : State) : exec (.parkWait) s = execParkWait s := rfl
@[simp] theorem exec_parkPreempt (s : State) : exec (.parkPreempt) s = execParkPreempt s := rfl
@[simp] theorem exec_parkEnd (s : State) : exec (.parkEnd) s = execParkEnd s := rfl
@[simp] theorem exec_leave (g : KG) (s : State) : exec (.leave g) s = execLeave g s := rfl
@[simp] theorem exec_leavr (g : KG) (s : State) : exec (.leavr g) s = execLeavr g s := rfl
@[simp] theorem exec_fgmark (g : KG) (a : BitVec 6) (s : State) : exec (.fgmark g a) s = execFgmark g a s := rfl
@[simp] theorem exec_governorApplyMark (die : Nat) (s : State) : exec (.governorApplyMark die) s = execGovernorApplyMark die s := rfl
@[simp] theorem exec_fgplan (g : KG) (d : BitVec 6) (s : State) : exec (.fgplan g d) s = execFgplan g d s := rfl
@[simp] theorem exec_spawn (g : KG) (a : BitVec 6) (s : State) : exec (.spawn g a) s = execSpawn g a s := rfl
@[simp] theorem exec_await (g : KG) (d a : BitVec 6) (q : BitVec 3) (s : State) : exec (.await g d a q) s = execAwait g d a q s := rfl
@[simp] theorem exec_fset (g : KG) (a b : BitVec 6) (s : State) : exec (.fset g a b) s = execFset g a b s := rfl
@[simp] theorem exec_locka (g : KG) (a : BitVec 6) (s : State) : exec (.locka g a) s = execLocka g a s := rfl
@[simp] theorem exec_lockaTry (g : KG) (q : BitVec 3) (a : BitVec 6) (s : State) : exec (.lockaTry g q a) s = execLockaTry g q a s := rfl
@[simp] theorem exec_lockr (g : KG) (a : BitVec 6) (s : State) : exec (.lockr g a) s = execLockr g a s := rfl
@[simp] theorem exec_yield (g : KG) (s : State) : exec (.yield g) s = execYield g s := rfl
@[simp] theorem exec_exit (g : KG) (s : State) : exec (.exit g) s = execExit g s := rfl
@[simp] theorem exec_launch (g : KG) (a : BitVec 6) (s : State) : exec (.launch g a) s = execLaunch g a s := rfl
@[simp] theorem exec_cjoin (g : KG) (a : BitVec 6) (s : State) : exec (.cjoin g a) s = execCjoin g a s := rfl
@[simp] theorem exec_vgive (g : KG) (imm : BitVec 16) (s : State) : exec (.vgive g imm) s = execVgive g imm s := rfl
@[simp] theorem exec_vclaim (g : KG) (imm : BitVec 16) (s : State) : exec (.vclaim g imm) s = execVclaim g imm s := rfl
@[simp] theorem exec_mov (f : VF) (s : State) : exec (.mov f) s = execMov f s := rfl
@[simp] theorem exec_mov64 (f : VF) (x : VX) (s : State) : exec (.mov64 f x) s = execMov64 f x s := rfl
@[simp] theorem exec_vadd (f : VF) (s : State) : exec (.vadd f) s = execVadd f s := rfl
@[simp] theorem exec_vadd64 (f : VF) (x : VX) (s : State) : exec (.vadd64 f x) s = execVadd64 f x s := rfl
@[simp] theorem exec_vsub (f : VF) (s : State) : exec (.vsub f) s = execVsub f s := rfl
@[simp] theorem exec_vsub64 (f : VF) (x : VX) (s : State) : exec (.vsub64 f x) s = execVsub64 f x s := rfl
@[simp] theorem exec_vmul (f : VF) (s : State) : exec (.vmul f) s = execVmul f s := rfl
@[simp] theorem exec_vmul64 (f : VF) (x : VX) (s : State) : exec (.vmul64 f x) s = execVmul64 f x s := rfl
@[simp] theorem exec_mulh (f : VF) (s : State) : exec (.mulh f) s = execMulh f s := rfl
@[simp] theorem exec_mulh64 (f : VF) (x : VX) (s : State) : exec (.mulh64 f x) s = execMulh64 f x s := rfl
@[simp] theorem exec_mad (f : VF) (x : VX) (s : State) : exec (.mad f x) s = execMad f x s := rfl
@[simp] theorem exec_vand (f : VF) (s : State) : exec (.vand f) s = execVand f s := rfl
@[simp] theorem exec_vand64 (f : VF) (x : VX) (s : State) : exec (.vand64 f x) s = execVand64 f x s := rfl
@[simp] theorem exec_vor (f : VF) (s : State) : exec (.vor f) s = execVor f s := rfl
@[simp] theorem exec_vor64 (f : VF) (x : VX) (s : State) : exec (.vor64 f x) s = execVor64 f x s := rfl
@[simp] theorem exec_vxor (f : VF) (s : State) : exec (.vxor f) s = execVxor f s := rfl
@[simp] theorem exec_vxor64 (f : VF) (x : VX) (s : State) : exec (.vxor64 f x) s = execVxor64 f x s := rfl
@[simp] theorem exec_shl (f : VF) (s : State) : exec (.shl f) s = execShl f s := rfl
@[simp] theorem exec_shl64 (f : VF) (x : VX) (s : State) : exec (.shl64 f x) s = execShl64 f x s := rfl
@[simp] theorem exec_shr (f : VF) (s : State) : exec (.shr f) s = execShr f s := rfl
@[simp] theorem exec_shr64 (f : VF) (x : VX) (s : State) : exec (.shr64 f x) s = execShr64 f x s := rfl
@[simp] theorem exec_sra (f : VF) (s : State) : exec (.sra f) s = execSra f s := rfl
@[simp] theorem exec_sra64 (f : VF) (x : VX) (s : State) : exec (.sra64 f x) s = execSra64 f x s := rfl
@[simp] theorem exec_vmin (f : VF) (s : State) : exec (.vmin f) s = execVmin f s := rfl
@[simp] theorem exec_vmin64 (f : VF) (x : VX) (s : State) : exec (.vmin64 f x) s = execVmin64 f x s := rfl
@[simp] theorem exec_vmax (f : VF) (s : State) : exec (.vmax f) s = execVmax f s := rfl
@[simp] theorem exec_vmax64 (f : VF) (x : VX) (s : State) : exec (.vmax64 f x) s = execVmax64 f x s := rfl
@[simp] theorem exec_vabs (f : VF) (s : State) : exec (.vabs f) s = execVabs f s := rfl
@[simp] theorem exec_vabs64 (f : VF) (x : VX) (s : State) : exec (.vabs64 f x) s = execVabs64 f x s := rfl
@[simp] theorem exec_clz (f : VF) (s : State) : exec (.clz f) s = execClz f s := rfl
@[simp] theorem exec_clz64 (f : VF) (x : VX) (s : State) : exec (.clz64 f x) s = execClz64 f x s := rfl
@[simp] theorem exec_popc (f : VF) (s : State) : exec (.popc f) s = execPopc f s := rfl
@[simp] theorem exec_popc64 (f : VF) (x : VX) (s : State) : exec (.popc64 f x) s = execPopc64 f x s := rfl
@[simp] theorem exec_bfe (f : VF) (s : State) : exec (.bfe f) s = execBfe f s := rfl
@[simp] theorem exec_bfe64 (f : VF) (x : VX) (s : State) : exec (.bfe64 f x) s = execBfe64 f x s := rfl
@[simp] theorem exec_bfi (f : VF) (x : VX) (s : State) : exec (.bfi f x) s = execBfi f x s := rfl
@[simp] theorem exec_sel (f : VF) (x : VX) (s : State) : exec (.sel f x) s = execSel f x s := rfl
@[simp] theorem exec_cmp (f : VF) (s : State) : exec (.cmp f) s = execCmp f s := rfl
@[simp] theorem exec_cmp64 (f : VF) (x : VX) (s : State) : exec (.cmp64 f x) s = execCmp64 f x s := rfl
@[simp] theorem exec_plog (f : VF) (x : VX) (s : State) : exec (.plog f x) s = execPlog f x s := rfl
@[simp] theorem exec_cvt (f : VF) (x : VX) (s : State) : exec (.cvt f x) s = execCvt f x s := rfl
@[simp] theorem exec_fadd (f : VF) (s : State) : exec (.fadd f) s = execFadd f s := rfl
@[simp] theorem exec_fadd64 (f : VF) (x : VX) (s : State) : exec (.fadd64 f x) s = execFadd64 f x s := rfl
@[simp] theorem exec_fsub (f : VF) (s : State) : exec (.fsub f) s = execFsub f s := rfl
@[simp] theorem exec_fsub64 (f : VF) (x : VX) (s : State) : exec (.fsub64 f x) s = execFsub64 f x s := rfl
@[simp] theorem exec_fmul (f : VF) (s : State) : exec (.fmul f) s = execFmul f s := rfl
@[simp] theorem exec_fmul64 (f : VF) (x : VX) (s : State) : exec (.fmul64 f x) s = execFmul64 f x s := rfl
@[simp] theorem exec_ffma (f : VF) (x : VX) (s : State) : exec (.ffma f x) s = execFfma f x s := rfl
@[simp] theorem exec_fmin (f : VF) (s : State) : exec (.fmin f) s = execFmin f s := rfl
@[simp] theorem exec_fmin64 (f : VF) (x : VX) (s : State) : exec (.fmin64 f x) s = execFmin64 f x s := rfl
@[simp] theorem exec_fmax (f : VF) (s : State) : exec (.fmax f) s = execFmax f s := rfl
@[simp] theorem exec_fmax64 (f : VF) (x : VX) (s : State) : exec (.fmax64 f x) s = execFmax64 f x s := rfl
@[simp] theorem exec_fcmp (f : VF) (s : State) : exec (.fcmp f) s = execFcmp f s := rfl
@[simp] theorem exec_fcmp64 (f : VF) (x : VX) (s : State) : exec (.fcmp64 f x) s = execFcmp64 f x s := rfl
@[simp] theorem exec_frcp (f : VF) (s : State) : exec (.frcp f) s = execFrcp f s := rfl
@[simp] theorem exec_frcp64 (f : VF) (x : VX) (s : State) : exec (.frcp64 f x) s = execFrcp64 f x s := rfl
@[simp] theorem exec_frsq (f : VF) (s : State) : exec (.frsq f) s = execFrsq f s := rfl
@[simp] theorem exec_frsq64 (f : VF) (x : VX) (s : State) : exec (.frsq64 f x) s = execFrsq64 f x s := rfl
@[simp] theorem exec_fsqrt (f : VF) (s : State) : exec (.fsqrt f) s = execFsqrt f s := rfl
@[simp] theorem exec_fsqrt64 (f : VF) (x : VX) (s : State) : exec (.fsqrt64 f x) s = execFsqrt64 f x s := rfl
@[simp] theorem exec_fexp2 (f : VF) (s : State) : exec (.fexp2 f) s = execFexp2 f s := rfl
@[simp] theorem exec_fexp264 (f : VF) (x : VX) (s : State) : exec (.fexp264 f x) s = execFexp264 f x s := rfl
@[simp] theorem exec_flog2 (f : VF) (s : State) : exec (.flog2 f) s = execFlog2 f s := rfl
@[simp] theorem exec_flog264 (f : VF) (x : VX) (s : State) : exec (.flog264 f x) s = execFlog264 f x s := rfl
@[simp] theorem exec_fsin (f : VF) (s : State) : exec (.fsin f) s = execFsin f s := rfl
@[simp] theorem exec_fsin64 (f : VF) (x : VX) (s : State) : exec (.fsin64 f x) s = execFsin64 f x s := rfl
@[simp] theorem exec_fcos (f : VF) (s : State) : exec (.fcos f) s = execFcos f s := rfl
@[simp] theorem exec_fcos64 (f : VF) (x : VX) (s : State) : exec (.fcos64 f x) s = execFcos64 f x s := rfl
@[simp] theorem exec_fdiv (f : VF) (s : State) : exec (.fdiv f) s = execFdiv f s := rfl
@[simp] theorem exec_fdiv64 (f : VF) (x : VX) (s : State) : exec (.fdiv64 f x) s = execFdiv64 f x s := rfl
@[simp] theorem exec_fclass (f : VF) (s : State) : exec (.fclass f) s = execFclass f s := rfl
@[simp] theorem exec_fclass64 (f : VF) (x : VX) (s : State) : exec (.fclass64 f x) s = execFclass64 f x s := rfl
@[simp] theorem exec_shuf (f : VF) (s : State) : exec (.shuf f) s = execShuf f s := rfl
@[simp] theorem exec_shuf64 (f : VF) (x : VX) (s : State) : exec (.shuf64 f x) s = execShuf64 f x s := rfl
@[simp] theorem exec_voteAny (f : VF) (s : State) : exec (.voteAny f) s = execVoteAny f s := rfl
@[simp] theorem exec_vote64 (f : VF) (x : VX) (s : State) : exec (.vote64 f x) s = execVote64 f x s := rfl
@[simp] theorem exec_gred (f : VF) (s : State) : exec (.gred f) s = execGred f s := rfl
@[simp] theorem exec_gred64 (f : VF) (x : VX) (s : State) : exec (.gred64 f x) s = execGred64 f x s := rfl
@[simp] theorem exec_scan (f : VF) (s : State) : exec (.scan f) s = execScan f s := rfl
@[simp] theorem exec_scan64 (f : VF) (x : VX) (s : State) : exec (.scan64 f x) s = execScan64 f x s := rfl
@[simp] theorem exec_qmx (f : VF) (x : VX) (s : State) : exec (.qmx f x) s = execQmx f x s := rfl
@[simp] theorem exec_dqmx (f : VF) (x : VX) (s : State) : exec (.dqmx f x) s = execDqmx f x s := rfl
@[simp] theorem exec_pack (f : VF) (x : VX) (s : State) : exec (.pack f x) s = execPack f x s := rfl
@[simp] theorem exec_unpk (f : VF) (x : VX) (s : State) : exec (.unpk f x) s = execUnpk f x s := rfl
@[simp] theorem exec_gets (f : VF) (s : State) : exec (.gets f) s = execGets f s := rfl
@[simp] theorem exec_movs (f : VF) (x : VX) (s : State) : exec (.movs f x) s = execMovs f x s := rfl
@[simp] theorem exec_movp (f : VF) (s : State) : exec (.movp f) s = execMovp f s := rfl
@[simp] theorem exec_movp64 (f : VF) (x : VX) (s : State) : exec (.movp64 f x) s = execMovp64 f x s := rfl
@[simp] theorem exec_ld (f : VF) (s : State) : exec (.ld f) s = execLd f s := rfl
@[simp] theorem exec_ld64 (f : VF) (x : MX) (s : State) : exec (.ld64 f x) s = execLd64 f x s := rfl
@[simp] theorem exec_st (f : VF) (s : State) : exec (.st f) s = execSt f s := rfl
@[simp] theorem exec_st64 (f : VF) (x : MX) (s : State) : exec (.st64 f x) s = execSt64 f x s := rfl
@[simp] theorem exec_lds (f : VF) (x : MX) (s : State) : exec (.lds f x) s = execLds f x s := rfl
@[simp] theorem exec_sts (f : VF) (x : MX) (s : State) : exec (.sts f x) s = execSts f x s := rfl
@[simp] theorem exec_ldl (f : VF) (x : MX) (s : State) : exec (.ldl f x) s = execLdl f x s := rfl
@[simp] theorem exec_stl (f : VF) (x : MX) (s : State) : exec (.stl f x) s = execStl f x s := rfl
@[simp] theorem exec_ldu (f : VF) (s : State) : exec (.ldu f) s = execLdu f s := rfl
@[simp] theorem exec_ldu64 (f : VF) (x : MX) (s : State) : exec (.ldu64 f x) s = execLdu64 f x s := rfl
@[simp] theorem exec_stu (f : VF) (s : State) : exec (.stu f) s = execStu f s := rfl
@[simp] theorem exec_stu64 (f : VF) (x : MX) (s : State) : exec (.stu64 f x) s = execStu64 f x s := rfl
@[simp] theorem exec_atom (f : VF) (x : MX) (s : State) : exec (.atom f x) s = execAtom f x s := rfl
@[simp] theorem exec_cas (f : VF) (x : MX) (s : State) : exec (.cas f x) s = execCas f x s := rfl
@[simp] theorem exec_fence (f : VF) (s : State) : exec (.fence f) s = execFence f s := rfl
@[simp] theorem exec_fence64 (f : VF) (x : MX) (s : State) : exec (.fence64 f x) s = execFence64 f x s := rfl
@[simp] theorem exec_tmov (f : VF) (s : State) : exec (.tmov f) s = execTmov f s := rfl
@[simp] theorem exec_tmov64 (f : VF) (x : MX) (s : State) : exec (.tmov64 f x) s = execTmov64 f x s := rfl
@[simp] theorem exec_moveProgress (gid cmd : Nat) (s : State) : exec (.moveProgress gid cmd) s = execMoveProgress gid cmd s := rfl
@[simp] theorem exec_memoryCommandComplete (gid cmd : Nat) (s : State) : exec (.memoryCommandComplete gid cmd) s = execMemoryCommandComplete gid cmd s := rfl
@[simp] theorem exec_tmcast (f : VF) (x : MX) (s : State) : exec (.tmcast f x) s = execTmcast f x s := rfl
@[simp] theorem exec_tmcastDelivery (gid cmd : Nat) (s : State) : exec (.tmcastDelivery gid cmd) s = execTmcastDelivery gid cmd s := rfl
@[simp] theorem exec_twait (f : VF) (s : State) : exec (.twait f) s = execTwait f s := rfl
@[simp] theorem exec_tstat (f : VF) (s : State) : exec (.tstat f) s = execTstat f s := rfl
@[simp] theorem exec_sbind (f : VF) (s : State) : exec (.sbind f) s = execSbind f s := rfl
@[simp] theorem exec_sbind64 (f : VF) (x : MX) (s : State) : exec (.sbind64 f x) s = execSbind64 f x s := rfl
@[simp] theorem exec_streamFetch (gid w : Nat) (s : State) : exec (.streamFetch gid w) s = execStreamFetch gid w s := rfl
@[simp] theorem exec_sfree (f : VF) (s : State) : exec (.sfree f) s = execSfree f s := rfl
@[simp] theorem exec_semw (f : VF) (s : State) : exec (.semw f) s = execSemw f s := rfl
@[simp] theorem exec_semw64 (f : VF) (x : MX) (s : State) : exec (.semw64 f x) s = execSemw64 f x s := rfl
@[simp] theorem exec_sems (f : VF) (s : State) : exec (.sems f) s = execSems f s := rfl
@[simp] theorem exec_sems64 (f : VF) (x : MX) (s : State) : exec (.sems64 f x) s = execSems64 f x s := rfl
@[simp] theorem exec_slot (f : VF) (s : State) : exec (.slot f) s = execSlot f s := rfl
@[simp] theorem exec_csend (f : VF) (s : State) : exec (.csend f) s = execCsend f s := rfl
@[simp] theorem exec_csendLanded (gid cmd : Nat) (s : State) : exec (.csendLanded gid cmd) s = execCsendLanded gid cmd s := rfl
@[simp] theorem exec_wlapp (f : VF) (x : MX) (s : State) : exec (.wlapp f x) s = execWlapp f x s := rfl
@[simp] theorem exec_worklistAgeExpiry (set list : Nat) (s : State) : exec (.worklistAgeExpiry set list) s = execWorklistAgeExpiry set list s := rfl
@[simp] theorem exec_drainComplete (launch : Nat) (s : State) : exec (.drainComplete launch) s = execDrainComplete launch s := rfl
@[simp] theorem exec_wltake (f : VF) (x : MX) (s : State) : exec (.wltake f x) s = execWltake f x s := rfl
@[simp] theorem exec_wldone (f : VF) (s : State) : exec (.wldone f) s = execWldone f s := rfl
@[simp] theorem exec_wldone64 (f : VF) (x : MX) (s : State) : exec (.wldone64 f x) s = execWldone64 f x s := rfl
@[simp] theorem exec_gath (f : VF) (x : MX) (s : State) : exec (.gath f x) s = execGath f x s := rfl
@[simp] theorem exec_scat (f : VF) (x : MX) (s : State) : exec (.scat f x) s = execScat f x s := rfl
@[simp] theorem exec_mcfg (g : KG) (level : BitVec 3) (a b : BitVec 6) (s : State) : exec (.mcfg g level a b) s = execMcfg g level a b s := rfl
@[simp] theorem exec_mcfgAct (g : KG) (level : BitVec 3) (a b : BitVec 6) (s : State) : exec (.mcfgAct g level a b) s = execMcfgAct g level a b s := rfl
@[simp] theorem exec_mnest (g : KG) (s : State) : exec (.mnest g) s = execMnest g s := rfl
@[simp] theorem exec_mma (g : KG) (a b : BitVec 6) (s : State) : exec (.mma g a b) s = execMma g a b s := rfl
@[simp] theorem exec_mmaOvw (g : KG) (a b : BitVec 6) (s : State) : exec (.mmaOvw g a b) s = execMmaOvw g a b s := rfl
@[simp] theorem exec_matrixStep (gid : Nat) (s : State) : exec (.matrixStep gid) s = execMatrixStep gid s := rfl
@[simp] theorem exec_xCommandComplete (gid : Nat) (s : State) : exec (.xCommandComplete gid) s = execXCommandComplete gid s := rfl
@[simp] theorem exec_mfmt (g : KG) (index : BitVec 4) (a : BitVec 6) (s : State) : exec (.mfmt g index a) s = execMfmt g index a s := rfl
@[simp] theorem exec_awin (g : KG) (a : BitVec 6) (s : State) : exec (.awin g a) s = execAwin g a s := rfl
@[simp] theorem exec_aclr (g : KG) (a : BitVec 6) (s : State) : exec (.aclr g a) s = execAclr g a s := rfl
@[simp] theorem exec_aepi (g : KG) (d a b : BitVec 6) (off : BitVec 16) (sp sc : BitVec 3) (s : State) : exec (.aepi g d a b off sp sc) s = execAepi g d a b off sp sc s := rfl
@[simp] theorem exec_ald (g : KG) (d a : BitVec 6) (s : State) : exec (.ald g d a) s = execAld g d a s := rfl
@[simp] theorem exec_ast (g : KG) (d a : BitVec 6) (s : State) : exec (.ast g d a) s = execAst g d a s := rfl
@[simp] theorem exec_mstatStat (g : KG) (d a : BitVec 6) (s : State) : exec (.mstatStat g d a) s = execMstatStat g d a s := rfl
@[simp] theorem exec_mstatWait (g : KG) (d a : BitVec 6) (s : State) : exec (.mstatWait g d a) s = execMstatWait g d a s := rfl
@[simp] theorem exec_mstatOvf (g : KG) (d a : BitVec 6) (s : State) : exec (.mstatOvf g d a) s = execMstatOvf g d a s := rfl
@[simp] theorem exec_mstatOvfc (g : KG) (d a : BitVec 6) (s : State) : exec (.mstatOvfc g d a) s = execMstatOvfc g d a s := rfl
@[simp] theorem exec_mstatFerr (g : KG) (d a : BitVec 6) (s : State) : exec (.mstatFerr g d a) s = execMstatFerr g d a s := rfl
@[simp] theorem exec_mstatFerrc (g : KG) (d a : BitVec 6) (s : State) : exec (.mstatFerrc g d a) s = execMstatFerrc g d a s := rfl
@[simp] theorem exec_mstatNest (g : KG) (d a : BitVec 6) (s : State) : exec (.mstatNest g d a) s = execMstatNest g d a s := rfl
@[simp] theorem exec_mstatNests (g : KG) (d a : BitVec 6) (s : State) : exec (.mstatNests g d a) s = execMstatNests g d a s := rfl
@[simp] theorem exec_mstatFmt (g : KG) (d a : BitVec 6) (s : State) : exec (.mstatFmt g d a) s = execMstatFmt g d a s := rfl
@[simp] theorem exec_mstop (g : KG) (s : State) : exec (.mstop g) s = execMstop g s := rfl
@[simp] theorem exec_dclaim (g : KG) (s : State) : exec (.dclaim g) s = execDclaim g s := rfl
@[simp] theorem exec_dclaimTry (g : KG) (q : BitVec 3) (s : State) : exec (.dclaimTry g q) s = execDclaimTry g q s := rfl
@[simp] theorem exec_dfree (g : KG) (s : State) : exec (.dfree g) s = execDfree g s := rfl
@[simp] theorem exec_dpatch (g : KG) (a b : BitVec 6) (s : State) : exec (.dpatch g a b) s = execDpatch g a b s := rfl
@[simp] theorem exec_dinit (g : KG) (d a b : BitVec 6) (s : State) : exec (.dinit g d a b) s = execDinit g d a b s := rfl
@[simp] theorem exec_dsave (g : KG) (d a : BitVec 6) (s : State) : exec (.dsave g d a) s = execDsave g d a s := rfl
@[simp] theorem exec_dsaveTq (g : KG) (d : BitVec 6) (s : State) : exec (.dsaveTq g d) s = execDsaveTq g d s := rfl
@[simp] theorem exec_drest (g : KG) (d : BitVec 6) (s : State) : exec (.drest g d) s = execDrest g d s := rfl
@[simp] theorem exec_drestTq (g : KG) (d : BitVec 6) (s : State) : exec (.drestTq g d) s = execDrestTq g d s := rfl
@[simp] theorem exec_dclk (g : KG) (dom : BitVec 2) (a : BitVec 6) (s : State) : exec (.dclk g dom a) s = execDclk g dom a s := rfl
@[simp] theorem exec_dstep (g : KG) (mask : BitVec 4) (a : BitVec 6) (s : State) : exec (.dstep g mask a) s = execDstep g mask a s := rfl
@[simp] theorem exec_dstep64 (g : KG) (mask : BitVec 4) (imm : BitVec 32) (s : State) : exec (.dstep64 g mask imm) s = execDstep64 g mask imm s := rfl
@[simp] theorem exec_drun (g : KG) (mask : BitVec 4) (a : BitVec 6) (s : State) : exec (.drun g mask a) s = execDrun g mask a s := rfl
@[simp] theorem exec_drun64 (g : KG) (mask : BitVec 4) (imm : BitVec 32) (s : State) : exec (.drun64 g mask imm) s = execDrun64 g mask imm s := rfl
@[simp] theorem exec_dhalt (g : KG) (mask : BitVec 4) (s : State) : exec (.dhalt g mask) s = execDhalt g mask s := rfl
@[simp] theorem exec_dtap (g : KG) (tap : BitVec 4) (a : BitVec 6) (s : State) : exec (.dtap g tap a) s = execDtap g tap a s := rfl
@[simp] theorem exec_drdY (g : KG) (d a : BitVec 6) (s : State) : exec (.drdY g d a) s = execDrdY g d a s := rfl
@[simp] theorem exec_drdR (g : KG) (d a : BitVec 6) (s : State) : exec (.drdR g d a) s = execDrdR g d a s := rfl
@[simp] theorem exec_drdPatch (g : KG) (d a : BitVec 6) (s : State) : exec (.drdPatch g d a) s = execDrdPatch g d a s := rfl
@[simp] theorem exec_drdDz (g : KG) (d a : BitVec 6) (s : State) : exec (.drdDz g d a) s = execDrdDz g d a s := rfl
@[simp] theorem exec_drdTapc (g : KG) (d a : BitVec 6) (s : State) : exec (.drdTapc g d a) s = execDrdTapc g d a s := rfl
@[simp] theorem exec_drdTapn (g : KG) (d a : BitVec 6) (s : State) : exec (.drdTapn g d a) s = execDrdTapn g d a s := rfl
@[simp] theorem exec_drdPort (g : KG) (d a : BitVec 6) (s : State) : exec (.drdPort g d a) s = execDrdPort g d a s := rfl
@[simp] theorem exec_dwrY (g : KG) (a b : BitVec 6) (s : State) : exec (.dwrY g a b) s = execDwrY g a b s := rfl
@[simp] theorem exec_dwrR (g : KG) (a b : BitVec 6) (s : State) : exec (.dwrR g a b) s = execDwrR g a b s := rfl
@[simp] theorem exec_dwrPort (g : KG) (a b : BitVec 6) (s : State) : exec (.dwrPort g a b) s = execDwrPort g a b s := rfl
@[simp] theorem exec_dwrPcfg (g : KG) (a b : BitVec 6) (s : State) : exec (.dwrPcfg g a b) s = execDwrPcfg g a b s := rfl
@[simp] theorem exec_dwrTapc (g : KG) (a b : BitVec 6) (s : State) : exec (.dwrTapc g a b) s = execDwrTapc g a b s := rfl
@[simp] theorem exec_dstatStat (g : KG) (d : BitVec 6) (s : State) : exec (.dstatStat g d) s = execDstatStat g d s := rfl
@[simp] theorem exec_dstatWait (g : KG) (d : BitVec 6) (s : State) : exec (.dstatWait g d) s = execDstatWait g d s := rfl
@[simp] theorem exec_dstatSteps (g : KG) (d a : BitVec 6) (s : State) : exec (.dstatSteps g d a) s = execDstatSteps g d a s := rfl
@[simp] theorem exec_ddaCycle (core : Nat) (s : State) : exec (.ddaCycle core) s = execDdaCycle core s := rfl
@[simp] theorem exec_freeDomainTick (core : Nat) (dom : BitVec 2) (s : State) : exec (.freeDomainTick core dom) s = execFreeDomainTick core dom s := rfl
@[simp] theorem exec_bvhset (f : VF) (x : VX) (s : State) : exec (.bvhset f x) s = execBvhset f x s := rfl
@[simp] theorem exec_beam (f : VF) (x : VX) (s : State) : exec (.beam f x) s = execBeam f x s := rfl
@[simp] theorem exec_ray (f : VF) (s : State) : exec (.ray f) s = execRay f s := rfl
@[simp] theorem exec_ray64 (f : VF) (x : VX) (s : State) : exec (.ray64 f x) s = execRay64 f x s := rfl
@[simp] theorem exec_bres (f : VF) (x : VX) (s : State) : exec (.bres f x) s = execBres f x s := rfl
@[simp] theorem exec_bsplit (f : VF) (x : VX) (s : State) : exec (.bsplit f x) s = execBsplit f x s := rfl
@[simp] theorem exec_cover (f : VF) (x : VX) (s : State) : exec (.cover f x) s = execCover f x s := rfl
@[simp] theorem exec_robeg (f : VF) (x : VX) (s : State) : exec (.robeg f x) s = execRobeg f x s := rfl
@[simp] theorem exec_roend (f : VF) (s : State) : exec (.roend f) s = execRoend f s := rfl
@[simp] theorem exec_gbst (f : VF) (x : VX) (s : State) : exec (.gbst f x) s = execGbst f x s := rfl
@[simp] theorem exec_bstatSlot (f : VF) (x : VX) (s : State) : exec (.bstatSlot f x) s = execBstatSlot f x s := rfl
@[simp] theorem exec_bstatScene (f : VF) (x : VX) (s : State) : exec (.bstatScene f x) s = execBstatScene f x s := rfl
@[simp] theorem exec_bstatDepth (f : VF) (x : VX) (s : State) : exec (.bstatDepth f x) s = execBstatDepth f x s := rfl
@[simp] theorem exec_bstatOrd (f : VF) (x : VX) (s : State) : exec (.bstatOrd f x) s = execBstatOrd f x s := rfl
@[simp] theorem exec_bstatOrda (f : VF) (x : VX) (s : State) : exec (.bstatOrda f x) s = execBstatOrda f x s := rfl
@[simp] theorem exec_illegalLineFault (d : LineDefect) (s : State) : exec (.illegalLineFault d) s = execIllegalLineFault d s := rfl
@[simp] theorem exec_asyncTrap (gid : Nat) (s : State) : exec (.asyncTrap gid) s = execAsyncTrap gid s := rfl
@[simp] theorem exec_parktExpiry (gid : Nat) (s : State) : exec (.parktExpiry gid) s = execParktExpiry gid s := rfl
@[simp] theorem exec_watchRequeue (gid : Nat) (s : State) : exec (.watchRequeue gid) s = execWatchRequeue gid s := rfl
@[simp] theorem exec_stallTimeout (gid : Nat) (s : State) : exec (.stallTimeout gid) s = execStallTimeout gid s := rfl
@[simp] theorem exec_hangTimerExpiry (gid : Nat) (s : State) : exec (.hangTimerExpiry gid) s = execHangTimerExpiry gid s := rfl
@[simp] theorem exec_groupRestore (gid : Nat) (place : Place) (s : State) : exec (.groupRestore gid place) s = execGroupRestore gid place s := rfl
@[simp] theorem exec_taskStart (ctx task : Nat) (place : Place) (s : State) : exec (.taskStart ctx task place) s = execTaskStart ctx task place s := rfl
@[simp] theorem exec_teamPlace (launch : Nat) (places : List Place) (s : State) : exec (.teamPlace launch places) s = execTeamPlace launch places s := rfl
@[simp] theorem exec_teamStaggerStart (launch : Nat) (places : List Place) (s : State) : exec (.teamStaggerStart launch places) s = execTeamStaggerStart launch places s := rfl
@[simp] theorem exec_passoverLimit (die item : Nat) (s : State) : exec (.passoverLimit die item) s = execPassoverLimit die item s := rfl
@[simp] theorem exec_pendingLaunchDrain (core : Nat) (s : State) : exec (.pendingLaunchDrain core) s = execPendingLaunchDrain core s := rfl
@[simp] theorem exec_dieListTake (ctx die : Nat) (s : State) : exec (.dieListTake ctx die) s = execDieListTake ctx die s := rfl
@[simp] theorem exec_hostLaunchDoorbell (ctx : Nat) (wrptr : BitVec 64) (s : State) : exec (.hostLaunchDoorbell ctx wrptr) s = execHostLaunchDoorbell ctx wrptr s := rfl
@[simp] theorem exec_hostRecordConsume (ctx : Nat) (s : State) : exec (.hostRecordConsume ctx) s = execHostRecordConsume ctx s := rfl
@[simp] theorem exec_teamParked (team : Nat) (s : State) : exec (.teamParked team) s = execTeamParked team s := rfl
@[simp] theorem exec_currentGovernorCycle (die : Nat) (s : State) : exec (.currentGovernorCycle die) s = execCurrentGovernorCycle die s := rfl
@[simp] theorem exec_telemetrySample (die : Nat) (r : Sensors) (s : State) : exec (.telemetrySample die r) s = execTelemetrySample die r s := rfl
@[simp] theorem exec_create (ctx : Nat) (s : State) : exec (.create ctx) s = execCreate ctx s := rfl
@[simp] theorem exec_preempt (ctx : Nat) (s : State) : exec (.preempt ctx) s = execPreempt ctx s := rfl
@[simp] theorem exec_resume (ctx : Nat) (s : State) : exec (.resume ctx) s = execResume ctx s := rfl
@[simp] theorem exec_inval (ctx : Nat) (s : State) : exec (.inval ctx) s = execInval ctx s := rfl
@[simp] theorem exec_invalComplete (ctx : Nat) (s : State) : exec (.invalComplete ctx) s = execInvalComplete ctx s := rfl
@[simp] theorem exec_lreset (ctx : Nat) (s : State) : exec (.lreset ctx) s = execLreset ctx s := rfl
@[simp] theorem exec_destroy (ctx : Nat) (s : State) : exec (.destroy ctx) s = execDestroy ctx s := rfl
@[simp] theorem exec_cmdWriteWhileBusy (ctx : Nat) (code : BitVec 64) (s : State) : exec (.cmdWriteWhileBusy ctx code) s = execCmdWriteWhileBusy ctx code s := rfl
@[simp] theorem exec_update (s : State) : exec (.update) s = execUpdate s := rfl
@[simp] theorem exec_commit (s : State) : exec (.commit) s = execCommit s := rfl
@[simp] theorem exec_retire (s : State) : exec (.retire) s = execRetire s := rfl
@[simp] theorem exec_recal (s : State) : exec (.recal) s = execRecal s := rfl
@[simp] theorem exec_powcompatWrite (die : Nat) (v : BitVec 64) (s : State) : exec (.powcompatWrite die v) s = execPowcompatWrite die v s := rfl
@[simp] theorem exec_didtWrite (die : Nat) (v : BitVec 64) (s : State) : exec (.didtWrite die v) s = execDidtWrite die v s := rfl
@[simp] theorem exec_registerWrite (off : BitVec 25) (v : BitVec 64) (s : State) : exec (.registerWrite off v) s = execRegisterWrite off v s := rfl
@[simp] theorem exec_hostBar2Write (pa : BitVec 39) (bytes : List (BitVec 8)) (s : State) : exec (.hostBar2Write pa bytes) s = execHostBar2Write pa bytes s := rfl
@[simp] theorem exec_hostBar2Read (pa : BitVec 39) (count : Nat) (s : State) : exec (.hostBar2Read pa count) s = execHostBar2Read pa count s := rfl
@[simp] theorem exec_fabricRemoteAccess (pkg : Nat) (pa : BitVec 52) (op : RemoteOp) (s : State) : exec (.fabricRemoteAccess pkg pa op) s = execFabricRemoteAccess pkg pa op s := rfl
@[simp] theorem exec_packageUnreachable (pkg : Nat) (s : State) : exec (.packageUnreachable pkg) s = execPackageUnreachable pkg s := rfl
@[simp] theorem exec_linkErrorRetrain (link : Nat) (laneLost : Bool) (s : State) : exec (.linkErrorRetrain link laneLost) s = execLinkErrorRetrain link laneLost s := rfl
@[simp] theorem exec_bridgeLinkError (bridge : Nat) (s : State) : exec (.bridgeLinkError bridge) s = execBridgeLinkError bridge s := rfl
@[simp] theorem exec_errorDetected (e : ErrorReport) (s : State) : exec (.errorDetected e) s = execErrorDetected e s := rfl
@[simp] theorem exec_unitRetirement (cls : BitVec 4) (die unit : Nat) (s : State) : exec (.unitRetirement cls die unit) s = execUnitRetirement cls die unit s := rfl
@[simp] theorem exec_hbmRetrain (die channel : Nat) (s : State) : exec (.hbmRetrain die channel) s = execHbmRetrain die channel s := rfl
@[simp] theorem exec_bootVerify (die : Nat) (s : State) : exec (.bootVerify die) s = execBootVerify die s := rfl
@[simp] theorem exec_getVersion (s : State) : exec (.getVersion) s = execGetVersion s := rfl
@[simp] theorem exec_getCapabilities (s : State) : exec (.getCapabilities) s = execGetCapabilities s := rfl
@[simp] theorem exec_negotiateAlgorithms (s : State) : exec (.negotiateAlgorithms) s = execNegotiateAlgorithms s := rfl
@[simp] theorem exec_getDigests (s : State) : exec (.getDigests) s = execGetDigests s := rfl
@[simp] theorem exec_getCertificate (offset length : Nat) (s : State) : exec (.getCertificate offset length) s = execGetCertificate offset length s := rfl
@[simp] theorem exec_challenge (nonce : Nat) (s : State) : exec (.challenge nonce) s = execChallenge nonce s := rfl
@[simp] theorem exec_getMeasurements (index : Nat) (s : State) : exec (.getMeasurements index) s = execGetMeasurements index s := rfl
@[simp] theorem exec_spdmSessionRequest (s : State) : exec (.spdmSessionRequest) s = execSpdmSessionRequest s := rfl
@[simp] theorem exec_illegalInstructionFault (d : WordDefect) (s : State) : exec (.illegalInstructionFault d) s = execIllegalInstructionFault d s := rfl
@[simp] theorem exec_accessTakesEffect (gid index : Nat) (s : State) : exec (.accessTakesEffect gid index) s = execAccessTakesEffect gid index s := rfl
@[simp] theorem exec_ddaEventApplied (core : Nat) (s : State) : exec (.ddaEventApplied core) s = execDdaEventApplied core s := rfl
@[simp] theorem exec_retrainComplete (bridge : Bool) (index : Nat) (ok : Bool) (s : State) : exec (.retrainComplete bridge index ok) s = execRetrainComplete bridge index ok s := rfl
@[simp] theorem exec_firmwareSwitchEnd (die : Nat) (selfTest : Bool) (s : State) : exec (.firmwareSwitchEnd die selfTest) s = execFirmwareSwitchEnd die selfTest s := rfl

end Sys2Proof.Machine
end

