-- ==== Sys2Proof/Laws/State.lean ====
section
/-! SUPPORT. What each update of the state leaves: one lemma per field per update. -/

namespace Sys2Proof.Machine

/-! ## State.mapOcc -/

@[simp] theorem State.mapOcc_mem (s : State) (f : Occ → Occ) : (s.mapOcc f).mem = s.mem := rfl
@[simp] theorem State.mapOcc_poison (s : State) (f : Occ → Occ) : (s.mapOcc f).poison = s.poison := rfl
@[simp] theorem State.mapOcc_others (s : State) (f : Occ → Occ) : (s.mapOcc f).others = s.others := rfl
@[simp] theorem State.mapOcc_cores (s : State) (f : Occ → Occ) : (s.mapOcc f).cores = s.cores := rfl
@[simp] theorem State.mapOcc_dies (s : State) (f : Occ → Occ) : (s.mapOcc f).dies = s.dies := rfl
@[simp] theorem State.mapOcc_ctxs (s : State) (f : Occ → Occ) : (s.mapOcc f).ctxs = s.ctxs := rfl
@[simp] theorem State.mapOcc_launches (s : State) (f : Occ → Occ) : (s.mapOcc f).launches = s.launches := rfl
@[simp] theorem State.mapOcc_teams (s : State) (f : Occ → Occ) : (s.mapOcc f).teams = s.teams := rfl
@[simp] theorem State.mapOcc_tasks (s : State) (f : Occ → Occ) : (s.mapOcc f).tasks = s.tasks := rfl
@[simp] theorem State.mapOcc_ready (s : State) (f : Occ → Occ) : (s.mapOcc f).ready = s.ready := rfl
@[simp] theorem State.mapOcc_felts (s : State) (f : Occ → Occ) : (s.mapOcc f).felts = s.felts := rfl
@[simp] theorem State.mapOcc_watching (s : State) (f : Occ → Occ) : (s.mapOcc f).watching = s.watching := rfl
@[simp] theorem State.mapOcc_torn (s : State) (f : Occ → Occ) : (s.mapOcc f).torn = s.torn := rfl
@[simp] theorem State.mapOcc_tokens (s : State) (f : Occ → Occ) : (s.mapOcc f).tokens = s.tokens := rfl
@[simp] theorem State.mapOcc_tlb (s : State) (f : Occ → Occ) : (s.mapOcc f).tlb = s.tlb := rfl
@[simp] theorem State.mapOcc_bridges (s : State) (f : Occ → Occ) : (s.mapOcc f).bridges = s.bridges := rfl
@[simp] theorem State.mapOcc_links (s : State) (f : Occ → Occ) : (s.mapOcc f).links = s.links := rfl
@[simp] theorem State.mapOcc_unreachable (s : State) (f : Occ → Occ) : (s.mapOcc f).unreachable = s.unreachable := rfl
@[simp] theorem State.mapOcc_tod (s : State) (f : Occ → Occ) : (s.mapOcc f).tod = s.tod := rfl
@[simp] theorem State.mapOcc_pkgid (s : State) (f : Occ → Occ) : (s.mapOcc f).pkgid = s.pkgid := rfl
@[simp] theorem State.mapOcc_powcap (s : State) (f : Occ → Occ) : (s.mapOcc f).powcap = s.powcap := rfl
@[simp] theorem State.mapOcc_exports (s : State) (f : Occ → Occ) : (s.mapOcc f).exports = s.exports := rfl
@[simp] theorem State.mapOcc_service (s : State) (f : Occ → Occ) : (s.mapOcc f).service = s.service := rfl
@[simp] theorem State.mapOcc_signals (s : State) (f : Occ → Occ) : (s.mapOcc f).signals = s.signals := rfl
@[simp] theorem State.mapOcc_replies (s : State) (f : Occ → Occ) : (s.mapOcc f).replies = s.replies := rfl
@[simp] theorem State.mapOcc_spdm (s : State) (f : Occ → Occ) : (s.mapOcc f).spdm = s.spdm := rfl
@[simp] theorem State.mapOcc_uid (s : State) (f : Occ → Occ) : (s.mapOcc f).uid = s.uid := rfl
@[simp] theorem State.mapOcc_agenda (s : State) (f : Occ → Occ) : (s.mapOcc f).agenda = s.agenda := rfl
@[simp] theorem State.mapOcc_idle (s : State) (f : Occ → Occ) : (s.mapOcc f).idle = s.idle := rfl
@[simp] theorem State.mapOcc_freeSeq (s : State) (f : Occ → Occ) : (s.mapOcc f).freeSeq = s.freeSeq := rfl

@[simp] theorem State.mapOcc_occ (s : State) (f : Occ → Occ) : (s.mapOcc f).occ = f s.occ := rfl
@[simp] theorem State.mapOcc_me_gid (s : State) (f : Occ → Occ) : (s.mapOcc f).me.gid = s.me.gid := rfl
@[simp] theorem State.mapOcc_me_ctx (s : State) (f : Occ → Occ) : (s.mapOcc f).me.ctx = s.me.ctx := rfl
@[simp] theorem State.mapOcc_me_run (s : State) (f : Occ → Occ) : (s.mapOcc f).me.run = s.me.run := rfl
@[simp] theorem State.mapOcc_me_place (s : State) (f : Occ → Occ) : (s.mapOcc f).me.place = s.me.place := rfl
@[simp] theorem State.mapOcc_me_alim (s : State) (f : Occ → Occ) : (s.mapOcc f).me.alim = s.me.alim := rfl
@[simp] theorem State.mapOcc_me_under (s : State) (f : Occ → Occ) : (s.mapOcc f).me.under = s.me.under := rfl
@[simp] theorem State.mapOcc_me_progress (s : State) (f : Occ → Occ) : (s.mapOcc f).me.progress = s.me.progress := rfl
@[simp] theorem State.mapOcc_me_recorded (s : State) (f : Occ → Occ) : (s.mapOcc f).me.recorded = s.me.recorded := rfl

/-! ## State.setS -/

@[simp] theorem State.setS_mem (s : State) (r : BitVec 6) (x : DWord) : (s.setS r x).mem = s.mem := rfl
@[simp] theorem State.setS_poison (s : State) (r : BitVec 6) (x : DWord) : (s.setS r x).poison = s.poison := rfl
@[simp] theorem State.setS_others (s : State) (r : BitVec 6) (x : DWord) : (s.setS r x).others = s.others := rfl
@[simp] theorem State.setS_cores (s : State) (r : BitVec 6) (x : DWord) : (s.setS r x).cores = s.cores := rfl
@[simp] theorem State.setS_dies (s : State) (r : BitVec 6) (x : DWord) : (s.setS r x).dies = s.dies := rfl
@[simp] theorem State.setS_ctxs (s : State) (r : BitVec 6) (x : DWord) : (s.setS r x).ctxs = s.ctxs := rfl
@[simp] theorem State.setS_launches (s : State) (r : BitVec 6) (x : DWord) : (s.setS r x).launches = s.launches := rfl
@[simp] theorem State.setS_teams (s : State) (r : BitVec 6) (x : DWord) : (s.setS r x).teams = s.teams := rfl
@[simp] theorem State.setS_tasks (s : State) (r : BitVec 6) (x : DWord) : (s.setS r x).tasks = s.tasks := rfl
@[simp] theorem State.setS_ready (s : State) (r : BitVec 6) (x : DWord) : (s.setS r x).ready = s.ready := rfl
@[simp] theorem State.setS_felts (s : State) (r : BitVec 6) (x : DWord) : (s.setS r x).felts = s.felts := rfl
@[simp] theorem State.setS_watching (s : State) (r : BitVec 6) (x : DWord) : (s.setS r x).watching = s.watching := rfl
@[simp] theorem State.setS_torn (s : State) (r : BitVec 6) (x : DWord) : (s.setS r x).torn = s.torn := rfl
@[simp] theorem State.setS_tokens (s : State) (r : BitVec 6) (x : DWord) : (s.setS r x).tokens = s.tokens := rfl
@[simp] theorem State.setS_tlb (s : State) (r : BitVec 6) (x : DWord) : (s.setS r x).tlb = s.tlb := rfl
@[simp] theorem State.setS_bridges (s : State) (r : BitVec 6) (x : DWord) : (s.setS r x).bridges = s.bridges := rfl
@[simp] theorem State.setS_links (s : State) (r : BitVec 6) (x : DWord) : (s.setS r x).links = s.links := rfl
@[simp] theorem State.setS_unreachable (s : State) (r : BitVec 6) (x : DWord) : (s.setS r x).unreachable = s.unreachable := rfl
@[simp] theorem State.setS_tod (s : State) (r : BitVec 6) (x : DWord) : (s.setS r x).tod = s.tod := rfl
@[simp] theorem State.setS_pkgid (s : State) (r : BitVec 6) (x : DWord) : (s.setS r x).pkgid = s.pkgid := rfl
@[simp] theorem State.setS_powcap (s : State) (r : BitVec 6) (x : DWord) : (s.setS r x).powcap = s.powcap := rfl
@[simp] theorem State.setS_exports (s : State) (r : BitVec 6) (x : DWord) : (s.setS r x).exports = s.exports := rfl
@[simp] theorem State.setS_service (s : State) (r : BitVec 6) (x : DWord) : (s.setS r x).service = s.service := rfl
@[simp] theorem State.setS_signals (s : State) (r : BitVec 6) (x : DWord) : (s.setS r x).signals = s.signals := rfl
@[simp] theorem State.setS_replies (s : State) (r : BitVec 6) (x : DWord) : (s.setS r x).replies = s.replies := rfl
@[simp] theorem State.setS_spdm (s : State) (r : BitVec 6) (x : DWord) : (s.setS r x).spdm = s.spdm := rfl
@[simp] theorem State.setS_uid (s : State) (r : BitVec 6) (x : DWord) : (s.setS r x).uid = s.uid := rfl
@[simp] theorem State.setS_agenda (s : State) (r : BitVec 6) (x : DWord) : (s.setS r x).agenda = s.agenda := rfl
@[simp] theorem State.setS_idle (s : State) (r : BitVec 6) (x : DWord) : (s.setS r x).idle = s.idle := rfl
@[simp] theorem State.setS_freeSeq (s : State) (r : BitVec 6) (x : DWord) : (s.setS r x).freeSeq = s.freeSeq := rfl

/-! ## State.setQ -/

@[simp] theorem State.setQ_mem (s : State) (r : BitVec 3) (x : Bool) : (s.setQ r x).mem = s.mem := rfl
@[simp] theorem State.setQ_poison (s : State) (r : BitVec 3) (x : Bool) : (s.setQ r x).poison = s.poison := rfl
@[simp] theorem State.setQ_others (s : State) (r : BitVec 3) (x : Bool) : (s.setQ r x).others = s.others := rfl
@[simp] theorem State.setQ_cores (s : State) (r : BitVec 3) (x : Bool) : (s.setQ r x).cores = s.cores := rfl
@[simp] theorem State.setQ_dies (s : State) (r : BitVec 3) (x : Bool) : (s.setQ r x).dies = s.dies := rfl
@[simp] theorem State.setQ_ctxs (s : State) (r : BitVec 3) (x : Bool) : (s.setQ r x).ctxs = s.ctxs := rfl
@[simp] theorem State.setQ_launches (s : State) (r : BitVec 3) (x : Bool) : (s.setQ r x).launches = s.launches := rfl
@[simp] theorem State.setQ_teams (s : State) (r : BitVec 3) (x : Bool) : (s.setQ r x).teams = s.teams := rfl
@[simp] theorem State.setQ_tasks (s : State) (r : BitVec 3) (x : Bool) : (s.setQ r x).tasks = s.tasks := rfl
@[simp] theorem State.setQ_ready (s : State) (r : BitVec 3) (x : Bool) : (s.setQ r x).ready = s.ready := rfl
@[simp] theorem State.setQ_felts (s : State) (r : BitVec 3) (x : Bool) : (s.setQ r x).felts = s.felts := rfl
@[simp] theorem State.setQ_watching (s : State) (r : BitVec 3) (x : Bool) : (s.setQ r x).watching = s.watching := rfl
@[simp] theorem State.setQ_torn (s : State) (r : BitVec 3) (x : Bool) : (s.setQ r x).torn = s.torn := rfl
@[simp] theorem State.setQ_tokens (s : State) (r : BitVec 3) (x : Bool) : (s.setQ r x).tokens = s.tokens := rfl
@[simp] theorem State.setQ_tlb (s : State) (r : BitVec 3) (x : Bool) : (s.setQ r x).tlb = s.tlb := rfl
@[simp] theorem State.setQ_bridges (s : State) (r : BitVec 3) (x : Bool) : (s.setQ r x).bridges = s.bridges := rfl
@[simp] theorem State.setQ_links (s : State) (r : BitVec 3) (x : Bool) : (s.setQ r x).links = s.links := rfl
@[simp] theorem State.setQ_unreachable (s : State) (r : BitVec 3) (x : Bool) : (s.setQ r x).unreachable = s.unreachable := rfl
@[simp] theorem State.setQ_tod (s : State) (r : BitVec 3) (x : Bool) : (s.setQ r x).tod = s.tod := rfl
@[simp] theorem State.setQ_pkgid (s : State) (r : BitVec 3) (x : Bool) : (s.setQ r x).pkgid = s.pkgid := rfl
@[simp] theorem State.setQ_powcap (s : State) (r : BitVec 3) (x : Bool) : (s.setQ r x).powcap = s.powcap := rfl
@[simp] theorem State.setQ_exports (s : State) (r : BitVec 3) (x : Bool) : (s.setQ r x).exports = s.exports := rfl
@[simp] theorem State.setQ_service (s : State) (r : BitVec 3) (x : Bool) : (s.setQ r x).service = s.service := rfl
@[simp] theorem State.setQ_signals (s : State) (r : BitVec 3) (x : Bool) : (s.setQ r x).signals = s.signals := rfl
@[simp] theorem State.setQ_replies (s : State) (r : BitVec 3) (x : Bool) : (s.setQ r x).replies = s.replies := rfl
@[simp] theorem State.setQ_spdm (s : State) (r : BitVec 3) (x : Bool) : (s.setQ r x).spdm = s.spdm := rfl
@[simp] theorem State.setQ_uid (s : State) (r : BitVec 3) (x : Bool) : (s.setQ r x).uid = s.uid := rfl
@[simp] theorem State.setQ_agenda (s : State) (r : BitVec 3) (x : Bool) : (s.setQ r x).agenda = s.agenda := rfl
@[simp] theorem State.setQ_idle (s : State) (r : BitVec 3) (x : Bool) : (s.setQ r x).idle = s.idle := rfl
@[simp] theorem State.setQ_freeSeq (s : State) (r : BitVec 3) (x : Bool) : (s.setQ r x).freeSeq = s.freeSeq := rfl

/-! ## State.setFlow -/

@[simp] theorem State.setFlow_mem (s : State) (f : Flow) : (s.setFlow f).mem = s.mem := rfl
@[simp] theorem State.setFlow_poison (s : State) (f : Flow) : (s.setFlow f).poison = s.poison := rfl
@[simp] theorem State.setFlow_others (s : State) (f : Flow) : (s.setFlow f).others = s.others := rfl
@[simp] theorem State.setFlow_cores (s : State) (f : Flow) : (s.setFlow f).cores = s.cores := rfl
@[simp] theorem State.setFlow_dies (s : State) (f : Flow) : (s.setFlow f).dies = s.dies := rfl
@[simp] theorem State.setFlow_ctxs (s : State) (f : Flow) : (s.setFlow f).ctxs = s.ctxs := rfl
@[simp] theorem State.setFlow_launches (s : State) (f : Flow) : (s.setFlow f).launches = s.launches := rfl
@[simp] theorem State.setFlow_teams (s : State) (f : Flow) : (s.setFlow f).teams = s.teams := rfl
@[simp] theorem State.setFlow_tasks (s : State) (f : Flow) : (s.setFlow f).tasks = s.tasks := rfl
@[simp] theorem State.setFlow_ready (s : State) (f : Flow) : (s.setFlow f).ready = s.ready := rfl
@[simp] theorem State.setFlow_felts (s : State) (f : Flow) : (s.setFlow f).felts = s.felts := rfl
@[simp] theorem State.setFlow_watching (s : State) (f : Flow) : (s.setFlow f).watching = s.watching := rfl
@[simp] theorem State.setFlow_torn (s : State) (f : Flow) : (s.setFlow f).torn = s.torn := rfl
@[simp] theorem State.setFlow_tokens (s : State) (f : Flow) : (s.setFlow f).tokens = s.tokens := rfl
@[simp] theorem State.setFlow_tlb (s : State) (f : Flow) : (s.setFlow f).tlb = s.tlb := rfl
@[simp] theorem State.setFlow_bridges (s : State) (f : Flow) : (s.setFlow f).bridges = s.bridges := rfl
@[simp] theorem State.setFlow_links (s : State) (f : Flow) : (s.setFlow f).links = s.links := rfl
@[simp] theorem State.setFlow_unreachable (s : State) (f : Flow) : (s.setFlow f).unreachable = s.unreachable := rfl
@[simp] theorem State.setFlow_tod (s : State) (f : Flow) : (s.setFlow f).tod = s.tod := rfl
@[simp] theorem State.setFlow_pkgid (s : State) (f : Flow) : (s.setFlow f).pkgid = s.pkgid := rfl
@[simp] theorem State.setFlow_powcap (s : State) (f : Flow) : (s.setFlow f).powcap = s.powcap := rfl
@[simp] theorem State.setFlow_exports (s : State) (f : Flow) : (s.setFlow f).exports = s.exports := rfl
@[simp] theorem State.setFlow_service (s : State) (f : Flow) : (s.setFlow f).service = s.service := rfl
@[simp] theorem State.setFlow_signals (s : State) (f : Flow) : (s.setFlow f).signals = s.signals := rfl
@[simp] theorem State.setFlow_replies (s : State) (f : Flow) : (s.setFlow f).replies = s.replies := rfl
@[simp] theorem State.setFlow_spdm (s : State) (f : Flow) : (s.setFlow f).spdm = s.spdm := rfl
@[simp] theorem State.setFlow_uid (s : State) (f : Flow) : (s.setFlow f).uid = s.uid := rfl
@[simp] theorem State.setFlow_agenda (s : State) (f : Flow) : (s.setFlow f).agenda = s.agenda := rfl
@[simp] theorem State.setFlow_idle (s : State) (f : Flow) : (s.setFlow f).idle = s.idle := rfl
@[simp] theorem State.setFlow_freeSeq (s : State) (f : Flow) : (s.setFlow f).freeSeq = s.freeSeq := rfl

@[simp] theorem State.setFlow_occ (s : State) (f : Flow) : (s.setFlow f).occ = { s.occ with flow := f } := rfl
/-! ## State.advance -/

@[simp] theorem State.advance_mem (s : State) (e : Eng) (n : Nat) : (s.advance e n).mem = s.mem := rfl
@[simp] theorem State.advance_poison (s : State) (e : Eng) (n : Nat) : (s.advance e n).poison = s.poison := rfl
@[simp] theorem State.advance_others (s : State) (e : Eng) (n : Nat) : (s.advance e n).others = s.others := rfl
@[simp] theorem State.advance_cores (s : State) (e : Eng) (n : Nat) : (s.advance e n).cores = s.cores := rfl
@[simp] theorem State.advance_dies (s : State) (e : Eng) (n : Nat) : (s.advance e n).dies = s.dies := rfl
@[simp] theorem State.advance_ctxs (s : State) (e : Eng) (n : Nat) : (s.advance e n).ctxs = s.ctxs := rfl
@[simp] theorem State.advance_launches (s : State) (e : Eng) (n : Nat) : (s.advance e n).launches = s.launches := rfl
@[simp] theorem State.advance_teams (s : State) (e : Eng) (n : Nat) : (s.advance e n).teams = s.teams := rfl
@[simp] theorem State.advance_tasks (s : State) (e : Eng) (n : Nat) : (s.advance e n).tasks = s.tasks := rfl
@[simp] theorem State.advance_ready (s : State) (e : Eng) (n : Nat) : (s.advance e n).ready = s.ready := rfl
@[simp] theorem State.advance_felts (s : State) (e : Eng) (n : Nat) : (s.advance e n).felts = s.felts := rfl
@[simp] theorem State.advance_watching (s : State) (e : Eng) (n : Nat) : (s.advance e n).watching = s.watching := rfl
@[simp] theorem State.advance_torn (s : State) (e : Eng) (n : Nat) : (s.advance e n).torn = s.torn := rfl
@[simp] theorem State.advance_tokens (s : State) (e : Eng) (n : Nat) : (s.advance e n).tokens = s.tokens := rfl
@[simp] theorem State.advance_tlb (s : State) (e : Eng) (n : Nat) : (s.advance e n).tlb = s.tlb := rfl
@[simp] theorem State.advance_bridges (s : State) (e : Eng) (n : Nat) : (s.advance e n).bridges = s.bridges := rfl
@[simp] theorem State.advance_links (s : State) (e : Eng) (n : Nat) : (s.advance e n).links = s.links := rfl
@[simp] theorem State.advance_unreachable (s : State) (e : Eng) (n : Nat) : (s.advance e n).unreachable = s.unreachable := rfl
@[simp] theorem State.advance_tod (s : State) (e : Eng) (n : Nat) : (s.advance e n).tod = s.tod := rfl
@[simp] theorem State.advance_pkgid (s : State) (e : Eng) (n : Nat) : (s.advance e n).pkgid = s.pkgid := rfl
@[simp] theorem State.advance_powcap (s : State) (e : Eng) (n : Nat) : (s.advance e n).powcap = s.powcap := rfl
@[simp] theorem State.advance_exports (s : State) (e : Eng) (n : Nat) : (s.advance e n).exports = s.exports := rfl
@[simp] theorem State.advance_service (s : State) (e : Eng) (n : Nat) : (s.advance e n).service = s.service := rfl
@[simp] theorem State.advance_signals (s : State) (e : Eng) (n : Nat) : (s.advance e n).signals = s.signals := rfl
@[simp] theorem State.advance_replies (s : State) (e : Eng) (n : Nat) : (s.advance e n).replies = s.replies := rfl
@[simp] theorem State.advance_spdm (s : State) (e : Eng) (n : Nat) : (s.advance e n).spdm = s.spdm := rfl
@[simp] theorem State.advance_uid (s : State) (e : Eng) (n : Nat) : (s.advance e n).uid = s.uid := rfl
@[simp] theorem State.advance_agenda (s : State) (e : Eng) (n : Nat) : (s.advance e n).agenda = s.agenda := rfl
@[simp] theorem State.advance_idle (s : State) (e : Eng) (n : Nat) : (s.advance e n).idle = s.idle := rfl
@[simp] theorem State.advance_freeSeq (s : State) (e : Eng) (n : Nat) : (s.advance e n).freeSeq = s.freeSeq := rfl

@[simp] theorem State.advance_occ (s : State) (e : Eng) (n : Nat) : (s.advance e n).occ = s.occ.advance e n := rfl
@[simp] theorem State.advance_me_gid (s : State) (e : Eng) (n : Nat) : (s.advance e n).me.gid = s.me.gid := rfl
@[simp] theorem State.advance_me_ctx (s : State) (e : Eng) (n : Nat) : (s.advance e n).me.ctx = s.me.ctx := rfl
@[simp] theorem State.advance_me_run (s : State) (e : Eng) (n : Nat) : (s.advance e n).me.run = s.me.run := rfl
@[simp] theorem State.advance_me_place (s : State) (e : Eng) (n : Nat) : (s.advance e n).me.place = s.me.place := rfl
@[simp] theorem State.advance_me_alim (s : State) (e : Eng) (n : Nat) : (s.advance e n).me.alim = s.me.alim := rfl
@[simp] theorem State.advance_me_under (s : State) (e : Eng) (n : Nat) : (s.advance e n).me.under = s.me.under := rfl

/-! ## State.tick -/

@[simp] theorem State.tick_mem (s : State)  : (s.tick ).mem = s.mem := rfl
@[simp] theorem State.tick_poison (s : State)  : (s.tick ).poison = s.poison := rfl
@[simp] theorem State.tick_me (s : State)  : (s.tick ).me = s.me := rfl
@[simp] theorem State.tick_others (s : State)  : (s.tick ).others = s.others := rfl
@[simp] theorem State.tick_cores (s : State)  : (s.tick ).cores = s.cores := rfl
@[simp] theorem State.tick_ctxs (s : State)  : (s.tick ).ctxs = s.ctxs := rfl
@[simp] theorem State.tick_launches (s : State)  : (s.tick ).launches = s.launches := rfl
@[simp] theorem State.tick_teams (s : State)  : (s.tick ).teams = s.teams := rfl
@[simp] theorem State.tick_tasks (s : State)  : (s.tick ).tasks = s.tasks := rfl
@[simp] theorem State.tick_ready (s : State)  : (s.tick ).ready = s.ready := rfl
@[simp] theorem State.tick_felts (s : State)  : (s.tick ).felts = s.felts := rfl
@[simp] theorem State.tick_watching (s : State)  : (s.tick ).watching = s.watching := rfl
@[simp] theorem State.tick_torn (s : State)  : (s.tick ).torn = s.torn := rfl
@[simp] theorem State.tick_tokens (s : State)  : (s.tick ).tokens = s.tokens := rfl
@[simp] theorem State.tick_tlb (s : State)  : (s.tick ).tlb = s.tlb := rfl
@[simp] theorem State.tick_bridges (s : State)  : (s.tick ).bridges = s.bridges := rfl
@[simp] theorem State.tick_links (s : State)  : (s.tick ).links = s.links := rfl
@[simp] theorem State.tick_unreachable (s : State)  : (s.tick ).unreachable = s.unreachable := rfl
@[simp] theorem State.tick_pkgid (s : State)  : (s.tick ).pkgid = s.pkgid := rfl
@[simp] theorem State.tick_powcap (s : State)  : (s.tick ).powcap = s.powcap := rfl
@[simp] theorem State.tick_exports (s : State)  : (s.tick ).exports = s.exports := rfl
@[simp] theorem State.tick_service (s : State)  : (s.tick ).service = s.service := rfl
@[simp] theorem State.tick_signals (s : State)  : (s.tick ).signals = s.signals := rfl
@[simp] theorem State.tick_replies (s : State)  : (s.tick ).replies = s.replies := rfl
@[simp] theorem State.tick_spdm (s : State)  : (s.tick ).spdm = s.spdm := rfl
@[simp] theorem State.tick_uid (s : State)  : (s.tick ).uid = s.uid := rfl
@[simp] theorem State.tick_agenda (s : State)  : (s.tick ).agenda = s.agenda := rfl
@[simp] theorem State.tick_idle (s : State)  : (s.tick ).idle = s.idle := rfl
@[simp] theorem State.tick_freeSeq (s : State)  : (s.tick ).freeSeq = s.freeSeq := rfl

/-! ## State.poke -/

@[simp] theorem State.poke_me (s : State) (k : Nat) (bs : List Byte) : (s.poke k bs).me = s.me := rfl
@[simp] theorem State.poke_others (s : State) (k : Nat) (bs : List Byte) : (s.poke k bs).others = s.others := rfl
@[simp] theorem State.poke_cores (s : State) (k : Nat) (bs : List Byte) : (s.poke k bs).cores = s.cores := rfl
@[simp] theorem State.poke_dies (s : State) (k : Nat) (bs : List Byte) : (s.poke k bs).dies = s.dies := rfl
@[simp] theorem State.poke_ctxs (s : State) (k : Nat) (bs : List Byte) : (s.poke k bs).ctxs = s.ctxs := rfl
@[simp] theorem State.poke_launches (s : State) (k : Nat) (bs : List Byte) : (s.poke k bs).launches = s.launches := rfl
@[simp] theorem State.poke_teams (s : State) (k : Nat) (bs : List Byte) : (s.poke k bs).teams = s.teams := rfl
@[simp] theorem State.poke_tasks (s : State) (k : Nat) (bs : List Byte) : (s.poke k bs).tasks = s.tasks := rfl
@[simp] theorem State.poke_ready (s : State) (k : Nat) (bs : List Byte) : (s.poke k bs).ready = s.ready := rfl
@[simp] theorem State.poke_felts (s : State) (k : Nat) (bs : List Byte) : (s.poke k bs).felts = s.felts := rfl
@[simp] theorem State.poke_poison (s : State) (k : Nat) (bs : List Byte) :
    (s.poke k bs).poison = clearPoison s.poison k bs.length := rfl
@[simp] theorem State.poke_watching (s : State) (k : Nat) (bs : List Byte) :
    (s.poke k bs).watching = s.watching.map fun w => if w.lo < k + bs.length && k < w.hi then { w with fired := true } else w := rfl
@[simp] theorem State.poke_torn (s : State) (k : Nat) (bs : List Byte) : (s.poke k bs).torn = s.torn := rfl
@[simp] theorem State.poke_tokens (s : State) (k : Nat) (bs : List Byte) : (s.poke k bs).tokens = s.tokens := rfl
@[simp] theorem State.poke_tlb (s : State) (k : Nat) (bs : List Byte) : (s.poke k bs).tlb = s.tlb := rfl
@[simp] theorem State.poke_bridges (s : State) (k : Nat) (bs : List Byte) : (s.poke k bs).bridges = s.bridges := rfl
@[simp] theorem State.poke_links (s : State) (k : Nat) (bs : List Byte) : (s.poke k bs).links = s.links := rfl
@[simp] theorem State.poke_unreachable (s : State) (k : Nat) (bs : List Byte) : (s.poke k bs).unreachable = s.unreachable := rfl
@[simp] theorem State.poke_tod (s : State) (k : Nat) (bs : List Byte) : (s.poke k bs).tod = s.tod := rfl
@[simp] theorem State.poke_pkgid (s : State) (k : Nat) (bs : List Byte) : (s.poke k bs).pkgid = s.pkgid := rfl
@[simp] theorem State.poke_powcap (s : State) (k : Nat) (bs : List Byte) : (s.poke k bs).powcap = s.powcap := rfl
@[simp] theorem State.poke_exports (s : State) (k : Nat) (bs : List Byte) : (s.poke k bs).exports = s.exports := rfl
@[simp] theorem State.poke_service (s : State) (k : Nat) (bs : List Byte) : (s.poke k bs).service = s.service := rfl
@[simp] theorem State.poke_signals (s : State) (k : Nat) (bs : List Byte) : (s.poke k bs).signals = s.signals := rfl
@[simp] theorem State.poke_replies (s : State) (k : Nat) (bs : List Byte) : (s.poke k bs).replies = s.replies := rfl
@[simp] theorem State.poke_spdm (s : State) (k : Nat) (bs : List Byte) : (s.poke k bs).spdm = s.spdm := rfl
@[simp] theorem State.poke_uid (s : State) (k : Nat) (bs : List Byte) : (s.poke k bs).uid = s.uid := rfl
@[simp] theorem State.poke_agenda (s : State) (k : Nat) (bs : List Byte) : (s.poke k bs).agenda = s.agenda := rfl
@[simp] theorem State.poke_idle (s : State) (k : Nat) (bs : List Byte) : (s.poke k bs).idle = s.idle := rfl
@[simp] theorem State.poke_freeSeq (s : State) (k : Nat) (bs : List Byte) : (s.poke k bs).freeSeq = s.freeSeq := rfl

@[simp] theorem State.poke_mem (s : State) (k : Nat) (bs : List Byte) : (s.poke k bs).mem = s.mem.setBytes k bs := rfl

/-! ## State.modDie -/

@[simp] theorem State.modDie_mem (s : State) (d : Nat) (f : Die → Die) : (s.modDie d f).mem = s.mem := rfl
@[simp] theorem State.modDie_poison (s : State) (d : Nat) (f : Die → Die) : (s.modDie d f).poison = s.poison := rfl
@[simp] theorem State.modDie_me (s : State) (d : Nat) (f : Die → Die) : (s.modDie d f).me = s.me := rfl
@[simp] theorem State.modDie_others (s : State) (d : Nat) (f : Die → Die) : (s.modDie d f).others = s.others := rfl
@[simp] theorem State.modDie_cores (s : State) (d : Nat) (f : Die → Die) : (s.modDie d f).cores = s.cores := rfl
@[simp] theorem State.modDie_ctxs (s : State) (d : Nat) (f : Die → Die) : (s.modDie d f).ctxs = s.ctxs := rfl
@[simp] theorem State.modDie_launches (s : State) (d : Nat) (f : Die → Die) : (s.modDie d f).launches = s.launches := rfl
@[simp] theorem State.modDie_teams (s : State) (d : Nat) (f : Die → Die) : (s.modDie d f).teams = s.teams := rfl
@[simp] theorem State.modDie_tasks (s : State) (d : Nat) (f : Die → Die) : (s.modDie d f).tasks = s.tasks := rfl
@[simp] theorem State.modDie_ready (s : State) (d : Nat) (f : Die → Die) : (s.modDie d f).ready = s.ready := rfl
@[simp] theorem State.modDie_felts (s : State) (d : Nat) (f : Die → Die) : (s.modDie d f).felts = s.felts := rfl
@[simp] theorem State.modDie_watching (s : State) (d : Nat) (f : Die → Die) : (s.modDie d f).watching = s.watching := rfl
@[simp] theorem State.modDie_torn (s : State) (d : Nat) (f : Die → Die) : (s.modDie d f).torn = s.torn := rfl
@[simp] theorem State.modDie_tokens (s : State) (d : Nat) (f : Die → Die) : (s.modDie d f).tokens = s.tokens := rfl
@[simp] theorem State.modDie_tlb (s : State) (d : Nat) (f : Die → Die) : (s.modDie d f).tlb = s.tlb := rfl
@[simp] theorem State.modDie_bridges (s : State) (d : Nat) (f : Die → Die) : (s.modDie d f).bridges = s.bridges := rfl
@[simp] theorem State.modDie_links (s : State) (d : Nat) (f : Die → Die) : (s.modDie d f).links = s.links := rfl
@[simp] theorem State.modDie_unreachable (s : State) (d : Nat) (f : Die → Die) : (s.modDie d f).unreachable = s.unreachable := rfl
@[simp] theorem State.modDie_tod (s : State) (d : Nat) (f : Die → Die) : (s.modDie d f).tod = s.tod := rfl
@[simp] theorem State.modDie_pkgid (s : State) (d : Nat) (f : Die → Die) : (s.modDie d f).pkgid = s.pkgid := rfl
@[simp] theorem State.modDie_powcap (s : State) (d : Nat) (f : Die → Die) : (s.modDie d f).powcap = s.powcap := rfl
@[simp] theorem State.modDie_exports (s : State) (d : Nat) (f : Die → Die) : (s.modDie d f).exports = s.exports := rfl
@[simp] theorem State.modDie_service (s : State) (d : Nat) (f : Die → Die) : (s.modDie d f).service = s.service := rfl
@[simp] theorem State.modDie_signals (s : State) (d : Nat) (f : Die → Die) : (s.modDie d f).signals = s.signals := rfl
@[simp] theorem State.modDie_replies (s : State) (d : Nat) (f : Die → Die) : (s.modDie d f).replies = s.replies := rfl
@[simp] theorem State.modDie_spdm (s : State) (d : Nat) (f : Die → Die) : (s.modDie d f).spdm = s.spdm := rfl
@[simp] theorem State.modDie_uid (s : State) (d : Nat) (f : Die → Die) : (s.modDie d f).uid = s.uid := rfl
@[simp] theorem State.modDie_agenda (s : State) (d : Nat) (f : Die → Die) : (s.modDie d f).agenda = s.agenda := rfl
@[simp] theorem State.modDie_idle (s : State) (d : Nat) (f : Die → Die) : (s.modDie d f).idle = s.idle := rfl
@[simp] theorem State.modDie_freeSeq (s : State) (d : Nat) (f : Die → Die) : (s.modDie d f).freeSeq = s.freeSeq := rfl

/-! ## State.modCtx -/

@[simp] theorem State.modCtx_mem (s : State) (c : Nat) (f : Ctx → Ctx) : (s.modCtx c f).mem = s.mem := rfl
@[simp] theorem State.modCtx_poison (s : State) (c : Nat) (f : Ctx → Ctx) : (s.modCtx c f).poison = s.poison := rfl
@[simp] theorem State.modCtx_me (s : State) (c : Nat) (f : Ctx → Ctx) : (s.modCtx c f).me = s.me := rfl
@[simp] theorem State.modCtx_others (s : State) (c : Nat) (f : Ctx → Ctx) : (s.modCtx c f).others = s.others := rfl
@[simp] theorem State.modCtx_cores (s : State) (c : Nat) (f : Ctx → Ctx) : (s.modCtx c f).cores = s.cores := rfl
@[simp] theorem State.modCtx_dies (s : State) (c : Nat) (f : Ctx → Ctx) : (s.modCtx c f).dies = s.dies := rfl
@[simp] theorem State.modCtx_launches (s : State) (c : Nat) (f : Ctx → Ctx) : (s.modCtx c f).launches = s.launches := rfl
@[simp] theorem State.modCtx_teams (s : State) (c : Nat) (f : Ctx → Ctx) : (s.modCtx c f).teams = s.teams := rfl
@[simp] theorem State.modCtx_tasks (s : State) (c : Nat) (f : Ctx → Ctx) : (s.modCtx c f).tasks = s.tasks := rfl
@[simp] theorem State.modCtx_ready (s : State) (c : Nat) (f : Ctx → Ctx) : (s.modCtx c f).ready = s.ready := rfl
@[simp] theorem State.modCtx_felts (s : State) (c : Nat) (f : Ctx → Ctx) : (s.modCtx c f).felts = s.felts := rfl
@[simp] theorem State.modCtx_watching (s : State) (c : Nat) (f : Ctx → Ctx) : (s.modCtx c f).watching = s.watching := rfl
@[simp] theorem State.modCtx_torn (s : State) (c : Nat) (f : Ctx → Ctx) : (s.modCtx c f).torn = s.torn := rfl
@[simp] theorem State.modCtx_tokens (s : State) (c : Nat) (f : Ctx → Ctx) : (s.modCtx c f).tokens = s.tokens := rfl
@[simp] theorem State.modCtx_tlb (s : State) (c : Nat) (f : Ctx → Ctx) : (s.modCtx c f).tlb = s.tlb := rfl
@[simp] theorem State.modCtx_bridges (s : State) (c : Nat) (f : Ctx → Ctx) : (s.modCtx c f).bridges = s.bridges := rfl
@[simp] theorem State.modCtx_links (s : State) (c : Nat) (f : Ctx → Ctx) : (s.modCtx c f).links = s.links := rfl
@[simp] theorem State.modCtx_unreachable (s : State) (c : Nat) (f : Ctx → Ctx) : (s.modCtx c f).unreachable = s.unreachable := rfl
@[simp] theorem State.modCtx_tod (s : State) (c : Nat) (f : Ctx → Ctx) : (s.modCtx c f).tod = s.tod := rfl
@[simp] theorem State.modCtx_pkgid (s : State) (c : Nat) (f : Ctx → Ctx) : (s.modCtx c f).pkgid = s.pkgid := rfl
@[simp] theorem State.modCtx_powcap (s : State) (c : Nat) (f : Ctx → Ctx) : (s.modCtx c f).powcap = s.powcap := rfl
@[simp] theorem State.modCtx_exports (s : State) (c : Nat) (f : Ctx → Ctx) : (s.modCtx c f).exports = s.exports := rfl
@[simp] theorem State.modCtx_service (s : State) (c : Nat) (f : Ctx → Ctx) : (s.modCtx c f).service = s.service := rfl
@[simp] theorem State.modCtx_signals (s : State) (c : Nat) (f : Ctx → Ctx) : (s.modCtx c f).signals = s.signals := rfl
@[simp] theorem State.modCtx_replies (s : State) (c : Nat) (f : Ctx → Ctx) : (s.modCtx c f).replies = s.replies := rfl
@[simp] theorem State.modCtx_spdm (s : State) (c : Nat) (f : Ctx → Ctx) : (s.modCtx c f).spdm = s.spdm := rfl
@[simp] theorem State.modCtx_uid (s : State) (c : Nat) (f : Ctx → Ctx) : (s.modCtx c f).uid = s.uid := rfl
@[simp] theorem State.modCtx_agenda (s : State) (c : Nat) (f : Ctx → Ctx) : (s.modCtx c f).agenda = s.agenda := rfl
@[simp] theorem State.modCtx_idle (s : State) (c : Nat) (f : Ctx → Ctx) : (s.modCtx c f).idle = s.idle := rfl
@[simp] theorem State.modCtx_freeSeq (s : State) (c : Nat) (f : Ctx → Ctx) : (s.modCtx c f).freeSeq = s.freeSeq := rfl

/-! ## State.modTeam -/

@[simp] theorem State.modTeam_mem (s : State) (u : Nat) (f : Team → Team) : (s.modTeam u f).mem = s.mem := rfl
@[simp] theorem State.modTeam_poison (s : State) (u : Nat) (f : Team → Team) : (s.modTeam u f).poison = s.poison := rfl
@[simp] theorem State.modTeam_me (s : State) (u : Nat) (f : Team → Team) : (s.modTeam u f).me = s.me := rfl
@[simp] theorem State.modTeam_others (s : State) (u : Nat) (f : Team → Team) : (s.modTeam u f).others = s.others := rfl
@[simp] theorem State.modTeam_cores (s : State) (u : Nat) (f : Team → Team) : (s.modTeam u f).cores = s.cores := rfl
@[simp] theorem State.modTeam_dies (s : State) (u : Nat) (f : Team → Team) : (s.modTeam u f).dies = s.dies := rfl
@[simp] theorem State.modTeam_ctxs (s : State) (u : Nat) (f : Team → Team) : (s.modTeam u f).ctxs = s.ctxs := rfl
@[simp] theorem State.modTeam_launches (s : State) (u : Nat) (f : Team → Team) : (s.modTeam u f).launches = s.launches := rfl
@[simp] theorem State.modTeam_tasks (s : State) (u : Nat) (f : Team → Team) : (s.modTeam u f).tasks = s.tasks := rfl
@[simp] theorem State.modTeam_ready (s : State) (u : Nat) (f : Team → Team) : (s.modTeam u f).ready = s.ready := rfl
@[simp] theorem State.modTeam_felts (s : State) (u : Nat) (f : Team → Team) : (s.modTeam u f).felts = s.felts := rfl
@[simp] theorem State.modTeam_watching (s : State) (u : Nat) (f : Team → Team) : (s.modTeam u f).watching = s.watching := rfl
@[simp] theorem State.modTeam_torn (s : State) (u : Nat) (f : Team → Team) : (s.modTeam u f).torn = s.torn := rfl
@[simp] theorem State.modTeam_tokens (s : State) (u : Nat) (f : Team → Team) : (s.modTeam u f).tokens = s.tokens := rfl
@[simp] theorem State.modTeam_tlb (s : State) (u : Nat) (f : Team → Team) : (s.modTeam u f).tlb = s.tlb := rfl
@[simp] theorem State.modTeam_bridges (s : State) (u : Nat) (f : Team → Team) : (s.modTeam u f).bridges = s.bridges := rfl
@[simp] theorem State.modTeam_links (s : State) (u : Nat) (f : Team → Team) : (s.modTeam u f).links = s.links := rfl
@[simp] theorem State.modTeam_unreachable (s : State) (u : Nat) (f : Team → Team) : (s.modTeam u f).unreachable = s.unreachable := rfl
@[simp] theorem State.modTeam_tod (s : State) (u : Nat) (f : Team → Team) : (s.modTeam u f).tod = s.tod := rfl
@[simp] theorem State.modTeam_pkgid (s : State) (u : Nat) (f : Team → Team) : (s.modTeam u f).pkgid = s.pkgid := rfl
@[simp] theorem State.modTeam_powcap (s : State) (u : Nat) (f : Team → Team) : (s.modTeam u f).powcap = s.powcap := rfl
@[simp] theorem State.modTeam_exports (s : State) (u : Nat) (f : Team → Team) : (s.modTeam u f).exports = s.exports := rfl
@[simp] theorem State.modTeam_service (s : State) (u : Nat) (f : Team → Team) : (s.modTeam u f).service = s.service := rfl
@[simp] theorem State.modTeam_signals (s : State) (u : Nat) (f : Team → Team) : (s.modTeam u f).signals = s.signals := rfl
@[simp] theorem State.modTeam_replies (s : State) (u : Nat) (f : Team → Team) : (s.modTeam u f).replies = s.replies := rfl
@[simp] theorem State.modTeam_spdm (s : State) (u : Nat) (f : Team → Team) : (s.modTeam u f).spdm = s.spdm := rfl
@[simp] theorem State.modTeam_uid (s : State) (u : Nat) (f : Team → Team) : (s.modTeam u f).uid = s.uid := rfl
@[simp] theorem State.modTeam_agenda (s : State) (u : Nat) (f : Team → Team) : (s.modTeam u f).agenda = s.agenda := rfl
@[simp] theorem State.modTeam_idle (s : State) (u : Nat) (f : Team → Team) : (s.modTeam u f).idle = s.idle := rfl
@[simp] theorem State.modTeam_freeSeq (s : State) (u : Nat) (f : Team → Team) : (s.modTeam u f).freeSeq = s.freeSeq := rfl

/-! ## State.modLaunch -/

@[simp] theorem State.modLaunch_mem (s : State) (u : Nat) (f : Launch → Launch) : (s.modLaunch u f).mem = s.mem := rfl
@[simp] theorem State.modLaunch_poison (s : State) (u : Nat) (f : Launch → Launch) : (s.modLaunch u f).poison = s.poison := rfl
@[simp] theorem State.modLaunch_me (s : State) (u : Nat) (f : Launch → Launch) : (s.modLaunch u f).me = s.me := rfl
@[simp] theorem State.modLaunch_others (s : State) (u : Nat) (f : Launch → Launch) : (s.modLaunch u f).others = s.others := rfl
@[simp] theorem State.modLaunch_cores (s : State) (u : Nat) (f : Launch → Launch) : (s.modLaunch u f).cores = s.cores := rfl
@[simp] theorem State.modLaunch_dies (s : State) (u : Nat) (f : Launch → Launch) : (s.modLaunch u f).dies = s.dies := rfl
@[simp] theorem State.modLaunch_ctxs (s : State) (u : Nat) (f : Launch → Launch) : (s.modLaunch u f).ctxs = s.ctxs := rfl
@[simp] theorem State.modLaunch_teams (s : State) (u : Nat) (f : Launch → Launch) : (s.modLaunch u f).teams = s.teams := rfl
@[simp] theorem State.modLaunch_tasks (s : State) (u : Nat) (f : Launch → Launch) : (s.modLaunch u f).tasks = s.tasks := rfl
@[simp] theorem State.modLaunch_ready (s : State) (u : Nat) (f : Launch → Launch) : (s.modLaunch u f).ready = s.ready := rfl
@[simp] theorem State.modLaunch_felts (s : State) (u : Nat) (f : Launch → Launch) : (s.modLaunch u f).felts = s.felts := rfl
@[simp] theorem State.modLaunch_watching (s : State) (u : Nat) (f : Launch → Launch) : (s.modLaunch u f).watching = s.watching := rfl
@[simp] theorem State.modLaunch_torn (s : State) (u : Nat) (f : Launch → Launch) : (s.modLaunch u f).torn = s.torn := rfl
@[simp] theorem State.modLaunch_tokens (s : State) (u : Nat) (f : Launch → Launch) : (s.modLaunch u f).tokens = s.tokens := rfl
@[simp] theorem State.modLaunch_tlb (s : State) (u : Nat) (f : Launch → Launch) : (s.modLaunch u f).tlb = s.tlb := rfl
@[simp] theorem State.modLaunch_bridges (s : State) (u : Nat) (f : Launch → Launch) : (s.modLaunch u f).bridges = s.bridges := rfl
@[simp] theorem State.modLaunch_links (s : State) (u : Nat) (f : Launch → Launch) : (s.modLaunch u f).links = s.links := rfl
@[simp] theorem State.modLaunch_unreachable (s : State) (u : Nat) (f : Launch → Launch) : (s.modLaunch u f).unreachable = s.unreachable := rfl
@[simp] theorem State.modLaunch_tod (s : State) (u : Nat) (f : Launch → Launch) : (s.modLaunch u f).tod = s.tod := rfl
@[simp] theorem State.modLaunch_pkgid (s : State) (u : Nat) (f : Launch → Launch) : (s.modLaunch u f).pkgid = s.pkgid := rfl
@[simp] theorem State.modLaunch_powcap (s : State) (u : Nat) (f : Launch → Launch) : (s.modLaunch u f).powcap = s.powcap := rfl
@[simp] theorem State.modLaunch_exports (s : State) (u : Nat) (f : Launch → Launch) : (s.modLaunch u f).exports = s.exports := rfl
@[simp] theorem State.modLaunch_service (s : State) (u : Nat) (f : Launch → Launch) : (s.modLaunch u f).service = s.service := rfl
@[simp] theorem State.modLaunch_signals (s : State) (u : Nat) (f : Launch → Launch) : (s.modLaunch u f).signals = s.signals := rfl
@[simp] theorem State.modLaunch_replies (s : State) (u : Nat) (f : Launch → Launch) : (s.modLaunch u f).replies = s.replies := rfl
@[simp] theorem State.modLaunch_spdm (s : State) (u : Nat) (f : Launch → Launch) : (s.modLaunch u f).spdm = s.spdm := rfl
@[simp] theorem State.modLaunch_uid (s : State) (u : Nat) (f : Launch → Launch) : (s.modLaunch u f).uid = s.uid := rfl
@[simp] theorem State.modLaunch_agenda (s : State) (u : Nat) (f : Launch → Launch) : (s.modLaunch u f).agenda = s.agenda := rfl
@[simp] theorem State.modLaunch_idle (s : State) (u : Nat) (f : Launch → Launch) : (s.modLaunch u f).idle = s.idle := rfl
@[simp] theorem State.modLaunch_freeSeq (s : State) (u : Nat) (f : Launch → Launch) : (s.modLaunch u f).freeSeq = s.freeSeq := rfl

/-! ## State.modCore -/

@[simp] theorem State.modCore_mem (s : State) (c : Nat) (f : Core → Core) : (s.modCore c f).mem = s.mem := by unfold State.modCore; split <;> rfl
@[simp] theorem State.modCore_poison (s : State) (c : Nat) (f : Core → Core) : (s.modCore c f).poison = s.poison := by unfold State.modCore; split <;> rfl
@[simp] theorem State.modCore_me (s : State) (c : Nat) (f : Core → Core) : (s.modCore c f).me = s.me := by unfold State.modCore; split <;> rfl
@[simp] theorem State.modCore_others (s : State) (c : Nat) (f : Core → Core) : (s.modCore c f).others = s.others := by unfold State.modCore; split <;> rfl
@[simp] theorem State.modCore_dies (s : State) (c : Nat) (f : Core → Core) : (s.modCore c f).dies = s.dies := by unfold State.modCore; split <;> rfl
@[simp] theorem State.modCore_ctxs (s : State) (c : Nat) (f : Core → Core) : (s.modCore c f).ctxs = s.ctxs := by unfold State.modCore; split <;> rfl
@[simp] theorem State.modCore_launches (s : State) (c : Nat) (f : Core → Core) : (s.modCore c f).launches = s.launches := by unfold State.modCore; split <;> rfl
@[simp] theorem State.modCore_teams (s : State) (c : Nat) (f : Core → Core) : (s.modCore c f).teams = s.teams := by unfold State.modCore; split <;> rfl
@[simp] theorem State.modCore_tasks (s : State) (c : Nat) (f : Core → Core) : (s.modCore c f).tasks = s.tasks := by unfold State.modCore; split <;> rfl
@[simp] theorem State.modCore_ready (s : State) (c : Nat) (f : Core → Core) : (s.modCore c f).ready = s.ready := by unfold State.modCore; split <;> rfl
@[simp] theorem State.modCore_felts (s : State) (c : Nat) (f : Core → Core) : (s.modCore c f).felts = s.felts := by unfold State.modCore; split <;> rfl
@[simp] theorem State.modCore_watching (s : State) (c : Nat) (f : Core → Core) : (s.modCore c f).watching = s.watching := by unfold State.modCore; split <;> rfl
@[simp] theorem State.modCore_torn (s : State) (c : Nat) (f : Core → Core) : (s.modCore c f).torn = s.torn := by unfold State.modCore; split <;> rfl
@[simp] theorem State.modCore_tokens (s : State) (c : Nat) (f : Core → Core) : (s.modCore c f).tokens = s.tokens := by unfold State.modCore; split <;> rfl
@[simp] theorem State.modCore_tlb (s : State) (c : Nat) (f : Core → Core) : (s.modCore c f).tlb = s.tlb := by unfold State.modCore; split <;> rfl
@[simp] theorem State.modCore_bridges (s : State) (c : Nat) (f : Core → Core) : (s.modCore c f).bridges = s.bridges := by unfold State.modCore; split <;> rfl
@[simp] theorem State.modCore_links (s : State) (c : Nat) (f : Core → Core) : (s.modCore c f).links = s.links := by unfold State.modCore; split <;> rfl
@[simp] theorem State.modCore_unreachable (s : State) (c : Nat) (f : Core → Core) : (s.modCore c f).unreachable = s.unreachable := by unfold State.modCore; split <;> rfl
@[simp] theorem State.modCore_tod (s : State) (c : Nat) (f : Core → Core) : (s.modCore c f).tod = s.tod := by unfold State.modCore; split <;> rfl
@[simp] theorem State.modCore_pkgid (s : State) (c : Nat) (f : Core → Core) : (s.modCore c f).pkgid = s.pkgid := by unfold State.modCore; split <;> rfl
@[simp] theorem State.modCore_powcap (s : State) (c : Nat) (f : Core → Core) : (s.modCore c f).powcap = s.powcap := by unfold State.modCore; split <;> rfl
@[simp] theorem State.modCore_exports (s : State) (c : Nat) (f : Core → Core) : (s.modCore c f).exports = s.exports := by unfold State.modCore; split <;> rfl
@[simp] theorem State.modCore_service (s : State) (c : Nat) (f : Core → Core) : (s.modCore c f).service = s.service := by unfold State.modCore; split <;> rfl
@[simp] theorem State.modCore_signals (s : State) (c : Nat) (f : Core → Core) : (s.modCore c f).signals = s.signals := by unfold State.modCore; split <;> rfl
@[simp] theorem State.modCore_replies (s : State) (c : Nat) (f : Core → Core) : (s.modCore c f).replies = s.replies := by unfold State.modCore; split <;> rfl
@[simp] theorem State.modCore_spdm (s : State) (c : Nat) (f : Core → Core) : (s.modCore c f).spdm = s.spdm := by unfold State.modCore; split <;> rfl
@[simp] theorem State.modCore_uid (s : State) (c : Nat) (f : Core → Core) : (s.modCore c f).uid = s.uid := by unfold State.modCore; split <;> rfl
@[simp] theorem State.modCore_agenda (s : State) (c : Nat) (f : Core → Core) : (s.modCore c f).agenda = s.agenda := by unfold State.modCore; split <;> rfl
@[simp] theorem State.modCore_idle (s : State) (c : Nat) (f : Core → Core) : (s.modCore c f).idle = s.idle := by unfold State.modCore; split <;> rfl
@[simp] theorem State.modCore_freeSeq (s : State) (c : Nat) (f : Core → Core) : (s.modCore c f).freeSeq = s.freeSeq := by unfold State.modCore; split <;> rfl

/-! ## State.countSat -/

@[simp] theorem State.countSat_mem (s : State) (n : Nat) : (s.countSat n).mem = s.mem := by unfold State.countSat; split <;> simp
@[simp] theorem State.countSat_poison (s : State) (n : Nat) : (s.countSat n).poison = s.poison := by unfold State.countSat; split <;> simp
@[simp] theorem State.countSat_me (s : State) (n : Nat) : (s.countSat n).me = s.me := by unfold State.countSat; split <;> simp
@[simp] theorem State.countSat_others (s : State) (n : Nat) : (s.countSat n).others = s.others := by unfold State.countSat; split <;> simp
@[simp] theorem State.countSat_dies (s : State) (n : Nat) : (s.countSat n).dies = s.dies := by unfold State.countSat; split <;> simp
@[simp] theorem State.countSat_ctxs (s : State) (n : Nat) : (s.countSat n).ctxs = s.ctxs := by unfold State.countSat; split <;> simp
@[simp] theorem State.countSat_launches (s : State) (n : Nat) : (s.countSat n).launches = s.launches := by unfold State.countSat; split <;> simp
@[simp] theorem State.countSat_teams (s : State) (n : Nat) : (s.countSat n).teams = s.teams := by unfold State.countSat; split <;> simp
@[simp] theorem State.countSat_tasks (s : State) (n : Nat) : (s.countSat n).tasks = s.tasks := by unfold State.countSat; split <;> simp
@[simp] theorem State.countSat_ready (s : State) (n : Nat) : (s.countSat n).ready = s.ready := by unfold State.countSat; split <;> simp
@[simp] theorem State.countSat_felts (s : State) (n : Nat) : (s.countSat n).felts = s.felts := by unfold State.countSat; split <;> simp
@[simp] theorem State.countSat_watching (s : State) (n : Nat) : (s.countSat n).watching = s.watching := by unfold State.countSat; split <;> simp
@[simp] theorem State.countSat_torn (s : State) (n : Nat) : (s.countSat n).torn = s.torn := by unfold State.countSat; split <;> simp
@[simp] theorem State.countSat_tokens (s : State) (n : Nat) : (s.countSat n).tokens = s.tokens := by unfold State.countSat; split <;> simp
@[simp] theorem State.countSat_tlb (s : State) (n : Nat) : (s.countSat n).tlb = s.tlb := by unfold State.countSat; split <;> simp
@[simp] theorem State.countSat_bridges (s : State) (n : Nat) : (s.countSat n).bridges = s.bridges := by unfold State.countSat; split <;> simp
@[simp] theorem State.countSat_links (s : State) (n : Nat) : (s.countSat n).links = s.links := by unfold State.countSat; split <;> simp
@[simp] theorem State.countSat_unreachable (s : State) (n : Nat) : (s.countSat n).unreachable = s.unreachable := by unfold State.countSat; split <;> simp
@[simp] theorem State.countSat_tod (s : State) (n : Nat) : (s.countSat n).tod = s.tod := by unfold State.countSat; split <;> simp
@[simp] theorem State.countSat_pkgid (s : State) (n : Nat) : (s.countSat n).pkgid = s.pkgid := by unfold State.countSat; split <;> simp
@[simp] theorem State.countSat_powcap (s : State) (n : Nat) : (s.countSat n).powcap = s.powcap := by unfold State.countSat; split <;> simp
@[simp] theorem State.countSat_exports (s : State) (n : Nat) : (s.countSat n).exports = s.exports := by unfold State.countSat; split <;> simp
@[simp] theorem State.countSat_service (s : State) (n : Nat) : (s.countSat n).service = s.service := by unfold State.countSat; split <;> simp
@[simp] theorem State.countSat_signals (s : State) (n : Nat) : (s.countSat n).signals = s.signals := by unfold State.countSat; split <;> simp
@[simp] theorem State.countSat_replies (s : State) (n : Nat) : (s.countSat n).replies = s.replies := by unfold State.countSat; split <;> simp
@[simp] theorem State.countSat_spdm (s : State) (n : Nat) : (s.countSat n).spdm = s.spdm := by unfold State.countSat; split <;> simp
@[simp] theorem State.countSat_uid (s : State) (n : Nat) : (s.countSat n).uid = s.uid := by unfold State.countSat; split <;> simp
@[simp] theorem State.countSat_agenda (s : State) (n : Nat) : (s.countSat n).agenda = s.agenda := by unfold State.countSat; split <;> simp
@[simp] theorem State.countSat_idle (s : State) (n : Nat) : (s.countSat n).idle = s.idle := by unfold State.countSat; split <;> simp
@[simp] theorem State.countSat_freeSeq (s : State) (n : Nat) : (s.countSat n).freeSeq = s.freeSeq := by unfold State.countSat; split <;> simp

/-! ## State.countFmt -/

@[simp] theorem State.countFmt_mem (s : State) (n : Nat) : (s.countFmt n).mem = s.mem := by unfold State.countFmt; split <;> simp
@[simp] theorem State.countFmt_poison (s : State) (n : Nat) : (s.countFmt n).poison = s.poison := by unfold State.countFmt; split <;> simp
@[simp] theorem State.countFmt_me (s : State) (n : Nat) : (s.countFmt n).me = s.me := by unfold State.countFmt; split <;> simp
@[simp] theorem State.countFmt_others (s : State) (n : Nat) : (s.countFmt n).others = s.others := by unfold State.countFmt; split <;> simp
@[simp] theorem State.countFmt_dies (s : State) (n : Nat) : (s.countFmt n).dies = s.dies := by unfold State.countFmt; split <;> simp
@[simp] theorem State.countFmt_ctxs (s : State) (n : Nat) : (s.countFmt n).ctxs = s.ctxs := by unfold State.countFmt; split <;> simp
@[simp] theorem State.countFmt_launches (s : State) (n : Nat) : (s.countFmt n).launches = s.launches := by unfold State.countFmt; split <;> simp
@[simp] theorem State.countFmt_teams (s : State) (n : Nat) : (s.countFmt n).teams = s.teams := by unfold State.countFmt; split <;> simp
@[simp] theorem State.countFmt_tasks (s : State) (n : Nat) : (s.countFmt n).tasks = s.tasks := by unfold State.countFmt; split <;> simp
@[simp] theorem State.countFmt_ready (s : State) (n : Nat) : (s.countFmt n).ready = s.ready := by unfold State.countFmt; split <;> simp
@[simp] theorem State.countFmt_felts (s : State) (n : Nat) : (s.countFmt n).felts = s.felts := by unfold State.countFmt; split <;> simp
@[simp] theorem State.countFmt_watching (s : State) (n : Nat) : (s.countFmt n).watching = s.watching := by unfold State.countFmt; split <;> simp
@[simp] theorem State.countFmt_torn (s : State) (n : Nat) : (s.countFmt n).torn = s.torn := by unfold State.countFmt; split <;> simp
@[simp] theorem State.countFmt_tokens (s : State) (n : Nat) : (s.countFmt n).tokens = s.tokens := by unfold State.countFmt; split <;> simp
@[simp] theorem State.countFmt_tlb (s : State) (n : Nat) : (s.countFmt n).tlb = s.tlb := by unfold State.countFmt; split <;> simp
@[simp] theorem State.countFmt_bridges (s : State) (n : Nat) : (s.countFmt n).bridges = s.bridges := by unfold State.countFmt; split <;> simp
@[simp] theorem State.countFmt_links (s : State) (n : Nat) : (s.countFmt n).links = s.links := by unfold State.countFmt; split <;> simp
@[simp] theorem State.countFmt_unreachable (s : State) (n : Nat) : (s.countFmt n).unreachable = s.unreachable := by unfold State.countFmt; split <;> simp
@[simp] theorem State.countFmt_tod (s : State) (n : Nat) : (s.countFmt n).tod = s.tod := by unfold State.countFmt; split <;> simp
@[simp] theorem State.countFmt_pkgid (s : State) (n : Nat) : (s.countFmt n).pkgid = s.pkgid := by unfold State.countFmt; split <;> simp
@[simp] theorem State.countFmt_powcap (s : State) (n : Nat) : (s.countFmt n).powcap = s.powcap := by unfold State.countFmt; split <;> simp
@[simp] theorem State.countFmt_exports (s : State) (n : Nat) : (s.countFmt n).exports = s.exports := by unfold State.countFmt; split <;> simp
@[simp] theorem State.countFmt_service (s : State) (n : Nat) : (s.countFmt n).service = s.service := by unfold State.countFmt; split <;> simp
@[simp] theorem State.countFmt_signals (s : State) (n : Nat) : (s.countFmt n).signals = s.signals := by unfold State.countFmt; split <;> simp
@[simp] theorem State.countFmt_replies (s : State) (n : Nat) : (s.countFmt n).replies = s.replies := by unfold State.countFmt; split <;> simp
@[simp] theorem State.countFmt_spdm (s : State) (n : Nat) : (s.countFmt n).spdm = s.spdm := by unfold State.countFmt; split <;> simp
@[simp] theorem State.countFmt_uid (s : State) (n : Nat) : (s.countFmt n).uid = s.uid := by unfold State.countFmt; split <;> simp
@[simp] theorem State.countFmt_agenda (s : State) (n : Nat) : (s.countFmt n).agenda = s.agenda := by unfold State.countFmt; split <;> simp
@[simp] theorem State.countFmt_idle (s : State) (n : Nat) : (s.countFmt n).idle = s.idle := by unfold State.countFmt; split <;> simp
@[simp] theorem State.countFmt_freeSeq (s : State) (n : Nat) : (s.countFmt n).freeSeq = s.freeSeq := by unfold State.countFmt; split <;> simp

/-! ## Occ.setV -/

@[simp] theorem Occ.setV_task (o : Occ) (r i : Nat) (x : Word) : (o.setV r i x).task = o.task := rfl
@[simp] theorem Occ.setV_team (o : Occ) (r i : Nat) (x : Word) : (o.setV r i x).team = o.team := rfl
@[simp] theorem Occ.setV_launch (o : Occ) (r i : Nat) (x : Word) : (o.setV r i x).launch = o.launch := rfl
@[simp] theorem Occ.setV_teamIdx (o : Occ) (r i : Nat) (x : Word) : (o.setV r i x).teamIdx = o.teamIdx := rfl
@[simp] theorem Occ.setV_group (o : Occ) (r i : Nat) (x : Word) : (o.setV r i x).group = o.group := rfl
@[simp] theorem Occ.setV_ngroup (o : Occ) (r i : Nat) (x : Word) : (o.setV r i x).ngroup = o.ngroup := rfl
@[simp] theorem Occ.setV_width (o : Occ) (r i : Nat) (x : Word) : (o.setV r i x).width = o.width := rfl
@[simp] theorem Occ.setV_count (o : Occ) (r i : Nat) (x : Word) : (o.setV r i x).count = o.count := rfl
@[simp] theorem Occ.setV_lanePriv (o : Occ) (r i : Nat) (x : Word) : (o.setV r i x).lanePriv = o.lanePriv := rfl
@[simp] theorem Occ.setV_lanePrivBase (o : Occ) (r i : Nat) (x : Word) : (o.setV r i x).lanePrivBase = o.lanePrivBase := rfl
@[simp] theorem Occ.setV_pcs (o : Occ) (r i : Nat) (x : Word) : (o.setV r i x).pcs = o.pcs := rfl
@[simp] theorem Occ.setV_flow (o : Occ) (r i : Nat) (x : Word) : (o.setV r i x).flow = o.flow := rfl
@[simp] theorem Occ.setV_trapLevel (o : Occ) (r i : Nat) (x : Word) : (o.setV r i x).trapLevel = o.trapLevel := rfl
@[simp] theorem Occ.setV_capture (o : Occ) (r i : Nat) (x : Word) : (o.setV r i x).capture = o.capture := rfl
@[simp] theorem Occ.setV_stepping (o : Occ) (r i : Nat) (x : Word) : (o.setV r i x).stepping = o.stepping := rfl
@[simp] theorem Occ.setV_epc (o : Occ) (r i : Nat) (x : Word) : (o.setV r i x).epc = o.epc := rfl
@[simp] theorem Occ.setV_tcause (o : Occ) (r i : Nat) (x : Word) : (o.setV r i x).tcause = o.tcause := rfl
@[simp] theorem Occ.setV_tinfo (o : Occ) (r i : Nat) (x : Word) : (o.setV r i x).tinfo = o.tinfo := rfl
@[simp] theorem Occ.setV_taddr (o : Occ) (r i : Nat) (x : Word) : (o.setV r i x).taddr = o.taddr := rfl
@[simp] theorem Occ.setV_saveptr (o : Occ) (r i : Nat) (x : Word) : (o.setV r i x).saveptr = o.saveptr := rfl
@[simp] theorem Occ.setV_faultAt (o : Occ) (r i : Nat) (x : Word) : (o.setV r i x).faultAt = o.faultAt := rfl
@[simp] theorem Occ.setV_area (o : Occ) (r i : Nat) (x : Word) : (o.setV r i x).area = o.area := rfl
@[simp] theorem Occ.setV_window (o : Occ) (r i : Nat) (x : Word) : (o.setV r i x).window = o.window := rfl
@[simp] theorem Occ.setV_parkt (o : Occ) (r i : Nat) (x : Word) : (o.setV r i x).parkt = o.parkt := rfl
@[simp] theorem Occ.setV_mprog (o : Occ) (r i : Nat) (x : Word) : (o.setV r i x).mprog = o.mprog := rfl
@[simp] theorem Occ.setV_awb (o : Occ) (r i : Nat) (x : Word) : (o.setV r i x).awb = o.awb := rfl
@[simp] theorem Occ.setV_awl (o : Occ) (r i : Nat) (x : Word) : (o.setV r i x).awl = o.awl := rfl
@[simp] theorem Occ.setV_fgseen (o : Occ) (r i : Nat) (x : Word) : (o.setV r i x).fgseen = o.fgseen := rfl
@[simp] theorem Occ.setV_appending (o : Occ) (r i : Nat) (x : Word) : (o.setV r i x).appending = o.appending := rfl
@[simp] theorem Occ.setV_sysPend (o : Occ) (r i : Nat) (x : Word) : (o.setV r i x).sysPend = o.sysPend := rfl
@[simp] theorem Occ.setV_sysOld (o : Occ) (r i : Nat) (x : Word) : (o.setV r i x).sysOld = o.sysOld := rfl
@[simp] theorem Occ.setV_line (o : Occ) (r i : Nat) (x : Word) : (o.setV r i x).line = o.line := rfl
@[simp] theorem Occ.setV_streams (o : Occ) (r i : Nat) (x : Word) : (o.setV r i x).streams = o.streams := rfl
@[simp] theorem Occ.setV_cmds (o : Occ) (r i : Nat) (x : Word) : (o.setV r i x).cmds = o.cmds := rfl
@[simp] theorem Occ.setV_cmdErrs (o : Occ) (r i : Nat) (x : Word) : (o.setV r i x).cmdErrs = o.cmdErrs := rfl
@[simp] theorem Occ.setV_xcmds (o : Occ) (r i : Nat) (x : Word) : (o.setV r i x).xcmds = o.xcmds := rfl
@[simp] theorem Occ.setV_xerr (o : Occ) (r i : Nat) (x : Word) : (o.setV r i x).xerr = o.xerr := rfl
@[simp] theorem Occ.setV_nestAddr (o : Occ) (r i : Nat) (x : Word) : (o.setV r i x).nestAddr = o.nestAddr := rfl
@[simp] theorem Occ.setV_nestHeld (o : Occ) (r i : Nat) (x : Word) : (o.setV r i x).nestHeld = o.nestHeld := rfl
@[simp] theorem Occ.setV_shadow (o : Occ) (r i : Nat) (x : Word) : (o.setV r i x).shadow = o.shadow := rfl
@[simp] theorem Occ.setV_active (o : Occ) (r i : Nat) (x : Word) : (o.setV r i x).active = o.active := rfl
@[simp] theorem Occ.setV_fmts (o : Occ) (r i : Nat) (x : Word) : (o.setV r i x).fmts = o.fmts := rfl
@[simp] theorem Occ.setV_snapshot (o : Occ) (r i : Nat) (x : Word) : (o.setV r i x).snapshot = o.snapshot := rfl
@[simp] theorem Occ.setV_watches (o : Occ) (r i : Nat) (x : Word) : (o.setV r i x).watches = o.watches := rfl
@[simp] theorem Occ.setV_scene (o : Occ) (r i : Nat) (x : Word) : (o.setV r i x).scene = o.scene := rfl
@[simp] theorem Occ.setV_rayDepth (o : Occ) (r i : Nat) (x : Word) : (o.setV r i x).rayDepth = o.rayDepth := rfl
@[simp] theorem Occ.setV_beams (o : Occ) (r i : Nat) (x : Word) : (o.setV r i x).beams = o.beams := rfl
@[simp] theorem Occ.setV_token (o : Occ) (r i : Nat) (x : Word) : (o.setV r i x).token = o.token := rfl
@[simp] theorem Occ.setV_power (o : Occ) (r i : Nat) (x : Word) : (o.setV r i x).power = o.power := rfl
@[simp] theorem Occ.setV_felts (o : Occ) (r i : Nat) (x : Word) : (o.setV r i x).felts = o.felts := rfl
@[simp] theorem Occ.setV_rights (o : Occ) (r i : Nat) (x : Word) : (o.setV r i x).rights = o.rights := rfl
@[simp] theorem Occ.setV_wait (o : Occ) (r i : Nat) (x : Word) : (o.setV r i x).wait = o.wait := rfl
@[simp] theorem Occ.setV_barWait (o : Occ) (r i : Nat) (x : Word) : (o.setV r i x).barWait = o.barWait := rfl
@[simp] theorem Occ.setV_parked (o : Occ) (r i : Nat) (x : Word) : (o.setV r i x).parked = o.parked := rfl
@[simp] theorem Occ.setV_owed (o : Occ) (r i : Nat) (x : Word) : (o.setV r i x).owed = o.owed := rfl
@[simp] theorem Occ.setV_beats (o : Occ) (r i : Nat) (x : Word) : (o.setV r i x).beats = o.beats := rfl
@[simp] theorem Occ.setV_exited (o : Occ) (r i : Nat) (x : Word) : (o.setV r i x).exited = o.exited := rfl
@[simp] theorem Occ.setV_mwait (o : Occ) (r i : Nat) (x : Word) : (o.setV r i x).mwait = o.mwait := rfl
@[simp] theorem Occ.setV_causes (o : Occ) (r i : Nat) (x : Word) : (o.setV r i x).causes = o.causes := rfl
@[simp] theorem Occ.setV_stores (o : Occ) (r i : Nat) (x : Word) : (o.setV r i x).stores = o.stores := rfl
@[simp] theorem Occ.setV_ending (o : Occ) (r i : Nat) (x : Word) : (o.setV r i x).ending = o.ending := rfl

/-! ## Occ.setPair -/

@[simp] theorem Occ.setPair_task (o : Occ) (r i : Nat) (x : DWord) : (o.setPair r i x).task = o.task := rfl
@[simp] theorem Occ.setPair_team (o : Occ) (r i : Nat) (x : DWord) : (o.setPair r i x).team = o.team := rfl
@[simp] theorem Occ.setPair_launch (o : Occ) (r i : Nat) (x : DWord) : (o.setPair r i x).launch = o.launch := rfl
@[simp] theorem Occ.setPair_teamIdx (o : Occ) (r i : Nat) (x : DWord) : (o.setPair r i x).teamIdx = o.teamIdx := rfl
@[simp] theorem Occ.setPair_group (o : Occ) (r i : Nat) (x : DWord) : (o.setPair r i x).group = o.group := rfl
@[simp] theorem Occ.setPair_ngroup (o : Occ) (r i : Nat) (x : DWord) : (o.setPair r i x).ngroup = o.ngroup := rfl
@[simp] theorem Occ.setPair_width (o : Occ) (r i : Nat) (x : DWord) : (o.setPair r i x).width = o.width := rfl
@[simp] theorem Occ.setPair_count (o : Occ) (r i : Nat) (x : DWord) : (o.setPair r i x).count = o.count := rfl
@[simp] theorem Occ.setPair_lanePriv (o : Occ) (r i : Nat) (x : DWord) : (o.setPair r i x).lanePriv = o.lanePriv := rfl
@[simp] theorem Occ.setPair_lanePrivBase (o : Occ) (r i : Nat) (x : DWord) : (o.setPair r i x).lanePrivBase = o.lanePrivBase := rfl
@[simp] theorem Occ.setPair_pcs (o : Occ) (r i : Nat) (x : DWord) : (o.setPair r i x).pcs = o.pcs := rfl
@[simp] theorem Occ.setPair_flow (o : Occ) (r i : Nat) (x : DWord) : (o.setPair r i x).flow = o.flow := rfl
@[simp] theorem Occ.setPair_trapLevel (o : Occ) (r i : Nat) (x : DWord) : (o.setPair r i x).trapLevel = o.trapLevel := rfl
@[simp] theorem Occ.setPair_capture (o : Occ) (r i : Nat) (x : DWord) : (o.setPair r i x).capture = o.capture := rfl
@[simp] theorem Occ.setPair_stepping (o : Occ) (r i : Nat) (x : DWord) : (o.setPair r i x).stepping = o.stepping := rfl
@[simp] theorem Occ.setPair_epc (o : Occ) (r i : Nat) (x : DWord) : (o.setPair r i x).epc = o.epc := rfl
@[simp] theorem Occ.setPair_tcause (o : Occ) (r i : Nat) (x : DWord) : (o.setPair r i x).tcause = o.tcause := rfl
@[simp] theorem Occ.setPair_tinfo (o : Occ) (r i : Nat) (x : DWord) : (o.setPair r i x).tinfo = o.tinfo := rfl
@[simp] theorem Occ.setPair_taddr (o : Occ) (r i : Nat) (x : DWord) : (o.setPair r i x).taddr = o.taddr := rfl
@[simp] theorem Occ.setPair_saveptr (o : Occ) (r i : Nat) (x : DWord) : (o.setPair r i x).saveptr = o.saveptr := rfl
@[simp] theorem Occ.setPair_faultAt (o : Occ) (r i : Nat) (x : DWord) : (o.setPair r i x).faultAt = o.faultAt := rfl
@[simp] theorem Occ.setPair_area (o : Occ) (r i : Nat) (x : DWord) : (o.setPair r i x).area = o.area := rfl
@[simp] theorem Occ.setPair_window (o : Occ) (r i : Nat) (x : DWord) : (o.setPair r i x).window = o.window := rfl
@[simp] theorem Occ.setPair_parkt (o : Occ) (r i : Nat) (x : DWord) : (o.setPair r i x).parkt = o.parkt := rfl
@[simp] theorem Occ.setPair_mprog (o : Occ) (r i : Nat) (x : DWord) : (o.setPair r i x).mprog = o.mprog := rfl
@[simp] theorem Occ.setPair_awb (o : Occ) (r i : Nat) (x : DWord) : (o.setPair r i x).awb = o.awb := rfl
@[simp] theorem Occ.setPair_awl (o : Occ) (r i : Nat) (x : DWord) : (o.setPair r i x).awl = o.awl := rfl
@[simp] theorem Occ.setPair_fgseen (o : Occ) (r i : Nat) (x : DWord) : (o.setPair r i x).fgseen = o.fgseen := rfl
@[simp] theorem Occ.setPair_appending (o : Occ) (r i : Nat) (x : DWord) : (o.setPair r i x).appending = o.appending := rfl
@[simp] theorem Occ.setPair_sysPend (o : Occ) (r i : Nat) (x : DWord) : (o.setPair r i x).sysPend = o.sysPend := rfl
@[simp] theorem Occ.setPair_sysOld (o : Occ) (r i : Nat) (x : DWord) : (o.setPair r i x).sysOld = o.sysOld := rfl
@[simp] theorem Occ.setPair_line (o : Occ) (r i : Nat) (x : DWord) : (o.setPair r i x).line = o.line := rfl
@[simp] theorem Occ.setPair_streams (o : Occ) (r i : Nat) (x : DWord) : (o.setPair r i x).streams = o.streams := rfl
@[simp] theorem Occ.setPair_cmds (o : Occ) (r i : Nat) (x : DWord) : (o.setPair r i x).cmds = o.cmds := rfl
@[simp] theorem Occ.setPair_cmdErrs (o : Occ) (r i : Nat) (x : DWord) : (o.setPair r i x).cmdErrs = o.cmdErrs := rfl
@[simp] theorem Occ.setPair_xcmds (o : Occ) (r i : Nat) (x : DWord) : (o.setPair r i x).xcmds = o.xcmds := rfl
@[simp] theorem Occ.setPair_xerr (o : Occ) (r i : Nat) (x : DWord) : (o.setPair r i x).xerr = o.xerr := rfl
@[simp] theorem Occ.setPair_nestAddr (o : Occ) (r i : Nat) (x : DWord) : (o.setPair r i x).nestAddr = o.nestAddr := rfl
@[simp] theorem Occ.setPair_nestHeld (o : Occ) (r i : Nat) (x : DWord) : (o.setPair r i x).nestHeld = o.nestHeld := rfl
@[simp] theorem Occ.setPair_shadow (o : Occ) (r i : Nat) (x : DWord) : (o.setPair r i x).shadow = o.shadow := rfl
@[simp] theorem Occ.setPair_active (o : Occ) (r i : Nat) (x : DWord) : (o.setPair r i x).active = o.active := rfl
@[simp] theorem Occ.setPair_fmts (o : Occ) (r i : Nat) (x : DWord) : (o.setPair r i x).fmts = o.fmts := rfl
@[simp] theorem Occ.setPair_snapshot (o : Occ) (r i : Nat) (x : DWord) : (o.setPair r i x).snapshot = o.snapshot := rfl
@[simp] theorem Occ.setPair_watches (o : Occ) (r i : Nat) (x : DWord) : (o.setPair r i x).watches = o.watches := rfl
@[simp] theorem Occ.setPair_scene (o : Occ) (r i : Nat) (x : DWord) : (o.setPair r i x).scene = o.scene := rfl
@[simp] theorem Occ.setPair_rayDepth (o : Occ) (r i : Nat) (x : DWord) : (o.setPair r i x).rayDepth = o.rayDepth := rfl
@[simp] theorem Occ.setPair_beams (o : Occ) (r i : Nat) (x : DWord) : (o.setPair r i x).beams = o.beams := rfl
@[simp] theorem Occ.setPair_token (o : Occ) (r i : Nat) (x : DWord) : (o.setPair r i x).token = o.token := rfl
@[simp] theorem Occ.setPair_power (o : Occ) (r i : Nat) (x : DWord) : (o.setPair r i x).power = o.power := rfl
@[simp] theorem Occ.setPair_felts (o : Occ) (r i : Nat) (x : DWord) : (o.setPair r i x).felts = o.felts := rfl
@[simp] theorem Occ.setPair_rights (o : Occ) (r i : Nat) (x : DWord) : (o.setPair r i x).rights = o.rights := rfl
@[simp] theorem Occ.setPair_wait (o : Occ) (r i : Nat) (x : DWord) : (o.setPair r i x).wait = o.wait := rfl
@[simp] theorem Occ.setPair_barWait (o : Occ) (r i : Nat) (x : DWord) : (o.setPair r i x).barWait = o.barWait := rfl
@[simp] theorem Occ.setPair_parked (o : Occ) (r i : Nat) (x : DWord) : (o.setPair r i x).parked = o.parked := rfl
@[simp] theorem Occ.setPair_owed (o : Occ) (r i : Nat) (x : DWord) : (o.setPair r i x).owed = o.owed := rfl
@[simp] theorem Occ.setPair_beats (o : Occ) (r i : Nat) (x : DWord) : (o.setPair r i x).beats = o.beats := rfl
@[simp] theorem Occ.setPair_exited (o : Occ) (r i : Nat) (x : DWord) : (o.setPair r i x).exited = o.exited := rfl
@[simp] theorem Occ.setPair_mwait (o : Occ) (r i : Nat) (x : DWord) : (o.setPair r i x).mwait = o.mwait := rfl
@[simp] theorem Occ.setPair_causes (o : Occ) (r i : Nat) (x : DWord) : (o.setPair r i x).causes = o.causes := rfl
@[simp] theorem Occ.setPair_stores (o : Occ) (r i : Nat) (x : DWord) : (o.setPair r i x).stores = o.stores := rfl
@[simp] theorem Occ.setPair_ending (o : Occ) (r i : Nat) (x : DWord) : (o.setPair r i x).ending = o.ending := rfl

/-! ## Occ.setS -/

@[simp] theorem Occ.setS_task (o : Occ) (r : Nat) (x : DWord) : (o.setS r x).task = o.task := by unfold Occ.setS; split <;> rfl
@[simp] theorem Occ.setS_team (o : Occ) (r : Nat) (x : DWord) : (o.setS r x).team = o.team := by unfold Occ.setS; split <;> rfl
@[simp] theorem Occ.setS_launch (o : Occ) (r : Nat) (x : DWord) : (o.setS r x).launch = o.launch := by unfold Occ.setS; split <;> rfl
@[simp] theorem Occ.setS_teamIdx (o : Occ) (r : Nat) (x : DWord) : (o.setS r x).teamIdx = o.teamIdx := by unfold Occ.setS; split <;> rfl
@[simp] theorem Occ.setS_group (o : Occ) (r : Nat) (x : DWord) : (o.setS r x).group = o.group := by unfold Occ.setS; split <;> rfl
@[simp] theorem Occ.setS_ngroup (o : Occ) (r : Nat) (x : DWord) : (o.setS r x).ngroup = o.ngroup := by unfold Occ.setS; split <;> rfl
@[simp] theorem Occ.setS_width (o : Occ) (r : Nat) (x : DWord) : (o.setS r x).width = o.width := by unfold Occ.setS; split <;> rfl
@[simp] theorem Occ.setS_count (o : Occ) (r : Nat) (x : DWord) : (o.setS r x).count = o.count := by unfold Occ.setS; split <;> rfl
@[simp] theorem Occ.setS_lanePriv (o : Occ) (r : Nat) (x : DWord) : (o.setS r x).lanePriv = o.lanePriv := by unfold Occ.setS; split <;> rfl
@[simp] theorem Occ.setS_lanePrivBase (o : Occ) (r : Nat) (x : DWord) : (o.setS r x).lanePrivBase = o.lanePrivBase := by unfold Occ.setS; split <;> rfl
@[simp] theorem Occ.setS_pcs (o : Occ) (r : Nat) (x : DWord) : (o.setS r x).pcs = o.pcs := by unfold Occ.setS; split <;> rfl
@[simp] theorem Occ.setS_flow (o : Occ) (r : Nat) (x : DWord) : (o.setS r x).flow = o.flow := by unfold Occ.setS; split <;> rfl
@[simp] theorem Occ.setS_trapLevel (o : Occ) (r : Nat) (x : DWord) : (o.setS r x).trapLevel = o.trapLevel := by unfold Occ.setS; split <;> rfl
@[simp] theorem Occ.setS_capture (o : Occ) (r : Nat) (x : DWord) : (o.setS r x).capture = o.capture := by unfold Occ.setS; split <;> rfl
@[simp] theorem Occ.setS_stepping (o : Occ) (r : Nat) (x : DWord) : (o.setS r x).stepping = o.stepping := by unfold Occ.setS; split <;> rfl
@[simp] theorem Occ.setS_epc (o : Occ) (r : Nat) (x : DWord) : (o.setS r x).epc = o.epc := by unfold Occ.setS; split <;> rfl
@[simp] theorem Occ.setS_tcause (o : Occ) (r : Nat) (x : DWord) : (o.setS r x).tcause = o.tcause := by unfold Occ.setS; split <;> rfl
@[simp] theorem Occ.setS_tinfo (o : Occ) (r : Nat) (x : DWord) : (o.setS r x).tinfo = o.tinfo := by unfold Occ.setS; split <;> rfl
@[simp] theorem Occ.setS_taddr (o : Occ) (r : Nat) (x : DWord) : (o.setS r x).taddr = o.taddr := by unfold Occ.setS; split <;> rfl
@[simp] theorem Occ.setS_saveptr (o : Occ) (r : Nat) (x : DWord) : (o.setS r x).saveptr = o.saveptr := by unfold Occ.setS; split <;> rfl
@[simp] theorem Occ.setS_faultAt (o : Occ) (r : Nat) (x : DWord) : (o.setS r x).faultAt = o.faultAt := by unfold Occ.setS; split <;> rfl
@[simp] theorem Occ.setS_area (o : Occ) (r : Nat) (x : DWord) : (o.setS r x).area = o.area := by unfold Occ.setS; split <;> rfl
@[simp] theorem Occ.setS_window (o : Occ) (r : Nat) (x : DWord) : (o.setS r x).window = o.window := by unfold Occ.setS; split <;> rfl
@[simp] theorem Occ.setS_parkt (o : Occ) (r : Nat) (x : DWord) : (o.setS r x).parkt = o.parkt := by unfold Occ.setS; split <;> rfl
@[simp] theorem Occ.setS_mprog (o : Occ) (r : Nat) (x : DWord) : (o.setS r x).mprog = o.mprog := by unfold Occ.setS; split <;> rfl
@[simp] theorem Occ.setS_awb (o : Occ) (r : Nat) (x : DWord) : (o.setS r x).awb = o.awb := by unfold Occ.setS; split <;> rfl
@[simp] theorem Occ.setS_awl (o : Occ) (r : Nat) (x : DWord) : (o.setS r x).awl = o.awl := by unfold Occ.setS; split <;> rfl
@[simp] theorem Occ.setS_fgseen (o : Occ) (r : Nat) (x : DWord) : (o.setS r x).fgseen = o.fgseen := by unfold Occ.setS; split <;> rfl
@[simp] theorem Occ.setS_appending (o : Occ) (r : Nat) (x : DWord) : (o.setS r x).appending = o.appending := by unfold Occ.setS; split <;> rfl
@[simp] theorem Occ.setS_sysPend (o : Occ) (r : Nat) (x : DWord) : (o.setS r x).sysPend = o.sysPend := by unfold Occ.setS; split <;> rfl
@[simp] theorem Occ.setS_sysOld (o : Occ) (r : Nat) (x : DWord) : (o.setS r x).sysOld = o.sysOld := by unfold Occ.setS; split <;> rfl
@[simp] theorem Occ.setS_line (o : Occ) (r : Nat) (x : DWord) : (o.setS r x).line = o.line := by unfold Occ.setS; split <;> rfl
@[simp] theorem Occ.setS_streams (o : Occ) (r : Nat) (x : DWord) : (o.setS r x).streams = o.streams := by unfold Occ.setS; split <;> rfl
@[simp] theorem Occ.setS_cmds (o : Occ) (r : Nat) (x : DWord) : (o.setS r x).cmds = o.cmds := by unfold Occ.setS; split <;> rfl
@[simp] theorem Occ.setS_cmdErrs (o : Occ) (r : Nat) (x : DWord) : (o.setS r x).cmdErrs = o.cmdErrs := by unfold Occ.setS; split <;> rfl
@[simp] theorem Occ.setS_xcmds (o : Occ) (r : Nat) (x : DWord) : (o.setS r x).xcmds = o.xcmds := by unfold Occ.setS; split <;> rfl
@[simp] theorem Occ.setS_xerr (o : Occ) (r : Nat) (x : DWord) : (o.setS r x).xerr = o.xerr := by unfold Occ.setS; split <;> rfl
@[simp] theorem Occ.setS_nestAddr (o : Occ) (r : Nat) (x : DWord) : (o.setS r x).nestAddr = o.nestAddr := by unfold Occ.setS; split <;> rfl
@[simp] theorem Occ.setS_nestHeld (o : Occ) (r : Nat) (x : DWord) : (o.setS r x).nestHeld = o.nestHeld := by unfold Occ.setS; split <;> rfl
@[simp] theorem Occ.setS_shadow (o : Occ) (r : Nat) (x : DWord) : (o.setS r x).shadow = o.shadow := by unfold Occ.setS; split <;> rfl
@[simp] theorem Occ.setS_active (o : Occ) (r : Nat) (x : DWord) : (o.setS r x).active = o.active := by unfold Occ.setS; split <;> rfl
@[simp] theorem Occ.setS_fmts (o : Occ) (r : Nat) (x : DWord) : (o.setS r x).fmts = o.fmts := by unfold Occ.setS; split <;> rfl
@[simp] theorem Occ.setS_snapshot (o : Occ) (r : Nat) (x : DWord) : (o.setS r x).snapshot = o.snapshot := by unfold Occ.setS; split <;> rfl
@[simp] theorem Occ.setS_watches (o : Occ) (r : Nat) (x : DWord) : (o.setS r x).watches = o.watches := by unfold Occ.setS; split <;> rfl
@[simp] theorem Occ.setS_scene (o : Occ) (r : Nat) (x : DWord) : (o.setS r x).scene = o.scene := by unfold Occ.setS; split <;> rfl
@[simp] theorem Occ.setS_rayDepth (o : Occ) (r : Nat) (x : DWord) : (o.setS r x).rayDepth = o.rayDepth := by unfold Occ.setS; split <;> rfl
@[simp] theorem Occ.setS_beams (o : Occ) (r : Nat) (x : DWord) : (o.setS r x).beams = o.beams := by unfold Occ.setS; split <;> rfl
@[simp] theorem Occ.setS_token (o : Occ) (r : Nat) (x : DWord) : (o.setS r x).token = o.token := by unfold Occ.setS; split <;> rfl
@[simp] theorem Occ.setS_power (o : Occ) (r : Nat) (x : DWord) : (o.setS r x).power = o.power := by unfold Occ.setS; split <;> rfl
@[simp] theorem Occ.setS_felts (o : Occ) (r : Nat) (x : DWord) : (o.setS r x).felts = o.felts := by unfold Occ.setS; split <;> rfl
@[simp] theorem Occ.setS_rights (o : Occ) (r : Nat) (x : DWord) : (o.setS r x).rights = o.rights := by unfold Occ.setS; split <;> rfl
@[simp] theorem Occ.setS_wait (o : Occ) (r : Nat) (x : DWord) : (o.setS r x).wait = o.wait := by unfold Occ.setS; split <;> rfl
@[simp] theorem Occ.setS_barWait (o : Occ) (r : Nat) (x : DWord) : (o.setS r x).barWait = o.barWait := by unfold Occ.setS; split <;> rfl
@[simp] theorem Occ.setS_parked (o : Occ) (r : Nat) (x : DWord) : (o.setS r x).parked = o.parked := by unfold Occ.setS; split <;> rfl
@[simp] theorem Occ.setS_owed (o : Occ) (r : Nat) (x : DWord) : (o.setS r x).owed = o.owed := by unfold Occ.setS; split <;> rfl
@[simp] theorem Occ.setS_beats (o : Occ) (r : Nat) (x : DWord) : (o.setS r x).beats = o.beats := by unfold Occ.setS; split <;> rfl
@[simp] theorem Occ.setS_exited (o : Occ) (r : Nat) (x : DWord) : (o.setS r x).exited = o.exited := by unfold Occ.setS; split <;> rfl
@[simp] theorem Occ.setS_mwait (o : Occ) (r : Nat) (x : DWord) : (o.setS r x).mwait = o.mwait := by unfold Occ.setS; split <;> rfl
@[simp] theorem Occ.setS_causes (o : Occ) (r : Nat) (x : DWord) : (o.setS r x).causes = o.causes := by unfold Occ.setS; split <;> rfl
@[simp] theorem Occ.setS_stores (o : Occ) (r : Nat) (x : DWord) : (o.setS r x).stores = o.stores := by unfold Occ.setS; split <;> rfl
@[simp] theorem Occ.setS_ending (o : Occ) (r : Nat) (x : DWord) : (o.setS r x).ending = o.ending := by unfold Occ.setS; split <;> rfl

/-! ## Occ.setP -/

@[simp] theorem Occ.setP_task (o : Occ) (r : Nat) (x : DWord) : (o.setP r x).task = o.task := by unfold Occ.setP; split <;> rfl
@[simp] theorem Occ.setP_team (o : Occ) (r : Nat) (x : DWord) : (o.setP r x).team = o.team := by unfold Occ.setP; split <;> rfl
@[simp] theorem Occ.setP_launch (o : Occ) (r : Nat) (x : DWord) : (o.setP r x).launch = o.launch := by unfold Occ.setP; split <;> rfl
@[simp] theorem Occ.setP_teamIdx (o : Occ) (r : Nat) (x : DWord) : (o.setP r x).teamIdx = o.teamIdx := by unfold Occ.setP; split <;> rfl
@[simp] theorem Occ.setP_group (o : Occ) (r : Nat) (x : DWord) : (o.setP r x).group = o.group := by unfold Occ.setP; split <;> rfl
@[simp] theorem Occ.setP_ngroup (o : Occ) (r : Nat) (x : DWord) : (o.setP r x).ngroup = o.ngroup := by unfold Occ.setP; split <;> rfl
@[simp] theorem Occ.setP_width (o : Occ) (r : Nat) (x : DWord) : (o.setP r x).width = o.width := by unfold Occ.setP; split <;> rfl
@[simp] theorem Occ.setP_count (o : Occ) (r : Nat) (x : DWord) : (o.setP r x).count = o.count := by unfold Occ.setP; split <;> rfl
@[simp] theorem Occ.setP_lanePriv (o : Occ) (r : Nat) (x : DWord) : (o.setP r x).lanePriv = o.lanePriv := by unfold Occ.setP; split <;> rfl
@[simp] theorem Occ.setP_lanePrivBase (o : Occ) (r : Nat) (x : DWord) : (o.setP r x).lanePrivBase = o.lanePrivBase := by unfold Occ.setP; split <;> rfl
@[simp] theorem Occ.setP_pcs (o : Occ) (r : Nat) (x : DWord) : (o.setP r x).pcs = o.pcs := by unfold Occ.setP; split <;> rfl
@[simp] theorem Occ.setP_flow (o : Occ) (r : Nat) (x : DWord) : (o.setP r x).flow = o.flow := by unfold Occ.setP; split <;> rfl
@[simp] theorem Occ.setP_trapLevel (o : Occ) (r : Nat) (x : DWord) : (o.setP r x).trapLevel = o.trapLevel := by unfold Occ.setP; split <;> rfl
@[simp] theorem Occ.setP_capture (o : Occ) (r : Nat) (x : DWord) : (o.setP r x).capture = o.capture := by unfold Occ.setP; split <;> rfl
@[simp] theorem Occ.setP_stepping (o : Occ) (r : Nat) (x : DWord) : (o.setP r x).stepping = o.stepping := by unfold Occ.setP; split <;> rfl
@[simp] theorem Occ.setP_epc (o : Occ) (r : Nat) (x : DWord) : (o.setP r x).epc = o.epc := by unfold Occ.setP; split <;> rfl
@[simp] theorem Occ.setP_tcause (o : Occ) (r : Nat) (x : DWord) : (o.setP r x).tcause = o.tcause := by unfold Occ.setP; split <;> rfl
@[simp] theorem Occ.setP_tinfo (o : Occ) (r : Nat) (x : DWord) : (o.setP r x).tinfo = o.tinfo := by unfold Occ.setP; split <;> rfl
@[simp] theorem Occ.setP_taddr (o : Occ) (r : Nat) (x : DWord) : (o.setP r x).taddr = o.taddr := by unfold Occ.setP; split <;> rfl
@[simp] theorem Occ.setP_saveptr (o : Occ) (r : Nat) (x : DWord) : (o.setP r x).saveptr = o.saveptr := by unfold Occ.setP; split <;> rfl
@[simp] theorem Occ.setP_faultAt (o : Occ) (r : Nat) (x : DWord) : (o.setP r x).faultAt = o.faultAt := by unfold Occ.setP; split <;> rfl
@[simp] theorem Occ.setP_area (o : Occ) (r : Nat) (x : DWord) : (o.setP r x).area = o.area := by unfold Occ.setP; split <;> rfl
@[simp] theorem Occ.setP_window (o : Occ) (r : Nat) (x : DWord) : (o.setP r x).window = o.window := by unfold Occ.setP; split <;> rfl
@[simp] theorem Occ.setP_parkt (o : Occ) (r : Nat) (x : DWord) : (o.setP r x).parkt = o.parkt := by unfold Occ.setP; split <;> rfl
@[simp] theorem Occ.setP_mprog (o : Occ) (r : Nat) (x : DWord) : (o.setP r x).mprog = o.mprog := by unfold Occ.setP; split <;> rfl
@[simp] theorem Occ.setP_awb (o : Occ) (r : Nat) (x : DWord) : (o.setP r x).awb = o.awb := by unfold Occ.setP; split <;> rfl
@[simp] theorem Occ.setP_awl (o : Occ) (r : Nat) (x : DWord) : (o.setP r x).awl = o.awl := by unfold Occ.setP; split <;> rfl
@[simp] theorem Occ.setP_fgseen (o : Occ) (r : Nat) (x : DWord) : (o.setP r x).fgseen = o.fgseen := by unfold Occ.setP; split <;> rfl
@[simp] theorem Occ.setP_appending (o : Occ) (r : Nat) (x : DWord) : (o.setP r x).appending = o.appending := by unfold Occ.setP; split <;> rfl
@[simp] theorem Occ.setP_sysPend (o : Occ) (r : Nat) (x : DWord) : (o.setP r x).sysPend = o.sysPend := by unfold Occ.setP; split <;> rfl
@[simp] theorem Occ.setP_sysOld (o : Occ) (r : Nat) (x : DWord) : (o.setP r x).sysOld = o.sysOld := by unfold Occ.setP; split <;> rfl
@[simp] theorem Occ.setP_line (o : Occ) (r : Nat) (x : DWord) : (o.setP r x).line = o.line := by unfold Occ.setP; split <;> rfl
@[simp] theorem Occ.setP_streams (o : Occ) (r : Nat) (x : DWord) : (o.setP r x).streams = o.streams := by unfold Occ.setP; split <;> rfl
@[simp] theorem Occ.setP_cmds (o : Occ) (r : Nat) (x : DWord) : (o.setP r x).cmds = o.cmds := by unfold Occ.setP; split <;> rfl
@[simp] theorem Occ.setP_cmdErrs (o : Occ) (r : Nat) (x : DWord) : (o.setP r x).cmdErrs = o.cmdErrs := by unfold Occ.setP; split <;> rfl
@[simp] theorem Occ.setP_xcmds (o : Occ) (r : Nat) (x : DWord) : (o.setP r x).xcmds = o.xcmds := by unfold Occ.setP; split <;> rfl
@[simp] theorem Occ.setP_xerr (o : Occ) (r : Nat) (x : DWord) : (o.setP r x).xerr = o.xerr := by unfold Occ.setP; split <;> rfl
@[simp] theorem Occ.setP_nestAddr (o : Occ) (r : Nat) (x : DWord) : (o.setP r x).nestAddr = o.nestAddr := by unfold Occ.setP; split <;> rfl
@[simp] theorem Occ.setP_nestHeld (o : Occ) (r : Nat) (x : DWord) : (o.setP r x).nestHeld = o.nestHeld := by unfold Occ.setP; split <;> rfl
@[simp] theorem Occ.setP_shadow (o : Occ) (r : Nat) (x : DWord) : (o.setP r x).shadow = o.shadow := by unfold Occ.setP; split <;> rfl
@[simp] theorem Occ.setP_active (o : Occ) (r : Nat) (x : DWord) : (o.setP r x).active = o.active := by unfold Occ.setP; split <;> rfl
@[simp] theorem Occ.setP_fmts (o : Occ) (r : Nat) (x : DWord) : (o.setP r x).fmts = o.fmts := by unfold Occ.setP; split <;> rfl
@[simp] theorem Occ.setP_snapshot (o : Occ) (r : Nat) (x : DWord) : (o.setP r x).snapshot = o.snapshot := by unfold Occ.setP; split <;> rfl
@[simp] theorem Occ.setP_watches (o : Occ) (r : Nat) (x : DWord) : (o.setP r x).watches = o.watches := by unfold Occ.setP; split <;> rfl
@[simp] theorem Occ.setP_scene (o : Occ) (r : Nat) (x : DWord) : (o.setP r x).scene = o.scene := by unfold Occ.setP; split <;> rfl
@[simp] theorem Occ.setP_rayDepth (o : Occ) (r : Nat) (x : DWord) : (o.setP r x).rayDepth = o.rayDepth := by unfold Occ.setP; split <;> rfl
@[simp] theorem Occ.setP_beams (o : Occ) (r : Nat) (x : DWord) : (o.setP r x).beams = o.beams := by unfold Occ.setP; split <;> rfl
@[simp] theorem Occ.setP_token (o : Occ) (r : Nat) (x : DWord) : (o.setP r x).token = o.token := by unfold Occ.setP; split <;> rfl
@[simp] theorem Occ.setP_power (o : Occ) (r : Nat) (x : DWord) : (o.setP r x).power = o.power := by unfold Occ.setP; split <;> rfl
@[simp] theorem Occ.setP_felts (o : Occ) (r : Nat) (x : DWord) : (o.setP r x).felts = o.felts := by unfold Occ.setP; split <;> rfl
@[simp] theorem Occ.setP_rights (o : Occ) (r : Nat) (x : DWord) : (o.setP r x).rights = o.rights := by unfold Occ.setP; split <;> rfl
@[simp] theorem Occ.setP_wait (o : Occ) (r : Nat) (x : DWord) : (o.setP r x).wait = o.wait := by unfold Occ.setP; split <;> rfl
@[simp] theorem Occ.setP_barWait (o : Occ) (r : Nat) (x : DWord) : (o.setP r x).barWait = o.barWait := by unfold Occ.setP; split <;> rfl
@[simp] theorem Occ.setP_parked (o : Occ) (r : Nat) (x : DWord) : (o.setP r x).parked = o.parked := by unfold Occ.setP; split <;> rfl
@[simp] theorem Occ.setP_owed (o : Occ) (r : Nat) (x : DWord) : (o.setP r x).owed = o.owed := by unfold Occ.setP; split <;> rfl
@[simp] theorem Occ.setP_beats (o : Occ) (r : Nat) (x : DWord) : (o.setP r x).beats = o.beats := by unfold Occ.setP; split <;> rfl
@[simp] theorem Occ.setP_exited (o : Occ) (r : Nat) (x : DWord) : (o.setP r x).exited = o.exited := by unfold Occ.setP; split <;> rfl
@[simp] theorem Occ.setP_mwait (o : Occ) (r : Nat) (x : DWord) : (o.setP r x).mwait = o.mwait := by unfold Occ.setP; split <;> rfl
@[simp] theorem Occ.setP_causes (o : Occ) (r : Nat) (x : DWord) : (o.setP r x).causes = o.causes := by unfold Occ.setP; split <;> rfl
@[simp] theorem Occ.setP_stores (o : Occ) (r : Nat) (x : DWord) : (o.setP r x).stores = o.stores := by unfold Occ.setP; split <;> rfl
@[simp] theorem Occ.setP_ending (o : Occ) (r : Nat) (x : DWord) : (o.setP r x).ending = o.ending := by unfold Occ.setP; split <;> rfl

/-! ## Occ.setQ -/

@[simp] theorem Occ.setQ_task (o : Occ) (r : Nat) (x : Bool) : (o.setQ r x).task = o.task := by unfold Occ.setQ; split <;> rfl
@[simp] theorem Occ.setQ_team (o : Occ) (r : Nat) (x : Bool) : (o.setQ r x).team = o.team := by unfold Occ.setQ; split <;> rfl
@[simp] theorem Occ.setQ_launch (o : Occ) (r : Nat) (x : Bool) : (o.setQ r x).launch = o.launch := by unfold Occ.setQ; split <;> rfl
@[simp] theorem Occ.setQ_teamIdx (o : Occ) (r : Nat) (x : Bool) : (o.setQ r x).teamIdx = o.teamIdx := by unfold Occ.setQ; split <;> rfl
@[simp] theorem Occ.setQ_group (o : Occ) (r : Nat) (x : Bool) : (o.setQ r x).group = o.group := by unfold Occ.setQ; split <;> rfl
@[simp] theorem Occ.setQ_ngroup (o : Occ) (r : Nat) (x : Bool) : (o.setQ r x).ngroup = o.ngroup := by unfold Occ.setQ; split <;> rfl
@[simp] theorem Occ.setQ_width (o : Occ) (r : Nat) (x : Bool) : (o.setQ r x).width = o.width := by unfold Occ.setQ; split <;> rfl
@[simp] theorem Occ.setQ_count (o : Occ) (r : Nat) (x : Bool) : (o.setQ r x).count = o.count := by unfold Occ.setQ; split <;> rfl
@[simp] theorem Occ.setQ_lanePriv (o : Occ) (r : Nat) (x : Bool) : (o.setQ r x).lanePriv = o.lanePriv := by unfold Occ.setQ; split <;> rfl
@[simp] theorem Occ.setQ_lanePrivBase (o : Occ) (r : Nat) (x : Bool) : (o.setQ r x).lanePrivBase = o.lanePrivBase := by unfold Occ.setQ; split <;> rfl
@[simp] theorem Occ.setQ_pcs (o : Occ) (r : Nat) (x : Bool) : (o.setQ r x).pcs = o.pcs := by unfold Occ.setQ; split <;> rfl
@[simp] theorem Occ.setQ_flow (o : Occ) (r : Nat) (x : Bool) : (o.setQ r x).flow = o.flow := by unfold Occ.setQ; split <;> rfl
@[simp] theorem Occ.setQ_trapLevel (o : Occ) (r : Nat) (x : Bool) : (o.setQ r x).trapLevel = o.trapLevel := by unfold Occ.setQ; split <;> rfl
@[simp] theorem Occ.setQ_capture (o : Occ) (r : Nat) (x : Bool) : (o.setQ r x).capture = o.capture := by unfold Occ.setQ; split <;> rfl
@[simp] theorem Occ.setQ_stepping (o : Occ) (r : Nat) (x : Bool) : (o.setQ r x).stepping = o.stepping := by unfold Occ.setQ; split <;> rfl
@[simp] theorem Occ.setQ_epc (o : Occ) (r : Nat) (x : Bool) : (o.setQ r x).epc = o.epc := by unfold Occ.setQ; split <;> rfl
@[simp] theorem Occ.setQ_tcause (o : Occ) (r : Nat) (x : Bool) : (o.setQ r x).tcause = o.tcause := by unfold Occ.setQ; split <;> rfl
@[simp] theorem Occ.setQ_tinfo (o : Occ) (r : Nat) (x : Bool) : (o.setQ r x).tinfo = o.tinfo := by unfold Occ.setQ; split <;> rfl
@[simp] theorem Occ.setQ_taddr (o : Occ) (r : Nat) (x : Bool) : (o.setQ r x).taddr = o.taddr := by unfold Occ.setQ; split <;> rfl
@[simp] theorem Occ.setQ_saveptr (o : Occ) (r : Nat) (x : Bool) : (o.setQ r x).saveptr = o.saveptr := by unfold Occ.setQ; split <;> rfl
@[simp] theorem Occ.setQ_faultAt (o : Occ) (r : Nat) (x : Bool) : (o.setQ r x).faultAt = o.faultAt := by unfold Occ.setQ; split <;> rfl
@[simp] theorem Occ.setQ_area (o : Occ) (r : Nat) (x : Bool) : (o.setQ r x).area = o.area := by unfold Occ.setQ; split <;> rfl
@[simp] theorem Occ.setQ_window (o : Occ) (r : Nat) (x : Bool) : (o.setQ r x).window = o.window := by unfold Occ.setQ; split <;> rfl
@[simp] theorem Occ.setQ_parkt (o : Occ) (r : Nat) (x : Bool) : (o.setQ r x).parkt = o.parkt := by unfold Occ.setQ; split <;> rfl
@[simp] theorem Occ.setQ_mprog (o : Occ) (r : Nat) (x : Bool) : (o.setQ r x).mprog = o.mprog := by unfold Occ.setQ; split <;> rfl
@[simp] theorem Occ.setQ_awb (o : Occ) (r : Nat) (x : Bool) : (o.setQ r x).awb = o.awb := by unfold Occ.setQ; split <;> rfl
@[simp] theorem Occ.setQ_awl (o : Occ) (r : Nat) (x : Bool) : (o.setQ r x).awl = o.awl := by unfold Occ.setQ; split <;> rfl
@[simp] theorem Occ.setQ_fgseen (o : Occ) (r : Nat) (x : Bool) : (o.setQ r x).fgseen = o.fgseen := by unfold Occ.setQ; split <;> rfl
@[simp] theorem Occ.setQ_appending (o : Occ) (r : Nat) (x : Bool) : (o.setQ r x).appending = o.appending := by unfold Occ.setQ; split <;> rfl
@[simp] theorem Occ.setQ_sysPend (o : Occ) (r : Nat) (x : Bool) : (o.setQ r x).sysPend = o.sysPend := by unfold Occ.setQ; split <;> rfl
@[simp] theorem Occ.setQ_sysOld (o : Occ) (r : Nat) (x : Bool) : (o.setQ r x).sysOld = o.sysOld := by unfold Occ.setQ; split <;> rfl
@[simp] theorem Occ.setQ_line (o : Occ) (r : Nat) (x : Bool) : (o.setQ r x).line = o.line := by unfold Occ.setQ; split <;> rfl
@[simp] theorem Occ.setQ_streams (o : Occ) (r : Nat) (x : Bool) : (o.setQ r x).streams = o.streams := by unfold Occ.setQ; split <;> rfl
@[simp] theorem Occ.setQ_cmds (o : Occ) (r : Nat) (x : Bool) : (o.setQ r x).cmds = o.cmds := by unfold Occ.setQ; split <;> rfl
@[simp] theorem Occ.setQ_cmdErrs (o : Occ) (r : Nat) (x : Bool) : (o.setQ r x).cmdErrs = o.cmdErrs := by unfold Occ.setQ; split <;> rfl
@[simp] theorem Occ.setQ_xcmds (o : Occ) (r : Nat) (x : Bool) : (o.setQ r x).xcmds = o.xcmds := by unfold Occ.setQ; split <;> rfl
@[simp] theorem Occ.setQ_xerr (o : Occ) (r : Nat) (x : Bool) : (o.setQ r x).xerr = o.xerr := by unfold Occ.setQ; split <;> rfl
@[simp] theorem Occ.setQ_nestAddr (o : Occ) (r : Nat) (x : Bool) : (o.setQ r x).nestAddr = o.nestAddr := by unfold Occ.setQ; split <;> rfl
@[simp] theorem Occ.setQ_nestHeld (o : Occ) (r : Nat) (x : Bool) : (o.setQ r x).nestHeld = o.nestHeld := by unfold Occ.setQ; split <;> rfl
@[simp] theorem Occ.setQ_shadow (o : Occ) (r : Nat) (x : Bool) : (o.setQ r x).shadow = o.shadow := by unfold Occ.setQ; split <;> rfl
@[simp] theorem Occ.setQ_active (o : Occ) (r : Nat) (x : Bool) : (o.setQ r x).active = o.active := by unfold Occ.setQ; split <;> rfl
@[simp] theorem Occ.setQ_fmts (o : Occ) (r : Nat) (x : Bool) : (o.setQ r x).fmts = o.fmts := by unfold Occ.setQ; split <;> rfl
@[simp] theorem Occ.setQ_snapshot (o : Occ) (r : Nat) (x : Bool) : (o.setQ r x).snapshot = o.snapshot := by unfold Occ.setQ; split <;> rfl
@[simp] theorem Occ.setQ_watches (o : Occ) (r : Nat) (x : Bool) : (o.setQ r x).watches = o.watches := by unfold Occ.setQ; split <;> rfl
@[simp] theorem Occ.setQ_scene (o : Occ) (r : Nat) (x : Bool) : (o.setQ r x).scene = o.scene := by unfold Occ.setQ; split <;> rfl
@[simp] theorem Occ.setQ_rayDepth (o : Occ) (r : Nat) (x : Bool) : (o.setQ r x).rayDepth = o.rayDepth := by unfold Occ.setQ; split <;> rfl
@[simp] theorem Occ.setQ_beams (o : Occ) (r : Nat) (x : Bool) : (o.setQ r x).beams = o.beams := by unfold Occ.setQ; split <;> rfl
@[simp] theorem Occ.setQ_token (o : Occ) (r : Nat) (x : Bool) : (o.setQ r x).token = o.token := by unfold Occ.setQ; split <;> rfl
@[simp] theorem Occ.setQ_power (o : Occ) (r : Nat) (x : Bool) : (o.setQ r x).power = o.power := by unfold Occ.setQ; split <;> rfl
@[simp] theorem Occ.setQ_felts (o : Occ) (r : Nat) (x : Bool) : (o.setQ r x).felts = o.felts := by unfold Occ.setQ; split <;> rfl
@[simp] theorem Occ.setQ_rights (o : Occ) (r : Nat) (x : Bool) : (o.setQ r x).rights = o.rights := by unfold Occ.setQ; split <;> rfl
@[simp] theorem Occ.setQ_wait (o : Occ) (r : Nat) (x : Bool) : (o.setQ r x).wait = o.wait := by unfold Occ.setQ; split <;> rfl
@[simp] theorem Occ.setQ_barWait (o : Occ) (r : Nat) (x : Bool) : (o.setQ r x).barWait = o.barWait := by unfold Occ.setQ; split <;> rfl
@[simp] theorem Occ.setQ_parked (o : Occ) (r : Nat) (x : Bool) : (o.setQ r x).parked = o.parked := by unfold Occ.setQ; split <;> rfl
@[simp] theorem Occ.setQ_owed (o : Occ) (r : Nat) (x : Bool) : (o.setQ r x).owed = o.owed := by unfold Occ.setQ; split <;> rfl
@[simp] theorem Occ.setQ_beats (o : Occ) (r : Nat) (x : Bool) : (o.setQ r x).beats = o.beats := by unfold Occ.setQ; split <;> rfl
@[simp] theorem Occ.setQ_exited (o : Occ) (r : Nat) (x : Bool) : (o.setQ r x).exited = o.exited := by unfold Occ.setQ; split <;> rfl
@[simp] theorem Occ.setQ_mwait (o : Occ) (r : Nat) (x : Bool) : (o.setQ r x).mwait = o.mwait := by unfold Occ.setQ; split <;> rfl
@[simp] theorem Occ.setQ_causes (o : Occ) (r : Nat) (x : Bool) : (o.setQ r x).causes = o.causes := by unfold Occ.setQ; split <;> rfl
@[simp] theorem Occ.setQ_stores (o : Occ) (r : Nat) (x : Bool) : (o.setQ r x).stores = o.stores := by unfold Occ.setQ; split <;> rfl
@[simp] theorem Occ.setQ_ending (o : Occ) (r : Nat) (x : Bool) : (o.setQ r x).ending = o.ending := by unfold Occ.setQ; split <;> rfl

/-! ## Occ.advance -/

@[simp] theorem Occ.advance_task (o : Occ) (e : Eng) (n : Nat) : (o.advance e n).task = o.task := rfl
@[simp] theorem Occ.advance_team (o : Occ) (e : Eng) (n : Nat) : (o.advance e n).team = o.team := rfl
@[simp] theorem Occ.advance_launch (o : Occ) (e : Eng) (n : Nat) : (o.advance e n).launch = o.launch := rfl
@[simp] theorem Occ.advance_teamIdx (o : Occ) (e : Eng) (n : Nat) : (o.advance e n).teamIdx = o.teamIdx := rfl
@[simp] theorem Occ.advance_group (o : Occ) (e : Eng) (n : Nat) : (o.advance e n).group = o.group := rfl
@[simp] theorem Occ.advance_ngroup (o : Occ) (e : Eng) (n : Nat) : (o.advance e n).ngroup = o.ngroup := rfl
@[simp] theorem Occ.advance_width (o : Occ) (e : Eng) (n : Nat) : (o.advance e n).width = o.width := rfl
@[simp] theorem Occ.advance_count (o : Occ) (e : Eng) (n : Nat) : (o.advance e n).count = o.count := rfl
@[simp] theorem Occ.advance_lanePriv (o : Occ) (e : Eng) (n : Nat) : (o.advance e n).lanePriv = o.lanePriv := rfl
@[simp] theorem Occ.advance_lanePrivBase (o : Occ) (e : Eng) (n : Nat) : (o.advance e n).lanePrivBase = o.lanePrivBase := rfl
@[simp] theorem Occ.advance_regs (o : Occ) (e : Eng) (n : Nat) : (o.advance e n).regs = o.regs := rfl
@[simp] theorem Occ.advance_flow (o : Occ) (e : Eng) (n : Nat) : (o.advance e n).flow = o.flow := rfl
@[simp] theorem Occ.advance_trapLevel (o : Occ) (e : Eng) (n : Nat) : (o.advance e n).trapLevel = o.trapLevel := rfl
@[simp] theorem Occ.advance_capture (o : Occ) (e : Eng) (n : Nat) : (o.advance e n).capture = o.capture := rfl
@[simp] theorem Occ.advance_stepping (o : Occ) (e : Eng) (n : Nat) : (o.advance e n).stepping = o.stepping := rfl
@[simp] theorem Occ.advance_epc (o : Occ) (e : Eng) (n : Nat) : (o.advance e n).epc = o.epc := rfl
@[simp] theorem Occ.advance_tcause (o : Occ) (e : Eng) (n : Nat) : (o.advance e n).tcause = o.tcause := rfl
@[simp] theorem Occ.advance_tinfo (o : Occ) (e : Eng) (n : Nat) : (o.advance e n).tinfo = o.tinfo := rfl
@[simp] theorem Occ.advance_taddr (o : Occ) (e : Eng) (n : Nat) : (o.advance e n).taddr = o.taddr := rfl
@[simp] theorem Occ.advance_saveptr (o : Occ) (e : Eng) (n : Nat) : (o.advance e n).saveptr = o.saveptr := rfl
@[simp] theorem Occ.advance_faultAt (o : Occ) (e : Eng) (n : Nat) : (o.advance e n).faultAt = o.faultAt := rfl
@[simp] theorem Occ.advance_area (o : Occ) (e : Eng) (n : Nat) : (o.advance e n).area = o.area := rfl
@[simp] theorem Occ.advance_window (o : Occ) (e : Eng) (n : Nat) : (o.advance e n).window = o.window := rfl
@[simp] theorem Occ.advance_parkt (o : Occ) (e : Eng) (n : Nat) : (o.advance e n).parkt = o.parkt := rfl
@[simp] theorem Occ.advance_mprog (o : Occ) (e : Eng) (n : Nat) : (o.advance e n).mprog = o.mprog := rfl
@[simp] theorem Occ.advance_awb (o : Occ) (e : Eng) (n : Nat) : (o.advance e n).awb = o.awb := rfl
@[simp] theorem Occ.advance_awl (o : Occ) (e : Eng) (n : Nat) : (o.advance e n).awl = o.awl := rfl
@[simp] theorem Occ.advance_fgseen (o : Occ) (e : Eng) (n : Nat) : (o.advance e n).fgseen = o.fgseen := rfl
@[simp] theorem Occ.advance_appending (o : Occ) (e : Eng) (n : Nat) : (o.advance e n).appending = o.appending := rfl
@[simp] theorem Occ.advance_sysPend (o : Occ) (e : Eng) (n : Nat) : (o.advance e n).sysPend = o.sysPend := rfl
@[simp] theorem Occ.advance_sysOld (o : Occ) (e : Eng) (n : Nat) : (o.advance e n).sysOld = o.sysOld := rfl
@[simp] theorem Occ.advance_line (o : Occ) (e : Eng) (n : Nat) : (o.advance e n).line = o.line := rfl
@[simp] theorem Occ.advance_streams (o : Occ) (e : Eng) (n : Nat) : (o.advance e n).streams = o.streams := rfl
@[simp] theorem Occ.advance_cmds (o : Occ) (e : Eng) (n : Nat) : (o.advance e n).cmds = o.cmds := rfl
@[simp] theorem Occ.advance_cmdErrs (o : Occ) (e : Eng) (n : Nat) : (o.advance e n).cmdErrs = o.cmdErrs := rfl
@[simp] theorem Occ.advance_xcmds (o : Occ) (e : Eng) (n : Nat) : (o.advance e n).xcmds = o.xcmds := rfl
@[simp] theorem Occ.advance_xerr (o : Occ) (e : Eng) (n : Nat) : (o.advance e n).xerr = o.xerr := rfl
@[simp] theorem Occ.advance_nestAddr (o : Occ) (e : Eng) (n : Nat) : (o.advance e n).nestAddr = o.nestAddr := rfl
@[simp] theorem Occ.advance_nestHeld (o : Occ) (e : Eng) (n : Nat) : (o.advance e n).nestHeld = o.nestHeld := rfl
@[simp] theorem Occ.advance_shadow (o : Occ) (e : Eng) (n : Nat) : (o.advance e n).shadow = o.shadow := rfl
@[simp] theorem Occ.advance_active (o : Occ) (e : Eng) (n : Nat) : (o.advance e n).active = o.active := rfl
@[simp] theorem Occ.advance_fmts (o : Occ) (e : Eng) (n : Nat) : (o.advance e n).fmts = o.fmts := rfl
@[simp] theorem Occ.advance_snapshot (o : Occ) (e : Eng) (n : Nat) : (o.advance e n).snapshot = o.snapshot := rfl
@[simp] theorem Occ.advance_watches (o : Occ) (e : Eng) (n : Nat) : (o.advance e n).watches = o.watches := rfl
@[simp] theorem Occ.advance_scene (o : Occ) (e : Eng) (n : Nat) : (o.advance e n).scene = o.scene := rfl
@[simp] theorem Occ.advance_rayDepth (o : Occ) (e : Eng) (n : Nat) : (o.advance e n).rayDepth = o.rayDepth := rfl
@[simp] theorem Occ.advance_beams (o : Occ) (e : Eng) (n : Nat) : (o.advance e n).beams = o.beams := rfl
@[simp] theorem Occ.advance_token (o : Occ) (e : Eng) (n : Nat) : (o.advance e n).token = o.token := rfl
@[simp] theorem Occ.advance_power (o : Occ) (e : Eng) (n : Nat) : (o.advance e n).power = o.power := rfl
@[simp] theorem Occ.advance_felts (o : Occ) (e : Eng) (n : Nat) : (o.advance e n).felts = o.felts := rfl
@[simp] theorem Occ.advance_rights (o : Occ) (e : Eng) (n : Nat) : (o.advance e n).rights = o.rights := rfl
@[simp] theorem Occ.advance_barWait (o : Occ) (e : Eng) (n : Nat) : (o.advance e n).barWait = o.barWait := rfl
@[simp] theorem Occ.advance_parked (o : Occ) (e : Eng) (n : Nat) : (o.advance e n).parked = o.parked := rfl
@[simp] theorem Occ.advance_owed (o : Occ) (e : Eng) (n : Nat) : (o.advance e n).owed = o.owed := rfl
@[simp] theorem Occ.advance_beats (o : Occ) (e : Eng) (n : Nat) : (o.advance e n).beats = o.beats := rfl
@[simp] theorem Occ.advance_exited (o : Occ) (e : Eng) (n : Nat) : (o.advance e n).exited = o.exited := rfl
@[simp] theorem Occ.advance_mwait (o : Occ) (e : Eng) (n : Nat) : (o.advance e n).mwait = o.mwait := rfl
@[simp] theorem Occ.advance_causes (o : Occ) (e : Eng) (n : Nat) : (o.advance e n).causes = o.causes := rfl
@[simp] theorem Occ.advance_stores (o : Occ) (e : Eng) (n : Nat) : (o.advance e n).stores = o.stores := rfl
@[simp] theorem Occ.advance_ending (o : Occ) (e : Eng) (n : Nat) : (o.advance e n).ending = o.ending := rfl

@[simp] theorem Occ.advance_wait (o : Occ) (e : Eng) (n : Nat) : (o.advance e n).wait = none := rfl
@[simp] theorem Occ.setV_regs_p (o : Occ) (r i : Nat) (x : Word) : (o.setV r i x).regs.p = o.regs.p := rfl
@[simp] theorem Occ.setV_regs_s (o : Occ) (r i : Nat) (x : Word) : (o.setV r i x).regs.s = o.regs.s := rfl
@[simp] theorem Occ.setV_regs_q (o : Occ) (r i : Nat) (x : Word) : (o.setV r i x).regs.q = o.regs.q := rfl
@[simp] theorem Occ.setPair_regs_p (o : Occ) (r i : Nat) (x : DWord) : (o.setPair r i x).regs.p = o.regs.p := rfl
@[simp] theorem Occ.setPair_regs_s (o : Occ) (r i : Nat) (x : DWord) : (o.setPair r i x).regs.s = o.regs.s := rfl
@[simp] theorem Occ.setPair_regs_q (o : Occ) (r i : Nat) (x : DWord) : (o.setPair r i x).regs.q = o.regs.q := rfl
@[simp] theorem Occ.setS_regs_v (o : Occ) (r : Nat) (x : DWord) : (o.setS r x).regs.v = o.regs.v := by
  unfold Occ.setS; split <;> rfl
@[simp] theorem Occ.setS_regs_p (o : Occ) (r : Nat) (x : DWord) : (o.setS r x).regs.p = o.regs.p := by
  unfold Occ.setS; split <;> rfl
@[simp] theorem Occ.setS_regs_q (o : Occ) (r : Nat) (x : DWord) : (o.setS r x).regs.q = o.regs.q := by
  unfold Occ.setS; split <;> rfl
@[simp] theorem Occ.setP_regs_v (o : Occ) (r : Nat) (x : DWord) : (o.setP r x).regs.v = o.regs.v := by
  unfold Occ.setP; split <;> rfl
@[simp] theorem Occ.setP_regs_s (o : Occ) (r : Nat) (x : DWord) : (o.setP r x).regs.s = o.regs.s := by
  unfold Occ.setP; split <;> rfl
@[simp] theorem Occ.setP_regs_q (o : Occ) (r : Nat) (x : DWord) : (o.setP r x).regs.q = o.regs.q := by
  unfold Occ.setP; split <;> rfl
@[simp] theorem Occ.setQ_regs_v (o : Occ) (r : Nat) (x : Bool) : (o.setQ r x).regs.v = o.regs.v := by
  unfold Occ.setQ; split <;> rfl
@[simp] theorem Occ.setQ_regs_p (o : Occ) (r : Nat) (x : Bool) : (o.setQ r x).regs.p = o.regs.p := by
  unfold Occ.setQ; split <;> rfl
@[simp] theorem Occ.setQ_regs_s (o : Occ) (r : Nat) (x : Bool) : (o.setQ r x).regs.s = o.regs.s := by
  unfold Occ.setQ; split <;> rfl

end Sys2Proof.Machine
end

