-- ==== Sys2Proof/Laws/Registers.lean ====
section
/-! SUPPORT. What a register reads after a write (R20, R21, R53), and after a write of the enabled lanes (R142). -/

namespace Sys2Proof.Machine

/-! ## Lists that read a default beyond their end -/

theorem setAt_getD {α : Type} (dflt : α) (l : List α) (n : Nat) (x : α) (m : Nat) :
    (setAt dflt l n x).getD m dflt = if m = n then x else l.getD m dflt := by
  induction l generalizing n m with
  | nil =>
    induction n generalizing m with
    | zero => cases m <;> simp [setAt]
    | succ n ih =>
      cases m with
      | zero => simp [setAt]
      | succ m =>
        have := ih m
        simp only [setAt, List.getD_cons_succ, this, Nat.add_right_cancel_iff]
        simp
  | cons a l ih =>
    cases n with
    | zero => cases m <;> simp [setAt]
    | succ n =>
      cases m with
      | zero => simp [setAt]
      | succ m => simp only [setAt, List.getD_cons_succ, ih, Nat.add_right_cancel_iff]

/-! ## s-registers and q-registers -/

theorem Occ.getS_setS (o : Occ) (r k : Nat) (x : DWord) :
    (o.setS r x).getS k = if k = r ∧ r ≠ 0 then x else o.getS k := by
  unfold Occ.setS Occ.getS
  by_cases hr : r = 0
  · simp [hr]
  · simp only [hr, if_false]
    by_cases hk : k = 0
    · have : ¬ (k = r ∧ r ≠ 0) := by omega
      simp [hk]
      intro h; exact absurd h.symm hr
    · simp only [hk, if_false, setAt_getD]
      by_cases h : k = r <;> simp [h, hr]

@[simp] theorem Occ.getS_zero (o : Occ) : o.getS 0 = 0 := rfl

@[simp] theorem Occ.getS_setQ (o : Occ) (r k : Nat) (x : Bool) : (o.setQ r x).getS k = o.getS k := by simp [Occ.getS]
@[simp] theorem Occ.getS_setP (o : Occ) (r k : Nat) (x : DWord) : (o.setP r x).getS k = o.getS k := by simp [Occ.getS]
@[simp] theorem Occ.getS_setV (o : Occ) (r i k : Nat) (x : Word) : (o.setV r i x).getS k = o.getS k := rfl
@[simp] theorem Occ.getS_advance (o : Occ) (e : Eng) (n k : Nat) : (o.advance e n).getS k = o.getS k := rfl
@[simp] theorem Occ.getQ_setS (o : Occ) (r k : Nat) (x : DWord) : (o.setS r x).getQ k = o.getQ k := by simp [Occ.getQ]
@[simp] theorem Occ.getQ_setP (o : Occ) (r k : Nat) (x : DWord) : (o.setP r x).getQ k = o.getQ k := by simp [Occ.getQ]
@[simp] theorem Occ.getQ_setV (o : Occ) (r i k : Nat) (x : Word) : (o.setV r i x).getQ k = o.getQ k := rfl
@[simp] theorem Occ.getQ_advance (o : Occ) (e : Eng) (n k : Nat) : (o.advance e n).getQ k = o.getQ k := rfl
@[simp] theorem Occ.getP_setS (o : Occ) (r k : Nat) (x : DWord) : (o.setS r x).getP k = o.getP k := by simp [Occ.getP]
@[simp] theorem Occ.getP_setQ (o : Occ) (r k : Nat) (x : Bool) : (o.setQ r x).getP k = o.getP k := by simp [Occ.getP]
@[simp] theorem Occ.getP_setV (o : Occ) (r i k : Nat) (x : Word) : (o.setV r i x).getP k = o.getP k := rfl
@[simp] theorem Occ.getP_advance (o : Occ) (e : Eng) (n k : Nat) : (o.advance e n).getP k = o.getP k := rfl
@[simp] theorem Occ.getV_setS (o : Occ) (r k i : Nat) (x : DWord) : (o.setS r x).getV k i = o.getV k i := by simp [Occ.getV]
@[simp] theorem Occ.getV_setQ (o : Occ) (r k i : Nat) (x : Bool) : (o.setQ r x).getV k i = o.getV k i := by simp [Occ.getV]
@[simp] theorem Occ.getV_setP (o : Occ) (r k i : Nat) (x : DWord) : (o.setP r x).getV k i = o.getV k i := by simp [Occ.getV]
@[simp] theorem Occ.getV_advance (o : Occ) (e : Eng) (n k i : Nat) : (o.advance e n).getV k i = o.getV k i := rfl

theorem byte_setBit (b : Byte) (r k : Nat) (hr : r < 8) (x : Bool) :
    (if x then b ||| (1 <<< r : Byte) else b &&& ~~~(1 <<< r : Byte)).getLsbD k = if k = r then x else b.getLsbD k := by
  have h1 : ∀ k, (1 <<< r : Byte).getLsbD k = (decide (k < 8) && decide (k = r)) := by
    intro k
    rw [show (1 <<< r : Byte) = (1#8) <<< r from rfl, BitVec.getLsbD_shiftLeft]
    by_cases hk : k < 8
    · by_cases hkr : k < r
      · have : k ≠ r := by omega
        simp [hkr, this]
      · by_cases he : k = r
        · simp [he, hr]
        · have : k - r ≠ 0 := by omega
          simp [hkr, he, hk, BitVec.getLsbD_one, this]
    · simp [hk]
  cases x
  · simp only [Bool.false_eq_true, if_false, BitVec.getLsbD_and, BitVec.getLsbD_not, h1]
    by_cases he : k = r
    · subst he; simp [hr]
    · by_cases hk : k < 8
      · simp [he, hk]
      · simp [he, hk, BitVec.getLsbD_of_ge b k (by omega)]
  · simp only [if_true, BitVec.getLsbD_or, h1]
    by_cases he : k = r
    · subst he; simp [hr]
    · simp [he]

theorem Occ.getQ_setQ (o : Occ) (r k : Nat) (x : Bool) (hr : r < 8) :
    (o.setQ r x).getQ k = if k = r ∧ r ≠ 0 then x else o.getQ k := by
  unfold Occ.setQ Occ.getQ
  by_cases h0 : r = 0
  · simp [h0]
  · have hb := byte_setBit o.regs.q r k hr x
    simp only [h0, if_false]
    by_cases hk : k = 0
    · have : ¬ (0 = r) := fun h => h0 h.symm
      simp [hk, this]
    · have hk' : (k == 0) = false := by simpa using hk
      rw [hk', Bool.false_or, Bool.false_or]
      rw [hb]
      by_cases h : k = r <;> simp [h, h0]

theorem State.getS_setS (s : State) (r k : BitVec 6) (x : DWord) :
    (s.setS r x).getS k = if k = r ∧ r ≠ 0 then x else s.getS k := by
  unfold State.getS State.setS
  rw [State.mapOcc_occ, Occ.getS_setS]
  have h1 : (k.toNat = r.toNat) ↔ k = r := BitVec.toNat_inj
  have h2 : (r.toNat ≠ 0) ↔ r ≠ 0 := by
    rw [Ne, Ne, ← BitVec.toNat_inj]; simp
  simp only [h1, h2]

theorem State.getQ_setQ (s : State) (r : BitVec 3) (k : Nat) (x : Bool) :
    (s.setQ r x).occ.getQ k = if k = r.toNat ∧ r ≠ 0 then x else s.occ.getQ k := by
  unfold State.setQ
  rw [State.mapOcc_occ, Occ.getQ_setQ _ _ _ _ (by omega)]
  have h2 : (r.toNat ≠ 0) ↔ r ≠ 0 := by
    rw [Ne, Ne, ← BitVec.toNat_inj]; simp
  simp only [h2]

/-! ## v-registers and p-registers -/

theorem Occ.getV_setV (o : Occ) (r i k j : Nat) (x : Word) :
    (o.setV r i x).getV k j = if k = r ∧ j = i then x else o.getV k j := by
  unfold Occ.setV Occ.getV
  simp only [setAt_getD]
  by_cases hk : k = r
  · subst hk
    simp only [if_true, setAt_getD, true_and]
  · simp [hk]

theorem Occ.getP_setP (o : Occ) (r k : Nat) (x : DWord) :
    (o.setP r x).getP k = if k = r ∧ r ≠ 0 then x else o.getP k := by
  unfold Occ.setP Occ.getP
  by_cases hr : r = 0
  · simp [hr]
  · simp only [hr, if_false]
    by_cases hk : k = 0
    · have : ¬ (0 = r) := fun h => hr h.symm
      simp [hk, this]
    · simp only [hk, if_false, setAt_getD]
      by_cases h : k = r <;> simp [h, hr]

theorem Occ.getV_setPair (o : Occ) (r i k j : Nat) (x : DWord) :
    (o.setPair r i x).getV k j
      = if k = r ∧ j = i then x.extractLsb' 0 32 else if k = r + 1 ∧ j = i then x.extractLsb' 32 32 else o.getV k j := by
  unfold Occ.setPair
  rw [Occ.getV_setV, Occ.getV_setV]
  by_cases h : k = r
  · have : ¬ (k = r + 1) := by omega
    simp [h]
  · simp [h]

theorem Occ.getPair_setPair (o : Occ) (r i : Nat) (x : DWord) : (o.setPair r i x).getPair r i = x := by
  unfold Occ.getPair
  rw [Occ.getV_setPair, Occ.getV_setPair]
  have h : ¬ (r + 1 = r ∧ i = i) := by omega
  rw [if_neg h, if_pos ⟨rfl, rfl⟩, if_pos ⟨rfl, rfl⟩]
  apply BitVec.eq_of_getLsbD_eq
  intro k hk
  rw [BitVec.getLsbD_append]
  by_cases hk' : k < 32
  · simp [hk']
  · have : 32 + (k - 32) = k := by omega
    simp [hk', this]
    omega

end Sys2Proof.Machine
end

