-- ==== Sys2Proof/Laws/Outcomes.lean ====
section
/-! SUPPORT. What the shared shapes of scalar instructions come to: a guarded write of s[d] or q[d], and an instruction
that its guard disables. -/

namespace Sys2Proof.Machine

@[simp] theorem Occ.standsWith_self (o : Occ) (e : Eng) : o.standsWith e e = true := by simp [Occ.standsWith]

theorem State.advance_moved (s t : State) (e : Eng) (n : Nat) (h : t.occ.pcs = s.occ.pcs) : s.Moved (t.advance e n) e n := by
  unfold State.Moved State.pcOf
  simp only [State.advance_occ, Occ.advance_wait, and_true]
  cases e <;> simp [Occ.advance, h, Pcs.get, Pcs.map]

theorem State.advance_onlyRegs (s t : State) (e : Eng) (n : Nat) (h : s.OnlyRegs t) : s.OnlyRegs (t.advance e n) := by
  unfold State.OnlyRegs at h ⊢
  rw [h]
  simp [State.advance, Occ.advance, State.occ]

theorem State.setS_onlyRegs (s : State) (d : BitVec 6) (x : DWord) : s.OnlyRegs (s.setS d x) := by
  unfold State.OnlyRegs State.setS State.mapOcc Occ.setS
  by_cases h : d.toNat = 0 <;> simp [h]

theorem State.setQ_onlyRegs (s : State) (d : BitVec 3) (x : Bool) : s.OnlyRegs (s.setQ d x) := by
  unfold State.OnlyRegs State.setQ State.mapOcc Occ.setQ
  by_cases h : d.toNat = 0 <;> simp [h]

theorem State.advance_wroteNothing (s : State) (e : Eng) (n : Nat) : s.WroteNothing (s.advance e n) e n := by
  refine ⟨s.advance_onlyRegs s e n rfl, fun k => by simp, ⟨fun r i => by simp, fun r => by simp, fun r => ?_, fun r => by simp⟩,
    s.advance_moved s e n rfl⟩
  simp [State.getS]

theorem State.setS_wroteS (s : State) (e : Eng) (n : Nat) (d : BitVec 6) (x : DWord) :
    s.WroteS ((s.setS d x).advance e n) e n d x := by
  refine ⟨s.advance_onlyRegs _ e n (s.setS_onlyRegs d x), fun k => by simp, fun r i => by simp [State.setS],
    fun r => by simp [State.setS], fun r => by simp [State.setS], s.advance_moved _ e n (by simp [State.setS]), fun r => ?_⟩
  rw [← State.getS_setS]
  simp [State.getS]

theorem State.setQ_wroteQ (s : State) (e : Eng) (n : Nat) (d : BitVec 3) (x : Bool) :
    s.WroteQ ((s.setQ d x).advance e n) e n d x := by
  refine ⟨s.advance_onlyRegs _ e n (s.setQ_onlyRegs d x), fun k => by simp, fun r i => by simp [State.setQ],
    fun r => by simp [State.setQ], fun r => by simp [State.setQ, State.getS], s.advance_moved _ e n (by simp [State.setQ]),
    fun r => ?_⟩
  have := State.getQ_setQ s d r.toNat x
  rw [State.advance_occ, Occ.getQ_advance, this]
  simp only [BitVec.toNat_inj]

/-- A guarded K instruction whose effect goes through answers that effect, and the K engine has gone on. -/
theorem kDo_next (g : KG) (n : Nat) (s t : State) (f : State → Act State) (hg : s.guard g = true) (h : f s = .ok t) :
    kDo g n s f = .next (t.advance .k n) := by
  simp [kDo, hg, h, finish]

/-- A K instruction that its guard disables only goes on. -/
theorem kDo_off (g : KG) (n : Nat) (s : State) (f : State → Act State) (hg : s.guard g = false) :
    kDo g n s f = .next (s.advance .k n) := by
  simp [kDo, hg, finish]

theorem kSet_next (g : KG) (n : Nat) (s : State) (d : BitVec 6) (x : DWord) (hg : s.guard g = true) :
    ∃ t, kSet g n s d x = .next t ∧ s.WroteS t .k n d x :=
  ⟨_, kDo_next g n s _ _ hg rfl, s.setS_wroteS .k n d x⟩

end Sys2Proof.Machine
end

