-- ==== Sys2Proof/Laws/Flow.lean ====
section
/-! SUPPORT. Leaving a line, transfers, and the outcome of an instruction that stops: what each leaves (R32, R40, R41,
R369). -/

namespace Sys2Proof.Machine

/-! ## Going on in sequence -/

theorem State.advance_thenMoved (u : State) (e : Eng) (n : Nat) : u.ThenMoved (u.advance e n) e n :=
  ⟨rfl, u.advance_moved u e n rfl⟩

theorem finish_ok (e : Eng) (n : Nat) (s u : State) : finish e n s (.ok u) = .next (u.advance e n) := rfl
theorem finish_trap (e : Eng) (n : Nat) (s : State) (code : Nat) (info addr : DWord) :
    finish e n s (.error (.trap code info addr)) = s.trapped e code info addr := rfl
theorem run_ok (e : Eng) (n : Nat) (s u : State) : run e n s (.ok u) = .next u := rfl
theorem run_trap (e : Eng) (n : Nat) (s : State) (code : Nat) (info addr : DWord) :
    run e n s (.error (.trap code info addr)) = s.trapped e code info addr := rfl

/-- An instruction whose effect is u runs, and what holds of u behind it holds. -/
theorem finish_runs (e : Eng) (n : Nat) (s u : State) (r : Act State) (P : State → Prop) (h : r = .ok u)
    (hp : ∀ t, u.ThenMoved t e n → P t) : ∃ t, finish e n s r = .next t ∧ P t :=
  ⟨_, by rw [h, finish_ok], hp _ (u.advance_thenMoved e n)⟩

@[simp] theorem require_true (st : Stop) : require true st = .ok () := rfl
@[simp] theorem require_false (st : Stop) : require false st = .error st := rfl

theorem require_of (c : Bool) (st : Stop) (h : c = true) : require c st = .ok () := by rw [h]; rfl
theorem require_not (c : Bool) (st : Stop) (h : c = false) : require c st = .error st := by rw [h]; rfl
theorem bind_ok {α β : Type} (a : α) (f : α → Act β) : (Except.ok a >>= f) = f a := rfl
theorem bind_error {α β : Type} (st : Stop) (f : α → Act β) : ((Except.error st : Act α) >>= f) = Except.error st := rfl

theorem kDo_on (g : KG) (n : Nat) (s : State) (f : State → Act State) (hg : s.guard g = true) :
    kDo g n s f = finish .k n s (f s) := by simp [kDo, hg]
theorem kBranch_on (g : KG) (s : State) (f : State → Act State) (hg : s.guard g = true) :
    kBranch g s f = run .k 1 s (f s) := by simp [kBranch, hg]
theorem kBranch_off (g : KG) (s : State) (f : State → Act State) (hg : s.guard g = false) :
    kBranch g s f = .next (s.advance .k 1) := by simp [kBranch, hg, run]

/-! ## Leaving a line (R32) -/

@[simp] theorem Occ.sysReg_regs (o : Occ) (n : Nat) (x : DWord) : (o.sysReg n x).regs = o.regs := by
  unfold Occ.sysReg; split <;> rfl

@[simp] theorem State.applySys_mem (s : State) (w : Nat × DWord) : (s.applySys w).mem = s.mem := by
  unfold State.applySys State.modCore
  split <;> first | rfl | (split <;> rfl)

@[simp] theorem State.applySys_regs (s : State) (w : Nat × DWord) : (s.applySys w).occ.regs = s.occ.regs := by
  unfold State.applySys State.modCore
  split <;> first | rfl | (split <;> rfl) | simp [State.mapOcc_occ]

@[simp] theorem State.applySys_place (s : State) (w : Nat × DWord) : (s.applySys w).me.place = s.me.place := by
  unfold State.applySys State.modCore
  split <;> first | rfl | (split <;> rfl)

@[simp] theorem State.applySys_gid (s : State) (w : Nat × DWord) : (s.applySys w).me.gid = s.me.gid := by
  unfold State.applySys State.modCore
  split <;> first | rfl | (split <;> rfl)

theorem State.applyAll_mem (l : List (Nat × DWord)) (s : State) : (l.foldl State.applySys s).mem = s.mem := by
  induction l generalizing s with
  | nil => rfl
  | cons w l ih => rw [List.foldl_cons, ih, State.applySys_mem]

theorem State.applyAll_regs (l : List (Nat × DWord)) (s : State) : (l.foldl State.applySys s).occ.regs = s.occ.regs := by
  induction l generalizing s with
  | nil => rfl
  | cons w l ih => rw [List.foldl_cons, ih, State.applySys_regs]

theorem State.applyAll_place (l : List (Nat × DWord)) (s : State) : (l.foldl State.applySys s).me.place = s.me.place := by
  induction l generalizing s with
  | nil => rfl
  | cons w l ih => rw [List.foldl_cons, ih, State.applySys_place]

@[simp] theorem State.leaveLine_mem (s : State) : s.leaveLine.mem = s.mem := State.applyAll_mem _ s
@[simp] theorem State.leaveLine_regs (s : State) : s.leaveLine.occ.regs = s.occ.regs := State.applyAll_regs _ s
@[simp] theorem State.leaveLine_place (s : State) : s.leaveLine.me.place = s.me.place := State.applyAll_place _ s
@[simp] theorem State.leaveLine_sysPend (s : State) : s.leaveLine.occ.sysPend = [] := rfl

@[simp] theorem State.leaveLine_sysOld (s : State) : s.leaveLine.occ.sysOld = [] := rfl
@[simp] theorem State.leaveLine_line (s : State) : s.leaveLine.occ.line = none := rfl

/-- With no write of a system register pending, leaving a line changes nothing but that the line is no longer held. -/
theorem State.leaveLine_of_none (s : State) (h : s.occ.sysPend = []) :
    s.leaveLine = s.mapOcc fun o => { o with sysPend := [], sysOld := [], line := none } := by
  unfold State.leaveLine
  rw [h]
  rfl

/-! ## Frames that rest on the registers alone -/

theorem State.sameRegs_of (s t : State) (h : t.occ.regs = s.occ.regs) : s.SameRegs t := by
  refine ⟨fun r i => ?_, fun r => ?_, fun r => ?_, fun r => ?_⟩ <;>
    simp [State.getS, Occ.getV, Occ.getP, Occ.getS, Occ.getQ, h]

theorem State.bytesSame_of (s t : State) (h : t.mem = s.mem) : s.BytesSame t := fun k => by rw [h]

/-! ## Transfers (R40, R41) -/

theorem State.goTo_landed (u : State) (a : DWord) : u.Landed (u.goTo a) a :=
  ⟨rfl, u.sameRegs_of _ (State.leaveLine_regs u), u.bytesSame_of _ (State.leaveLine_mem u)⟩

theorem State.jump_landedOn (u : State) (line : DWord) : u.LandedOn (u.jump line) line := u.goTo_landed _

/-- The T check passes exactly when the line carries T. -/
theorem State.checkT_ok (s : State) (line : DWord) (h : s.CarriesT line) : s.checkT line = .ok () := by
  unfold State.checkT
  split
  · rfl
  · next ws hw => simp [h ws hw]

theorem State.checkT_fails (s : State) (line : DWord) (h : ¬ s.CarriesT line) :
    ∃ info, s.checkT line = .error (.trap 1 info line) := by
  unfold State.CarriesT at h
  unfold State.checkT
  split
  · next e he => exact absurd (fun ws hw => by rw [he] at hw; cases hw) h
  · next ws hw =>
    have : lineT ws = false := by
      cases hl : lineT ws with
      | false => rfl
      | true => exact absurd (fun ws' hw' => by rw [hw] at hw'; cases hw'; exact hl) h
    simp only [this]
    exact ⟨_, rfl⟩

theorem lineTarget_ok (x : DWord) (n : Nat) (h : x.toNat % 32 = 0) : lineTarget x n = .ok () :=
  require_of _ _ (by rw [h]; rfl)
theorem lineTarget_trap (x : DWord) (n : Nat) (h : x.toNat % 32 ≠ 0) :
    lineTarget x n = .error (.trap 4 ({ lane := n } : MemInfo).bits x) :=
  require_not _ _ (by simpa using h)

/-- The target of a branch: the instruction's line and an offset in lines. -/
theorem State.lineAt_eq (s : State) (o : DWord) : s.lineAt o = lineOf64 (s.pcOf .k) + o * 32 := by
  unfold State.lineAt
  rw [show (32 : DWord) = BitVec.twoPow 64 5 from rfl, ← BitVec.shiftLeft_eq_mul_twoPow]

/-- An empty queue has nothing to free. -/
theorem Flow.settle_nil (f : Flow) (tile : Bool) (h : f.boq = []) : f.settle tile = f := by
  unfold Flow.settle; simp [h]

/-- One entry that every engine has popped is freed, and its mask stays (R23, R120). -/
theorem Flow.settle_one (f : Flow) (tile : Bool) (en : BoqEntry) (hb : f.boq = [en]) (hp : f.pops = Pcs.all 1) :
    f.settle tile = { f with mask := en.mask, boq := [], pops := Pcs.all 0 } := by
  have h1 : ((allEngines.filter (Eng.present tile)).map fun e => ((Pcs.all 1).get e).toNat).foldl min ((Pcs.all 1).k).toNat = 1 := by
    cases tile <;> decide
  unfold Flow.settle
  simp only [hb, hp, h1]
  rfl

/-- An engine at the K engine or behind it in its line has reached the branch. -/
theorem Occ.reaches_of (o : Occ) (tile : Bool) (e : Eng) (h : Eng.present tile e = true → o.flow.pops.get e = o.flow.pops.k
    ∧ ∃ j, o.pcs.get e = o.pcs.k + BitVec.ofNat 64 (4 * j) ∧ laneOf o.pcs.k + j ≤ 9) : o.reaches tile e = true := by
  unfold Occ.reaches
  cases hp : Eng.present tile e with
  | false => rfl
  | true =>
    obtain ⟨h1, j, h2, h3⟩ := h hp
    simp only [Bool.not_true, Bool.false_or, Bool.and_eq_true, beq_iff_eq, List.any_eq_true, List.mem_range, decide_eq_true_eq]
    exact ⟨h1, j, by omega, h3, h2⟩

theorem State.together_reaches (s : State) (h : s.Together) (e : Eng) : s.occ.reaches s.tile e = true := by
  obtain ⟨-, hp, hj⟩ := h
  refine s.occ.reaches_of _ e fun hpr => ⟨?_, hj e hpr⟩
  rw [hp]; cases e <;> rfl

/-- Where the engines stand together, a transfer of the K engine takes all of them along, under the entry's mask, and leaves the queue
empty (R23, R120). -/
theorem State.resolve_transfer (s : State) (h : s.Together) (target mask next : DWord) :
    s.resolve true target mask next =
      .ok ((s.setFlow { s.occ.flow with mask := mask, boq := [], pops := Pcs.all 0 }).goTo next) := by
  have hr := s.together_reaches h
  obtain ⟨hb, hp, -⟩ := h
  have hs := Flow.settle_nil s.occ.flow s.tile hb
  have hr' (e : Eng) : ({ s.occ with flow := s.occ.flow } : Occ).reaches s.tile e = true := hr e
  unfold State.resolve
  simp only [hs, hb, hr', Bool.or_true, List.length_nil, List.nil_append, Nat.zero_add]
  rw [Flow.settle_one _ _ { addr := s.occ.pcs.k, taken := true, transfer := true, target, mask } rfl
    (by simp [Pcs.map, Pcs.all])]
  simp only [require, if_true, Bool.true_or, Bool.and_true]
  rfl

/-- Where the engines stand together, a divergence that continues in sequence takes the K engine, and those that stand with it, n lanes on
under the new mask, and leaves the queue empty (R120). -/
theorem State.resolve_sequence (s : State) (h : s.Together) (target mask : DWord) (n : Nat) :
    s.resolve false target mask (s.pcOf .k + BitVec.ofNat 64 (4 * n)) =
      .ok ((s.setFlow { s.occ.flow with mask := mask, boq := [], pops := Pcs.all 0 }).advance .k n) := by
  have hr := s.together_reaches h
  obtain ⟨hb, hp, -⟩ := h
  have hs := Flow.settle_nil s.occ.flow s.tile hb
  have hr' (e : Eng) : ({ s.occ with flow := s.occ.flow } : Occ).reaches s.tile e = true := hr e
  unfold State.resolve
  simp only [hs, hb, hr', Bool.or_true, List.length_nil, List.nil_append, Nat.zero_add]
  rw [Flow.settle_one _ _ { addr := s.occ.pcs.k, taken := false, transfer := false, target, mask } rfl
    (by simp [Pcs.map, Pcs.all])]
  have hm : (s.occ.pcs.map fun _ a => if a = s.occ.pcs.k then s.pcOf .k + BitVec.ofNat 64 (4 * n) else a)
      = s.occ.pcs.map fun e a => if ({ s.occ with flow := { s.occ.flow with mask := mask, boq := [], pops := Pcs.all 0 } } : Occ).standsWith .k e
          then a + BitVec.ofNat 64 (4 * n) else a := by
    have one (e : Eng) : (if s.occ.pcs.get e = s.occ.pcs.k then s.pcOf .k + BitVec.ofNat 64 (4 * n) else s.occ.pcs.get e)
        = if ({ s.occ with flow := { s.occ.flow with mask := mask, boq := [], pops := Pcs.all 0 } } : Occ).standsWith .k e
            then s.occ.pcs.get e + BitVec.ofNat 64 (4 * n) else s.occ.pcs.get e := by
      have hp : (Pcs.all 0).get e = (Pcs.all 0).get .k := by cases e <;> rfl
      unfold Occ.standsWith
      simp only [hp, beq_self_eq_true, Bool.and_true, beq_iff_eq]
      by_cases ha : s.occ.pcs.get e = s.occ.pcs.k
      · simp only [ha, if_true, show s.occ.pcs.get .k = s.occ.pcs.k from rfl]; rfl
      · simp only [ha, if_false, show s.occ.pcs.get .k = s.occ.pcs.k from rfl]
    unfold Pcs.map
    exact Pcs.mk.injEq .. |>.mpr ⟨one .k, one .v, one .m, one .x, one .d, one .b⟩
  simp only [require, Bool.false_or, Bool.true_and, beq_iff_eq]
  rw [hm]
  rfl

theorem State.transfer_ok (s : State) (target mask : DWord) (h : s.CarriesT target) (ht : s.Together) :
    s.transfer target mask =
      .ok ((s.setFlow { s.occ.flow with mask := mask, boq := [], pops := Pcs.all 0 }).jump target) := by
  unfold State.transfer
  rw [s.checkT_ok target h]
  exact s.resolve_transfer ht _ _ _

theorem State.transfer_fails (s : State) (target mask : DWord) (h : ¬ s.CarriesT target) :
    ∃ info, s.transfer target mask = .error (.trap 1 info target) := by
  obtain ⟨i, hi⟩ := s.checkT_fails target h
  exact ⟨i, by unfold State.transfer; rw [hi]; rfl⟩

end Sys2Proof.Machine
end

