-- ==== Sys2Proof/Laws/Lanes.lean ====
section
/-! SUPPORT. What the shared shapes of lane instructions come to: enabled lanes, the b operand, writes of the lanes
listed. -/

namespace Sys2Proof.Machine

theorem lowest_nil (ds : Defects) (h : ds = []) : lowest ds = none := by subst h; rfl

theorem State.checkCount_ok (s : State) (fm : Form) (h : fm.countDefects s.occ.width s.occ.count = []) :
    s.checkCount fm = .ok () := by
  unfold State.checkCount
  rw [lowest_nil _ h]

/-- The enabled lanes are those of the group that are active and whose guard holds (R47, R142). -/
theorem State.mem_lanes (s : State) (e : Eng) (f : VF) (i : Nat) :
    i ∈ s.lanes e f ↔ i < s.occ.width ∧ (s.enabled e f).getLsbD i = true := by
  simp [State.lanes, maskLanes, List.mem_filter, List.mem_range]

/-! ## Writes -/

theorem Occ.putRaw_cons (o : Occ) (pair : Bool) (d : Nat) (r : Nat × Nat) (rs : List (Nat × Nat)) :
    o.putRaw pair d (r :: rs)
      = (if pair then o.setPair d r.1 (BitVec.ofNat 64 r.2) else o.setV d r.1 (BitVec.ofNat 32 r.2)).putRaw pair d rs := rfl

/-- A write of lanes changes v-registers only. -/
theorem Occ.putRaw_frame (o : Occ) (pair : Bool) (d : Nat) (rs : List (Nat × Nat)) :
    o.putRaw pair d rs = { o with regs := { o.regs with v := (o.putRaw pair d rs).regs.v } } := by
  induction rs generalizing o with
  | nil => rfl
  | cons r rs ih =>
    rw [Occ.putRaw_cons, ih]
    cases pair <;> rfl

theorem low_half (x : Nat) : (BitVec.ofNat 64 x).extractLsb' 0 32 = BitVec.ofNat 32 x := by
  apply BitVec.eq_of_toNat_eq
  simp only [BitVec.extractLsb'_toNat, BitVec.toNat_ofNat, Nat.shiftRight_zero]
  omega

theorem high_half (x : Nat) : (BitVec.ofNat 64 x).extractLsb' 32 32 = BitVec.ofNat 32 (x / 2 ^ 32) := by
  apply BitVec.eq_of_toNat_eq
  simp only [BitVec.extractLsb'_toNat, BitVec.toNat_ofNat, Nat.shiftRight_eq_div_pow]
  omega

theorem Occ.getV_putRaw (o : Occ) (pair : Bool) (d : Nat) (ls : List Nat) (g : Nat → Nat) (k j : Nat) :
    (o.putRaw pair d (ls.map fun i => (i, g i))).getV k j =
      if j ∈ ls ∧ k = d then BitVec.ofNat 32 (g j)
      else if pair = true ∧ j ∈ ls ∧ k = d + 1 then BitVec.ofNat 32 (g j / 2 ^ 32)
      else o.getV k j := by
  induction ls generalizing o with
  | nil => simp [Occ.putRaw]
  | cons i ls ih =>
    rw [List.map_cons, Occ.putRaw_cons, ih]
    cases pair
    · simp only [Bool.false_eq_true, if_false, false_and, Occ.getV_setV, List.mem_cons]
      by_cases h1 : j ∈ ls <;> by_cases h2 : k = d <;> by_cases h3 : j = i <;> simp [h1, h2, h3]
    · simp only [if_true, true_and, Occ.getV_setPair, List.mem_cons, low_half, high_half]
      by_cases h1 : j ∈ ls <;> by_cases h2 : k = d <;> by_cases h3 : j = i <;> by_cases h4 : k = d + 1 <;>
        simp [h1, h2, h3, h4]

/-- Counting saturations looks at the group in focus only for its place. -/
theorem State.countSat_me_eq (s : State) (g : Group) (n : Nat) (h : g.place = s.me.place) :
    ({ s with me := g } : State).countSat n = { s.countSat n with me := g } := by
  unfold State.countSat State.tile State.modCore
  simp only [h]
  by_cases h1 : (Config.isTile s.me.place.core && n != 0) = true
  · simp only [h1, if_true]
    split <;> rfl
  · simp only [h1, Bool.false_eq_true, if_false]

theorem sum_sats (ls : List Nat) (r : Nat → Nat × Nat) :
    (ls.map fun i => (i, r i)).foldl (fun a (x : Nat × Nat × Nat) => a + x.2.2) 0 = satsOf ls r := by
  have h : ∀ (l : List Nat) (a : Nat),
      (l.map fun i => (i, r i)).foldl (fun a (x : Nat × Nat × Nat) => a + x.2.2) a = a + satsOf l r := by
    intro l
    induction l with
    | nil => intro a; simp [satsOf]
    | cons i l ih => intro a; simp only [List.map_cons, List.foldl_cons, ih]; simp [satsOf]; omega
  have := h ls 0
  simpa using this

/-- A write of the enabled lanes, with its saturations. -/
theorem State.putLanes_wrote (u : State) (pair : Bool) (d : Nat) (ls : List Nat) (r : Nat → Nat × Nat) (e : Eng) (n : Nat) :
    let t := (u.putLanes pair d (ls.map fun i => (i, r i))).advance e n
    u.OnlyV t (satsOf ls r) ∧ u.BytesSame t ∧ u.Moved t e n ∧ u.WroteV t ls pair d fun l => (r l).1 := by
  intro t
  have hmap : (ls.map fun i => (i, r i)).map (fun x : Nat × Nat × Nat => (x.1, x.2.1)) = ls.map fun i => (i, (r i).1) := by
    simp
  have ht : t = ({ (u.countSat (satsOf ls r)) with
      me := { u.me with occ := u.me.occ.putRaw pair d (ls.map fun i => (i, (r i).1)) } }).advance e n := by
    show ((u.mapOcc _).countSat _).advance e n = _
    rw [sum_sats, hmap]
    exact congrArg (fun s : State => s.advance e n)
      (u.countSat_me_eq { u.me with occ := u.me.occ.putRaw pair d (ls.map fun i => (i, (r i).1)) } _ rfl)
  have hpc : t.occ.pcs = (u.advance e n).occ.pcs := by
    rw [ht]
    show ((u.me.occ.putRaw pair d _).advance e n).pcs = (u.me.occ.advance e n).pcs
    rw [Occ.putRaw_frame]
    rfl
  refine ⟨?_, ?_, ?_, ?_⟩
  · unfold State.OnlyV
    rw [ht]
    simp only [State.advance, Occ.advance, State.occ]
    rw [Occ.putRaw_frame]
  · intro k
    rw [ht]
    simp
  · refine ⟨?_, ?_⟩
    · unfold State.pcOf
      rw [hpc]
      exact (u.advance_moved u e n rfl).1
    · rw [ht]; rfl
  · intro k j
    rw [ht, State.advance_occ, Occ.getV_advance]
    exact Occ.getV_putRaw _ _ _ _ _ _ _

/-! ## Operands -/

theorem rank_le (ls : List Nat) (i : Nat) : rankOf ls i ≤ ls.length := by
  unfold rankOf
  exact List.length_filter_le _ _

/-- A ready b operand is taken, and every enabled lane has its value. -/
theorem State.operandB_ok (s : State) (f : VF) (x : VX) (word : Bool) (h : s.OperandReady f x word) :
    ∃ b, s.operandB f x word (s.lanes .v f) = .ok (s.operandTaken f x word, b)
      ∧ ∀ i ∈ s.lanes .v f, b i = s.operand f x word i := by
  obtain ⟨n, hn⟩ : ∃ n, x.bk.toNat = n := ⟨_, rfl⟩
  have hbk : x.bk = 2 ↔ n = 2 := by
    rw [← hn, ← BitVec.toNat_inj]; rfl
  unfold State.operandB State.operandTaken State.operand
  simp only [hbk, hn]
  have hlt : n < 4 := by rw [← hn]; exact x.bk.isLt
  match n, hlt with
  | 0, _ => exact ⟨_, rfl, fun _ _ => rfl⟩
  | 1, _ => exact ⟨_, rfl, fun _ _ => rfl⟩
  | 3, _ => exact ⟨_, rfl, fun _ _ => rfl⟩
  | 2, _ =>
    unfold State.takeStream
    by_cases hl : s.lanes .v f = []
    · simp [hl]
    · obtain ⟨h1, h2⟩ := h (hbk.mpr rfl) hl
      have hpos : 0 < (s.lanes .v f).length := List.length_pos_iff.mpr hl
      cases hp : (x.pair && !word)
      · simp only [perLane, hp, Bool.false_eq_true, if_false, Nat.mul_one] at h2 ⊢
        have hne : ¬ ((s.lanes .v f).length = 0) := by omega
        have hge : ¬ ((s.arrived f.b.toNat).length < (s.lanes .v f).length) := by omega
        simp [hne, h1, hge, hl]
      · simp only [perLane, hp, if_true] at h2 ⊢
        have hne : ¬ (2 * (s.lanes .v f).length = 0) := by omega
        have hge : ¬ ((s.arrived f.b.toNat).length < 2 * (s.lanes .v f).length) := by omega
        simp only [Nat.mul_comm _ 2, hne, h1, hge, hl, if_false, if_true, Bool.false_eq_true, ne_eq, not_false_eq_true,
          and_self]
        exact ⟨_, rfl, fun _ _ => rfl⟩

theorem State.consume_frame (s : State) (k n : Nat) :
    (s.consume k n).mem = s.mem ∧ (s.consume k n).occ.regs = s.occ.regs ∧ (s.consume k n).occ.pcs = s.occ.pcs := by
  unfold State.consume
  simp only []
  split
  · refine ⟨by simp, ?_, ?_⟩ <;> unfold State.occ State.modCore <;> split <;> rfl
  · exact ⟨rfl, rfl, rfl⟩

theorem State.operandTaken_frame (s : State) (f : VF) (x : VX) (word : Bool) :
    (s.operandTaken f x word).mem = s.mem ∧ (s.operandTaken f x word).occ.regs = s.occ.regs
      ∧ (s.operandTaken f x word).occ.pcs = s.occ.pcs := by
  unfold State.operandTaken
  split
  · exact s.consume_frame _ _
  · exact ⟨rfl, rfl, rfl⟩

/-- A V instruction that gives each enabled lane a value from its A and its B. -/
theorem vLanes_writes (i : Instr) (op : Nat) (f : VF) (xo : Option VX) (word : Bool)
    (g : VX → Occ → Nat → Nat → Nat → Nat × Nat)
    (r : VX → State → Nat → Nat → Nat → Nat × Nat)
    (hi : ∀ s, exec i s = vLanes op f xo word s g) (hf : i.form = some (.vForm .v op f xo false))
    (hg : ∀ s l, g (fieldsOf op xo) s.occ l (s.occ.raw (fieldsOf op xo).pair f.a.toNat l) (s.operand f (fieldsOf op xo) word l)
      = r (fieldsOf op xo) s l (s.occ.raw (fieldsOf op xo).pair f.a.toNat l) (s.operand f (fieldsOf op xo) word l)) :
    LaneWrites i op f xo word r := by
  intro s hc hr
  obtain ⟨b, hb, hbv⟩ := s.operandB_ok f (fieldsOf op xo) word hr
  obtain ⟨h1, h2, h3⟩ := s.operandTaken_frame f (fieldsOf op xo) word
  let x := fieldsOf op xo
  let res := fun l => r x s l (s.occ.raw x.pair f.a.toNat l) (s.operand f x word l)
  have hex : exec i s = .next (((s.operandTaken f x word).putLanes x.pair f.d.toNat
      ((s.lanes .v f).map fun l => (l, res l))).advance .v (vWords xo)) := by
    rw [hi]
    unfold vLanes vDo
    have hmap : ((s.lanes .v f).map fun l => (l, g x s.occ l (s.occ.raw x.pair f.a.toNat l) (b l)))
        = (s.lanes .v f).map fun l => (l, res l) :=
      List.map_congr_left fun l hl => by simp only [res, hbv l hl, x, hg s l]
    rw [s.checkCount_ok _ (hc _ hf)]
    show finish .v (vWords xo) s (do
      let (t, b) ← s.operandB f x word (s.lanes .v f)
      .ok (t.putLanes x.pair f.d.toNat ((s.lanes .v f).map fun l =>
        (l, g x s.occ l (s.occ.raw x.pair f.a.toNat l) (b l))))) = _
    rw [hb]
    show Host.Outcome.next _ = _
    rw [hmap]
  obtain ⟨p1, p2, p3, p4⟩ := (s.operandTaken f x word).putLanes_wrote x.pair f.d.toNat (s.lanes .v f) res .v (vWords xo)
  refine ⟨_, hex, p1, ?_, ?_, ?_⟩
  · intro k
    rw [p2 k, h1]
  · refine ⟨?_, p3.2⟩
    rw [p3.1]
    unfold State.pcOf
    rw [h3]
  · intro k j
    rw [p4 k j]
    have : (s.operandTaken f x word).occ.getV k j = s.occ.getV k j := by
      unfold Occ.getV
      rw [h2]
    rw [this]

/-- One without a b operand. -/
theorem vUnary_writes (i : Instr) (op : Nat) (f : VF) (xo : Option VX) (g : VX → Nat → Nat × Nat)
    (r : VX → State → Nat → Nat → Nat × Nat)
    (hi : ∀ s, exec i s = vUnaryLanes op f xo s g) (hf : i.form = some (.vForm .v op f xo false))
    (hg : ∀ s l, g (fieldsOf op xo) (s.occ.raw (fieldsOf op xo).pair f.a.toNat l)
      = r (fieldsOf op xo) s l (s.occ.raw (fieldsOf op xo).pair f.a.toNat l)) :
    LaneWrites1 i op f xo (fieldsOf op xo).pair r := by
  intro s hc
  obtain ⟨p1, p2, p3, p4⟩ := s.putLanes_wrote (fieldsOf op xo).pair f.d.toNat (s.lanes .v f)
    (fun l => r (fieldsOf op xo) s l (s.occ.raw (fieldsOf op xo).pair f.a.toNat l)) .v (vWords xo)
  refine ⟨_, ?_, p1, p2, p3, p4⟩
  rw [hi]
  unfold vUnaryLanes vDo
  rw [s.checkCount_ok _ (hc _ hf)]
  show Host.Outcome.next ((s.putLanes (fieldsOf op xo).pair f.d.toNat ((s.lanes .v f).map fun l =>
    (l, g (fieldsOf op xo) (s.occ.raw (fieldsOf op xo).pair f.a.toNat l)))).advance .v (vWords xo)) = _
  rw [List.map_congr_left fun l _ => by rw [hg s l]]

/-! ## Predicates -/

theorem getLsbD_sumBits (l : List Nat) (hd : l.Pairwise (· < ·)) (i : Nat) (hi : i < 64) :
    (BitVec.ofNat 64 (l.foldl (fun a i => a + 2 ^ i) 0)).getLsbD i = decide (i ∈ l) := by
  have key : ∀ (l : List Nat) (a : Nat), l.Pairwise (· < ·) → (∀ j ∈ l, a < 2 ^ j) →
      (l.foldl (fun a i => a + 2 ^ i) a).testBit i = (a.testBit i || decide (i ∈ l)) := by
    intro l
    induction l with
    | nil => intro a _ _; simp
    | cons j l ih =>
      intro a hp hb
      rw [List.pairwise_cons] at hp
      have hj := hb j (List.mem_cons_self ..)
      have h2 : ∀ k ∈ l, a + 2 ^ j < 2 ^ k := by
        intro k hk
        have hjk := hp.1 k hk
        have : 2 ^ (j + 1) ≤ 2 ^ k := Nat.pow_le_pow_right (by omega) hjk
        rw [Nat.pow_succ] at this
        omega
      rw [List.foldl_cons, ih _ hp.2 h2, Nat.add_comm a, Nat.testBit_two_pow_add_eq_of_lt' hj]
      simp only [List.mem_cons]
      by_cases hij : i = j
      · subst hij; simp
      · simp [hij]
  rw [BitVec.getLsbD_ofNat]
  have := key l 0 hd (fun j _ => Nat.two_pow_pos j)
  simp [this, hi]
where
  Nat.testBit_two_pow_add_eq_of_lt' {a i j : Nat} (h : a < 2 ^ j) :
      (2 ^ j + a).testBit i = (decide (i = j) || a.testBit i) := by
    rcases Nat.lt_trichotomy i j with hij | hij | hij
    · rw [Nat.testBit_two_pow_add_gt hij]
      simp [Nat.ne_of_lt hij]
    · subst hij
      rw [Nat.testBit_two_pow_add_eq, Nat.testBit_lt_two_pow h]
      simp
    · have h1 : (2 ^ j + a) < 2 ^ i := by
        have : 2 ^ (j + 1) ≤ 2 ^ i := Nat.pow_le_pow_right (by omega) hij
        rw [Nat.pow_succ] at this
        omega
      have h2 : a < 2 ^ i := by omega
      rw [Nat.testBit_lt_two_pow h1, Nat.testBit_lt_two_pow h2]
      simp [Nat.ne_of_gt hij]

/-- The mask of the lanes that satisfy f. -/
theorem getLsbD_laneMask (s : State) (e : Eng) (f : VF) (g : Nat → Bool) (i : Nat) (hi : i < 64) :
    (laneMask (s.lanes e f) g).getLsbD i = (decide (i ∈ s.lanes e f) && g i) := by
  unfold laneMask
  rw [getLsbD_sumBits _ _ i hi]
  · by_cases h : i ∈ s.lanes e f <;> simp [h]
  · unfold State.lanes maskLanes
    exact List.Pairwise.filter _ (List.Pairwise.filter _ List.pairwise_lt_range)

/-- A write of p[d] in the enabled lanes. -/
theorem State.putP_wrote (s u : State) (d : Nat) (f : VF) (g : Nat → Bool) (n : Nat) (hw : s.occ.width ≤ 64)
    (hr : u.occ.regs = s.occ.regs) (hp : u.occ.pcs = s.occ.pcs) :
    let t := (u.mapOcc (·.putP d (s.enabled .v f) (laneMask (s.lanes .v f) g))).advance .v n
    s.WroteP u t (s.enabled .v f) d g ∧ u.BytesSame t ∧ s.Moved t .v n := by
  intro t
  refine ⟨⟨?_, ?_⟩, fun k => by simp [t], s.advance_moved _ .v n (by simp [Occ.putP, hp])⟩
  · simp only [t, State.advance, Occ.advance, State.mapOcc, State.occ, Occ.putP]
    unfold Occ.setP
    split <;> rfl
  · intro k i hi
    have h1 : t.occ.getP k = if k = d ∧ d ≠ 0 then
        (u.occ.getP d &&& ~~~(s.enabled .v f)) ||| (laneMask (s.lanes .v f) g &&& s.enabled .v f) else u.occ.getP k := by
      simp only [t, State.advance_occ, Occ.getP_advance, State.mapOcc_occ, Occ.putP, Occ.getP_setP]
    have h2 : ∀ k, u.occ.getP k = s.occ.getP k := fun k => by unfold Occ.getP; rw [hr]
    rw [h1, h2, h2]
    have h64 : i < 64 := by omega
    by_cases hk : k = d ∧ d ≠ 0
    · rw [if_pos hk, hk.1]
      simp only [BitVec.getLsbD_or, BitVec.getLsbD_and, BitVec.getLsbD_not, getLsbD_laneMask s .v f g i h64, h64]
      by_cases he : (s.enabled .v f).getLsbD i = true
      · have : i ∈ s.lanes .v f := (s.mem_lanes .v f i).mpr ⟨hi, he⟩
        simp [he, this, hk.2]
      · simp only [Bool.not_eq_true] at he
        simp [he]
    · rw [if_neg hk]
      by_cases he : (s.enabled .v f).getLsbD i = true
      · have : ¬ (k = d ∧ d ≠ 0 ∧ (s.enabled .v f).getLsbD i = true) := fun h => hk ⟨h.1, h.2.1⟩
        rw [if_neg this]
      · have : ¬ (k = d ∧ d ≠ 0 ∧ (s.enabled .v f).getLsbD i = true) := fun h => he h.2.2
        rw [if_neg this]

/-- A comparison of A and B in each enabled lane. -/
theorem vCompare_writes (i : Instr) (op : Nat) (f : VF) (xo : Option VX) (g r : VX → Nat → Nat → Bool)
    (hi : ∀ s, exec i s = vCompare op f xo s g) (hf : i.form = some (.vForm .v op f xo false))
    (hg : ∀ a b, g (fieldsOf op xo) a b = r (fieldsOf op xo) a b) : LaneCompares i op f xo r := by
  intro s hw hc hr
  obtain ⟨b, hb, hbv⟩ := s.operandB_ok f (fieldsOf op xo) false hr
  obtain ⟨h1, h2, h3⟩ := s.operandTaken_frame f (fieldsOf op xo) false
  let x := fieldsOf op xo
  let res := fun l => r x (s.occ.raw x.pair f.a.toNat l) (s.operand f x false l)
  obtain ⟨p1, p2, p3⟩ := State.putP_wrote s (s.operandTaken f x false) (f.d.toNat % 16) f res (vWords xo) hw h2 h3
  refine ⟨_, ?_, p1, fun k => by rw [p2 k, h1], p3⟩
  rw [hi]
  unfold vCompare vDo
  have hmask : laneMask (s.lanes .v f) (fun l => g x (s.occ.raw x.pair f.a.toNat l) (b l))
      = laneMask (s.lanes .v f) res := by
    unfold laneMask
    have h : ∀ l ∈ s.lanes .v f, g x (s.occ.raw x.pair f.a.toNat l) (b l) = res l := fun l hl => by
      simp only [res, hbv l hl, x, hg]
    rw [List.filter_congr h]
  rw [s.checkCount_ok _ (hc _ hf)]
  show finish .v (vWords xo) s (do
    let (t, b) ← s.operandB f x false (s.lanes .v f)
    .ok (t.mapOcc (·.putP (f.d.toNat % 16) (s.enabled .v f)
      (laneMask (s.lanes .v f) fun l => g x (s.occ.raw x.pair f.a.toNat l) (b l))))) = _
  rw [hb]
  show Host.Outcome.next _ = _
  rw [hmask]

end Sys2Proof.Machine
end

