-- ==== Sys2Proof/Laws/Memory.lean ====
section
/-! SUPPORT. Memory: what a read after a write gives, and the canonical form that every operation keeps (R7, log 4). -/

namespace Sys2Proof.Machine

/-! ## The canonical form -/

theorem Memory.wfFrom_mono {m : Memory} {a b : Nat} (h : a ≤ b) (hm : Memory.wfFrom b m = true) :
    Memory.wfFrom a m = true := by
  cases m with
  | nil => rfl
  | cons c m =>
    simp only [Memory.wfFrom, Bool.and_eq_true, decide_eq_true_eq] at hm ⊢
    exact ⟨⟨Nat.le_trans h hm.1.1, hm.1.2⟩, hm.2⟩

theorem Memory.wfFrom_set {m : Memory} {lo k : Nat} (x : Byte) (hk : lo ≤ k) (hm : Memory.wfFrom lo m = true) :
    Memory.wfFrom lo (Memory.set m k x) = true := by
  induction m generalizing lo with
  | nil =>
    unfold Memory.set
    split
    · rfl
    · rename_i hx
      simp only [Memory.wfFrom, Bool.and_eq_true, decide_eq_true_eq]
      exact ⟨⟨hk, hx⟩, trivial⟩
  | cons c m ih =>
    simp only [Memory.wfFrom, Bool.and_eq_true, decide_eq_true_eq] at hm
    obtain ⟨⟨h1, h2⟩, h3⟩ := hm
    unfold Memory.set
    split
    · split
      · simp only [Memory.wfFrom, Bool.and_eq_true, decide_eq_true_eq]
        exact ⟨⟨h1, h2⟩, h3⟩
      · rename_i hlt hx
        simp only [Memory.wfFrom, Bool.and_eq_true, decide_eq_true_eq]
        exact ⟨⟨hk, hx⟩, ⟨hlt, h2⟩, h3⟩
    · split
      · rename_i heq
        subst heq
        split
        · exact Memory.wfFrom_mono (by omega) h3
        · rename_i hx
          simp only [Memory.wfFrom, Bool.and_eq_true, decide_eq_true_eq]
          exact ⟨⟨h1, hx⟩, h3⟩
      · simp only [Memory.wfFrom, Bool.and_eq_true, decide_eq_true_eq]
        exact ⟨⟨h1, h2⟩, ih (lo := c.1 + 1) (by omega) h3⟩

theorem Memory.set_wf {m : Memory} (k : Nat) (x : Byte) (hm : m.wf = true) : (Memory.set m k x).wf = true :=
  Memory.wfFrom_set x (Nat.zero_le k) hm

theorem Memory.wfFrom_filter {m : Memory} {lo : Nat} (p : Nat × Byte → Bool) (hm : Memory.wfFrom lo m = true) :
    Memory.wfFrom lo (m.filter p) = true := by
  induction m generalizing lo with
  | nil => rfl
  | cons c m ih =>
    simp only [Memory.wfFrom, Bool.and_eq_true, decide_eq_true_eq] at hm
    obtain ⟨⟨h1, h2⟩, h3⟩ := hm
    rw [List.filter_cons]
    split
    · simp only [Memory.wfFrom, Bool.and_eq_true, decide_eq_true_eq]
      exact ⟨⟨h1, h2⟩, ih h3⟩
    · exact Memory.wfFrom_mono (by omega) (ih h3)

theorem Memory.clear_wf {m : Memory} (lo hi : Nat) (hm : m.wf = true) : (m.clear lo hi).wf = true :=
  Memory.wfFrom_filter _ hm

theorem Memory.setBytes_wf {m : Memory} (k : Nat) (bs : List Byte) (hm : m.wf = true) :
    (m.setBytes k bs).wf = true := by
  induction bs generalizing m k with
  | nil => exact hm
  | cons b bs ih => exact ih (k + 1) (Memory.set_wf k b hm)

theorem Memory.setN_wf {m : Memory} (k n x : Nat) (hm : m.wf = true) : (m.setN k n x).wf = true :=
  Memory.setBytes_wf k _ hm

theorem State.poke_wf {s : State} (k : Nat) (bs : List Byte) (hm : s.mem.wf = true) : (s.poke k bs).mem.wf = true :=
  Memory.setBytes_wf k bs hm

/-- A group's pending stores taking effect keep the form. -/
theorem State.drain_wf {s : State} (hm : s.mem.wf = true) : s.drain.mem.wf = true := by
  have h : ∀ (p : Pending) (t : State), t.mem.wf = true → (p.foldl (fun (t : State) c => t.poke c.1 c.2) t).mem.wf = true := by
    intro p
    induction p with
    | nil => exact fun _ ht => ht
    | cons c p ih => exact fun t ht => ih _ (State.poke_wf c.1 c.2 ht)
  exact h s.occ.stores s hm

/-! ## Reading -/

theorem Memory.get_of_lt {m : Memory} {lo k : Nat} (h : k < lo) (hm : Memory.wfFrom lo m = true) : Memory.get m k = 0 := by
  cases m with
  | nil => rfl
  | cons c m =>
    simp only [Memory.wfFrom, Bool.and_eq_true, decide_eq_true_eq] at hm
    obtain ⟨⟨h1, h2⟩, h3⟩ := hm
    have hne : k ≠ c.1 := by omega
    have hlt : k < c.1 := by omega
    simp [Memory.get, hne, hlt]

/-- A read after a write of one byte. -/
theorem Memory.get_set {m : Memory} {lo k : Nat} (x : Byte) (j : Nat) (hm : Memory.wfFrom lo m = true) :
    Memory.get (Memory.set m k x) j = if j = k then x else Memory.get m j := by
  induction m generalizing lo with
  | nil =>
    unfold Memory.set
    by_cases hx : x = 0
    · simp [hx, Memory.get]
    · simp only [hx, if_false, Memory.get]
      by_cases hj : j = k
      · simp [hj]
      · simp [hj]
  | cons c m ih =>
    simp only [Memory.wfFrom, Bool.and_eq_true, decide_eq_true_eq] at hm
    obtain ⟨⟨h1, h2⟩, h3⟩ := hm
    unfold Memory.set
    by_cases hlt : k < c.1
    · simp only [hlt, if_true]
      by_cases hx : x = 0
      · simp only [hx, if_true]
        by_cases hj : j = k
        · subst hj
          have hne : j ≠ c.1 := by omega
          simp [Memory.get, hne, hlt]
        · simp [hj]
      · simp only [hx, if_false]
        by_cases hj : j = k
        · simp [Memory.get, hj]
        · by_cases hjk : j < k
          · have hne : j ≠ c.1 := by omega
            have hlt' : j < c.1 := by omega
            simp [Memory.get, hj, hjk, hne, hlt']
          · simp [Memory.get, hj, hjk]
    · simp only [hlt, if_false]
      by_cases heq : k = c.1
      · subst heq
        simp only [if_true]
        by_cases hx : x = 0
        · simp only [hx, if_true]
          by_cases hj : j = c.1
          · subst hj
            simp only [if_true]
            exact Memory.get_of_lt (Nat.lt_succ_self _) h3
          · simp only [hj, if_false, Memory.get]
            by_cases hlt' : j < c.1
            · simp only [hlt', if_true]
              exact Memory.get_of_lt (by omega) h3
            · simp [hlt']
        · by_cases hj : j = c.1
          · simp only [hx, if_false, Memory.get, hj, if_true]
          · simp only [hx, if_false, Memory.get, hj]
      · simp only [heq, if_false, Memory.get]
        by_cases hj : j = c.1
        · have hne : j ≠ k := by omega
          simp [hj]
          intro h
          exact absurd h.symm heq
        · simp only [hj, if_false]
          by_cases hlt' : j < c.1
          · have hne : j ≠ k := by omega
            simp [hlt', hne]
          · simp only [hlt', if_false]
            exact ih h3

/-- A write of some bytes: the bytes written read as written, and every other one as before. -/
theorem Memory.get_setBytes {m : Memory} (k : Nat) (bs : List Byte) (j : Nat) (hm : m.wf = true) :
    Memory.get (m.setBytes k bs) j = if k ≤ j ∧ j < k + bs.length then bs.getD (j - k) 0 else Memory.get m j := by
  induction bs generalizing m k with
  | nil =>
    have : ¬ (k ≤ j ∧ j < k + ([] : List Byte).length) := by simp only [List.length_nil]; omega
    rw [if_neg this]
    rfl
  | cons b bs ih =>
    unfold Memory.setBytes
    rw [ih (k + 1) (Memory.set_wf k b hm), Memory.get_set b j hm]
    by_cases hj : j = k
    · subst hj
      have h1 : ¬ (j + 1 ≤ j ∧ j < j + 1 + bs.length) := by omega
      rw [if_neg h1]
      simp
    · by_cases h : k + 1 ≤ j ∧ j < k + 1 + bs.length
      · have h2 : k ≤ j ∧ j < k + (b :: bs).length := by simp only [List.length_cons]; omega
        have h3 : j - k = (j - (k + 1)) + 1 := by omega
        rw [if_pos h, if_pos h2, h3]
        rfl
      · have h2 : ¬ (k ≤ j ∧ j < k + (b :: bs).length) := by simp only [List.length_cons]; omega
        rw [if_neg h, if_neg hj, if_neg h2]

theorem toBytes_length (n x : Nat) : (toBytes n x).length = n := by
  induction n generalizing x with
  | zero => rfl
  | succ n ih => simp [toBytes, ih]

theorem ofBytes_toBytes (n x : Nat) : ofBytes (toBytes n x) = x % 256 ^ n := by
  induction n generalizing x with
  | zero => simp [toBytes, ofBytes, Nat.mod_one]
  | succ n ih =>
    show (BitVec.ofNat 8 x).toNat + 256 * ofBytes (toBytes n (x / 256)) = _
    rw [ih, show (BitVec.ofNat 8 x).toNat = x % 256 from BitVec.toNat_ofNat x 8,
      Nat.pow_succ, Nat.mul_comm (256 ^ n) 256, Nat.mod_mul]

theorem Memory.getBytes_length (m : Memory) (k n : Nat) : (m.getBytes k n).length = n := by
  induction n generalizing k with
  | zero => rfl
  | succ n ih => simp [Memory.getBytes, ih]

theorem Memory.getBytes_getD (m : Memory) (k n i : Nat) (h : i < n) : (m.getBytes k n).getD i 0 = Memory.get m (k + i) := by
  induction n generalizing k i with
  | zero => omega
  | succ n ih =>
    cases i with
    | zero => rfl
    | succ i =>
      have := ih (k + 1) i (by omega)
      simp only [Memory.getBytes, List.getD_cons_succ, this]
      congr 1
      omega

/-- Bytes read back where they were written. -/
theorem Memory.getBytes_setBytes {m : Memory} (k : Nat) (bs : List Byte) (hm : m.wf = true) :
    (m.setBytes k bs).getBytes k bs.length = bs := by
  apply List.ext_getElem
  · simp [Memory.getBytes_length]
  · intro i h1 h2
    have h3 := Memory.getBytes_getD (m.setBytes k bs) k bs.length i h2
    rw [Memory.get_setBytes k bs (k + i) hm, if_pos (by omega)] at h3
    have h4 : k + i - k = i := by omega
    simpa [h4, List.getD, h1, h2] using h3

/-- Bytes elsewhere read as before. -/
theorem Memory.getBytes_setBytes_ne {m : Memory} (k j n : Nat) (bs : List Byte) (hm : m.wf = true)
    (h : j + n ≤ k ∨ k + bs.length ≤ j) : (m.setBytes k bs).getBytes j n = m.getBytes j n := by
  induction n generalizing j with
  | zero => rfl
  | succ n ih =>
    unfold Memory.getBytes
    rw [ih (j + 1) (by omega), Memory.get_setBytes k bs j hm, if_neg (by omega)]

theorem Memory.getN_setN {m : Memory} (k n x : Nat) (hm : m.wf = true) : (m.setN k n x).getN k n = x % 256 ^ n := by
  unfold Memory.getN Memory.setN
  have h := Memory.getBytes_setBytes (m := m) k (toBytes n x) hm
  rw [toBytes_length] at h
  rw [h, ofBytes_toBytes]

end Sys2Proof.Machine
end

