-- ==== Sys2Proof/Laws/PerInstr.lean ====
section
/-! SUPPORT. Decoding the words of a well-formed instruction gives the instruction back: one lemma for each instruction. -/

namespace Sys2Proof

/-! ## Fields of a word -/

/-- The field of n bits at bit k of a word that is a sum of fields. -/
theorem field_of (w n k hi lo z : Nat) (x : BitVec n) (hlo : lo < 2 ^ k) (hw : k + n ≤ w)
    (hz : z = hi * 2 ^ (k + n) + x.toNat * 2 ^ k + lo) : (BitVec.ofNat w z).extractLsb' k n = x := by
  subst hz
  apply BitVec.eq_of_toNat_eq
  rw [BitVec.extractLsb'_toNat, BitVec.toNat_ofNat, Nat.shiftRight_eq_div_pow]
  have hx := x.isLt
  have e : 2 ^ w = 2 ^ k * 2 ^ (w - k) := by rw [← Nat.pow_add]; congr 1; omega
  rw [e, Nat.mod_mul_right_div_self]
  have h1 : (hi * 2 ^ (k + n) + x.toNat * 2 ^ k + lo) / 2 ^ k = hi * 2 ^ n + x.toNat := by
    rw [Nat.div_eq_of_lt_le]
    · rw [Nat.pow_add, Nat.add_mul, Nat.mul_assoc, Nat.mul_comm (2 ^ n)]; omega
    · rw [Nat.pow_add, Nat.add_mul, Nat.add_mul, Nat.mul_assoc, Nat.mul_comm (2 ^ n)]; omega
  rw [h1]
  have e2 : 2 ^ (w - k) = 2 ^ n * 2 ^ (w - k - n) := by rw [← Nat.pow_add]; congr 1; omega
  rw [e2, Nat.mod_mul_right_mod, Nat.add_comm, Nat.add_mul_mod_self_right, Nat.mod_eq_of_lt hx]

/-- The same of one bit. -/
theorem bit_of (w k hi lo z : Nat) (b : Bool) (hlo : lo < 2 ^ k) (hw : k + 1 ≤ w)
    (hz : z = hi * 2 ^ (k + 1) + b.toNat * 2 ^ k + lo) : (BitVec.ofNat w z).getLsbD k = b := by
  have h := field_of w 1 k hi lo z (BitVec.ofBool b) hlo hw (by rw [hz]; cases b <;> rfl)
  have := congrArg (fun y => y.getLsbD 0) h
  simpa [BitVec.getLsbD_extractLsb'] using this

theorem bit_le_one (b : Bool) : b.toNat ≤ 1 := by cases b <;> decide

/-- The same of the opcode. -/
theorem op_of (op lo z : Nat) (h : op < 64) (hlo : lo < 2 ^ 26) (hz : z = op * 2 ^ 26 + lo) :
    ((BitVec.ofNat 32 z).extractLsb' 26 6).toNat = op := by
  rw [field_of 32 6 26 0 lo z (BitVec.ofNat 6 op) hlo (by decide) (by rw [hz, BitVec.toNat_ofNat, Nat.mod_eq_of_lt h]; omega)]
  rw [BitVec.toNat_ofNat, Nat.mod_eq_of_lt h]

section
variable (op : Nat) (f : VF)

theorem splitVF_join : splitVF (joinVF op f) = f := by
  have h1 := f.pg.isLt; have h2 := f.d.isLt; have h3 := f.a.isLt; have h4 := f.b.isLt
  have hb := bit_le_one f.pn
  refine (VF.mk.injEq ..).mpr ⟨?_, ?_, ?_, ?_, ?_⟩
  · exact field_of 32 4 22 op (f.pn.toNat * 2 ^ 21 + f.d.toNat * 2 ^ 14 + f.a.toNat * 2 ^ 7 + f.b.toNat) _ f.pg (by omega) (by decide) (by omega)
  · exact bit_of 32 21 (op * 2 ^ 4 + f.pg.toNat) (f.d.toNat * 2 ^ 14 + f.a.toNat * 2 ^ 7 + f.b.toNat) _ f.pn (by omega) (by decide) (by omega)
  · exact field_of 32 7 14 (op * 2 ^ 5 + f.pg.toNat * 2 + f.pn.toNat) (f.a.toNat * 2 ^ 7 + f.b.toNat) _ f.d (by omega) (by decide) (by omega)
  · exact field_of 32 7 7 (op * 2 ^ 12 + f.pg.toNat * 2 ^ 8 + f.pn.toNat * 2 ^ 7 + f.d.toNat) f.b.toNat _ f.a (by omega) (by decide) (by omega)
  · exact field_of 32 7 0 (op * 2 ^ 19 + f.pg.toNat * 2 ^ 15 + f.pn.toNat * 2 ^ 14 + f.d.toNat * 2 ^ 7 + f.a.toNat) 0 _ f.b (by omega) (by decide) (by omega)

theorem op_joinVF (h : op < 64) : ((joinVF op f).extractLsb' 26 6).toNat = op := by
  have h1 := f.pg.isLt; have h2 := f.d.isLt; have h3 := f.a.isLt; have h4 := f.b.isLt
  have hb := bit_le_one f.pn
  exact op_of op (f.pg.toNat * 2 ^ 22 + f.pn.toNat * 2 ^ 21 + f.d.toNat * 2 ^ 14 + f.a.toNat * 2 ^ 7 + f.b.toNat) _ h (by omega) (by omega)

end

theorem splitVX_join (x : VX) (r : Bool) : splitVX (joinVX x r) = x := by
  have h1 := x.c.isLt; have h2 := x.ty.isLt; have h3 := x.bk.isLt; have h4 := x.rm.isLt; have h5 := x.imm.isLt
  have hs := bit_le_one x.sat
  have hr := bit_le_one r
  refine (VX.mk.injEq ..).mpr ⟨?_, ?_, ?_, ?_, ?_, ?_⟩
  · exact field_of 32 7 25 0 (x.ty.toNat * 2 ^ 22 + x.bk.toNat * 2 ^ 20 + x.rm.toNat * 2 ^ 18 + x.sat.toNat * 2 ^ 17
      + r.toNat * 2 ^ 16 + x.imm.toNat) _ x.c (by omega) (by decide) (by omega)
  · exact field_of 32 3 22 x.c.toNat (x.bk.toNat * 2 ^ 20 + x.rm.toNat * 2 ^ 18 + x.sat.toNat * 2 ^ 17
      + r.toNat * 2 ^ 16 + x.imm.toNat) _ x.ty (by omega) (by decide) (by omega)
  · exact field_of 32 2 20 (x.c.toNat * 2 ^ 3 + x.ty.toNat) (x.rm.toNat * 2 ^ 18 + x.sat.toNat * 2 ^ 17
      + r.toNat * 2 ^ 16 + x.imm.toNat) _ x.bk (by omega) (by decide) (by omega)
  · exact field_of 32 2 18 (x.c.toNat * 2 ^ 5 + x.ty.toNat * 2 ^ 2 + x.bk.toNat) (x.sat.toNat * 2 ^ 17
      + r.toNat * 2 ^ 16 + x.imm.toNat) _ x.rm (by omega) (by decide) (by omega)
  · exact bit_of 32 17 (x.c.toNat * 2 ^ 7 + x.ty.toNat * 2 ^ 4 + x.bk.toNat * 2 ^ 2 + x.rm.toNat)
      (r.toNat * 2 ^ 16 + x.imm.toNat) _ x.sat (by omega) (by decide) (by omega)
  · exact field_of 32 16 0 (x.c.toNat * 2 ^ 9 + x.ty.toNat * 2 ^ 6 + x.bk.toNat * 2 ^ 4 + x.rm.toNat * 2 ^ 2 + x.sat.toNat * 2
      + r.toNat) 0 _ x.imm (by omega) (by decide) (by omega)

theorem reserved_joinVX (x : VX) (r : Bool) : (joinVX x r).getLsbD 16 = r := by
  have h1 := x.c.isLt; have h2 := x.ty.isLt; have h3 := x.bk.isLt; have h4 := x.rm.isLt; have h5 := x.imm.isLt
  have hs := bit_le_one x.sat
  exact bit_of 32 16 (x.c.toNat * 2 ^ 8 + x.ty.toNat * 2 ^ 5 + x.bk.toNat * 2 ^ 3 + x.rm.toNat * 2 + x.sat.toNat)
      x.imm.toNat _ r (by omega) (by decide) (by omega)

theorem splitMX_join (x : MX) : splitMX (joinMX x) = x := by
  have h1 := x.c.isLt; have h2 := x.sz.isLt; have h3 := x.sp.isLt; have h4 := x.sc.isLt; have h5 := x.imm.isLt
  refine (MX.mk.injEq ..).mpr ⟨?_, ?_, ?_, ?_, ?_⟩
  · exact field_of 32 7 25 0 (x.sz.toNat * 2 ^ 22 + x.sp.toNat * 2 ^ 19 + x.sc.toNat * 2 ^ 16 + x.imm.toNat) _ x.c (by omega) (by decide) (by omega)
  · exact field_of 32 3 22 x.c.toNat (x.sp.toNat * 2 ^ 19 + x.sc.toNat * 2 ^ 16 + x.imm.toNat) _ x.sz (by omega) (by decide) (by omega)
  · exact field_of 32 3 19 (x.c.toNat * 2 ^ 3 + x.sz.toNat) (x.sc.toNat * 2 ^ 16 + x.imm.toNat) _ x.sp (by omega) (by decide) (by omega)
  · exact field_of 32 3 16 (x.c.toNat * 2 ^ 6 + x.sz.toNat * 2 ^ 3 + x.sp.toNat) x.imm.toNat _ x.sc (by omega) (by decide) (by omega)
  · exact field_of 32 16 0 (x.c.toNat * 2 ^ 9 + x.sz.toNat * 2 ^ 6 + x.sp.toNat * 2 ^ 3 + x.sc.toNat) 0 _ x.imm (by omega) (by decide) (by omega)

section
variable (op : Nat) (g : KG) (y : BitVec 22)

theorem op_joinK (h : op < 64) : ((joinK op g y).extractLsb' 26 6).toNat = op := by
  have h1 := g.q.isLt; have h2 := y.isLt; have hn := bit_le_one g.n
  exact op_of op (g.q.toNat * 2 ^ 23 + g.n.toNat * 2 ^ 22 + y.toNat) _ h (by omega) (by omega)
theorem guardQ_joinK : (joinK op g y).extractLsb' 23 3 = g.q := by
  have h1 := g.q.isLt; have h2 := y.isLt; have hn := bit_le_one g.n
  exact field_of 32 3 23 op (g.n.toNat * 2 ^ 22 + y.toNat) _ g.q (by omega) (by decide) (by omega)
theorem guardN_joinK : (joinK op g y).getLsbD 22 = g.n := by
  have h1 := g.q.isLt; have h2 := y.isLt; have hn := bit_le_one g.n
  exact bit_of 32 22 (op * 2 ^ 3 + g.q.toNat) y.toNat _ g.n (by omega) (by decide) (by omega)
theorem body_joinK : (joinK op g y).extractLsb' 0 22 = y := by
  have h1 := g.q.isLt; have h2 := y.isLt; have hn := bit_le_one g.n
  exact field_of 32 22 0 (op * 2 ^ 4 + g.q.toNat * 2 + g.n.toNat) 0 _ y (by omega) (by decide) (by omega)

end

/-! ## Splitting the words of a form -/

theorem splitForm_k (e : Eng) (op : Nat) (g : KG) (y : BitVec 22) (x : Option Word) (h : op < 64)
    (he : e = .k ∨ e = .x ∨ e = .d) : splitForm e (joinK op g y) x = .kForm e op g y x := by
  obtain rfl | rfl | rfl := he <;>
    simp only [splitForm, op_joinK op g y h, guardQ_joinK, guardN_joinK, body_joinK]

theorem splitForm_v (e : Eng) (op : Nat) (f : VF) (h : op < 64) (he : e = .v ∨ e = .b) (x : Option VX) :
    splitForm e (joinVF op f) (x.map (joinVX · false)) = .vForm e op f x false := by
  obtain rfl | rfl := he <;> cases x <;>
    simp only [splitForm, op_joinVF op f h, splitVF_join, Option.map_none, Option.map_some, splitVX_join, reserved_joinVX,
      Option.getD_none, Option.getD_some]

theorem splitForm_m (op : Nat) (f : VF) (h : op < 64) (x : Option MX) :
    splitForm .m (joinVF op f) (x.map joinMX) = .mForm op f x := by
  cases x <;>
    simp only [splitForm, op_joinVF op f h, splitVF_join, Option.map_none, Option.map_some, splitMX_join]


/-! ## Fields of the body of a K form -/

section
variable (d a b fn : Nat)

@[simp] theorem kD_kBody (hd : d < 64) (ha : a < 64) (hb : b < 64) (hf : fn < 16) : kD (kBody d a b fn) = BitVec.ofNat 6 d := by
  have e : (BitVec.ofNat 6 d).toNat = d := by rw [BitVec.toNat_ofNat]; exact Nat.mod_eq_of_lt hd
  exact field_of 22 6 16 0 (a * 2 ^ 10 + b * 2 ^ 4 + fn) _ _ (by omega) (by decide) (by rw [e]; omega)
@[simp] theorem kA_kBody (ha : a < 64) (hb : b < 64) (hf : fn < 16) : kA (kBody d a b fn) = BitVec.ofNat 6 a := by
  have e : (BitVec.ofNat 6 a).toNat = a := by rw [BitVec.toNat_ofNat]; exact Nat.mod_eq_of_lt ha
  exact field_of 22 6 10 d (b * 2 ^ 4 + fn) _ _ (by omega) (by decide) (by rw [e]; omega)
@[simp] theorem kB_kBody (hb : b < 64) (hf : fn < 16) : kB (kBody d a b fn) = BitVec.ofNat 6 b := by
  have e : (BitVec.ofNat 6 b).toNat = b := by rw [BitVec.toNat_ofNat]; exact Nat.mod_eq_of_lt hb
  exact field_of 22 6 4 (d * 2 ^ 6 + a) fn _ _ (by omega) (by decide) (by rw [e]; omega)
@[simp] theorem kF_kBody (hf : fn < 16) : kF (kBody d a b fn) = BitVec.ofNat 4 fn := by
  have e : (BitVec.ofNat 4 fn).toNat = fn := by rw [BitVec.toNat_ofNat]; exact Nat.mod_eq_of_lt hf
  exact field_of 22 4 0 (d * 2 ^ 12 + a * 2 ^ 6 + b) 0 _ _ (by omega) (by decide) (by rw [e]; omega)
@[simp] theorem kD_kiBody (imm : Nat) (hd : d < 64) (hi : imm < 65536) : kD (kiBody d imm) = BitVec.ofNat 6 d := by
  have e : (BitVec.ofNat 6 d).toNat = d := by rw [BitVec.toNat_ofNat]; exact Nat.mod_eq_of_lt hd
  exact field_of 22 6 16 0 imm _ _ (by omega) (by decide) (by rw [e]; omega)
@[simp] theorem kI_kiBody (imm : Nat) (hi : imm < 65536) : kI (kiBody d imm) = BitVec.ofNat 16 imm := by
  have e : (BitVec.ofNat 16 imm).toNat = imm := by rw [BitVec.toNat_ofNat]; exact Nat.mod_eq_of_lt hi
  exact field_of 22 16 0 d 0 _ _ (by omega) (by decide) (by rw [e]; omega)

end

@[simp] theorem lt64 {n : Nat} (x : BitVec n) (h : n ≤ 6) : x.toNat < 64 :=
  Nat.lt_of_lt_of_le x.isLt (Nat.pow_le_pow_right (by decide) h)
@[simp] theorem lt16 {n : Nat} (x : BitVec n) (h : n ≤ 4) : x.toNat < 16 :=
  Nat.lt_of_lt_of_le x.isLt (Nat.pow_le_pow_right (by decide) h)
theorem ofNat_self {n : Nat} (x : BitVec n) : BitVec.ofNat n x.toNat = x := by simp
@[simp] theorem narrow_self {m n : Nat} (x : BitVec m) (h : m ≤ n) : (BitVec.ofNat n x.toNat).setWidth m = x := by
  apply BitVec.eq_of_toNat_eq
  rw [BitVec.toNat_setWidth, BitVec.toNat_ofNat, Nat.mod_eq_of_lt (Nat.lt_of_lt_of_le x.isLt (Nat.pow_le_pow_right (by decide) h)),
    Nat.mod_eq_of_lt x.isLt]
@[simp] theorem imm16_lt (x : BitVec 16) : x.toNat < 65536 := x.isLt
@[simp] theorem word6 (x : BitVec 6) : (x.setWidth 32 : Word).setWidth 6 = x := by
  apply BitVec.eq_of_toNat_eq; have := x.isLt; simp only [BitVec.toNat_setWidth]; omega
@[simp] theorem regNumber (o : Nat) (x : BitVec 12) : (BitVec.ofNat 16 (o * 4096 + x.toNat)).setWidth 12 = x := by
  apply BitVec.eq_of_toNat_eq; have := x.isLt; simp only [BitVec.toNat_setWidth, BitVec.toNat_ofNat]; omega
@[simp] theorem regOp (o : Nat) (x : BitVec 12) (h : o < 16) : (BitVec.ofNat 16 (o * 4096 + x.toNat)).toNat / 4096 = o := by
  have := x.isLt; simp only [BitVec.toNat_ofNat]; omega

/-! ## Fields that are packed -/

theorem regNum_lt (o : Nat) (x : BitVec 12) (h : o < 16) : o * 4096 + x.toNat < 65536 := by have := x.isLt; omega
theorem brv_lt (p : BitVec 4) (pn : Bool) : p.toNat + 16 * pn.toNat < 64 := by
  have := p.isLt; have := bit_le_one pn; omega
theorem brv_p (p : BitVec 4) (pn : Bool) : (BitVec.ofNat 6 (p.toNat + 16 * pn.toNat)).setWidth 4 = p := by
  apply BitVec.eq_of_toNat_eq; have := p.isLt; have := bit_le_one pn; simp only [BitVec.toNat_setWidth, BitVec.toNat_ofNat]; omega
theorem brv_pn (p : BitVec 4) (pn : Bool) : (BitVec.ofNat 6 (p.toNat + 16 * pn.toNat)).getLsbD 4 = pn :=
  bit_of 6 4 0 p.toNat _ pn p.isLt (by decide) (by omega)
theorem bit_lt16 (b : Bool) : b.toNat < 16 := by cases b <;> decide
theorem ofNat_bit (b : Bool) : (BitVec.ofNat 4 b.toNat).getLsbD 0 = b := by cases b <;> decide
theorem append_eq (x y : BitVec 16) : (x ++ y : Word) = BitVec.ofNat 32 (x.toNat * 2 ^ 16 + y.toNat) := by
  apply BitVec.eq_of_toNat_eq; have := x.isLt; have hy := y.isLt
  rw [BitVec.toNat_append, ← Nat.shiftLeft_add_eq_or_of_lt hy, Nat.shiftLeft_eq, BitVec.toNat_ofNat]
  omega
theorem high_append (x y : BitVec 16) : (x ++ y : Word).extractLsb' 16 16 = x := by
  rw [append_eq]; exact field_of 32 16 16 0 y.toNat _ x y.isLt (by decide) (by omega)
theorem low_append (x y : BitVec 16) : (x ++ y : Word).setWidth 16 = y := by
  rw [append_eq]; apply BitVec.eq_of_toNat_eq; have := x.isLt; have := y.isLt
  simp only [BitVec.toNat_setWidth, BitVec.toNat_ofNat]; omega
theorem watch_sp (sp sc : BitVec 3) (w : Bool) : (BitVec.ofNat 32 (sp.toNat + 8 * sc.toNat + 64 * w.toNat)).setWidth 3 = sp := by
  apply BitVec.eq_of_toNat_eq; have := sp.isLt; have := sc.isLt; have := bit_le_one w
  simp only [BitVec.toNat_setWidth, BitVec.toNat_ofNat]; omega
theorem watch_sc (sp sc : BitVec 3) (w : Bool) : (BitVec.ofNat 32 (sp.toNat + 8 * sc.toNat + 64 * w.toNat)).extractLsb' 3 3 = sc :=
  field_of 32 3 3 w.toNat sp.toNat _ sc sp.isLt (by decide) (by omega)
theorem watch_wide (sp sc : BitVec 3) (w : Bool) : (BitVec.ofNat 32 (sp.toNat + 8 * sc.toNat + 64 * w.toNat)).getLsbD 6 = w :=
  bit_of 32 6 0 (sp.toNat + 8 * sc.toNat) _ w (by have := sp.isLt; have := sc.isLt; omega) (by decide) (by omega)
theorem level_lt8 (x : BitVec 3) : (BitVec.ofNat 4 x.toNat).toNat < 8 := by
  have := x.isLt; simp only [BitVec.toNat_ofNat]; omega
theorem level_lt (x : BitVec 3) : 8 + x.toNat < 16 := by have := x.isLt; omega
theorem level_toNat (x : BitVec 3) : (BitVec.ofNat 4 (8 + x.toNat)).toNat = 8 + x.toNat :=
  (BitVec.toNat_ofNat ..).trans (Nat.mod_eq_of_lt (level_lt x))
theorem level_narrow (x : BitVec 3) : (BitVec.ofNat 4 (8 + x.toNat)).setWidth 3 = x := by
  apply BitVec.eq_of_toNat_eq; have := x.isLt; simp only [BitVec.toNat_setWidth, BitVec.toNat_ofNat]; omega
theorem aepi_off (off : BitVec 16) (sp sc : BitVec 3) :
    (BitVec.ofNat 32 (off.toNat + 65536 * sp.toNat + 524288 * sc.toNat)).setWidth 16 = off := by
  apply BitVec.eq_of_toNat_eq; have := off.isLt; have := sp.isLt; have := sc.isLt
  simp only [BitVec.toNat_setWidth, BitVec.toNat_ofNat]; omega
theorem aepi_sp (off : BitVec 16) (sp sc : BitVec 3) :
    (BitVec.ofNat 32 (off.toNat + 65536 * sp.toNat + 524288 * sc.toNat)).extractLsb' 16 3 = sp :=
  field_of 32 3 16 sc.toNat off.toNat _ sp off.isLt (by decide) (by omega)
theorem aepi_sc (off : BitVec 16) (sp sc : BitVec 3) :
    (BitVec.ofNat 32 (off.toNat + 65536 * sp.toNat + 524288 * sc.toNat)).extractLsb' 19 3 = sc :=
  field_of 32 3 19 0 (off.toNat + 65536 * sp.toNat) _ sc (by have := off.isLt; have := sp.isLt; omega) (by decide) (by omega)

/-! ## The statement -/

/-- The words of a well-formed instruction decode to it. -/
def Laws.RoundTrip.Statement (i : Instr) : Prop :=
  i.wf = true → ∀ (e : Eng) (w : Word) (x : Option Word), encode i = some (e, w, x) → decodeWords e w x = .ok i

/-- It is enough that the instruction's form is split again from its words and names the instruction. -/
theorem roundTrip_of (i : Instr) (fm : Form) (hf : i.form = some fm) (hs : splitForm fm.eng fm.words.1 fm.words.2 = fm)
    (hi : i.rowOk = true → fm.instr = some i) : Laws.RoundTrip.Statement i := by
  intro hw e w x he
  simp only [encode, hf, Option.map_some, Option.some.injEq, Prod.mk.injEq] at he
  obtain ⟨rfl, rfl, rfl⟩ := he
  simp only [Instr.wf, hf, Bool.and_eq_true, beq_iff_eq] at hw
  simp only [decodeWords, hs, hw.2, hi hw.1]

theorem roundTrip_k (i : Instr) (e : Eng) (op : Nat) (g : KG) (y : BitVec 22) (x : Option Word)
    (hf : i.form = some (.kForm e op g y x)) (h : op < 64) (he : e = .k ∨ e = .x ∨ e = .d)
    (hi : (Form.kForm e op g y x).instr = some i) : Laws.RoundTrip.Statement i :=
  roundTrip_of i _ hf (splitForm_k e op g y x h he) fun _ => hi

theorem roundTrip_v (i : Instr) (e : Eng) (op : Nat) (f : VF) (x : Option VX)
    (hf : i.form = some (.vForm e op f x false)) (h : op < 64) (he : e = .v ∨ e = .b)
    (hi : i.rowOk = true → (Form.vForm e op f x false).instr = some i) : Laws.RoundTrip.Statement i :=
  roundTrip_of i _ hf (splitForm_v e op f h he x) hi

theorem roundTrip_m (i : Instr) (op : Nat) (f : VF) (x : Option MX) (hf : i.form = some (.mForm op f x)) (h : op < 64)
    (hi : (Form.mForm op f x).instr = some i) : Laws.RoundTrip.Statement i :=
  roundTrip_of i _ hf (splitForm_m op f h x) fun _ => hi

/-- An event has no words. -/
theorem roundTrip_event (i : Instr) (h : i.form = none) : Laws.RoundTrip.Statement i := by
  intro _ e w x he; simp [encode, h] at he

namespace Laws.RoundTrip


theorem nop (g : KG) : Statement (.nop g) :=
  roundTrip_k _ .k 0 g ((kBody 0 0 0 0)) none rfl (by decide) (.inl rfl) (by
    rfl)
theorem nop64 (g : KG) (imm : BitVec 32) : Statement (.nop64 g imm) :=
  roundTrip_k _ .k 0 g ((kBody 0 0 0 0)) (some imm) rfl (by decide) (.inl rfl) (by
    rfl)
theorem smov (g : KG) (d a : BitVec 6) : Statement (.smov g d a) :=
  roundTrip_k _ .k 1 g ((kBody d.toNat a.toNat 0 0)) none rfl (by decide) (.inl rfl) (by
    have h : ∀ y, kInstr 1 g y none =
      if (kF y).toNat == 0 then some (.smov g (kD y) (kA y)) else if (kF y).toNat == 1 then some (.smovLc g (kD y) ((kA y).setWidth 2)) else none := fun _ => rfl
    refine (h ((kBody d.toNat a.toNat 0 0))).trans ?_
    simp)
theorem smovLc (g : KG) (d : BitVec 6) (lc : BitVec 2) : Statement (.smovLc g d lc) :=
  roundTrip_k _ .k 1 g ((kBody d.toNat lc.toNat 0 1)) none rfl (by decide) (.inl rfl) (by
    have h : ∀ y, kInstr 1 g y none =
      if (kF y).toNat == 0 then some (.smov g (kD y) (kA y)) else if (kF y).toNat == 1 then some (.smovLc g (kD y) ((kA y).setWidth 2)) else none := fun _ => rfl
    refine (h ((kBody d.toNat lc.toNat 0 1))).trans ?_
    simp)
theorem sli (g : KG) (d : BitVec 6) (imm : BitVec 16) : Statement (.sli g d imm) :=
  roundTrip_k _ .k 2 g ((kiBody d.toNat imm.toNat)) none rfl (by decide) (.inl rfl) (by
    have h : ∀ y, kInstr 2 g y none =
      some (.sli g (kD y) (kI y)) := fun _ => rfl
    refine (h ((kiBody d.toNat imm.toNat))).trans ?_
    simp)
theorem sli64 (g : KG) (d : BitVec 6) (hi : BitVec 16) (imm : BitVec 32) : Statement (.sli64 g d hi imm) :=
  roundTrip_k _ .k 2 g ((kiBody d.toNat hi.toNat)) (some imm) rfl (by decide) (.inl rfl) (by
    have h : ∀ y, kInstr 2 g y (some imm) =
      some (.sli64 g (kD y) (kI y) imm) := fun _ => rfl
    refine (h ((kiBody d.toNat hi.toNat))).trans ?_
    simp)
theorem sadd (g : KG) (d a b : BitVec 6) : Statement (.sadd g d a b) :=
  roundTrip_k _ .k 3 g ((kBody d.toNat a.toNat b.toNat 0)) none rfl (by decide) (.inl rfl) (by
    have h : ∀ y, kInstr 3 g y none =
      some (.sadd g (kD y) (kA y) (kB y)) := fun _ => rfl
    refine (h ((kBody d.toNat a.toNat b.toNat 0))).trans ?_
    simp)
theorem saddImm (g : KG) (d a : BitVec 6) (imm : BitVec 32) : Statement (.saddImm g d a imm) :=
  roundTrip_k _ .k 3 g ((kBody d.toNat a.toNat 0 0)) (some imm) rfl (by decide) (.inl rfl) (by
    have h : ∀ y, kInstr 3 g y (some imm) =
      some (.saddImm g (kD y) (kA y) imm) := fun _ => rfl
    refine (h ((kBody d.toNat a.toNat 0 0))).trans ?_
    simp)
theorem ssub (g : KG) (d a b : BitVec 6) : Statement (.ssub g d a b) :=
  roundTrip_k _ .k 4 g ((kBody d.toNat a.toNat b.toNat 0)) none rfl (by decide) (.inl rfl) (by
    have h : ∀ y, kInstr 4 g y none =
      some (.ssub g (kD y) (kA y) (kB y)) := fun _ => rfl
    refine (h ((kBody d.toNat a.toNat b.toNat 0))).trans ?_
    simp)
theorem ssubImm (g : KG) (d a : BitVec 6) (imm : BitVec 32) : Statement (.ssubImm g d a imm) :=
  roundTrip_k _ .k 4 g ((kBody d.toNat a.toNat 0 0)) (some imm) rfl (by decide) (.inl rfl) (by
    have h : ∀ y, kInstr 4 g y (some imm) =
      some (.ssubImm g (kD y) (kA y) imm) := fun _ => rfl
    refine (h ((kBody d.toNat a.toNat 0 0))).trans ?_
    simp)
theorem smul (g : KG) (d a b : BitVec 6) : Statement (.smul g d a b) :=
  roundTrip_k _ .k 5 g ((kBody d.toNat a.toNat b.toNat 0)) none rfl (by decide) (.inl rfl) (by
    have h : ∀ y, kInstr 5 g y none =
      if (kF y).toNat == 0 then some (.smul g (kD y) (kA y) (kB y)) else if (kF y).toNat == 1 then some (.smulHi g (kD y) (kA y) (kB y)) else if (kF y).toNat == 2 then some (.smulHiu g (kD y) (kA y) (kB y)) else none := fun _ => rfl
    refine (h ((kBody d.toNat a.toNat b.toNat 0))).trans ?_
    simp)
theorem smulImm (g : KG) (d a : BitVec 6) (imm : BitVec 32) : Statement (.smulImm g d a imm) :=
  roundTrip_k _ .k 5 g ((kBody d.toNat a.toNat 0 0)) (some imm) rfl (by decide) (.inl rfl) (by
    have h : ∀ y, kInstr 5 g y (some imm) =
      if (kF y).toNat == 0 then some (.smulImm g (kD y) (kA y) imm) else if (kF y).toNat == 1 then some (.smulHiImm g (kD y) (kA y) imm) else if (kF y).toNat == 2 then some (.smulHiuImm g (kD y) (kA y) imm) else none := fun _ => rfl
    refine (h ((kBody d.toNat a.toNat 0 0))).trans ?_
    simp)
theorem smulHi (g : KG) (d a b : BitVec 6) : Statement (.smulHi g d a b) :=
  roundTrip_k _ .k 5 g ((kBody d.toNat a.toNat b.toNat 1)) none rfl (by decide) (.inl rfl) (by
    have h : ∀ y, kInstr 5 g y none =
      if (kF y).toNat == 0 then some (.smul g (kD y) (kA y) (kB y)) else if (kF y).toNat == 1 then some (.smulHi g (kD y) (kA y) (kB y)) else if (kF y).toNat == 2 then some (.smulHiu g (kD y) (kA y) (kB y)) else none := fun _ => rfl
    refine (h ((kBody d.toNat a.toNat b.toNat 1))).trans ?_
    simp)
theorem smulHiImm (g : KG) (d a : BitVec 6) (imm : BitVec 32) : Statement (.smulHiImm g d a imm) :=
  roundTrip_k _ .k 5 g ((kBody d.toNat a.toNat 0 1)) (some imm) rfl (by decide) (.inl rfl) (by
    have h : ∀ y, kInstr 5 g y (some imm) =
      if (kF y).toNat == 0 then some (.smulImm g (kD y) (kA y) imm) else if (kF y).toNat == 1 then some (.smulHiImm g (kD y) (kA y) imm) else if (kF y).toNat == 2 then some (.smulHiuImm g (kD y) (kA y) imm) else none := fun _ => rfl
    refine (h ((kBody d.toNat a.toNat 0 1))).trans ?_
    simp)
theorem smulHiu (g : KG) (d a b : BitVec 6) : Statement (.smulHiu g d a b) :=
  roundTrip_k _ .k 5 g ((kBody d.toNat a.toNat b.toNat 2)) none rfl (by decide) (.inl rfl) (by
    have h : ∀ y, kInstr 5 g y none =
      if (kF y).toNat == 0 then some (.smul g (kD y) (kA y) (kB y)) else if (kF y).toNat == 1 then some (.smulHi g (kD y) (kA y) (kB y)) else if (kF y).toNat == 2 then some (.smulHiu g (kD y) (kA y) (kB y)) else none := fun _ => rfl
    refine (h ((kBody d.toNat a.toNat b.toNat 2))).trans ?_
    simp)
theorem smulHiuImm (g : KG) (d a : BitVec 6) (imm : BitVec 32) : Statement (.smulHiuImm g d a imm) :=
  roundTrip_k _ .k 5 g ((kBody d.toNat a.toNat 0 2)) (some imm) rfl (by decide) (.inl rfl) (by
    have h : ∀ y, kInstr 5 g y (some imm) =
      if (kF y).toNat == 0 then some (.smulImm g (kD y) (kA y) imm) else if (kF y).toNat == 1 then some (.smulHiImm g (kD y) (kA y) imm) else if (kF y).toNat == 2 then some (.smulHiuImm g (kD y) (kA y) imm) else none := fun _ => rfl
    refine (h ((kBody d.toNat a.toNat 0 2))).trans ?_
    simp)
theorem sand (g : KG) (d a b : BitVec 6) : Statement (.sand g d a b) :=
  roundTrip_k _ .k 6 g ((kBody d.toNat a.toNat b.toNat 0)) none rfl (by decide) (.inl rfl) (by
    have h : ∀ y, kInstr 6 g y none =
      some (.sand g (kD y) (kA y) (kB y)) := fun _ => rfl
    refine (h ((kBody d.toNat a.toNat b.toNat 0))).trans ?_
    simp)
theorem sandImm (g : KG) (d a : BitVec 6) (imm : BitVec 32) : Statement (.sandImm g d a imm) :=
  roundTrip_k _ .k 6 g ((kBody d.toNat a.toNat 0 0)) (some imm) rfl (by decide) (.inl rfl) (by
    have h : ∀ y, kInstr 6 g y (some imm) =
      some (.sandImm g (kD y) (kA y) imm) := fun _ => rfl
    refine (h ((kBody d.toNat a.toNat 0 0))).trans ?_
    simp)
theorem sor (g : KG) (d a b : BitVec 6) : Statement (.sor g d a b) :=
  roundTrip_k _ .k 7 g ((kBody d.toNat a.toNat b.toNat 0)) none rfl (by decide) (.inl rfl) (by
    have h : ∀ y, kInstr 7 g y none =
      some (.sor g (kD y) (kA y) (kB y)) := fun _ => rfl
    refine (h ((kBody d.toNat a.toNat b.toNat 0))).trans ?_
    simp)
theorem sorImm (g : KG) (d a : BitVec 6) (imm : BitVec 32) : Statement (.sorImm g d a imm) :=
  roundTrip_k _ .k 7 g ((kBody d.toNat a.toNat 0 0)) (some imm) rfl (by decide) (.inl rfl) (by
    have h : ∀ y, kInstr 7 g y (some imm) =
      some (.sorImm g (kD y) (kA y) imm) := fun _ => rfl
    refine (h ((kBody d.toNat a.toNat 0 0))).trans ?_
    simp)
theorem sxor (g : KG) (d a b : BitVec 6) : Statement (.sxor g d a b) :=
  roundTrip_k _ .k 8 g ((kBody d.toNat a.toNat b.toNat 0)) none rfl (by decide) (.inl rfl) (by
    have h : ∀ y, kInstr 8 g y none =
      some (.sxor g (kD y) (kA y) (kB y)) := fun _ => rfl
    refine (h ((kBody d.toNat a.toNat b.toNat 0))).trans ?_
    simp)
theorem sxorImm (g : KG) (d a : BitVec 6) (imm : BitVec 32) : Statement (.sxorImm g d a imm) :=
  roundTrip_k _ .k 8 g ((kBody d.toNat a.toNat 0 0)) (some imm) rfl (by decide) (.inl rfl) (by
    have h : ∀ y, kInstr 8 g y (some imm) =
      some (.sxorImm g (kD y) (kA y) imm) := fun _ => rfl
    refine (h ((kBody d.toNat a.toNat 0 0))).trans ?_
    simp)
theorem sshl (g : KG) (d a b : BitVec 6) : Statement (.sshl g d a b) :=
  roundTrip_k _ .k 9 g ((kBody d.toNat a.toNat b.toNat 0)) none rfl (by decide) (.inl rfl) (by
    have h : ∀ y, kInstr 9 g y none =
      some (.sshl g (kD y) (kA y) (kB y)) := fun _ => rfl
    refine (h ((kBody d.toNat a.toNat b.toNat 0))).trans ?_
    simp)
theorem sshlImm (g : KG) (d a n : BitVec 6) : Statement (.sshlImm g d a n) :=
  roundTrip_k _ .k 9 g ((kBody d.toNat a.toNat 0 0)) (some (n.setWidth 32)) rfl (by decide) (.inl rfl) (by
    have h : ∀ y, kInstr 9 g y (some (n.setWidth 32)) =
      some (.sshlImm g (kD y) (kA y) ((n.setWidth 32).setWidth 6)) := fun _ => rfl
    refine (h ((kBody d.toNat a.toNat 0 0))).trans ?_
    simp)
theorem sshr (g : KG) (d a b : BitVec 6) : Statement (.sshr g d a b) :=
  roundTrip_k _ .k 10 g ((kBody d.toNat a.toNat b.toNat 0)) none rfl (by decide) (.inl rfl) (by
    have h : ∀ y, kInstr 10 g y none =
      if (kF y).toNat == 0 then some (.sshr g (kD y) (kA y) (kB y)) else if (kF y).toNat == 1 then some (.sshrA g (kD y) (kA y) (kB y)) else none := fun _ => rfl
    refine (h ((kBody d.toNat a.toNat b.toNat 0))).trans ?_
    simp)
theorem sshrImm (g : KG) (d a n : BitVec 6) : Statement (.sshrImm g d a n) :=
  roundTrip_k _ .k 10 g ((kBody d.toNat a.toNat 0 0)) (some (n.setWidth 32)) rfl (by decide) (.inl rfl) (by
    have h : ∀ y, kInstr 10 g y (some (n.setWidth 32)) =
      if (kF y).toNat == 0 then some (.sshrImm g (kD y) (kA y) ((n.setWidth 32).setWidth 6)) else if (kF y).toNat == 1 then some (.sshrAImm g (kD y) (kA y) ((n.setWidth 32).setWidth 6)) else none := fun _ => rfl
    refine (h ((kBody d.toNat a.toNat 0 0))).trans ?_
    simp)
theorem sshrA (g : KG) (d a b : BitVec 6) : Statement (.sshrA g d a b) :=
  roundTrip_k _ .k 10 g ((kBody d.toNat a.toNat b.toNat 1)) none rfl (by decide) (.inl rfl) (by
    have h : ∀ y, kInstr 10 g y none =
      if (kF y).toNat == 0 then some (.sshr g (kD y) (kA y) (kB y)) else if (kF y).toNat == 1 then some (.sshrA g (kD y) (kA y) (kB y)) else none := fun _ => rfl
    refine (h ((kBody d.toNat a.toNat b.toNat 1))).trans ?_
    simp)
theorem sshrAImm (g : KG) (d a n : BitVec 6) : Statement (.sshrAImm g d a n) :=
  roundTrip_k _ .k 10 g ((kBody d.toNat a.toNat 0 1)) (some (n.setWidth 32)) rfl (by decide) (.inl rfl) (by
    have h : ∀ y, kInstr 10 g y (some (n.setWidth 32)) =
      if (kF y).toNat == 0 then some (.sshrImm g (kD y) (kA y) ((n.setWidth 32).setWidth 6)) else if (kF y).toNat == 1 then some (.sshrAImm g (kD y) (kA y) ((n.setWidth 32).setWidth 6)) else none := fun _ => rfl
    refine (h ((kBody d.toNat a.toNat 0 1))).trans ?_
    simp)
theorem smin (g : KG) (d a b : BitVec 6) : Statement (.smin g d a b) :=
  roundTrip_k _ .k 11 g ((kBody d.toNat a.toNat b.toNat 0)) none rfl (by decide) (.inl rfl) (by
    have h : ∀ y, kInstr 11 g y none =
      if (kF y).toNat == 0 then some (.smin g (kD y) (kA y) (kB y)) else if (kF y).toNat == 1 then some (.smax g (kD y) (kA y) (kB y)) else if (kF y).toNat == 2 then some (.sminu g (kD y) (kA y) (kB y)) else if (kF y).toNat == 3 then some (.smaxu g (kD y) (kA y) (kB y)) else none := fun _ => rfl
    refine (h ((kBody d.toNat a.toNat b.toNat 0))).trans ?_
    simp)
theorem sminImm (g : KG) (d a : BitVec 6) (imm : BitVec 32) : Statement (.sminImm g d a imm) :=
  roundTrip_k _ .k 11 g ((kBody d.toNat a.toNat 0 0)) (some imm) rfl (by decide) (.inl rfl) (by
    have h : ∀ y, kInstr 11 g y (some imm) =
      if (kF y).toNat == 0 then some (.sminImm g (kD y) (kA y) imm) else if (kF y).toNat == 1 then some (.smaxImm g (kD y) (kA y) imm) else if (kF y).toNat == 2 then some (.sminuImm g (kD y) (kA y) imm) else if (kF y).toNat == 3 then some (.smaxuImm g (kD y) (kA y) imm) else none := fun _ => rfl
    refine (h ((kBody d.toNat a.toNat 0 0))).trans ?_
    simp)
theorem smax (g : KG) (d a b : BitVec 6) : Statement (.smax g d a b) :=
  roundTrip_k _ .k 11 g ((kBody d.toNat a.toNat b.toNat 1)) none rfl (by decide) (.inl rfl) (by
    have h : ∀ y, kInstr 11 g y none =
      if (kF y).toNat == 0 then some (.smin g (kD y) (kA y) (kB y)) else if (kF y).toNat == 1 then some (.smax g (kD y) (kA y) (kB y)) else if (kF y).toNat == 2 then some (.sminu g (kD y) (kA y) (kB y)) else if (kF y).toNat == 3 then some (.smaxu g (kD y) (kA y) (kB y)) else none := fun _ => rfl
    refine (h ((kBody d.toNat a.toNat b.toNat 1))).trans ?_
    simp)
theorem smaxImm (g : KG) (d a : BitVec 6) (imm : BitVec 32) : Statement (.smaxImm g d a imm) :=
  roundTrip_k _ .k 11 g ((kBody d.toNat a.toNat 0 1)) (some imm) rfl (by decide) (.inl rfl) (by
    have h : ∀ y, kInstr 11 g y (some imm) =
      if (kF y).toNat == 0 then some (.sminImm g (kD y) (kA y) imm) else if (kF y).toNat == 1 then some (.smaxImm g (kD y) (kA y) imm) else if (kF y).toNat == 2 then some (.sminuImm g (kD y) (kA y) imm) else if (kF y).toNat == 3 then some (.smaxuImm g (kD y) (kA y) imm) else none := fun _ => rfl
    refine (h ((kBody d.toNat a.toNat 0 1))).trans ?_
    simp)
theorem sminu (g : KG) (d a b : BitVec 6) : Statement (.sminu g d a b) :=
  roundTrip_k _ .k 11 g ((kBody d.toNat a.toNat b.toNat 2)) none rfl (by decide) (.inl rfl) (by
    have h : ∀ y, kInstr 11 g y none =
      if (kF y).toNat == 0 then some (.smin g (kD y) (kA y) (kB y)) else if (kF y).toNat == 1 then some (.smax g (kD y) (kA y) (kB y)) else if (kF y).toNat == 2 then some (.sminu g (kD y) (kA y) (kB y)) else if (kF y).toNat == 3 then some (.smaxu g (kD y) (kA y) (kB y)) else none := fun _ => rfl
    refine (h ((kBody d.toNat a.toNat b.toNat 2))).trans ?_
    simp)
theorem sminuImm (g : KG) (d a : BitVec 6) (imm : BitVec 32) : Statement (.sminuImm g d a imm) :=
  roundTrip_k _ .k 11 g ((kBody d.toNat a.toNat 0 2)) (some imm) rfl (by decide) (.inl rfl) (by
    have h : ∀ y, kInstr 11 g y (some imm) =
      if (kF y).toNat == 0 then some (.sminImm g (kD y) (kA y) imm) else if (kF y).toNat == 1 then some (.smaxImm g (kD y) (kA y) imm) else if (kF y).toNat == 2 then some (.sminuImm g (kD y) (kA y) imm) else if (kF y).toNat == 3 then some (.smaxuImm g (kD y) (kA y) imm) else none := fun _ => rfl
    refine (h ((kBody d.toNat a.toNat 0 2))).trans ?_
    simp)
theorem smaxu (g : KG) (d a b : BitVec 6) : Statement (.smaxu g d a b) :=
  roundTrip_k _ .k 11 g ((kBody d.toNat a.toNat b.toNat 3)) none rfl (by decide) (.inl rfl) (by
    have h : ∀ y, kInstr 11 g y none =
      if (kF y).toNat == 0 then some (.smin g (kD y) (kA y) (kB y)) else if (kF y).toNat == 1 then some (.smax g (kD y) (kA y) (kB y)) else if (kF y).toNat == 2 then some (.sminu g (kD y) (kA y) (kB y)) else if (kF y).toNat == 3 then some (.smaxu g (kD y) (kA y) (kB y)) else none := fun _ => rfl
    refine (h ((kBody d.toNat a.toNat b.toNat 3))).trans ?_
    simp)
theorem smaxuImm (g : KG) (d a : BitVec 6) (imm : BitVec 32) : Statement (.smaxuImm g d a imm) :=
  roundTrip_k _ .k 11 g ((kBody d.toNat a.toNat 0 3)) (some imm) rfl (by decide) (.inl rfl) (by
    have h : ∀ y, kInstr 11 g y (some imm) =
      if (kF y).toNat == 0 then some (.sminImm g (kD y) (kA y) imm) else if (kF y).toNat == 1 then some (.smaxImm g (kD y) (kA y) imm) else if (kF y).toNat == 2 then some (.sminuImm g (kD y) (kA y) imm) else if (kF y).toNat == 3 then some (.smaxuImm g (kD y) (kA y) imm) else none := fun _ => rfl
    refine (h ((kBody d.toNat a.toNat 0 3))).trans ?_
    simp)
theorem scmp (g : KG) (d : BitVec 3) (a b : BitVec 6) (cc : BitVec 4) : Statement (.scmp g d a b cc) :=
  roundTrip_k _ .k 12 g ((kBody d.toNat a.toNat b.toNat cc.toNat)) none rfl (by decide) (.inl rfl) (by
    have h : ∀ y, kInstr 12 g y none =
      some (.scmp g ((kD y).setWidth 3) (kA y) (kB y) (kF y)) := fun _ => rfl
    refine (h ((kBody d.toNat a.toNat b.toNat cc.toNat))).trans ?_
    simp)
theorem scmpImm (g : KG) (d : BitVec 3) (a : BitVec 6) (cc : BitVec 4) (imm : BitVec 32) : Statement (.scmpImm g d a cc imm) :=
  roundTrip_k _ .k 12 g ((kBody d.toNat a.toNat 0 cc.toNat)) (some imm) rfl (by decide) (.inl rfl) (by
    have h : ∀ y, kInstr 12 g y (some imm) =
      some (.scmpImm g ((kD y).setWidth 3) (kA y) (kF y) imm) := fun _ => rfl
    refine (h ((kBody d.toNat a.toNat 0 cc.toNat))).trans ?_
    simp)
theorem ssel (g : KG) (d a b : BitVec 6) (q : BitVec 3) : Statement (.ssel g d a b q) :=
  roundTrip_k _ .k 13 g ((kBody d.toNat a.toNat b.toNat q.toNat)) none rfl (by decide) (.inl rfl) (by
    have h : ∀ y, kInstr 13 g y none =
      some (.ssel g (kD y) (kA y) (kB y) ((kF y).setWidth 3)) := fun _ => rfl
    refine (h ((kBody d.toNat a.toNat b.toNat q.toNat))).trans ?_
    simp)
theorem qlog (g : KG) (d a b : BitVec 3) (f : BitVec 4) : Statement (.qlog g d a b f) :=
  roundTrip_k _ .k 14 g ((kBody d.toNat a.toNat b.toNat f.toNat)) none rfl (by decide) (.inl rfl) (by
    have h : ∀ y, kInstr 14 g y none =
      some (.qlog g ((kD y).setWidth 3) ((kA y).setWidth 3) ((kB y).setWidth 3) (kF y)) := fun _ => rfl
    refine (h ((kBody d.toNat a.toNat b.toNat f.toNat))).trans ?_
    simp)
theorem scsrRead (g : KG) (d : BitVec 6) (num : BitVec 12) : Statement (.scsrRead g d num) :=
  roundTrip_k _ .k 15 g ((kiBody d.toNat (0 * 4096 + num.toNat))) none rfl (by decide) (.inl rfl) (by
    have h : ∀ y, kInstr 15 g y none =
      if ((kI y).toNat / 4096) == 0 then some (.scsrRead g (kD y) ((kI y).setWidth 12)) else if ((kI y).toNat / 4096) == 1 then some (.scsrWrite g (kD y) ((kI y).setWidth 12)) else if ((kI y).toNat / 4096) == 2 then some (.scsrSwap g (kD y) ((kI y).setWidth 12)) else none := fun _ => rfl
    refine (h ((kiBody d.toNat (0 * 4096 + num.toNat)))).trans ?_
    rw [kI_kiBody _ _ (regNum_lt 0 num (by decide)), kD_kiBody _ _ (lt64 d (by decide)) (regNum_lt 0 num (by decide)),
      regOp 0 num (by decide), regNumber]
    simp)
theorem scsrWrite (g : KG) (d : BitVec 6) (num : BitVec 12) : Statement (.scsrWrite g d num) :=
  roundTrip_k _ .k 15 g ((kiBody d.toNat (1 * 4096 + num.toNat))) none rfl (by decide) (.inl rfl) (by
    have h : ∀ y, kInstr 15 g y none =
      if ((kI y).toNat / 4096) == 0 then some (.scsrRead g (kD y) ((kI y).setWidth 12)) else if ((kI y).toNat / 4096) == 1 then some (.scsrWrite g (kD y) ((kI y).setWidth 12)) else if ((kI y).toNat / 4096) == 2 then some (.scsrSwap g (kD y) ((kI y).setWidth 12)) else none := fun _ => rfl
    refine (h ((kiBody d.toNat (1 * 4096 + num.toNat)))).trans ?_
    rw [kI_kiBody _ _ (regNum_lt 1 num (by decide)), kD_kiBody _ _ (lt64 d (by decide)) (regNum_lt 1 num (by decide)),
      regOp 1 num (by decide), regNumber]
    simp)
theorem scsrSwap (g : KG) (d : BitVec 6) (num : BitVec 12) : Statement (.scsrSwap g d num) :=
  roundTrip_k _ .k 15 g ((kiBody d.toNat (2 * 4096 + num.toNat))) none rfl (by decide) (.inl rfl) (by
    have h : ∀ y, kInstr 15 g y none =
      if ((kI y).toNat / 4096) == 0 then some (.scsrRead g (kD y) ((kI y).setWidth 12)) else if ((kI y).toNat / 4096) == 1 then some (.scsrWrite g (kD y) ((kI y).setWidth 12)) else if ((kI y).toNat / 4096) == 2 then some (.scsrSwap g (kD y) ((kI y).setWidth 12)) else none := fun _ => rfl
    refine (h ((kiBody d.toNat (2 * 4096 + num.toNat)))).trans ?_
    rw [kI_kiBody _ _ (regNum_lt 2 num (by decide)), kD_kiBody _ _ (lt64 d (by decide)) (regNum_lt 2 num (by decide)),
      regOp 2 num (by decide), regNumber]
    simp)
theorem br (g : KG) (off : BitVec 22) : Statement (.br g off) :=
  roundTrip_k _ .k 16 g ((off)) none rfl (by decide) (.inl rfl) (by
    have h : ∀ y, kInstr 16 g y none =
      some (.br g y) := fun _ => rfl
    refine (h ((off))).trans ?_
    simp)
theorem brv (p : BitVec 4) (pn : Bool) (off : BitVec 32) : Statement (.brv p pn off) :=
  roundTrip_k _ .k 17 always ((kBody (p.toNat + 16 * pn.toNat) 0 0 0)) (some off) rfl (by decide) (.inl rfl) (by
    have h : ∀ y, kInstr 17 always y (some off) =
      some (.brv ((kD y).setWidth 4) ((kD y).getLsbD 4) off) := fun _ => rfl
    refine (h ((kBody (p.toNat + 16 * pn.toNat) 0 0 0))).trans ?_
    rw [kD_kBody _ _ _ _ (brv_lt p pn) (by decide) (by decide) (by decide), brv_p, brv_pn])
theorem join  : Statement .join :=
  roundTrip_k _ .k 18 always ((kBody 0 0 0 0)) none rfl (by decide) (.inl rfl) (by
    rfl)
theorem call (g : KG) (off : BitVec 22) : Statement (.call g off) :=
  roundTrip_k _ .k 19 g ((off)) none rfl (by decide) (.inl rfl) (by
    have h : ∀ y, kInstr 19 g y none =
      some (.call g y) := fun _ => rfl
    refine (h ((off))).trans ?_
    simp)
theorem callvPair (g : KG) (a : BitVec 6) : Statement (.callvPair g a) :=
  roundTrip_k _ .k 20 g ((kBody 0 a.toNat 0 0)) none rfl (by decide) (.inl rfl) (by
    have h : ∀ y, kInstr 20 g y none =
      if (kF y).toNat == 0 then some (.callvPair g (kA y)) else if (kF y).toNat == 1 then some (.callvReg g (kA y)) else none := fun _ => rfl
    refine (h ((kBody 0 a.toNat 0 0))).trans ?_
    simp)
theorem callvReg (g : KG) (a : BitVec 6) : Statement (.callvReg g a) :=
  roundTrip_k _ .k 20 g ((kBody 0 a.toNat 0 1)) none rfl (by decide) (.inl rfl) (by
    have h : ∀ y, kInstr 20 g y none =
      if (kF y).toNat == 0 then some (.callvPair g (kA y)) else if (kF y).toNat == 1 then some (.callvReg g (kA y)) else none := fun _ => rfl
    refine (h ((kBody 0 a.toNat 0 1))).trans ?_
    simp)
theorem ret (g : KG) : Statement (.ret g) :=
  roundTrip_k _ .k 21 g ((kBody 0 0 0 0)) none rfl (by decide) (.inl rfl) (by
    rfl)
theorem jmp (g : KG) (a : BitVec 6) : Statement (.jmp g a) :=
  roundTrip_k _ .k 22 g ((kBody 0 a.toNat 0 0)) none rfl (by decide) (.inl rfl) (by
    have h : ∀ y, kInstr 22 g y none =
      some (.jmp g (kA y)) := fun _ => rfl
    refine (h ((kBody 0 a.toNat 0 0))).trans ?_
    simp)
theorem loopOpen (g : KG) (lc : BitVec 2) (byImm : Bool) (a : BitVec 6) (e count : BitVec 16) : Statement (.loopOpen g lc byImm a e count) :=
  roundTrip_k _ .k 23 g ((kBody lc.toNat a.toNat 0 byImm.toNat)) (some (e ++ count)) rfl (by decide) (.inl rfl) (by
    have h : ∀ y, kInstr 23 g y (some (e ++ count)) =
      some (.loopOpen g ((kD y).setWidth 2) ((kF y).getLsbD 0) (kA y) ((e ++ count).extractLsb' 16 16) ((e ++ count).setWidth 16)) := fun _ => rfl
    refine (h ((kBody lc.toNat a.toNat 0 byImm.toNat))).trans ?_
    rw [kD_kBody _ _ _ _ (lt64 lc (by decide)) (lt64 a (by decide)) (by decide) (bit_lt16 byImm),
      kA_kBody _ _ _ _ (lt64 a (by decide)) (by decide) (bit_lt16 byImm), kF_kBody _ _ _ _ (bit_lt16 byImm), narrow_self lc (by decide),
      ofNat_self, ofNat_bit, high_append, low_append])
theorem lbrk (g : KG) (lc : BitVec 2) : Statement (.lbrk g lc) :=
  roundTrip_k _ .k 24 g ((kBody lc.toNat 0 0 0)) none rfl (by decide) (.inl rfl) (by
    have h : ∀ y, kInstr 24 g y none =
      some (.lbrk g ((kD y).setWidth 2)) := fun _ => rfl
    refine (h ((kBody lc.toNat 0 0 0))).trans ?_
    simp)
theorem bar (g : KG) (id : BitVec 4) (a : BitVec 6) : Statement (.bar g id a) :=
  roundTrip_k _ .k 25 g ((kBody 0 a.toNat 0 id.toNat)) none rfl (by decide) (.inl rfl) (by
    have h : ∀ y, kInstr 25 g y none =
      some (.bar g (kF y) (kA y)) := fun _ => rfl
    refine (h ((kBody 0 a.toNat 0 id.toNat))).trans ?_
    simp)
theorem mwatch (g : KG) (ws : BitVec 2) (a b : BitVec 6) (sp sc : BitVec 3) (wide : Bool) : Statement (.mwatch g ws a b sp sc wide) :=
  roundTrip_k _ .k 26 g ((kBody ws.toNat a.toNat b.toNat 0)) (some (BitVec.ofNat 32 (sp.toNat + 8 * sc.toNat + 64 * wide.toNat))) rfl (by decide) (.inl rfl) (by
    have h : ∀ y, kInstr 26 g y (some (BitVec.ofNat 32 (sp.toNat + 8 * sc.toNat + 64 * wide.toNat))) =
      some (.mwatch g ((kD y).setWidth 2) (kA y) (kB y) ((BitVec.ofNat 32 (sp.toNat + 8 * sc.toNat + 64 * wide.toNat)).setWidth 3) ((BitVec.ofNat 32 (sp.toNat + 8 * sc.toNat + 64 * wide.toNat)).extractLsb' 3 3) ((BitVec.ofNat 32 (sp.toNat + 8 * sc.toNat + 64 * wide.toNat)).getLsbD 6)) := fun _ => rfl
    refine (h ((kBody ws.toNat a.toNat b.toNat 0))).trans ?_
    rw [watch_sp, watch_sc, watch_wide]; simp)
theorem mwait (g : KG) (d a : BitVec 6) (which : BitVec 4) : Statement (.mwait g d a which) :=
  roundTrip_k _ .k 27 g ((kBody d.toNat a.toNat 0 which.toNat)) none rfl (by decide) (.inl rfl) (by
    have h : ∀ y, kInstr 27 g y none =
      some (.mwait g (kD y) (kA y) (kF y)) := fun _ => rfl
    refine (h ((kBody d.toNat a.toNat 0 which.toNat))).trans ?_
    simp)
theorem spawn (g : KG) (a : BitVec 6) : Statement (.spawn g a) :=
  roundTrip_k _ .k 28 g ((kBody 0 a.toNat 0 0)) none rfl (by decide) (.inl rfl) (by
    have h : ∀ y, kInstr 28 g y none =
      some (.spawn g (kA y)) := fun _ => rfl
    refine (h ((kBody 0 a.toNat 0 0))).trans ?_
    simp)
theorem await (g : KG) (d a : BitVec 6) (q : BitVec 3) : Statement (.await g d a q) :=
  roundTrip_k _ .k 29 g ((kBody d.toNat a.toNat 0 q.toNat)) none rfl (by decide) (.inl rfl) (by
    have h : ∀ y, kInstr 29 g y none =
      some (.await g (kD y) (kA y) ((kF y).setWidth 3)) := fun _ => rfl
    refine (h ((kBody d.toNat a.toNat 0 q.toNat))).trans ?_
    simp)
theorem fset (g : KG) (a b : BitVec 6) : Statement (.fset g a b) :=
  roundTrip_k _ .k 30 g ((kBody 0 a.toNat b.toNat 0)) none rfl (by decide) (.inl rfl) (by
    have h : ∀ y, kInstr 30 g y none =
      some (.fset g (kA y) (kB y)) := fun _ => rfl
    refine (h ((kBody 0 a.toNat b.toNat 0))).trans ?_
    simp)
theorem locka (g : KG) (a : BitVec 6) : Statement (.locka g a) :=
  roundTrip_k _ .k 31 g ((kBody 0 a.toNat 0 0)) none rfl (by decide) (.inl rfl) (by
    have h : ∀ y, kInstr 31 g y none =
      if (kF y).toNat == 0 then some (.locka g (kA y)) else if (kF y).toNat == 1 then some (.lockaTry g ((kD y).setWidth 3) (kA y)) else none := fun _ => rfl
    refine (h ((kBody 0 a.toNat 0 0))).trans ?_
    simp)
theorem lockaTry (g : KG) (q : BitVec 3) (a : BitVec 6) : Statement (.lockaTry g q a) :=
  roundTrip_k _ .k 31 g ((kBody q.toNat a.toNat 0 1)) none rfl (by decide) (.inl rfl) (by
    have h : ∀ y, kInstr 31 g y none =
      if (kF y).toNat == 0 then some (.locka g (kA y)) else if (kF y).toNat == 1 then some (.lockaTry g ((kD y).setWidth 3) (kA y)) else none := fun _ => rfl
    refine (h ((kBody q.toNat a.toNat 0 1))).trans ?_
    simp)
theorem lockr (g : KG) (a : BitVec 6) : Statement (.lockr g a) :=
  roundTrip_k _ .k 32 g ((kBody 0 a.toNat 0 0)) none rfl (by decide) (.inl rfl) (by
    have h : ∀ y, kInstr 32 g y none =
      some (.lockr g (kA y)) := fun _ => rfl
    refine (h ((kBody 0 a.toNat 0 0))).trans ?_
    simp)
theorem yield (g : KG) : Statement (.yield g) :=
  roundTrip_k _ .k 33 g ((kBody 0 0 0 0)) none rfl (by decide) (.inl rfl) (by
    rfl)
theorem exit (g : KG) : Statement (.exit g) :=
  roundTrip_k _ .k 34 g ((kBody 0 0 0 0)) none rfl (by decide) (.inl rfl) (by
    rfl)
theorem launch (g : KG) (a : BitVec 6) : Statement (.launch g a) :=
  roundTrip_k _ .k 35 g ((kBody 0 a.toNat 0 0)) none rfl (by decide) (.inl rfl) (by
    have h : ∀ y, kInstr 35 g y none =
      some (.launch g (kA y)) := fun _ => rfl
    refine (h ((kBody 0 a.toNat 0 0))).trans ?_
    simp)
theorem cjoin (g : KG) (a : BitVec 6) : Statement (.cjoin g a) :=
  roundTrip_k _ .k 36 g ((kBody 0 a.toNat 0 0)) none rfl (by decide) (.inl rfl) (by
    have h : ∀ y, kInstr 36 g y none =
      some (.cjoin g (kA y)) := fun _ => rfl
    refine (h ((kBody 0 a.toNat 0 0))).trans ?_
    simp)
theorem vgive (g : KG) (imm : BitVec 16) : Statement (.vgive g imm) :=
  roundTrip_k _ .k 37 g ((kiBody 0 imm.toNat)) none rfl (by decide) (.inl rfl) (by
    have h : ∀ y, kInstr 37 g y none =
      some (.vgive g (kI y)) := fun _ => rfl
    refine (h ((kiBody 0 imm.toNat))).trans ?_
    simp)
theorem vclaim (g : KG) (imm : BitVec 16) : Statement (.vclaim g imm) :=
  roundTrip_k _ .k 38 g ((kiBody 0 imm.toNat)) none rfl (by decide) (.inl rfl) (by
    have h : ∀ y, kInstr 38 g y none =
      some (.vclaim g (kI y)) := fun _ => rfl
    refine (h ((kiBody 0 imm.toNat))).trans ?_
    simp)
theorem trap (g : KG) (imm : BitVec 16) : Statement (.trap g imm) :=
  roundTrip_k _ .k 39 g ((kiBody 0 imm.toNat)) none rfl (by decide) (.inl rfl) (by
    have h : ∀ y, kInstr 39 g y none =
      some (.trap g (kI y)) := fun _ => rfl
    refine (h ((kiBody 0 imm.toNat))).trans ?_
    simp)
theorem bkpt (g : KG) (imm : BitVec 16) : Statement (.bkpt g imm) :=
  roundTrip_k _ .k 42 g ((kiBody 0 imm.toNat)) none rfl (by decide) (.inl rfl) (by
    have h : ∀ y, kInstr 42 g y none =
      some (.bkpt g (kI y)) := fun _ => rfl
    refine (h ((kiBody 0 imm.toNat))).trans ?_
    simp)
theorem rft  : Statement .rft :=
  roundTrip_k _ .k 40 always ((kBody 0 0 0 0)) none rfl (by decide) (.inl rfl) (by
    rfl)
theorem parkWait  : Statement .parkWait :=
  roundTrip_k _ .k 41 always ((kBody 0 0 0 0)) none rfl (by decide) (.inl rfl) (by
    have h : ∀ y, kInstr 41 always y none =
      if (kF y).toNat == 0 then some (.parkWait) else if (kF y).toNat == 1 then some (.parkPreempt) else if (kF y).toNat == 2 then some (.parkEnd) else none := fun _ => rfl
    refine (h ((kBody 0 0 0 0))).trans ?_
    simp)
theorem parkPreempt  : Statement .parkPreempt :=
  roundTrip_k _ .k 41 always ((kBody 0 0 0 1)) none rfl (by decide) (.inl rfl) (by
    have h : ∀ y, kInstr 41 always y none =
      if (kF y).toNat == 0 then some (.parkWait) else if (kF y).toNat == 1 then some (.parkPreempt) else if (kF y).toNat == 2 then some (.parkEnd) else none := fun _ => rfl
    refine (h ((kBody 0 0 0 1))).trans ?_
    simp)
theorem parkEnd  : Statement .parkEnd :=
  roundTrip_k _ .k 41 always ((kBody 0 0 0 2)) none rfl (by decide) (.inl rfl) (by
    have h : ∀ y, kInstr 41 always y none =
      if (kF y).toNat == 0 then some (.parkWait) else if (kF y).toNat == 1 then some (.parkPreempt) else if (kF y).toNat == 2 then some (.parkEnd) else none := fun _ => rfl
    refine (h ((kBody 0 0 0 2))).trans ?_
    simp)
theorem leave (g : KG) : Statement (.leave g) :=
  roundTrip_k _ .k 43 g ((kBody 0 0 0 0)) none rfl (by decide) (.inl rfl) (by
    rfl)
theorem leavr (g : KG) : Statement (.leavr g) :=
  roundTrip_k _ .k 44 g ((kBody 0 0 0 0)) none rfl (by decide) (.inl rfl) (by
    rfl)
theorem fgmark (g : KG) (a : BitVec 6) : Statement (.fgmark g a) :=
  roundTrip_k _ .k 45 g ((kBody 0 a.toNat 0 0)) none rfl (by decide) (.inl rfl) (by
    have h : ∀ y, kInstr 45 g y none =
      some (.fgmark g (kA y)) := fun _ => rfl
    refine (h ((kBody 0 a.toNat 0 0))).trans ?_
    simp)
theorem fgplan (g : KG) (d : BitVec 6) : Statement (.fgplan g d) :=
  roundTrip_k _ .k 46 g ((kBody d.toNat 0 0 0)) none rfl (by decide) (.inl rfl) (by
    have h : ∀ y, kInstr 46 g y none =
      some (.fgplan g (kD y)) := fun _ => rfl
    refine (h ((kBody d.toNat 0 0 0))).trans ?_
    simp)
theorem mcfg (g : KG) (level : BitVec 3) (a b : BitVec 6) : Statement (.mcfg g level a b) :=
  roundTrip_k _ .x 0 g ((kBody 0 a.toNat b.toNat level.toNat)) none rfl (by decide) (.inr (.inl rfl)) (by
    have h : ∀ y, xInstr 0 g y none =
      if (kF y).toNat < 8 then some (.mcfg g ((kF y).setWidth 3) (kA y) (kB y)) else if 8 ≤ (kF y).toNat then some (.mcfgAct g ((kF y).setWidth 3) (kA y) (kB y)) else none := fun _ => rfl
    refine (h ((kBody 0 a.toNat b.toNat level.toNat))).trans ?_
    rw [kF_kBody _ _ _ _ (lt16 level (by decide)), if_pos (level_lt8 level)]; simp)
theorem mcfgAct (g : KG) (level : BitVec 3) (a b : BitVec 6) : Statement (.mcfgAct g level a b) :=
  roundTrip_k _ .x 0 g ((kBody 0 a.toNat b.toNat (8 + level.toNat))) none rfl (by decide) (.inr (.inl rfl)) (by
    have h : ∀ y, xInstr 0 g y none =
      if (kF y).toNat < 8 then some (.mcfg g ((kF y).setWidth 3) (kA y) (kB y)) else if 8 ≤ (kF y).toNat then some (.mcfgAct g ((kF y).setWidth 3) (kA y) (kB y)) else none := fun _ => rfl
    refine (h ((kBody 0 a.toNat b.toNat (8 + level.toNat)))).trans ?_
    rw [kF_kBody _ _ _ _ (level_lt level), kA_kBody _ _ _ _ (lt64 a (by decide)) (lt64 b (by decide)) (level_lt level),
      kB_kBody _ _ _ _ (lt64 b (by decide)) (level_lt level), level_toNat, level_narrow]
    simp)
theorem mnest (g : KG) : Statement (.mnest g) :=
  roundTrip_k _ .x 1 g ((kBody 0 0 0 0)) none rfl (by decide) (.inr (.inl rfl)) (by
    rfl)
theorem mma (g : KG) (a b : BitVec 6) : Statement (.mma g a b) :=
  roundTrip_k _ .x 2 g ((kBody 0 a.toNat b.toNat 0)) none rfl (by decide) (.inr (.inl rfl)) (by
    have h : ∀ y, xInstr 2 g y none =
      if (kF y).toNat == 0 then some (.mma g (kA y) (kB y)) else if (kF y).toNat == 1 then some (.mmaOvw g (kA y) (kB y)) else none := fun _ => rfl
    refine (h ((kBody 0 a.toNat b.toNat 0))).trans ?_
    simp)
theorem mmaOvw (g : KG) (a b : BitVec 6) : Statement (.mmaOvw g a b) :=
  roundTrip_k _ .x 2 g ((kBody 0 a.toNat b.toNat 1)) none rfl (by decide) (.inr (.inl rfl)) (by
    have h : ∀ y, xInstr 2 g y none =
      if (kF y).toNat == 0 then some (.mma g (kA y) (kB y)) else if (kF y).toNat == 1 then some (.mmaOvw g (kA y) (kB y)) else none := fun _ => rfl
    refine (h ((kBody 0 a.toNat b.toNat 1))).trans ?_
    simp)
theorem mfmt (g : KG) (index : BitVec 4) (a : BitVec 6) : Statement (.mfmt g index a) :=
  roundTrip_k _ .x 3 g ((kBody 0 a.toNat 0 index.toNat)) none rfl (by decide) (.inr (.inl rfl)) (by
    have h : ∀ y, xInstr 3 g y none =
      some (.mfmt g (kF y) (kA y)) := fun _ => rfl
    refine (h ((kBody 0 a.toNat 0 index.toNat))).trans ?_
    simp)
theorem awin (g : KG) (a : BitVec 6) : Statement (.awin g a) :=
  roundTrip_k _ .x 4 g ((kBody 0 a.toNat 0 0)) none rfl (by decide) (.inr (.inl rfl)) (by
    have h : ∀ y, xInstr 4 g y none =
      some (.awin g (kA y)) := fun _ => rfl
    refine (h ((kBody 0 a.toNat 0 0))).trans ?_
    simp)
theorem aclr (g : KG) (a : BitVec 6) : Statement (.aclr g a) :=
  roundTrip_k _ .x 5 g ((kBody 0 a.toNat 0 0)) none rfl (by decide) (.inr (.inl rfl)) (by
    have h : ∀ y, xInstr 5 g y none =
      some (.aclr g (kA y)) := fun _ => rfl
    refine (h ((kBody 0 a.toNat 0 0))).trans ?_
    simp)
theorem aepi (g : KG) (d a b : BitVec 6) (off : BitVec 16) (sp sc : BitVec 3) : Statement (.aepi g d a b off sp sc) :=
  roundTrip_k _ .x 6 g ((kBody d.toNat a.toNat b.toNat 0)) (some (BitVec.ofNat 32 (off.toNat + 65536 * sp.toNat + 524288 * sc.toNat))) rfl (by decide) (.inr (.inl rfl)) (by
    have h : ∀ y, xInstr 6 g y (some (BitVec.ofNat 32 (off.toNat + 65536 * sp.toNat + 524288 * sc.toNat))) =
      some (.aepi g (kD y) (kA y) (kB y) ((BitVec.ofNat 32 (off.toNat + 65536 * sp.toNat + 524288 * sc.toNat)).setWidth 16) ((BitVec.ofNat 32 (off.toNat + 65536 * sp.toNat + 524288 * sc.toNat)).extractLsb' 16 3) ((BitVec.ofNat 32 (off.toNat + 65536 * sp.toNat + 524288 * sc.toNat)).extractLsb' 19 3)) := fun _ => rfl
    refine (h ((kBody d.toNat a.toNat b.toNat 0))).trans ?_
    rw [aepi_off, aepi_sp, aepi_sc]; simp)
theorem ald (g : KG) (d a : BitVec 6) : Statement (.ald g d a) :=
  roundTrip_k _ .x 7 g ((kBody d.toNat a.toNat 0 0)) none rfl (by decide) (.inr (.inl rfl)) (by
    have h : ∀ y, xInstr 7 g y none =
      some (.ald g (kD y) (kA y)) := fun _ => rfl
    refine (h ((kBody d.toNat a.toNat 0 0))).trans ?_
    simp)
theorem ast (g : KG) (d a : BitVec 6) : Statement (.ast g d a) :=
  roundTrip_k _ .x 8 g ((kBody d.toNat a.toNat 0 0)) none rfl (by decide) (.inr (.inl rfl)) (by
    have h : ∀ y, xInstr 8 g y none =
      some (.ast g (kD y) (kA y)) := fun _ => rfl
    refine (h ((kBody d.toNat a.toNat 0 0))).trans ?_
    simp)
theorem mstatStat (g : KG) (d a : BitVec 6) : Statement (.mstatStat g d a) :=
  roundTrip_k _ .x 9 g ((kBody d.toNat a.toNat 0 0)) none rfl (by decide) (.inr (.inl rfl)) (by
    have h : ∀ y, xInstr 9 g y none =
      if (kF y).toNat == 0 then some (.mstatStat g (kD y) (kA y)) else if (kF y).toNat == 1 then some (.mstatWait g (kD y) (kA y)) else if (kF y).toNat == 2 then some (.mstatOvf g (kD y) (kA y)) else if (kF y).toNat == 3 then some (.mstatOvfc g (kD y) (kA y)) else if (kF y).toNat == 4 then some (.mstatFerr g (kD y) (kA y)) else if (kF y).toNat == 5 then some (.mstatFerrc g (kD y) (kA y)) else if (kF y).toNat == 6 then some (.mstatNest g (kD y) (kA y)) else if (kF y).toNat == 7 then some (.mstatNests g (kD y) (kA y)) else if (kF y).toNat == 8 then some (.mstatFmt g (kD y) (kA y)) else none := fun _ => rfl
    refine (h ((kBody d.toNat a.toNat 0 0))).trans ?_
    simp)
theorem mstatWait (g : KG) (d a : BitVec 6) : Statement (.mstatWait g d a) :=
  roundTrip_k _ .x 9 g ((kBody d.toNat a.toNat 0 1)) none rfl (by decide) (.inr (.inl rfl)) (by
    have h : ∀ y, xInstr 9 g y none =
      if (kF y).toNat == 0 then some (.mstatStat g (kD y) (kA y)) else if (kF y).toNat == 1 then some (.mstatWait g (kD y) (kA y)) else if (kF y).toNat == 2 then some (.mstatOvf g (kD y) (kA y)) else if (kF y).toNat == 3 then some (.mstatOvfc g (kD y) (kA y)) else if (kF y).toNat == 4 then some (.mstatFerr g (kD y) (kA y)) else if (kF y).toNat == 5 then some (.mstatFerrc g (kD y) (kA y)) else if (kF y).toNat == 6 then some (.mstatNest g (kD y) (kA y)) else if (kF y).toNat == 7 then some (.mstatNests g (kD y) (kA y)) else if (kF y).toNat == 8 then some (.mstatFmt g (kD y) (kA y)) else none := fun _ => rfl
    refine (h ((kBody d.toNat a.toNat 0 1))).trans ?_
    simp)
theorem mstatOvf (g : KG) (d a : BitVec 6) : Statement (.mstatOvf g d a) :=
  roundTrip_k _ .x 9 g ((kBody d.toNat a.toNat 0 2)) none rfl (by decide) (.inr (.inl rfl)) (by
    have h : ∀ y, xInstr 9 g y none =
      if (kF y).toNat == 0 then some (.mstatStat g (kD y) (kA y)) else if (kF y).toNat == 1 then some (.mstatWait g (kD y) (kA y)) else if (kF y).toNat == 2 then some (.mstatOvf g (kD y) (kA y)) else if (kF y).toNat == 3 then some (.mstatOvfc g (kD y) (kA y)) else if (kF y).toNat == 4 then some (.mstatFerr g (kD y) (kA y)) else if (kF y).toNat == 5 then some (.mstatFerrc g (kD y) (kA y)) else if (kF y).toNat == 6 then some (.mstatNest g (kD y) (kA y)) else if (kF y).toNat == 7 then some (.mstatNests g (kD y) (kA y)) else if (kF y).toNat == 8 then some (.mstatFmt g (kD y) (kA y)) else none := fun _ => rfl
    refine (h ((kBody d.toNat a.toNat 0 2))).trans ?_
    simp)
theorem mstatOvfc (g : KG) (d a : BitVec 6) : Statement (.mstatOvfc g d a) :=
  roundTrip_k _ .x 9 g ((kBody d.toNat a.toNat 0 3)) none rfl (by decide) (.inr (.inl rfl)) (by
    have h : ∀ y, xInstr 9 g y none =
      if (kF y).toNat == 0 then some (.mstatStat g (kD y) (kA y)) else if (kF y).toNat == 1 then some (.mstatWait g (kD y) (kA y)) else if (kF y).toNat == 2 then some (.mstatOvf g (kD y) (kA y)) else if (kF y).toNat == 3 then some (.mstatOvfc g (kD y) (kA y)) else if (kF y).toNat == 4 then some (.mstatFerr g (kD y) (kA y)) else if (kF y).toNat == 5 then some (.mstatFerrc g (kD y) (kA y)) else if (kF y).toNat == 6 then some (.mstatNest g (kD y) (kA y)) else if (kF y).toNat == 7 then some (.mstatNests g (kD y) (kA y)) else if (kF y).toNat == 8 then some (.mstatFmt g (kD y) (kA y)) else none := fun _ => rfl
    refine (h ((kBody d.toNat a.toNat 0 3))).trans ?_
    simp)
theorem mstatFerr (g : KG) (d a : BitVec 6) : Statement (.mstatFerr g d a) :=
  roundTrip_k _ .x 9 g ((kBody d.toNat a.toNat 0 4)) none rfl (by decide) (.inr (.inl rfl)) (by
    have h : ∀ y, xInstr 9 g y none =
      if (kF y).toNat == 0 then some (.mstatStat g (kD y) (kA y)) else if (kF y).toNat == 1 then some (.mstatWait g (kD y) (kA y)) else if (kF y).toNat == 2 then some (.mstatOvf g (kD y) (kA y)) else if (kF y).toNat == 3 then some (.mstatOvfc g (kD y) (kA y)) else if (kF y).toNat == 4 then some (.mstatFerr g (kD y) (kA y)) else if (kF y).toNat == 5 then some (.mstatFerrc g (kD y) (kA y)) else if (kF y).toNat == 6 then some (.mstatNest g (kD y) (kA y)) else if (kF y).toNat == 7 then some (.mstatNests g (kD y) (kA y)) else if (kF y).toNat == 8 then some (.mstatFmt g (kD y) (kA y)) else none := fun _ => rfl
    refine (h ((kBody d.toNat a.toNat 0 4))).trans ?_
    simp)
theorem mstatFerrc (g : KG) (d a : BitVec 6) : Statement (.mstatFerrc g d a) :=
  roundTrip_k _ .x 9 g ((kBody d.toNat a.toNat 0 5)) none rfl (by decide) (.inr (.inl rfl)) (by
    have h : ∀ y, xInstr 9 g y none =
      if (kF y).toNat == 0 then some (.mstatStat g (kD y) (kA y)) else if (kF y).toNat == 1 then some (.mstatWait g (kD y) (kA y)) else if (kF y).toNat == 2 then some (.mstatOvf g (kD y) (kA y)) else if (kF y).toNat == 3 then some (.mstatOvfc g (kD y) (kA y)) else if (kF y).toNat == 4 then some (.mstatFerr g (kD y) (kA y)) else if (kF y).toNat == 5 then some (.mstatFerrc g (kD y) (kA y)) else if (kF y).toNat == 6 then some (.mstatNest g (kD y) (kA y)) else if (kF y).toNat == 7 then some (.mstatNests g (kD y) (kA y)) else if (kF y).toNat == 8 then some (.mstatFmt g (kD y) (kA y)) else none := fun _ => rfl
    refine (h ((kBody d.toNat a.toNat 0 5))).trans ?_
    simp)
theorem mstatNest (g : KG) (d a : BitVec 6) : Statement (.mstatNest g d a) :=
  roundTrip_k _ .x 9 g ((kBody d.toNat a.toNat 0 6)) none rfl (by decide) (.inr (.inl rfl)) (by
    have h : ∀ y, xInstr 9 g y none =
      if (kF y).toNat == 0 then some (.mstatStat g (kD y) (kA y)) else if (kF y).toNat == 1 then some (.mstatWait g (kD y) (kA y)) else if (kF y).toNat == 2 then some (.mstatOvf g (kD y) (kA y)) else if (kF y).toNat == 3 then some (.mstatOvfc g (kD y) (kA y)) else if (kF y).toNat == 4 then some (.mstatFerr g (kD y) (kA y)) else if (kF y).toNat == 5 then some (.mstatFerrc g (kD y) (kA y)) else if (kF y).toNat == 6 then some (.mstatNest g (kD y) (kA y)) else if (kF y).toNat == 7 then some (.mstatNests g (kD y) (kA y)) else if (kF y).toNat == 8 then some (.mstatFmt g (kD y) (kA y)) else none := fun _ => rfl
    refine (h ((kBody d.toNat a.toNat 0 6))).trans ?_
    simp)
theorem mstatNests (g : KG) (d a : BitVec 6) : Statement (.mstatNests g d a) :=
  roundTrip_k _ .x 9 g ((kBody d.toNat a.toNat 0 7)) none rfl (by decide) (.inr (.inl rfl)) (by
    have h : ∀ y, xInstr 9 g y none =
      if (kF y).toNat == 0 then some (.mstatStat g (kD y) (kA y)) else if (kF y).toNat == 1 then some (.mstatWait g (kD y) (kA y)) else if (kF y).toNat == 2 then some (.mstatOvf g (kD y) (kA y)) else if (kF y).toNat == 3 then some (.mstatOvfc g (kD y) (kA y)) else if (kF y).toNat == 4 then some (.mstatFerr g (kD y) (kA y)) else if (kF y).toNat == 5 then some (.mstatFerrc g (kD y) (kA y)) else if (kF y).toNat == 6 then some (.mstatNest g (kD y) (kA y)) else if (kF y).toNat == 7 then some (.mstatNests g (kD y) (kA y)) else if (kF y).toNat == 8 then some (.mstatFmt g (kD y) (kA y)) else none := fun _ => rfl
    refine (h ((kBody d.toNat a.toNat 0 7))).trans ?_
    simp)
theorem mstatFmt (g : KG) (d a : BitVec 6) : Statement (.mstatFmt g d a) :=
  roundTrip_k _ .x 9 g ((kBody d.toNat a.toNat 0 8)) none rfl (by decide) (.inr (.inl rfl)) (by
    have h : ∀ y, xInstr 9 g y none =
      if (kF y).toNat == 0 then some (.mstatStat g (kD y) (kA y)) else if (kF y).toNat == 1 then some (.mstatWait g (kD y) (kA y)) else if (kF y).toNat == 2 then some (.mstatOvf g (kD y) (kA y)) else if (kF y).toNat == 3 then some (.mstatOvfc g (kD y) (kA y)) else if (kF y).toNat == 4 then some (.mstatFerr g (kD y) (kA y)) else if (kF y).toNat == 5 then some (.mstatFerrc g (kD y) (kA y)) else if (kF y).toNat == 6 then some (.mstatNest g (kD y) (kA y)) else if (kF y).toNat == 7 then some (.mstatNests g (kD y) (kA y)) else if (kF y).toNat == 8 then some (.mstatFmt g (kD y) (kA y)) else none := fun _ => rfl
    refine (h ((kBody d.toNat a.toNat 0 8))).trans ?_
    simp)
theorem mstop (g : KG) : Statement (.mstop g) :=
  roundTrip_k _ .x 10 g ((kBody 0 0 0 0)) none rfl (by decide) (.inr (.inl rfl)) (by
    rfl)
theorem dclaim (g : KG) : Statement (.dclaim g) :=
  roundTrip_k _ .d 0 g ((kBody 0 0 0 0)) none rfl (by decide) (.inr (.inr rfl)) (by
    have h : ∀ y, dInstr 0 g y none =
      if (kF y).toNat == 0 then some (.dclaim g) else if (kF y).toNat == 1 then some (.dclaimTry g ((kD y).setWidth 3)) else none := fun _ => rfl
    refine (h ((kBody 0 0 0 0))).trans ?_
    simp)
theorem dclaimTry (g : KG) (q : BitVec 3) : Statement (.dclaimTry g q) :=
  roundTrip_k _ .d 0 g ((kBody q.toNat 0 0 1)) none rfl (by decide) (.inr (.inr rfl)) (by
    have h : ∀ y, dInstr 0 g y none =
      if (kF y).toNat == 0 then some (.dclaim g) else if (kF y).toNat == 1 then some (.dclaimTry g ((kD y).setWidth 3)) else none := fun _ => rfl
    refine (h ((kBody q.toNat 0 0 1))).trans ?_
    simp)
theorem dfree (g : KG) : Statement (.dfree g) :=
  roundTrip_k _ .d 1 g ((kBody 0 0 0 0)) none rfl (by decide) (.inr (.inr rfl)) (by
    rfl)
theorem dpatch (g : KG) (a b : BitVec 6) : Statement (.dpatch g a b) :=
  roundTrip_k _ .d 2 g ((kBody 0 a.toNat b.toNat 0)) none rfl (by decide) (.inr (.inr rfl)) (by
    have h : ∀ y, dInstr 2 g y none =
      some (.dpatch g (kA y) (kB y)) := fun _ => rfl
    refine (h ((kBody 0 a.toNat b.toNat 0))).trans ?_
    simp)
theorem dinit (g : KG) (d a b : BitVec 6) : Statement (.dinit g d a b) :=
  roundTrip_k _ .d 3 g ((kBody d.toNat a.toNat b.toNat 0)) none rfl (by decide) (.inr (.inr rfl)) (by
    have h : ∀ y, dInstr 3 g y none =
      some (.dinit g (kD y) (kA y) (kB y)) := fun _ => rfl
    refine (h ((kBody d.toNat a.toNat b.toNat 0))).trans ?_
    simp)
theorem dsave (g : KG) (d a : BitVec 6) : Statement (.dsave g d a) :=
  roundTrip_k _ .d 4 g ((kBody d.toNat a.toNat 0 0)) none rfl (by decide) (.inr (.inr rfl)) (by
    have h : ∀ y, dInstr 4 g y none =
      if (kF y).toNat == 0 then some (.dsave g (kD y) (kA y)) else if (kF y).toNat == 1 then some (.dsaveTq g (kD y)) else none := fun _ => rfl
    refine (h ((kBody d.toNat a.toNat 0 0))).trans ?_
    simp)
theorem dsaveTq (g : KG) (d : BitVec 6) : Statement (.dsaveTq g d) :=
  roundTrip_k _ .d 4 g ((kBody d.toNat 0 0 1)) none rfl (by decide) (.inr (.inr rfl)) (by
    have h : ∀ y, dInstr 4 g y none =
      if (kF y).toNat == 0 then some (.dsave g (kD y) (kA y)) else if (kF y).toNat == 1 then some (.dsaveTq g (kD y)) else none := fun _ => rfl
    refine (h ((kBody d.toNat 0 0 1))).trans ?_
    simp)
theorem drest (g : KG) (d : BitVec 6) : Statement (.drest g d) :=
  roundTrip_k _ .d 5 g ((kBody d.toNat 0 0 0)) none rfl (by decide) (.inr (.inr rfl)) (by
    have h : ∀ y, dInstr 5 g y none =
      if (kF y).toNat == 0 then some (.drest g (kD y)) else if (kF y).toNat == 1 then some (.drestTq g (kD y)) else none := fun _ => rfl
    refine (h ((kBody d.toNat 0 0 0))).trans ?_
    simp)
theorem drestTq (g : KG) (d : BitVec 6) : Statement (.drestTq g d) :=
  roundTrip_k _ .d 5 g ((kBody d.toNat 0 0 1)) none rfl (by decide) (.inr (.inr rfl)) (by
    have h : ∀ y, dInstr 5 g y none =
      if (kF y).toNat == 0 then some (.drest g (kD y)) else if (kF y).toNat == 1 then some (.drestTq g (kD y)) else none := fun _ => rfl
    refine (h ((kBody d.toNat 0 0 1))).trans ?_
    simp)
theorem dclk (g : KG) (dom : BitVec 2) (a : BitVec 6) : Statement (.dclk g dom a) :=
  roundTrip_k _ .d 6 g ((kBody 0 a.toNat 0 dom.toNat)) none rfl (by decide) (.inr (.inr rfl)) (by
    have h : ∀ y, dInstr 6 g y none =
      some (.dclk g ((kF y).setWidth 2) (kA y)) := fun _ => rfl
    refine (h ((kBody 0 a.toNat 0 dom.toNat))).trans ?_
    simp)
theorem dstep (g : KG) (mask : BitVec 4) (a : BitVec 6) : Statement (.dstep g mask a) :=
  roundTrip_k _ .d 7 g ((kBody 0 a.toNat 0 mask.toNat)) none rfl (by decide) (.inr (.inr rfl)) (by
    have h : ∀ y, dInstr 7 g y none =
      some (.dstep g (kF y) (kA y)) := fun _ => rfl
    refine (h ((kBody 0 a.toNat 0 mask.toNat))).trans ?_
    simp)
theorem dstep64 (g : KG) (mask : BitVec 4) (imm : BitVec 32) : Statement (.dstep64 g mask imm) :=
  roundTrip_k _ .d 7 g ((kBody 0 0 0 mask.toNat)) (some imm) rfl (by decide) (.inr (.inr rfl)) (by
    have h : ∀ y, dInstr 7 g y (some imm) =
      some (.dstep64 g (kF y) imm) := fun _ => rfl
    refine (h ((kBody 0 0 0 mask.toNat))).trans ?_
    simp)
theorem drun (g : KG) (mask : BitVec 4) (a : BitVec 6) : Statement (.drun g mask a) :=
  roundTrip_k _ .d 8 g ((kBody 0 a.toNat 0 mask.toNat)) none rfl (by decide) (.inr (.inr rfl)) (by
    have h : ∀ y, dInstr 8 g y none =
      some (.drun g (kF y) (kA y)) := fun _ => rfl
    refine (h ((kBody 0 a.toNat 0 mask.toNat))).trans ?_
    simp)
theorem drun64 (g : KG) (mask : BitVec 4) (imm : BitVec 32) : Statement (.drun64 g mask imm) :=
  roundTrip_k _ .d 8 g ((kBody 0 0 0 mask.toNat)) (some imm) rfl (by decide) (.inr (.inr rfl)) (by
    have h : ∀ y, dInstr 8 g y (some imm) =
      some (.drun64 g (kF y) imm) := fun _ => rfl
    refine (h ((kBody 0 0 0 mask.toNat))).trans ?_
    simp)
theorem dhalt (g : KG) (mask : BitVec 4) : Statement (.dhalt g mask) :=
  roundTrip_k _ .d 9 g ((kBody 0 0 0 mask.toNat)) none rfl (by decide) (.inr (.inr rfl)) (by
    have h : ∀ y, dInstr 9 g y none =
      some (.dhalt g (kF y)) := fun _ => rfl
    refine (h ((kBody 0 0 0 mask.toNat))).trans ?_
    simp)
theorem dtap (g : KG) (tap : BitVec 4) (a : BitVec 6) : Statement (.dtap g tap a) :=
  roundTrip_k _ .d 10 g ((kBody 0 a.toNat 0 tap.toNat)) none rfl (by decide) (.inr (.inr rfl)) (by
    have h : ∀ y, dInstr 10 g y none =
      some (.dtap g (kF y) (kA y)) := fun _ => rfl
    refine (h ((kBody 0 a.toNat 0 tap.toNat))).trans ?_
    simp)
theorem drdY (g : KG) (d a : BitVec 6) : Statement (.drdY g d a) :=
  roundTrip_k _ .d 11 g ((kBody d.toNat a.toNat 0 0)) none rfl (by decide) (.inr (.inr rfl)) (by
    have h : ∀ y, dInstr 11 g y none =
      if (kF y).toNat == 0 then some (.drdY g (kD y) (kA y)) else if (kF y).toNat == 1 then some (.drdR g (kD y) (kA y)) else if (kF y).toNat == 2 then some (.drdPatch g (kD y) (kA y)) else if (kF y).toNat == 3 then some (.drdDz g (kD y) (kA y)) else if (kF y).toNat == 4 then some (.drdTapc g (kD y) (kA y)) else if (kF y).toNat == 5 then some (.drdTapn g (kD y) (kA y)) else if (kF y).toNat == 6 then some (.drdPort g (kD y) (kA y)) else none := fun _ => rfl
    refine (h ((kBody d.toNat a.toNat 0 0))).trans ?_
    simp)
theorem drdR (g : KG) (d a : BitVec 6) : Statement (.drdR g d a) :=
  roundTrip_k _ .d 11 g ((kBody d.toNat a.toNat 0 1)) none rfl (by decide) (.inr (.inr rfl)) (by
    have h : ∀ y, dInstr 11 g y none =
      if (kF y).toNat == 0 then some (.drdY g (kD y) (kA y)) else if (kF y).toNat == 1 then some (.drdR g (kD y) (kA y)) else if (kF y).toNat == 2 then some (.drdPatch g (kD y) (kA y)) else if (kF y).toNat == 3 then some (.drdDz g (kD y) (kA y)) else if (kF y).toNat == 4 then some (.drdTapc g (kD y) (kA y)) else if (kF y).toNat == 5 then some (.drdTapn g (kD y) (kA y)) else if (kF y).toNat == 6 then some (.drdPort g (kD y) (kA y)) else none := fun _ => rfl
    refine (h ((kBody d.toNat a.toNat 0 1))).trans ?_
    simp)
theorem drdPatch (g : KG) (d a : BitVec 6) : Statement (.drdPatch g d a) :=
  roundTrip_k _ .d 11 g ((kBody d.toNat a.toNat 0 2)) none rfl (by decide) (.inr (.inr rfl)) (by
    have h : ∀ y, dInstr 11 g y none =
      if (kF y).toNat == 0 then some (.drdY g (kD y) (kA y)) else if (kF y).toNat == 1 then some (.drdR g (kD y) (kA y)) else if (kF y).toNat == 2 then some (.drdPatch g (kD y) (kA y)) else if (kF y).toNat == 3 then some (.drdDz g (kD y) (kA y)) else if (kF y).toNat == 4 then some (.drdTapc g (kD y) (kA y)) else if (kF y).toNat == 5 then some (.drdTapn g (kD y) (kA y)) else if (kF y).toNat == 6 then some (.drdPort g (kD y) (kA y)) else none := fun _ => rfl
    refine (h ((kBody d.toNat a.toNat 0 2))).trans ?_
    simp)
theorem drdDz (g : KG) (d a : BitVec 6) : Statement (.drdDz g d a) :=
  roundTrip_k _ .d 11 g ((kBody d.toNat a.toNat 0 3)) none rfl (by decide) (.inr (.inr rfl)) (by
    have h : ∀ y, dInstr 11 g y none =
      if (kF y).toNat == 0 then some (.drdY g (kD y) (kA y)) else if (kF y).toNat == 1 then some (.drdR g (kD y) (kA y)) else if (kF y).toNat == 2 then some (.drdPatch g (kD y) (kA y)) else if (kF y).toNat == 3 then some (.drdDz g (kD y) (kA y)) else if (kF y).toNat == 4 then some (.drdTapc g (kD y) (kA y)) else if (kF y).toNat == 5 then some (.drdTapn g (kD y) (kA y)) else if (kF y).toNat == 6 then some (.drdPort g (kD y) (kA y)) else none := fun _ => rfl
    refine (h ((kBody d.toNat a.toNat 0 3))).trans ?_
    simp)
theorem drdTapc (g : KG) (d a : BitVec 6) : Statement (.drdTapc g d a) :=
  roundTrip_k _ .d 11 g ((kBody d.toNat a.toNat 0 4)) none rfl (by decide) (.inr (.inr rfl)) (by
    have h : ∀ y, dInstr 11 g y none =
      if (kF y).toNat == 0 then some (.drdY g (kD y) (kA y)) else if (kF y).toNat == 1 then some (.drdR g (kD y) (kA y)) else if (kF y).toNat == 2 then some (.drdPatch g (kD y) (kA y)) else if (kF y).toNat == 3 then some (.drdDz g (kD y) (kA y)) else if (kF y).toNat == 4 then some (.drdTapc g (kD y) (kA y)) else if (kF y).toNat == 5 then some (.drdTapn g (kD y) (kA y)) else if (kF y).toNat == 6 then some (.drdPort g (kD y) (kA y)) else none := fun _ => rfl
    refine (h ((kBody d.toNat a.toNat 0 4))).trans ?_
    simp)
theorem drdTapn (g : KG) (d a : BitVec 6) : Statement (.drdTapn g d a) :=
  roundTrip_k _ .d 11 g ((kBody d.toNat a.toNat 0 5)) none rfl (by decide) (.inr (.inr rfl)) (by
    have h : ∀ y, dInstr 11 g y none =
      if (kF y).toNat == 0 then some (.drdY g (kD y) (kA y)) else if (kF y).toNat == 1 then some (.drdR g (kD y) (kA y)) else if (kF y).toNat == 2 then some (.drdPatch g (kD y) (kA y)) else if (kF y).toNat == 3 then some (.drdDz g (kD y) (kA y)) else if (kF y).toNat == 4 then some (.drdTapc g (kD y) (kA y)) else if (kF y).toNat == 5 then some (.drdTapn g (kD y) (kA y)) else if (kF y).toNat == 6 then some (.drdPort g (kD y) (kA y)) else none := fun _ => rfl
    refine (h ((kBody d.toNat a.toNat 0 5))).trans ?_
    simp)
theorem drdPort (g : KG) (d a : BitVec 6) : Statement (.drdPort g d a) :=
  roundTrip_k _ .d 11 g ((kBody d.toNat a.toNat 0 6)) none rfl (by decide) (.inr (.inr rfl)) (by
    have h : ∀ y, dInstr 11 g y none =
      if (kF y).toNat == 0 then some (.drdY g (kD y) (kA y)) else if (kF y).toNat == 1 then some (.drdR g (kD y) (kA y)) else if (kF y).toNat == 2 then some (.drdPatch g (kD y) (kA y)) else if (kF y).toNat == 3 then some (.drdDz g (kD y) (kA y)) else if (kF y).toNat == 4 then some (.drdTapc g (kD y) (kA y)) else if (kF y).toNat == 5 then some (.drdTapn g (kD y) (kA y)) else if (kF y).toNat == 6 then some (.drdPort g (kD y) (kA y)) else none := fun _ => rfl
    refine (h ((kBody d.toNat a.toNat 0 6))).trans ?_
    simp)
theorem dwrY (g : KG) (a b : BitVec 6) : Statement (.dwrY g a b) :=
  roundTrip_k _ .d 12 g ((kBody 0 a.toNat b.toNat 0)) none rfl (by decide) (.inr (.inr rfl)) (by
    have h : ∀ y, dInstr 12 g y none =
      if (kF y).toNat == 0 then some (.dwrY g (kA y) (kB y)) else if (kF y).toNat == 1 then some (.dwrR g (kA y) (kB y)) else if (kF y).toNat == 2 then some (.dwrPort g (kA y) (kB y)) else if (kF y).toNat == 3 then some (.dwrPcfg g (kA y) (kB y)) else if (kF y).toNat == 4 then some (.dwrTapc g (kA y) (kB y)) else none := fun _ => rfl
    refine (h ((kBody 0 a.toNat b.toNat 0))).trans ?_
    simp)
theorem dwrR (g : KG) (a b : BitVec 6) : Statement (.dwrR g a b) :=
  roundTrip_k _ .d 12 g ((kBody 0 a.toNat b.toNat 1)) none rfl (by decide) (.inr (.inr rfl)) (by
    have h : ∀ y, dInstr 12 g y none =
      if (kF y).toNat == 0 then some (.dwrY g (kA y) (kB y)) else if (kF y).toNat == 1 then some (.dwrR g (kA y) (kB y)) else if (kF y).toNat == 2 then some (.dwrPort g (kA y) (kB y)) else if (kF y).toNat == 3 then some (.dwrPcfg g (kA y) (kB y)) else if (kF y).toNat == 4 then some (.dwrTapc g (kA y) (kB y)) else none := fun _ => rfl
    refine (h ((kBody 0 a.toNat b.toNat 1))).trans ?_
    simp)
theorem dwrPort (g : KG) (a b : BitVec 6) : Statement (.dwrPort g a b) :=
  roundTrip_k _ .d 12 g ((kBody 0 a.toNat b.toNat 2)) none rfl (by decide) (.inr (.inr rfl)) (by
    have h : ∀ y, dInstr 12 g y none =
      if (kF y).toNat == 0 then some (.dwrY g (kA y) (kB y)) else if (kF y).toNat == 1 then some (.dwrR g (kA y) (kB y)) else if (kF y).toNat == 2 then some (.dwrPort g (kA y) (kB y)) else if (kF y).toNat == 3 then some (.dwrPcfg g (kA y) (kB y)) else if (kF y).toNat == 4 then some (.dwrTapc g (kA y) (kB y)) else none := fun _ => rfl
    refine (h ((kBody 0 a.toNat b.toNat 2))).trans ?_
    simp)
theorem dwrPcfg (g : KG) (a b : BitVec 6) : Statement (.dwrPcfg g a b) :=
  roundTrip_k _ .d 12 g ((kBody 0 a.toNat b.toNat 3)) none rfl (by decide) (.inr (.inr rfl)) (by
    have h : ∀ y, dInstr 12 g y none =
      if (kF y).toNat == 0 then some (.dwrY g (kA y) (kB y)) else if (kF y).toNat == 1 then some (.dwrR g (kA y) (kB y)) else if (kF y).toNat == 2 then some (.dwrPort g (kA y) (kB y)) else if (kF y).toNat == 3 then some (.dwrPcfg g (kA y) (kB y)) else if (kF y).toNat == 4 then some (.dwrTapc g (kA y) (kB y)) else none := fun _ => rfl
    refine (h ((kBody 0 a.toNat b.toNat 3))).trans ?_
    simp)
theorem dwrTapc (g : KG) (a b : BitVec 6) : Statement (.dwrTapc g a b) :=
  roundTrip_k _ .d 12 g ((kBody 0 a.toNat b.toNat 4)) none rfl (by decide) (.inr (.inr rfl)) (by
    have h : ∀ y, dInstr 12 g y none =
      if (kF y).toNat == 0 then some (.dwrY g (kA y) (kB y)) else if (kF y).toNat == 1 then some (.dwrR g (kA y) (kB y)) else if (kF y).toNat == 2 then some (.dwrPort g (kA y) (kB y)) else if (kF y).toNat == 3 then some (.dwrPcfg g (kA y) (kB y)) else if (kF y).toNat == 4 then some (.dwrTapc g (kA y) (kB y)) else none := fun _ => rfl
    refine (h ((kBody 0 a.toNat b.toNat 4))).trans ?_
    simp)
theorem dstatStat (g : KG) (d : BitVec 6) : Statement (.dstatStat g d) :=
  roundTrip_k _ .d 13 g ((kBody d.toNat 0 0 0)) none rfl (by decide) (.inr (.inr rfl)) (by
    have h : ∀ y, dInstr 13 g y none =
      if (kF y).toNat == 0 then some (.dstatStat g (kD y)) else if (kF y).toNat == 1 then some (.dstatWait g (kD y)) else if (kF y).toNat == 2 then some (.dstatSteps g (kD y) (kA y)) else none := fun _ => rfl
    refine (h ((kBody d.toNat 0 0 0))).trans ?_
    simp)
theorem dstatWait (g : KG) (d : BitVec 6) : Statement (.dstatWait g d) :=
  roundTrip_k _ .d 13 g ((kBody d.toNat 0 0 1)) none rfl (by decide) (.inr (.inr rfl)) (by
    have h : ∀ y, dInstr 13 g y none =
      if (kF y).toNat == 0 then some (.dstatStat g (kD y)) else if (kF y).toNat == 1 then some (.dstatWait g (kD y)) else if (kF y).toNat == 2 then some (.dstatSteps g (kD y) (kA y)) else none := fun _ => rfl
    refine (h ((kBody d.toNat 0 0 1))).trans ?_
    simp)
theorem dstatSteps (g : KG) (d a : BitVec 6) : Statement (.dstatSteps g d a) :=
  roundTrip_k _ .d 13 g ((kBody d.toNat a.toNat 0 2)) none rfl (by decide) (.inr (.inr rfl)) (by
    have h : ∀ y, dInstr 13 g y none =
      if (kF y).toNat == 0 then some (.dstatStat g (kD y)) else if (kF y).toNat == 1 then some (.dstatWait g (kD y)) else if (kF y).toNat == 2 then some (.dstatSteps g (kD y) (kA y)) else none := fun _ => rfl
    refine (h ((kBody d.toNat a.toNat 0 2))).trans ?_
    simp)
theorem mov (f : VF) : Statement (.mov f) :=
  roundTrip_v _ .v _ _ none rfl (by decide) (.inl rfl) fun _ => rfl
theorem mov64 (f : VF) (x : VX) : Statement (.mov64 f x) :=
  roundTrip_v _ .v _ _ (some x) rfl (by decide) (.inl rfl) fun _ => rfl
theorem vadd (f : VF) : Statement (.vadd f) :=
  roundTrip_v _ .v _ _ none rfl (by decide) (.inl rfl) fun _ => rfl
theorem vadd64 (f : VF) (x : VX) : Statement (.vadd64 f x) :=
  roundTrip_v _ .v _ _ (some x) rfl (by decide) (.inl rfl) fun _ => rfl
theorem vsub (f : VF) : Statement (.vsub f) :=
  roundTrip_v _ .v _ _ none rfl (by decide) (.inl rfl) fun _ => rfl
theorem vsub64 (f : VF) (x : VX) : Statement (.vsub64 f x) :=
  roundTrip_v _ .v _ _ (some x) rfl (by decide) (.inl rfl) fun _ => rfl
theorem vmul (f : VF) : Statement (.vmul f) :=
  roundTrip_v _ .v _ _ none rfl (by decide) (.inl rfl) fun _ => rfl
theorem vmul64 (f : VF) (x : VX) : Statement (.vmul64 f x) :=
  roundTrip_v _ .v _ _ (some x) rfl (by decide) (.inl rfl) fun _ => rfl
theorem mulh (f : VF) : Statement (.mulh f) :=
  roundTrip_v _ .v _ _ none rfl (by decide) (.inl rfl) fun _ => rfl
theorem mulh64 (f : VF) (x : VX) : Statement (.mulh64 f x) :=
  roundTrip_v _ .v _ _ (some x) rfl (by decide) (.inl rfl) fun _ => rfl
theorem mad (f : VF) (x : VX) : Statement (.mad f x) :=
  roundTrip_v _ .v _ _ (some x) rfl (by decide) (.inl rfl) fun _ => rfl
theorem vand (f : VF) : Statement (.vand f) :=
  roundTrip_v _ .v _ _ none rfl (by decide) (.inl rfl) fun _ => rfl
theorem vand64 (f : VF) (x : VX) : Statement (.vand64 f x) :=
  roundTrip_v _ .v _ _ (some x) rfl (by decide) (.inl rfl) fun _ => rfl
theorem vor (f : VF) : Statement (.vor f) :=
  roundTrip_v _ .v _ _ none rfl (by decide) (.inl rfl) fun _ => rfl
theorem vor64 (f : VF) (x : VX) : Statement (.vor64 f x) :=
  roundTrip_v _ .v _ _ (some x) rfl (by decide) (.inl rfl) fun _ => rfl
theorem vxor (f : VF) : Statement (.vxor f) :=
  roundTrip_v _ .v _ _ none rfl (by decide) (.inl rfl) fun _ => rfl
theorem vxor64 (f : VF) (x : VX) : Statement (.vxor64 f x) :=
  roundTrip_v _ .v _ _ (some x) rfl (by decide) (.inl rfl) fun _ => rfl
theorem shl (f : VF) : Statement (.shl f) :=
  roundTrip_v _ .v _ _ none rfl (by decide) (.inl rfl) fun _ => rfl
theorem shl64 (f : VF) (x : VX) : Statement (.shl64 f x) :=
  roundTrip_v _ .v _ _ (some x) rfl (by decide) (.inl rfl) fun _ => rfl
theorem shr (f : VF) : Statement (.shr f) :=
  roundTrip_v _ .v _ _ none rfl (by decide) (.inl rfl) fun _ => rfl
theorem shr64 (f : VF) (x : VX) : Statement (.shr64 f x) :=
  roundTrip_v _ .v _ _ (some x) rfl (by decide) (.inl rfl) fun _ => rfl
theorem sra (f : VF) : Statement (.sra f) :=
  roundTrip_v _ .v _ _ none rfl (by decide) (.inl rfl) fun _ => rfl
theorem sra64 (f : VF) (x : VX) : Statement (.sra64 f x) :=
  roundTrip_v _ .v _ _ (some x) rfl (by decide) (.inl rfl) fun _ => rfl
theorem vmin (f : VF) : Statement (.vmin f) :=
  roundTrip_v _ .v _ _ none rfl (by decide) (.inl rfl) fun _ => rfl
theorem vmin64 (f : VF) (x : VX) : Statement (.vmin64 f x) :=
  roundTrip_v _ .v _ _ (some x) rfl (by decide) (.inl rfl) fun _ => rfl
theorem vmax (f : VF) : Statement (.vmax f) :=
  roundTrip_v _ .v _ _ none rfl (by decide) (.inl rfl) fun _ => rfl
theorem vmax64 (f : VF) (x : VX) : Statement (.vmax64 f x) :=
  roundTrip_v _ .v _ _ (some x) rfl (by decide) (.inl rfl) fun _ => rfl
theorem vabs (f : VF) : Statement (.vabs f) :=
  roundTrip_v _ .v _ _ none rfl (by decide) (.inl rfl) fun _ => rfl
theorem vabs64 (f : VF) (x : VX) : Statement (.vabs64 f x) :=
  roundTrip_v _ .v _ _ (some x) rfl (by decide) (.inl rfl) fun _ => rfl
theorem clz (f : VF) : Statement (.clz f) :=
  roundTrip_v _ .v _ _ none rfl (by decide) (.inl rfl) fun _ => rfl
theorem clz64 (f : VF) (x : VX) : Statement (.clz64 f x) :=
  roundTrip_v _ .v _ _ (some x) rfl (by decide) (.inl rfl) fun _ => rfl
theorem popc (f : VF) : Statement (.popc f) :=
  roundTrip_v _ .v _ _ none rfl (by decide) (.inl rfl) fun _ => rfl
theorem popc64 (f : VF) (x : VX) : Statement (.popc64 f x) :=
  roundTrip_v _ .v _ _ (some x) rfl (by decide) (.inl rfl) fun _ => rfl
theorem bfe (f : VF) : Statement (.bfe f) :=
  roundTrip_v _ .v _ _ none rfl (by decide) (.inl rfl) fun _ => rfl
theorem bfe64 (f : VF) (x : VX) : Statement (.bfe64 f x) :=
  roundTrip_v _ .v _ _ (some x) rfl (by decide) (.inl rfl) fun _ => rfl
theorem bfi (f : VF) (x : VX) : Statement (.bfi f x) :=
  roundTrip_v _ .v _ _ (some x) rfl (by decide) (.inl rfl) fun _ => rfl
theorem sel (f : VF) (x : VX) : Statement (.sel f x) :=
  roundTrip_v _ .v _ _ (some x) rfl (by decide) (.inl rfl) fun _ => rfl
theorem cmp (f : VF) : Statement (.cmp f) :=
  roundTrip_v _ .v _ _ none rfl (by decide) (.inl rfl) fun _ => rfl
theorem cmp64 (f : VF) (x : VX) : Statement (.cmp64 f x) :=
  roundTrip_v _ .v _ _ (some x) rfl (by decide) (.inl rfl) fun _ => rfl
theorem plog (f : VF) (x : VX) : Statement (.plog f x) :=
  roundTrip_v _ .v _ _ (some x) rfl (by decide) (.inl rfl) fun _ => rfl
theorem cvt (f : VF) (x : VX) : Statement (.cvt f x) :=
  roundTrip_v _ .v _ _ (some x) rfl (by decide) (.inl rfl) fun _ => rfl
theorem fadd (f : VF) : Statement (.fadd f) :=
  roundTrip_v _ .v _ _ none rfl (by decide) (.inl rfl) fun _ => rfl
theorem fadd64 (f : VF) (x : VX) : Statement (.fadd64 f x) :=
  roundTrip_v _ .v _ _ (some x) rfl (by decide) (.inl rfl) fun _ => rfl
theorem fsub (f : VF) : Statement (.fsub f) :=
  roundTrip_v _ .v _ _ none rfl (by decide) (.inl rfl) fun _ => rfl
theorem fsub64 (f : VF) (x : VX) : Statement (.fsub64 f x) :=
  roundTrip_v _ .v _ _ (some x) rfl (by decide) (.inl rfl) fun _ => rfl
theorem fmul (f : VF) : Statement (.fmul f) :=
  roundTrip_v _ .v _ _ none rfl (by decide) (.inl rfl) fun _ => rfl
theorem fmul64 (f : VF) (x : VX) : Statement (.fmul64 f x) :=
  roundTrip_v _ .v _ _ (some x) rfl (by decide) (.inl rfl) fun _ => rfl
theorem ffma (f : VF) (x : VX) : Statement (.ffma f x) :=
  roundTrip_v _ .v _ _ (some x) rfl (by decide) (.inl rfl) fun _ => rfl
theorem fmin (f : VF) : Statement (.fmin f) :=
  roundTrip_v _ .v _ _ none rfl (by decide) (.inl rfl) fun _ => rfl
theorem fmin64 (f : VF) (x : VX) : Statement (.fmin64 f x) :=
  roundTrip_v _ .v _ _ (some x) rfl (by decide) (.inl rfl) fun _ => rfl
theorem fmax (f : VF) : Statement (.fmax f) :=
  roundTrip_v _ .v _ _ none rfl (by decide) (.inl rfl) fun _ => rfl
theorem fmax64 (f : VF) (x : VX) : Statement (.fmax64 f x) :=
  roundTrip_v _ .v _ _ (some x) rfl (by decide) (.inl rfl) fun _ => rfl
theorem fcmp (f : VF) : Statement (.fcmp f) :=
  roundTrip_v _ .v _ _ none rfl (by decide) (.inl rfl) fun _ => rfl
theorem fcmp64 (f : VF) (x : VX) : Statement (.fcmp64 f x) :=
  roundTrip_v _ .v _ _ (some x) rfl (by decide) (.inl rfl) fun _ => rfl
theorem frcp (f : VF) : Statement (.frcp f) :=
  roundTrip_v _ .v _ _ none rfl (by decide) (.inl rfl) fun _ => rfl
theorem frcp64 (f : VF) (x : VX) : Statement (.frcp64 f x) :=
  roundTrip_v _ .v _ _ (some x) rfl (by decide) (.inl rfl) fun _ => rfl
theorem frsq (f : VF) : Statement (.frsq f) :=
  roundTrip_v _ .v _ _ none rfl (by decide) (.inl rfl) fun _ => rfl
theorem frsq64 (f : VF) (x : VX) : Statement (.frsq64 f x) :=
  roundTrip_v _ .v _ _ (some x) rfl (by decide) (.inl rfl) fun _ => rfl
theorem fsqrt (f : VF) : Statement (.fsqrt f) :=
  roundTrip_v _ .v _ _ none rfl (by decide) (.inl rfl) fun _ => rfl
theorem fsqrt64 (f : VF) (x : VX) : Statement (.fsqrt64 f x) :=
  roundTrip_v _ .v _ _ (some x) rfl (by decide) (.inl rfl) fun _ => rfl
theorem fexp2 (f : VF) : Statement (.fexp2 f) :=
  roundTrip_v _ .v _ _ none rfl (by decide) (.inl rfl) fun _ => rfl
theorem fexp264 (f : VF) (x : VX) : Statement (.fexp264 f x) :=
  roundTrip_v _ .v _ _ (some x) rfl (by decide) (.inl rfl) fun _ => rfl
theorem flog2 (f : VF) : Statement (.flog2 f) :=
  roundTrip_v _ .v _ _ none rfl (by decide) (.inl rfl) fun _ => rfl
theorem flog264 (f : VF) (x : VX) : Statement (.flog264 f x) :=
  roundTrip_v _ .v _ _ (some x) rfl (by decide) (.inl rfl) fun _ => rfl
theorem fsin (f : VF) : Statement (.fsin f) :=
  roundTrip_v _ .v _ _ none rfl (by decide) (.inl rfl) fun _ => rfl
theorem fsin64 (f : VF) (x : VX) : Statement (.fsin64 f x) :=
  roundTrip_v _ .v _ _ (some x) rfl (by decide) (.inl rfl) fun _ => rfl
theorem fcos (f : VF) : Statement (.fcos f) :=
  roundTrip_v _ .v _ _ none rfl (by decide) (.inl rfl) fun _ => rfl
theorem fcos64 (f : VF) (x : VX) : Statement (.fcos64 f x) :=
  roundTrip_v _ .v _ _ (some x) rfl (by decide) (.inl rfl) fun _ => rfl
theorem fdiv (f : VF) : Statement (.fdiv f) :=
  roundTrip_v _ .v _ _ none rfl (by decide) (.inl rfl) fun _ => rfl
theorem fdiv64 (f : VF) (x : VX) : Statement (.fdiv64 f x) :=
  roundTrip_v _ .v _ _ (some x) rfl (by decide) (.inl rfl) fun _ => rfl
theorem fclass (f : VF) : Statement (.fclass f) :=
  roundTrip_v _ .v _ _ none rfl (by decide) (.inl rfl) fun _ => rfl
theorem fclass64 (f : VF) (x : VX) : Statement (.fclass64 f x) :=
  roundTrip_v _ .v _ _ (some x) rfl (by decide) (.inl rfl) fun _ => rfl
theorem shuf (f : VF) : Statement (.shuf f) :=
  roundTrip_v _ .v _ _ none rfl (by decide) (.inl rfl) fun _ => rfl
theorem shuf64 (f : VF) (x : VX) : Statement (.shuf64 f x) :=
  roundTrip_v _ .v _ _ (some x) rfl (by decide) (.inl rfl) fun _ => rfl
theorem voteAny (f : VF) : Statement (.voteAny f) :=
  roundTrip_v _ .v _ _ none rfl (by decide) (.inl rfl) fun _ => rfl
theorem vote64 (f : VF) (x : VX) : Statement (.vote64 f x) :=
  roundTrip_v _ .v _ _ (some x) rfl (by decide) (.inl rfl) fun _ => rfl
theorem gred (f : VF) : Statement (.gred f) :=
  roundTrip_v _ .v _ _ none rfl (by decide) (.inl rfl) fun _ => rfl
theorem gred64 (f : VF) (x : VX) : Statement (.gred64 f x) :=
  roundTrip_v _ .v _ _ (some x) rfl (by decide) (.inl rfl) fun _ => rfl
theorem scan (f : VF) : Statement (.scan f) :=
  roundTrip_v _ .v _ _ none rfl (by decide) (.inl rfl) fun _ => rfl
theorem scan64 (f : VF) (x : VX) : Statement (.scan64 f x) :=
  roundTrip_v _ .v _ _ (some x) rfl (by decide) (.inl rfl) fun _ => rfl
theorem qmx (f : VF) (x : VX) : Statement (.qmx f x) :=
  roundTrip_v _ .v _ _ (some x) rfl (by decide) (.inl rfl) fun _ => rfl
theorem dqmx (f : VF) (x : VX) : Statement (.dqmx f x) :=
  roundTrip_v _ .v _ _ (some x) rfl (by decide) (.inl rfl) fun _ => rfl
theorem pack (f : VF) (x : VX) : Statement (.pack f x) :=
  roundTrip_v _ .v _ _ (some x) rfl (by decide) (.inl rfl) fun _ => rfl
theorem unpk (f : VF) (x : VX) : Statement (.unpk f x) :=
  roundTrip_v _ .v _ _ (some x) rfl (by decide) (.inl rfl) fun _ => rfl
theorem gets (f : VF) : Statement (.gets f) :=
  roundTrip_v _ .v _ _ none rfl (by decide) (.inl rfl) fun _ => rfl
theorem movs (f : VF) (x : VX) : Statement (.movs f x) :=
  roundTrip_v _ .v _ _ (some x) rfl (by decide) (.inl rfl) fun _ => rfl
theorem movp (f : VF) : Statement (.movp f) :=
  roundTrip_v _ .v _ _ none rfl (by decide) (.inl rfl) fun _ => rfl
theorem movp64 (f : VF) (x : VX) : Statement (.movp64 f x) :=
  roundTrip_v _ .v _ _ (some x) rfl (by decide) (.inl rfl) fun _ => rfl
theorem ld (f : VF) : Statement (.ld f) :=
  roundTrip_m _ _ _ none rfl (by decide) rfl
theorem ld64 (f : VF) (x : MX) : Statement (.ld64 f x) :=
  roundTrip_m _ _ _ (some x) rfl (by decide) rfl
theorem st (f : VF) : Statement (.st f) :=
  roundTrip_m _ _ _ none rfl (by decide) rfl
theorem st64 (f : VF) (x : MX) : Statement (.st64 f x) :=
  roundTrip_m _ _ _ (some x) rfl (by decide) rfl
theorem lds (f : VF) (x : MX) : Statement (.lds f x) :=
  roundTrip_m _ _ _ (some x) rfl (by decide) rfl
theorem sts (f : VF) (x : MX) : Statement (.sts f x) :=
  roundTrip_m _ _ _ (some x) rfl (by decide) rfl
theorem ldl (f : VF) (x : MX) : Statement (.ldl f x) :=
  roundTrip_m _ _ _ (some x) rfl (by decide) rfl
theorem stl (f : VF) (x : MX) : Statement (.stl f x) :=
  roundTrip_m _ _ _ (some x) rfl (by decide) rfl
theorem ldu (f : VF) : Statement (.ldu f) :=
  roundTrip_m _ _ _ none rfl (by decide) rfl
theorem ldu64 (f : VF) (x : MX) : Statement (.ldu64 f x) :=
  roundTrip_m _ _ _ (some x) rfl (by decide) rfl
theorem stu (f : VF) : Statement (.stu f) :=
  roundTrip_m _ _ _ none rfl (by decide) rfl
theorem stu64 (f : VF) (x : MX) : Statement (.stu64 f x) :=
  roundTrip_m _ _ _ (some x) rfl (by decide) rfl
theorem atom (f : VF) (x : MX) : Statement (.atom f x) :=
  roundTrip_m _ _ _ (some x) rfl (by decide) rfl
theorem cas (f : VF) (x : MX) : Statement (.cas f x) :=
  roundTrip_m _ _ _ (some x) rfl (by decide) rfl
theorem fence (f : VF) : Statement (.fence f) :=
  roundTrip_m _ _ _ none rfl (by decide) rfl
theorem fence64 (f : VF) (x : MX) : Statement (.fence64 f x) :=
  roundTrip_m _ _ _ (some x) rfl (by decide) rfl
theorem tmov (f : VF) : Statement (.tmov f) :=
  roundTrip_m _ _ _ none rfl (by decide) rfl
theorem tmov64 (f : VF) (x : MX) : Statement (.tmov64 f x) :=
  roundTrip_m _ _ _ (some x) rfl (by decide) rfl
theorem tmcast (f : VF) (x : MX) : Statement (.tmcast f x) :=
  roundTrip_m _ _ _ (some x) rfl (by decide) rfl
theorem twait (f : VF) : Statement (.twait f) :=
  roundTrip_m _ _ _ none rfl (by decide) rfl
theorem tstat (f : VF) : Statement (.tstat f) :=
  roundTrip_m _ _ _ none rfl (by decide) rfl
theorem sbind (f : VF) : Statement (.sbind f) :=
  roundTrip_m _ _ _ none rfl (by decide) rfl
theorem sbind64 (f : VF) (x : MX) : Statement (.sbind64 f x) :=
  roundTrip_m _ _ _ (some x) rfl (by decide) rfl
theorem sfree (f : VF) : Statement (.sfree f) :=
  roundTrip_m _ _ _ none rfl (by decide) rfl
theorem semw (f : VF) : Statement (.semw f) :=
  roundTrip_m _ _ _ none rfl (by decide) rfl
theorem semw64 (f : VF) (x : MX) : Statement (.semw64 f x) :=
  roundTrip_m _ _ _ (some x) rfl (by decide) rfl
theorem sems (f : VF) : Statement (.sems f) :=
  roundTrip_m _ _ _ none rfl (by decide) rfl
theorem sems64 (f : VF) (x : MX) : Statement (.sems64 f x) :=
  roundTrip_m _ _ _ (some x) rfl (by decide) rfl
theorem slot (f : VF) : Statement (.slot f) :=
  roundTrip_m _ _ _ none rfl (by decide) rfl
theorem csend (f : VF) : Statement (.csend f) :=
  roundTrip_m _ _ _ none rfl (by decide) rfl
theorem wlapp (f : VF) (x : MX) : Statement (.wlapp f x) :=
  roundTrip_m _ _ _ (some x) rfl (by decide) rfl
theorem wltake (f : VF) (x : MX) : Statement (.wltake f x) :=
  roundTrip_m _ _ _ (some x) rfl (by decide) rfl
theorem wldone (f : VF) : Statement (.wldone f) :=
  roundTrip_m _ _ _ none rfl (by decide) rfl
theorem wldone64 (f : VF) (x : MX) : Statement (.wldone64 f x) :=
  roundTrip_m _ _ _ (some x) rfl (by decide) rfl
theorem gath (f : VF) (x : MX) : Statement (.gath f x) :=
  roundTrip_m _ _ _ (some x) rfl (by decide) rfl
theorem scat (f : VF) (x : MX) : Statement (.scat f x) :=
  roundTrip_m _ _ _ (some x) rfl (by decide) rfl
theorem bvhset (f : VF) (x : VX) : Statement (.bvhset f x) :=
  roundTrip_v _ .b _ _ (some x) rfl (by decide) (.inr rfl) fun _ => rfl
theorem beam (f : VF) (x : VX) : Statement (.beam f x) :=
  roundTrip_v _ .b _ _ (some x) rfl (by decide) (.inr rfl) fun _ => rfl
theorem ray (f : VF) : Statement (.ray f) :=
  roundTrip_v _ .b _ _ none rfl (by decide) (.inr rfl) fun _ => rfl
theorem ray64 (f : VF) (x : VX) : Statement (.ray64 f x) :=
  roundTrip_v _ .b _ _ (some x) rfl (by decide) (.inr rfl) fun _ => rfl
theorem bres (f : VF) (x : VX) : Statement (.bres f x) :=
  roundTrip_v _ .b _ _ (some x) rfl (by decide) (.inr rfl) fun _ => rfl
theorem bsplit (f : VF) (x : VX) : Statement (.bsplit f x) :=
  roundTrip_v _ .b _ _ (some x) rfl (by decide) (.inr rfl) fun _ => rfl
theorem cover (f : VF) (x : VX) : Statement (.cover f x) :=
  roundTrip_v _ .b _ _ (some x) rfl (by decide) (.inr rfl) fun _ => rfl
theorem robeg (f : VF) (x : VX) : Statement (.robeg f x) :=
  roundTrip_v _ .b _ _ (some x) rfl (by decide) (.inr rfl) fun _ => rfl
theorem roend (f : VF) : Statement (.roend f) :=
  roundTrip_v _ .b _ _ none rfl (by decide) (.inr rfl) fun _ => rfl
theorem gbst (f : VF) (x : VX) : Statement (.gbst f x) :=
  roundTrip_v _ .b _ _ (some x) rfl (by decide) (.inr rfl) fun _ => rfl
theorem bstatSlot (f : VF) (x : VX) : Statement (.bstatSlot f x) :=
  roundTrip_v _ .b _ _ (some x) rfl (by decide) (.inr rfl) fun h => by
    simp only [Instr.rowOk, beq_iff_eq] at h; simp only [Form.instr, bInstr, h]
theorem bstatScene (f : VF) (x : VX) : Statement (.bstatScene f x) :=
  roundTrip_v _ .b _ _ (some x) rfl (by decide) (.inr rfl) fun h => by
    simp only [Instr.rowOk, beq_iff_eq] at h; simp only [Form.instr, bInstr, h]
theorem bstatDepth (f : VF) (x : VX) : Statement (.bstatDepth f x) :=
  roundTrip_v _ .b _ _ (some x) rfl (by decide) (.inr rfl) fun h => by
    simp only [Instr.rowOk, beq_iff_eq] at h; simp only [Form.instr, bInstr, h]
theorem bstatOrd (f : VF) (x : VX) : Statement (.bstatOrd f x) :=
  roundTrip_v _ .b _ _ (some x) rfl (by decide) (.inr rfl) fun h => by
    simp only [Instr.rowOk, beq_iff_eq] at h; simp only [Form.instr, bInstr, h]
theorem bstatOrda (f : VF) (x : VX) : Statement (.bstatOrda f x) :=
  roundTrip_v _ .b _ _ (some x) rfl (by decide) (.inr rfl) fun h => by
    simp only [Instr.rowOk, beq_iff_eq] at h; simp only [Form.instr, bInstr, h]
theorem lineEndAction  : Statement .lineEndAction := roundTrip_event _ rfl
theorem mwaitTimeout  : Statement .mwaitTimeout := roundTrip_event _ rfl
theorem governorApplyMark (die : Nat) : Statement (.governorApplyMark die) := roundTrip_event _ rfl
theorem moveProgress (gid cmd : Nat) : Statement (.moveProgress gid cmd) := roundTrip_event _ rfl
theorem memoryCommandComplete (gid cmd : Nat) : Statement (.memoryCommandComplete gid cmd) := roundTrip_event _ rfl
theorem tmcastDelivery (gid cmd : Nat) : Statement (.tmcastDelivery gid cmd) := roundTrip_event _ rfl
theorem streamFetch (gid w : Nat) : Statement (.streamFetch gid w) := roundTrip_event _ rfl
theorem csendLanded (gid cmd : Nat) : Statement (.csendLanded gid cmd) := roundTrip_event _ rfl
theorem worklistAgeExpiry (set list : Nat) : Statement (.worklistAgeExpiry set list) := roundTrip_event _ rfl
theorem drainComplete (launch : Nat) : Statement (.drainComplete launch) := roundTrip_event _ rfl
theorem matrixStep (gid : Nat) : Statement (.matrixStep gid) := roundTrip_event _ rfl
theorem xCommandComplete (gid : Nat) : Statement (.xCommandComplete gid) := roundTrip_event _ rfl
theorem ddaCycle (core : Nat) : Statement (.ddaCycle core) := roundTrip_event _ rfl
theorem freeDomainTick (core : Nat) (dom : BitVec 2) : Statement (.freeDomainTick core dom) := roundTrip_event _ rfl
theorem illegalLineFault (d : LineDefect) : Statement (.illegalLineFault d) := roundTrip_event _ rfl
theorem asyncTrap (gid : Nat) : Statement (.asyncTrap gid) := roundTrip_event _ rfl
theorem parktExpiry (gid : Nat) : Statement (.parktExpiry gid) := roundTrip_event _ rfl
theorem watchRequeue (gid : Nat) : Statement (.watchRequeue gid) := roundTrip_event _ rfl
theorem stallTimeout (gid : Nat) : Statement (.stallTimeout gid) := roundTrip_event _ rfl
theorem hangTimerExpiry (gid : Nat) : Statement (.hangTimerExpiry gid) := roundTrip_event _ rfl
theorem groupRestore (gid : Nat) (place : Place) : Statement (.groupRestore gid place) := roundTrip_event _ rfl
theorem taskStart (ctx task : Nat) (place : Place) : Statement (.taskStart ctx task place) := roundTrip_event _ rfl
theorem teamPlace (launch : Nat) (places : List Place) : Statement (.teamPlace launch places) := roundTrip_event _ rfl
theorem teamStaggerStart (launch : Nat) (places : List Place) : Statement (.teamStaggerStart launch places) := roundTrip_event _ rfl
theorem passoverLimit (die item : Nat) : Statement (.passoverLimit die item) := roundTrip_event _ rfl
theorem pendingLaunchDrain (core : Nat) : Statement (.pendingLaunchDrain core) := roundTrip_event _ rfl
theorem dieListTake (ctx die : Nat) : Statement (.dieListTake ctx die) := roundTrip_event _ rfl
theorem hostLaunchDoorbell (ctx : Nat) (wrptr : BitVec 64) : Statement (.hostLaunchDoorbell ctx wrptr) := roundTrip_event _ rfl
theorem hostRecordConsume (ctx : Nat) : Statement (.hostRecordConsume ctx) := roundTrip_event _ rfl
theorem teamParked (team : Nat) : Statement (.teamParked team) := roundTrip_event _ rfl
theorem currentGovernorCycle (die : Nat) : Statement (.currentGovernorCycle die) := roundTrip_event _ rfl
theorem telemetrySample (die : Nat) (r : Sensors) : Statement (.telemetrySample die r) := roundTrip_event _ rfl
theorem create (ctx : Nat) : Statement (.create ctx) := roundTrip_event _ rfl
theorem preempt (ctx : Nat) : Statement (.preempt ctx) := roundTrip_event _ rfl
theorem resume (ctx : Nat) : Statement (.resume ctx) := roundTrip_event _ rfl
theorem inval (ctx : Nat) : Statement (.inval ctx) := roundTrip_event _ rfl
theorem invalComplete (ctx : Nat) : Statement (.invalComplete ctx) := roundTrip_event _ rfl
theorem lreset (ctx : Nat) : Statement (.lreset ctx) := roundTrip_event _ rfl
theorem destroy (ctx : Nat) : Statement (.destroy ctx) := roundTrip_event _ rfl
theorem cmdWriteWhileBusy (ctx : Nat) (code : BitVec 64) : Statement (.cmdWriteWhileBusy ctx code) := roundTrip_event _ rfl
theorem update  : Statement .update := roundTrip_event _ rfl
theorem commit  : Statement .commit := roundTrip_event _ rfl
theorem retire  : Statement .retire := roundTrip_event _ rfl
theorem recal  : Statement .recal := roundTrip_event _ rfl
theorem powcompatWrite (die : Nat) (v : BitVec 64) : Statement (.powcompatWrite die v) := roundTrip_event _ rfl
theorem didtWrite (die : Nat) (v : BitVec 64) : Statement (.didtWrite die v) := roundTrip_event _ rfl
theorem registerWrite (off : BitVec 25) (v : BitVec 64) : Statement (.registerWrite off v) := roundTrip_event _ rfl
theorem hostBar2Write (pa : BitVec 39) (bytes : List (BitVec 8)) : Statement (.hostBar2Write pa bytes) := roundTrip_event _ rfl
theorem hostBar2Read (pa : BitVec 39) (count : Nat) : Statement (.hostBar2Read pa count) := roundTrip_event _ rfl
theorem fabricRemoteAccess (pkg : Nat) (pa : BitVec 52) (op : RemoteOp) : Statement (.fabricRemoteAccess pkg pa op) := roundTrip_event _ rfl
theorem packageUnreachable (pkg : Nat) : Statement (.packageUnreachable pkg) := roundTrip_event _ rfl
theorem linkErrorRetrain (link : Nat) (laneLost : Bool) : Statement (.linkErrorRetrain link laneLost) := roundTrip_event _ rfl
theorem bridgeLinkError (bridge : Nat) : Statement (.bridgeLinkError bridge) := roundTrip_event _ rfl
theorem errorDetected (e : ErrorReport) : Statement (.errorDetected e) := roundTrip_event _ rfl
theorem unitRetirement (cls : BitVec 4) (die unit : Nat) : Statement (.unitRetirement cls die unit) := roundTrip_event _ rfl
theorem hbmRetrain (die channel : Nat) : Statement (.hbmRetrain die channel) := roundTrip_event _ rfl
theorem bootVerify (die : Nat) : Statement (.bootVerify die) := roundTrip_event _ rfl
theorem getVersion  : Statement .getVersion := roundTrip_event _ rfl
theorem getCapabilities  : Statement .getCapabilities := roundTrip_event _ rfl
theorem negotiateAlgorithms  : Statement .negotiateAlgorithms := roundTrip_event _ rfl
theorem getDigests  : Statement .getDigests := roundTrip_event _ rfl
theorem getCertificate (offset length : Nat) : Statement (.getCertificate offset length) := roundTrip_event _ rfl
theorem challenge (nonce : Nat) : Statement (.challenge nonce) := roundTrip_event _ rfl
theorem getMeasurements (index : Nat) : Statement (.getMeasurements index) := roundTrip_event _ rfl
theorem spdmSessionRequest  : Statement .spdmSessionRequest := roundTrip_event _ rfl
theorem illegalInstructionFault (d : WordDefect) : Statement (.illegalInstructionFault d) := roundTrip_event _ rfl
theorem accessTakesEffect (gid index : Nat) : Statement (.accessTakesEffect gid index) := roundTrip_event _ rfl
theorem ddaEventApplied (core : Nat) : Statement (.ddaEventApplied core) := roundTrip_event _ rfl
theorem retrainComplete (bridge : Bool) (index : Nat) (ok : Bool) : Statement (.retrainComplete bridge index ok) := roundTrip_event _ rfl
theorem firmwareSwitchEnd (die : Nat) (selfTest : Bool) : Statement (.firmwareSwitchEnd die selfTest) := roundTrip_event _ rfl

end Laws.RoundTrip

end Sys2Proof
end

