-- ==== Sys2Proof/Tests/Slice0.lean ====
section
/-! SUPPORT. The author's own tests: ill-formed terms that the checks of WellFormed refuse; words of the encoding tables of
spec/ with the instructions they stand for; single steps with results worked out by hand from the rules and from the worked
examples of spec/; and for each statement that has hypotheses, a state and operands that meet them. -/

open Sys2Proof
open Sys2Proof.Machine

namespace Sys2Proof.Tests

-- One theorem after the other: the kernel's evaluations would otherwise wait for each other in a thread each.
set_option Elab.async false

/-! ## Small states -/

/-- A guard that holds always, and (!q5). -/
def yes : KG := { q := 0, n := false }
def kg : KG := { q := 5, n := true }

/-- V-form fields under the guard "always", and under (!p10). -/
def al (d a b : BitVec 7) : VF := { pg := 0, pn := false, d, a, b }
def vf (d a b : BitVec 7) : VF := { pg := 10, pn := true, d, a, b }

/-- A group of width 16 with 64 registers on an N-tile, alone in its team, at lane 1 of the line at 0x10000 (log 5), with
16 KiB of UNIT memory. -/
def bench : State :=
  let s := State.reset.launched true
  { s with teams := s.teams.map fun t => { t with unitSize := 16384 } }

/-- The same on a shade core. -/
def shade : State := State.reset.launched false

/-- Registers of the group in focus set to lists of values, from s1 and v0 on. -/
def withS (s : State) (l : List DWord) : State := s.mapOcc fun o => { o with regs := { o.regs with s := 0 :: l } }
def withV (s : State) (l : List (List Word)) : State := s.mapOcc fun o => { o with regs := { o.regs with v := l } }
def withP1 (s : State) (m : DWord) : State := s.mapOcc (·.setP 1 m)
/-- Only the lanes of m are active. -/
def under (s : State) (m : DWord) : State := s.mapOcc fun o => { o with flow := { o.flow with mask := m } }
/-- Bytes of memory. -/
def put (s : State) (k : Nat) (bs : List Byte) : State := { s with mem := s.mem.setBytes k bs }

/-- An outcome is a next state of which p holds. -/
def sees (o : Host.Outcome State Fault Refusal) (p : State → Bool) : Bool :=
  match o with
  | .next t => p t
  | .fault _ => false
  | .refused _ => false

/-- The group has taken a trap: %TCAUSE, %TINFO and %TADDR. -/
def took (s : State) (cause : Nat) (info addr : DWord) : Bool :=
  s.occ.trapLevel && s.occ.tcause == BitVec.ofNat 64 cause && s.occ.tinfo == info && s.occ.taddr == addr

/-- The words of a lane decode to an instruction. -/
abbrev Reads (e : Eng) (w : Word) (x : Option Word) (i : Instr) : Prop :=
  (match decodeWords e w x with
    | .ok j => some j
    | .error _ => none) = some i

/-- The words of a lane are refused with a subcode, in the first word or the extension word. -/
abbrev Refuses (e : Eng) (w : Word) (x : Option Word) (sub : Nat) (ext : Bool) : Prop :=
  (match decodeWords e w x with
    | .ok _ => none
    | .error d => some (d.sub, d.ext)) = some (sub, ext)

/-! ## Ill-formed terms -/

/-- Every term of a list is refused by the checks of WellFormed. -/
def allRefused (l : List Instr) : Bool := l.all fun i => !i.wf

/-- Reserved conditions, system registers, odd pairs, attributes of a watch, counts of a LOOP, masks and codes. -/
theorem test_ill_formed_scalar : allRefused
    [.scmp yes 1 2 3 10, .scmpImm yes 1 2 15 0, .scsrRead yes 1 0x013, .scsrWrite yes 1 0xFFF, .scsrSwap yes 1 0x04B, .callvPair yes 3,
     .loopOpen yes 0 true 5 1 1, .loopOpen yes 0 false 5 1 1, .mwatch yes 0 1 2 4 1 true, .mwatch yes 0 1 2 6 1 true,
     .mwatch yes 0 1 2 0 0 true, .mwatch yes 0 1 2 0 6 true, .mcfg yes 7 1 2, .mcfgAct yes 7 1 2, .aepi yes 1 2 3 0 4 1,
     .aepi yes 1 2 3 0 6 1, .aepi yes 1 2 3 0 1 6, .dstep yes 0 1, .dstep64 yes 0 1, .drun yes 0 1, .drun64 yes 0 1, .dhalt yes 0]
    = true := by decide +kernel

/-- Fields of V-form words: types, operand kinds, rounding, saturation, the unused bits of a, b, c and imm16. -/
theorem test_ill_formed_lane : allRefused
    [.mov (al 1 2 3), .mov64 (al 1 0 3) ⟨0, 0, 0, 1, false, 0⟩, .vadd64 (al 1 2 3) ⟨0, 2, 0, 0, false, 0⟩,
     .mulh64 (al 1 2 3) ⟨0, 0, 0, 0, true, 0⟩, .vadd64 (al 1 2 64) ⟨0, 0, 1, 0, false, 0⟩, .vadd64 (al 1 2 16) ⟨0, 0, 2, 0, false, 0⟩,
     .vadd64 (al 1 2 1) ⟨0, 0, 3, 0, false, 0⟩, .vadd64 (al 1 2 3) ⟨0, 0, 0, 0, false, 1⟩, .vadd64 (al 1 2 3) ⟨1, 0, 0, 0, false, 0⟩,
     .mad (al 1 2 3) ⟨4, 0, 0, 0, false, 1⟩, .vabs (al 1 2 3), .vabs64 (al 1 2 0) ⟨0, 1, 0, 0, false, 0⟩, .clz64 (al 1 2 0) ⟨0, 0, 1, 0, false, 0⟩,
     .sel (al 1 2 3) ⟨16, 0, 0, 0, false, 0⟩, .cmp (al 96 2 3), .plog (al 16 2 3) ⟨0, 0, 0, 0, false, 9⟩,
     .plog (al 1 2 3) ⟨0, 0, 0, 0, false, 16⟩, .cvt (al 1 2 0) ⟨0, 0, 0, 0, false, 0x0B⟩, .cvt (al 1 2 0) ⟨0, 0, 0, 0, false, 0x100⟩,
     .fcmp64 (al 1 2 3) ⟨0, 3, 0, 0, false, 0⟩, .fexp264 (al 2 4 0) ⟨0, 5, 0, 0, false, 0⟩, .vadd64 (al 1 2 4) ⟨0, 6, 0, 0, false, 0⟩]
    = true := by decide +kernel

/-- Fields of the functions across lanes and of the block formats. -/
theorem test_ill_formed_lanes_together : allRefused
    [.shuf64 (al 1 2 3) ⟨4, 0, 0, 0, false, 0⟩, .voteAny (al 8 1 0), .vote64 (al 1 32 0) ⟨0, 0, 0, 0, false, 0⟩,
     .vote64 (al 64 1 0) ⟨3, 0, 0, 0, false, 0⟩, .vote64 (al 1 1 0) ⟨4, 0, 0, 0, false, 0⟩, .gred64 (al 1 2 0) ⟨8, 0, 0, 0, false, 0⟩,
     .gred64 (al 1 2 0) ⟨6, 0, 0, 0, false, 0⟩, .gred64 (al 1 2 0) ⟨3, 2, 0, 0, false, 0⟩, .gred64 (al 1 2 0) ⟨0, 0, 0, 1, false, 0⟩,
     .scan64 (al 1 2 0) ⟨32, 0, 0, 0, false, 0⟩, .qmx (al 8 16 0) ⟨0, 2, 0, 0, false, 0⟩, .qmx (al 8 16 0) ⟨0, 2, 0, 0, false, 10⟩,
     .qmx (al 8 16 0) ⟨0, 2, 0, 0, false, 66⟩, .dqmx (al 8 16 0) ⟨0, 2, 0, 0, false, 1⟩, .pack (al 8 16 0) ⟨6, 2, 0, 0, false, 0⟩,
     .unpk (al 8 16 0) ⟨8, 2, 0, 0, false, 0⟩, .gets (al 1 6 0), .movs (al 64 2 3) ⟨0, 0, 1, 0, false, 0⟩, .movs (al 1 2 3) ⟨0, 0, 0, 0, false, 0⟩,
     .movp (al 16 2 0), .movp64 (al 1 16 0) ⟨0, 0, 0, 0, false, 1⟩, .movp64 (al 1 2 0) ⟨0, 0, 0, 0, false, 2⟩]
    = true := by decide +kernel

/-- Fields of M-form words: sizes, spaces, scopes, addresses, pairs and quads, and the fields that must be zero. -/
theorem test_ill_formed_memory : allRefused
    [.ld64 (al 0 2 0) ⟨0, 5, 0, 0, 0⟩, .ld64 (al 0 2 0) ⟨0, 2, 6, 0, 0⟩, .ld64 (al 0 2 0) ⟨0, 2, 0, 1, 0⟩, .ld (al 0 2 1), .ld (al 0 3 0),
     .ld64 (al 0 2 0) ⟨0, 2, 5, 0, 0⟩, .ld64 (al 0 2 65) ⟨0, 2, 1, 0, 0⟩, .ld64 (al 0 2 0) ⟨1, 2, 0, 0, 0⟩, .ld64 (al 0 2 0) ⟨2, 0, 0, 0, 0⟩,
     .st64 (al 0 2 0) ⟨1, 0, 0, 0, 0⟩, .ld64 (al 1 2 0) ⟨0, 3, 0, 0, 0⟩, .st64 (al 2 2 0) ⟨0, 4, 0, 0, 0⟩, .lds (al 0 2 0) ⟨0, 4, 0, 0, 0⟩,
     .ldl (al 0 64 0) ⟨0, 2, 4, 0, 0⟩, .stl (al 0 2 1) ⟨0, 2, 4, 0, 0⟩, .ldu64 (al 1 2 0) ⟨4, 2, 0, 0, 0⟩, .ldu (al 64 2 0), .stu (al 1 2 3),
     .atom (al 1 2 0) ⟨4, 2, 0, 0, 0xE000⟩, .atom (al 1 2 0) ⟨4, 1, 0, 0, 0⟩, .cas (al 1 2 0) ⟨4, 2, 0, 0, 0x1000⟩, .cas (al 1 2 0) ⟨5, 2, 0, 0, 0⟩,
     .fence64 (al 0 0 0) ⟨3, 2, 0, 1, 0⟩, .fence64 (al 1 0 0) ⟨0, 2, 0, 1, 0⟩]
    = true := by decide +kernel

/-- Commands, streams, semaphores and worklists. -/
theorem test_ill_formed_commands : allRefused
    [.tmov (al 6 1 0), .tmov (al 0 1 0), .tmov64 (al 8 0 0) ⟨0, 2, 0, 0, 8⟩, .tmov64 (al 8 1 0) ⟨1, 2, 0, 0, 8⟩, .tmcast (al 8 1 2) ⟨0, 2, 5, 0, 8⟩,
     .tmcast (al 8 1 2) ⟨0, 2, 1, 0, 0⟩, .twait (al 1 2 3), .tstat (al 64 2 0), .sbind (al 16 2 0), .sbind (al 1 3 0), .sbind (al 1 0 0),
     .sfree (al 1 1 0), .semw (al 8 1 0), .sems (al 1 1 0), .semw64 (al 1 2 3) ⟨1, 2, 1, 0, 0⟩, .slot (al 1 64 0), .csend (al 9 1 0),
     .wlapp (al 8 1 64) ⟨0, 4, 2, 2, 0⟩, .wlapp (al 8 1 2) ⟨0, 4, 2, 1, 0⟩, .wltake (al 8 1 2) ⟨16, 4, 2, 2, 0⟩, .wldone (al 0 1 2),
     .wldone64 (al 0 0 2) ⟨0, 2, 1, 0, 0⟩, .gath (al 8 1 2) ⟨0, 2, 0, 0, 0⟩, .scat (al 8 1 2) ⟨9, 2, 0, 0, 0⟩, .gath (al 9 1 2) ⟨2, 3, 0, 0, 0⟩]
    = true := by decide +kernel

/-- B-engine words, and the function of BSTAT against its row. -/
theorem test_ill_formed_beam : allRefused
    [.bvhset (al 0 0 1) ⟨0, 0, 1, 0, false, 4096⟩, .bvhset (al 0 0 1) ⟨0, 0, 0, 0, false, 0⟩, .bvhset (al 0 0 64) ⟨0, 0, 1, 0, false, 0⟩,
     .bvhset (al 1 0 1) ⟨0, 0, 1, 0, false, 0⟩, .beam (al 0 0 1) ⟨16, 0, 1, 0, false, 0⟩, .beam (al 0 0 1) ⟨0, 0, 1, 0, false, 1⟩,
     .beam (al 0 0 1) ⟨0, 1, 1, 0, false, 0⟩, .ray (al 6 1 0), .ray (al 8 1 1), .ray64 (al 8 1 0) ⟨0, 0, 0, 1, false, 0⟩,
     .bres (al 9 0 0) ⟨0, 0, 0, 0, false, 0⟩, .bres (al 8 0 0) ⟨0, 0, 0, 0, false, 64⟩, .bsplit (al 8 1 0) ⟨0, 0, 0, 0, false, 0⟩,
     .cover (al 0 0 1) ⟨0, 0, 1, 0, true, 0⟩, .robeg (al 0 64 1) ⟨0, 0, 1, 0, false, 0⟩, .roend (al 1 0 0), .gbst (al 0 6 1) ⟨0, 0, 1, 0, false, 0⟩,
     .bstatSlot (al 64 0 0) ⟨0, 0, 0, 0, false, 0⟩, .bstatSlot (al 1 0 0) ⟨16, 0, 0, 0, false, 0⟩, .bstatScene (al 1 0 0) ⟨0, 0, 0, 0, false, 0⟩,
     .bstatDepth (al 1 0 0) ⟨0, 0, 0, 0, false, 0⟩, .bstatOrd (al 1 0 0) ⟨0, 0, 0, 0, false, 0⟩, .bstatOrda (al 1 0 0) ⟨80, 0, 0, 0, false, 0⟩]
    = true := by decide +kernel

/-- Events on a die, core, slot, package, link or bridge that the AH-7716-LC does not have, and defects of no lane. -/
theorem test_ill_formed_events : allRefused
    [.illegalLineFault ⟨8, 0, 1⟩, .illegalLineFault ⟨1, 0, 7⟩, .illegalInstructionFault ⟨0, 0, 0, 1, false⟩,
     .illegalInstructionFault ⟨1, 0, 0, 8, false⟩, .groupRestore 1 ⟨64, 0⟩, .groupRestore 1 ⟨0, 96⟩, .taskStart 0 1 ⟨2 * 256 + 144, 0⟩,
     .teamPlace 1 [], .teamPlace 1 [⟨2 * 256, 8⟩], .teamStaggerStart 1 [⟨4 * 256, 0⟩],
     .passoverLimit 4 0, .pendingLaunchDrain 64, .dieListTake 0 4, .currentGovernorCycle 4, .governorApplyMark 4, .powcompatWrite 4 0,
     .didtWrite 4 0, .fabricRemoteAccess 64 0 (.read 1), .fabricRemoteAccess 1 4 (.atomic 14 2 0),
     .fabricRemoteAccess 1 4 (.atomic 0 3 0), .fabricRemoteAccess 1 4 (.cas 1 0 0), .packageUnreachable 64, .linkErrorRetrain 12 false, .bridgeLinkError 4,
     .retrainComplete true 4 true, .retrainComplete false 12 true, .unitRetirement 0 4 0, .hbmRetrain 4 0, .bootVerify 4,
     .errorDetected ⟨11, 0, 0, false, false, [], none, 0⟩, .errorDetected ⟨0, 4, 0, false, false, [], none, 0⟩,
     .telemetrySample 4 ⟨0, 0, 0, 0, 0, 0, 0, 0⟩, .ddaEventApplied 144, .ddaCycle (3 * 256 + 144), .firmwareSwitchEnd 4 true]
    = true := by decide +kernel

/-- A well-formed term of each kind passes. -/
theorem test_well_formed : ([.sadd kg 1 2 3, .vadd64 (vf 1 2 3) ⟨0, 1, 1, 0, true, 0⟩, .ld64 (vf 4 2 0) ⟨0, 4, 2, 0, 9⟩, .mma kg 1 2,
    .dstep yes 1 0, .ray (al 8 1 0), .teamPlace 1 [⟨2 * 256, 7⟩], .ddaCycle (3 * 256 + 143)] : List Instr).all Instr.wf = true := by
  decide +kernel

/-! ## Lines -/

/-- The worked encoding of spec/02. -/
def workedLine : List Word := [0x02FBFA11, 0x0C051460, 0x6802048A, 0x16800000, 0x00050100, 0x00880010, 0x04004083, 0]

/-- The worked line carries T and decodes to SADD, FFMA.F32, LD.B32.UNIT and ADD in lanes 1, 2, 4 and 6. -/
theorem test_worked_line :
    lineT workedLine = true ∧ lineDefect true workedLine = none
    ∧ decodeLane true workedLine 1 = .issue .k 1 (.sadd yes 5 5 6)
    ∧ decodeLane true workedLine 2 = .issue .v 2 (.ffma (al 8 9 10) ⟨11, 2, 0, 0, false, 0⟩)
    ∧ decodeLane true workedLine 4 = .issue .m 2 (.ld64 (al 20 2 0) ⟨0, 2, 1, 0, 16⟩)
    ∧ decodeLane true workedLine 6 = .issue .v 1 (.vadd (al 1 1 3)) ∧ decodeLane true workedLine 7 = .pass := by decide +kernel

/-- The same line with the reserved tag 0x7 in lane 4, and in lane 1: LANE 4 with SUB 2, and LANE 1. -/
theorem test_worked_line_defects :
    lineDefect true (0x02F7FA11 :: workedLine.drop 1) = some ⟨4, 7, 2⟩
    ∧ lineDefect true (0x02FBFA71 :: workedLine.drop 1) = some ⟨1, 7, 2⟩
    ∧ decodeLane true (0x02F7FA11 :: workedLine.drop 1) 2 = .issue .v 2 (.ffma (al 8 9 10) ⟨11, 2, 0, 0, false, 0⟩) := by decide +kernel

/-- (q2) BR top of the worked encoding; the words of the divergence and loop examples of spec/04. -/
theorem test_worked_branches :
    Reads .k 0x413FFFFD none (.br { q := 2, n := false } 0x3FFFFD)
    ∧ Reads .k 0x44010000 (some 1) (.brv 1 false 1) ∧ Reads .k 0x48000000 none .join
    ∧ Reads .k 0x08040003 none (.sli yes 4 3) ∧ Reads .k 0x5C000001 (some 0x00020002) (.loopOpen yes 0 true 0 2 2)
    ∧ Reads .k 0x5C011000 (some 0x00010000) (.loopOpen yes 1 false 4 1 0) ∧ Reads .k 0x0C071C00 (some 1) (.saddImm yes 7 7 1) := by
  decide +kernel

/-- Words of the examples of spec/05 and spec/08. -/
theorem test_worked_words :
    Reads .v 0xAC0A0400 (some 0x00800002) (.qmx (al 40 8 0) ⟨0, 2, 0, 0, false, 2⟩)
    ∧ Reads .v 0xB0031400 (some 0x00800000) (.dqmx (al 12 40 0) ⟨0, 2, 0, 0, false, 0⟩)
    ∧ Reads .d 0x0C001000 none (.dinit yes 0 4 0) ∧ Reads .d 0x08001470 none (.dpatch yes 5 7) ∧ Reads .d 0x28002000 none (.dtap yes 0 8)
    ∧ Reads .d 0x1C000001 (some 8) (.dstep64 yes 1 8) ∧ Reads .d 0x2C090004 none (.drdTapc yes 9 0) ∧ Reads .d 0x2C0B1401 none (.drdR yes 11 5) := by
  decide +kernel

/-- Rejected by name: an opcode that is not listed, a reserved field, a length that an opcode does not have, a reserved
code, an accepted code of another row, and a register beyond the q-registers. -/
theorem test_encoding_faults :
    Refuses .k 0xFC000000 none 1 false ∧ Refuses .k 0x00000001 none 3 false
    ∧ Refuses .k 0x44000000 none 2 false ∧ Refuses .k 0x2C000004 none 4 false
    ∧ Refuses .v 0x04000000 (some 0x00800000) 5 true ∧ Refuses .k 0x30080000 none 6 false := by
  decide +kernel

/-- R39: X tags on a shade core and B tags on an N-tile are subcode 5; a word under tag 0 is subcode 6. -/
theorem test_line_engines :
    lineDefect false [0x00000040, 0, 0, 0, 0, 0, 0, 0] = some ⟨1, 4, 5⟩ ∧ lineDefect true [0x00000060, 0, 0, 0, 0, 0, 0, 0] = some ⟨1, 6, 5⟩
    ∧ lineDefect true [0x00000000, 0, 9, 0, 0, 0, 0, 0] = some ⟨2, 0, 6⟩ ∧ lineDefect true [0x00000004, 0, 0, 0, 0, 0, 0, 0] = some ⟨0, 0, 1⟩ := by
  decide +kernel

theorem test_decode_k_moves :
    Reads .k 0b000000_101_1_000000_000000_000000_0000#32 none (.nop kg)
    ∧ Reads .k 0b000000_101_1_000000_000000_000000_0000#32 (some 0b10000000000000000000000100100011#32) (.nop64 kg 0x80000123)
    ∧ Reads .k 0b000001_101_1_100110_010111_000000_0000#32 none (.smov kg 38 23)
    ∧ Reads .k 0b000001_101_1_100110_000010_000000_0001#32 none (.smovLc kg 38 2)
    ∧ Reads .k 0b000010_101_1_100110_1000000000000001#32 none (.sli kg 38 32769)
    ∧ Reads .k 0b000010_101_1_100110_1000000000000001#32 (some 0b10000000000000000000000100100011#32) (.sli64 kg 38 32769 0x80000123) := by decide +kernel

theorem test_decode_k_arithmetic :
    Reads .k 0b000011_101_1_100110_010111_001101_0000#32 none (.sadd kg 38 23 13)
    ∧ Reads .k 0b000011_101_1_100110_010111_000000_0000#32 (some 0b10000000000000000000000100100011#32) (.saddImm kg 38 23 0x80000123)
    ∧ Reads .k 0b000100_101_1_100110_010111_001101_0000#32 none (.ssub kg 38 23 13)
    ∧ Reads .k 0b000100_101_1_100110_010111_000000_0000#32 (some 0b10000000000000000000000100100011#32) (.ssubImm kg 38 23 0x80000123)
    ∧ Reads .k 0b000101_101_1_100110_010111_001101_0000#32 none (.smul kg 38 23 13)
    ∧ Reads .k 0b000101_101_1_100110_010111_000000_0000#32 (some 0b10000000000000000000000100100011#32) (.smulImm kg 38 23 0x80000123)
    ∧ Reads .k 0b000101_101_1_100110_010111_001101_0001#32 none (.smulHi kg 38 23 13)
    ∧ Reads .k 0b000101_101_1_100110_010111_000000_0001#32 (some 0b10000000000000000000000100100011#32) (.smulHiImm kg 38 23 0x80000123)
    ∧ Reads .k 0b000101_101_1_100110_010111_001101_0010#32 none (.smulHiu kg 38 23 13)
    ∧ Reads .k 0b000101_101_1_100110_010111_000000_0010#32 (some 0b10000000000000000000000100100011#32) (.smulHiuImm kg 38 23 0x80000123)
    ∧ Reads .k 0b000110_101_1_100110_010111_001101_0000#32 none (.sand kg 38 23 13)
    ∧ Reads .k 0b000110_101_1_100110_010111_000000_0000#32 (some 0b10000000000000000000000100100011#32) (.sandImm kg 38 23 0x80000123)
    ∧ Reads .k 0b000111_101_1_100110_010111_001101_0000#32 none (.sor kg 38 23 13)
    ∧ Reads .k 0b000111_101_1_100110_010111_000000_0000#32 (some 0b10000000000000000000000100100011#32) (.sorImm kg 38 23 0x80000123)
    ∧ Reads .k 0b001000_101_1_100110_010111_001101_0000#32 none (.sxor kg 38 23 13)
    ∧ Reads .k 0b001000_101_1_100110_010111_000000_0000#32 (some 0b10000000000000000000000100100011#32) (.sxorImm kg 38 23 0x80000123) := by decide +kernel

theorem test_decode_k_shifts_and_extremes :
    Reads .k 0b001001_101_1_100110_010111_001101_0000#32 none (.sshl kg 38 23 13)
    ∧ Reads .k 0b001001_101_1_100110_010111_000000_0000#32 (some 0b00000000000000000000000000111111#32) (.sshlImm kg 38 23 63)
    ∧ Reads .k 0b001010_101_1_100110_010111_001101_0000#32 none (.sshr kg 38 23 13)
    ∧ Reads .k 0b001010_101_1_100110_010111_000000_0000#32 (some 0b00000000000000000000000000111111#32) (.sshrImm kg 38 23 63)
    ∧ Reads .k 0b001010_101_1_100110_010111_001101_0001#32 none (.sshrA kg 38 23 13)
    ∧ Reads .k 0b001010_101_1_100110_010111_000000_0001#32 (some 0b00000000000000000000000000111111#32) (.sshrAImm kg 38 23 63)
    ∧ Reads .k 0b001011_101_1_100110_010111_001101_0000#32 none (.smin kg 38 23 13)
    ∧ Reads .k 0b001011_101_1_100110_010111_000000_0000#32 (some 0b10000000000000000000000100100011#32) (.sminImm kg 38 23 0x80000123)
    ∧ Reads .k 0b001011_101_1_100110_010111_001101_0001#32 none (.smax kg 38 23 13)
    ∧ Reads .k 0b001011_101_1_100110_010111_000000_0001#32 (some 0b10000000000000000000000100100011#32) (.smaxImm kg 38 23 0x80000123)
    ∧ Reads .k 0b001011_101_1_100110_010111_001101_0010#32 none (.sminu kg 38 23 13)
    ∧ Reads .k 0b001011_101_1_100110_010111_000000_0010#32 (some 0b10000000000000000000000100100011#32) (.sminuImm kg 38 23 0x80000123)
    ∧ Reads .k 0b001011_101_1_100110_010111_001101_0011#32 none (.smaxu kg 38 23 13)
    ∧ Reads .k 0b001011_101_1_100110_010111_000000_0011#32 (some 0b10000000000000000000000100100011#32) (.smaxuImm kg 38 23 0x80000123) := by decide +kernel

theorem test_decode_k_comparisons_and_system_registers :
    Reads .k 0b001100_101_1_000110_010111_001101_1001#32 none (.scmp kg 6 23 13 9)
    ∧ Reads .k 0b001100_101_1_000110_010111_000000_1001#32 (some 0b10000000000000000000000100100011#32) (.scmpImm kg 6 23 9 0x80000123)
    ∧ Reads .k 0b001101_101_1_100110_010111_001101_0110#32 none (.ssel kg 38 23 13 6)
    ∧ Reads .k 0b001110_101_1_000110_000101_000011_1001#32 none (.qlog kg 6 5 3 9)
    ∧ Reads .k 0b001111_101_1_100110_0000_000001001001#32 none (.scsrRead kg 38 73)
    ∧ Reads .k 0b001111_101_1_100110_0001_000001001001#32 none (.scsrWrite kg 38 73)
    ∧ Reads .k 0b001111_101_1_100110_0010_000001001001#32 none (.scsrSwap kg 38 73) := by decide +kernel

theorem test_decode_k_transfers :
    Reads .k 0b010000_101_1_1111111111111111111101#32 none (.br kg 0x3FFFFD)
    ∧ Reads .k 0b010011_101_1_1000000000000000000001#32 none (.call kg 0x200001)
    ∧ Reads .k 0b010001_000_0_011011_000000_000000_0000#32 (some 0b10000000000000000000000100100011#32) (.brv 11 true 0x80000123)
    ∧ Reads .k 0b010010_000_0_000000_000000_000000_0000#32 none (.join)
    ∧ Reads .k 0b010100_101_1_000000_010110_000000_0000#32 none (.callvPair kg 22)
    ∧ Reads .k 0b010100_101_1_000000_010111_000000_0001#32 none (.callvReg kg 23)
    ∧ Reads .k 0b010101_101_1_000000_000000_000000_0000#32 none (.ret kg)
    ∧ Reads .k 0b010110_101_1_000000_010111_000000_0000#32 none (.jmp kg 23)
    ∧ Reads .k 0b010111_101_1_000010_000000_000000_0001#32 (some 0b0000000000000011_0000000000000101#32) (.loopOpen kg 2 true 0 3 5)
    ∧ Reads .k 0b011000_101_1_000010_000000_000000_0000#32 none (.lbrk kg 2) := by decide +kernel

theorem test_decode_k_barriers_watches_and_traps :
    Reads .k 0b011001_101_1_000000_010111_000000_1011#32 none (.bar kg 11 23)
    ∧ Reads .k 0b011010_101_1_000010_010111_001101_0000#32 (some 0b0000000000000000000000000_1_101_011#32) (.mwatch kg 2 23 13 3 5 true)
    ∧ Reads .k 0b011011_101_1_100110_010111_000000_1001#32 none (.mwait kg 38 23 9)
    ∧ Reads .k 0b100111_101_1_000000_1000000000000001#32 none (.trap kg 32769)
    ∧ Reads .k 0b101000_000_0_000000_000000_000000_0000#32 none (.rft)
    ∧ Reads .k 0b101001_000_0_000000_000000_000000_0000#32 none (.parkWait)
    ∧ Reads .k 0b101001_000_0_000000_000000_000000_0001#32 none (.parkPreempt)
    ∧ Reads .k 0b101001_000_0_000000_000000_000000_0010#32 none (.parkEnd)
    ∧ Reads .k 0b101010_101_1_000000_1000000000000001#32 none (.bkpt kg 32769)
    ∧ Reads .k 0b101011_101_1_000000_000000_000000_0000#32 none (.leave kg)
    ∧ Reads .k 0b101100_101_1_000000_000000_000000_0000#32 none (.leavr kg)
    ∧ Reads .k 0b101101_101_1_000000_010111_000000_0000#32 none (.fgmark kg 23)
    ∧ Reads .k 0b101110_101_1_100110_000000_000000_0000#32 none (.fgplan kg 38) := by decide +kernel

theorem test_decode_k_tasks :
    Reads .k 0b011100_101_1_000000_010111_000000_0000#32 none (.spawn kg 23)
    ∧ Reads .k 0b011101_101_1_100110_010111_000000_0110#32 none (.await kg 38 23 6)
    ∧ Reads .k 0b011110_101_1_000000_010111_001101_0000#32 none (.fset kg 23 13)
    ∧ Reads .k 0b011111_101_1_000000_010111_000000_0000#32 none (.locka kg 23)
    ∧ Reads .k 0b011111_101_1_000110_010111_000000_0001#32 none (.lockaTry kg 6 23)
    ∧ Reads .k 0b100000_101_1_000000_010111_000000_0000#32 none (.lockr kg 23)
    ∧ Reads .k 0b100001_101_1_000000_000000_000000_0000#32 none (.yield kg)
    ∧ Reads .k 0b100010_101_1_000000_000000_000000_0000#32 none (.exit kg)
    ∧ Reads .k 0b100011_101_1_000000_010111_000000_0000#32 none (.launch kg 23)
    ∧ Reads .k 0b100100_101_1_000000_010111_000000_0000#32 none (.cjoin kg 23)
    ∧ Reads .k 0b100101_101_1_000000_1000000000000001#32 none (.vgive kg 32769)
    ∧ Reads .k 0b100110_101_1_000000_1000000000000001#32 none (.vclaim kg 32769) := by decide +kernel

theorem test_decode_v_integers_1 :
    Reads .v 0b000000_1010_1_0100110_0000000_0011000#32 none (.mov (vf 38 0 24))
    ∧ Reads .v 0b000000_1010_1_0100110_0000000_0000000#32 (some 0b0000000_100_11_00_0_0_1000000000000001#32) (.mov64 (vf 38 0 0) ⟨0, 4, 3, 0, false, 0x8001⟩)
    ∧ Reads .v 0b000001_1010_1_0100110_0010110_0011000#32 none (.vadd (vf 38 22 24))
    ∧ Reads .v 0b000001_1010_1_0100110_0010110_0011000#32 (some 0b0000000_110_01_00_1_0_0000000000000000#32) (.vadd64 (vf 38 22 24) ⟨0, 6, 1, 0, true, 0x0⟩)
    ∧ Reads .v 0b000010_1010_1_0100110_0010110_0011000#32 none (.vsub (vf 38 22 24))
    ∧ Reads .v 0b000010_1010_1_0100110_0010110_0011000#32 (some 0b0000000_110_01_00_1_0_0000000000000000#32) (.vsub64 (vf 38 22 24) ⟨0, 6, 1, 0, true, 0x0⟩)
    ∧ Reads .v 0b000011_1010_1_0100110_0010110_0011000#32 none (.vmul (vf 38 22 24))
    ∧ Reads .v 0b000011_1010_1_0100110_0010110_0011000#32 (some 0b0000000_110_01_00_1_0_0000000000000000#32) (.vmul64 (vf 38 22 24) ⟨0, 6, 1, 0, true, 0x0⟩)
    ∧ Reads .v 0b000100_1010_1_0100110_0010110_0011000#32 none (.mulh (vf 38 22 24))
    ∧ Reads .v 0b000100_1010_1_0100110_0010110_0011000#32 (some 0b0000000_111_01_00_0_0_0000000000000000#32) (.mulh64 (vf 38 22 24) ⟨0, 7, 1, 0, false, 0x0⟩)
    ∧ Reads .v 0b000101_1010_1_0100110_0010110_0011000#32 (some 0b1001101_001_01_00_1_0_0000000000000000#32) (.mad (vf 38 22 24) ⟨77, 1, 1, 0, true, 0x0⟩)
    ∧ Reads .v 0b001100_1010_1_0100110_0010110_0011000#32 none (.vmin (vf 38 22 24))
    ∧ Reads .v 0b001100_1010_1_0100110_0010110_0000000#32 (some 0b0000000_001_11_00_0_0_1000000000000001#32) (.vmin64 (vf 38 22 0) ⟨0, 1, 3, 0, false, 0x8001⟩)
    ∧ Reads .v 0b001101_1010_1_0100110_0010110_0011000#32 none (.vmax (vf 38 22 24))
    ∧ Reads .v 0b001101_1010_1_0100110_0010110_0000000#32 (some 0b0000000_001_11_00_0_0_1000000000000001#32) (.vmax64 (vf 38 22 0) ⟨0, 1, 3, 0, false, 0x8001⟩)
    ∧ Reads .v 0b001110_1010_1_0100110_0010110_0000000#32 none (.vabs (vf 38 22 0)) := by decide +kernel

theorem test_decode_v_integers_2 :
    Reads .v 0b001110_1010_1_0100110_0010110_0000000#32 (some 0b0000000_110_00_00_1_0_0000000000000000#32) (.vabs64 (vf 38 22 0) ⟨0, 6, 0, 0, true, 0x0⟩) := by decide +kernel

theorem test_decode_v_bits_and_comparisons_1 :
    Reads .v 0b000110_1010_1_0100110_0010110_0011000#32 none (.vand (vf 38 22 24))
    ∧ Reads .v 0b000110_1010_1_0100110_0010110_0001010#32 (some 0b0000000_001_10_00_0_0_0000000000000000#32) (.vand64 (vf 38 22 10) ⟨0, 1, 2, 0, false, 0x0⟩)
    ∧ Reads .v 0b000111_1010_1_0100110_0010110_0011000#32 none (.vor (vf 38 22 24))
    ∧ Reads .v 0b000111_1010_1_0100110_0010110_0001010#32 (some 0b0000000_001_10_00_0_0_0000000000000000#32) (.vor64 (vf 38 22 10) ⟨0, 1, 2, 0, false, 0x0⟩)
    ∧ Reads .v 0b001000_1010_1_0100110_0010110_0011000#32 none (.vxor (vf 38 22 24))
    ∧ Reads .v 0b001000_1010_1_0100110_0010110_0001010#32 (some 0b0000000_001_10_00_0_0_0000000000000000#32) (.vxor64 (vf 38 22 10) ⟨0, 1, 2, 0, false, 0x0⟩)
    ∧ Reads .v 0b001001_1010_1_0100110_0010110_0011000#32 none (.shl (vf 38 22 24))
    ∧ Reads .v 0b001001_1010_1_0100110_0010110_0001010#32 (some 0b0000000_001_10_00_0_0_0000000000000000#32) (.shl64 (vf 38 22 10) ⟨0, 1, 2, 0, false, 0x0⟩)
    ∧ Reads .v 0b001010_1010_1_0100110_0010110_0011000#32 none (.shr (vf 38 22 24))
    ∧ Reads .v 0b001010_1010_1_0100110_0010110_0001010#32 (some 0b0000000_001_10_00_0_0_0000000000000000#32) (.shr64 (vf 38 22 10) ⟨0, 1, 2, 0, false, 0x0⟩)
    ∧ Reads .v 0b001011_1010_1_0100110_0010110_0011000#32 none (.sra (vf 38 22 24))
    ∧ Reads .v 0b001011_1010_1_0100110_0010110_0001010#32 (some 0b0000000_001_10_00_0_0_0000000000000000#32) (.sra64 (vf 38 22 10) ⟨0, 1, 2, 0, false, 0x0⟩)
    ∧ Reads .v 0b001111_1010_1_0100110_0010110_0000000#32 none (.clz (vf 38 22 0))
    ∧ Reads .v 0b001111_1010_1_0100110_0010110_0000000#32 (some 0b0000000_111_00_00_0_0_0000000000000000#32) (.clz64 (vf 38 22 0) ⟨0, 7, 0, 0, false, 0x0⟩)
    ∧ Reads .v 0b010000_1010_1_0100110_0010110_0000000#32 none (.popc (vf 38 22 0))
    ∧ Reads .v 0b010000_1010_1_0100110_0010110_0000000#32 (some 0b0000000_111_00_00_0_0_0000000000000000#32) (.popc64 (vf 38 22 0) ⟨0, 7, 0, 0, false, 0x0⟩) := by decide +kernel

theorem test_decode_v_bits_and_comparisons_2 :
    Reads .v 0b010001_1010_1_0100110_0010110_0011000#32 none (.bfe (vf 38 22 24))
    ∧ Reads .v 0b010001_1010_1_0100110_0010110_0011000#32 (some 0b0000000_001_01_00_0_0_0000000000000000#32) (.bfe64 (vf 38 22 24) ⟨0, 1, 1, 0, false, 0x0⟩)
    ∧ Reads .v 0b010010_1010_1_0100110_0010110_0011000#32 (some 0b1001101_001_01_00_0_0_0000000000000000#32) (.bfi (vf 38 22 24) ⟨77, 1, 1, 0, false, 0x0⟩)
    ∧ Reads .v 0b010011_1010_1_0100110_0010110_0011000#32 (some 0b0001011_101_01_00_0_0_0000000000000000#32) (.sel (vf 38 22 24) ⟨11, 5, 1, 0, false, 0x0⟩)
    ∧ Reads .v 0b010100_1010_1_1011010_0010110_0011000#32 none (.cmp (vf 90 22 24))
    ∧ Reads .v 0b010100_1010_1_1011010_0010110_0011000#32 (some 0b0000000_110_01_00_0_0_0000000000000000#32) (.cmp64 (vf 90 22 24) ⟨0, 6, 1, 0, false, 0x0⟩)
    ∧ Reads .v 0b010101_1010_1_0001010_0001011_0001100#32 (some 0b0000000_000_00_00_0_0_0000000000001001#32) (.plog (vf 10 11 12) ⟨0, 0, 0, 0, false, 0x9⟩) := by decide +kernel

theorem test_decode_v_floating_point :
    Reads .v 0b010110_1010_1_0100110_0010110_0000000#32 (some 0b0000000_000_00_11_1_0_0000000001010010#32) (.cvt (vf 38 22 0) ⟨0, 0, 0, 3, true, 0x52⟩)
    ∧ Reads .v 0b010111_1010_1_0100110_0010110_0011000#32 none (.fadd (vf 38 22 24))
    ∧ Reads .v 0b010111_1010_1_0100110_0010110_0011000#32 (some 0b0000000_101_01_10_1_0_0000000000000000#32) (.fadd64 (vf 38 22 24) ⟨0, 5, 1, 2, true, 0x0⟩)
    ∧ Reads .v 0b011000_1010_1_0100110_0010110_0011000#32 none (.fsub (vf 38 22 24))
    ∧ Reads .v 0b011000_1010_1_0100110_0010110_0011000#32 (some 0b0000000_101_01_10_1_0_0000000000000000#32) (.fsub64 (vf 38 22 24) ⟨0, 5, 1, 2, true, 0x0⟩)
    ∧ Reads .v 0b011001_1010_1_0100110_0010110_0011000#32 none (.fmul (vf 38 22 24))
    ∧ Reads .v 0b011001_1010_1_0100110_0010110_0011000#32 (some 0b0000000_101_01_10_1_0_0000000000000000#32) (.fmul64 (vf 38 22 24) ⟨0, 5, 1, 2, true, 0x0⟩)
    ∧ Reads .v 0b100101_1010_1_0100110_0010110_0011000#32 none (.fdiv (vf 38 22 24))
    ∧ Reads .v 0b100101_1010_1_0100110_0010110_0011000#32 (some 0b0000000_101_01_10_1_0_0000000000000000#32) (.fdiv64 (vf 38 22 24) ⟨0, 5, 1, 2, true, 0x0⟩)
    ∧ Reads .v 0b011010_1010_1_0100110_0010110_0011000#32 (some 0b1001101_011_01_01_0_0_0000000000000000#32) (.ffma (vf 38 22 24) ⟨77, 3, 1, 1, false, 0x0⟩)
    ∧ Reads .v 0b011011_1010_1_0100110_0010110_0011000#32 none (.fmin (vf 38 22 24))
    ∧ Reads .v 0b011011_1010_1_0100110_0010110_0011000#32 (some 0b0000000_100_01_00_0_0_0000000000000000#32) (.fmin64 (vf 38 22 24) ⟨0, 4, 1, 0, false, 0x0⟩)
    ∧ Reads .v 0b011100_1010_1_0100110_0010110_0011000#32 none (.fmax (vf 38 22 24))
    ∧ Reads .v 0b011100_1010_1_0100110_0010110_0011000#32 (some 0b0000000_100_01_00_0_0_0000000000000000#32) (.fmax64 (vf 38 22 24) ⟨0, 4, 1, 0, false, 0x0⟩)
    ∧ Reads .v 0b011101_1010_1_1011010_0010110_0011000#32 none (.fcmp (vf 90 22 24))
    ∧ Reads .v 0b011101_1010_1_1011010_0010110_0011000#32 (some 0b0000000_010_01_00_0_0_0000000000000000#32) (.fcmp64 (vf 90 22 24) ⟨0, 2, 1, 0, false, 0x0⟩) := by decide +kernel

theorem test_decode_v_floating_point_functions :
    Reads .v 0b011110_1010_1_0100110_0010110_0000000#32 none (.frcp (vf 38 22 0))
    ∧ Reads .v 0b011110_1010_1_0100110_0010110_0000000#32 (some 0b0000000_101_00_11_1_0_0000000000000000#32) (.frcp64 (vf 38 22 0) ⟨0, 5, 0, 3, true, 0x0⟩)
    ∧ Reads .v 0b011111_1010_1_0100110_0010110_0000000#32 none (.frsq (vf 38 22 0))
    ∧ Reads .v 0b011111_1010_1_0100110_0010110_0000000#32 (some 0b0000000_101_00_11_1_0_0000000000000000#32) (.frsq64 (vf 38 22 0) ⟨0, 5, 0, 3, true, 0x0⟩)
    ∧ Reads .v 0b100000_1010_1_0100110_0010110_0000000#32 none (.fsqrt (vf 38 22 0))
    ∧ Reads .v 0b100000_1010_1_0100110_0010110_0000000#32 (some 0b0000000_101_00_11_1_0_0000000000000000#32) (.fsqrt64 (vf 38 22 0) ⟨0, 5, 0, 3, true, 0x0⟩)
    ∧ Reads .v 0b100001_1010_1_0100110_0010110_0000000#32 none (.fexp2 (vf 38 22 0))
    ∧ Reads .v 0b100001_1010_1_0100110_0010110_0000000#32 (some 0b0000000_011_00_00_1_0_0000000000000000#32) (.fexp264 (vf 38 22 0) ⟨0, 3, 0, 0, true, 0x0⟩)
    ∧ Reads .v 0b100010_1010_1_0100110_0010110_0000000#32 none (.flog2 (vf 38 22 0))
    ∧ Reads .v 0b100010_1010_1_0100110_0010110_0000000#32 (some 0b0000000_011_00_00_1_0_0000000000000000#32) (.flog264 (vf 38 22 0) ⟨0, 3, 0, 0, true, 0x0⟩)
    ∧ Reads .v 0b100011_1010_1_0100110_0010110_0000000#32 none (.fsin (vf 38 22 0))
    ∧ Reads .v 0b100011_1010_1_0100110_0010110_0000000#32 (some 0b0000000_011_00_00_1_0_0000000000000000#32) (.fsin64 (vf 38 22 0) ⟨0, 3, 0, 0, true, 0x0⟩)
    ∧ Reads .v 0b100100_1010_1_0100110_0010110_0000000#32 none (.fcos (vf 38 22 0))
    ∧ Reads .v 0b100100_1010_1_0100110_0010110_0000000#32 (some 0b0000000_011_00_00_1_0_0000000000000000#32) (.fcos64 (vf 38 22 0) ⟨0, 3, 0, 0, true, 0x0⟩)
    ∧ Reads .v 0b100110_1010_1_0100110_0010110_0000000#32 none (.fclass (vf 38 22 0))
    ∧ Reads .v 0b100110_1010_1_0100110_0010110_0000000#32 (some 0b0000000_100_00_00_0_0_0000000000000000#32) (.fclass64 (vf 38 22 0) ⟨0, 4, 0, 0, false, 0x0⟩) := by decide +kernel

theorem test_decode_v_lanes_together :
    Reads .v 0b100111_1010_1_0100110_0010110_0011000#32 none (.shuf (vf 38 22 24))
    ∧ Reads .v 0b100111_1010_1_0100110_0010110_0011000#32 (some 0b0000011_010_01_00_0_0_0000000000000000#32) (.shuf64 (vf 38 22 24) ⟨3, 2, 1, 0, false, 0x0⟩)
    ∧ Reads .v 0b101000_1010_1_0000110_0011011_0000000#32 none (.voteAny (vf 6 27 0))
    ∧ Reads .v 0b101000_1010_1_0100110_0011011_0000000#32 (some 0b0000011_000_00_00_0_0_0000000000000000#32) (.vote64 (vf 38 27 0) ⟨3, 0, 0, 0, false, 0x0⟩)
    ∧ Reads .v 0b101001_1010_1_0100110_0010110_0000000#32 none (.gred (vf 38 22 0))
    ∧ Reads .v 0b101001_1010_1_0100110_0010110_0000000#32 (some 0b0000101_000_00_00_0_0_0000000000000000#32) (.gred64 (vf 38 22 0) ⟨5, 0, 0, 0, false, 0x0⟩)
    ∧ Reads .v 0b101010_1010_1_0100110_0010110_0000000#32 none (.scan (vf 38 22 0))
    ∧ Reads .v 0b101010_1010_1_0100110_0010110_0000000#32 (some 0b0011000_010_00_10_0_0_0000000000000000#32) (.scan64 (vf 38 22 0) ⟨24, 2, 0, 2, false, 0x0⟩)
    ∧ Reads .v 0b101011_1010_1_0100110_0010110_0000000#32 (some 0b0000000_010_00_01_0_0_0000000000000011#32) (.qmx (vf 38 22 0) ⟨0, 2, 0, 1, false, 0x3⟩)
    ∧ Reads .v 0b101100_1010_1_0100110_0010110_0000000#32 (some 0b0000000_010_00_01_0_0_0000000000110000#32) (.dqmx (vf 38 22 0) ⟨0, 2, 0, 1, false, 0x30⟩)
    ∧ Reads .v 0b101101_1010_1_0100110_0010110_0011000#32 (some 0b0000011_010_01_01_0_0_0000000000000000#32) (.pack (vf 38 22 24) ⟨3, 2, 1, 1, false, 0x0⟩)
    ∧ Reads .v 0b101110_1010_1_0100110_0010110_0011000#32 (some 0b0000011_010_01_01_0_0_0000000000000000#32) (.unpk (vf 38 22 24) ⟨3, 2, 1, 1, false, 0x0⟩)
    ∧ Reads .v 0b101111_1010_1_0100110_0000100_0000000#32 none (.gets (vf 38 4 0))
    ∧ Reads .v 0b110000_1010_1_0100110_0010110_0011000#32 (some 0b0000000_010_01_00_0_0_0000000000000000#32) (.movs (vf 38 22 24) ⟨0, 2, 1, 0, false, 0x0⟩)
    ∧ Reads .v 0b110001_1010_1_0001011_0010110_0000000#32 none (.movp (vf 11 22 0))
    ∧ Reads .v 0b110001_1010_1_0100110_0001011_0000000#32 (some 0b0000000_000_00_00_0_0_0000000000000001#32) (.movp64 (vf 38 11 0) ⟨0, 0, 0, 0, false, 0x1⟩) := by decide +kernel

theorem test_decode_m_loads_and_stores_1 :
    Reads .m 0b000000_1010_1_0100110_0010110_0000000#32 none (.ld (vf 38 22 0))
    ∧ Reads .m 0b000000_1010_1_0100100_0010110_0000000#32 (some 0b0000000_100_010_000_1000000000000001#32) (.ld64 (vf 36 22 0) ⟨0, 4, 2, 0, 0x8001⟩)
    ∧ Reads .m 0b000001_1010_1_0100110_0010110_0000000#32 none (.st (vf 38 22 0))
    ∧ Reads .m 0b000001_1010_1_0100110_0010110_1010111#32 (some 0b0000000_011_101_000_1000000000000001#32) (.st64 (vf 38 22 87) ⟨0, 3, 5, 0, 0x8001⟩)
    ∧ Reads .m 0b000010_1010_1_0100110_0010110_1010111#32 (some 0b0000001_000_000_101_1000000000000001#32) (.lds (vf 38 22 87) ⟨1, 0, 0, 5, 0x8001⟩)
    ∧ Reads .m 0b000011_1010_1_0100110_0010110_0000000#32 (some 0b0000000_001_011_100_1000000000000001#32) (.sts (vf 38 22 0) ⟨0, 1, 3, 4, 0x8001⟩)
    ∧ Reads .m 0b000100_1010_1_0100100_0010110_0000000#32 (some 0b0000000_100_100_000_1000000000000001#32) (.ldl (vf 36 22 0) ⟨0, 4, 4, 0, 0x8001⟩)
    ∧ Reads .m 0b000101_1010_1_0100110_0010110_0000000#32 (some 0b0000000_011_100_000_1000000000000001#32) (.stl (vf 38 22 0) ⟨0, 3, 4, 0, 0x8001⟩)
    ∧ Reads .m 0b000110_1010_1_0100110_0010110_0000000#32 none (.ldu (vf 38 22 0))
    ∧ Reads .m 0b000110_1010_1_0100110_0010110_0010111#32 (some 0b0000011_011_101_010_1000000000000001#32) (.ldu64 (vf 38 22 23) ⟨3, 3, 5, 2, 0x8001⟩)
    ∧ Reads .m 0b000111_1010_1_0100110_0010110_0000000#32 none (.stu (vf 38 22 0))
    ∧ Reads .m 0b000111_1010_1_0100110_0010110_0000000#32 (some 0b0000001_011_001_010_1000000000000001#32) (.stu64 (vf 38 22 0) ⟨1, 3, 1, 2, 0x8001⟩)
    ∧ Reads .m 0b001000_1010_1_0100110_0010110_0000000#32 (some 0b1001100_011_010_001_1011100000000001#32) (.atom (vf 38 22 0) ⟨76, 3, 2, 1, 0xB801⟩)
    ∧ Reads .m 0b001001_1010_1_0100110_0010110_0000000#32 (some 0b1001100_010_011_101_0000100000000001#32) (.cas (vf 38 22 0) ⟨76, 2, 3, 5, 0x801⟩)
    ∧ Reads .m 0b001010_1010_1_0000000_0000000_0000000#32 none (.fence (vf 0 0 0))
    ∧ Reads .m 0b001010_1010_1_0000000_0000000_0000000#32 (some 0b0000010_010_000_101_0000000000000000#32) (.fence64 (vf 0 0 0) ⟨2, 2, 0, 5, 0x0⟩) := by decide +kernel

theorem test_decode_m_loads_and_stores_2 :
    Reads .m 0b011000_1010_1_0100110_0010110_0010111#32 (some 0b0001000_010_100_000_1000000000000001#32) (.gath (vf 38 22 23) ⟨8, 2, 4, 0, 0x8001⟩)
    ∧ Reads .m 0b011001_1010_1_0100110_0010110_0010111#32 (some 0b0001000_011_000_000_1000000000000001#32) (.scat (vf 38 22 23) ⟨8, 3, 0, 0, 0x8001⟩) := by decide +kernel

theorem test_decode_m_commands_streams_and_worklists_1 :
    Reads .m 0b001011_1010_1_0100100_0010110_0000000#32 none (.tmov (vf 36 22 0))
    ∧ Reads .m 0b001011_1010_1_0100100_0010110_0000000#32 (some 0b0000000_010_101_101_1000000000000001#32) (.tmov64 (vf 36 22 0) ⟨0, 2, 5, 5, 0x8001⟩)
    ∧ Reads .m 0b001100_1010_1_0100100_0010110_0010111#32 (some 0b0000000_010_101_100_0000000000000000#32) (.tmcast (vf 36 22 23) ⟨0, 2, 5, 4, 0x0⟩)
    ∧ Reads .m 0b001101_1010_1_0100110_0010110_0000000#32 none (.twait (vf 38 22 0))
    ∧ Reads .m 0b001110_1010_1_0100110_0010110_0000000#32 none (.tstat (vf 38 22 0))
    ∧ Reads .m 0b001111_1010_1_0001011_0010110_0000000#32 none (.sbind (vf 11 22 0))
    ∧ Reads .m 0b001111_1010_1_0001011_0010110_0000000#32 (some 0b0000000_001_011_000_0000000000000000#32) (.sbind64 (vf 11 22 0) ⟨0, 1, 3, 0, 0x0⟩)
    ∧ Reads .m 0b010000_1010_1_0001011_0000000_0000000#32 none (.sfree (vf 11 0 0))
    ∧ Reads .m 0b010001_1010_1_0000110_0010110_0000000#32 none (.semw (vf 6 22 0))
    ∧ Reads .m 0b010001_1010_1_0000110_0010110_0010111#32 (some 0b0001001_010_101_010_1000000000000001#32) (.semw64 (vf 6 22 23) ⟨9, 2, 5, 2, 0x8001⟩)
    ∧ Reads .m 0b010010_1010_1_0000000_0010110_0000000#32 none (.sems (vf 0 22 0))
    ∧ Reads .m 0b010010_1010_1_0000000_0010110_0000000#32 (some 0b0001001_010_001_010_1000000000000001#32) (.sems64 (vf 0 22 0) ⟨9, 2, 1, 2, 0x8001⟩)
    ∧ Reads .m 0b010011_1010_1_0100110_0010110_0000000#32 none (.slot (vf 38 22 0))
    ∧ Reads .m 0b010100_1010_1_0100100_0010110_0000000#32 none (.csend (vf 36 22 0))
    ∧ Reads .m 0b010101_1010_1_0100100_0010110_0010111#32 (some 0b0000000_100_010_010_0000000000000000#32) (.wlapp (vf 36 22 23) ⟨0, 4, 2, 2, 0x0⟩)
    ∧ Reads .m 0b010110_1010_1_0100100_0010110_0010111#32 (some 0b0001011_100_011_101_0000000000000000#32) (.wltake (vf 36 22 23) ⟨11, 4, 3, 5, 0x0⟩) := by decide +kernel

theorem test_decode_m_commands_streams_and_worklists_2 :
    Reads .m 0b010111_1010_1_0000000_0000000_0010111#32 none (.wldone (vf 0 0 23))
    ∧ Reads .m 0b010111_1010_1_0000000_0000000_0010111#32 (some 0b0000000_010_011_000_0000000000000000#32) (.wldone64 (vf 0 0 23) ⟨0, 2, 3, 0, 0x0⟩) := by decide +kernel

theorem test_decode_x_nests_1 :
    Reads .x 0b000000_101_1_000000_010111_001101_0110#32 none (.mcfg kg 6 23 13)
    ∧ Reads .x 0b000000_101_1_000000_010111_001101_1110#32 none (.mcfgAct kg 6 23 13)
    ∧ Reads .x 0b000001_101_1_000000_000000_000000_0000#32 none (.mnest kg)
    ∧ Reads .x 0b000010_101_1_000000_010111_001101_0000#32 none (.mma kg 23 13)
    ∧ Reads .x 0b000010_101_1_000000_010111_001101_0001#32 none (.mmaOvw kg 23 13)
    ∧ Reads .x 0b000011_101_1_000000_010111_000000_1011#32 none (.mfmt kg 11 23)
    ∧ Reads .x 0b000100_101_1_000000_010111_000000_0000#32 none (.awin kg 23)
    ∧ Reads .x 0b000101_101_1_000000_010111_000000_0000#32 none (.aclr kg 23)
    ∧ Reads .x 0b000110_101_1_100110_010111_001101_0000#32 (some 0b0000000000_100_101_1000000000000001#32) (.aepi kg 38 23 13 32769 5 4)
    ∧ Reads .x 0b000111_101_1_100110_010111_000000_0000#32 none (.ald kg 38 23)
    ∧ Reads .x 0b001000_101_1_100110_010111_000000_0000#32 none (.ast kg 38 23)
    ∧ Reads .x 0b001001_101_1_100110_010111_000000_0000#32 none (.mstatStat kg 38 23)
    ∧ Reads .x 0b001001_101_1_100110_010111_000000_0001#32 none (.mstatWait kg 38 23)
    ∧ Reads .x 0b001001_101_1_100110_010111_000000_0010#32 none (.mstatOvf kg 38 23)
    ∧ Reads .x 0b001001_101_1_100110_010111_000000_0011#32 none (.mstatOvfc kg 38 23)
    ∧ Reads .x 0b001001_101_1_100110_010111_000000_0100#32 none (.mstatFerr kg 38 23) := by decide +kernel

theorem test_decode_x_nests_2 :
    Reads .x 0b001001_101_1_100110_010111_000000_0101#32 none (.mstatFerrc kg 38 23)
    ∧ Reads .x 0b001001_101_1_100110_010111_000000_0110#32 none (.mstatNest kg 38 23)
    ∧ Reads .x 0b001001_101_1_100110_010111_000000_0111#32 none (.mstatNests kg 38 23)
    ∧ Reads .x 0b001001_101_1_100110_010111_000000_1000#32 none (.mstatFmt kg 38 23)
    ∧ Reads .x 0b001010_101_1_000000_000000_000000_0000#32 none (.mstop kg) := by decide +kernel

theorem test_decode_d_analyser_1 :
    Reads .d 0b000000_101_1_000000_000000_000000_0000#32 none (.dclaim kg)
    ∧ Reads .d 0b000000_101_1_000110_000000_000000_0001#32 none (.dclaimTry kg 6)
    ∧ Reads .d 0b000001_101_1_000000_000000_000000_0000#32 none (.dfree kg)
    ∧ Reads .d 0b000010_101_1_000000_010111_001101_0000#32 none (.dpatch kg 23 13)
    ∧ Reads .d 0b000011_101_1_100110_010111_001101_0000#32 none (.dinit kg 38 23 13)
    ∧ Reads .d 0b000100_101_1_100110_010111_000000_0000#32 none (.dsave kg 38 23)
    ∧ Reads .d 0b000100_101_1_100110_000000_000000_0001#32 none (.dsaveTq kg 38)
    ∧ Reads .d 0b000101_101_1_100110_000000_000000_0000#32 none (.drest kg 38)
    ∧ Reads .d 0b000101_101_1_100110_000000_000000_0001#32 none (.drestTq kg 38)
    ∧ Reads .d 0b000110_101_1_000000_010111_000000_0010#32 none (.dclk kg 2 23)
    ∧ Reads .d 0b000111_101_1_000000_010111_000000_1001#32 none (.dstep kg 9 23)
    ∧ Reads .d 0b000111_101_1_000000_000000_000000_1001#32 (some 0b10000000000000000000000100100011#32) (.dstep64 kg 9 0x80000123)
    ∧ Reads .d 0b001000_101_1_000000_010111_000000_1001#32 none (.drun kg 9 23)
    ∧ Reads .d 0b001000_101_1_000000_000000_000000_1001#32 (some 0b10000000000000000000000100100011#32) (.drun64 kg 9 0x80000123)
    ∧ Reads .d 0b001001_101_1_000000_000000_000000_1001#32 none (.dhalt kg 9)
    ∧ Reads .d 0b001010_101_1_000000_010111_000000_1011#32 none (.dtap kg 11 23) := by decide +kernel

theorem test_decode_d_analyser_2 :
    Reads .d 0b001011_101_1_100110_010111_000000_0000#32 none (.drdY kg 38 23)
    ∧ Reads .d 0b001011_101_1_100110_010111_000000_0001#32 none (.drdR kg 38 23)
    ∧ Reads .d 0b001011_101_1_100110_010111_000000_0010#32 none (.drdPatch kg 38 23)
    ∧ Reads .d 0b001011_101_1_100110_010111_000000_0011#32 none (.drdDz kg 38 23)
    ∧ Reads .d 0b001011_101_1_100110_010111_000000_0100#32 none (.drdTapc kg 38 23)
    ∧ Reads .d 0b001011_101_1_100110_010111_000000_0101#32 none (.drdTapn kg 38 23)
    ∧ Reads .d 0b001011_101_1_100110_010111_000000_0110#32 none (.drdPort kg 38 23)
    ∧ Reads .d 0b001100_101_1_000000_010111_001101_0000#32 none (.dwrY kg 23 13)
    ∧ Reads .d 0b001100_101_1_000000_010111_001101_0001#32 none (.dwrR kg 23 13)
    ∧ Reads .d 0b001100_101_1_000000_010111_001101_0010#32 none (.dwrPort kg 23 13)
    ∧ Reads .d 0b001100_101_1_000000_010111_001101_0011#32 none (.dwrPcfg kg 23 13)
    ∧ Reads .d 0b001100_101_1_000000_010111_001101_0100#32 none (.dwrTapc kg 23 13)
    ∧ Reads .d 0b001101_101_1_100110_000000_000000_0000#32 none (.dstatStat kg 38)
    ∧ Reads .d 0b001101_101_1_100110_000000_000000_0001#32 none (.dstatWait kg 38)
    ∧ Reads .d 0b001101_101_1_100110_010111_000000_0010#32 none (.dstatSteps kg 38 23) := by decide +kernel

theorem test_decode_b_beams :
    Reads .b 0b000000_1010_1_0000000_0000000_0010111#32 (some 0b0000000_000_01_00_0_0_0000000000010001#32) (.bvhset (vf 0 0 23) ⟨0, 0, 1, 0, false, 0x11⟩)
    ∧ Reads .b 0b000001_1010_1_0000000_0000000_0010111#32 (some 0b0001011_000_01_00_0_0_0000000000000000#32) (.beam (vf 0 0 23) ⟨11, 0, 1, 0, false, 0x0⟩)
    ∧ Reads .b 0b000010_1010_1_0100100_0010110_0000000#32 none (.ray (vf 36 22 0))
    ∧ Reads .b 0b000010_1010_1_0100100_0010110_0000000#32 (some 0b0000000_000_00_00_0_0_0000000000000000#32) (.ray64 (vf 36 22 0) ⟨0, 0, 0, 0, false, 0x0⟩)
    ∧ Reads .b 0b000011_1010_1_0100110_0000000_0000000#32 (some 0b0001011_000_00_00_0_0_0000000000110000#32) (.bres (vf 38 0 0) ⟨11, 0, 0, 0, false, 0x30⟩)
    ∧ Reads .b 0b000100_1010_1_0100110_0000000_0000000#32 (some 0b0001011_000_00_00_0_0_0000000000110000#32) (.bsplit (vf 38 0 0) ⟨11, 0, 0, 0, false, 0x30⟩)
    ∧ Reads .b 0b000101_1010_1_0000000_0000000_0010111#32 (some 0b0001011_000_01_00_0_0_0000000000000000#32) (.cover (vf 0 0 23) ⟨11, 0, 1, 0, false, 0x0⟩)
    ∧ Reads .b 0b000110_1010_1_0000000_0010110_0010111#32 (some 0b0000000_000_01_00_0_0_0000000000000000#32) (.robeg (vf 0 22 23) ⟨0, 0, 1, 0, false, 0x0⟩)
    ∧ Reads .b 0b000111_1010_1_0000000_0000000_0000000#32 none (.roend (vf 0 0 0))
    ∧ Reads .b 0b001000_1010_1_0000000_0100100_0010111#32 (some 0b0001011_000_01_00_0_0_0000000000110000#32) (.gbst (vf 0 36 23) ⟨11, 0, 1, 0, false, 0x30⟩)
    ∧ Reads .b 0b001001_1010_1_0100110_0000000_0000000#32 (some 0b0001011_000_00_00_0_0_0000000000000000#32) (.bstatSlot (vf 38 0 0) ⟨11, 0, 0, 0, false, 0x0⟩)
    ∧ Reads .b 0b001001_1010_1_0100110_0000000_0000000#32 (some 0b0010000_000_00_00_0_0_0000000000000000#32) (.bstatScene (vf 38 0 0) ⟨16, 0, 0, 0, false, 0x0⟩)
    ∧ Reads .b 0b001001_1010_1_0100110_0000000_0000000#32 (some 0b0100000_000_00_00_0_0_0000000000000000#32) (.bstatDepth (vf 38 0 0) ⟨32, 0, 0, 0, false, 0x0⟩)
    ∧ Reads .b 0b001001_1010_1_0100110_0000000_0000000#32 (some 0b0110000_000_00_00_0_0_0000000000000000#32) (.bstatOrd (vf 38 0 0) ⟨48, 0, 0, 0, false, 0x0⟩)
    ∧ Reads .b 0b001001_1010_1_0100110_0000000_0000000#32 (some 0b1000000_000_00_00_0_0_0000000000000000#32) (.bstatOrda (vf 38 0 0) ⟨64, 0, 0, 0, false, 0x0⟩) := by decide +kernel
/-! ## Single steps: K engine -/

/-- R103: 2^64 − 1 + 2 wraps to 1. -/
theorem test_sadd_wraps :
    sees (exec (.sadd yes 3 1 2) (withS bench [0xFFFFFFFFFFFFFFFF, 2])) (fun t => t.getS 3 == 1 && t.pcOf .k == 0x10008) = true := by
  decide +kernel

/-- R103: the upper halves of −1 × 2, signed and unsigned. -/
theorem test_smul_hi :
    (sees (exec (.smulHi yes 3 1 2) (withS bench [0xFFFFFFFFFFFFFFFF, 2])) (fun t => t.getS 3 == 0xFFFFFFFFFFFFFFFF)
      && sees (exec (.smulHiu yes 3 1 2) (withS bench [0xFFFFFFFFFFFFFFFF, 2])) (fun t => t.getS 3 == 1)) = true := by
  decide +kernel

/-- R104: only bits [5:0] of the count matter: a shift by 127 is one by 63. -/
theorem test_sshr_counts :
    (sees (exec (.sshr yes 3 1 2) (withS bench [0x8000000000000000, 127])) (fun t => t.getS 3 == 1)
      && sees (exec (.sshrA yes 3 1 2) (withS bench [0x8000000000000000, 127])) (fun t => t.getS 3 == 0xFFFFFFFFFFFFFFFF)) = true := by
  decide +kernel

/-- R102: the 64-bit SLI sign-extends 48 bits. R20: a write to s0 is discarded. -/
theorem test_sli64_extends :
    (sees (exec (.sli64 yes 3 0x8000 1) bench) (fun t => t.getS 3 == 0xFFFF800000000001)
      && sees (exec (.sli64 yes 0 0x8000 1) bench) (fun t => t.getS 0 == 0 && t.pcOf .k == 0x1000C)) = true := by
  decide +kernel

/-- R105: −1 is below 1 as a signed number, and above it as an unsigned one. -/
theorem test_scmp_signs :
    (sees (exec (.scmp yes 3 1 2 2) (withS bench [0xFFFFFFFFFFFFFFFF, 1])) (fun t => t.occ.getQ 3)
      && sees (exec (.scmp yes 3 1 2 4) (withS bench [0xFFFFFFFFFFFFFFFF, 1])) (fun t => !t.occ.getQ 3)) = true := by
  decide +kernel

/-- R47: a guard that does not hold leaves everything but the pc. -/
theorem test_guard_off :
    sees (exec (.sadd { q := 3, n := false } 3 1 2) (withS bench [5, 6])) (fun t => t.getS 3 == 0 && t.pcOf .k == 0x10008) = true := by
  decide +kernel

/-- R32: %PARKT reads its reset value; a write of the read-only %GROUP takes 0x0B. -/
theorem test_scsr :
    (sees (exec (.scsrRead yes 3 0x030) bench) (fun t => t.getS 3 == 20000)
      && sees (exec (.scsrWrite yes 3 0x003) bench) (fun t => took t 0x0B 0 0x10004)) = true := by
  decide +kernel

/-- The worked example behind R120: BRV p1 with mask 0x5555 transfers to line 1, which carries T. -/
theorem test_brv_example :
    sees (exec (.brv 1 false 1) (put (withP1 bench 0x5555) 0x10020 [1])) (fun t =>
      t.occ.flow.mask == 0x5555 && t.pcOf .v == 0x10024
        && t.occ.flow.div == [{ vKind := false, treg := 0, saved := 0xFFFF, pending := 0xAAAA, pendpc := 0x1000C }]) = true := by
  decide +kernel

/-- The same example: the first JOIN runs the pending lanes at pendpc, the second restores the mask. -/
theorem test_join_example :
    let at' (e : DivEntry) (m : DWord) : State := bench.mapOcc fun o =>
      { o with pcs := Pcs.all 0x10044, flow := { o.flow with mask := m, div := [e] } }
    let e : DivEntry := { vKind := false, treg := 0, saved := 0xFFFF, pending := 0xAAAA, pendpc := 0x1000C }
    (sees (exec .join (at' e 0x5555)) (fun t => t.occ.flow.mask == 0xAAAA && t.pcOf .k == 0x1000C
        && t.occ.flow.div == [{ e with pending := 0 }])
      && sees (exec .join (at' { e with pending := 0 } 0xAAAA)) (fun t => t.occ.flow.mask == 0xFFFF && t.pcOf .k == 0x10048
        && t.occ.flow.div == [])) = true := by
  decide +kernel

/-- The example of nested loops behind R123: at line C, lc1 ends and lc0 loops back to line B. -/
theorem test_nested_loops_example :
    let s := bench.mapOcc fun o => { o with pcs := Pcs.all 0x10060, flow := { o.flow with lc := [2, 1], loops :=
      [{ lc := 1, start := 0x10040, span := 1, ddepth := 0, rdepth := 0 }, { lc := 0, start := 0x10020, span := 2, ddepth := 0, rdepth := 0 }] } }
    sees (exec .lineEndAction (put s 0x10020 [1])) (fun t => t.occ.getLc 0 == 1 && t.occ.getLc 1 == 0 && t.pcOf .k == 0x10024
      && t.occ.flow.loops.length == 1) = true := by
  decide +kernel

/-- R122: E = 0 takes 0x1B; a count of 3 binds the loop. -/
theorem test_loop_opens :
    (sees (exec (.loopOpen yes 1 true 0 0 3) bench) (fun t => t.occ.tcause.toNat % 64 == 0x1B)
      && sees (exec (.loopOpen yes 1 true 0 2 3) bench) (fun t => t.occ.getLc 1 == 3 && t.occ.flow.loops.length == 1)) = true := by
  decide +kernel

/-- R134, R371: TRAP 0x8001 ends with %EPC.K behind it, v0 of lane 15 at 60, and the pc at the trap vector. -/
theorem test_trap_enters :
    sees (exec (.trap yes 0x8001) bench) (fun t => took t 0x19 0x8001 0x10004 && t.occ.epc.k == 0x10008 && t.occ.getV 0 15 == 60
      && t.pcOf .b == 0x20004) = true := by
  decide +kernel

/-- R137: RFT at user level takes 0x03. -/
theorem test_rft_is_privileged : sees (exec .rft bench) (fun t => took t 0x03 0 0x10004) = true := by decide +kernel

/-- R324: the example of register credit, on a group of width 16: VGIVE 56 leaves 8 registers and a credit of 896. -/
theorem test_vgive_credits :
    sees (exec (.vgive yes 56) bench) (fun t => t.occ.count == 8 && t.teams.map Team.credit == [896]) = true := by decide +kernel

/-- R324: VCLAIM 8 beyond 128 registers takes 0x0B. -/
theorem test_vclaim_beyond :
    sees (exec (.vclaim yes 68) bench) (fun t => took t 0x0B 0 0x10004) = true := by decide +kernel

/-- R306: SPAWN of card 0 takes 0x0B with the number in %TINFO. -/
theorem test_spawn_no_card : sees (exec (.spawn yes 1) (withS bench [7])) (fun t => took t 0x0B 7 0x10004) = true := by decide +kernel

/-- R311: FSET of an empty future at 0x3000 stores the value and the state 1. R312: LOCKA takes a free lock for holder
2^31 + die 2. -/
theorem test_fset_locka :
    (sees (exec (.fset yes 1 2) (withS bench [0x3000, 77])) (fun t => t.mem.getN 0x3000 8 == 77 && t.mem.getN 0x300E 1 == 1)
      && sees (exec (.locka yes 1) (withS bench [0x3000])) (fun t => t.mem.getN 0x3000 4 == 0xC0000000)) = true := by
  decide +kernel

/-! ## Single steps: V engine -/

/-- R148: 0x7FFFFFFF + 1 saturates in each of 16 lanes, and the counter of the core takes 16. -/
theorem test_vadd_saturates :
    sees (exec (.vadd64 (al 2 1 0) ⟨0, 0, 3, 0, true, 1⟩) (withV bench [[], List.replicate 16 0x7FFFFFFF])) (fun t =>
      t.occ.getV 2 0 == 0x7FFFFFFF && t.occ.getV 2 15 == 0x7FFFFFFF && t.core.overflow == 16) = true := by
  decide +kernel

/-- The example of R149: BFE of 0x0604 from 0x0B70, signed and unsigned. -/
theorem test_bfe_example :
    (sees (exec (.bfe64 (al 1 2 0) ⟨0, 0, 3, 0, false, 0x0604⟩) (withV bench [[], [], [0xB70]])) (fun t => t.occ.getV 1 0 == 0xFFFFFFF7)
      && sees (exec (.bfe64 (al 1 2 0) ⟨0, 1, 3, 0, false, 0x0604⟩) (withV bench [[], [], [0xB70]])) (fun t => t.occ.getV 1 0 == 0x37)) = true := by
  decide +kernel

/-- R148: a shift by 32 is one by 0 on 32 bits; R150: an unsigned compare of −1 with 1. -/
theorem test_shl_cmp :
    (sees (exec (.shl (al 2 1 0)) (withV bench [[32], [5]])) (fun t => t.occ.getV 2 0 == 5)
      && sees (exec (.cmp64 (al 0b1000010 1 0) ⟨0, 1, 3, 0, false, 1⟩) (withV bench [[], [0xFFFFFFFF, 1]])) (fun t =>
        t.occ.getP 2 == 1)) = true := by
  decide +kernel

/-- R74: 1 + 2^−24 is a tie and rounds to 1; toward +∞ it rounds to 1 + 2^−23. -/
theorem test_fadd_rounds :
    (sees (exec (.fadd (al 2 0 1)) (withV bench [[0x3F800000], [0x33800000]])) (fun t => t.occ.getV 2 0 == 0x3F800000)
      && sees (exec (.fadd64 (al 2 0 1) ⟨0, 2, 0, 3, false, 0⟩) (withV bench [[0x3F800000], [0x33800000]])) (fun t =>
        t.occ.getV 2 0 == 0x3F800001)) = true := by
  decide +kernel

/-- R157: minimumNumber of a NaN and 1 is 1; the root of −1 is the canonical NaN; 1 / −0 is −∞. -/
theorem test_float_specials :
    (sees (exec (.fmin (al 2 0 1)) (withV bench [[0x7F800001], [0x3F800000]])) (fun t => t.occ.getV 2 0 == 0x3F800000)
      && sees (exec (.fsqrt (al 2 0 0)) (withV bench [[0xBF800000]])) (fun t => t.occ.getV 2 0 == 0x7FC00000)
      && sees (exec (.fdiv (al 2 0 1)) (withV bench [[0x3F800000], [0x80000000]])) (fun t => t.occ.getV 2 0 == 0xFF800000)) = true := by
  decide +kernel

/-- R156: 2^3 = 8, log2 8 = 3, the sine of a quarter turn is 1, 1/3 rounds to 0x3EAAAAAB. -/
theorem test_float_functions :
    (sees (exec (.fexp2 (al 2 0 0)) (under (withV bench [[0x40400000]]) 1)) (fun t => t.occ.getV 2 0 == 0x41000000)
      && sees (exec (.flog2 (al 2 0 0)) (under (withV bench [[0x41000000]]) 1)) (fun t => t.occ.getV 2 0 == 0x40400000)
      && sees (exec (.fsin (al 2 0 0)) (under (withV bench [[0x3E800000]]) 1)) (fun t => t.occ.getV 2 0 == 0x3F800000)
      && sees (exec (.frcp (al 2 0 0)) (under (withV bench [[0x40400000]]) 1)) (fun t => t.occ.getV 2 0 == 0x3EAAAAAB)) = true := by
  decide +kernel

/-- R155: 3 × 10^9 does not fit I32, and 2.5 rounds to 2. -/
theorem test_cvt :
    sees (exec (.cvt (al 2 0 0) ⟨0, 0, 0, 0, true, 0x20⟩) (under (withV bench [[0x4F32D05E, 0x40200000]]) 3)) (fun t =>
      t.occ.getV 2 0 == 0x7FFFFFFF && t.occ.getV 2 1 == 2 && t.core.overflow == 1) = true := by
  decide +kernel

/-- The example of R95: 1.0, +0, 2^−24 and 2^−24 add up to 1 + 2^−23 in the tree. -/
theorem test_gred_example :
    sees (exec (.gred64 (al 2 0 0) ⟨0, 2, 0, 0, false, 0⟩) (withV bench [[0x3F800000, 0, 0x33800000, 0x33800000]])) (fun t =>
      t.occ.getV 2 0 == 0x3F800001 && t.occ.getV 2 15 == 0x3F800001) = true := by
  decide +kernel

/-- R159, R160: SHUF.DOWN 1 takes the next lane, and the last lane its own; BALLOT of p1. -/
theorem test_shuf_ballot :
    (sees (exec (.shuf64 (al 2 0 0) ⟨2, 0, 3, 0, false, 1⟩) (withV bench [(List.range 16).map fun i => BitVec.ofNat 32 (100 + i)])) (fun t =>
        t.occ.getV 2 0 == 101 && t.occ.getV 2 15 == 115)
      && sees (exec (.vote64 (al 5 1 0) ⟨3, 0, 0, 0, false, 0⟩) (withP1 bench 0x5555)) (fun t => t.getS 5 == 0x5555)) = true := by
  decide +kernel

/-- The example of R167: QMX.MX4 of the granule of the quantiser example gives this record. -/
theorem test_qmx_example :
    let v : List Word := [0x3F800000, 0x3F400000, 0xBFC00000, 0x40000000, 0x42200000, 0x42400000, 0xC1A00000, 0x3E800000, 0x40400000, 0x3F000000]
    sees (exec (.qmx (al 40 8 0) ⟨0, 2, 0, 0, false, 2⟩) (withV bench [[], [], [], [], [], [], [], [], v])) (fun t =>
      t.occ.getV 40 0 == 0x0C766D34 && t.occ.getV 40 1 == 0x27 && t.occ.getV 40 8 == 0x111 && t.occ.getV 40 9 == 0x100
        && t.occ.getV 40 2 == 0) = true := by
  decide +kernel

/-! ## Single steps: M engine -/

/-- R7, R175: a 64-bit load in GLOBAL puts the low four bytes into the even register. -/
theorem test_ld64_pairs :
    sees (exec (.ld64 (al 4 0 0) ⟨0, 3, 0, 0, 8⟩) (put (under (withV bench [[0x3000], [0]]) 1) 0x3008 [1, 2, 3, 4, 5, 6, 7, 8]))
      (fun t => t.occ.getV 4 0 == 0x04030201 && t.occ.getV 5 0 == 0x08070605 && t.occ.getV 4 1 == 0) = true := by
  decide +kernel

/-- R176, R336: a plain store is pending, and a load of its group sees it. -/
theorem test_st_is_seen :
    let s := under (withV bench [[0x3000], [0], [0x11223344]]) 1
    sees (exec (.st (al 2 0 0)) s) (fun t => t.mem == s.mem && t.peek 0x3001 == 0x33
      && sees (exec (.ld (al 3 0 0)) t) fun u => u.occ.getV 3 0 == 0x11223344) = true := by
  decide +kernel

/-- R172: a misaligned load takes 0x04 with the address. -/
theorem test_ld_misaligned :
    sees (exec (.ld (al 3 0 0)) (under (withV bench [[0x3002], [0]]) 1)) (fun t =>
      t.occ.tcause == 0x84 && t.occ.taddr == 0x3002) = true := by
  decide +kernel

/-- R173: UNIT reaches 16384 bytes here; the next word takes 0x07. -/
theorem test_unit_extent :
    (sees (exec (.ldu64 (al 3 1 0) ⟨0, 2, 1, 0, 0⟩) (withS bench [16380])) (fun t => t.getS 3 == 0 && !t.occ.trapLevel)
      && sees (exec (.ldu64 (al 3 1 0) ⟨0, 2, 1, 0, 0⟩) (withS bench [16384])) (fun t => t.occ.tcause == 0x87)) = true := by
  decide +kernel

/-- R175: LDU.SX of the byte 0x80. -/
theorem test_ldu_sx :
    sees (exec (.ldu64 (al 3 1 0) ⟨2, 0, 0, 0, 0⟩) (put (withS bench [0x3000]) 0x3000 [0x80])) (fun t =>
      t.getS 3 == 0xFFFFFFFFFFFFFF80) = true := by
  decide +kernel

/-- The example of R183: TMOV accepts the transposition, and its element 1 goes from 0x404 to 0x1010. -/
theorem test_tmov_example :
    let q := (List.replicate 7 0) ++ [0x2000000000000400, 0x2000000000001000, 0x0007001200040008, 0x0000001000000020]
    let s := put (withS bench q) (unitKey 512 0x404) [0xAB]
    sees (exec (.tmov (al 8 0 0)) s) (fun t => t.occ.cmds.length == 1
      && sees (exec (.moveProgress 2 ((t.occ.cmds.map MemCmd.uid).headD 0)) t) fun u =>
        sees (exec (.moveProgress 2 ((t.occ.cmds.map MemCmd.uid).headD 0)) u) fun v => v.mem.getN (unitKey 512 0x1010) 1 == 0xAB) = true := by
  decide +kernel

/-- R196: SEMW of 2 waits on a count of 1, with wait kind 2 and detail 2. -/
theorem test_semw_waits :
    sees (exec (.semw64 (al 3 1 0) ⟨2, 2, 0, 1, 0⟩) (put (withS bench [0x3000]) 0x3000 [1])) (fun t =>
      t.occ.wait.any fun w => w.kind == 2 && w.detail == 2) = true := by
  decide +kernel

/-- The first row of the felt example: SLOT on a ring with FREE 2 takes slot 0 and leaves FREE 1, TAIL 1. -/
theorem test_slot_example :
    let s := (withS shade [0x20005]).modCore (Config.coreKey 2 5) fun c => { c with felt := 0x0400020040000000 }
    sees (exec (.slot (al 3 1 0)) (put s (unitKey (Config.coreKey 2 5) 0) [2])) (fun t =>
      t.mem.getN (unitKey (Config.coreKey 2 5) 0) 4 == 1 && t.mem.getN (unitKey (Config.coreKey 2 5) 17) 1 == 1
        && t.getS 3 == 0x20005) = true := by
  decide +kernel

/-! ## Single steps: X, D and B engines, and the device -/

/-- R211: MFMT sets entry 2; an entry with the reserved A format 10 takes 0x1D. -/
theorem test_mfmt :
    (sees (exec (.mfmt yes 2 1) (withS bench [0x666])) (fun t => t.occ.fmts.getD 2 0 == 0x666 && t.occ.fmts.getD 1 0 == 0x3FFF)
      && sees (exec (.mfmt yes 2 1) (withS bench [0x66A])) (fun t => took t (0x1D + 3 * 64) 2 0x10004)) = true := by
  decide +kernel

/-- R92, R93 (the example of R210): 2^24 + 15 × 1 in one chunk is exact, and rounds to 2^24 + 16. -/
theorem test_chunk_example :
    arrayDot 4 true 0 (List.replicate 16 (.pow2 0) ++ List.replicate 48 (.zero false)) (.pow2 24 :: List.replicate 15 (.pow2 0) ++ List.replicate 48 (.zero false))
      = 0x4B800008 := by
  decide +kernel

/-- Step 6 of the quadratic chain in the examples of R237: both cells overflow, and the tap counts one. -/
theorem test_dda_example :
    let d : Dda := { Dda.reset with
      cells := [{ Cell.reset with y := 0x40000000, r := 0x40000000, patch := 0x0400FFDFFA00 },
                { Cell.reset with y := 0x20000000, r := 0x60000000, patch := 0x043AFFC00200 }]
      doms := [{ Dom.reset with mode := 1, remain := 3, steps := 5 }], taps := [{ Tap.reset with cell := 1, sink := 1 }] }
    (match d.cycle [0] (List.replicate 16 0) with
      | .ok e => (e.cell 0).dz == 1 && (e.cell 0).r == 0x80000000 && (e.cell 1).y == 0x20000000 && (e.cell 1).r == 0x80000000
          && (e.cell 1).dz == 1 && (e.tap 0).counter == 1
      | .error _ => false) = true := by
  decide +kernel

/-- R250: DCLAIM.TRY takes a free DDA; any other D instruction without it takes 0x11. -/
theorem test_dclaim :
    (sees (exec (.dclaimTry yes 3) bench) (fun t => t.occ.getQ 3 && t.core.dda.owner == some (2, 0))
      && sees (exec (.dfree yes) bench) (fun t => took t (0x11 + 4 * 64) 0 0x10004)) = true := by
  decide +kernel

/-- R281: ROBEG enters at the value of the order word, and waits below it. -/
theorem test_robeg :
    (sees (exec (.robeg (al 0 1 2) ⟨0, 0, 1, 0, false, 0⟩) (put (withS shade [0x3000, 4]) 0x3000 [4])) (fun t =>
        t.occ.token == some (0x3000, 4))
      && sees (exec (.robeg (al 0 1 2) ⟨0, 0, 1, 0, false, 0⟩) (put (withS shade [0x3000, 4]) 0x3000 [3])) (fun t =>
        t.occ.wait.any fun w => w.kind == 8 && w.detail == 4)) = true := by
  decide +kernel

/-- The example of R294: the mark of step 1 at 11,020 ns predicts 11,820, past 11,800, and step 2 is dropped for plan 1. -/
theorem test_governor_example :
    let at' := fun (off x : Nat) => x * 2 ^ (8 * off)
    let p := 0xF6A1 + at' 2 2 + at' 4 0x0401 + at' 8 10450 + at' 64 (400 + 450 * 2 ^ 32) + at' 72 400 + at' 80 400 + at' 88 400
      + at' 576 4 + at' 584 0x101 + at' 588 0x01000202 + at' 592 0x303 + at' 704 3 + at' 712 0x101 + at' 716 0x303
    Plan.mark p 1 11020 12000 200 = { cur := 1, pos := 2, flags := 4, ewma := some (1, 570), changed := true } := by
  decide +kernel

/-- The first row of the example of R359: tile 3 asks for 102,000 units of the full budget and leaves 34,000. -/
theorem test_leave_example :
    let c : XCmd := { uid := 9, op := 1, args := [], fmts := [], table := [], granted := false, started := false, next := 0,
                      sem := none, ranges := [], addr := 0 }
    let s := (bench.mapOcc fun o => { o with xcmds := [c] }).modDie 2 fun d => { d with leave := [{ gid := 2, cmd := 9, charge := 102000 }] }
    sees (exec (.currentGovernorCycle 2) s) (fun t => (t.dieAt 2).budget == 34000 && t.occ.xcmds.all XCmd.granted) = true := by
  decide +kernel

/-- R405: CREATE of a context with an illegal descriptor ends with result 1 and signals its vector; R408: POWCAP takes 1400. -/
theorem test_host_commands :
    (sees (exec (.create 5) State.reset) (fun t => !(t.ctxAt 5).busy && t.signals.length == 1)
      && sees (exec (.registerWrite 0x10 1400) State.reset) (fun t => t.powcap == 1400)
      && sees (exec (.registerWrite 0x10 1399) State.reset) (fun t => t.powcap == 2600)) = true := by
  decide +kernel

/-- R410: a link that loses a lane goes on with 4, and fails when it loses another. -/
theorem test_link_lanes :
    sees (exec (.linkErrorRetrain 3 true) State.reset) (fun t => (t.links.getD 3 (Channel.up 8)).lanes == 4
      && sees (exec (.linkErrorRetrain 3 true) t) fun u => (u.links.getD 3 (Channel.up 8)).failed) = true := by
  decide +kernel

/-- R413: the first SPDM request is answered with version 1.3. -/
theorem test_spdm_version : sees (exec .getVersion State.reset) (fun t => t.spdm == [(0x04, [0x13])]) = true := by decide +kernel

/-- A step from reset runs the instruction placed for it, and the clock goes on. -/
theorem test_step_runs :
    sees (step (State.reset.withFetchWord 32 0x0C0304F0)) (fun t => t.me.run == .running && t.tod == 1 && t.pcOf .k == 0x10008) = true := by
  decide +kernel

/-! ## Witnesses

For each statement that has hypotheses, a state and operands that meet them; one for each clause. What cannot be decided as
it stands is decided through a function, which a lemma below ties to it. -/

def countB (s : State) (i : Instr) : Bool :=
  match i.form with
  | none => true
  | some fm => (fm.countDefects s.occ.width s.occ.count).isEmpty

theorem countOk_of {s : State} {i : Instr} (h : countB s i = true) : s.CountOk i := by
  intro fm hf
  simp only [countB, hf, List.isEmpty_iff] at h
  exact h

def readyB (s : State) (f : VF) (x : VX) (word : Bool) : Bool :=
  x.bk != 2 || (s.lanes .v f).isEmpty || (!s.portBound f.b.toNat
    && decide ((s.lanes .v f).length * perLane x word ≤ (s.arrived f.b.toNat).length))

theorem operandReady_of {s : State} {f : VF} {x : VX} {word : Bool} (h : readyB s f x word = true) : s.OperandReady f x word := by
  intro hb hl
  simpa [readyB, hb, hl] using h

def carriesB (s : State) (line : DWord) : Bool :=
  match s.fetch line with
  | .ok ws => lineT ws
  | .error _ => false

def lacksB (s : State) (line : DWord) : Bool :=
  match s.fetch line with
  | .ok ws => !lineT ws
  | .error _ => false

theorem carriesT_of {s : State} {line : DWord} (h : carriesB s line = true) : s.CarriesT line := by
  intro ws hw
  simpa [carriesB, hw] using h

theorem not_carriesT_of {s : State} {line : DWord} (h : lacksB s line = true) : ¬ s.CarriesT line := by
  intro hc
  cases hf : s.fetch line with
  | error e => simp [lacksB, hf] at h
  | ok ws => simp [lacksB, hf, hc ws hf] at h

/-- An action answers a value of which p holds. -/
def ok? {α : Type} (a : Act α) (p : α → Bool) : Bool :=
  match a with
  | .ok x => p x
  | .error _ => false

/-- An action raises a cause. -/
def trap? {α : Type} (a : Act α) (c : Nat) : Bool :=
  match a with
  | .error (.trap code _ _) => code == c
  | _ => false

/-- A line's completion faults for the loop of register n (R122). -/
def errs {α : Type} (a : Except Nat α) (n : Nat) : Bool :=
  match a with
  | .error k => k == n
  | .ok _ => false

def keyAt (s : State) (space n : Nat) (acc : Access) (r : Req) : Nat :=
  match s.keyOf space r.2.2.1 r.1 r.2.2.2 n acc { k := r.2.1, atomic := acc == .both } with
  | .ok k => k
  | .error _ => 0

def allowedB (s : State) (space n : Nat) (acc : Access) (reqs : List Req) : Bool :=
  reqs.all (fun r => ok? (s.keyOf space r.2.2.1 r.1 r.2.2.2 n acc { k := r.2.1, atomic := acc == .both }) fun _ => true)
    && ok? (s.checkAccs .m space n acc
      (reqs.map fun r => { lane := r.1, k := r.2.1, core := r.2.2.1, addr := r.2.2.2, key := keyAt s space n acc r })) fun _ => true

theorem allowed_of {s : State} {space n : Nat} {acc : Access} {reqs : List Req} (h : allowedB s space n acc reqs = true) :
    s.Allowed space n acc reqs (keyAt s space n acc) := by
  simp only [allowedB, Bool.and_eq_true, List.all_eq_true] at h
  refine ⟨fun r hr => ?_, ?_⟩
  · have := h.1 r hr
    unfold ok? at this
    unfold keyAt
    split at this <;> simp_all
  · have := h.2
    unfold ok? at this
    split at this <;> simp_all

/-! ### K and V engine -/

/-- A line that carries T at 0x10020, and one that does not at 0x10040. -/
def lines : State := put bench 0x10020 [1]

/-- ScalarBinaryOperationsWrapAt64Bits, ScalarMovesAndComparisons: guards that hold; conditions 9 and 10 on both sides of the
bound. -/
theorem witness_scalars : (bench.guard yes && bench.guard kg && !bench.guard { q := 5, n := false }
    && (Instr.scmp yes 1 2 3 9).wf && !(Instr.scmp yes 1 2 3 10).wf && !(Instr.scmpImm yes 1 2 10 0).wf) = true := by decide +kernel

/-- LaneIntegersAndBits, LaneComparesAndPredicates, LaneFloatFunctions, LaneConversionsAndBlockFormats, LanesMeetLanes: 64
registers hold every operand here; the width of the group is at most 64; BFI and BFE on 32 bits. -/
theorem witness_lane_counts : (bench.occ.width ≤ 64) ∧ (
    [Instr.mov (al 1 0 3), .mov64 (al 1 0 3) ⟨0, 0, 0, 0, false, 0⟩, .vadd (al 63 62 61), .vadd64 (al 2 4 6) ⟨0, 6, 0, 0, false, 0⟩,
     .mad (al 1 2 3) ⟨4, 0, 0, 0, false, 0⟩, .bfe64 (al 1 2 0) ⟨0, 0, 3, 0, false, 0x0604⟩, .bfi (al 1 2 0) ⟨3, 0, 3, 0, false, 0x0604⟩,
     .sel (al 1 2 3) ⟨15, 0, 0, 0, false, 0⟩, .cmp (al 1 2 3), .fcmp64 (al 1 2 3) ⟨0, 2, 0, 0, false, 0⟩,
     .plog (al 1 2 3) ⟨0, 0, 0, 0, false, 9⟩, .movp (al 1 2 0), .movp64 (al 1 2 0) ⟨0, 0, 0, 0, false, 0⟩,
     .movp64 (al 1 2 0) ⟨0, 0, 0, 0, false, 1⟩, .fadd (al 1 2 3), .ffma (al 1 2 3) ⟨4, 2, 0, 0, false, 0⟩, .fdiv (al 1 2 3),
     .frcp (al 1 2 0), .fsin64 (al 1 2 0) ⟨0, 3, 0, 0, false, 0⟩, .fmin (al 1 2 3), .fclass (al 1 2 0),
     .cvt (al 2 4 0) ⟨0, 0, 0, 0, false, 0x65⟩, .pack (al 8 16 3) ⟨2, 0, 3, 0, false, 127⟩, .unpk (al 8 16 3) ⟨2, 0, 3, 0, false, 127⟩,
     .qmx (al 40 8 0) ⟨0, 2, 0, 0, false, 2⟩, .dqmx (al 40 8 0) ⟨0, 2, 0, 0, false, 0x10⟩, .shuf (al 1 2 3), .gred (al 1 2 0),
     .scan (al 1 2 0), .gets (al 1 5 0), .movs (al 1 2 4) ⟨0, 0, 1, 0, false, 0⟩].all (countB bench)) = true :=
  ⟨by decide +kernel, by decide +kernel⟩

/-- Operands from a stream: 16 elements that have arrived suffice for one each in 16 lanes, not for pairs; without an
enabled lane none is needed. -/
def streaming : State := bench.mapOcc fun o => { o with streams :=
  [{ bound := true, tap := false, addr := 0x3000, space := 0, size := 2, left := 1, stride := 4,
     arrived := (List.range 16).map fun i => BitVec.ofNat 32 i, index := 0, halted := false }] }

theorem witness_stream_operands : (readyB streaming (al 1 2 0) ⟨0, 0, 2, 0, false, 0⟩ false
    && !readyB streaming (al 2 4 0) ⟨0, 6, 2, 0, false, 0⟩ false && readyB streaming (al 2 4 0) ⟨0, 6, 2, 0, false, 0⟩ true
    && readyB streaming { al 2 4 0 with pg := 0, pn := true } ⟨0, 6, 2, 0, false, 0⟩ false
    && readyB bench (al 1 2 3) (fieldsOf 0x01 none) false && countB streaming (.vadd64 (al 1 2 0) ⟨0, 0, 2, 0, false, 0⟩)
    && countB streaming (.pack (al 8 16 0) ⟨2, 0, 2, 0, false, 0⟩)) = true := by decide +kernel

/-- LaneConversionsAndBlockFormats, LanesMeetLanes: some lane is enabled, and none; VOTE in its four modes; the selections of
MOVS by lane 15, lane 16 (which the group lacks) and the lowest enabled lane. -/
theorem witness_lane_sets : (bench.lanes .v (al 1 2 3) ≠ [] ∧ bench.lanes .v { al 1 2 3 with pn := true } = [])
    ∧ (bench.lanes .v (al 1 2 3) = 0 :: (List.range 15).map (· + 1))
    ∧ (let s := withS bench [15, 16, 0xFFFFFFFF]
       let at' := fun (b : BitVec 7) => s.operand (al 1 2 b) ⟨0, 0, 1, 0, false, 0⟩ true 0
       at' 1 < s.occ.width ∧ ¬ at' 2 < s.occ.width ∧ at' 2 ≠ 0xFFFFFFFF ∧ at' 3 = 0xFFFFFFFF)
    ∧ ([0, 1, 2, 3].map fun c => (⟨c, 0, 0, 0, false, 0⟩ : VX).c.extractLsb' 0 2) = [0, 1, 2, 3#2] := by decide +kernel

/-- FloatSpecialOperandsAndRounding: codes of each kind of every format named there. -/
theorem witness_float_codes : ([f16, bf16, f32, f64].all fun F =>
    let z := 2 ^ (F.width - 1)
    decide (F.decode F.nanCode = .nan ∧ F.decode 1 ≠ .nan ∧ F.nanCode < 2 ^ F.width
      ∧ F.decode z = .fin true 0 (1 - F.bias - F.mbits) false ∧ F.decode 0 = .fin false 0 (1 - F.bias - F.mbits) false))
    = true := by decide +kernel

/-- RegistersBeyondTheCountAreIllegal: at a count of 8, v7 is held and v8 is not; and a stream operand is not counted. -/
theorem witness_counts_end :
    let s := bench.mapOcc fun o => { o with count := 8 }
    (countB s (.vadd (al 7 7 7)) && !countB s (.vadd (al 7 8 7)) && !countB s (.vadd64 (al 8 6 6) ⟨0, 0, 0, 0, false, 0⟩)
      && !countB s (.mad (al 1 2 3) ⟨8, 0, 0, 0, false, 0⟩)) = true
    ∧ ((Instr.vadd (al 7 8 7)).form.map fun fm => fm.countDefects 16 8) = some [(6, false)]
    ∧ ((Instr.mad (al 1 2 3) ⟨8, 0, 0, 0, false, 0⟩).form.map fun fm => fm.countDefects 16 8) = some [(6, true)] := by
  decide +kernel

/-- GuardsEnableLanesAndInstructions: forms of the four kinds whose guard is off, here without a power requirement. -/
theorem witness_guards_off : (bench.guard { q := 3, n := false } = false ∧ bench.lanes .m { al 1 2 3 with pn := true } = []
    ∧ bench.lanes .b { al 1 2 3 with pn := true } = [])
    ∧ ([Instr.sadd { q := 3, n := false } 1 2 3, .sli64 { q := 3, n := false } 1 2 3, .mfmt { q := 3, n := false } 1 2,
        .dfree { q := 3, n := false }, .ld { al 1 2 3 with pn := true }, .ld64 { al 1 2 4 with pn := true } ⟨0, 3, 0, 0, 8⟩, .ray { al 8 3 0 with pn := true },
        .bvhset { al 0 0 3 with pn := true } ⟨0, 0, 1, 0, false, 1⟩].all (countB bench)) = true
    ∧ ((bench.dieAt bench.die).powcompat % 2 = 0) := by
  refine ⟨?_, ?_, ?_⟩ <;> decide +kernel

/-- SystemRegistersAreReadAndWritten: a legal write, and one for each reason of a fault. -/
theorem witness_system_writes :
    (sysWriteFault bench 0x030 5 = none ∧ sysWriteFault bench 0x025 5 = some 0x0B ∧ sysWriteFault bench 0x003 5 = some 0x0B
      ∧ sysWriteFault bench 0x02B 5 = some 0x03 ∧ sysWriteFault bench 0x028 5 = some 0x03
      ∧ sysWriteFault (bench.mapOcc fun o => { o with trapLevel := true }) 0x029 5 = none
      ∧ sysWriteFault bench 0x012 8 = none ∧ sysWriteFault bench 0x012 9 = some 0x0B ∧ sysWriteFault shade 0x023 5 = some 0x0B)
    ∧ sysAbsent bench.tile 0x030 = false ∧ bench.tile = true ∧ shade.tile = false
    ∧ (match exec (.scsrWrite yes 1 0x030) (withS bench [7]) with
       | .next t => t.occ.sysPend
       | _ => []) = [(0x030, 7)] := by
  decide +kernel
/-! ### Control transfers, loops and traps -/

def flow (f : Flow → Flow) : State := lines.mapOcc fun o => { o with flow := f o.flow }
def divE (v : Bool) (pending : DWord) : DivEntry := { vKind := v, treg := 4, saved := 0xFFFF, pending, pendpc := 0x1000C }
def retE (v : Bool) (d : Nat) : RetEntry := { vKind := v, ddepth := d, retline := 0x10020 }
def loopE (lc span dd : Nat) : LoopRec := { lc, start := 0x10000, span, ddepth := dd, rdepth := 0 }

/-- BranchesLandOnLaneOne: a target with T, one without, a register that is misaligned. -/
theorem witness_branches : (lines.guard yes && carriesB lines 0x10020 && lacksB lines 0x10040
    && decide (lineOf64 (lines.pcOf .k) + (1 : BitVec 22).signExtend 64 * 32 = 0x10020)) = true
    ∧ ((withS lines [0x10020, 0x10040, 0x10024]).getS 3).toNat % 32 ≠ 0
    ∧ ((withS lines [0x10020, 0x10040, 0x10024]).getS 2).toNat % 32 = 0 := by decide +kernel

theorem witness_branch_meets_its_rule : lines.CarriesT 0x10020 ∧ ¬ lines.CarriesT 0x10040 :=
  ⟨carriesT_of (by decide +kernel), not_carriesT_of (by decide +kernel)⟩

/-- ControlStacksAndCalls: 15 and 16 entries on the core, a spill area and none, 255 and 256 entries in all; an empty core
side with a spilled entry and without. -/
theorem witness_stacks :
    let st := fun (n k : Nat) (p : DWord) => (flow fun f => { f with div := List.replicate n (divE false 1), dspill := k,
                                                                      ret := List.replicate n (retE false 0), rspill := k }).mapOcc
      fun o => { o with saveptr := p }
    (ok? ((st 15 0 0).pushDiv (divE true 3)) (fun _ => true) && ok? ((st 15 0 0).pushRet (retE true 3)) (fun _ => true)
      && ok? ((st 16 239 0x40000).pushDiv (divE true 3)) (fun t => t.occ.flow.dspill == 240)
      && ok? ((st 16 239 0x40000).pushRet (retE true 3)) (fun t => t.occ.flow.rspill == 240)
      && trap? ((st 16 240 0x40000).pushDiv (divE true 3)) 9 && trap? ((st 16 240 0x40000).pushRet (retE true 3)) 9
      && trap? ((st 16 0 0).pushDiv (divE true 3)) 9 && trap? ((st 16 0 0).pushRet (retE true 3)) 9
      && ok? ((st 0 1 0x40000).fillDiv) (fun t => t.occ.flow.div.length == 1)
      && ok? ((st 0 1 0x40000).fillRet) (fun t => t.occ.flow.ret.length == 1)
      && ok? ((st 0 0 0).fillDiv) (· == st 0 0 0)) = true := by decide +kernel

/-- ControlStacksAndCalls: targets of CALL and CALLV; a pair whose lanes share two targets, one with a misaligned lane, and
no active lane. -/
theorem witness_calls :
    let v := List.replicate 16 (0x10020 : Word)
    let s := withV lines [[], [], [], [], v.set 3 0x10040, List.replicate 16 0]
    let sub : DWord := 0xFFF7
    (countB s (.callvPair yes 4) && (List.range 16).all (fun i => (s.occ.getPair 4 i).toNat % 32 == 0)
      && (List.range 64).all (fun i => sub.getLsbD i == (decide (i < 16) && s.kmask.getLsbD i && s.occ.getPair 4 i == s.occ.getPair 4 0))
      && ok? (s.pushRet (retE false 0)) (fun s1 => carriesB s1 0x10020)
      && ok? (s.pushDiv { vKind := true, treg := 4, saved := s.kmask, pending := s.kmask &&& ~~~sub, pendpc := 0 }) fun s1 =>
        ok? (s1.pushRet (retE true 1)) fun s2 => carriesB s2 (s.occ.getPair 4 0)) = true
    ∧ (under s 0).kmask = 0
    ∧ ((withV lines [[], [], [], [], v.set 3 0x10044]).occ.getPair 4 3).toNat % 32 ≠ 0 := by decide +kernel

/-- DivergenceSplitsAndJoins: no lane, some lanes; the outermost level, a frame entered by CALLV, and both visits of JOIN. -/
theorem witness_divergence :
    let s := withP1 lines 0x00FF
    (ok? (s.pushDiv (divE false 0)) (fun s1 => carriesB s1 0x10020 && lacksB s1 0x10040)) = true
    ∧ (s.kmask &&& s.occ.getP 2 = 0 ∧ s.kmask &&& s.occ.getP 1 ≠ 0)
    ∧ (s.occ.flow.ddepth ≤ s.occ.flow.frameBase)
    ∧ ([divE false 0, divE false 0xF0].all fun e =>
        let u := flow fun f => { f with div := [e] }
        decide (u.occ.flow.frameBase < u.occ.flow.ddepth) && ok? u.fillDiv (fun t => t.occ.flow.div == [e])) = true
    ∧ (let u := flow fun f => { f with div := [divE true 1] }
       decide (u.occ.flow.frameBase < u.occ.flow.ddepth) && ok? u.fillDiv (fun t => t.occ.flow.div == [divE true 1])) = true := by
  decide +kernel

/-- ReturnsCompleteTheLineOfTheCall: an empty stack, another divergence depth, a plain return whose line completes in each of
the three ways, and a CALLV return with lanes left and without. -/
theorem witness_returns :
    let r := fun (g : Flow → Flow) (e : RetEntry) => flow fun f => g { f with ret := [e] }
    let done := fun (s : State) => s.occ.flow.complete 0x10000
    lines.occ.flow.rdepth = 0
    ∧ (ok? (r id (retE false 0)).fillRet (fun t => t.occ.flow.ddepth == 0 && t.occ.flow.ret == [retE false 0])) = true
    ∧ (ok? (r id (retE false 1)).fillRet (fun t => t.occ.flow.ddepth == 0)) = true
    ∧ errs (done (flow fun f => { f with lc := [2], loops := [loopE 0 1 5] })) 0 = true
    ∧ (done (flow fun f => { f with lc := [2], loops := [loopE 0 1 0] })).toOption.map (·.2) = some (some 0x10000)
    ∧ (done lines).toOption.map (·.2) = some none ∧ carriesB lines 0x10020 = true
    ∧ [0, 0xF0].all (fun p =>
        let s := r (fun f => { f with div := [divE true p] }) (retE true 1)
        let s := s.mapOcc fun o => { o with regs := { o.regs with v := [[], [], [], [], List.replicate 16 0x10020] } }
        ok? s.fillRet (fun t => t.occ.flow.ddepth == 1) && ok? s.fillDiv (fun t => t.occ.flow.div == [divE true p])
          && (s.occ.dispatch 4 p).isSome == decide (p ≠ 0)) = true := by decide +kernel

/-- LoopsBindAndBreak: unbound with E = 0, with count 0 and 1; bound at the depth of the flow and at another. -/
theorem witness_loops :
    let b := flow fun f => { f with lc := [3], loops := [loopE 0 2 0] }
    (bench.occ.flow.loops.any (fun l => l.lc == 0) = false ∧ b.occ.flow.loops.any (fun l => l.lc == 0) = true)
    ∧ ((0 : BitVec 16).setWidth 32 = (0 : Word) ∧ (1 : BitVec 16).setWidth 32 ≠ (0 : Word))
    ∧ b.occ.flow.loops.find? (fun l => l.lc == 0) = some (loopE 0 2 0) ∧ (loopE 0 2 0).ddepth = b.occ.flow.ddepth
    ∧ (flow fun f => { f with loops := [loopE 0 2 1] }).occ.flow.loops.find? (fun l => l.lc == 0) = some (loopE 0 2 1)
    ∧ (loopE 0 2 1).ddepth ≠ bench.occ.flow.ddepth := by decide +kernel

/-- LineCompletionRunsLoops: a skip that waits, no loop, a loop that ends elsewhere, at another depth, with iterations left
and with the last one; the K engine at a line's end and inside the next line. -/
theorem witness_lines_complete :
    let at' := fun (f : Flow) => f.complete 0x10000
    let f := bench.occ.flow
    let loops := fun (l : LoopRec) (n : Word) => { f with lc := [n], loops := [l] }
    (at' { f with skips := [(0x10000, 0, 0x10060)] }).toOption.map (·.2) = some (some 0x10060)
    ∧ (at' f).toOption = some (f, none) ∧ (at' (loops (loopE 0 2 0) 2)).toOption = some (loops (loopE 0 2 0) 2, none)
    ∧ errs (at' (loops (loopE 0 1 1) 2)) 0 = true ∧ (at' (loops (loopE 0 1 0) 2)).toOption.map (·.2) = some (some 0x10000)
    ∧ (at' (loops (loopE 0 1 0) 1)).toOption = some ({ f with lc := [0] }, none)
    ∧ laneOf ((bench.mapOcc fun o => { o with pcs := Pcs.all 0x10020 }).pcOf .k) = 0 ∧ laneOf (bench.pcOf .k) ≠ 0 := by decide +kernel

/-- TrapEntryAndNestedFaults: user level, trap level, and trap level with NESTED; no system register write waits. The V
engine stands before its own instruction (SADD is K's, so the line at 0x10000 holds ADD in lane 1). -/
theorem witness_traps :
    let t := bench.mapOcc fun o => { o with trapLevel := true }
    let s := put bench 0x10000 (toBytes 8 (0x20 + 0x04080000 * 2 ^ 32))
    (bench.occ.trapLevel = false ∧ t.occ.trapLevel = true ∧ t.occ.tcause.getLsbD 9 = false ∧ t.occ.sysPend = [])
    ∧ (t.mapOcc fun o => { o with tcause := 512 }).occ.tcause.getLsbD 9 = true
    ∧ (s.pcOf .v = 0x10004 ∧ laneOf 0x10004 ≠ 0)
    ∧ (ok? (s.drain.fetch 0x10000) fun ws => Eng.ofTag (laneTag (ws.headD 0) 1) == some .v) = true := by decide +kernel

/-- TrapInstructionsAndEncodingFaults: both levels; a context that asks BKPT to stop it; a cause that waits. -/
theorem witness_causes :
    let c : Cause := { code := 0x18, eng := .v, info := 0, addr := 0 }
    let s := bench.mapOcc fun o => { o with causes := [c] }
    (s.me.run = .running ∧ s.occ.firstCause = some c ∧ c.code ∉ [0x13, 0x14, 0x16, 0x17] ∧ s.occ.wait = none ∧ s.occ.sysPend = [])
    ∧ (bench.modCtx 0 fun c => { c with desc := setAt 0 c.desc 1 (1 <<< 24) }).ctx.flags % 2 = 1 ∧ bench.ctx.flags % 2 = 0 := by
  decide +kernel

/-- A group at trap level as TRAP leaves it. -/
def trapped : State := (lines.advance .k 1).trap { code := 0x19, eng := .k, info := 7, addr := 0x10004 } 0x10008

/-- ReturnFromTrapRestoresTheCapture: a capture and addresses that can be resumed; a misaligned one. -/
theorem witness_return :
    (trapped.occ.trapLevel && !trapped.occ.tcause.getLsbD 10 && trapped.teamWhole && (trapped.me.occs.filter fun p => p.owed).isEmpty && trapped.occ.capture.isSome
      && trapped.occ.sysPend.isEmpty && trapped.occ.parked.isNone
      && allEngines.all fun e => !Eng.present trapped.tile e || ok? (trapped.checkEpc e) fun _ => true) = true
    ∧ trapped.occ.cmds = [] ∧ trapped.movesBound = true
    ∧ (let quad : List DWord := [0x2000000000000400, 0x2000000000001000, 0x0000003200010008, 0]
       let c : MemCmd := { uid := 9, op := 0x0B, quad, route := 0, sem := none, off := 0, space := 0, scope := 0, halted := true, i := 2,
                           j := 0, deliveries := 0, error := false, ranges := [], addr := 0x10004 }
       let s := trapped.mapOcc fun o => { o with cmds := [c] }
       c.move.mode = 3 ∧ c.i < c.move.count ∧ s.ownsDda = false
       ∧ sees (exec .rft s) (fun t => t.occ.tcause.toNat % 64 == 0x0B && t.occ.tcause.getLsbD 9) = true)
    ∧ (let ends := fun (ls : List LoopRec) => trapped.mapOcc fun o => { o with
         tcause := 0x1B, tinfo := 1, capture := o.capture.map fun c => { c with flow := { c.flow with lc := [2], loops := ls } } }
       let done := fun (s : State) (p : Except Nat (Flow × Option DWord) → Bool) =>
         s.occ.capture.any fun c => p (c.flow.complete (lineOf64 s.occ.epc.k - 32))
       done (ends []) (fun r => r.toOption.any fun x => x.2.isNone) = true
       ∧ done (ends [{ lc := 0, start := 0xFFE0, span := 1, ddepth := 0, rdepth := 0 }]) (fun r => r.toOption.any fun x => x.2.isSome) = true
       ∧ done (ends [{ lc := 0, start := 0xFFE0, span := 1, ddepth := 3, rdepth := 0 }]) (fun r => errs r 0) = true
       ∧ trapped.occ.tcause.toNat % 64 ≠ 0x1B ∧ trapped.occ.capture.all (fun c => c.atEnd != some trapped.occ.epc.k) = true)
    ∧ (let owing := fun (n : Nat) => (({ trapped with tokens := n } : State).modDie 2 fun d => { d with powcompat := 1 }).mapOcc fun o => { o with owed := true }
       (owing 0).shared.powcompat % 2 = 1 ∧ (owing 0).tokens < ((owing 0).me.occs.filter fun p => p.owed).length
       ∧ ((owing 1).me.occs.filter fun p => p.owed).length ≤ (owing 1).tokens)
    ∧ (let s := trapped.mapOcc fun o => { o with epc := o.epc.set .k 0x10020 }
       s.occ.trapLevel = true ∧ s.occ.tcause.getLsbD 10 = false ∧ laneOf s.occ.epc.k = 0) := by decide +kernel

/-- The translation unit keeps the page of GLOBAL [0, 2^30). -/
def kept (s : State) : State := { s with tlb := [{ ctx := 0, shift := 30, page := 0, entry := 0x1D }] }

/-- A translation that the translation unit keeps does not depend on memory. -/
theorem translate_of_kept {s : State} {ctx : Nat} {va : DWord} {k : Kept}
    (h : s.tlb.find? (fun k => k.ctx == ctx && k.page == va.toNat % 2 ^ 48 / 2 ^ k.shift) = some k) (m : Memory) (acc : Access) :
    ({ s with mem := m } : State).translate ctx va acc = s.translate ctx va acc := by
  unfold State.translate State.leaf
  simp only [h]
  rfl

/-- The group at trap level, its bottom occupant a group of a launch or the task of card 1. -/
def parkable (task : Nat) : State := (kept (bench.modCtx 0 fun c => { c with desc := c.desc ++ [0x100000, 4] })).mapOcc fun o =>
  { o with task, trapLevel := true, saveptr := 0x40000, capture := trapped.occ.capture }

/-- A translation answers a key. -/
def keyIs (a : Except Walk Nat) (k : Nat) : Bool :=
  match a with
  | .ok j => j == k
  | .error _ => false

theorem ok_of_keyIs {a : Except Walk Nat} {k : Nat} (h : keyIs a k = true) : a = .ok k := by
  unfold keyIs at h
  split at h <;> simp_all

theorem parkable_writable (task : Nat) (ht : task < 2) :
    (parkable task).SaveAreaAt (fun i => 0x40000 + 64 * i) ((parkable task).cardAddr 0 task + 0x14) := by
  have hx : ∀ task < 2, ∀ i < 64, (parkable task).tlb.find? (fun k => k.ctx == (parkable task).me.ctx
      && k.page == ((parkable task).me.bottom.saveptr + BitVec.ofNat 64 (64 * i)).toNat % 2 ^ 48 / 2 ^ k.shift)
        = some { ctx := 0, shift := 30, page := 0, entry := 0x1D }
      ∧ keyIs ((parkable task).translate (parkable task).me.ctx ((parkable task).me.bottom.saveptr + BitVec.ofNat 64 (64 * i)) .write)
        (0x40000 + 64 * i) = true := by decide +kernel
  have hc : ∀ task < 2, (parkable task).tlb.find? (fun k => k.ctx == (parkable task).me.ctx
      && k.page == (BitVec.ofNat 64 ((parkable task).cardAddr (parkable task).me.ctx (parkable task).me.bottom.task + 0x14)).toNat % 2 ^ 48
        / 2 ^ k.shift) = some { ctx := 0, shift := 30, page := 0, entry := 0x1D }
      ∧ keyIs ((parkable task).translate (parkable task).me.ctx
          (BitVec.ofNat 64 ((parkable task).cardAddr (parkable task).me.ctx (parkable task).me.bottom.task + 0x14)) .write)
        ((parkable task).cardAddr 0 task + 0x14) = true := by decide +kernel
  have hb : ∀ task < 2, (parkable task).me.bottom.saveptr ≠ 0 ∧ (parkable task).me.bottom.saveptr.toNat % 64 = 0 := by decide +kernel
  refine ⟨(hb task ht).1, (hb task ht).2, fun m _ => ⟨fun i hi => ?_, fun _ => ?_⟩⟩
  · rw [translate_of_kept (hx task ht i hi).1]
    exact ok_of_keyIs (hx task ht i hi).2
  · unfold State.devKey
    rw [translate_of_kept (hc task ht).1, ok_of_keyIs (hc task ht).2]

theorem parkable_apart : ∀ task < 2, PiecesApart (fun i => 0x40000 + 64 * i) ((parkable task).cardAddr 0 task + 0x14) := by
  unfold PiecesApart
  intro task _
  have : (parkable task).cardAddr 0 task = 0x100000 + 128 * task := rfl
  refine ⟨fun i _ j _ h => ?_, fun i _ => ?_⟩
  · show 0x40000 + 64 * i + 64 ≤ 0x40000 + 64 * j ∨ 0x40000 + 64 * j + 64 ≤ 0x40000 + 64 * i
    omega
  · show _ < 0x40000 + 64 * i ∨ 0x40000 + 64 * i + 64 ≤ _
    omega

theorem reaches_of_kept {s : State} {ctx va n k : Nat} {e : Kept}
    (h : ∀ j < n, s.tlb.find? (fun p => p.ctx == ctx && p.page == (BitVec.ofNat 64 (va + j)).toNat % 2 ^ 48 / 2 ^ p.shift) = some e
      ∧ ([Access.read, .write, .both, .fetch].all fun acc => keyIs (s.translate ctx (BitVec.ofNat 64 (va + j)) acc) (k + j)) = true) :
    s.Reaches ctx va n k := by
  intro m _ j hj acc
  have hk : keyIs (s.translate ctx (BitVec.ofNat 64 (va + j)) acc) (k + j) = true := by
    have := (h j hj).2
    simp only [List.all_cons, List.all_nil, Bool.and_eq_true] at this
    cases acc <;> simp_all
  unfold State.devKey
  rw [translate_of_kept (h j hj).1, ok_of_keyIs hk]

/-- ParkingWritesTheControlRecord: a save area whose record can be written (above), and none; occupants that end: a group, a task
that is killed, a helper; commands that have halted, and one that has not. -/
theorem witness_park :
    let s := parkable 0
    let c : MemCmd := { uid := 9, op := 0x0B, quad := [], route := 0, sem := none, off := 0, space := 0, scope := 0, halted := true, i := 2,
                        j := 0, deliveries := 0, error := false, ranges := [], addr := 0x10004 }
    let on := fun (b : Bool) => s.mapOcc fun o => { o with cmds := [{ c with halted := b }], tcause := 0x13 }
    (s.occ.trapLevel = true ∧ s.me.bottom.saveptr ≠ 0 ∧ s.occ.xcmds = [] ∧ s.occ.causes = [] ∧ s.occ.cmds = [])
    ∧ (∀ c ∈ (on true).occ.cmds, c.halted = true) ∧ (∃ c ∈ (on false).occ.cmds, c.halted = false)
    ∧ ((on true).occ.task = 0 ∧ (on true).me.under = [] ∧ (on true).occ.tcause.toNat % 64 = 0x13)
    ∧ sees (exec .parkEnd (on true)) (fun t => t.me.run == .vacant) = true
    ∧ sees (exec .parkEnd { on true with me := { (on true).me with under := [bench.occ] } }) (fun t => t.me.under.isEmpty) = true
    ∧ sees (exec .parkWait (parkable 1)) (fun t => t.others.any fun g => g.run == .waitPark true) = true
    ∧ sees (exec .parkPreempt s) (fun t => t.others.any fun g => g.run == .preemptPark) = true
    ∧ (trapped.mapOcc fun o => { o with saveptr := 0 }).me.bottom.saveptr = 0 := by decide +kernel

/-! ### Barriers, watches, the governor, tasks and launches -/

/-- The context has an arena of 4 cards at 0x100000 and windows of 4 KiB in the scratchpad of each die. -/
def world : State := bench.modCtx 0 fun c => { c with desc := [0x1000, 0x0100000000010001, 0x20000, 0x100000, 4, 0x30000, 0, 0,
  0x38000, 0x39000, 0x0000100000001000, 0x0000100000001000, 0x0000100000001000, 0x0000100000001000, 0x50000, 0x60000, 0x70000, 0x80000] }

/-- The low 72 bytes of a card: entry, number, state, FLAGS, dependencies; 8 registers, a save area at 0x41000. -/
def cardBytes (entry n state flags deps : Nat) : List Byte :=
  toBytes 72 (entry + n * 2 ^ 128 + state * 2 ^ 160 + flags * 2 ^ 184 + 8 * 2 ^ 192 + deps * 2 ^ 224 + 0x41000 * 2 ^ 512)

def teamOf (s : State) : Team := (s.team? s.occ.team).getD (bootTeam 0 0)

/-- BarriersCompleteTheirPhase: counts of the team's single group and above it; a barrier that is open for another count; one
that the arrival satisfies, and one that waits for a second group; a wait that goes on, and one whose phase has ended. -/
theorem witness_barriers :
    let two := ({ world with teams := world.teams.map fun t => { t with live := 2 } } : State).mapOcc fun o => { o with ngroup := 2 }
    let arrive := fun (s : State) (k : Nat) =>
      let b : Barrier := { ((teamOf s).barrier 3) with arrived := 1, expected := k, opened := true }
      (s.drain.modTeam (teamOf s).uid fun t => t.setBarrier 3 b).satisfied (teamOf s).uid b
    let waits := fun (done : Bool) => (two.modTeam 1 fun t => t.setBarrier 3 { arrived := 1, expected := 2, opened := true, phase := false }).mapOcc
      fun o => { o with barWait := some (3, false, done) }
    (world.team? world.occ.team).isSome = true ∧ world.barState 3 = none ∧ world.occ.ngroup = 1
    ∧ ((teamOf world).barrier 3).opened = false ∧ arrive world 1 = true ∧ arrive world 0 = true ∧ arrive two 2 = false
    ∧ (let t := teamOf (waits false); (t.barrier 3).opened = true ∧ (t.barrier 3).expected ≠ 1)
    ∧ (waits false).barState 3 = some false ∧ (waits true).barState 3 = some true := by decide +kernel

/-- WatchesAndPowerTokens: an armed slot whose word has changed and one whose word has not; no slot; a time-out of 0, one
that has passed and one that has not; an address beyond 32 bits; tokens of the pool. -/
theorem witness_watches :
    let arm := fun (e : DWord) => (withS world [0x3000, 2 ^ 32, 5]).mapOcc fun o => { o with watches := [{ armed := true, addr := 0x3000, expect := e, attrs := 0 }] }
    let changed := fun (s : State) => ok? (s.drain.watchChanged (s.drain.occ.watch 0))
    let late : State := { arm 0 with dies := (arm 0).dies.map fun d => { d with cyc := 5 } }
    (ok? ((arm 0).keyOf 0 0 0 ((arm 0).getS 1) 4 .read {}) (fun _ => true) && changed (arm 0) (· == false) && changed (arm 1) (· == true)) = true
    ∧ (world.occ.watch 0).armed = false ∧ ((arm 0).occ.watch 0).armed = true ∧ ((arm 0).occ.watch 1).armed = false
    ∧ 2 ^ 32 ≤ ((arm 0).getS 2).toNat ∧ ((arm 0).getS 0).toNat = 0 ∧ ((arm 0).getS 3).toNat ≤ late.cyc - 0
    ∧ late.cyc - 1 < ((arm 0).getS 3).toNat := by decide +kernel

theorem witness_mwait_goes_on :
    let s := ({ withS world [0x3000, 0, 5] with dies := world.dies.map fun d => { d with cyc := 5 } } : State).mapOcc fun o => { o with
      mwait := some (o.pcs.k, 0, 3, 5, 0), watches := [{ armed := true, addr := 0x3000, expect := 1, attrs := 0 }], wait := some { kind := 9, obj := 0, owner := 0, detail := 0, since := 0 } }
    (s.occ.mwait = some (s.pcOf .k, 0, (3 : BitVec 6).toNat, 5, 0) ∧ 5 ≤ s.cyc - 0 ∧ (s.occ.wait.map (·.kind)) = some 9
      ∧ s.occ.stepping = false ∧ ok? (s.watchChanged (s.occ.watch 0)) (· == true))
    ∧ sees (exec .mwaitTimeout s) (fun t => t.occ.mwait.isNone && t.getS 3 == 1) = true := by decide +kernel

theorem witness_power :
    let on := fun (p : Bool) (n : Nat) => (({ world with tokens := n } : State).modDie 2 fun d => { d with powcompat := 1 }).mapOcc fun o => { o with power := p }
    ¬ (world.dieAt world.die).powcompat % 2 = 1 ∧ ((on true 0).dieAt (on true 0).die).powcompat % 2 = 1
    ∧ (on true 0).occ.power = true ∧ (on false 1).tokens ≠ 0 ∧ (on false 0).tokens = 0 ∧ (on false 1).occ.power = false
    ∧ xPowered (on true 0) ∧ ¬ xPowered (on false 0) := by
  refine ⟨?_, ?_, ?_, ?_, ?_, ?_, ?_, ?_⟩ <;> first | decide +kernel | (simp only [xPowered]; decide +kernel)

/-- GovernorMarksAndPlans: the plan table of the example of R294 in the window of the context on die 2, with FGBASE 64; a
mark of this group and none; steps 63, 64 and 0xFFFF; a shade core. -/
def governed : State :=
  let s := world.modDie 2 fun d => { d with fgbase := 64, fgdl := 12000, fgguard := 200, marks := [(world.me.gid, 1, 0, 64)] }
  let k := (s.planKey 2 0 64).getD 0
  let p := ((((s.mem.setN k 2 0xF6A1).setN (k + 2) 1 2).setN (k + 4) 2 0x0401).setN (k + 64) 8 (400 + 450 * 2 ^ 32))
  { s with mem := ((p.setN (k + 576) 1 4).setN (k + 704) 1 3) }

theorem witness_governor :
    (governed.tile = true ∧ (governed.dieAt governed.die).fgbase ≠ 0 ∧ governed.shared.fgbase ≠ 0
      ∧ (governed.planKey governed.die governed.me.ctx governed.shared.fgbase.toNat).isSome = true
      ∧ governed.occ.cmds = [] ∧ governed.occ.xcmds = [] ∧ governed.mem.wf = true)
    ∧ Plan.ok (governed.drain.mem.getN ((governed.planKey 2 0 64).getD 0) 2624) = true
    ∧ (governed.dieAt 2).marks = [(governed.me.gid, 1, 0, 64)]
    ∧ (world.dieAt 2).marks = [] ∧ shade.tile = false ∧ world.shared.fgbase = 0 := by decide +kernel

/-- FuturesAndLocks: a future that is not set, one that is set, one in a state beyond 2; a lock that is free, one that the
group holds, and one that another group holds. -/
theorem witness_objects :
    let at' := fun (bs : List Byte) => put (withS world [0x3000]) 0x3000 bs
    let reads := fun (s : State) (off n x : Nat) => ok? (s.objectKey .k (s.getS 1)) (fun k => s.drain.mem.getN (k + off) n == x)
    (reads (at' []) 14 1 0 && reads (at' (toBytes 16 (77 + 2 ^ 112))) 14 1 1 && reads (at' (toBytes 16 (3 * 2 ^ 112))) 14 1 3
      && reads (at' []) 8 4 0 && reads (at' (toBytes 16 (4 * 2 ^ 64))) 8 4 4
      && reads (at' []) 0 4 0 && reads (at' (toBytes 4 0xC0000000)) 0 4 0xC0000000 && reads (at' (toBytes 4 0xC0004000)) 0 4 0xC0004000) = true
    ∧ world.ctx.ncard = 4 ∧ world.endWait.drain.mem.wf = true
    ∧ 2 ^ 31 + world.die * 2 ^ 29 + Config.coreIndex world.me.place.core * 2 ^ 21 + world.me.place.slot * 2 ^ 14 = 0xC0000000 := by
  decide +kernel

/-- TasksSpawnYieldAndExit: cards 0, 3 and 4 of an arena of 4; a card that is legal, one whose entry is misaligned, one that
is not in state 0; YIELD and EXIT of a task and of a group. -/
theorem witness_spawn :
    let s := fun (entry state deps : Nat) => put (withS world [1, 3, 4, 2 ^ 32 + 1]) 0x100080 (cardBytes entry 1 state 2 deps)
    let ok := fun (s : State) => ok? (s.globalKey (BitVec.ofNat 64 (s.cardAddr 0 1)) .read {}) fun k =>
      k == 0x100080 && ok? (s.checkRanges [s.range 0 0 0x100080 128 true]) (fun _ => true)
        && ok? (s.checkLost 0x100080 k 128) fun _ => true
    (ok (s 0x10000 0 0) && (s 0x10000 0 0).cardOk 1 ((s 0x10000 0 0).drain.mem.getN 0x100080 128)
      && (s 0x10004 0 0).cardOk 1 ((s 0x10004 0 0).mem.getN 0x100080 128) && !(s 0x10000 2 0).cardOk 1 ((s 0x10000 2 0).mem.getN 0x100080 128)
      && ((s 0x10000 0 1).drain.setCard 0 1 0x3C 4 0).any fun s1 => (s1.setCard 0 1 0x14 1 1).isSome) = true
    ∧ (s 0 0 0).ctx.ncard = 4 ∧ sees (exec (.spawn yes 1) (s 0x10000 0 0)) (fun t => t.ready.length == 1) = true := by decide +kernel

theorem witness_yield_exit :
    let t := put (world.mapOcc fun o => { o with task := 1 }) 0x100080 (cardBytes 0x10000 1 3 2 0)
    let t := { t with tasks := [{ TaskInfo.fresh 0 1 with home := (2, 0) }], ready := [{ die := 2, cluster := 0, ctx := 0, task := 2, stamp := 0, core := 0, passed := false, slot := none }] }
    let t := put t 0x100100 (toBytes 72 (0x10000 + 2 * 2 ^ 128 + 2 * 2 ^ 160 + 8 * 2 ^ 192 + 2 * 2 ^ 184 + 0xFFF0 * 2 ^ 208))
    let r := t.releaseOcc false
    (let h := { t with me := { t.me with under := [bench.occ] } }
     h.me.under = [bench.occ] ∧ sees (exec (.exit yes) h) (fun u => u.me.under.isEmpty && u.occ.task == 0) = true)
    ∧ (t.yields = true ∧ t.me.under = [] ∧ t.occ.trapLevel = false ∧ world.yields = false ∧ world.occ.task = 0)
    ∧ (world.releaseOcc false).leaveSlot.me.run = .vacant ∧ t.occ.cmds = [] ∧ t.occ.xcmds = [] ∧ r.mem.wf = true
    ∧ (r.card? 0 1).any (fun card => fieldAt card 0x38 4 == 0 && (List.range 4).all fun i => fieldAt card (0x20 + 4 * i) 4 == 0) = true
    ∧ (r.card? 0 1).any (fun card => ((r.faultFutures card 1 0).setCard 0 1 0x14 1 5).any fun s1 =>
        (s1.decrements card 4 0 none).any fun d => d.2.isNone && d.1.forgetTask.leaveSlot.me.run == .vacant) = true := by decide +kernel

/-- A launch record at 0x3000: one team of one group of 8 registers with entry 0x10000, and its counter at 0x3100. -/
def recordBytes : List Byte :=
  toBytes 64 (0x10000 + 2 ^ 64 + 2 ^ 80 + 2 ^ 96 + 2 ^ 112 + 8 * 2 ^ 128 + 0x3100 * 2 ^ 256 + 2 * 2 ^ 384)

def launching (regs : List DWord) : State := put (withS world regs) 0x3000 recordBytes

/-- A launch that has been accepted, at a stage. -/
def launchAt (st : Stage) (core : Nat) : Launch :=
  { uid := 9, ctx := 0, id := 1, record := LaunchRec.ofNat (ofBytes recordBytes), stage := st, dies := [2], core, stamp := 0, next := 0,
    done := 0, bound := none, lastStart := [], drain := none, passed := [] }

/-- LaunchesReachTheirControllers: a legal record and misaligned addresses, with and without a counter; a counter at 0 and
above; launches that are pending, spilled, and absent; an empty host list. -/
theorem witness_launch :
    let s := launching [0x3000, 0x3020, 0x3100, 0x3104]
    (ok? (s.globalKey (s.getS 1) .read {}) (fun k => ok? (s.checkRanges [s.range 0 0 0x3000 64 false]) (fun _ => true)
        && ok? (s.checkLost (s.getS 1) k 64) (fun _ => true) && ok? (s.drain.checkRecord 0 (fun r => [servingDie s.die r]) (s.drain.mem.getN k 64)) fun r => r.2.isSome)
      && ok? (s.checkRecord 0 (fun r => [servingDie s.die r]) (ofBytes recordBytes - 0x3100 * 2 ^ 256)) (fun r => r.2.isNone)
      && ok? (s.globalKey (s.getS 3) .read {}) fun k => s.drain.mem.getN k 8 == 0 && (put s 0x3100 [1]).mem.getN k 8 == 1) = true
    ∧ (s.getS 2).toNat % 64 ≠ 0 ∧ (s.getS 4).toNat % 8 ≠ 0 ∧ (s.pendingOf 512).length < 4 ∧ s.spilledOf 512 = []
    ∧ s.mem.wf = true := by decide +kernel

/-- Host lists at 0x30000 with room for 4 records, in which one stands: a legal record without a counter, and one whose entry is
misaligned. -/
def listedRecord (entry : Nat) : State :=
  kept (put (put world world.ctx.hlist (toBytes 20 (1 + 4 * 2 ^ 128))) (world.ctx.hlist + 64)
    (toBytes 64 (ofBytes recordBytes - 0x3100 * 2 ^ 256 + entry)))

theorem witness_device_bytes :
    (∀ entry < 2, (listedRecord entry).Reaches 0 ((listedRecord entry).ctxAt 0).hlist 64 world.ctx.hlist)
    ∧ (kept world).Reaches 0 ((kept world).cardAddr 0 1) 128 0x100080 := by
  refine ⟨fun entry he => reaches_of_kept (e := { ctx := 0, shift := 30, page := 0, entry := 0x1D }) ?_,
    reaches_of_kept (e := { ctx := 0, shift := 30, page := 0, entry := 0x1D }) ?_⟩
  · revert entry he
    decide +kernel
  · decide +kernel

theorem witness_host_records :
    let checked := fun (s : State) => (s.hostRecord 0 ((s.ctxAt 0).hlist + 64)).bind (s.checkRecord 0 fun r => if r.tile then [2, 3] else [0, 1])
    let s := listedRecord 0
    (ok? (checked s) (fun r => r.2.isNone) && trap? (checked (listedRecord 1)) 4) = true ∧ (s.ctxAt 0).state = 1 ∧ s.mem.wf = true
    ∧ (s.mem.getN s.ctx.hlist 8 = 1 ∧ s.mem.getN (s.ctx.hlist + 8) 8 = 0 ∧ s.mem.getN (s.ctx.hlist + 0x10) 4 = 4 ∧ s.mem.getN (s.ctx.hlist + 0x14) 4 = 0)
    ∧ (world.modCtx 0 fun c => { c with state := 0 }).ctx.state ≠ 1
    ∧ sees (exec (.hostRecordConsume 0) s) (fun t => t.launches.length == 1) = true
    ∧ sees (exec (.hostRecordConsume 0) (listedRecord 1)) (fun t => t.launches.isEmpty && t.mem.getN (s.ctx.hlist + 8) 1 == 1) = true := by
  decide +kernel

theorem witness_launch_lists :
    let p := { world with launches := [launchAt .pending 512] }
    let q := { world with launches := [launchAt (.spilled 2 0) 512] }
    world.pendingOf 512 = [] ∧ (p.pendingOf 512).map (·.uid) = [9] ∧ world.takeable 0 2 = none
    ∧ (q.takeable 0 2).any (fun lp => ((q.modLaunch lp.1.uid fun l => { l with stage := .held }).devWrite 0
        ((q.ctxAt 0).dieList 2 + 128 * (lp.2 % 4096) + 0x4A) 1 2).isSome) = true
    ∧ (world.devWrite 0 (world.ctxAt 0).hlist 8 1).isSome = true
    ∧ world.devRead 0 (world.ctxAt 0).hlist 8 = world.devRead 0 ((world.ctxAt 0).hlist + 8) 8
    ∧ (world.devRead 0 ((world.ctxAt 0).hlist + 0x10) 4).isSome = true ∧ (world.devRead 0 ((world.ctxAt 0).hlist + 0x14) 4).isSome = true := by
  decide +kernel

/-- RegisterCreditMovesWithinTheTeam: 56 and 60 registers given of 64; 64 and 68 claimed; a credit that suffices, at the head
of the order and behind another group; a helper; a team on a core pair. -/
theorem witness_credit :
    let c := { world with teams := world.teams.map fun t => { t with credit := 1024 } }
    let behind := { world with teams := world.teams.map fun t => { t with credit := 1024, claims := [5] } }
    (world.team? world.occ.team).isSome = true ∧ world.me.under = [] ∧ world.occ.count = 64
    ∧ (56 + 8 ≤ world.occ.count ∧ world.occ.count < 60 + 8) ∧ (64 + world.occ.count ≤ 128 ∧ 128 < 68 + world.occ.count)
    ∧ (64 * c.occ.width ≤ (teamOf c).credit ∧ ((teamOf c).claims ++ [c.occ.group]).head? = some c.occ.group)
    ∧ ((teamOf behind).claims ++ [behind.occ.group]).head? ≠ some behind.occ.group
    ∧ ({ world with me := { world.me with under := [world.occ] } }).me.under ≠ []
    ∧ (teamOf world).cores.length < 2
    ∧ (let pair := { world with teams := world.teams.map fun t => { t with cores := [512, 513] } }
       2 ≤ (teamOf pair).cores.length
       ∧ sees (exec (.vgive yes 8) pair) (fun t => t.occ.tcause.toNat % 64 == 0x0B) = true) := by decide +kernel

/-! ### Memory -/

/-- Lane i holds 0x3000 + 4i in v0:v1 and 0x100 + 2i in v2; s1 is 0x3000, s2 is 0x3002. -/
def addressed : State := withS (withV world [(List.range 16).map fun i => BitVec.ofNat 32 (0x3000 + 4 * i), [],
  (List.range 16).map fun i => BitVec.ofNat 32 (0x100 + 2 * i)]) [0x3000, 0x3002]

def requests (s : State) (f : VF) (addr : State → Nat → Nat × DWord) : List Req := (s.lanes .m f).map fun l => (l, 0, addr s l)

/-- LoadsReadTheirBytes, StoresTakeEffectLater: sixteen accesses that are allowed, the third of which meets a fault once it is
misaligned; one lane that reads a whole quad; bytes that are lost and bytes that are not. -/
theorem witness_accesses :
    let r := requests addressed (al 4 0 0) (address56 (al 4 0 0) 0 0)
    let one := requests (under addressed 1) (al 4 0 0) (address56 (al 4 0 0) 0 0)
    let odd := withV addressed [([0x3000, 0x3004, 0x3006].map fun i => BitVec.ofNat 32 i), []]
    (allowedB addressed 0 4 .read r && allowedB addressed 0 4 .write r && allowedB (under addressed 1) 0 16 .read one
      && allowedB (under addressed 1) 0 8 .write one
      && (requests addressed (al 4 2 0) (addressInSlice (al 4 0 0) ⟨0, 2, 4, 0, 0x40⟩)).length == 16
      && countB addressed (.ld (al 4 0 0)) && countB addressed (.ld64 (al 8 0 0) ⟨0, 4, 0, 0, 0⟩) && countB addressed (.st (al 4 0 0))
      && countB addressed (.stl (al 4 0 0) ⟨0, 2, 4, 0, 0⟩) && countB addressed (.sts (al 4 0 0) ⟨0, 2, 0, 3, 0⟩)
      && (requests odd (al 4 0 0) (address56 (al 4 0 0) 0 0)).take 3 == [(0, 0, 0, 0x3000), (1, 0, 0, 0x3004), (2, 0, 0, 0x3006)]
      && ok? (odd.keyOf 0 0 1 0x3004 4 .read {}) (fun _ => true) && trap? (odd.keyOf 0 0 2 0x3006 4 .read {}) 4) = true
    ∧ addressed.poison = [] ∧ addressed.mem.wf = true
    ∧ (match addressed.lost 0x3000 64 with | none => true | some _ => false) = true := by decide +kernel

theorem witness_access_meets_its_rule :
    addressed.Allowed 0 4 .read (requests addressed (al 4 0 0) (address56 (al 4 0 0) 0 0)) (keyAt addressed 0 4 .read) :=
  allowed_of (by decide +kernel)

/-- The slices of LDL and STL: a group with 64 bytes for each lane. -/
theorem witness_slices :
    let s := addressed.mapOcc fun o => { o with lanePriv := 64 }
    allowedB s 4 4 .read (requests s (al 4 0 0) (addressInSlice (al 4 0 0) ⟨0, 2, 4, 0, 60⟩)) = true := by decide +kernel

/-- StoresTakeEffectLater: two pending stores that meet, the second of which may not go first, and two that do not. -/
theorem witness_pending :
    let s := fun (b : Nat) => addressed.mapOcc fun o => { o with stores := [⟨0x3000, [1, 2], 0⟩, ⟨b, [3], 1⟩] }
    (s 0).me.run ≠ .vacant ∧ (s 0x3001).occ.stores.length ≤ 2
    ∧ (0x3001 < 0x3000 + [1, (2 : Byte)].length ∧ 0x3000 < 0x3001 + [(3 : Byte)].length)
    ∧ ¬ (0x3002 < 0x3000 + [1, (2 : Byte)].length ∧ 0x3000 < 0x3002 + [(3 : Byte)].length)
    ∧ sees (exec (.accessTakesEffect 2 1) (s 0x3001)) (· == s 0x3001) = true
    ∧ sees (exec (.accessTakesEffect 2 1) (s 0x3002)) (fun t => t.occ.stores.length == 1) = true
    ∧ (let one := addressed.mapOcc fun o => { o with stores := [⟨0x3000, [1, 2], 1⟩, ⟨0x3002, [3], 1⟩] }
       sees (exec (.accessTakesEffect 2 0) one) (fun t => t.lineBytes 0x3000 == one.lineBytes 0x3000 && t.mem.getN 0x3000 2 == 0x201) = true) := by
  decide +kernel

/-- UniformAccessesActOnce: an access in GLOBAL, a release, and no enabled lane. -/
theorem witness_uniform :
    (countB addressed (.ldu (al 3 1 0)) && countB addressed (.stu64 (al 3 1 0) ⟨1, 3, 0, 3, 8⟩) && countB addressed (.fence (al 0 0 0))
      && ok? (addressed.keyOf 0 0 0 (addressed.getS 1) 4 .read {}) (fun k => ok? (addressed.checkLost (addressed.getS 1) k 4) fun _ => true)
      && ok? (addressed.checkRanges [addressed.range 0 0 0x3000 4 false]) (fun _ => true)
      && allowedB addressed 0 8 .write [(0, 0, 0, 0x3008)]) = true
    ∧ addressed.lanes .m (al 3 1 0) ≠ [] ∧ addressed.lanes .m { al 3 1 0 with pn := true } = []
    ∧ (⟨1, 3, 0, 3, 8⟩ : MX).c.getLsbD 0 = true ∧ (⟨0, 3, 0, 3, 8⟩ : MX).c.getLsbD 0 = false := by decide +kernel

/-- AtomicsActInOneOrder: words and double words that may be read and written, from any lanes and from none. -/
theorem witness_atomics :
    let r := requests addressed (al 4 0 0) (address56 (al 4 0 0) 0 0)
    (allowedB addressed 0 4 .both r && allowedB (under addressed 1) 0 8 .both (r.take 1)
      && countB addressed (.atom (al 4 0 0) ⟨6, 2, 0, 0, 0x1000⟩) && countB addressed (.cas (al 4 0 0) ⟨6, 3, 0, 0, 0⟩)) = true
    ∧ addressed.lanes .m (al 4 0 0) ≠ [] ∧ addressed.lanes .m { al 4 0 0 with pn := true } = [] ∧ addressed.poison = [] := by
  decide +kernel

/-- GatherAndScatterMoveElements: two elements of a word in each lane. -/
theorem witness_gather :
    let v := withV addressed [(List.range 16).map fun i => BitVec.ofNat 32 (2 * i), (List.range 16).map fun i => BitVec.ofNat 32 (2 * i + 1)]
    let r := (v.lanes .m (al 4 0 1)).flatMap fun l => (List.range 2).map fun k =>
      ((l, k, 0, v.getS 1 + (v.occ.getV k l).setWidth 64 * 4 + 0) : Req)
    (allowedB v 0 4 .read r && allowedB v 0 4 .write r && countB v (.gath (al 4 0 1) ⟨2, 2, 0, 0, 0⟩)
      && countB v (.scat (al 4 0 1) ⟨2, 2, 0, 0, 0⟩)) = true := by decide +kernel

/-! ### Memory commands, streams, semaphores and worklists -/

/-- The descriptor of the example of R183, at 0x400 and 0x1000 of UNIT memory, in s8 to s11; s1 is a semaphore at 0x3000. -/
def moving : State := withS world ([0x3000] ++ List.replicate 6 0
  ++ [0x2000000000000400, 0x2000000000001000, 0x0007001200040008, 0x0000001000000020])

def moveOf (s : State) : Move := Move.ofQuad (s.quad 8)

/-- MemoryCommandsAreAccepted, TMOV: legal with and without a semaphore; illegal modes, extents beyond UNIT memory; with 7 and 8
commands in flight; no rows. -/
theorem witness_tmov :
    let d := moveOf moving
    let c : MemCmd := { uid := 0, op := 0x0B, quad := [], route := 0, sem := none, off := 0, space := 0, scope := 0, halted := false, i := 0, j := 0,
                        deliveries := 0, error := false, ranges := [], addr := 0 }
    let busy := fun (n : Nat) => moving.mapOcc fun o => { o with cmds := List.replicate n c }
    (ok? (moving.checkMove d) (fun _ => true) && ok? (moving.checkExtents d true) (fun _ => true)
      && ok? (moving.keyOf 0 0 0 (moving.getS 1) 8 .both { atomic := true }) (fun _ => true)
      && trap? (moving.checkMove { d with mode := 6 }) 0x0B && trap? (moving.checkExtents { d with rows := 65535, sstride := 32 } true) 7
      && ok? (moving.checkRanges (moving.spanOfSide d.ssp d.speer d.srcSpan false ++ moving.spanOfSide d.dsp d.dpeer d.dstSpan true))
          (fun _ => true)
      && countB moving (.tmov (al 8 1 0)) && countB moving (.tmov64 (al 8 1 0) ⟨0, 0, 0, 0, 0⟩)) = true
    ∧ (d.rows ≠ 0 ∧ d.cols ≠ 0) ∧ (busy 7).occ.cmds.length < 8 ∧ ¬ (busy 8).occ.cmds.length < 8
    ∧ (∀ w ∈ moving.occ.streams, w.bound = false) ∧ (∀ c ∈ (busy 7).occ.cmds, c.uid ≠ (busy 7).uid)
    ∧ sees (exec (.tmov (al 8 0 0)) (withS moving ([0x3000] ++ List.replicate 6 0
        ++ [0x2000000000000400, 0x2000000000001000, 0x0007001200000008, 0x0000001000000020]))) (fun t => t.occ.cmds.isEmpty) = true := by
  decide +kernel

/-- TMCAST: a route that delivers to the tile south of tile 0, one that leaves the mesh, one without a delivery; a destination
that is no PEER one. -/
theorem witness_tmcast :
    let s := fun (w1 route : DWord) => withS world ([0x3000, route] ++ List.replicate 5 0 ++ [0x2000000000000400, w1, 0x0007000200010008, 0x0000001000000020])
    let ok := s 0xA000000000000100 (3 + 6 * 8)
    let d := moveOf ok
    let peer := { ok with teams := ok.teams ++ [{ teamOf ok with uid := 77, cores := [524] }] }
    (ok? (ok.checkMove d) (fun _ => true) && (moveOf (s 0x2000000000000100 0)).dsp == 1
      && countB ok (.tmcast (al 8 0 2) ⟨0, 0, 0, 0, 0⟩)) = true
    ∧ d.mode = 0 ∧ d.dsp = 5 ∧ d.dpeer = 0 ∧ ok.tile = true ∧ shade.tile = false
    ∧ routeOf (fun _ => false) 0 (3 + 6 * 8) = .tiles [12] ∧ routeOf (fun _ => false) 0 1 = .bad 0 ∧ routeOf (fun _ => false) 0 3 = .noDelivery 1
    ∧ (ok? (ok.checkExtents d false) (fun _ => true)) = true ∧ peer.peerOk 5 12 d.dstSpan = true
    ∧ ((0x3000 : DWord).setWidth 32).toNat % 8 = 0 ∧ peer.peerOk 5 12 (0x3000, 0x3008) = true ∧ (ok.dieAt ok.die).routesAwaited = false := by
  decide +kernel

/-- CSEND: a handle that the group holds, with a reservation; a move that fits the slot, and one that is too long. -/
def felted (cols : Nat) : State :=
  let s := (withS shade ([0x20005] ++ List.replicate 6 0
    ++ [0x2000000000000400, 0, BitVec.ofNat 64 (0x0007000000010000 + cols), 0x0000001000000020])).modCore (Config.coreKey 2 5)
      fun c => { c with felt := 0x0400020040000000 }
  let s : State := { s with felts := [{ ring := Config.coreKey 2 5, slot := 0, bridge := 0, handle := 0x20005, cmd := none }] }
  ({ s with teams := s.teams.map fun t => { t with unitSize := 16384 } } : State).mapOcc fun o => { o with felts := [0x20005] }

theorem witness_csend :
    let s := felted 8
    let d := moveOf s
    (ok? (s.checkMove d) (fun _ => true) && ok? (s.checkExtents d false) (fun _ => true) && countB s (.csend (al 8 1 0))) = true
    ∧ d.mode = 0 ∧ d.ssp = 1 ∧ s.occ.getS 9 = 0 ∧ s.occ.getS 1 ∈ s.occ.felts ∧ (bench.occ.getS 1 ∉ bench.occ.felts)
    ∧ (s.felts.find? fun r => r.handle == s.occ.getS 1 && r.cmd == none).isSome = true
    ∧ d.dstSpan.2 ≤ (feltSize (s.coreAt (Config.coreKey 2 5)).felt : Int) ∧ 0 ≤ d.dstSpan.1
    ∧ (moveOf (felted 65535)).dstSpan.2 > (feltSize (s.coreAt (Config.coreKey 2 5)).felt : Int) := by decide +kernel
/-- The state after an instruction; the state itself if it does not complete. -/
def after (i : Instr) (s : State) : State :=
  match exec i s with
  | .next t => t
  | _ => s

/-- The move of the example under way, with i of its 32 elements written. -/
def moved (i : Nat) (sem : Option DWord) : State :=
  (after (.tmov (al 8 1 0)) moving).mapOcc fun o => { o with cmds := o.cmds.map fun c => { c with i, sem } }
/-- The same between byte addresses without transposition. -/
def copied (src : DWord) : State :=
  (moved 3 none).mapOcc fun o => { o with cmds := o.cmds.map fun c =>
    { c with quad := [src, 0x2000000000001000, 0x0007000000040008, 0x0000001000000020] } }

/-- MovesGoElementByElement: a copy whose next element can be moved, one whose source is not mapped, one that has halted; all
elements moved, with a semaphore that can take a signal and without; a delivery and a slot that are complete. -/
theorem witness_moves :
    let next := fun (s : State) => (s.occ.cmds.map fun c =>
      let d := c.move
      let r := c.i / d.cols
      let k := c.i % d.cols
      decide (!c.halted ∧ c.op = 0x0B ∧ d.mode = 0 ∧ d.esz < 4 ∧ c.i < d.rows * d.cols)
        && ok? (s.cmdKey d.ssp d.speer (d.sa + BitVec.ofNat 64 r * d.sstride + BitVec.ofNat 64 k) 1 .read (c.info false)) (fun ks =>
          ok? ((s.countRead ks 1).cmdKey d.dsp d.dpeer (d.da + BitVec.ofNat 64 r * d.dstride + BitVec.ofNat 64 k) 1 .write (c.info false))
            fun _ => true))
    let faults := fun (s : State) => s.occ.cmds.map fun c => trap? (s.cmdKey c.move.ssp 0 c.move.sa 1 .read (c.info false)) 5
    next (copied 0x2000000000000400) = [true] ∧ faults (copied 0x40000000) = [true] ∧ (copied 0x40000000).occ.trapLevel = false
    ∧ (moved 31 none).occ.cmds.map (fun c => decide (c.move.rows * c.move.cols ≤ c.i)) = [false]
    ∧ (moved 32 none).occ.cmds.map (fun c => decide (c.move.rows * c.move.cols ≤ c.i ∧ c.move.mode ≠ 3 ∧ c.sem = none ∧ !c.halted)) = [true]
    ∧ (moved 32 (some 0x3000)).occ.cmds.map (fun c => ok? ((moved 32 (some 0x3000)).cmdKey c.space 0 0x3000 8 .both (c.info true))
        fun k => decide ((moved 32 (some 0x3000)).mem.getN k 4 < 0xFFFFFFFF)) = [true] := by decide +kernel

theorem witness_deliveries :
    let c : MemCmd := { uid := 5, op := 0x0C, quad := (moving.quad 8), route := 3 + 6 * 8, sem := some 0x100, off := 0, space := 5, scope := 0, halted := false,
                        i := 32, j := 0, deliveries := 0, error := false, ranges := [], addr := 0 }
    (c.i = c.move.rows * c.move.cols ∧ nextTile world c = some 12)
    ∧ world.mem.getN (unitKey (Config.coreKey world.die 12) 0x100) 4 < 0xFFFFFFFF
    ∧ (let s := felted 8
       let u : State := (s.mapOcc fun o => { o with cmds := [{ c with op := 0x14, quad := s.quad 8, i := 8, sem := none }] })
       let u : State := { u with felts := u.felts.map fun r => { r with cmd := some 5 } }
       let felt := (u.coreAt (Config.coreKey 2 5)).felt
       let hdr := unitKey (Config.coreKey 2 5) (feltHdr felt)
       (u.occ.cmds.map fun c => decide (c.i = c.move.count)) = [true] ∧ (u.felts.find? fun r => r.cmd == some 5).isSome = true
       ∧ (u.bridges.getD 0 (Channel.up 8)).failed = false ∧ (u.bridges.getD 0 (Channel.up 8)).retraining = false
       ∧ 0 < feltCount felt ∧ feltCount felt ≤ 16 ∧ u.mem.getN (hdr + 18) 1 = 0 ∧ u.mem.getN (hdr + 20) 2 = 0
       ∧ u.mem.getN (hdr + 8) 4 < 0xFFFFFFFF ∧ u.mem.wf = true) := by decide +kernel

/-- CommandCompletionIsObserved: selections 2^17 − 1 and 2^17; with a command of the tag in flight and without. -/
theorem witness_completion :
    let s := withS (moved 0 none) [7, 0x1FFFF, 0x20000]
    let chosen := fun (sel : DWord) (tag : Nat) => sel.getLsbD 16 || tag == sel.toNat % 2 ^ 16
    (countB s (.twait (al 5 1 0)) && countB s (.tstat (al 5 1 0))) = true ∧ s.lanes .m (al 5 1 0) ≠ []
    ∧ (s.occ.cmds.countP fun c => chosen 7 c.tag) = 1 ∧ (s.occ.cmds.countP fun c => chosen 8 c.tag) = 0
    ∧ (s.occ.getS 2).toNat < 2 ^ 17 ∧ 2 ^ 17 ≤ (s.occ.getS 3).toNat ∧ (5 : BitVec 7).toNat < 64 := by decide +kernel

/-- StreamsBindFetchAndFree: SBIND of 8 words at 0x3000, of none, of a misaligned one, of a tap with the DDA owned and not; a
bound register; an element to fetch with 63 arrived, and none left; a register that a port takes. -/
theorem witness_streams :
    let s := withS world [0x3000, 8 + 4 * 2 ^ 32, 0x3002, 1, 0x8000000000000003, 0, 0x3000, 0]
    let own := s.modCore 512 fun c => { c with dda := { c.dda with owner := some (2, 0), ports := [{ Port.reset with bound := true, w := 0 }] } }
    let w : Stream := { bound := true, tap := false, addr := 0x3000, space := 0, size := 2, left := 8, stride := 4, arrived := [], index := 0, halted := false }
    let full := fun (n left : Nat) => world.mapOcc fun o => { o with streams := [{ w with arrived := List.replicate n 0, left }] }
    (countB s (.sbind (al 0 1 0)) && countB s (.sbind64 (al 0 1 0) ⟨0, 2, 0, 0, 0⟩) && countB s (.sfree (al 0 0 0))
      && ok? (s.checkRanges (hull (s.streamRanges w))) (fun _ => true)
      && ok? ((full 63 1).cmdKey 0 0 0x3000 4 .read { async := true, index := 0 }) fun _ => true) = true
    ∧ (s.occ.getS 1).extractLsb' 48 15 = 0 ∧ (s.occ.getS 1).getLsbD 63 = false ∧ (s.occ.getS 2).toNat % 2 ^ 32 ≠ 0
    ∧ ((s.occ.getS 2).extractLsb' 32 32).signExtend 64 = (4 : DWord) ∧ (s.occ.getS 3).toNat % 4 ≠ 0 ∧ (s.occ.getS 8).toNat % 2 ^ 32 = 0
    ∧ (s.occ.getS 5).getLsbD 63 = true ∧ (s.occ.getS 5).toNat % 2 ^ 48 < 16 ∧ s.occ.getS 6 = 0 ∧ s.ownsDda = false ∧ own.ownsDda = true
    ∧ (s.occ.stream 0).bound = false ∧ ((full 0 1).occ.stream 0).bound = true ∧ own.portBound 0 = true ∧ s.portBound 0 = false
    ∧ ((full 63 1).occ.stream 0).arrived.length < 64 ∧ ((full 63 0).occ.stream 0).left = 0 := by decide +kernel

/-- SemaphoresAndFeltSlots: counts of 1 and 2 for a wait of 2, a count at its limit, and one with FAIL. -/
theorem witness_semaphores :
    let s := fun (x : Nat) => put (withS world [0x3000]) 0x3000 (toBytes 8 x)
    let at' := fun (x count fail : Nat) => ok? ((s x).accessAt .m 0 0 ((s x).getS 1) 8 .both true) fun k =>
      ok? ((s x).drain.checkLost ((s x).getS 1) k 8) (fun _ => true)
        && (s x).drain.mem.getN k 4 == count && (s x).drain.mem.getN (k + 4) 4 == fail
    (at' 1 1 0 && at' 2 2 0 && at' 0xFFFFFFFF 0xFFFFFFFF 0 && at' 0xFFFFFFFD 0xFFFFFFFD 0 && at' (2 ^ 63) 0 (2 ^ 31)
      && countB (s 0) (.semw (al 3 1 0)) && countB (s 0) (.sems64 (al 3 1 0) ⟨2, 2, 0, 0, 0⟩)) = true
    ∧ (s 0).lanes .m (al 3 1 0) ≠ [] ∧ (s 0).mem.wf = true := by decide +kernel

/-- SLOT: rings of neighbouring N-dies, of the own die and of a shade die; cores 143 and 144; with a free slot and without;
no ring; a bridge that has failed. -/
theorem witness_slots :
    let key := Config.coreKey 2 5
    let s := (withS shade [0x20005, 0x2008F, 0x20090, 0x40000, 0x3FFFF, 0x10005]).modCore key fun c => { c with felt := 0x0400020040000000 }
    let free := put s (unitKey key 0) [2]
    let felt := (s.coreAt key).felt
    countB s (.slot (al 3 1 0)) = true ∧ s.lanes .m (al 3 1 0) ≠ []
    ∧ feltCount felt = 2 ∧ free.drain.mem.getN (unitKey key (feltHdr felt)) 4 = 2 ∧ s.drain.mem.getN (unitKey key (feltHdr felt)) 4 = 0
    ∧ bridgeOf s.die 2 = some 0 ∧ s.die = 0 ∧ s.occ.felts.length < 16 ∧ (s.bridges.getD 0 (Channel.up 8)).failed = false
    ∧ (s.occ.getS 1).toNat < 2 ^ 18 ∧ 2 ^ 18 ≤ (s.occ.getS 4).toNat ∧ 144 ≤ (s.occ.getS 3).toNat % 2 ^ 16
    ∧ (s.occ.getS 2).toNat % 2 ^ 16 < 144 ∧ (s.occ.getS 6).toNat / 2 ^ 16 % 4 < 2 ∧ feltCount (shade.coreAt key).felt = 0 := by
  decide +kernel

/-! A worklist set at 0x4000: two lists with rings of 4 records at 0x5000 and 0x6000, a threshold of 2, a template at 0x3000,
and a counter at 0x3100. -/

def setBytes (magic flags rights tail : Nat) : List Byte :=
  toBytes 64 (magic + 2 * 2 ^ 16 + flags * 2 ^ 24 + rights * 2 ^ 32 + 0x3100 * 2 ^ 64)
    ++ toBytes 64 (0x5000 + 4 * 2 ^ 64 + 2 * 2 ^ 96 + 0x3000 * 2 ^ 192 + tail * 2 ^ 320)
    ++ toBytes 64 (0x6000 + 4 * 2 ^ 64 + 2 * 2 ^ 96 + 0x3000 * 2 ^ 192)

def listed (magic flags rights tail : Nat) : State :=
  under (withV (put (put (withS world [0x4000, 0, 1, 2]) 0x3000 recordBytes) 0x4000 (setBytes magic flags rights tail)) [[0, 1, 2]]) 3

def setOf (s : State) : SetRef := s.setRef 0 0x4000

/-- WorklistsAppendAndTake: a set that is open, another magic, quiescence; lists 0 and 1 and the missing list 2; rings with
room and without; a drain that is active; records to take and none. -/
theorem witness_worklists :
    let f := al 4 0 1
    let x : MX := ⟨0, 0, 0, 0, 0⟩
    let s := listed 0xC0A1 0 0 0
    let r := setOf s
    let lists := (s.lanes .m f).map fun i => (s.occ.getV f.a.toNat i).toNat
    let full := (put (listed 0xC0A1 0 0 4) 0x406C [1]).drain.takeRight r 0
    (ok? (s.openSet f x) (· == r) && ok? ((listed 0xC0A2 0 0 0).openSet f x) (fun _ => true) && countB s (.wlapp f x)
      && countB s (.wltake (al 8 1 1) x) && countB s (.wldone (al 0 0 1)) && lists == [0, 1]
      && ok? (s.reachSet r 64) (fun _ => true) && ok? (s.reachSet r 128) (fun _ => true)
      && ok? (s.drain.takeRight r 0) (fun t => t.full r 0 == some false
          && (t.appendAll r (fun i => i) (fun _ => []) [0, 1]).any fun vd => vd.2 == [0, 1])
      && ok? full fun t => t.full r 0 == some true && t.wGet r (64 + 44) 1 == some 1
          && (t.appendAll r (fun i => i) (fun _ => []) [0, 1]).any fun vd => vd.2 == [1]) = true
    ∧ s.wGet r 0 2 = some 0xC0A1 ∧ (listed 0xC0A2 0 0 0).wGet r 0 2 ≠ some 0xC0A1 ∧ (s.wGet r 3 1).getD 0 % 2 = 0
    ∧ ((listed 0xC0A1 3 0 0).wGet r 3 1).getD 0 % 2 = 1 ∧ (s.wGet r 2 1).getD 0 = 2
    ∧ ((under s 7).lanes .m f).map (fun i => decide ((s.occ.getV 0 i).toNat < 2)) = [true, true, false]
    ∧ (listed 0xC0A1 0 0 3).drain.held r 0 = some 3 ∧ (s.drain.held r 0) = some 0 := by decide +kernel

theorem witness_worklists_take :
    let s := listed 0xC0A1 2 1 3
    let r := setOf s
    (s.takeRecords r 0 8 (s.lanes .m (al 8 1 1))).isSome = true ∧ (s.lanes .m (al 8 1 1)).length < 3
    ∧ sees (exec (.wltake (al 8 2 1) ⟨3, 0, 0, 0, 0⟩) s) (fun t => t.occ.getP 3 == 3) = true
    ∧ (let h := s.mapOcc fun o => { o with rights := [r] }
       (h.occ.rights.find? fun p => p.obj == r.obj).isSome = true ∧ (∀ p ∈ s.occ.rights, p.obj ≠ r.obj)
       ∧ (ok? (h.checkRanges (h.setRanges r)) (fun _ => true)) = true
       ∧ ((h.drain.mapOcc fun o => { o with rights := [] }).endRight r).isSome = true
       ∧ (h.knownSets.find? fun q => q.obj.toNat == r.obj.toNat).isSome = true ∧ h.drainDue r 0 = some true ∧ h.drainDue r 1 = some false
       ∧ (h.launchDrain r 0).isSome = true ∧ h.wGet r 2 1 = some 2)
    ∧ (let d := { s with launches := [{ launchAt .held 0 with drain := some (r, 0) }, { launchAt .held 0 with uid := 10 }] }
       s.launch? 9 = none ∧ (d.launch? 9).any (fun l => decide (l.done < l.record.teams)) = true
       ∧ (d.launch? 10).any (fun l => l.drain.isNone) = true) := by decide +kernel
/-! ### The matrix engine -/

/-- 64 KiB of UNIT memory, a window of 64 accumulator rows, and format 2 with FP32 operands and results. s1:s2 is a step of
16 rows; s3 clears 4 rows, s4 none; s5 is UNIT 0x8000, s6 that plus 8, s7 four rows; s8 an epilogue of 16 rows. -/
def matrix : State :=
  ({ withS world [0x100000000, 0x0002000100004000 + 2 * 2 ^ 50, 0x4000, 0, 0x2000000000008000, 0x2000000000008008, 0x6004000, 0x00022000, 0x41000]
      with teams := world.teams.map fun t => { t with unitSize := 65536 } } : State).mapOcc fun o =>
    { o with awb := 0, awl := 64, fmts := setAt unsetEntry [] 2 0x666 }

/-- MatrixTablesWindowAndStatus: entries that are legal and not; table words at the bounds of their fields; windows that are
legal, too long, and shared; the sixteen words of a nest table and the seventeenth; formats of the two tables. -/
theorem witness_matrix_tables :
    (matrix.guard yes = true ∧ (matrix.dieAt matrix.die).powcompat % 2 = 0)
    ∧ (let bad := fun (n : Nat) (w1 : DWord) => decide (2 ^ 35 ≤ n) || w1.getLsbD 35 || decide (2 ^ 54 ≤ w1.toNat)
       !bad (2 ^ 35 - 1) 0 && bad (2 ^ 35) 0 && bad 0 (1 <<< 35) && bad 0 (1 <<< 54) && !bad 0 (1 <<< 53)) = true
    ∧ (let t := (1 <<< 33 : Nat); 2 ^ 33 ≤ t ∧ (2 ^ 17) / 2 ^ 17 % 2 ^ 15 ≠ 0 ∧ (2 ^ 32 + 0x666) / 2 ^ 17 % 2 ^ 15 = 0 ∧ (2 ^ 32 + 0x666) < 2 ^ 33)
    ∧ (let w := fun (lo hi : Nat) => decide (lo ≤ hi ∧ hi ≤ 3072 ∧ lo + hi * 2 ^ 16 < 2 ^ 28)
       w 0 3072 && w 5 5 && !w 6 5 && !w 0 3073) = true
    ∧ matrix.overlapsWindow 64 128 = false
    ∧ (let o := { matrix.me with gid := 50, place := ⟨512, 1⟩ }
       ({ matrix with others := [o] } : State).overlapsWindow 63 70 = true)
    ∧ matrix.occ.xcmds = [] ∧ matrix.mem.wf = true ∧ 15 < 16 ∧ 15 % 8 = 7 ∧ 14 % 8 ≠ 7 := by decide +kernel

theorem witness_format_entries : legalEntry 0x666 ∧ ¬ legalEntry 0x66A ∧ ¬ legalEntry 0x766 ∧ legalEntry 0x444 := by
  refine ⟨?_, ?_, ?_, ?_⟩ <;> (simp only [legalEntry]; decide +kernel)

theorem witness_trap_level_tables :
    let t := matrix.mapOcc fun o => { o with trapLevel := true }
    t.occ.trapLevel = true ∧ matrix.occ.trapLevel = false
    ∧ sees (exec (.mcfgAct yes 1 3 3) t) (fun u => u.occ.active.length == 4) = true := by decide +kernel

def fmts16 (s : State) : List Word := (List.range 16).map s.occ.fmt

/-- MatrixCommandsAreAccepted: a step, a nest, a clear of 4 rows and of none, rows outside the window, a load and a store at
UNIT 0x8000, misaligned and elsewhere, an epilogue; with 7 and 8 commands in the queue; a memory command that meets a range. -/
theorem witness_matrix_commands :
    let s := matrix
    let t := List.replicate 14 (0 : DWord)
    let nest := setAt 0 (setAt 0 t 0 (s.getS 1)) 1 (s.getS 2)
    let e := Epi.ofWord (s.getS 8) (fmts16 s)
    let x := s.getS 3
    (ok? (s.checkNest (Base.ofWords (s.getS 1) (s.getS 2)) [] (fmts16 s)) (fun _ => true)
      && ok? (s.checkNest (tableBase nest) (tableLevels nest) (fmts16 s)) (fun _ => true)
      && trap? (s.checkNest (tableBase t) (tableLevels t) (fmts16 s)) 0x0B
      && ok? (s.checkStreams .x (s.nestRanges (tableBase nest) (tableLevels nest) (fmts16 s))) (fun _ => true)) = true
    ∧ (x.toNat < 2 ^ 24 ∧ x.toNat / 2 ^ 12 % 2 ^ 12 = 4 ∧ s.occ.awb ≤ x.toNat % 2 ^ 12 ∧ x.toNat % 2 ^ 12 + 4 ≤ s.occ.awl)
    ∧ (s.getS 4).toNat / 2 ^ 12 % 2 ^ 12 = 0 ∧ 63 + 2 > s.occ.awl
    ∧ packedSpace (s.getS 5) = 1 ∧ (s.getS 5).extractLsb' 48 13 = 0 ∧ (packedOff (s.getS 5)).toNat % 16 = 0
    ∧ (packedOff (s.getS 6)).toNat % 16 ≠ 0 ∧ packedSpace (s.getS 9) = 0
    ∧ (packedOff (s.getS 5)).toNat + 256 * 4 ≤ s.extentOf 1 ∧ (s.getS 7).toNat < 2 ^ 28 ∧ (s.getS 7).toNat / 2 ^ 24 % 16 = 6
    ∧ entryAF e.entry ≤ 7 ∧ entryOF e.entry ≠ 7 ∧ (packedOff (s.getS 5)).toNat % 8 = 0 ∧ e.stride % 8 = 0
    ∧ 0 ≤ (e.extent 0x8000).1 ∧ (e.extent 0x8000).2 ≤ (s.extentOf 1 : Int) ∧ 0 + e.accRows ≤ s.occ.awl
    ∧ epiSemZero 0 0x3000 = true ∧ (ok? (s.keyOf 0 0 0 (epiSem 0 0x3000 0).2 8 .both { atomic := true }) fun _ => true) = true := by
  decide +kernel

theorem witness_queue_room :
    let c : XCmd := { uid := 0, op := 5, args := [0x4000], fmts := [], table := [], granted := false, started := false, next := 0, sem := none, ranges := [], addr := 0 }
    let s := fun (n : Nat) => matrix.mapOcc fun o => { o with xcmds := List.replicate n c }
    (s 7).occ.xcmds.length < 8 ∧ 8 ≤ (s 8).occ.xcmds.length ∧ (∀ k ∈ (s 7).occ.xcmds, k.uid ≠ (s 7).uid)
    ∧ (let r : Range := { space := 8, core := 0, lo := 0, hi := 4, wr := true }
       r.overlaps { r with lo := 3, hi := 9 } = true ∧ r.overlaps { r with lo := 4, hi := 9 } = false)
    ∧ sees (exec (.aclr yes 3) (s 7)) (fun t => t.occ.xcmds.length == 8) = true
    ∧ sees (exec (.aclr yes 3) (s 8)) (fun t => t.occ.wait.any fun w => w.kind == 22) = true
    ∧ (let full := fun (n : Nat) => { s 0 with others := List.replicate n (s 8).me }
       (full 7).checkerUsed = 56 ∧ (full 8).checkerUsed = 64 ∧ (full 8).occ.cmds = []
       ∧ sees (exec (.mma yes 1 2) (full 7)) (fun t => t.occ.xcmds.length == 1) = true
       ∧ sees (exec (.mma yes 1 2) (full 8)) (fun t => t.occ.wait.any fun w => w.kind == 21) = true) := by decide +kernel

/-- The queue with one step, not granted and granted, started and finished. -/
def stepping (granted : Bool) (next : Nat) : State :=
  (after (.mma yes 1 2) matrix).mapOcc fun o => { o with xcmds := o.xcmds.map fun c => { c with granted, next } }

/-- MatrixStepsAndLeave: a step that asks for leave, 64 and 65 cycles after the last one; one that is granted and can be
executed; a finished one; the commands that run whole; the requests that a die can and cannot serve. -/
theorem witness_steps :
    let heads := fun (s : State) => s.occ.xcmds.map fun c => (c.op, c.steps, c.granted)
    let last := fun (n : Nat) => ((stepping false 0).modCore 512 fun c => { c with lastStep := some n }).modDie 2 fun d => { d with cyc := 65 }
    (stepping false 0).me.run = .running ∧ heads (stepping false 0) = [(2, 1, false)] ∧ heads (stepping true 1) = [(2, 1, true)]
    ∧ ((last 1).core.lastStep = some 1 ∧ (last 1).cyc ≤ 1 + 64) ∧ ¬ (last 0).cyc ≤ 0 + 64
    ∧ ((stepping true 0).occ.xcmds.map fun c => ok? ((stepping true 0).matrixStep c.base.asp c.base.aoff c.base.bsp c.base.boff c.base.crow
        (rowsOf c.base.mc) (c.entry 0) false) fun _ => true) = [true]
    ∧ (ok? ((stepping true 0).readRow 1 0 256) (fun _ => true) && ok? ((stepping true 0).rowLost 15) (fun _ => true)) = true := by
  decide +kernel

theorem witness_whole_commands :
    let s := matrix
    (ok? (s.runAst 0x2000000000008000 0x6004000) (fun _ => true) && ok? (s.runAepi 0x2000000000008000 0x00022000 (fmts16 s)) (fun _ => true)
      && (List.range 4).all fun i => ok? (s.readRow 1 (0x8000 + 256 * i) 256) (fun _ => true)) = true := by decide +kernel

theorem witness_leave :
    let ask := fun (charge : Nat) => (stepping false 0).modDie 2 fun d =>
      { d with budget := 100, leave := (stepping false 0).occ.xcmds.map fun c => { gid := 2, cmd := c.uid, charge } }
    let budget := fun (s : State) => min 136000 ((s.dieAt 2).budget + 10 * (s.dieAt 2).didt / 2 ^ (s.dieAt 2).throttle)
    budget (ask 0) = 1100 ∧ ((ask 1100).dieAt 2).leave.length = 1 ∧ (world.dieAt 2).leave = []
    ∧ sees (exec (.currentGovernorCycle 2) (ask 1100)) (fun t => t.occ.xcmds.all XCmd.granted && (t.dieAt 2).budget == 0) = true
    ∧ sees (exec (.currentGovernorCycle 2) (ask 1101)) (fun t => !t.occ.xcmds.all XCmd.granted && (t.dieAt 2).budget == 1100) = true := by
  decide +kernel

/-! ### The DDA -/

/-- The group owns the DDA of its core: two cells, domain 0 in a mode, a tap that counts. s1 is 1, s2 the reset patch word,
s3 512, s4 16, s5 −1. -/
def dda (mode : Nat) : State :=
  (withS world [1, 0x00000100FFDFFBFF, 512, 16, 0xFFFFFFFFFFFFFFFF, 0x10000, 0x2000, 0x2000000000000100]).modCore 512 fun c => { c with dda := { Dda.reset with
    owner := some (2, 0), cells := [Cell.reset, Cell.reset], doms := [{ Dom.reset with mode, remain := 3, period := 4 }],
    taps := [{ Tap.reset with sink := 1 }, { Tap.reset with sink := 2, fifo := [1, 0, -1], aside := 2 }], ports := [] } }

def frozenDda (s : State) : State := s.modCore 512 fun c => { c with dda := { c.dda with frozen := true } }
def ownedBy (o : Nat × Nat) : State := (dda 0).modCore 512 fun c => { c with dda := { c.dda with owner := some o } }
def tapping : State := (dda 0).mapOcc fun o => { o with streams := [{ Stream.unbound with bound := true, tap := true, addr := 0 }] }

/-- DdaIsOwnedAndConfigured: owned by the group, by another, by the occupant below, by none; stopped, counted, free, event
and frozen domains; patch words; ranges of cells to the last one; taps that are in use; tap 15 and 16. -/
theorem witness_dda_owner :
    ((dda 0).core.dda.owner = some ((dda 0).me.gid, (dda 0).me.under.length) ∧ world.core.dda.owner = none
      ∧ (ownedBy (7, 0)).core.dda.owner = some (7, 0) ∧ 7 ≠ (dda 0).me.gid ∧ (ownedBy (2, 1)).core.dda.owner = some ((dda 0).me.gid, 1))
    ∧ ([0, 1, 2, 3].map fun m => ((ddaSettled (dda m)).core.dda.dom 0).mode) = [0, 1, 2, 3]
    ∧ (ddaSettled (frozenDda (dda 1))).core.dda.frozen = true ∧ (dda 0).occ.tapsUsed = [] ∧ tapping.occ.tapsUsed = [0]
    ∧ ((dda 0).getS 2).toNat / 2 ^ 38 % 4 = 0
    ∧ (511 + 1 ≤ 512 ∧ ¬ 511 + 2 ≤ 512) ∧ ((dda 0).core.dda.tap 0).sink ≠ 0 ∧ ((dda 0).core.dda.tap 2).sink = 0
    ∧ ((dda 0).getS 4).toNat = 16 ∧ (∀ j < 4, ((dda 2).core.dda.dom j).mode = 1 → ((dda 2).core.dda.dom j).remain = 0) := by decide +kernel

theorem witness_patches : legalPatch 0x00000100FFDFFBFF ∧ ¬ legalPatch 0x00000100FFDFFA04 ∧ ¬ legalPatch (1 <<< 43) := by
  refine ⟨?_, ?_, ?_⟩ <;> (simp only [legalPatch]; decide +kernel)

/-- DdaStepsAndStalls: counts and periods at their bounds; an event that is queued; a cell whose sum fits and one whose sum
does not; a cycle with a due domain and one that meets an overflow. -/
theorem witness_dda_steps :
    let room := fun (c : Nat) => decide (((dda 1).core.dda.dom 0).mode < 2 ∧ ((dda 1).core.dda.dom 0).remain + c < 2 ^ 32)
    let queued := (dda 0).modCore 512 fun c => { c with dda := { c.dda with queue := [{ run := false, mask := 1, count := 2, addr := 0 }] } }
    let d : Dda := { Dda.reset with ports := [{ Port.reset with value := 1 }] }
    let c := fun (y : Word) => ({ Cell.reset with y, patch := 0x00000100FFD80200 } : Cell)
    (room (2 ^ 32 - 4) && !room (2 ^ 32 - 3)) = true ∧ (1 ≤ 0xFFFFFF ∧ ¬ 1 ≤ 0 ∧ ¬ 0x1000000 ≤ 0xFFFFFF)
    ∧ (queued.coreAt 512).dda.queue.length = 1
    ∧ (d.stepCell (List.replicate 16 1) (c 0)).isSome = true
    ∧ (match (dda 1).core.dda.cycle [0] (List.replicate 16 0) with | .ok _ => true | .error _ => false) = true
    ∧ (dda 1).ownerOcc 512 = some (dda 1).occ ∧ (dda 1).core.dda.frozen = false ∧ (∀ p < 16, ((dda 1).core.dda.port p).bound = false)
    ∧ ((dda 2).core.dda.dom 0).period ≤ 3 + 1 ∧ ¬ ((dda 2).core.dda.dom 0).period ≤ 2 + 1
    ∧ sees (exec (.ddaCycle 512) (dda 1)) (fun t => t.mem == (dda 1).mem) = true := by decide +kernel

/-- A stall of the V engine on stream register 0, and one of a port, both after 65536 cycles. -/
theorem witness_stalls :
    let late := fun (s : State) => s.modDie 2 fun d => { d with cyc := 65536 }
    let v := late (world.mapOcc fun o => { o with wait := some { kind := 14, obj := 0, owner := 0, detail := 1, since := 0 } })
    let p := late ((dda 0).modCore 512 fun c => { c with dda := { c.dda with ports := [{ Port.reset with bound := true, held := some 0 }] } })
    (v.core.dda.owner = none ∧ v.me.run = .running ∧ v.occ.trapLevel = false ∧ (v.occ.stream 0).bound = false ∧ 65536 ≤ v.cyc - 0)
    ∧ (p.core.dda.owner = some (p.me.gid, p.me.under.length) ∧ p.occ.wait = none ∧ (p.core.dda.port 0).bound = true
      ∧ (p.core.dda.port 0).held = some 0 ∧ (p.occ.stream (p.core.dda.port 0).w).bound = false ∧ 0 + 65536 ≤ p.cyc)
    ∧ sees (exec (.stallTimeout 2) v) (fun t => t.occ.causes.length == 1) = true
    ∧ sees (exec (.stallTimeout 2) p) (fun t => t.occ.causes.length == 1 && t.core.dda.frozen) = true := by decide +kernel

/-- DdaIsReadWrittenAndSaved: indexes 511 and 512 of cells, 15 and 16 of taps and ports, 3 and 4 of domains; values of a port;
images and tap queues in UNIT memory that are legal and not. -/
theorem witness_dda_image :
    let s := dda 0
    let u := ddaSettled s
    let at' : DWord := 0x2000000000000100
    let save := (u.dArea at' 18 .write)
    let img := put s (unitKey 512 0x100) (({ u.core.dda with doms := [] } : Dda).image 0 2)
    let head := fun (s : State) => ok? (s.dArea at' 16 .read) fun ks => ok? (s.getArea at' ks) fun h => headerOk h
    (ok? save (fun ks => ks.length == 18) && ok? (u.dArea at' 16 .write) (fun _ => true) && head img && !head s
      && ok? (img.dArea at' (16 + 2) .read) (fun ks => ok? (img.getArea at' ks) fun bs =>
          cellOk (imgCell bs 0) && cellOk (imgCell bs 1))
      && queueOk (s.core.dda.tap 1) 13 && !queueOk (s.core.dda.tap 1) 1 && ((0 : DWord) == 0 && s.getS 5 == -1)) = true
    ∧ (∀ j ∈ [0, 1, 2, 3], (u.core.dda.dom j).mode = 0) ∧ (s.core.dda.tap 1).aside = 2 ∧ (dda 1).core.dda.frozen = false
    ∧ (Cell.reset.dz = 0 ∧ Cell.reset.patch.toNat < 2 ^ 43) := by decide +kernel
/-! ### Beams and rays -/

/-- A scene of one tile at 0x3000: the camera at the origin looks along z, with one unit between pixels; ROOT is a leaf with
one triangle at 0x3100, in the plane z = 1 with corners (0, 0), (100, 0) and (0, 100) and PID 7. s1 is its address. -/
def sceneBytes : List Byte :=
  toBytes 8 (0x3100 + 2 * 2 ^ 62) ++ toBytes 12 0 ++ toBytes 12 0x3F800000 ++ toBytes 12 (0x3F800000 * 2 ^ 32)
    ++ toBytes 12 (0x3F800000 * 2 ^ 64) ++ toBytes 4 0 ++ toBytes 4 0x7F800000 ++ toBytes 48 0 ++ toBytes 2 1 ++ toBytes 2 1 ++ toBytes 12 0
def triangleBytes : List Byte :=
  toBytes 12 (0x3F800000 * 2 ^ 64) ++ toBytes 12 (0x42C80000 + 0x3F800000 * 2 ^ 64) ++ toBytes 12 (0x42C80000 * 2 ^ 32 + 0x3F800000 * 2 ^ 64)
    ++ toBytes 4 7 ++ toBytes 8 0

def scened : State :=
  let s := put (put (withS shade [0x3000, 0x3040, 0, 1, 0x10000, 2 ^ 32]) 0x3000 sceneBytes) 0x3100 triangleBytes
  ({ s with teams := s.teams.map fun t => { t with unitSize := 16384 } } : State).mapOcc fun o =>
    { o with scene := some (0x3000, sceneBytes), rayDepth := 1, lanePriv := 64 }

/-- R267, R268: the ray of pixel (0, 0) meets the plane at t = 1; the normal, turned against it, is (0, 0, −1), whose
octahedral code is (1, 1); w' is 0, so MOTION is 0. -/
theorem test_ray_of_a_pixel :
    sees (exec (.ray (al 8 12 0)) (under scened 1)) (fun t =>
      t.occ.getV 8 0 == 7 && t.occ.getV 9 0 == 0x3C00 && t.occ.getV 10 0 == 0x7FFF7FFF && t.occ.getV 11 0 == 0) = true := by
  decide +kernel

/-- R273, R275: BEAM of tile (0, 0) makes the triangle a candidate; BRES gives its address to lane 0. -/
theorem test_beam_of_a_tile :
    sees (exec (.beam (al 0 0 3) ⟨2, 0, 1, 0, false, 0⟩) scened) (fun t =>
      (t.occ.beams.map fun b => (b.valid, b.split, b.cands.map Prod.fst)) == [(false, false, []), (false, false, []), (true, false, [0x3100])]
        && sees (exec (.bres (al 8 0 0) ⟨2, 0, 0, 0, false, 0⟩) t) fun u => u.occ.getV 8 0 == 0x3100 && u.occ.getV 8 1 == 0) = true := by
  decide +kernel

/-- ScenesBeamsAndRays: descriptors that are aligned and legal, misaligned and illegal; ray stacks of 8 and 9 entries in a
slice of 64 bytes; tiles inside and beyond the image; a root that is no reference; pixels 7 and 8 of an image of 8. -/
theorem witness_scenes :
    let s := scened
    let lane := fun (px py : Nat) => ok? (s.drain.rayLane (0x3000, sceneBytes) px py 0) fun _ => true
    (countB s (.bvhset (al 0 0 1) ⟨0, 0, 1, 0, false, 8⟩) && countB s (.beam (al 0 0 3) ⟨2, 0, 1, 0, false, 0⟩) && countB s (.ray (al 8 12 0))
      && countB s (.ray64 (al 8 12 0) ⟨0, 0, 0, 0, false, 0⟩) && ok? s.sceneRange (fun _ => true)
      && ok? (s.drain.readScene 0 (s.getS 1) 8) (fun bs => bs == sceneBytes) && ok? (s.drain.readScene 0 (s.getS 2) 8) (fun bs => bytesAt bs 112 2 == 0)
      && ok? (s.checkRanges [s.range 4 0 56 8 true]) (fun _ => true) && ok? (s.checkStreams .b [s.range 4 0 56 8 true]) (fun _ => true)
      && lane 7 7) = true
    ∧ s.lanes .b (al 8 12 0) ≠ [] ∧ (s.getS 1).toNat % 64 = 0 ∧ (0x3020 : DWord).toNat % 64 ≠ 0 ∧ 8 * 8 ≤ s.occ.lanePriv ∧ s.occ.lanePriv < 8 * 9
    ∧ (1 ≤ bytesAt sceneBytes 112 2 ∧ bytesAt sceneBytes 112 2 ≤ 8192 ∧ bytesAt sceneBytes 116 12 = 0)
    ∧ (s.getS 3).toNat % 2 ^ 16 < bytesAt sceneBytes 112 2 ∧ ¬ (s.getS 4).toNat % 2 ^ 16 < bytesAt sceneBytes 112 2
    ∧ ¬ (s.getS 5).toNat / 2 ^ 16 % 2 ^ 16 < bytesAt sceneBytes 114 2 ∧ ¬ (s.getS 6).toNat < 2 ^ 32
    ∧ (Ref.of? (bytesAt sceneBytes 0 8)).isSome = true ∧ Ref.of? (3 * 2 ^ 62) = none ∧ shade.occ.scene = none
    ∧ (7 < 8 * bytesAt sceneBytes 112 2 ∧ ¬ 8 < 8 * bytesAt sceneBytes 112 2) := by decide +kernel

theorem witness_beam_casts :
    let c := Desc.camera sceneBytes
    (match Ref.of? (bytesAt sceneBytes 0 8) with
     | some root => ok? (scened.drain.cast ((c.map fun c => c.planes 0 0).getD []) ((c.map (·.o)).getD ⟨0, 0, 0⟩) traceFuel [root] [] []) fun r =>
         r.1.1.length == 1 && !r.1.2 && decide (r.2 ≠ [])
     | none => false) = true := by decide +kernel

theorem witness_hits :
    let r : Record := (0x3100, triangleBytes)
    (match Desc.ray sceneBytes 0 0 with
     | some ray => (Record.triangle r).isSome && (ray.hits r).isSome && ([r].foldl ray.best none).isSome
         && (match Desc.ray sceneBytes 200 200 with | some far => (far.hits r).isNone | none => false)
     | none => false) = true := by decide +kernel

/-- GuideTilesAndOrder: a slot that is valid, one that is not, one that is split; bases 48 and 49 for 16 lanes; a tile in UNIT
memory; order words above, at and below n; a token held and not. -/
theorem witness_tiles :
    let slot : BeamSlot := { valid := true, split := false, tx := 0, ty := 0, cands := [(0x3100, triangleBytes)] }
    let s := scened.mapOcc fun o => { o with beams := [slot, { slot with split := true }, { slot with valid := false }] }
    let f := al 8 0 3
    (countB s (.cover (al 0 0 3) ⟨0, 0, 1, 0, false, 0⟩) && countB s (.gbst (al 0 8 3) ⟨0, 0, 1, 0, false, 48⟩)
      && countB s (.bres (al 8 0 0) ⟨0, 0, 0, 0, false, 48⟩) && countB s (.bstatSlot f ⟨0, 0, 0, 0, false, 0⟩)
      && ok? (s.tileKeys (al 0 0 3)) (fun ks => ks == (List.range 16).map fun j => unitKey 0 0 + 64 * j)) = true
    ∧ (s.occ.beam ⟨0, 0, 0, 0, false, 0⟩).valid = true ∧ (s.occ.beam ⟨1, 0, 0, 0, false, 0⟩).split = true
    ∧ (s.occ.beam ⟨2, 0, 0, 0, false, 0⟩).valid = false ∧ (48 + s.occ.width ≤ 64 ∧ ¬ 49 + s.occ.width ≤ 64)
    ∧ s.mem.wf = true := by decide +kernel

theorem witness_order :
    let s := fun (v : Nat) => put (withS shade [0x3000, 4, 2 ^ 32]) 0x3000 (toBytes 4 v)
    let reads := fun (v : Nat) => ok? ((s v).readAt .b (packedSpace ((s v).getS 1)) 0 (packedOff ((s v).getS 1)) 4) fun kv => kv.2.2 == v
    (reads 3 && reads 4 && reads 5 && countB (s 0) (.robeg (al 0 1 2) ⟨0, 0, 1, 0, false, 0⟩) && countB (s 0) (.roend (al 0 0 0))
      && ok? ((s 4).accessAt .b 0 0 0x3000 4 .write) (fun _ => true)) = true
    ∧ ((s 0).getS 2).toNat < 2 ^ 32 ∧ ¬ ((s 0).getS 3).toNat < 2 ^ 32 ∧ (s 0).occ.token = none
    ∧ ((s 4).mapOcc fun o => { o with token := some (0x3000, 4), trapLevel := true }).occ.token = some (0x3000, 4)
    ∧ (s 4).lanes .b (al 0 1 2) ≠ [] := by decide +kernel
/-! ### Placement, parked work, contexts and the host -/

def held (f : Launch → Launch) : State :=
  { world.modCtx 0 fun c => { c with desc := setAt 0 c.desc 7 (1 + 16 * 2 ^ 32) } with launches := [f (launchAt .held 512)] }

def places : List Place := [⟨513, 0⟩]

/-- ControllersPlaceTeamsAndTasks: a launch whose turn it is, co-scheduled and not; one that a queue still holds; a first team
and a later one 101 and 102 cycles after it; a parked team; an item that has waited for the limit. -/
theorem witness_placement :
    let co := fun (l : Launch) => { l with record := { l.record with cosched := true } }
    let begun := fun (l : Launch) => { l with lastStart := [(2, 0)], record := { l.record with tx := 2 }, next := 1 }
    let s := held id
    let l := launchAt .held 512
    (s.launch? 9).isSome = true ∧ dieOf places = 2 ∧ s.launchTurn l 2 = true ∧ s.toResume 9 = [] ∧ l.next < l.record.teams
    ∧ l.record.cosched = false ∧ ¬ (∃ p ∈ l.lastStart, p.1 = 2) ∧ (s.startTeam 9 places).isSome = true
    ∧ (s.startTeam 9 [⟨512, 0⟩]).isNone = true
    ∧ ((held co).launch? 9).any (fun l => (held co).launchTurn l 2 && l.record.cosched && ((held co).startAll l [⟨512, 1⟩]).isSome) = true
    ∧ (held fun l => { l with stage := .pending }).launchTurn { l with stage := .pending } 2 = false
    ∧ (let at' := fun (n : Nat) => (held begun).modDie 2 fun d => { d with cyc := n }
       ((at' 102).launch? 9).any (fun l => (at' 102).staggerOk l 2 && (at' 102).launchTurn l 2 && l.lastStart.any fun p => p.1 == 2) = true
       ∧ ((at' 101).launch? 9).any (fun l => (at' 101).staggerOk l 2) = false) := by decide +kernel

theorem witness_parked_team :
    let t : Team := { bootTeam 60 513 with launch := 9, parked := true, resuming := true, live := 0 }
    let s : State := { held id with teams := [t] }
    let g : Group := { bootGroup 61 60 513 with run := .preemptPark }
    let u : State := { s with others := [g] }
    u.resumeCores t places = some [513] ∧ s.toResume 9 ≠ [] ∧ u.toResume 9 ≠ [] ∧ (u.resumeNext (launchAt .held 512) (u.toResume 9) places).isSome = true := by decide +kernel

/-- A queued task: card 1 in the queue of cluster 0 of die 2. -/
def queued (passed : Bool) (stamp : Nat) : State :=
  { put (held id) 0x100080 (cardBytes 0x10000 1 2 2 0) with ready := [{ die := 2, cluster := 0, ctx := 0, task := 1, stamp, core := 0, passed, slot := none }] }

theorem witness_task_start :
    let s := queued false 0
    let late := s.modDie 2 fun d => { d with cyc := 1048576 }
    (s.card? 0 1).any (fun card => fieldAt card 0x14 1 == 2 && Config.isTile 513 == cardTile card && Config.clusterOf 513 == 0
      && s.groupFits ⟨513, 0⟩ (16 * 2 ^ fieldAt card 0x15 1) (fieldAt card 0x18 2) (fieldAt card 0x1A 2)
      && s.ready.all (fun r => mayStart { s.readyItem r with fits := true } (s.itemsBut 2 0 (some r)) && (s.startTask r card ⟨513, 0⟩).isSome)) = true
    ∧ (late.ready.map fun r => decide (1048576 ≤ (late.dieAt 2).cyc - r.stamp)) = [true]
    ∧ (launchAt .held 512 ∈ late.heldLaunches 2) ∧ 1048576 ≤ (late.dieAt 2).cyc - (launchAt .held 512).since 2 (late.dieAt 2).didt
    ∧ (let full := late.modCtx 0 fun c => { c with areas := List.range 16 }
       launchAt .held 512 ∈ full.heldLaunches 2 ∧ full.launchFits (launchAt .held 512) 2 = false)
    ∧ ({ late with ready := late.ready.map fun r => { r with task := 9 } } : State).ready.map
        (fun r => (late.readyItem r).fits) = [false]
    ∧ late.launchFits (launchAt .held 512) 2 = true ∧ 2 ∉ (launchAt .held 512).passed := by decide +kernel

/-- The group waits with SEMW for 2 since cycle 0; the time is %PARKT − 1 or %PARKT. -/
def waiting (cyc : Nat) : State :=
  (lines.modDie 2 fun d => { d with cyc }).mapOcc fun o =>
    { o with saveptr := 0x40000, wait := some { kind := 2, obj := 0x3000, owner := 0, detail := 2, since := 0 } }

/-- Its parked form, after the handler's PARK. -/
noncomputable def parkedAt : State := after .parkWait (after (.parktExpiry 2) (waiting 20000))
/-- The same group parked, with nothing in its save area, its wait re-queued. -/
noncomputable def requeued : State :=
  let g := parkedAt.others.headD Group.vacant
  { waiting 0 with me := Group.vacant, others := [{ g with run := .waitPark true, occ := { (waiting 0).occ with wait := none } }] }

/-- WaitsParkAndComeBack: 19,999 and 20,000 cycles; a wait of kind 14, which does not park; a watch whose object has changed
and has not; a group that can be restored; a team that is parked whole; a hang. -/
theorem witness_parking :
    (waiting 20000).occ.parkt.toNat = 20000 ∧ (waiting 20000).cyc - 0 = 20000 ∧ (waiting 19999).cyc - 0 < 20000
    ∧ (waiting 0).me.run = .running ∧ (waiting 0).occ.trapLevel = false ∧ 14 ∉ [1, 2, 3, 4, 5, 6, 7, 8, 9, 10, 11, 12, 13, 16, 17]
    ∧ (parkedAt.group? 2).any (fun g => g.run == .waitPark false && g.occ.parked.any fun w =>
        !({ parkedAt with me := g } : State).watchFired w && ({ put parkedAt 0x3000 [2] with me := g } : State).watchFired w) = true
    ∧ sees (exec (.watchRequeue 2) (put parkedAt 0x3000 [2])) (fun t => (t.group? 2).any fun g => g.run == .waitPark true) = true
    ∧ (requeued.group? 2).any (fun g => requeued.resumable g && requeued.restorePlace g ⟨512, 0⟩ && requeued.restoreFits g ⟨512, 0⟩
        && requeued.restoreTurn g && (requeued.restoreGroup 2 ⟨512, 0⟩).isSome) = true
    ∧ (parkedAt.group? 2).any (fun g => !parkedAt.resumable g) = true := by decide +kernel

theorem witness_teams_and_hangs :
    let p := after .parkPreempt (trapped.mapOcc fun o => { o with saveptr := 0x40000 })
    let s := p.modTeam 1 fun t => { t with preempting := true }
    let h := (waiting 0x01000000).modCtx 0 fun c => { c with desc := setAt 0 c.desc 1 0x0100000000010001 }
    (s.team? 1).any (fun t => t.preempting && !t.parked && (s.teamGroups 1).all (fun g => g.run.isParked)) = true
    ∧ sees (exec (.teamParked 1) s) (fun v => (v.team? 1).any fun t => t.parked) = true
    ∧ (h.me.run ≠ .vacant ∧ h.me.recorded = false ∧ (h.hangWait h.me).isSome = true ∧ h.hangtOf h.me ≤ h.stall h.me)
    ∧ ¬ (waiting 5).hangtOf (waiting 5).me ≤ (waiting 5).stall (waiting 5).me := by decide +kernel

/-- A context 5 with a legal descriptor, beside the active context 0. -/
def described (asid : Nat) (win : DWord) : State :=
  world.modCtx 5 fun c => { c with desc := [0x1000, BitVec.ofNat 64 (0x0100000000000000 + asid), 0x20000, 0x100000, 4 + 2 ^ 32, 0x30000, 0x40000,
    1 + 16 * 2 ^ 32, 0x38000, 0x39000, win, 0, 0, 0, 0, 0, 0, 0] }

/-- ContextCommandsEndWithAResult: contexts that are free, active, busy and being destroyed; descriptors that are legal, with an
ASID in use, and with a window in use; an INVAL of a page and of a misaligned address; launches that CARG names and not. -/
theorem witness_contexts :
    let c := fun (s : State) => s.ctxAt 5
    let busy := world.modCtx 0 fun c => { c with busy := true, cmd := 4 }
    let meets := (described 9 0x0001000000000000).modCtx 0 fun c => { c with desc := setAt 0 c.desc 10 0x0001000000000000 }
    (∀ d ∈ world.dies, d.switching = false) ∧ (c world).state = 0 ∧ (world.ctxAt 0).state = 1 ∧ (busy.ctxAt 0).busy = true ∧ (world.ctxAt 0).busy = false
    ∧ (c world).fieldsOk = false ∧ (c (described 9 0)).fieldsOk = true ∧ (c (described 1 0)).fieldsOk = true
    ∧ (c (described 9 0)).asid ≠ (world.ctxAt 0).asid ∧ (c (described 1 0)).asid = (world.ctxAt 0).asid
    ∧ winsMeet (c (described 9 0)) (world.ctxAt 0) = false ∧ (c meets).fieldsOk = true ∧ winsMeet (c meets) (meets.ctxAt 0) = true
    ∧ world.mem.wf = true := by decide +kernel

theorem witness_context_operands :
    let l := (held id).modCtx 0 fun c => { c with carg := 0xFFFFFFFF00000001 }
    let m := (held id).modCtx 0 fun c => { c with carg := 0x1001 }
    world.cargTeams 0 = none ∧ (l.cargTeams 0).isSome = true ∧ (m.ctxAt 0).carg.toNat % 4096 ≠ 0 ∧ (world.ctxAt 0).carg.toNat % 4096 = 0
    ∧ ((world.modCtx 0 fun c => { c with cmd := 5 }).resetList 0).isSome = true
    ∧ sees (exec (.destroy 0) world) (fun t => t.me.run != .running || !t.occ.causes.isEmpty || (t.ctxAt 0).state != 1) = true
    ∧ (({ (world.modCtx 0 fun c => { c with desc := setAt 0 c.desc 4 (0x30000 + 16 * 2 ^ 32) }) with tlb := [] } : State).resetList 0).isSome = true
    ∧ ((world.modCtx 0 fun c => { c with state := 2 }).ctxAt 0).state = 2 ∧ (∃ g ∈ world.groups, g.ctx = 0)
    ∧ (∀ g ∈ world.groups, g.ctx ≠ 5) := by decide +kernel

/-- HostPortIsChecked: values at the bounds of each register, offsets of each one, PKGID with every link failed and not, bytes
of HBM to the last one. -/
theorem witness_host_port :
    let cut : State := { world with links := world.links.map fun l => { l with failed := true } }
    (∀ l ∈ cut.links, l.failed = true) ∧ (∃ l ∈ world.links, l.failed = false)
    ∧ (10 ≤ 400 ∧ ¬ 401 ≤ 400 ∧ 9 < 10) ∧ (0x100100 + 0x200 * 63 : BitVec 25).toNat = 0x100100 + 0x200 * 63
    ∧ (world.ctxAt 5).state = 0 ∧ world.die = 2 ∧ world.die ≠ 3 ∧ world.me.run ≠ .vacant
    ∧ ((96 * 2 ^ 30 - 1) % 2 ^ 37 < 96 * 2 ^ 30 ∧ ¬ (96 * 2 ^ 30) % 2 ^ 37 < 96 * 2 ^ 30)
    ∧ (2 ^ 39 - 2 ^ 37 + 96 * 2 ^ 30 - 1 < 2 ^ 39) ∧ (0x1008 + 0x1000 * 3 : BitVec 25).toNat % 8 = 0 ∧ (0x1004 : BitVec 25).toNat % 8 ≠ 0 := by
  decide +kernel

/-- ServiceCommandsAndTelemetry: a controller that is busy and one that is not; image sizes at their bounds; units of each
class; a switch under way; samples above the limit of power, below 95% of it and between. -/
theorem witness_service :
    let arg := fun (a : DWord) => ({ world with service := { world.service with svcarg := a } } : State)
    let sw : State := ({ world with service := { world.service with busy := true, toSwitch := [0, 1, 2, 3], staged := some 2, before := [0, 0, 0, 0] } } : State).modDie 0
      fun d => { d with switching := true }
    (({ world.service with busy := true } : Service).busy = true) ∧ world.service.busy = false
    ∧ ((arg 0x1000000).service.svcarg.toNat ≤ 2 ^ 24 ∧ 2 ^ 24 < (arg 0x1000001).service.svcarg.toNat ∧ world.service.svcarg.toNat = 0)
    ∧ ((arg 0x3000A).service.svcarg.toNat % 16 = 10 ∧ 10 < (arg 11).service.svcarg.toNat % 16 ∧ (arg 64).service.svcarg.toNat / 64 % 2 ^ 10 ≠ 0)
    ∧ ((arg 0x30008).service.svcarg.toNat / 2 ^ 16 % 2 ^ 16 < 4 ∧ (arg 0xB0009).service.svcarg.toNat / 2 ^ 16 % 2 ^ 16 < 12)
    ∧ ((sw.dieAt 0).switching = true ∧ sw.service.toSwitch.head? = some 0 ∧ (sw.switchEnds 0 true).service.toSwitch = [1, 2, 3]
      ∧ (sw.switchEnds 0 false).service.toSwitch = [])
    ∧ (world.dieAt 0).switching = false ∧ world.dies.length = 4
    ∧ (2600001 > world.powcap * 1000 ∧ 2469999 * 100 < world.powcap * 1000 * 95 ∧ ¬ 2470000 * 100 < world.powcap * 1000 * 95) := by decide +kernel

/-- ErrorsRetirementLinksAndPackages: reports of a lasting error that is repaired and not; a unit that is scheduled, occupied and
empty; bridges and links that retrain, with one attempt left and none; an exported window and an access beyond it. -/
theorem witness_errors :
    let e : ErrorReport := { cls := 7, die := 2, unit := 0, lasting := true, repaired := false, cells := [0x3000], owner := some 2, addr := 0x3000 }
    let sched := world.modDie 2 fun d => { d with retiring := [(0, 0), (0, 100)] }
    let down := fun (n : Nat) => ({ world with bridges := [{ Channel.up 8 with retraining := true, attempts := n }] } : State)
    let exp : State := { world with exports := [(0x40000000, 1, 1 <<< 3)] }
    e.owner = some world.me.gid ∧ world.me.run ≠ .vacant ∧ (world.dieAt 2).switching = false ∧ (world.logEvent 0 (world.errorEvent e)).me = world.me
    ∧ (let x : XCmd := { uid := 9, op := 2, args := [], fmts := [], table := [], granted := true, started := true, next := 0, sem := none, ranges := [], addr := 0x10004 }
       let r := world.mapOcc fun o => { o with xcmds := [x] }
       r.occ.runningX = some x ∧ r.occ.trapLevel = false ∧ world.occ.runningX = none
       ∧ sees (exec (.errorDetected { e with cls := 5 }) r) (fun t => t.occ.causes.any fun c => c.cmd == 9) = true)
    ∧ ((0, 0) ∈ (sched.dieAt 2).retiring ∧ (∃ g ∈ sched.groups, onUnit 0 2 0 g = true) ∧ (∀ g ∈ sched.groups, onUnit 0 2 100 g = false)
      ∧ sched.teamsOnUnit 0 2 100 = [] ∧ (0, 100) ∈ (sched.dieAt 2).retiring)
    ∧ ((down 1).bridges.getD 0 (Channel.up 8)).attempts < 2 ∧ 2 ≤ ((down 2).bridges.getD 0 (Channel.up 8)).attempts
    ∧ ((down 1).bridges.getD 0 (Channel.up 8)).retraining = true ∧ (world.bridges.getD 0 (Channel.up 8)).retraining = false
    ∧ (3 ≠ world.pkgid ∧ 3 ∉ world.unreachable) ∧ (∃ w ∈ exp.exports, w.1.toNat ≤ 0x40000000 ∧ 0x7FFFFFF0 + 16 ≤ w.1.toNat + w.2.1.toNat * 2 ^ 30
        ∧ ¬ 0x7FFFFFF1 + 16 ≤ w.1.toNat + w.2.1.toNat * 2 ^ 30 ∧ w.2.2.getLsbD 3 = true)
    ∧ ((world.modDie 2 fun d => { d with routesAwaited := true }).dieAt 2).routesAwaited = true
    ∧ ({ world with ctxs := [] } : State).activeCtxs = [] ∧ (world.dieAt 2).spares < 12
    ∧ 12 ≤ ((world.modDie 2 fun d => { d with spares := 12 }).dieAt 2).spares := by decide +kernel

/-- SpdmRequestsAreAnswered: indexes of each range. -/
theorem witness_spdm : (1 ≤ 1 ∧ 4 ≤ 4) ∧ (∀ i ∈ [0, 1, 4, 5, 6, 7, 8],
    sees (exec (.getMeasurements i) State.reset) (fun t => t.spdm.map (·.1) == [0x60])) = true := by decide +kernel

/-! ### Helping, and the whole machine -/

/-- AHelperAdoptsTheTaskItAwaits: a future of card 1, which is ready and helpable; one that is not; one that is an occupant. -/
def awaited (flags : Nat) (task : Nat) : State :=
  let s := put (put (withS world [0x3000]) 0x3000 (toBytes 16 (2 ^ 64))) 0x100080 (cardBytes 0x10000 1 2 flags 0)
  { s with tasks := [TaskInfo.fresh 0 1], ready := [{ die := 2, cluster := 0, ctx := 0, task := 1, stamp := 0, core := 0, passed := false, slot := none }] }.mapOcc
    fun o => { o with task }

theorem witness_helpers :
    let s := awaited 3 0
    (ok? (s.objectKey .k (s.getS 1)) fun k => s.drain.mem.getN (k + 14) 1 == 0 && s.drain.mem.getN (k + 8) 4 == 1) = true
    ∧ s.occ.wait = none ∧ 1 < s.ctx.ncard ∧ (∀ o ∈ s.me.occs, o.task ≠ 1) ∧ s.drain.adoptable 1 = true ∧ (awaited 2 0).drain.adoptable 1 = false
    ∧ (∃ o ∈ (awaited 3 1).me.occs, o.task = 1)
    ∧ (s.drain.card? 0 1).any (fun card => fieldAt card 0x14 1 == 2 && ((s.drain.dequeue 0 1).setCard 0 1 0x14 1 3).isSome) = true
    ∧ sees (exec (.await yes 2 1 3) s) (fun t => t.me.under.length == 1 && t.occ.task == 1 && t.leaveSlot.me.under.isEmpty) = true := by decide +kernel

/-- AStepRunsTheDecodedInstruction: a line whose lane 1 holds SADD and lane 2 a word that is illegal, and a line of another
version. -/
theorem witness_step :
    let s := fun (w : Nat) => put world 0x10000 (toBytes 16 w)
    let line := 0x110 + 0x0C0304F0 * 2 ^ 32 + 0xFC000000 * 2 ^ 64
    let ok := s line
    (ok.agenda = [] ∧ ok.mine = true ∧ ok.occ.ending = false ∧ ok.occ.causes = [] ∧ ok.queued = none ∧ laneOf ok.position = 1
      ∧ ok.occ.stepping = false ∧ ok.pcOf .k = ok.position)
    ∧ (ok? (ok.fetch 0x10000) fun ws => (lineDefect ok.tile ws).isNone && Eng.ofTag (laneTag (ws.headD 0) 1) == some .k
        && (match decodeWords .k (ws.getD 1 0) none with | .ok i => i.form.isSome | .error _ => false)
        && (match decodeWords .k (ws.getD 2 0) none with | .ok _ => false | .error d => d.sub == 1)) = true := by decide +kernel

/-- DecodeInvertsEncode: well-formed instructions of every engine that have an encoding. -/
theorem witness_encodings : ([Instr.sadd yes 3 1 2, .vadd64 (al 1 2 3) ⟨0, 0, 0, 0, false, 0⟩, .ld64 (al 4 0 0) ⟨0, 3, 0, 0, 8⟩, .mma yes 1 2, .dfree yes,
    .ray (al 8 3 0)].all fun i => i.wf && (encode i).isSome) = true := by decide +kernel

/-- EveryStepKeepsMemoryCanonical: a memory with bytes in it, and a step that is taken from it. -/
theorem witness_memory : world.mem.wf = true ∧ world.mem ≠ [] ∧ sees (step world) (fun t => t.mem.wf) = true := by decide +kernel

/-! ### What the queue, rounding and the stops rest on -/

/-- FloatSpecialOperandsAndRounding: a value between two neighbours of E2M1, on each side of their middle; one that a code holds; one
beyond the largest, and one beyond that by more than a step; a halfway value between two integers. -/
theorem witness_rounding :
    let v := codeValue e2m1
    hasMagnitude 5 (-2) false (5 / 4) ∧ v 2 < 5 / 4 ∧ (5 / 4 : Rat) < v 3 ∧ hasMagnitude 3 (-1) false (3 / 2) ∧ v 3 = 3 / 2
    ∧ takesGreater 0 false true (5 / 4) (v 2) (v 3) ∧ ¬ takesGreater 0 false false (5 / 4) (v 2) (v 3)
    ∧ e2m1.maxCode = 7 ∧ v 7 < 7 ∧ (7 : Rat) < v 7 + (v 7 - v 6) ∧ v 7 + (v 7 - v 6) ≤ 9
    ∧ hasMagnitude 7 0 false 7 ∧ hasMagnitude 9 0 false 9 ∧ hasMagnitude (2 ^ 100) (-100) true (1 + 1 / 2 ^ 101) := by
  have hm (m : Nat) (e : Int) (y : Rat) (h : y = finiteValue false m e) : hasMagnitude m e false y := ⟨fun _ => h, fun h => (by cases h)⟩
  refine ⟨hm _ _ _ (by decide +kernel), by decide +kernel, by decide +kernel, hm _ _ _ (by decide +kernel), by decide +kernel,
    .inr ⟨by decide +kernel, rfl⟩, ?_, by decide +kernel, by decide +kernel, by decide +kernel, by decide +kernel,
    hm _ _ _ (by decide +kernel), hm _ _ _ (by decide +kernel),
    ⟨fun h => (by cases h), fun _ => ⟨by decide +kernel, by decide +kernel, by decide +kernel⟩⟩⟩
  rintro (h | ⟨-, h⟩)
  · exact absurd h (by decide +kernel)
  · cases h

/-- BranchesLandOnLaneOne to LoopsBindAndBreak: engines that stand together; BR with 32 entries in the queue and with fewer, which an
engine that has fallen behind keeps there. -/
def behind (n : Nat) : State := lines.mapOcc fun o => { o with
  pcs := o.pcs.set .v 0x10008
  flow := { o.flow with boq := List.replicate n { addr := 0x10004, taken := true, transfer := true, target := 0x10020, mask := 0xFFFF }
                        pops := (Pcs.all (BitVec.ofNat 64 n)).set .v 0 } }

theorem witness_together : lines.Together :=
  ⟨rfl, rfl, fun e _ => ⟨0, by cases e <;> decide +kernel, by decide +kernel⟩⟩

theorem witness_branch_queue :
    ((behind 32).occ.flow.settle (behind 32).tile).boq.length = 32 ∧ ((behind 1).occ.flow.settle (behind 1).tile).boq.length = 1
    ∧ carriesB (behind 1) 0x10020 = true ∧ (behind 1).pcOf .k = 0x10004
    ∧ ((behind 1).occ.flow.settle (behind 1).tile).pops.get .v ≠ ((behind 1).occ.flow.settle (behind 1).tile).pops.k
    ∧ sees (exec (.br yes 1) (behind 1)) (fun t => t.pcOf .k == 0x10024 && t.pcOf .v == 0x10008 && t.occ.flow.boq.length == 2) = true
    ∧ sees (exec (.br yes 1) (behind 32)) (fun t => t.occ.wait.any (·.kind == 0)) = true := by decide +kernel

/-- The queue that frees an entry, and one that does not. -/
theorem witness_settle :
    let f := { (behind 2).occ.flow with pops := (Pcs.all 2).set .v 1 }
    (allEngines.all fun e => !Eng.present true e || decide (1 ≤ (f.pops.get e).toNat)) = true ∧ (f.pops.get .v).toNat = 1
    ∧ f.boq[0]?.isSome = true ∧ (((behind 2).occ.flow).pops.get .v).toNat = 0 ∧ Eng.present true .v = true := by decide +kernel

/-- TrapEntryAndNestedFaults: K's lane in the line, no lane of K left, and each way in which the line is then completed. -/
theorem witness_stops :
    let stands := fun (s : State) (p : DWord) => s.pcOf .k == p && s.occ.flow.pops.get .k == s.occ.flow.pops.get (s.occ.leader s.tile)
    let tags := fun (s : State) => ok? (s.fetched 0x10000) fun ws => (List.range 8).all fun i => i = 0 ∨ Eng.ofTag (laneTag (ws.headD 0) i) ≠ some .k
    let at' := fun (p : DWord) (f : Flow → Flow) => (flow f).mapOcc fun o => { o with pcs := Pcs.all p }
    stands bench 0x10004 = true ∧ tags bench = true ∧ (0x10004 : DWord).toNat % 4 = 0
    ∧ (ok? (bench.fetched 0x10000) fun ws => ws.length == 8) = true
    ∧ stands (at' 0x10020 id) 0x10020 = true ∧ laneOf 0x10020 = 0
    ∧ errs ((at' 0x10020 fun f => { f with lc := [2], loops := [loopE 0 1 5] }).occ.flow.complete 0x10000) 0 = true
    ∧ ((at' 0x10020 fun f => { f with lc := [2], loops := [loopE 0 1 0] }).occ.flow.complete 0x10000).toOption.map (·.2) = some (some 0x10000) := by
  decide +kernel

/-- TrapInstructionsAndEncodingFaults: an entry of the queue that the engines have not followed yet stands before a waiting cause. -/
theorem witness_queued :
    let s := (behind 1).mapOcc fun o => { o with causes := [{ code := 0x18, eng := .v, info := 0, addr := 0 }] }
    let t := s.mapOcc fun o => { o with pcs := o.pcs.set .v 0x10004 }
    s.me.run = .running ∧ s.occ.trapLevel = false ∧ (t.queued.map (·.target)) = some 0x10020 ∧ lines.queued = none := by decide +kernel

/-! ### Returns, barriers, marks, claims, extents and walks -/

/-- ReturnFromTrapRestoresTheCapture: the V engine's address on a continuation word, behind K's, which can be resumed; an end action
that is still to be applied; a line broken off whose registers read as before. -/
theorem witness_return_elsewhere :
    let s := put (trapped.mapOcc fun o => { o with epc := o.epc.set .v 0x1004C }) 0x10040 [0, 0xF9, 0, 0]
    ((allEngines.filter (Eng.present s.tile)).take 2 == [.k, .v] && ok? (s.fetch 0x10040) (fun ws => laneTag (ws.headD 0) 3 == 15)
      && ok? (s.checkEpc .k) fun _ => true) = true
    ∧ (s.occ.epc.get .v).toNat % 4 = 0 ∧ laneOf (s.occ.epc.get .v) ≠ 0
    ∧ (let c := trapped.occ.capture.map fun c => { c with atEnd := some trapped.occ.epc.k, oldLine := lineOf64 trapped.occ.epc.k, old := [(0x030, 7)] }
       c.any (fun c => c.atEnd == some trapped.occ.epc.k && c.oldLine == lineOf64 trapped.occ.epc.k) = true)
    ∧ (trapped.mapOcc fun o => { o with tcause := 1024 }).occ.tcause.getLsbD 10 = true := by decide +kernel

/-- BarriersCompleteTheirPhase: the arrival of the last group, for a count and for count 0, and one before it. -/
theorem witness_barrier_conditions :
    let arrived : Nat := 0 ||| 1 <<< world.occ.group
    let count := ((List.range 32).filter fun j => arrived.testBit j).length
    1 ≤ count ∧ ¬ 2 ≤ count ∧ (∀ h ∈ world.groups, h.bottom.team = (teamOf world).uid → h.bottom.task = 0 → arrived.testBit h.bottom.group = true) := by
  decide +kernel

/-- GovernorMarksAndPlans: the example of R294, with room before the deadline and without, a step that is not the plan's, and the end
of the frame; plan 1 is plan 0 without its droppable step 2. -/
theorem witness_marks :
    let plan := fun (pos flags : Nat) => 0xF6A1 + 2 * 2 ^ 16 + pos * 2 ^ 32 + flags * 2 ^ 40
      + (400 + 450 * 2 ^ 32) * 2 ^ 512 + (500 + 500 * 2 ^ 32) * 2 ^ 576 + (600 + 600 * 2 ^ 32) * 2 ^ 640
      + 3 * 2 ^ (8 * 576) + 0 * 2 ^ (8 * 580) + (1 + 2 ^ 24) * 2 ^ (8 * 584) + 2 * 2 ^ (8 * 588)
      + 2 * 2 ^ (8 * 704) + 0 * 2 ^ (8 * 708) + 2 * 2 ^ (8 * 712)
    Plan.mark (plan 0 4) 0 450 12000 200 = { cur := 0, pos := 1, flags := 4, ewma := some (0, 450), changed := false }
    ∧ Plan.mark (plan 0 4) 0 450 1600 200 = { cur := 1, pos := 1, flags := 4, ewma := some (0, 450), changed := true }
    ∧ Plan.mark (plan 1 4) 1 450 1000 200 = { cur := 0, pos := 2, flags := 5, ewma := some (1, 488), changed := false }
    ∧ (Plan.mark (plan 0 4) 1 450 12000 200).flags = 6 ∧ (Plan.mark (plan 2 4) 2 450 12000 200).flags = 0 := by decide +kernel

/-- RegisterCreditMovesWithinTheTeam: a claim at the head with too little credit: where the team has no other group, which is stuck, and
where another one runs. -/
theorem witness_claims :
    let two := { world with others := [{ world.me with gid := 77 }] }
    ((teamOf world).claims ++ [world.occ.group]).head? = some world.occ.group ∧ (teamOf world).credit < 4 * world.occ.width
    ∧ (∀ h ∈ world.groups, h.bottom.team = (teamOf world).uid → h.bottom.task = 0 → h.gid = world.me.gid)
    ∧ world.me.run = .running ∧ world.occ.trapLevel = false
    ∧ (∃ h ∈ two.groups, h.bottom.team = (teamOf two).uid ∧ h.bottom.task = 0 ∧ h.gid ≠ two.me.gid ∧ h.waiting = none)
    ∧ sees (exec (.vclaim yes 4) world) (fun t => t.occ.tcause.toNat % 64 == 0x0E) = true
    ∧ sees (exec (.vclaim yes 4) two) (fun t => t.occ.wait.any (·.kind == 7)) = true := by decide +kernel

/-- LoadsReadTheirBytes: in each space the last bytes inside the extent and the first outside; an occupant without a team. -/
theorem witness_extents :
    let s := (world.mapOcc fun o => { o with lanePriv := 64 })
    let pair := { s with teams := s.teams.map fun t => { t with cores := [512, 513] } }
    let l : Launch := { launchAt .held 512 with bound := some (2, 0, 256), record := { (launchAt .held 512).record with clusScr := 64 } }
    let clus := { s with launches := [l], teams := s.teams.map fun t => { t with launch := 9 } }
    let at' := fun (s : State) (space core a n k : Nat) => ok? (s.keyOf space core 3 (BitVec.ofNat 64 a) n .read {}) (· == k)
    let no := fun (s : State) (space core a n c : Nat) => trap? (s.keyOf space core 3 (BitVec.ofNat 64 a) n .read {}) c
    (at' s 1 0 16380 4 (unitKey 512 16380) && no s 1 0 16384 4 7 && no s 1 0 2 4 4
      && at' pair 1 0 16384 4 (unitKey 513 0) && no pair 1 0 32768 4 7
      && at' clus 2 0 60 4 (clusKey 2 0 316) && no clus 2 0 64 4 7 && no s 2 0 0 4 7
      && at' s 3 0 4092 4 (dieKey 2 8188) && no s 3 0 4096 4 7 && at' s 4 0 60 4 (laneKey s.occ.lanePrivBase 3 60) && no s 4 0 64 4 7
      && at' s 5 0 16380 4 (unitKey 512 16380) && no s 5 0 16384 4 6 && no s 5 500 0 4 6 && no s 5 0 (2 ^ 20) 4 7
      && no (s.mapOcc fun o => { o with task := 1 }) 1 0 0 4 7) = true := by decide +kernel

/-- The walk meets a page entry, an entry that is not valid and one that is bad; an address that is not canonical; a missing right; an
address without memory; a retired page; a lost package. -/
theorem witness_walks :
    let e := fun (x : Nat) => put world 0x1000 (toBytes 8 x)
    let leaf := fun (s : State) => match s.leaf 0 0x3000 with | .ok r => r.1 + 1000 * r.2 | .error w => w.code
    let code := fun (s : State) (va : DWord) => match s.translate 0 va .read with | .ok _ => 0 | .error w => w.code
    let kept := fun (x : DWord) => { world with tlb := [{ ctx := 0, shift := 30, page := 0, entry := x }] }
    leaf world = 29 + 30000 ∧ leaf (e 0) = 5 ∧ leaf (e 0x101) = 5 ∧ (world.tlb = [] ∧ leaf (kept 0x1D) = 29 + 30000)
    ∧ code world 0x3000 = 0 ∧ code world (2 ^ 48) = 5 ∧ code world (2 ^ 40) = 5 ∧ code (kept 0x19) 0x3000 = 6
    ∧ code (kept (0x1D + 96 * 2 ^ 30)) 0x3000 = 6
    ∧ code (world.modDie 0 fun d => { d with retired := [(3, 1)] }) 0x3000 = 0x1C
    ∧ (let s := { world with unreachable := [5] }; s.packageLost 5 = true) := by decide +kernel

/-! ### Tasks and worklists -/

/-- A card 1 of the arena, in a state and with so many dependencies. -/
def carded (state deps : Nat) : State := kept (put world 0x100080 (cardBytes 0x10000 1 state 2 deps))

/-- TasksSpawnYieldAndExit: a future that is unset, set, in a reserved state, lost, and misaligned; a list of two that can be read, an
empty one, and one that cannot. -/
theorem witness_owned_futures :
    let at' := fun (state : Nat) => put world 0x300E [BitVec.ofNat 8 state]
    let gone := { at' 0 with poison := [0x3008] }
    let list := put (at' 0) 0x3200 (toBytes 8 0x3000)
    let card := fun (n at' : Nat) => at' * 2 ^ (8 * 0x30) + n * 2 ^ (8 * 0x38)
    (at' 0).objectKey? 0x3000 = some 0x3000 ∧ (at' 0).lost 0x3000 16 = none ∧ (at' 0).mem.wf = true
    ∧ ((List.range 4).map fun n => (at' n).mem.getN 0x300E 1) = [0, 1, 2, 3] ∧ gone.lost 0x3000 16 ≠ none
    ∧ world.objectKey? 0x3004 = none
    ∧ list.devRead 0 0x3200 8 = some 0x3000 ∧ (list.faultFuture 0x3000 1 0).isSome = true
    ∧ world.devRead 0 (2 ^ 40) 8 = none ∧ (put list 0x3208 (toBytes 8 0x3004)).devRead 0 0x3208 8 = some 0x3004 ∧ list.faultFuture 0x3004 1 0 = none
    ∧ fieldAt (card 2 0x3200) 0x38 4 = 2 ∧ fieldAt (card 2 0x3200) 0x30 8 = 0x3200 ∧ fieldAt (card 1 (2 ^ 40)) 0x30 8 = 2 ^ 40 := by
  decide +kernel

theorem witness_dependencies :
    (∀ state < 8, ∀ deps < 3, (carded state deps).Reaches 0 ((carded state deps).cardAddr 0 1) 128 0x100080)
    ∧ (∀ state < 8, ∀ deps < 3, (carded state deps).lost 0x100080 128 = none ∧ (carded state deps).mem.wf = true
        ∧ fieldAt ((carded state deps).mem.getN 0x100080 128) 0x1C 4 = deps ∧ fieldAt ((carded state deps).mem.getN 0x100080 128) 0x14 1 = state)
    ∧ (carded 1 1).ctx.ncard ≤ 4 ∧ 1 < (carded 1 1).ctx.ncard
    ∧ ((carded 1 1).decrement 1).any (fun d => !d.2) = true ∧ ((carded 1 0).decrement 1).any (fun d => d.2) = true
    ∧ fieldAt (2 ^ (8 * 0x20)) 0x20 4 = 1 ∧ fieldAt (2 ^ (8 * 0x20)) 0x24 4 = 0 := by
  refine ⟨fun state hs deps hd => reaches_of_kept (e := { ctx := 0, shift := 30, page := 0, entry := 0x1D }) ?_, ?_, ?_⟩
  · revert deps hd state hs
    decide +kernel
  · decide +kernel
  · decide +kernel

/-- What an occupant holds at its end: the DDA or not, and an order token whose word can be written. -/
theorem witness_releases :
    let o := ({ world with cores := world.cores.map fun c => { c with dda := { c.dda with owner := some (2, 0) } } } : State)
    (o.modCore 512 fun c => { c with dda := { c.dda with owner := some (2, 0) } }).ownsDda = true ∧ world.ownsDda = false
    ∧ (let t := world.mapOcc fun o => { o with token := some (packObject 0 0 0x3000, 4) }
       t.occ.token = some (packObject 0 0 0x3000, 4)
       ∧ (ok? (t.keyOf (packedSpace (packObject 0 0 0x3000)) 0 0 (packedOff (packObject 0 0 0x3000)) 4 .write {}) (· == 0x3000)) = true) := by
  decide +kernel

/-- WorklistsAppendAndTake: the fields of a set in GLOBAL and of one in a scratchpad, inside and outside; lists that hold their threshold,
hold less, drain, or hold a record with no right left; a template that passes the checks and one that cannot be read. -/
theorem witness_list_fields :
    let s := listed 0xC0A1 2 1 3
    let r := setOf s
    let low : SetRef := { r with space := 3, base := 0x100, size := 64 }
    let d := fun (s : State) => [s.wGet r (64 + 44) 1, s.held r 0, s.wGet r (64 + 12) 4, s.wGet r (64 + 16) 4, s.wGet r (64 + 48) 8, s.wGet r 4 2, s.wGet r 3 1]
    r.space = 0 ∧ (s.setKey r (r.off + 44) 4).isSome = true ∧ s.setKey low 60 4 = some 0x13C ∧ s.setKey low 61 4 = none
    ∧ ({ s with poison := [0x4003] } : State).wGet r 3 1 = none
    ∧ d s = [some 0, some 3, some 2, some 0, some 0, some 1, some 2] ∧ d (listed 0xC0A1 2 1 1) = [some 0, some 1, some 2, some 0, some 0, some 1, some 2]
    ∧ d (listed 0xC0A1 2 0 1) = [some 0, some 1, some 2, some 0, some 0, some 0, some 2]
    ∧ (d (put s 0x406C [1])).head? = some (some 1)
    ∧ s.wGet r (64 + 24) 8 = some 0x3000
    ∧ (s.devRead r.ctx 0x3000 64).any (fun x => ok? (s.checkRecord r.ctx (fun l => [servingDie r.home l]) x) fun l => l.2.isSome) = true
    ∧ (put s 0x4058 (toBytes 8 (2 ^ 40))).wGet r (64 + 24) 8 = some (2 ^ 40) ∧ s.devRead r.ctx (2 ^ 40) 64 = none
    ∧ s.wGet r 6 2 = some 0 ∧ (s.wPut r (64 + 44) 1 (0 ||| 1)).any (fun t => (t.wPut r 6 2 (0 + 1)).isSome) = true := by decide +kernel

/-- Appends to an empty list and to one with records; records taken; a first right on an armed set, on one that is whole and on one
that is not, and a second one; a set that is quiet and one that is not. -/
theorem witness_records_and_rights :
    let s := listed 0xC0A1 2 1 3
    let r := setOf s
    let held := s.mapOcc fun o => { o with rights := [r] }
    let fresh := fun (tail : Nat) => listed 0xC0A1 0 0 tail
    let quiet := listed 0xC0A1 2 0 0
    s.wGet r 64 8 = some 0x5000 ∧ s.wGet r (64 + 8) 4 = some 4 ∧ s.wGet r (64 + 40) 4 = some 3 ∧ s.wGet r (64 + 36) 4 = some 0
    ∧ s.setKey r (BitVec.ofNat 64 (0x5000 + 16 * (3 % 4))) 16 = some 0x5030
    ∧ (((s.poke 0x5030 (toBytes 16 5)).countWrite 0x5030 16).wPut r (64 + 40) 4 4).isSome = true
    ∧ (quiet.held r 0 = some 0 ∧ (quiet.wPut r (64 + 48) 8 (quiet.dieAt r.home).cyc).isSome = true)
    ∧ ((s.countRead 0x5000 16).wPut r (64 + 36) 4 1).isSome = true
    ∧ (∃ q ∈ held.occ.rights, q.obj = r.obj) ∧ (∀ q ∈ s.occ.rights, q.obj ≠ r.obj)
    ∧ (ok? ((fresh 0).readWhole r) fun _ => true) = true ∧ (fresh 0).setOk r = true ∧ (put (fresh 0) 0x4048 [0]).setOk r = false
    ∧ (ok? ((put (fresh 0) 0x4048 [0]).readWhole r) fun _ => true) = true
    ∧ ((fresh 0).wPut r 3 1 2).any (fun t => (t.wPut r 4 2 1).isSome) = true
    ∧ (s.wPut r 4 2 0).any (fun t => (t.testLists r 2).isSome) = true
    ∧ quiet.wGet r 3 1 = some 2 ∧ quiet.wGet r 4 2 = some 0 ∧ quiet.wGet r 6 2 = some 0 ∧ (∀ k < 2, quiet.held r k = some 0)
    ∧ quiet.wGet r 8 8 = some 0x3100 ∧ (quiet.wPut r 3 1 3).any (fun t => t.devKey r.ctx 0x3100 .both == some 0x3100) = true
    ∧ (listed 0xC0A1 2 0 1).held r 0 = some 1 ∧ (put quiet 0x4060 [4]).wGet r (64 + 32) 4 = some 4 ∧ world.ctx.ncard = 4 := by decide +kernel

/-! ### Rows, scenes, images and units -/

/-- MatrixStepsAndLeave: an AST of two rows and an AEPI of sixteen into UNIT memory, each word of which can be stored, apart from the
accumulator; entries with FP32 and with FP64 results. -/
theorem witness_rows_are_stored :
    let cmd : Nat → List DWord → XCmd := fun op args =>
      { uid := 9, op, args, fmts := fmts16 matrix, table := [], granted := true, started := true, next := 0, sem := none, ranges := [], addr := 0x10004 }
    let s := matrix.mapOcc fun o => { o with xcmds := [cmd 8 [0x2000000000008000, 0x6002000]] }
    let e := matrix.mapOcc fun o => { o with xcmds := [cmd 6 [0x2000000000008000, 0x00022000, 0, 0, 0]] }
    let at' := fun (off : Nat) => ok? (s.keyOf 1 0 0 (BitVec.ofNat 64 off) 4 .write {}) (· == unitKey 512 off)
    s.me.run = .running ∧ s.mem.wf = true ∧ (s.occ.xcmds.map fun c => (c.op, c.halted)) = [(8, false)]
    ∧ (0x6002000 / 2 ^ 24 % 16 = 6 ∧ 0x6002000 / 2 ^ 12 % 2 ^ 12 = 2 ∧ rowSize 6 = 256 ∧ packedSpace 0x2000000000008000 = 1
      ∧ packedOff 0x2000000000008000 = 0x8000)
    ∧ ((List.range 64).all fun i => ok? (s.rowLost i) fun _ => true) = true
    ∧ ((List.range 128).all fun j => at' (0x8000 + 4 * j)) = true
    ∧ unitKey 512 0x8000 + 512 ≤ 2 ^ 100
    ∧ (e.occ.xcmds.map fun c => (c.op, c.halted, c.next)) = [(6, false, 0)] ∧ (0x00022000 / 2 ^ 12 % 4 = 2 ∧ 0x00022000 / 2 ^ 16 % 16 = 2)
    ∧ entryAF 0x666 = 6 ∧ entryOF 0x666 = 6 ∧ rowSize (entryOF 0x666) = 256 ∧ entryAF 0x777 = 7 := by decide +kernel

/-- Every aligned word of the 64 KiB of UNIT memory has its key. -/
theorem unit_word_of_matrix (x : DWord) (h : x.toNat + 4 ≤ 65536) (h4 : x.toNat % 4 = 0) :
    matrix.keyOf 1 0 0 x 4 .write {} = .ok (unitKey 512 x.toNat) := by
  have ha : matrix.unitAlloc = ([512], 0, 65536) := by decide +kernel
  simp [State.keyOf, require, State.unitPlace, ha, h, h4, bind, Except.bind]

theorem witness_epilogue_rows :
    (∀ i < 16, unitKey 512 (0x8000 + 256 * i) + 256 ≤ 2 ^ 100 ∧ ∀ j, 4 * j < 256 →
      matrix.keyOf 1 0 0 (BitVec.ofInt 64 ((0x8000 : Int) + (i : Nat) * 256 + 4 * (j : Nat))) 4 .write {} = .ok (unitKey 512 (0x8000 + 256 * i) + 4 * j))
    ∧ matrix.keyOf 1 0 0 (BitVec.ofInt 64 ((0x8000 : Int) + 16 * 256)) 4 .write {} = .ok (unitKey 512 0x9000)
    ∧ (∀ i < 16, unitKey 512 (0x8000 + 256 * i) + 256 ≤ unitKey 512 0x9000 ∧ ∀ j < i,
        unitKey 512 (0x8000 + 256 * j) + 256 ≤ unitKey 512 (0x8000 + 256 * i)) := by
  have hu (off : Nat) : unitKey 512 off = unitKey 512 0 + off := by unfold unitKey; omega
  have h0 : unitKey 512 0 + 65536 ≤ 2 ^ 100 := by decide +kernel
  refine ⟨fun i hi => ⟨?_, fun j hj => ?_⟩, unit_word_of_matrix _ (by decide) (by decide), fun i hi => ⟨?_, fun j hj => ?_⟩⟩
  · rw [hu]; omega
  · have hx : (BitVec.ofInt 64 ((0x8000 : Int) + (i : Nat) * 256 + 4 * (j : Nat))).toNat = 0x8000 + 256 * i + 4 * j := by
      rw [BitVec.toNat_ofInt]; omega
    rw [unit_word_of_matrix _ (by omega) (by omega), hx, hu, hu (_ + _)]
    congr 1; omega
  · rw [hu, hu 0x9000]; omega
  · rw [hu, hu (_ + 256 * i)]; omega

theorem mapM_answers {α β : Type} {f : α → Act β} : ∀ (l : List α), (∀ j ∈ l, ∃ v, f j = .ok v) → ∃ vs, l.mapM f = .ok vs
  | [], _ => ⟨[], rfl⟩
  | j :: l, h => by
    obtain ⟨v, hv⟩ := h j (by simp)
    obtain ⟨vs, hs⟩ := mapM_answers l fun i hi => h i (by simp [hi])
    exact ⟨v :: vs, by simp [List.mapM_cons, hv, hs, bind, Except.bind, pure, Except.pure]⟩

theorem double_of_matrix (x : DWord) (i : MemInfo) (h : x.toNat + 8 ≤ 65536) (h8 : x.toNat % 8 = 0) :
    matrix.cmdKey 1 0 x 8 .read i = .ok (unitKey 512 x.toNat) := by
  have ha : matrix.unitAlloc = ([512], 0, 65536) := by decide +kernel
  have hl : ∀ k m, matrix.lost k m = none := fun _ _ => rfl
  simp [State.cmdKey, State.keyOf, require, State.unitPlace, ha, h, h8, bind, Except.bind, hl]

theorem row_of_matrix (a n : Nat) (h : a + n ≤ 65536) (h8 : a % 8 = 0) (hn : n % 8 = 0) : ∃ v, matrix.readRow 1 a n = .ok v := by
  obtain ⟨vs, hv⟩ := mapM_answers (f := fun j => do
      let x := BitVec.ofNat 64 (a + 8 * j)
      let k ← matrix.cmdKey 1 0 x 8 .read { async := true }
      .ok (matrix.mem.getN k 8)) (List.range (n / 8)) fun j hj => by
    have hj : j < n / 8 := List.mem_range.mp hj
    have hx : (BitVec.ofNat 64 (a + 8 * j)).toNat = a + 8 * j := by
      rw [BitVec.toNat_ofNat]; omega
    refine ⟨matrix.mem.getN (unitKey 512 (BitVec.ofNat 64 (a + 8 * j)).toNat) 8, ?_⟩
    have hk := double_of_matrix (BitVec.ofNat 64 (a + 8 * j)) { async := true } (by omega) (by omega)
    simp only [hk, bind, Except.bind]
  exact ⟨_, by unfold State.readRow; rw [hv]; rfl⟩

/-- A step whose results are FP64: rows of A and of B in UNIT memory. -/
theorem witness_fp64_step :
    (∀ i < 16, ∃ v, matrix.readRow 1 (0x4000 + i * 512) 512 = .ok v)
    ∧ (∀ i < 64, ∃ v, matrix.readRow 1 (i * rowSize (entryBF 0x777)) (rowSize (entryBF 0x777)) = .ok v)
    ∧ (∀ r, matrix.rowLost r = .ok ()) ∧ matrix.mem.wf = true := by
  have hs : rowSize (entryBF 0x777) = 512 := by decide
  rw [hs]
  exact ⟨fun i hi => row_of_matrix _ _ (by omega) (by omega) (by omega), fun i hi => row_of_matrix _ _ (by omega) (by omega) (by omega),
    fun _ => rfl, by decide +kernel⟩

/-- ScenesBeamsAndRays: pieces of a scene that lie in the HBM of one die; a ROOT with a reserved bit. -/
theorem witness_scene_reads :
    ((List.range 8).all fun j => ok? (scened.keyOf 0 0 0 ((0x3000 : DWord) + BitVec.ofNat 64 (16 * j)) 16 .read {}) fun k =>
      k == 0x3000 + 16 * j && hbmDie k == some 0) = true
    ∧ bytesAt (toBytes 8 (0x3100 + 2 * 2 ^ 62 + 2 ^ 54)) 0 8 / 2 ^ 54 % 2 ^ 8 = 1 ∧ bytesAt sceneBytes 0 8 / 2 ^ 54 % 2 ^ 8 = 0 := by
  decide +kernel

/-- ServiceCommandsAndTelemetry: whether an image verifies under a key is the signature's; given that it does, an image meets the
condition with that key in a slot that is not revoked, and fails it where the slot is revoked or the fused minimum is higher. -/
theorem witness_images (img key : Nat) (h : Config.signatureOk img key = true) :
    let v := fun (revoked : Bool) (n : Nat) => { world.service with keys := [(key, revoked)], minSvn := n }
    imageVerifies (v false (Config.imageSvn img)) img ∧ ¬ imageVerifies (v true 0) img
    ∧ ¬ imageVerifies (v false (Config.imageSvn img + 1)) img := by
  refine ⟨⟨⟨(key, false), by simp, rfl, h⟩, Nat.le_refl _⟩, ?_, fun ⟨_, h⟩ => absurd h (by simp)⟩
  rintro ⟨⟨k, hk, hr, -⟩, -⟩
  simp at hk
  simp [hk] at hr

/-- A switch of the first of four dies, of the last one, and one with no die to follow; the lowest SVN of the dies. -/
theorem witness_switches :
    let sw := fun (l : List Nat) => ({ world with service := { world.service with busy := true, toSwitch := l, staged := some 2, before := [0, 0, 0, 0] } } : State).modDie
      (l.headD 0) fun d => { d with switching := true }
    ((sw [0, 1, 2, 3]).dieAt 0).switching = true ∧ (sw [0, 1, 2, 3]).service.toSwitch = 0 :: 1 :: [2, 3] ∧ 1 ≠ 0
    ∧ ((sw [3]).dieAt 3).switching = true ∧ (sw [3]).service.toSwitch = 3 :: []
    ∧ (∀ c ∈ (sw [3]).ctxs, c.held = false) ∧ Ctx.reset.held = false
    ∧ (∃ d ∈ world.dies, d.svn = 0) ∧ (∀ d ∈ world.dies, 0 ≤ d.svn)
    ∧ world.service.svcarg = 0 ∧ world.service.busy = false := by decide +kernel

/-- ErrorsRetirementLinksAndPackages: an error with an owner and without one; a die that switches; a unit of each class, with a spare
left and with none; a channel that is retired already; bridges and links that have failed; a link at its third retrain. -/
theorem witness_retirements :
    let e : ErrorReport := { cls := 7, die := 2, unit := 0, lasting := false, repaired := false, cells := [], owner := none, addr := 0x3000 }
    let sw := world.modDie 2 fun d => { d with switching := true }
    let bare := world.modDie 2 fun d => { d with spares := 12 }
    let link := fun (c : Channel) => ({ world with links := [c], bridges := [c] } : State)
    (world.group? world.me.gid).isSome = true ∧ e.owner = none ∧ (world.dieAt e.die).switching = false ∧ (sw.dieAt 2).switching = true
    ∧ ((List.range world.ctxs.length).filter fun c => decide ((world.ctxAt c).state = 1)) = [0]
    ∧ (world.dieAt 2).spares < 12 ∧ ¬ (bare.dieAt 2).spares < 12 ∧ (∃ i < Config.coresOf 2, Config.coreKey 2 0 = Config.coreKey 2 i)
    ∧ (world.dieAt 2).retired = []
    ∧ ((link (Channel.up 8)).bridges.getD 0 (Channel.up 8)).failed = false
    ∧ ((link { Channel.up 8 with failed := true }).bridges.getD 0 (Channel.up 8)).failed = true
    ∧ ((link (Channel.up 8)).links.getD 0 (Channel.up 8)).lanes = 8 ∧ ((link { Channel.up 8 with lanes := 4 }).links.getD 0 (Channel.up 8)).lanes ≠ 8
    ∧ (let c := (link { Channel.up 8 with retraining := true, attempts := 2 }).links.getD 0 (Channel.up 8); c.retraining = true ∧ 2 ≤ c.attempts) := by
  decide +kernel

theorem witness_retired_channel :
    Config.channelPages 2 1 ∈ ((world.modDie 2 fun d => { d with retired := [Config.channelPages 2 1] }).dieAt 2).retired := by
  have h : ((world.modDie 2 fun d => { d with retired := [Config.channelPages 2 1] }).dieAt 2).retired = [Config.channelPages 2 1] := rfl
  simp [h]

/-! ### Waits, restores and logs -/

/-- WaitsParkAndComeBack: what each kind of wait compares with: a word, a ring, a future, a lock, a counter, a quota, an order word;
the list of the die, the pool of tokens, the DDA, the credit of the team at the head of its claims and elsewhere. -/
theorem witness_watched_objects :
    let w : Nat → Wait := fun kind => { kind, obj := 0x3000, owner := 7, detail := 2, since := 0 }
    let at' := fun (x : Nat) => put world 0x3000 (toBytes 16 x)
    let claims := fun (l : List Nat) (n : Nat) => world.modTeam 1 fun t => { t with claims := l, credit := n }
    (world.waitedKey 0x3000 0 4 = some 0x3000 ∧ world.waitedKey 0x3000 4 4 = some 0x3004 ∧ world.waitedKey 0x3000 0 8 = some 0x3000)
    ∧ world.objectKey? 0x3000 = some 0x3000
    ∧ ([2, 4, 5, 6, 8].map fun k => world.waitOver (w k)) = [false, false, true, true, false]
    ∧ ([2, 4, 5, 6, 8].map fun k => (at' (7 + 2 ^ 112)).waitOver (w k)) = [true, true, false, false, true]
    ∧ (at' (2 ^ 63)).waitOver (w 2) = true
    ∧ [12, 13, 15, 16, 17].map (fun k => world.waitOver (w k)) = [true, true, true, true, true]
    ∧ ({ world with tokens := 0 } : State).waitOver (w 15) = false
    ∧ (claims [0] 64).waitOver { w 7 with detail := 4 } = true
    ∧ (claims [1] 64).waitOver { w 7 with detail := 4 } = false ∧ (claims [0] 64).occ.width = 16
    ∧ world.watchFired { w 2 with moved := true } = true ∧ world.watchFired { w 2 with mark := world.waitMark (w 2) } = false
    ∧ (let x : Watching := { gid := 2, lo := 0x3000, hi := 0x3004, fired := false }
       (({ world with watching := [x] } : State).poke 0x3003 [1]).watching.map (·.fired) = [true]
       ∧ (({ world with watching := [x] } : State).poke 0x3004 [1]).watching.map (·.fired) = [false]) := by decide +kernel

/-- A parked slot that waits for a future or a lock: of a group, of a task, and of a group with an adopted task. -/
def parkedFor (kind task : Nat) (under : List Occ) : State :=
  let o := { world.occ with task, parked := some { kind, obj := 0x3000, owner := 0, detail := 0, since := 0 } }
  let s := put world 0x3000 (toBytes 16 (1 * 2 ^ 32 + 1 * 2 ^ 96))
  { s with me := Group.vacant, others := [{ world.me with run := .waitPark false, occ := o, under }], tasks := [{ TaskInfo.fresh 0 1 with home := (2, 5) }] }

theorem witness_requeues :
    (∀ kind ∈ [4, 5], ∀ task < 2, ∀ under ∈ [[], [{ world.occ with task := 0 }]],
      let s := parkedFor kind task under
      ((s.me :: s.others).map (·.gid)).Nodup ∧ s.mem.wf = true
      ∧ (s.group? 2).any (fun g => g.run == .waitPark false && g.occ.parked.any (·.kind == kind) && (s.seenBy g).objectKey? 0x3000 == some 0x3000
          && g.bottom.task == (if under = [] then task else 0)) = true)
    ∧ ((parkedFor 4 1 []).requeue 2).ready.map (fun r => (r.die, r.cluster, r.task)) = [(2, 5, 1)]
    ∧ ((parkedFor 4 1 []).requeue 2).mem.getN 0x300C 2 = 0 ∧ ((parkedFor 5 1 []).requeue 2).mem.getN 0x3004 4 = 0
    ∧ ((parkedFor 4 1 [{ world.occ with task := 0 }]).requeue 2).ready.map (fun r => (r.task, r.slot)) = [(0, some 2)]
    ∧ ((parkedFor 4 0 []).requeue 2).ready = [] := by decide +kernel

/-- Slots that may come back and slots that may not. -/
theorem witness_resumable :
    let s := parkedFor 4 1 []
    let g := fun (run : Run) => { s.others.headD Group.vacant with run }
    s.resumable (g (.waitPark true)) = true ∧ s.resumable (g (.waitPark false)) = false ∧ s.resumable (g .preemptPark) = true
    ∧ (let t := (parkedFor 4 0 []).modTeam 1 fun t => { t with parked := true }
       t.resumable ({ (parkedFor 4 0 []).others.headD Group.vacant with run := .waitPark true }) = false)
    ∧ (parkedFor 4 0 []).resumable ({ (parkedFor 4 0 []).others.headD Group.vacant with run := .waitPark true }) = true := by decide +kernel

/-- A group of a team that resumes, with 4 bytes in its save area. -/
def restorable (off x : Nat) : State :=
  put (((waiting 0).modTeam 1 fun t => { t with resuming := true }).mapOcc fun o => { o with wait := none }) (0x40000 + off) (toBytes 4 x)

/-- The record of a save area that nothing has written is read, is legal, and holds no command. -/
theorem recN_zeros (n off m : Nat) : recN (List.replicate n 0#8) off m = 0 := by
  have h (k : Nat) : ofBytes (List.replicate k 0#8) = 0 := by
    induction k with
    | zero => rfl
    | succ k ih => simp [List.replicate_succ, ofBytes, ih]
  simp [recN, List.drop_replicate, List.take_replicate, h]

theorem recReserved_zeros (n : Nat) (team : Bool) : recReserved (List.replicate n 0#8) team = true := by
  simp [recReserved, recN_zeros, bitsOf]

theorem witness_record_read :
    (ok? ((restorable 0 0).readSave (restorable 0 0).me.bottom.saveptr) (· == List.replicate 4096 0#8)) = true
    ∧ (∀ team, recReserved (List.replicate 4096 0#8) team = true) ∧ (∀ off n, recN (List.replicate 4096 0#8) off n = 0) := by
  exact ⟨by decide +kernel, recReserved_zeros 4096, recN_zeros 4096⟩

/-- One that is read and not taken: a window beyond the last row, one that ends before it begins, a reserved bit; a team that resumes. -/
theorem witness_record_not_taken :
    ([restorable 0xFE8 (3073 * 2 ^ 16), restorable 0xFE8 1].map fun s => ok? (s.readSave s.me.bottom.saveptr) fun r =>
      decide (recN r 0xFE8 4 % 2 ^ 12 ≤ recN r 0xFE8 4 / 2 ^ 16 % 2 ^ 12 ∧ recN r 0xFE8 4 / 2 ^ 16 % 2 ^ 12 ≤ 3072)) = [false, false]
    ∧ (ok? ((restorable 0x06C (2 ^ 31)).readSave 0x40000) fun r => !recReserved r true) = true
    ∧ (restorable 0 0).occ.sysPend = [] ∧ (restorable 0 0).me.under = [] ∧ (restorable 0 0).readsTeam true = true ∧ (waiting 0).readsTeam true = false
    ∧ ((restorable 0 0).team? (restorable 0 0).me.bottom.team).isSome = true := by decide +kernel

theorem witness_restore_place :
    ((requeued.me :: requeued.others).map (·.gid)).Nodup ∧ (requeued.group? 2).isSome = true
    ∧ (requeued.restoreGroup 2 ⟨512, 0⟩).isSome = true := by decide +kernel

/-- Entries of the hang log: a group that waits, one that is parked, a DDA that it owns with and without an element to apply; a log with
room for a record and one without. -/
theorem witness_hang_entries :
    let s := waiting 0
    let own := fun (d : Dda → Dda) => s.modCore 512 fun c => { c with dda := d { c.dda with owner := some (2, 0) } }
    let log := fun (size : Nat) => put world 0x50000 (toBytes 24 (64 + 0 * 2 ^ 64 + size * 2 ^ 128))
    s.me.occ.wait.isSome = true ∧ (parkedFor 4 1 []).others.all (fun g => g.occ.wait.isNone && g.occ.parked.isSome) = true
    ∧ ((own id).coreAt s.me.place.core).dda.owner = some (2, 0) ∧ (s.coreAt s.me.place.core).dda.owner ≠ some (2, 0)
    ∧ ((own fun d => { d with running := [(0x10004, [])] }).coreAt s.me.place.core).dda.running.length = 1
    ∧ ((log 128).devRead 0 0x50000 8 = some 64 ∧ (log 128).devRead 0 0x50008 8 = some 0 ∧ (log 128).devRead 0 0x50010 4 = some 128
      ∧ (log 128).devRead 0 0x50014 4 = some 0)
    ∧ ¬ 128 < (List.replicate 64 (0 : Byte)).length + (64 - 0) ∧ 127 < (List.replicate 64 (0 : Byte)).length + (64 - 0)
    ∧ ((log 128).appendLog 0 0x50000 (List.replicate 64 1)).any (fun t => t.mem.getN 0x50000 8 == 128 && t.mem.getN 0x50080 1 == 1) = true
    ∧ ((log 127).appendLog 0 0x50000 (List.replicate 64 1)).any (fun t => t.mem.getN 0x50000 8 == 64 && t.mem.getN 0x50014 4 == 1) = true := by
  decide +kernel

end Sys2Proof.Tests
end

/-! ## Scalar instructions of the K engine: an instruction that runs, the values it writes, and its encoding -/

namespace Sys2Proof.Machine

/-! ### Guarded instructions that run (R47, R98) -/

/-- An instruction that comes to a guarded write of s[d] runs, and leaves in s[d] the value written. -/
theorem runs_of_kSet {i : Instr} {s : State} {g : KG} {n : Nat} {d : BitVec 6} {v x : DWord} (hg : s.guard g = true)
    (hi : exec i s = kSet g n s d v) (hv : v = x) : Runs i s fun t => s.WroteS t .k n d x := by
  subst hv
  unfold Runs
  rw [hi]
  exact kSet_next g n s d v hg

/-- The same of a guarded write of q[d]. -/
theorem runs_of_kDo_setQ {i : Instr} {s : State} {g : KG} {n : Nat} {d : BitVec 3} {v : Bool} (hg : s.guard g = true)
    (hi : exec i s = kDo g n s fun s => .ok (s.setQ d v)) : Runs i s fun t => s.WroteQ t .k n d v :=
  ⟨_, hi.trans (kDo_next g n s _ _ hg rfl), s.setQ_wroteQ .k n d v⟩

/-- An instruction without an effect of its own runs, and only goes on. -/
theorem runs_of_kDo_ok {i : Instr} {s : State} {g : KG} {n : Nat} (hg : s.guard g = true)
    (hi : exec i s = kDo g n s .ok) : Runs i s fun t => s.WroteNothing t .k n :=
  ⟨_, hi.trans (kDo_next g n s _ _ hg rfl), s.advance_wroteNothing .k n⟩

/-! ### Upper halves of products (R103) -/

theorem upperHalf_ofInt (z : Int) : upperHalf (BitVec.ofInt 128 z) = BitVec.ofInt 64 (z / 2 ^ 64) := by
  apply BitVec.eq_of_toNat_eq
  simp only [upperHalf, BitVec.extractLsb'_toNat, BitVec.toNat_ofInt, Nat.shiftRight_eq_div_pow]
  omega

theorem upperHalf_ofNat (n : Nat) : upperHalf (BitVec.ofNat 128 n) = BitVec.ofNat 64 (n / 2 ^ 64) := by
  apply BitVec.eq_of_toNat_eq
  simp only [upperHalf, BitVec.extractLsb'_toNat, BitVec.toNat_ofNat, Nat.shiftRight_eq_div_pow]
  omega

theorem smulHigh_eq_upperHalf (x y : DWord) : smulHigh x y = upperHalf (x.signExtend 128 * y.signExtend 128) := by
  unfold BitVec.signExtend
  rw [← BitVec.ofInt_mul, upperHalf_ofInt, smulHigh]

theorem umulHigh_eq_upperHalf (x y : DWord) : umulHigh x y = upperHalf (x.setWidth 128 * y.setWidth 128) := by
  rw [← BitVec.ofNat_toNat, ← BitVec.ofNat_toNat, ← BitVec.ofNat_mul, upperHalf_ofNat, umulHigh]

/-! ### Shift counts (R104), minimum and maximum (R103) -/

theorem shiftCount_eq_extractLsb' (y : DWord) : shiftCount y = (y.extractLsb' 0 6).toNat := by
  rw [BitVec.extractLsb'_toNat, Nat.shiftRight_zero]
  rfl

/-- Where the wider of two conditions holds alone, the alternatives agree, so either condition chooses the same value: the model breaks a
tie of a minimum or a maximum by ≤, the statement by <. -/
theorem ite_eq_ite_of_imp {α : Type} {p q : Prop} [Decidable p] [Decidable q] {c d : α} (hqp : q → p) (h : p → ¬ q → c = d) :
    (if p then c else d) = if q then c else d := by
  by_cases hq : q
  · rw [if_pos hq, if_pos (hqp hq)]
  · by_cases hp : p
    · rw [if_pos hp, if_neg hq, h hp hq]
    · rw [if_neg hp, if_neg hq]

theorem eq_of_toInt_tie {x y : DWord} (hle : x.toInt ≤ y.toInt) (hlt : ¬ x.toInt < y.toInt) : x = y :=
  BitVec.eq_of_toInt_eq (Int.le_antisymm hle (Int.not_lt.mp hlt))

theorem eq_of_toNat_tie {x y : DWord} (hle : x.toNat ≤ y.toNat) (hlt : ¬ x.toNat < y.toNat) : x = y :=
  BitVec.eq_of_toNat_eq (Nat.le_antisymm hle (Nat.not_lt.mp hlt))

theorem smin64_eq (x y : DWord) : smin64 x y = if x.toInt < y.toInt then x else y := by
  simp only [smin64, BitVec.sle_iff_toInt_le]
  exact ite_eq_ite_of_imp Int.le_of_lt eq_of_toInt_tie

theorem smax64_eq (x y : DWord) : smax64 x y = if x.toInt < y.toInt then y else x := by
  simp only [smax64, BitVec.sle_iff_toInt_le]
  exact ite_eq_ite_of_imp Int.le_of_lt fun hle hlt => (eq_of_toInt_tie hle hlt).symm

theorem umin64_eq (x y : DWord) : umin64 x y = if x.toNat < y.toNat then x else y := by
  simp only [umin64, BitVec.ule_iff_toNat_le]
  exact ite_eq_ite_of_imp Nat.le_of_lt eq_of_toNat_tie

theorem umax64_eq (x y : DWord) : umax64 x y = if x.toNat < y.toNat then y else x := by
  simp only [umax64, BitVec.ule_iff_toNat_le]
  exact ite_eq_ite_of_imp Nat.le_of_lt fun hle hlt => (eq_of_toNat_tie hle hlt).symm

/-! ### Conditions and their encoding (R105) -/

theorem scalarCond_iff (cc : BitVec 4) (x y : DWord) : scalarCond cc.toNat x y = true ↔ scmpHolds cc x y := by
  unfold scalarCond scmpHolds
  match cc.toNat with
  | 0 => exact beq_iff_eq
  | 1 => exact bne_iff_ne
  | 2 => exact BitVec.slt_iff_toInt_lt
  | 3 => exact BitVec.sle_iff_toInt_le
  | 4 => exact BitVec.ult_iff_toNat_lt
  | 5 => exact BitVec.ule_iff_toNat_le
  | 6 => exact BitVec.sle_iff_toInt_le
  | 7 => exact BitVec.slt_iff_toInt_lt
  | 8 => exact BitVec.ule_iff_toNat_le
  | _ + 9 => exact BitVec.ult_iff_toNat_lt

theorem lowest_isSome_of_mem {e : Nat × Bool} {ds : Defects} (h : e ∈ ds) : (lowest ds).isSome = true := by
  cases ds with
  | nil => cases h
  | cons d ds =>
    simp only [lowest]
    split
    · rfl
    · split <;> rfl

/-- A defect of its form makes an instruction ill-formed (R58). -/
theorem wf_eq_false_of_defect {i : Instr} {fm : Form} {e : Nat × Bool} (hf : i.form = some fm) (he : e ∈ fm.defects) :
    i.wf = false := by
  obtain ⟨e', hl⟩ := Option.isSome_iff_exists.mp (lowest_isSome_of_mem he)
  simp only [Instr.wf, hf, hl]
  exact Bool.and_false _

/-- A code of fn above the ten conditions is a defect of SCMP in both lengths, subcode 4. -/
theorem scmp_reserved_defect (g : KG) (d a b : Nat) (cc : BitVec 4) (x : Option Word) (h : 10 ≤ cc.toNat) :
    (4, false) ∈ (Form.kForm .k 0x0C g (kBody d a b cc.toNat) x).defects := by
  have hk : 10 ≤ (kF (kBody d a b cc.toNat)).toNat := by
    rwa [kF_kBody d a b cc.toNat cc.isLt, ofNat_self]
  exact List.mem_append_left _ (by simp only [Form.fieldDefects, kDefects, viol, hk, decide_true, if_true, List.mem_append,
    List.mem_singleton, true_or, or_true])

/-! ## The statements -/

/-- Every operation of R103 but the shifts and extremes comes to one guarded write of s[d]. -/
theorem scalarArithmetic_holds : scalarArithmeticWrapsAt64Bits := by
  intro s g d a b imm hg x y z
  exact ⟨runs_of_kSet hg (exec_sadd ..) rfl, runs_of_kSet hg (exec_saddImm ..) rfl,
    runs_of_kSet hg (exec_ssub ..) rfl, runs_of_kSet hg (exec_ssubImm ..) rfl,
    runs_of_kSet hg (exec_smul ..) rfl, runs_of_kSet hg (exec_smulImm ..) rfl,
    runs_of_kSet hg (exec_smulHi ..) (smulHigh_eq_upperHalf x y),
    runs_of_kSet hg (exec_smulHiImm ..) (smulHigh_eq_upperHalf x z),
    runs_of_kSet hg (exec_smulHiu ..) (umulHigh_eq_upperHalf x y),
    runs_of_kSet hg (exec_smulHiuImm ..) (umulHigh_eq_upperHalf x z),
    runs_of_kSet hg (exec_sand ..) rfl, runs_of_kSet hg (exec_sandImm ..) rfl,
    runs_of_kSet hg (exec_sor ..) rfl, runs_of_kSet hg (exec_sorImm ..) rfl,
    runs_of_kSet hg (exec_sxor ..) rfl, runs_of_kSet hg (exec_sxorImm ..) rfl⟩

theorem scalarShiftsAndExtremes_holds : scalarShiftsAndExtremes := by
  intro s g d a b n imm hg x y z c
  have hc : shiftCount y = c := shiftCount_eq_extractLsb' y
  exact ⟨runs_of_kSet hg (exec_sshl ..) (congrArg (x <<< ·) hc), runs_of_kSet hg (exec_sshlImm ..) rfl,
    runs_of_kSet hg (exec_sshr ..) (congrArg (x >>> ·) hc), runs_of_kSet hg (exec_sshrImm ..) rfl,
    runs_of_kSet hg (exec_sshrA ..) (congrArg x.sshiftRight hc), runs_of_kSet hg (exec_sshrAImm ..) rfl,
    runs_of_kSet hg (exec_smin ..) (smin64_eq x y), runs_of_kSet hg (exec_sminImm ..) (smin64_eq x z),
    runs_of_kSet hg (exec_smax ..) (smax64_eq x y), runs_of_kSet hg (exec_smaxImm ..) (smax64_eq x z),
    runs_of_kSet hg (exec_sminu ..) (umin64_eq x y), runs_of_kSet hg (exec_sminuImm ..) (umin64_eq x z),
    runs_of_kSet hg (exec_smaxu ..) (umax64_eq x y), runs_of_kSet hg (exec_smaxuImm ..) (umax64_eq x z)⟩

theorem scalarMoves_hold : scalarMovesWriteTheirDestination := by
  intro s g hg
  exact ⟨runs_of_kDo_ok hg (exec_nop ..), fun _ => runs_of_kDo_ok hg (exec_nop64 ..),
    fun _ _ => runs_of_kSet hg (exec_smov ..) rfl, fun _ _ => runs_of_kSet hg (exec_smovLc ..) rfl,
    fun _ _ => runs_of_kSet hg (exec_sli ..) rfl, fun _ _ _ => runs_of_kSet hg (exec_sli64 ..) rfl,
    fun _ _ _ _ => runs_of_kSet hg (exec_ssel ..) rfl⟩

theorem scalarCompares_hold : scalarComparesWriteQ := by
  intro s g hg
  exact ⟨fun _ _ _ cc _ => ⟨_, scalarCond_iff cc _ _, runs_of_kDo_setQ hg (exec_scmp ..)⟩,
    fun _ _ cc _ _ => ⟨_, scalarCond_iff cc _ _, runs_of_kDo_setQ hg (exec_scmpImm ..)⟩,
    fun _ _ _ cc h => wf_eq_false_of_defect rfl (scmp_reserved_defect g _ _ _ cc none h),
    fun _ _ cc _ h => wf_eq_false_of_defect rfl (scmp_reserved_defect g _ _ _ cc (some _) h),
    fun _ _ _ _ => runs_of_kDo_setQ hg (exec_qlog ..)⟩

/-- Settles O1: each instruction is one guarded write of s[d], and the value the model writes is the value of R103. -/
theorem scalarBinaryOperationsWrapAt64Bits : Obligations.ScalarBinaryOperationsWrapAt64Bits :=
  ⟨scalarArithmetic_holds, scalarShiftsAndExtremes_holds⟩

/-- Settles O2: each instruction is one guarded write of s[d] or q[d], or nothing; a reserved condition is a defect of the word. -/
theorem scalarMovesAndComparisons : Obligations.ScalarMovesAndComparisons :=
  ⟨scalarMoves_hold, scalarCompares_hold⟩

end Sys2Proof.Machine

/-! ## TWAIT and TSTAT: an M instruction that acts once, the selector, and the two meanings (R194, R195) -/

namespace Sys2Proof.Machine

/-! ### An M instruction that acts once for the group (R47, R170) -/

/-- With its registers below the count and a lane enabled, only its meaning decides what it comes to. -/
theorem mOnce_on {op : Nat} {f : VF} {x : Option MX} {s : State} (body : MX → State → Act State) (hl : s.lanes .m f ≠ [])
    (hc : (Form.mForm op f x).countDefects s.occ.width s.occ.count = []) :
    mOnce op f x s body = finish .m (if x.isSome then 2 else 1) s (body (x.getD defaultMX) s) := by
  simp only [mOnce, mDo, s.checkCount_ok _ hc, bind_ok, if_neg hl]

/-- A register field of seven bits that names an s-register (R49). -/
theorem State.mapOcc_setS_field (s : State) {d : BitVec 7} (x : DWord) (hd : d.toNat < 64) :
    (s.mapOcc fun o => o.setS d.toNat x) = s.setS (d.setWidth 6) x := by
  rw [State.setS, BitVec.toNat_setWidth, Nat.mod_eq_of_lt hd]

/-! ### The selector (R194) -/

/-- Bits [63:17] of a selector are zero exactly below 2^17. -/
theorem selectorReserved_zero {sel : DWord} (h : sel.toNat < 2 ^ 17) : (sel.toNat / 2 ^ 17 == 0) = true :=
  beq_iff_eq.mpr (Nat.div_eq_of_lt h)

theorem selectorReserved_nonzero {sel : DWord} (h : 2 ^ 17 ≤ sel.toNat) : (sel.toNat / 2 ^ 17 == 0) = false :=
  beq_eq_false_iff_ne.mpr (Nat.ne_of_gt (Nat.div_pos h (Nat.two_pow_pos 17)))

theorem any_eq_false_iff_countP_eq_zero {α : Type} {p : α → Bool} {l : List α} : l.any p = false ↔ l.countP p = 0 := by
  rw [List.any_eq_false, List.countP_eq_zero]

/-! ### The meanings -/

section
variable {f : VF} {s : State} {sel : DWord}

theorem execTwait_on (hl : s.lanes .m f ≠ []) (hc : s.CountOk (.twait f)) (hs : s.occ.getS f.a.toNat = sel) :
    execTwait f s = finish .m 1 s (do
      require (sel.toNat / 2 ^ 17 == 0) (s.faultAt .m 0x0B)
      require (!(s.occ.cmds.any fun c => selected sel c.tag)) (.wait 13 0 0 0)
      .ok (s.mapOcc fun o => { o with cmdErrs := o.cmdErrs.filter fun t => !selected sel t }.setS f.d.toNat
        (if s.occ.cmdErrs.any (selected sel) then 1 else 0))) := by
  subst hs
  exact mOnce_on _ hl (hc _ rfl)

theorem execTstat_on (hl : s.lanes .m f ≠ []) (hc : s.CountOk (.tstat f)) (hs : s.occ.getS f.a.toNat = sel) :
    execTstat f s = finish .m 1 s (do
      require (sel.toNat / 2 ^ 17 == 0) (s.faultAt .m 0x0B)
      .ok (s.mapOcc (·.setS f.d.toNat (BitVec.ofNat 64 ((s.occ.cmds.filter fun c => selected sel c.tag).length
        + (s.occ.cmdErrs.any (selected sel)).toNat * 2 ^ 63))))) := by
  subst hs
  exact mOnce_on _ hl (hc _ rfl)

theorem execTwait_reserved (hl : s.lanes .m f ≠ []) (hc : s.CountOk (.twait f)) (hs : s.occ.getS f.a.toNat = sel)
    (h : 2 ^ 17 ≤ sel.toNat) : execTwait f s = s.trappedAt .m 0x0B := by
  rw [execTwait_on hl hc hs, selectorReserved_nonzero h]
  rfl

theorem execTstat_reserved (hl : s.lanes .m f ≠ []) (hc : s.CountOk (.tstat f)) (hs : s.occ.getS f.a.toNat = sel)
    (h : 2 ^ 17 ≤ sel.toNat) : execTstat f s = s.trappedAt .m 0x0B := by
  rw [execTstat_on hl hc hs, selectorReserved_nonzero h]
  rfl

/-- A selected command that is incomplete keeps TWAIT waiting. -/
theorem execTwait_waits (hl : s.lanes .m f ≠ []) (hc : s.CountOk (.twait f)) (hs : s.occ.getS f.a.toNat = sel)
    (h : sel.toNat < 2 ^ 17) (hn : (s.occ.cmds.countP fun c => selected sel c.tag) ≠ 0) :
    execTwait f s = .next (s.beginWait 13 0 0 0) := by
  have hany := eq_true_of_ne_false fun hf => hn (any_eq_false_iff_countP_eq_zero.mp hf)
  rw [execTwait_on hl hc hs, selectorReserved_zero h, hany]
  rfl

/-- With none incomplete, TWAIT clears the selected error records and then writes s[d]. -/
theorem execTwait_completes (hl : s.lanes .m f ≠ []) (hc : s.CountOk (.twait f)) (hs : s.occ.getS f.a.toNat = sel)
    (hd : f.d.toNat < 64) (h : sel.toNat < 2 ^ 17) (hn : (s.occ.cmds.countP fun c => selected sel c.tag) = 0) :
    execTwait f s = .next (((s.mapOcc fun o =>
        { o with cmdErrs := o.cmdErrs.filter fun t => !selected sel t }).setS (f.d.setWidth 6)
      (if s.occ.cmdErrs.any (selected sel) then 1 else 0)).advance .m 1) := by
  rw [execTwait_on hl hc hs, selectorReserved_zero h, any_eq_false_iff_countP_eq_zero.mpr hn, ← State.mapOcc_setS_field _ _ hd]
  rfl

/-- TSTAT writes s[d] and nothing else, whatever is incomplete. -/
theorem execTstat_answers (hl : s.lanes .m f ≠ []) (hc : s.CountOk (.tstat f)) (hs : s.occ.getS f.a.toNat = sel)
    (hd : f.d.toNat < 64) (h : sel.toNat < 2 ^ 17) :
    execTstat f s = .next ((s.setS (f.d.setWidth 6)
      (BitVec.ofNat 64 ((s.occ.cmds.countP fun c => selected sel c.tag)
        + if s.occ.cmdErrs.any (selected sel) then 2 ^ 63 else 0))).advance .m 1) := by
  have hbit (b : Bool) : b.toNat * 2 ^ 63 = if b then 2 ^ 63 else 0 := by cases b <;> rfl
  rw [execTstat_on hl hc hs, selectorReserved_zero h, hbit, ← List.countP_eq_length_filter, State.mapOcc_setS_field _ _ hd]
  rfl

end

/-- Settles O34: each clause is the equation of its case, and what was written is one write of s[d]. -/
theorem commandCompletionIsObserved : Obligations.CommandCompletionIsObserved := by
  intro f s hl hd sel chosen err n
  refine ⟨fun hc => ⟨execTwait_reserved hl hc rfl, execTwait_waits hl hc rfl, fun h hn => ?_⟩,
    fun hc => ⟨execTstat_reserved hl hc rfl, fun h => ?_⟩⟩
  · exact ⟨_, execTwait_completes hl hc rfl hd h hn, State.setS_wroteS ..⟩
  · exact ⟨_, execTstat_answers hl hc rfl hd h, State.setS_wroteS ..⟩

end Sys2Proof.Machine
